-- ==== Sys2Proof/Word.lean ====
section
/-! DEFINITION. Word.lean: the word types of the Zarca. -/

namespace Sys2Proof

/-- One byte of memory. -/
abbrev Byte := BitVec 8

/-- A v register's 32 bits. -/
abbrev Word := BitVec 32

/-- A d pair's 64 bits, or a virtual address. -/
abbrev DWord := BitVec 64

/-- An instruction word of 96 bits (R48). -/
abbrev IWord := BitVec 96

/-- A format-tag byte (R10): class [7:5], prec [4:2], signed [1], inf [0]. -/
abbrev Tag := BitVec 8

end Sys2Proof
end

