-- ==== Sys2Proof/Syntax.lean ====
section
/-! DEFINITION. Syntax.lean: operands, the operand shapes of the 162 instruction words (R57), and
`Instr`, one constructor for each row of spec/opcode_table.json: the instruction words and the
steps that engines, the mapper, the hypervisor, the host and the tools make. -/

namespace Sys2Proof

/-- What an 8-bit operand field names (R12). -/
inductive Opd where
  | v (n : Fin 192)
  | k (n : Fin 16)
  | t (n : Fin 8)
  | b (n : Fin 16)
  | zero
  deriving DecidableEq, Repr

/-- Operand b: a register field, or imm32 in format I (R49, R50). -/
inductive Src where
  | reg (o : Opd)
  | imm (w : Word)
  deriving DecidableEq, Repr

/-- Integer type codes of groups 0x0 to 0x2 (R55). -/
inductive IntTy where
  | n32 | s32 | n64 | s64 | n16 | s16 | n8 | s8
  deriving DecidableEq, Repr

/-- Width codes of group 0x4 (R55). -/
inductive Width where
  | b1 | b2 | b4 | b8 | b16
  deriving DecidableEq, Repr

/-- Atomic type codes of group 0x5 (R55). -/
inductive AtomTy where
  | n32 | s32 | n64 | s64 | f32 | f64
  deriving DecidableEq, Repr

/-- Operation codes of ATOM and ATOMD (R277). -/
inductive AtomFn where
  | add | min | max | and | or | xor | exch
  deriving DecidableEq, Repr

/-- Type codes of CRED and CSCAN (R133). -/
inductive RedTy where
  | n32 | s32 | n64 | s64 | f32
  deriving DecidableEq, Repr

/-- Operations of CRED and CSCAN (R133). -/
inductive RedFn where
  | add | min | max | and | or | xor
  deriving DecidableEq, Repr

/-- Float type codes of group 0x6 (R55). -/
inductive FloatTy where
  | f32 | bf16 | f16
  deriving DecidableEq, Repr

/-- Rounding codes (R55): `dyn` takes the rmode of `%fctl` at issue. -/
inductive RndSel where
  | dyn | rne | rtz | rdn | rup | sr
  deriving DecidableEq, Repr

/-- Condition codes (R55). -/
inductive Cond where
  | eq | ne | lt | le | gt | ge | ord | uno
  deriving DecidableEq, Repr

/-- Guard and hints of a word (R48, R52, R54). -/
structure Ctl where
  neg : Bool
  pred : Fin 8
  bnd : Bool
  reuseA : Bool
  reuseB : Bool
  deriving DecidableEq, Repr

/-- A crew code (R127): a crew, or the thread's current crew. -/
inductive CrewCode where
  | id (n : Fin 64)
  | cur
  deriving DecidableEq, Repr

/-! ## Operand shapes -/

/-- d, a, b with an integer type. -/
structure IntOp where
  ctl : Ctl
  ty : IntTy
  d : Opd
  a : Opd
  b : Src
  deriving DecidableEq, Repr

/-- d, a, b, c with an integer type. -/
structure IntOp3 where
  ctl : Ctl
  ty : IntTy
  d : Opd
  a : Opd
  b : Src
  c : Opd
  deriving DecidableEq, Repr

/-- d, a with an integer type. -/
structure IntUn where
  ctl : Ctl
  ty : IntTy
  d : Opd
  a : Opd
  deriving DecidableEq, Repr

/-- MOVI. -/
structure MovI where
  ctl : Ctl
  ty : IntTy
  d : Opd
  imm : Word
  deriving DecidableEq, Repr

/-- MOVHI and ADDPCHI. -/
structure MovH where
  ctl : Ctl
  ty : IntTy
  d : Opd
  hi : BitVec 20
  deriving DecidableEq, Repr

/-- LEA. -/
structure LeaOp where
  ctl : Ctl
  d : Opd
  a : Opd
  off : BitVec 12
  deriving DecidableEq, Repr

/-- ICMP. -/
structure IcmpOp where
  ctl : Ctl
  ty : IntTy
  cond : Cond
  pd : Fin 8
  a : Opd
  b : Src
  deriving DecidableEq, Repr

/-- SEL. -/
structure SelOp where
  ctl : Ctl
  ty : IntTy
  d : Opd
  a : Opd
  b : Src
  pc : Fin 8
  deriving DecidableEq, Repr

/-- PLOP. -/
structure PlopOp where
  ctl : Ctl
  pd : Fin 8
  pa : Fin 8
  pc : Fin 8
  pz : Fin 8
  table : BitVec 8
  deriving DecidableEq, Repr

/-- The two directions of PMOV (R77). -/
inductive PmovDir where
  | toReg (d : Opd)
  | fromReg (a : Opd) (mask : BitVec 7)
  deriving DecidableEq, Repr

/-- PMOV. -/
structure PmovOp where
  ctl : Ctl
  dir : PmovDir
  deriving DecidableEq, Repr

/-- PSET. -/
structure PsetOp where
  ctl : Ctl
  vals : BitVec 7
  mask : BitVec 7
  deriving DecidableEq, Repr

/-- BRA and CALL. -/
structure BrOp where
  ctl : Ctl
  off : Word
  deriving DecidableEq, Repr

/-- One operand field a: BRX, CALLX, WREG, TCOMP (its bin in b), BSYNC (its barrier in a). -/
structure AOp where
  ctl : Ctl
  a : Opd
  deriving DecidableEq, Repr

/-- No operand. -/
structure NoOp where
  ctl : Ctl
  deriving DecidableEq, Repr

/-- LD, LDS, LDC, LDP. -/
structure LoadOp where
  ctl : Ctl
  width : Width
  sext : Bool
  fmt : Tag
  pol : Fin 4
  d : Opd
  a : Opd
  off : BitVec 12
  deriving DecidableEq, Repr

/-- ST, STS, STP. -/
structure StoreOp where
  ctl : Ctl
  width : Width
  fmt : Tag
  colour : Fin 8
  pol : Fin 4
  a : Opd
  b : Opd
  off : BitVec 12
  deriving DecidableEq, Repr

/-- PREF. -/
structure PrefOp where
  ctl : Ctl
  pol : Fin 4
  a : Opd
  off : BitVec 12
  deriving DecidableEq, Repr

/-- FENCE. -/
structure FenceOp where
  ctl : Ctl
  mask : BitVec 8
  deriving DecidableEq, Repr

/-- ATOM and ATOMD. -/
structure AtomOp where
  ctl : Ctl
  ty : AtomTy
  acq : Bool
  rel : Bool
  fn : AtomFn
  d : Opd
  a : Opd
  b : Opd
  off : BitVec 12
  deriving DecidableEq, Repr

/-- CAS. -/
structure CasOp where
  ctl : Ctl
  ty : AtomTy
  acq : Bool
  rel : Bool
  d : Opd
  a : Opd
  b : Opd
  c : Opd
  off : BitVec 12
  deriving DecidableEq, Repr

/-- FADD, FSUB, FMUL, FMIN, FMAX, FDIV. -/
structure FOp where
  ctl : Ctl
  ty : FloatTy
  rnd : RndSel
  d : Opd
  a : Opd
  b : Src
  deriving DecidableEq, Repr

/-- FFMA. -/
structure FOp3 where
  ctl : Ctl
  ty : FloatTy
  rnd : RndSel
  d : Opd
  a : Opd
  b : Src
  c : Opd
  deriving DecidableEq, Repr

/-- FCMP. -/
structure FcmpOp where
  ctl : Ctl
  cond : Cond
  pd : Fin 8
  a : Opd
  b : Src
  deriving DecidableEq, Repr

/-- d, a with a rounding code: FCLASS, FSQRT, DSQRT, DCLASS and the special functions. -/
structure FUn where
  ctl : Ctl
  rnd : RndSel
  d : Opd
  a : Opd
  deriving DecidableEq, Repr

/-- Register-only d, a, b with a rounding code: group 0x7. -/
structure DOp where
  ctl : Ctl
  rnd : RndSel
  d : Opd
  a : Opd
  b : Opd
  deriving DecidableEq, Repr

/-- Register-only d, a, b, c with a rounding code: FDOT4 and DFMA. -/
structure DOp3 where
  ctl : Ctl
  rnd : RndSel
  d : Opd
  a : Opd
  b : Opd
  c : Opd
  deriving DecidableEq, Repr

/-- DCMP. -/
structure DcmpOp where
  ctl : Ctl
  cond : Cond
  pd : Fin 8
  a : Opd
  b : Opd
  deriving DecidableEq, Repr

/-- CVT and CVTS. -/
structure CvtOp where
  ctl : Ctl
  rnd : RndSel
  d : Opd
  a : Opd
  b : Opd
  fmt : Tag
  deriving DecidableEq, Repr

/-- CVTI. -/
structure CvtiOp where
  ctl : Ctl
  rnd : RndSel
  toFloat : Bool
  ty : IntTy
  fmt : Tag
  d : Opd
  a : Opd
  deriving DecidableEq, Repr

/-- TAGSET. -/
structure TagsetOp where
  ctl : Ctl
  d : Opd
  a : Opd
  b : Opd
  fmt : Tag
  deriving DecidableEq, Repr

/-- d, a: TAGGET. -/
structure DaOp where
  ctl : Ctl
  d : Opd
  a : Opd
  deriving DecidableEq, Repr

/-- RMSN (eps in c), SMAX, ROWSUM (c unused). -/
structure RowOp where
  ctl : Ctl
  d : Opd
  a : Opd
  b : Opd
  c : Opd
  deriving DecidableEq, Repr

/-- ROWSCALE; `exp` chooses mode 1. -/
structure RowscaleOp where
  ctl : Ctl
  rnd : RndSel
  fmt : FloatTy
  exp : Bool
  d : Opd
  a : Opd
  b : Opd
  c : Opd
  deriving DecidableEq, Repr

/-- JOIN. -/
structure JoinOp where
  ctl : Ctl
  d : Opd
  b : Src
  pc : Fin 8
  deriving DecidableEq, Repr

/-- One source b: LEAVE, MZERO. -/
structure BOp where
  ctl : Ctl
  b : Src
  deriving DecidableEq, Repr

/-- d and a source b: CREW, RESUME, MWAIT. -/
structure DbOp where
  ctl : Ctl
  d : Opd
  b : Src
  deriving DecidableEq, Repr

/-- The four modes of SHFL (R131). -/
inductive ShflMode where
  | idx | up | down | xor
  deriving DecidableEq, Repr

/-- SHFL; `wide` moves a d pair. -/
structure ShflOp where
  ctl : Ctl
  wide : Bool
  mode : ShflMode
  d : Opd
  a : Opd
  b : Src
  crew : CrewCode
  deriving DecidableEq, Repr

/-- The four modes of VOTE (R132) with their destinations. -/
inductive VoteDst where
  | any (pd : Fin 8)
  | all (pd : Fin 8)
  | leader (pd : Fin 8)
  | ballot (d : Opd)
  deriving DecidableEq, Repr

/-- VOTE. -/
structure VoteOp where
  ctl : Ctl
  dst : VoteDst
  pa : Fin 8
  crew : CrewCode
  deriving DecidableEq, Repr

/-- CRED. -/
structure CredOp where
  ctl : Ctl
  ty : RedTy
  fn : RedFn
  d : Opd
  a : Opd
  crew : CrewCode
  deriving DecidableEq, Repr

/-- CSCAN. -/
structure CscanOp where
  ctl : Ctl
  ty : RedTy
  excl : Bool
  fn : RedFn
  d : Opd
  a : Opd
  crew : CrewCode
  deriving DecidableEq, Repr

/-- BINIT. -/
structure BinitOp where
  ctl : Ctl
  bar : Fin 16
  b : Src
  deriving DecidableEq, Repr

/-- BARV (its word to d). -/
structure BarvOp where
  ctl : Ctl
  d : Opd
  bar : Fin 16
  deriving DecidableEq, Repr

/-- BWAIT. -/
structure BwaitOp where
  ctl : Ctl
  bar : Fin 16
  b : Opd
  deriving DecidableEq, Repr

/-- BSYNC. -/
structure BsyncOp where
  ctl : Ctl
  bar : Fin 16
  deriving DecidableEq, Repr

/-- CPY and CPYO. -/
structure CopyOp where
  ctl : Ctl
  bar : Option (Fin 16)
  a : Opd
  b : Opd
  c : Opd
  deriving DecidableEq, Repr

/-- CPYX. -/
structure CopyxOp where
  ctl : Ctl
  bar : Option (Fin 16)
  dim : Fin 8
  a : Opd
  b : Opd
  c : Opd
  deriving DecidableEq, Repr

/-- PUBL. -/
structure PublOp where
  ctl : Ctl
  bar : Option (Fin 16)
  keep : Bool
  a : Opd
  b : Opd
  deriving DecidableEq, Repr

/-- CPQ. -/
structure CpqOp where
  ctl : Ctl
  clr : Bool
  d : Opd
  deriving DecidableEq, Repr

/-- WAIT. -/
structure WaitOp where
  ctl : Ctl
  l : BitVec 6
  s : BitVec 6
  c : BitVec 6
  t : BitVec 6
  deriving DecidableEq, Repr

/-- MCLM. -/
structure MclmOp where
  ctl : Ctl
  acc : Bool
  wait : Bool
  d : Opd
  b : Src
  deriving DecidableEq, Repr

/-- MREL. -/
structure MrelOp where
  ctl : Ctl
  acc : Bool
  b : Src
  deriving DecidableEq, Repr

/-- MLDS; `roleB` is m[0]. -/
structure MldsOp where
  ctl : Ctl
  roleB : Bool
  fmt : Tag
  d : Opd
  a : Opd
  deriving DecidableEq, Repr

/-- MPOST. -/
structure MpostOp where
  ctl : Ctl
  bar : Option (Fin 16)
  a : Opd
  deriving DecidableEq, Repr

/-- MACC. -/
structure MaccOp where
  ctl : Ctl
  clr : Bool
  d : Opd
  a : Opd
  b : Opd
  deriving DecidableEq, Repr

/-- TRACE. -/
structure TraceOp where
  ctl : Ctl
  f64 : Bool
  log : Bool
  d : Opd
  a : Opd
  b : Opd
  c : Opd
  deriving DecidableEq, Repr

/-- TRACEC. -/
structure TracecOp where
  ctl : Ctl
  f64 : Bool
  accept : Bool
  d : Opd
  c : Opd
  deriving DecidableEq, Repr

/-- REPLAY. -/
structure ReplayOp where
  ctl : Ctl
  f64 : Bool
  d : Opd
  a : Opd
  b : Opd
  c : Opd
  deriving DecidableEq, Repr

/-- The four queries of HITQ (R240). -/
inductive HitQuery where
  | pos | nrm | record | user
  deriving DecidableEq, Repr

/-- HITQ. -/
structure HitqOp where
  ctl : Ctl
  f64 : Bool
  direct : Bool
  query : HitQuery
  d : Opd
  a : Opd
  b : Opd
  deriving DecidableEq, Repr

/-- ASPH, TRIX and BOXX. -/
structure DirectOp where
  ctl : Ctl
  f64 : Bool
  d : Opd
  a : Opd
  b : Opd
  deriving DecidableEq, Repr

/-- KCLR. -/
structure KclrOp where
  ctl : Ctl
  mask : BitVec 16
  deriving DecidableEq, Repr

/-- Analytic lobes of KLOBE (R255, R257). -/
inductive LobeKind where
  | diff | cond | diel | sheen
  deriving DecidableEq, Repr

/-- KLOBE. -/
structure KlobeOp where
  ctl : Ctl
  lobe : LobeKind
  pd : Fin 8
  d : Opd
  a : Opd
  b : Opd
  deriving DecidableEq, Repr

/-- KNET and KADD: d, a, b and a predicate. -/
structure KabOp where
  ctl : Ctl
  pd : Fin 8
  d : Opd
  a : Opd
  b : Opd
  deriving DecidableEq, Repr

/-- KMIX and KCOAT. -/
structure KabcOp where
  ctl : Ctl
  pd : Fin 8
  d : Opd
  a : Opd
  b : Opd
  c : Opd
  deriving DecidableEq, Repr

/-- KSAMPLE, KEVAL, KPDF: d, a, b. -/
structure KevalOp where
  ctl : Ctl
  d : Opd
  a : Opd
  b : Opd
  deriving DecidableEq, Repr

/-- KSPILL. -/
structure KspillOp where
  ctl : Ctl
  a : Opd
  b : Opd
  deriving DecidableEq, Repr

/-- KFILL. -/
structure KfillOp where
  ctl : Ctl
  pd : Fin 8
  a : Opd
  deriving DecidableEq, Repr

/-- The three queries of KINFO (R263). -/
inductive KQuery where
  | node | free | size
  deriving DecidableEq, Repr

/-- KINFO. -/
structure KinfoOp where
  ctl : Ctl
  query : KQuery
  d : Opd
  a : Opd
  deriving DecidableEq, Repr

/-- YIELDB. -/
structure YieldbOp where
  ctl : Ctl
  pd : Fin 8
  bin : Src
  n : BitVec 8
  need : BitVec 4
  deriving DecidableEq, Repr

/-- WAKE. -/
structure WakeOp where
  ctl : Ctl
  pd : Fin 8
  all : Bool
  mask : BitVec 4
  a : Opd
  b : Opd
  deriving DecidableEq, Repr

/-- BINQ: the count query, or the area setting. -/
structure BinqOp where
  ctl : Ctl
  area : Bool
  d : Opd
  a : Opd
  b : Opd
  deriving DecidableEq, Repr

/-- TSORT. -/
structure TsortOp where
  ctl : Ctl
  desc : Bool
  col : BitVec 8
  b : Opd
  deriving DecidableEq, Repr

/-- MONITOR and UNHOLD. -/
structure LineOp where
  ctl : Ctl
  a : Opd
  off : BitVec 12
  deriving DecidableEq, Repr

/-- HOLD. -/
structure HoldOp where
  ctl : Ctl
  pd : Fin 8
  a : Opd
  off : BitVec 12
  deriving DecidableEq, Repr

/-- SYSC. -/
structure SyscOp where
  ctl : Ctl
  num : BitVec 16
  deriving DecidableEq, Repr

/-- The three modes of TRET (R301). -/
inductive TretMode where
  | resume
  | skip
  | jump (off : BitVec 30)
  deriving DecidableEq, Repr

/-- TRET. -/
structure TretOp where
  ctl : Ctl
  mode : TretMode
  deriving DecidableEq, Repr

/-- TRAP and BKPT. -/
structure CodeOp where
  ctl : Ctl
  code : BitVec 8
  deriving DecidableEq, Repr

/-- SREAD. -/
structure SreadOp where
  ctl : Ctl
  reg : BitVec 8
  idx : BitVec 10
  d : Opd
  a : Opd
  deriving DecidableEq, Repr

/-- SWRITE. -/
structure SwriteOp where
  ctl : Ctl
  reg : BitVec 8
  a : Opd
  deriving DecidableEq, Repr

/-- NOPRE. -/
structure NopreOp where
  ctl : Ctl
  begin : Bool
  deriving DecidableEq, Repr

/-! ## Data of the steps that are no instruction words -/

/-- A thread's key in the state: launches, courses and `%cthr` name it (R15). -/
structure ThreadId where
  launch : Nat
  course : Nat
  cthr : Nat
  deriving DecidableEq, Repr

/-- A course's key in the state. -/
structure CourseId where
  launch : Nat
  course : Nat
  deriving DecidableEq, Repr

/-- What another device asks of this device's home L2 over the link (R346). -/
inductive LinkRequest where
  | read (bytes : Nat)
  | write (data : List Byte)
  | atom (ty : AtomTy) (fn : AtomFn) (operand : DWord)
  | cas (ty : AtomTy) (expected new : DWord)
  deriving DecidableEq, Repr

/-- Where a register of the window lies (R345). -/
inductive WindowPage where
  | management
  | control (part : Nat)
  | user (part : Nat)
  deriving DecidableEq, Repr

/-- One instruction word, or one step of an engine, of system software, of the host or of a tool:
one constructor for each row of the table. -/
inductive Instr where
  -- group 0x0 (R63 to R70)
  | iadd (x : IntOp)
  | isub (x : IntOp)
  | imin (x : IntOp)
  | imax (x : IntOp)
  | iabs (x : IntUn)
  | and (x : IntOp)
  | or (x : IntOp)
  | xor (x : IntOp)
  | not (x : IntUn)
  | andn (x : IntOp)
  | shl (x : IntOp)
  | shr (x : IntOp)
  | sar (x : IntOp)
  | rol (x : IntOp)
  | bfx (x : IntOp)
  | bfi (x : IntOp3)
  | prmt (x : IntOp3)
  | mov (x : IntUn)
  | movi (x : MovI)
  | movhi (x : MovH)
  | addpchi (x : MovH)
  | lea (x : LeaOp)
  -- group 0x1 (R71 to R73)
  | imul (x : IntOp)
  | imulh (x : IntOp)
  | imad (x : IntOp3)
  | imadw (x : IntOp3)
  | idiv (x : IntOp)
  | irem (x : IntOp)
  | dividerComplete (th : ThreadId) (op : Nat)
  | popc (x : IntUn)
  | clz (x : IntUn)
  | ctz (x : IntUn)
  | brev (x : IntUn)
  -- group 0x2 (R74 to R77)
  | icmp (x : IcmpOp)
  | sel (x : SelOp)
  | plop (x : PlopOp)
  | pmov (x : PmovOp)
  | pset (x : PsetOp)
  -- group 0x3 (R78 to R82)
  | bra (x : BrOp)
  | brx (x : AOp)
  | call (x : BrOp)
  | callx (x : AOp)
  | ret (x : NoOp)
  | exit (x : NoOp)
  | nop (x : NoOp)
  -- group 0x4 (R83 to R93)
  | ld (x : LoadOp)
  | st (x : StoreOp)
  | lds (x : LoadOp)
  | sts (x : StoreOp)
  | ldc (x : LoadOp)
  | ldp (x : LoadOp)
  | stp (x : StoreOp)
  | pref (x : PrefOp)
  | loadReturn (th : ThreadId) (op : Nat)
  -- group 0x5 (R266 to R280)
  | acq (x : NoOp)
  | rel (x : NoOp)
  | fence (x : FenceOp)
  | commitRegister (co : CourseId) (commit : Nat)
  | atom (x : AtomOp)
  | cas (x : CasOp)
  | atomicReturn (th : ThreadId) (op : Nat)
  | atomd (x : AtomOp)
  | dflush (x : NoOp)
  | atomdDrain (co : CourseId)
  -- group 0x6 (R159 to R164)
  | fadd (x : FOp)
  | fsub (x : FOp)
  | fmul (x : FOp)
  | ffma (x : FOp3)
  | fmin (x : FOp)
  | fmax (x : FOp)
  | fcmp (x : FcmpOp)
  | fclass (x : FUn)
  | fdiv (x : FOp)
  | fsqrt (x : FUn)
  | fdot4 (x : DOp3)
  -- group 0x7 (R165)
  | dadd (x : DOp)
  | dsub (x : DOp)
  | dmul (x : DOp)
  | dfma (x : DOp3)
  | dmin (x : DOp)
  | dmax (x : DOp)
  | dcmp (x : DcmpOp)
  | ddiv (x : DOp)
  | dsqrt (x : FUn)
  | dclass (x : FUn)
  -- group 0x8 (R166 to R180)
  | cvt (x : CvtOp)
  | cvts (x : CvtOp)
  | cvti (x : CvtiOp)
  | tagset (x : TagsetOp)
  | tagget (x : DaOp)
  | fexp2 (x : FUn)
  | flog2 (x : FUn)
  | frcp (x : FUn)
  | frsq (x : FUn)
  | fsin (x : FUn)
  | fcos (x : FUn)
  | ftanh (x : FUn)
  | fsigm (x : FUn)
  | fgelu (x : FUn)
  | rmsn (x : RowOp)
  | smax (x : RowOp)
  | rowsum (x : RowOp)
  | rowscale (x : RowscaleOp)
  | rowOpWriteCycle (core : Nat)
  -- group 0x9 (R127 to R136)
  | join (x : JoinOp)
  | leave (x : BOp)
  | crew (x : DbOp)
  | shfl (x : ShflOp)
  | vote (x : VoteOp)
  | cred (x : CredOp)
  | cscan (x : CscanOp)
  | crewGather (co : CourseId) (crew : Fin 64)
  | binit (x : BinitOp)
  | barv (x : BarvOp)
  | bwait (x : BwaitOp)
  | bsync (x : BsyncOp)
  -- group 0xA (R126, R195 to R202)
  | cpy (x : CopyOp)
  | cpyx (x : CopyxOp)
  | cpyo (x : CopyOp)
  | publ (x : PublOp)
  | publFlip (co : CourseId) (op : Nat)
  | cpq (x : CpqOp)
  | copyRetire (co : CourseId) (op : Nat)
  | wait (x : WaitOp)
  -- group 0xB (R203 to R214)
  | mclm (x : MclmOp)
  | mrel (x : MrelOp)
  | mlds (x : MldsOp)
  | mldsComplete (cluster : Nat) (op : Nat)
  | mpost (x : MpostOp)
  | macc (x : MaccOp)
  | mzero (x : BOp)
  | engineGrant (cluster : Nat)
  | engineEntryWriteCycle (cluster : Nat) (op : Nat)
  -- group 0xC (R219 to R241)
  | trace (x : TraceOp)
  | tracec (x : TracecOp)
  | replay (x : ReplayOp)
  | hitq (x : HitqOp)
  | asph (x : DirectOp)
  | trix (x : DirectOp)
  | boxx (x : DirectOp)
  | traversalComplete (th : ThreadId) (op : Nat)
  -- group 0xD (R242 to R263)
  | kclr (x : KclrOp)
  | klobe (x : KlobeOp)
  | knet (x : KabOp)
  | kadd (x : KabOp)
  | kmix (x : KabcOp)
  | kcoat (x : KabcOp)
  | kscl (x : DaOp)
  | ksample (x : KevalOp)
  | keval (x : KevalOp)
  | kpdf (x : KevalOp)
  | closureOpComplete (th : ThreadId) (op : Nat)
  | kspill (x : KspillOp)
  | kfill (x : KfillOp)
  | kinfo (x : KinfoOp)
  -- group 0xE (R282 to R295)
  | yieldb (x : YieldbOp)
  | resume (x : DbOp)
  | binAutoResume (co : CourseId)
  | wake (x : WakeOp)
  | binq (x : BinqOp)
  | tsort (x : TsortOp)
  | tcomp (x : AOp)
  | binSortComplete (co : CourseId) (op : Nat)
  | monitor (x : LineOp)
  | mwait (x : DbOp)
  | mwaitWake (th : ThreadId)
  | mwaitTimeout (th : ThreadId)
  | hold (x : HoldOp)
  | unhold (x : LineOp)
  | wreg (x : AOp)
  | wdrop (x : NoOp)
  | purlinEntryExpiry (die : Nat)
  -- group 0xF (R296 to R313)
  | sysc (x : SyscOp)
  | tfence (x : NoOp)
  | tret (x : TretOp)
  | trap (x : CodeOp)
  | sread (x : SreadOp)
  | swrite (x : SwriteOp)
  | launch (x : DOp)
  | nopre (x : NopreOp)
  | nopreExpiry (th : ThreadId)
  | bkpt (x : CodeOp)
  -- issue, twin issue and translation (R118, R120, R138, R188)
  | slotTurn (core : Nat)
  | threadOverdue (th : ThreadId)
  | pullTimeout (part page : Nat)
  -- queues, mapper and dispatcher (R96 to R116, R331)
  | queueEnable (part q : Nat)
  | queueDisable (part q : Nat)
  | queueClearRefusal (part q : Nat)
  | queueCtlBadOp (part q : Nat)
  | doorbellWrite (part q : Nat) (w : DWord)
  | queueSlotAssign (part : Nat)
  | queueAgeOverdue (part q : Nat)
  | packetHeadCheck (part q : Nat)
  | packetBegin (part q : Nat)
  | dependencePoll (part q : Nat)
  | courseDispatch (part : Nat)
  | resplitTimerExpiry (part launch : Nat)
  | coreResplit (core : Nat)
  | resplitTimeWrite (part : Nat) (w : DWord)
  | courseRetire (co : CourseId)
  | launchEnd (launch : Nat)
  -- answers and translation control (R188, R190, R308)
  | faultQueueAnswer (part : Nat) (head : DWord)
  | tlbInvalPage (part ctx : Nat) (va : DWord)
  | tlbInvalContext (part ctx : Nat)
  | tlbInvalPartition (part : Nat)
  | syscAnswer (part : Nat) (head : DWord)
  -- pre-emption and debugging (R305, R310 to R313)
  | softRequest (ctx : Nat)
  | hardHalt (ctx : Nat)
  | contextReset (ctx : Nat)
  | preemptGraceExpiry (ctx : Nat)
  | preemptKillExpiry (ctx : Nat)
  | haltComplete (ctx : Nat)
  | contextRestore (ctx : Nat)
  | preemptTimeWrite (part : Nat) (w : DWord)
  | debugStep (ctx : Nat) (on : Bool)
  | debugBreak (ctx : Nat) (on : Bool)
  | debugContinue (ctx : Nat)
  | ctxS1RootWrite (part : Nat) (w : DWord)
  | ctxCeilWrite (part : Nat) (w : DWord)
  -- containment and reliability (R217, R337 to R340)
  | rollbackReq (part : Nat) (w : DWord)
  | infieldTestStart (cluster : Nat)
  | infieldMoveDeferExpiry (cluster : Nat)
  | infieldTestComplete (cluster : Nat) (failing : List Nat) (sharedPass : Bool)
  -- hypervisor commands (R315 to R330, R349, R352)
  | hvFaultQueueAnswer (head : DWord)
  | hvTlbInvalPage (ctx : Nat) (ia : DWord)
  | hvTlbInvalContext (ctx : Nat)
  | hvTlbInvalPartition (ctx : Nat)
  | settlement (measured : Nat)
  -- host, link, start (R343 to R350)
  | collDoorbell (part ctx : Nat) (w : DWord)
  | privateStorePerformed (th : ThreadId) (op : Nat)
  | triaterPortOutOfService (port : Nat)
  | collectiveReform (op : Nat)
  -- further hypervisor commands, starts, and traffic from outside the part
  | createPartition
  | destroyPartition
  | setContext
  | freeContext
  | loadKey
  | revokeKey
  | snapshot
  | setTokens
  | migrateOut (peerAccepts : Bool)
  | migrateIn (peerAccepts : Bool)
  | setCollectiveGroup
  | attest
  | exportTransportKey
  | hvCmdBadOp
  | hvTlbInvalPart
  -- tools, link traffic, host accesses and faults of the hardware: steps only the outside asks for
  | fjasRun (args : List String)
  | fjldRun (place : Option (Nat × List Nat)) (args : List String)
  | uncorrectableRegisterRead (th : ThreadId) (reg : Fin 192) (mirrorUsable : Bool)
  | engineUncorrectableError (co : CourseId)
  | hostAccess (addr : Nat) (bytes : Nat) (write : Option (List Byte))
  | collectiveComplete (op : Nat) (others : List (List Byte))
  | registerWrite (page : WindowPage) (offset : Nat) (w : DWord)
  | absentPagePull (part page : Nat) (data : List Byte)
  | migrationPathFailure (part : Nat)
  | coldStart
  | warmStart
  | linkRemoteAccess (device : Nat) (addr : Nat) (req : LinkRequest)
  | triaterFlitReceived (port : Nat) (ok : Bool) (pause : BitVec 4)
  | migrationPullRequest (part page : Nat)
  | migrationDataReceived (part : Nat) (absent dirty : List Nat)
  | twinMismatch (core slot : Nat)
  | pageWalk (core ctx : Nat) (va : DWord)
  deriving DecidableEq, Repr

end Sys2Proof
end

