-- ==== Sys2Proof/WellFormed.lean ====
section
/-! DEFINITION. WellFormed.lean: what a word of each instruction may hold whatever kernel runs it
(R9, R11, R12, R53, R55, R56, R58 and the encoding tables of the entries). The checks that read
the kernel descriptor (registers and tiles that exist) are `Instr.fits` of Machine/Operands.lean. -/

namespace Sys2Proof

/-- The field names a v register or is the zero encoding (R9). A cell of an operand table that says only
'v' or 'd pair' admits 0xFF too, by the last sentence of R9: the model's reading, where R58 leaves open
whether such a cell beside one that says 'or 0xFF' shuts it out (log entry 83). -/
def Opd.isV : Opd → Bool
  | .v _ => true
  | .zero => true
  | _ => false

/-- The field names a d pair by its even encoding, or is the zero encoding (R9). -/
def Opd.isPair : Opd → Bool
  | .v n => n.val % 2 == 0
  | .zero => true
  | _ => false

/-- The field names a d pair and not the zero encoding. -/
def Opd.isDpair : Opd → Bool
  | .v n => n.val % 2 == 0
  | _ => false

/-- The field names the first register of a span, even when `even` is set; the zero encoding is
no first register (R9, log entry 10). -/
def Opd.isSpan (o : Opd) (even : Bool) : Bool :=
  match o with
  | .v n => !even || n.val % 2 == 0
  | _ => false

/-- The field names the first of four registers, a multiple of 4 (R55, R83). -/
def Opd.isQuad : Opd → Bool
  | .v n => n.val % 4 == 0
  | _ => false

/-- The field names a t register. -/
def Opd.isT : Opd → Bool
  | .t _ => true
  | _ => false

/-- The field names a k register. -/
def Opd.isK : Opd → Bool
  | .k _ => true
  | _ => false

/-- Operand b is an immediate or names a v register. -/
def Src.isV : Src → Bool
  | .reg o => o.isV
  | .imm _ => true

/-- The type is 64 bits wide. -/
def IntTy.wide : IntTy → Bool
  | .n64 => true
  | .s64 => true
  | _ => false

/-- The type is signed. -/
def IntTy.signed : IntTy → Bool
  | .s32 => true
  | .s64 => true
  | .s16 => true
  | .s8 => true
  | _ => false

/-- The type is one of the four unsigned codes that the bit counts accept. -/
def IntTy.plain (ty : IntTy) : Bool := !ty.signed

/-- The field holds an operand of the type: a pair when it is 64 bits wide (R63). -/
def Opd.ofTy (o : Opd) (wide : Bool) : Bool := if wide then o.isPair else o.isV

/-- Operand b holds an operand of the type or an immediate. -/
def Src.ofTy (s : Src) (wide : Bool) : Bool :=
  match s with
  | .reg o => o.ofTy wide
  | .imm _ => true

/-- The tag byte is one a register may hold (R11). -/
def tagValid (t : Tag) : Bool :=
  let cls := (t >>> 5).toNat
  if cls == 7 then false
  else if cls == 5 || cls == 6 then ((t >>> 2) &&& 7) != 0
  else (t &&& 0x1F) == 0

/-- The class field of a tag byte (R10). -/
def tagClass (t : Tag) : Nat := (t >>> 5).toNat

/-- The guard is 0b0111 (R35, R127). -/
def Ctl.unguarded (c : Ctl) : Bool := !c.neg && c.pred == 7

def IntOp.wfArith (x : IntOp) : Bool :=
  x.d.ofTy x.ty.wide && x.a.ofTy x.ty.wide && x.b.ofTy x.ty.wide

/-- Shifts, ROL and BFX: b is 32 bits for every width (R67, R68). -/
def IntOp.wfShift (x : IntOp) : Bool :=
  x.d.ofTy x.ty.wide && x.a.ofTy x.ty.wide && x.b.isV

def IntOp3.wfArith (x : IntOp3) : Bool :=
  x.d.ofTy x.ty.wide && x.a.ofTy x.ty.wide && x.b.ofTy x.ty.wide && x.c.ofTy x.ty.wide

/-- BFI. -/
def IntOp3.wfInsert (x : IntOp3) : Bool :=
  x.d.ofTy x.ty.wide && x.a.ofTy x.ty.wide && x.b.isV && x.c.ofTy x.ty.wide

/-- PRMT. -/
def IntOp3.wfPrmt (x : IntOp3) : Bool :=
  x.ty == .n32 && x.d.isV && x.a.isV && x.b.isV && x.c.isV

/-- IMADW. -/
def IntOp3.wfWide (x : IntOp3) : Bool :=
  (x.ty == .n32 || x.ty == .s32) && x.d.isPair && x.a.isV && x.b.isV && x.c.isPair

def IntUn.wfSame (x : IntUn) : Bool := x.d.ofTy x.ty.wide && x.a.ofTy x.ty.wide

/-- POPC, CLZ and CTZ write one v register at every width (R73). -/
def IntUn.wfCount (x : IntUn) : Bool := x.ty.plain && x.d.isV && x.a.ofTy x.ty.wide

def MovI.wf (x : MovI) : Bool :=
  (x.ty == .n32 || x.ty.wide) && x.d.ofTy x.ty.wide

def MovH.wf (x : MovH) : Bool :=
  (x.ty == .n32 || x.ty.wide) && x.d.ofTy x.ty.wide

def IcmpOp.wf (x : IcmpOp) : Bool :=
  x.cond != .ord && x.cond != .uno && x.a.ofTy x.ty.wide && x.b.ofTy x.ty.wide

def SelOp.wf (x : SelOp) : Bool :=
  (x.ty == .n32 || x.ty == .n64) && x.d.ofTy x.ty.wide && x.a.ofTy x.ty.wide
    && x.b.ofTy x.ty.wide

def PmovOp.wf (x : PmovOp) : Bool :=
  match x.dir with
  | .toReg d => d.isV
  | .fromReg a _ => a.isV

/-- The format class goes with the width (R83). -/
def Width.allows (w : Width) (fmt : Tag) : Bool :=
  tagValid fmt &&
  match w with
  | .b1 => tagClass fmt == 0
  | .b2 => tagClass fmt == 0
  | .b4 => [0, 1, 3, 4, 5].contains (tagClass fmt)
  | .b8 => [0, 2].contains (tagClass fmt)
  | .b16 => [0, 1, 2, 3, 4, 5].contains (tagClass fmt)

/-- The data register of a memory instruction (R83). -/
def Width.dataOk (w : Width) (o : Opd) : Bool :=
  match w with
  | .b8 => o.isPair
  | .b16 => o.isQuad
  | _ => o.isV

/-- A load: `glob` takes its address from a pair, `pol` accepts a cache policy (R83). -/
def LoadOp.wf (x : LoadOp) (glob pol : Bool) : Bool :=
  x.width.allows x.fmt && x.width.dataOk x.d && (if glob then x.a.isPair else x.a.isV)
    && (!x.sext || x.width == .b1 || x.width == .b2) && (pol || x.pol == 0)

/-- A store: `glob` as for a load, `col` accepts a colour, `pol` a policy (R83). -/
def StoreOp.wf (x : StoreOp) (glob col pol : Bool) : Bool :=
  x.width.allows x.fmt && x.width.dataOk x.b && (if glob then x.a.isPair else x.a.isV)
    && (col || x.colour == 0) && (pol || x.pol == 0)

/-- The type takes pair operands (R277). -/
def AtomTy.wide : AtomTy → Bool
  | .n64 => true
  | .s64 => true
  | .f64 => true
  | _ => false

/-- The type is a float type (R277). -/
def AtomTy.float : AtomTy → Bool
  | .f32 => true
  | .f64 => true
  | _ => false

/-- The operation is one that float types take (R277). -/
def AtomFn.floatOk : AtomFn → Bool
  | .add => true
  | .min => true
  | .max => true
  | .exch => true
  | _ => false

def AtomOp.wfAtom (x : AtomOp) : Bool :=
  x.d.ofTy x.ty.wide && x.a.isPair && x.b.ofTy x.ty.wide && (!x.ty.float || x.fn.floatOk)

def CasOp.wf (x : CasOp) : Bool :=
  !x.ty.float && x.d.ofTy x.ty.wide && x.a.isPair && x.b.ofTy x.ty.wide && x.c.ofTy x.ty.wide

def FOp.wfRegs (x : FOp) : Bool := x.d.isV && x.a.isV && x.b.isV

def FOp3.wf (x : FOp3) : Bool := x.d.isV && x.a.isV && x.b.isV && x.c.isV

def FUn.wfV (x : FUn) : Bool := x.d.isV && x.a.isV

def DOp.wfPairs (x : DOp) : Bool := x.d.isPair && x.a.isPair && x.b.isPair

/-- CVT: the destination is a floating-point class other than `.x32` (R166). -/
def CvtOp.wfCvt (x : CvtOp) : Bool :=
  tagValid x.fmt && tagClass x.fmt != 0 && tagClass x.fmt != 6
    && x.d.isV && x.a.isV && x.b.isV

/-- CVTS: the destination is an `.x32` class (R166). -/
def CvtOp.wfCvts (x : CvtOp) : Bool :=
  tagValid x.fmt && tagClass x.fmt == 6 && x.d.isT && x.a.isT && x.b.isV

def CvtiOp.wf (x : CvtiOp) : Bool :=
  (x.fmt == 0x20 || x.fmt == 0x40) &&
  if x.toFloat then x.d.ofTy (x.fmt == 0x40) && x.a.ofTy x.ty.wide
  else x.d.ofTy x.ty.wide && x.a.ofTy (x.fmt == 0x40)

/-- TAGSET, static and dynamic form (R168). -/
def TagsetOp.wf (x : TagsetOp) : Bool :=
  (match x.b with
    | .zero => tagValid x.fmt
    | .v _ => x.fmt == 0
    | _ => false) &&
  (match x.d, x.a with
    | .t i, .t j => i == j && x.fmt != 0x40
    | d, a => if x.fmt == 0x40 then d.isPair && a.isPair else d.isV && a.isV)

/-- The type moves pairs (R133). -/
def RedTy.wide : RedTy → Bool
  | .n64 => true
  | .s64 => true
  | _ => false

/-- `.f32` takes add, min and max only (R133). -/
def RedTy.takes (ty : RedTy) (fn : RedFn) : Bool :=
  ty != .f32 || fn == .add || fn == .min || fn == .max

def ShflOp.wf (x : ShflOp) : Bool :=
  x.ctl.unguarded && x.d.ofTy x.wide && x.a.ofTy x.wide && x.b.isV

def VoteOp.wf (x : VoteOp) : Bool :=
  x.ctl.unguarded &&
  match x.dst with
  | .ballot d => d.isV
  | _ => true

def CredOp.wf (x : CredOp) : Bool :=
  x.ctl.unguarded && x.ty.takes x.fn && x.d.ofTy x.ty.wide && x.a.ofTy x.ty.wide

def CscanOp.wf (x : CscanOp) : Bool :=
  x.ctl.unguarded && x.ty.takes x.fn && x.d.ofTy x.ty.wide && x.a.ofTy x.ty.wide

/-- MLDS: its format byte, and no tile source for role B (R203). -/
def MldsOp.wf (x : MldsOp) : Bool :=
  tagValid x.fmt && (x.fmt == 0x20 || x.fmt == 0x60 || tagClass x.fmt == 5 || tagClass x.fmt == 6)
    && x.d.isV && (x.a.isV || (x.a.isT && !x.roleB))

def TraceOp.wf (x : TraceOp) : Bool :=
  x.d.isSpan x.f64 && x.a.isPair && x.b.isSpan x.f64 && x.c.isPair && (!x.log || x.c != .zero)

def TracecOp.wf (x : TracecOp) : Bool := x.d.isSpan x.f64 && x.c.isDpair

/-- HITQ: the destination of each query (R240). -/
def HitqOp.wf (x : HitqOp) : Bool :=
  x.a.isPair && x.b.isSpan x.f64 &&
  match x.query with
  | .pos => x.d.isSpan x.f64
  | .nrm => x.d.isSpan x.f64
  | .record => x.d.isPair
  | .user => x.d.isV

/-- KLOBE: the parameter span of each lobe (R255, R257). -/
def KlobeOp.wf (x : KlobeOp) : Bool :=
  x.d.isK && x.a.isSpan false &&
  match x.lobe with
  | .diff => x.b == .zero
  | .sheen => x.b == .zero
  | .cond => x.b.isSpan true
  | .diel => x.b.isSpan false

def KinfoOp.wf (x : KinfoOp) : Bool :=
  x.d.isV && (if x.query == .free then x.a == .zero else x.a.isK)

def WakeOp.wf (x : WakeOp) : Bool :=
  x.mask != 0 && x.b.isV && (if x.all then x.a == .zero else x.a.isV)

def BinqOp.wf (x : BinqOp) : Bool :=
  x.b.isV && (if x.area then x.d == .zero && x.a.isPair else x.d.isV && x.a == .zero)

/-- The special register has an index (R15). -/
def sregIndexed (n : Nat) : Bool := n == 0x14 || n == 0x15

/-- The special register is 64 bits wide (R15). -/
def sregWide (n : Nat) : Bool := n == 0x0B || n == 0x0C || n == 0x14

/-- SREAD: a register that exists, an index only where there is one, a pair for 64 bits (R309). -/
def SreadOp.wf (x : SreadOp) : Bool :=
  x.reg.toNat ≤ 0x17 && x.d.ofTy (sregWide x.reg.toNat) && x.a.isV
    && (x.a == .zero || x.idx == 0) && (sregIndexed x.reg.toNat || x.idx == 0)

/-- The term is one that a word of its instruction can hold and that is not illegal in every
kernel (R58). The terms that are no instruction words carry no such check. -/
def Instr.wf : Instr → Bool
  | .fjasRun _ => true
  | .fjldRun _ _ => true
  | .iadd x => x.wfArith
  | .isub x => x.wfArith
  | .imin x => x.wfArith
  | .imax x => x.wfArith
  | .iabs x => x.wfSame && x.ty.signed
  | .and x => x.wfArith
  | .or x => x.wfArith
  | .xor x => x.wfArith
  | .not x => x.wfSame
  | .andn x => x.wfArith
  | .shl x => x.wfShift
  | .shr x => x.wfShift
  | .sar x => x.wfShift
  | .rol x => x.wfShift
  | .bfx x => x.wfShift
  | .bfi x => x.wfInsert
  | .prmt x => x.wfPrmt
  | .mov x => x.wfSame && (x.ty == .n32 || x.ty == .n64)
  | .movi x => x.wf
  | .movhi x => x.wf
  | .addpchi x => x.ty == .n32 && x.d.isPair
  | .lea x => x.d.isPair && x.a.isPair
  | .imul x => x.wfArith
  | .imulh x => x.wfArith
  | .imad x => x.wfArith
  | .imadw x => x.wfWide
  | .idiv x => x.wfArith
  | .irem x => x.wfArith
  | .dividerComplete _ _ => true
  | .popc x => x.wfCount
  | .clz x => x.wfCount
  | .ctz x => x.wfCount
  | .brev x => x.wfSame && x.ty.plain
  | .icmp x => x.wf
  | .sel x => x.wf
  | .plop _ => true
  | .pmov x => x.wf
  | .pset _ => true
  | .bra _ => true
  | .brx x => x.a.isPair
  | .call _ => true
  | .callx x => x.a.isPair
  | .ret _ => true
  | .exit _ => true
  | .nop _ => true
  | .ld x => x.wf true true
  | .st x => x.wf true true true
  | .lds x => x.wf false false
  | .sts x => x.wf false false false
  | .ldc x => x.wf true false
  | .ldp x => x.wf false false
  | .stp x => x.wf false false false
  | .pref x => x.a.isPair && x.pol != 3
  | .loadReturn _ _ => true
  | .acq _ => true
  | .rel _ => true
  | .fence _ => true
  | .commitRegister _ _ => true
  | .atom x => x.wfAtom
  | .cas x => x.wf
  | .atomicReturn _ _ => true
  | .atomd x => x.wfAtom && x.fn != .exch && !x.acq && !x.rel && x.d == .zero
  | .dflush _ => true
  | .atomdDrain _ => true
  | .fadd x => x.wfRegs
  | .fsub x => x.wfRegs
  | .fmul x => x.wfRegs
  | .ffma x => x.wf
  | .fmin x => x.wfRegs && x.rnd == .dyn
  | .fmax x => x.wfRegs && x.rnd == .dyn
  | .fcmp x => x.a.isV && x.b.isV
  | .fclass x => x.wfV && x.rnd == .dyn
  | .fdiv x => x.wfRegs && x.ty == .f32
  | .fsqrt x => x.wfV
  | .fdot4 x => x.d.isV && x.a.isV && x.b.isV && x.c.isV
  | .dadd x => x.wfPairs
  | .dsub x => x.wfPairs
  | .dmul x => x.wfPairs
  | .dfma x => x.d.isPair && x.a.isPair && x.b.isPair && x.c.isPair
  | .dmin x => x.wfPairs && x.rnd == .dyn
  | .dmax x => x.wfPairs && x.rnd == .dyn
  | .dcmp x => x.a.isPair && x.b.isPair
  | .ddiv x => x.wfPairs
  | .dsqrt x => x.d.isPair && x.a.isPair
  | .dclass x => x.d.isV && x.a.isPair && x.rnd == .dyn
  | .cvt x => x.wfCvt
  | .cvts x => x.wfCvts
  | .cvti x => x.wf
  | .tagset x => x.wf
  | .tagget x => x.d.isV && (x.a.isV || x.a.isT)
  | .fexp2 x => x.wfV && x.rnd == .dyn
  | .flog2 x => x.wfV && x.rnd == .dyn
  | .frcp x => x.wfV && x.rnd == .dyn
  | .frsq x => x.wfV && x.rnd == .dyn
  | .fsin x => x.wfV && x.rnd == .dyn
  | .fcos x => x.wfV && x.rnd == .dyn
  | .ftanh x => x.wfV && x.rnd == .dyn
  | .fsigm x => x.wfV && x.rnd == .dyn
  | .fgelu x => x.wfV && x.rnd == .dyn
  | .rmsn x => x.d.isT && x.a.isT && x.b.isV && x.c.isV
  | .smax x => x.d.isPair && x.a.isT && x.b.isV && x.c == .zero
  | .rowsum x => x.d.isV && x.a.isT && x.b.isV && x.c == .zero
  | .rowscale x => x.d.isT && x.a.isT && x.b.isV && x.c.isPair
  | .rowOpWriteCycle _ => true
  | .join x => x.d.isV && x.b.isV
  | .leave x => x.b.isV
  | .crew x => x.d.isV && x.b.isV
  | .shfl x => x.wf
  | .vote x => x.wf
  | .cred x => x.wf
  | .cscan x => x.wf
  | .crewGather _ _ => true
  | .binit x => x.b.isV
  | .barv x => x.d.isV
  | .bwait x => x.b.isV && x.ctl.unguarded
  | .bsync x => x.ctl.unguarded
  | .cpy x => x.a.isPair && x.b.isV && (x.c.isV || x.c.isT)
  | .cpyx x => x.a.isPair && x.b.isV && (x.c.isV || x.c.isT)
  | .cpyo x => x.a.isPair && x.b.isV && (x.c.isV || x.c.isT)
  | .publ x => x.a.isPair && x.b.isV
  | .publFlip _ _ => true
  | .cpq x => x.d.isV
  | .copyRetire _ _ => true
  | .wait _ => true
  | .mclm x => x.d.isV && x.b.isV && (!x.wait || x.ctl.bnd)
  | .mrel x => x.b.isV
  | .mlds x => x.wf
  | .mldsComplete _ _ => true
  | .mpost x => x.a.isV
  | .macc x => x.d.isT && x.a.isV && x.b.isV
  | .mzero x => x.b.isV
  | .engineGrant _ => true
  | .engineEntryWriteCycle _ _ => true
  | .trace x => x.wf
  | .tracec x => x.wf
  | .replay x => x.d.isSpan x.f64 && x.a.isPair && x.b.isSpan x.f64 && x.c.isDpair
  | .hitq x => x.wf
  | .asph x => x.d.isSpan x.f64 && x.a.isPair && x.b.isSpan x.f64
  | .trix x => x.d.isSpan x.f64 && x.a.isPair && x.b.isSpan x.f64
  | .boxx x => x.d.isSpan true && x.a.isPair && x.b.isSpan x.f64
  | .traversalComplete _ _ => true
  | .kclr _ => true
  | .klobe x => x.wf
  | .knet x => x.d.isK && x.a.isSpan false && x.b.isPair
  | .kadd x => x.d.isK && x.a.isK && x.b.isK
  | .kmix x => x.d.isK && x.a.isK && x.b.isK && x.c.isV
  | .kcoat x => x.d.isK && x.a.isK && x.b.isK && x.c.isSpan false
  | .kscl x => x.d.isK && x.a.isSpan false
  | .ksample x => x.d.isSpan false && x.a.isK && x.b.isSpan false
  | .keval x => x.d.isSpan false && x.a.isK && x.b.isSpan false
  | .kpdf x => x.d.isV && x.a.isK && x.b.isSpan false
  | .closureOpComplete _ _ => true
  | .kspill x => x.a.isK && x.b.isV
  | .kfill x => x.a.isK
  | .kinfo x => x.wf
  | .yieldb x => x.bin.isV && x.n.toNat ≤ 32
  | .resume x => x.d.isV && x.b.isV
  | .binAutoResume _ => true
  | .wake x => x.wf
  | .binq x => x.wf
  | .tsort x => x.b.isV && x.col.toNat ≤ 31
  | .tcomp x => x.a.isV
  | .binSortComplete _ _ => true
  | .monitor x => x.a.isPair
  | .mwait x => x.d.isV && x.b.isV && x.ctl.bnd
  | .mwaitWake _ => true
  | .mwaitTimeout _ => true
  | .hold x => x.a.isPair
  | .unhold x => x.a.isPair
  | .wreg x => x.a.isPair
  | .wdrop _ => true
  | .purlinEntryExpiry _ => true
  | .sysc _ => true
  | .tfence _ => true
  | .tret _ => true
  | .trap _ => true
  | .sread x => x.wf
  | .swrite x => x.reg.toNat ≤ 0x17 && x.a.isV
  | .launch x => x.d.isPair && x.a.isPair && x.b.isV && x.rnd == .dyn
  | .nopre _ => true
  | .nopreExpiry _ => true
  | .bkpt _ => true
  | .slotTurn _ => true
  | .threadOverdue _ => true
  | .twinMismatch _ _ => true
  | .pageWalk _ _ _ => true
  | .queueEnable _ _ => true
  | .queueDisable _ _ => true
  | .queueClearRefusal _ _ => true
  | .queueCtlBadOp _ _ => true
  | .doorbellWrite _ _ _ => true
  | .queueSlotAssign _ => true
  | .queueAgeOverdue _ _ => true
  | .packetHeadCheck _ _ => true
  | .packetBegin _ _ => true
  | .dependencePoll _ _ => true
  | .courseDispatch _ => true
  | .resplitTimerExpiry _ _ => true
  | .coreResplit _ => true
  | .resplitTimeWrite _ _ => true
  | .courseRetire _ => true
  | .launchEnd _ => true
  | .faultQueueAnswer _ _ => true
  | .tlbInvalPage _ _ _ => true
  | .tlbInvalContext _ _ => true
  | .tlbInvalPartition _ => true
  | .syscAnswer _ _ => true
  | .softRequest _ => true
  | .hardHalt _ => true
  | .contextReset _ => true
  | .preemptGraceExpiry _ => true
  | .preemptKillExpiry _ => true
  | .haltComplete _ => true
  | .contextRestore _ => true
  | .preemptTimeWrite _ _ => true
  | .debugStep _ _ => true
  | .debugBreak _ _ => true
  | .debugContinue _ => true
  | .ctxS1RootWrite _ _ => true
  | .ctxCeilWrite _ _ => true
  | .rollbackReq _ _ => true
  | .uncorrectableRegisterRead _ _ _ => true
  | .engineUncorrectableError _ => true
  | .infieldTestStart _ => true
  | .infieldMoveDeferExpiry _ => true
  | .infieldTestComplete _ _ _ => true
  | .createPartition => true
  | .destroyPartition => true
  | .setContext => true
  | .freeContext => true
  | .loadKey => true
  | .revokeKey => true
  | .snapshot => true
  | .setTokens => true
  | .migrateOut _ => true
  | .migrateIn _ => true
  | .setCollectiveGroup => true
  | .attest => true
  | .exportTransportKey => true
  | .hvCmdBadOp => true
  | .hvFaultQueueAnswer _ => true
  | .hvTlbInvalPage _ _ => true
  | .hvTlbInvalContext _ => true
  | .hvTlbInvalPartition _ => true
  | .hvTlbInvalPart => true
  | .absentPagePull _ _ _ => true
  | .pullTimeout _ _ => true
  | .migrationPathFailure _ => true
  | .settlement _ => true
  | .hostAccess _ _ _ => true
  | .triaterPortOutOfService _ => true
  | .collDoorbell _ _ _ => true
  | .collectiveReform _ => true
  | .collectiveComplete _ _ => true
  | .coldStart => true
  | .warmStart => true
  | .registerWrite _ _ _ => true
  | .privateStorePerformed _ _ => true
  | .linkRemoteAccess _ _ _ => true
  | .triaterFlitReceived _ _ _ => true
  | .migrationPullRequest _ _ => true
  | .migrationDataReceived _ _ _ => true

end Sys2Proof
end

