-- ==== Sys2Proof/Decode.lean ====
section
/-! DEFINITION. Decode.lean: the 96-bit word (R48, R49), the codes of its fields (R12, R55), the
opcode map (R57), the decoder that refuses every illegal word (R58), and the encoder. -/

namespace Sys2Proof

/-- Why bytes are no instruction. -/
inductive Reject where
  /-- Fewer than 12 bytes. -/
  | short
  /-- The pair (group, fn) is unassigned (R57, R58). -/
  | unassigned
  /-- A field, modifier, code or reserved bit breaks R58. -/
  | illegal
  deriving DecidableEq, Repr

/-- The fields of R48. -/
structure Raw where
  group : BitVec 4
  fn : BitVec 8
  d : BitVec 8
  a : BitVec 8
  b : BitVec 8
  guard : BitVec 4
  hint : BitVec 8
  c : BitVec 8
  m : BitVec 8
  imm : BitVec 32
  deriving DecidableEq, Repr

/-- The word's fields at the bit positions of R48. -/
def Raw.ofWord (w : IWord) : Raw where
  group := w.extractLsb' 92 4
  fn := w.extractLsb' 84 8
  d := w.extractLsb' 76 8
  a := w.extractLsb' 68 8
  b := w.extractLsb' 60 8
  guard := w.extractLsb' 56 4
  hint := w.extractLsb' 48 8
  c := w.extractLsb' 40 8
  m := w.extractLsb' 32 8
  imm := w.extractLsb' 0 32

/-- The word that holds the fields at the bit positions of R48. -/
def Raw.toWord (r : Raw) : IWord :=
  r.group ++ r.fn ++ r.d ++ r.a ++ r.b ++ r.guard ++ r.hint ++ r.c ++ r.m ++ r.imm

/-! ## Codes of single fields -/

/-- The 8-bit encoding of an operand (R12). -/
def Opd.enc : Opd → BitVec 8
  | .v n => BitVec.ofNat 8 n.val
  | .k n => BitVec.ofNat 8 (0xC0 + n.val)
  | .t n => BitVec.ofNat 8 (0xD0 + n.val)
  | .b n => BitVec.ofNat 8 (0xE0 + n.val)
  | .zero => 0xFF

/-- The operand of an 8-bit encoding; 0xD8 to 0xDF and 0xF0 to 0xFE name nothing (R12). -/
def Opd.dec (e : BitVec 8) : Option Opd :=
  let n := e.toNat
  if h : n < 192 then some (.v ⟨n, h⟩)
  else if h : n - 192 < 16 then some (.k ⟨n - 192, h⟩)
  else if h : n - 208 < 8 then some (.t ⟨n - 208, h⟩)
  else if h : 224 ≤ n ∧ n - 224 < 16 then some (.b ⟨n - 224, h.2⟩)
  else if n = 255 then some .zero
  else none

/-- A field that holds 0b0000_0nnn (R53). -/
def predDec (e : BitVec 8) : Option (Fin 8) :=
  if h : e.toNat < 8 then some ⟨e.toNat, h⟩ else none

def predEnc (p : Fin 8) : BitVec 8 := BitVec.ofNat 8 p.val

/-- A field that names a b register. -/
def barDec (e : BitVec 8) : Option (Fin 16) :=
  match Opd.dec e with
  | some (.b n) => some n
  | _ => none

def barEnc (n : Fin 16) : BitVec 8 := (Opd.b n).enc

/-- A field that names a b register or holds 0xFF. -/
def barOptDec (e : BitVec 8) : Option (Option (Fin 16)) :=
  match Opd.dec e with
  | some (.b n) => some (some n)
  | some .zero => some none
  | _ => none

def barOptEnc : Option (Fin 16) → BitVec 8
  | some n => barEnc n
  | none => 0xFF

/-- Crew codes (R127). -/
def CrewCode.dec (e : BitVec 8) : Option CrewCode :=
  if h : e.toNat < 64 then some (.id ⟨e.toNat, h⟩)
  else if e.toNat = 0x40 then some .cur
  else none

def CrewCode.enc : CrewCode → BitVec 8
  | .id n => BitVec.ofNat 8 n.val
  | .cur => 0x40

/-- Integer type codes (R55). -/
def IntTy.code : IntTy → BitVec 3
  | .n32 => 0
  | .s32 => 1
  | .n64 => 2
  | .s64 => 3
  | .n16 => 4
  | .s16 => 5
  | .n8 => 6
  | .s8 => 7

def IntTy.ofCode (c : BitVec 3) : IntTy :=
  match c.toNat with
  | 0 => .n32
  | 1 => .s32
  | 2 => .n64
  | 3 => .s64
  | 4 => .n16
  | 5 => .s16
  | 6 => .n8
  | _ => .s8

/-- Width codes (R55). -/
def Width.code : Width → BitVec 3
  | .b1 => 0
  | .b2 => 1
  | .b4 => 2
  | .b8 => 3
  | .b16 => 4

def Width.ofCode (c : BitVec 3) : Option Width :=
  match c.toNat with
  | 0 => some .b1
  | 1 => some .b2
  | 2 => some .b4
  | 3 => some .b8
  | 4 => some .b16
  | _ => none

/-- Atomic type codes (R55). -/
def AtomTy.code : AtomTy → BitVec 3
  | .n32 => 0
  | .s32 => 1
  | .n64 => 2
  | .s64 => 3
  | .f32 => 4
  | .f64 => 5

def AtomTy.ofCode (c : BitVec 3) : Option AtomTy :=
  match c.toNat with
  | 0 => some .n32
  | 1 => some .s32
  | 2 => some .n64
  | 3 => some .s64
  | 4 => some .f32
  | 5 => some .f64
  | _ => none

/-- Atomic operation codes (R277). -/
def AtomFn.code : AtomFn → BitVec 8
  | .add => 0
  | .min => 1
  | .max => 2
  | .and => 3
  | .or => 4
  | .xor => 5
  | .exch => 6

def AtomFn.ofCode (c : BitVec 8) : Option AtomFn :=
  match c.toNat with
  | 0 => some .add
  | 1 => some .min
  | 2 => some .max
  | 3 => some .and
  | 4 => some .or
  | 5 => some .xor
  | 6 => some .exch
  | _ => none

/-- Type codes of CRED and CSCAN (R133). -/
def RedTy.code : RedTy → BitVec 3
  | .n32 => 0
  | .s32 => 1
  | .n64 => 2
  | .s64 => 3
  | .f32 => 4

def RedTy.ofCode (c : BitVec 3) : Option RedTy :=
  match c.toNat with
  | 0 => some .n32
  | 1 => some .s32
  | 2 => some .n64
  | 3 => some .s64
  | 4 => some .f32
  | _ => none

/-- Operation codes of CRED and CSCAN (R133). -/
def RedFn.code : RedFn → BitVec 4
  | .add => 0
  | .min => 1
  | .max => 2
  | .and => 3
  | .or => 4
  | .xor => 5

def RedFn.ofCode (c : BitVec 4) : Option RedFn :=
  match c.toNat with
  | 0 => some .add
  | 1 => some .min
  | 2 => some .max
  | 3 => some .and
  | 4 => some .or
  | 5 => some .xor
  | _ => none

/-- Float type codes (R55). -/
def FloatTy.code : FloatTy → BitVec 3
  | .f32 => 0
  | .bf16 => 1
  | .f16 => 2

def FloatTy.ofCode (c : BitVec 3) : Option FloatTy :=
  match c.toNat with
  | 0 => some .f32
  | 1 => some .bf16
  | 2 => some .f16
  | _ => none

/-- Rounding codes (R55). -/
def RndSel.code : RndSel → BitVec 4
  | .dyn => 0
  | .rne => 1
  | .rtz => 2
  | .rdn => 3
  | .rup => 4
  | .sr => 5

def RndSel.ofCode (c : BitVec 4) : Option RndSel :=
  match c.toNat with
  | 0 => some .dyn
  | 1 => some .rne
  | 2 => some .rtz
  | 3 => some .rdn
  | 4 => some .rup
  | 5 => some .sr
  | _ => none

/-- Condition codes (R55). -/
def Cond.code : Cond → BitVec 4
  | .eq => 0
  | .ne => 1
  | .lt => 2
  | .le => 3
  | .gt => 4
  | .ge => 5
  | .ord => 6
  | .uno => 7

def Cond.ofCode (c : BitVec 4) : Option Cond :=
  match c.toNat with
  | 0 => some .eq
  | 1 => some .ne
  | 2 => some .lt
  | 3 => some .le
  | 4 => some .gt
  | 5 => some .ge
  | 6 => some .ord
  | 7 => some .uno
  | _ => none

/-- Modifier of type and low bits, m[7] = 0. -/
def mBits (ty : BitVec 3) (low : BitVec 4) : BitVec 8 := (0 : BitVec 1) ++ ty ++ low

/-- m[6:4]. -/
def Raw.ty (r : Raw) : BitVec 3 := r.m.extractLsb' 4 3

/-- m[3:0]. -/
def Raw.low (r : Raw) : BitVec 4 := r.m.extractLsb' 0 4

/-- One bit as a Boolean. -/
def bit (b : Bool) : BitVec 1 := if b then 1 else 0

/-- Guard and hints, from bits [59:48] (R48, R52, R54). -/
def Raw.ctl (r : Raw) : Ctl where
  neg := r.guard.getLsbD 3
  pred := ⟨r.guard.toNat % 8, Nat.mod_lt _ (by decide)⟩
  bnd := r.hint.getLsbD 7
  reuseA := r.hint.getLsbD 6
  reuseB := r.hint.getLsbD 5

/-- A word with every operand field unused and every other bit zero but guard and hints. -/
def Raw.blank (x : Ctl) (group : BitVec 4) (fn : BitVec 8) : Raw where
  group := group
  fn := fn
  d := 0xFF
  a := 0xFF
  b := 0xFF
  guard := bit x.neg ++ BitVec.ofNat 3 x.pred.val
  hint := bit x.bnd ++ bit x.reuseA ++ bit x.reuseB ++ (0 : BitVec 5)
  c := 0xFF
  m := 0
  imm := 0

/-- Operand b of format A or I (R49). -/
def Raw.src (r : Raw) : Option Src :=
  if r.m.getLsbD 7 then some (.imm r.imm) else (Opd.dec r.b).map .reg

/-- Put operand b into a word, setting m[7] for an immediate (R49). -/
def Raw.withSrc (r : Raw) : Src → Raw
  | .reg o => { r with b := o.enc }
  | .imm w => { r with imm := w, m := r.m ||| 0x80 }

/-- imm32 of format M: policy [16:15], colour [14:12], offset [11:0] (R49). -/
def immM (pol : Fin 4) (colour : Fin 8) (off : BitVec 12) : BitVec 32 :=
  (0 : BitVec 15) ++ BitVec.ofNat 2 pol.val ++ BitVec.ofNat 3 colour.val ++ off

def Raw.off (r : Raw) : BitVec 12 := r.imm.extractLsb' 0 12

def Raw.colour (r : Raw) : Fin 8 := ⟨(r.imm.extractLsb' 12 3).toNat, (r.imm.extractLsb' 12 3).isLt⟩

def Raw.pol (r : Raw) : Fin 4 := ⟨(r.imm.extractLsb' 15 2).toNat, (r.imm.extractLsb' 15 2).isLt⟩

/-! ## The shapes: fields to term, term to fields -/

def IntOp.parse (r : Raw) : Option IntOp := do
  return ⟨r.ctl, IntTy.ofCode r.ty, ← Opd.dec r.d, ← Opd.dec r.a, ← r.src⟩

def IntOp.raw (x : IntOp) (g : BitVec 4) (f : BitVec 8) : Raw :=
  { Raw.blank x.ctl g f with
    d := x.d.enc, a := x.a.enc, m := mBits x.ty.code 0 }.withSrc x.b

def IntOp3.parse (r : Raw) : Option IntOp3 := do
  return ⟨r.ctl, IntTy.ofCode r.ty, ← Opd.dec r.d, ← Opd.dec r.a, ← r.src, ← Opd.dec r.c⟩

def IntOp3.raw (x : IntOp3) (g : BitVec 4) (f : BitVec 8) : Raw :=
  { Raw.blank x.ctl g f with
    d := x.d.enc, a := x.a.enc, c := x.c.enc, m := mBits x.ty.code 0 }.withSrc x.b

def IntUn.parse (r : Raw) : Option IntUn := do
  return ⟨r.ctl, IntTy.ofCode r.ty, ← Opd.dec r.d, ← Opd.dec r.a⟩

def IntUn.raw (x : IntUn) (g : BitVec 4) (f : BitVec 8) : Raw :=
  { Raw.blank x.ctl g f with d := x.d.enc, a := x.a.enc, m := mBits x.ty.code 0 }

def MovI.parse (r : Raw) : Option MovI := do
  return ⟨r.ctl, IntTy.ofCode r.ty, ← Opd.dec r.d, r.imm⟩

def MovI.raw (x : MovI) (g : BitVec 4) (f : BitVec 8) : Raw :=
  { Raw.blank x.ctl g f with d := x.d.enc, m := mBits x.ty.code 0 ||| 0x80, imm := x.imm }

def MovH.parse (r : Raw) : Option MovH := do
  return ⟨r.ctl, IntTy.ofCode r.ty, ← Opd.dec r.d, r.imm.extractLsb' 0 20⟩

def MovH.raw (x : MovH) (g : BitVec 4) (f : BitVec 8) : Raw :=
  { Raw.blank x.ctl g f with
    d := x.d.enc, m := mBits x.ty.code 0, imm := (0 : BitVec 12) ++ x.hi }

def LeaOp.parse (r : Raw) : Option LeaOp := do
  return ⟨r.ctl, ← Opd.dec r.d, ← Opd.dec r.a, r.off⟩

def LeaOp.raw (x : LeaOp) (g : BitVec 4) (f : BitVec 8) : Raw :=
  { Raw.blank x.ctl g f with d := x.d.enc, a := x.a.enc, imm := immM 0 0 x.off }

def IcmpOp.parse (r : Raw) : Option IcmpOp := do
  return ⟨r.ctl, IntTy.ofCode r.ty, ← Cond.ofCode r.low, ← predDec r.d, ← Opd.dec r.a, ← r.src⟩

def IcmpOp.raw (x : IcmpOp) (g : BitVec 4) (f : BitVec 8) : Raw :=
  { Raw.blank x.ctl g f with
    d := predEnc x.pd, a := x.a.enc, m := mBits x.ty.code x.cond.code }.withSrc x.b

def SelOp.parse (r : Raw) : Option SelOp := do
  return ⟨r.ctl, IntTy.ofCode r.ty, ← Opd.dec r.d, ← Opd.dec r.a, ← r.src, ← predDec r.c⟩

def SelOp.raw (x : SelOp) (g : BitVec 4) (f : BitVec 8) : Raw :=
  { Raw.blank x.ctl g f with
    d := x.d.enc, a := x.a.enc, c := predEnc x.pc, m := mBits x.ty.code 0 }.withSrc x.b

def PlopOp.parse (r : Raw) : Option PlopOp := do
  return ⟨r.ctl, ← predDec r.d, ← predDec r.a, ← predDec r.c,
    ⟨(r.imm.extractLsb' 8 3).toNat, (r.imm.extractLsb' 8 3).isLt⟩, r.imm.extractLsb' 0 8⟩

def PlopOp.raw (x : PlopOp) (g : BitVec 4) (f : BitVec 8) : Raw :=
  { Raw.blank x.ctl g f with
    d := predEnc x.pd, a := predEnc x.pa, c := predEnc x.pc, m := 0x80,
    imm := (0 : BitVec 21) ++ BitVec.ofNat 3 x.pz.val ++ x.table }

def PmovOp.parse (r : Raw) : Option PmovOp :=
  if r.c = 0 then do return ⟨r.ctl, .toReg (← Opd.dec r.d)⟩
  else if r.c = 1 then do return ⟨r.ctl, .fromReg (← Opd.dec r.a) (r.imm.extractLsb' 0 7)⟩
  else none

def PmovOp.raw (x : PmovOp) (g : BitVec 4) (f : BitVec 8) : Raw :=
  match x.dir with
  | .toReg d => { Raw.blank x.ctl g f with d := d.enc, c := 0 }
  | .fromReg a mask =>
    { Raw.blank x.ctl g f with a := a.enc, c := 1, imm := (0 : BitVec 25) ++ mask }

def PsetOp.parse (r : Raw) : Option PsetOp :=
  some ⟨r.ctl, r.imm.extractLsb' 0 7, r.imm.extractLsb' 8 7⟩

def PsetOp.raw (x : PsetOp) (g : BitVec 4) (f : BitVec 8) : Raw :=
  { Raw.blank x.ctl g f with
    m := 0x80, imm := (0 : BitVec 17) ++ x.mask ++ (0 : BitVec 1) ++ x.vals }

def BrOp.parse (r : Raw) : Option BrOp := some ⟨r.ctl, r.imm⟩

def BrOp.raw (x : BrOp) (g : BitVec 4) (f : BitVec 8) : Raw :=
  { Raw.blank x.ctl g f with imm := x.off }

def AOp.parse (r : Raw) : Option AOp := do
  return ⟨r.ctl, ← Opd.dec r.a⟩

def AOp.raw (x : AOp) (g : BitVec 4) (f : BitVec 8) : Raw :=
  { Raw.blank x.ctl g f with a := x.a.enc }

/-- TCOMP names its bin in field b (R282). -/
def TcompOp.parse (r : Raw) : Option AOp := do
  return ⟨r.ctl, ← Opd.dec r.b⟩

def TcompOp.raw (x : AOp) (g : BitVec 4) (f : BitVec 8) : Raw :=
  { Raw.blank x.ctl g f with b := x.a.enc }

def NoOp.parse (r : Raw) : Option NoOp := some ⟨r.ctl⟩

def NoOp.raw (x : NoOp) (g : BitVec 4) (f : BitVec 8) : Raw := Raw.blank x.ctl g f

def LoadOp.parse (r : Raw) : Option LoadOp := do
  return ⟨r.ctl, ← Width.ofCode r.ty, r.m.getLsbD 3, r.c, r.pol, ← Opd.dec r.d,
    ← Opd.dec r.a, r.off⟩

def LoadOp.raw (x : LoadOp) (g : BitVec 4) (f : BitVec 8) : Raw :=
  { Raw.blank x.ctl g f with
    d := x.d.enc, a := x.a.enc, c := x.fmt,
    m := mBits x.width.code (bit x.sext ++ (0 : BitVec 3)), imm := immM x.pol 0 x.off }

def StoreOp.parse (r : Raw) : Option StoreOp := do
  return ⟨r.ctl, ← Width.ofCode r.ty, r.c, r.colour, r.pol, ← Opd.dec r.a, ← Opd.dec r.b, r.off⟩

def StoreOp.raw (x : StoreOp) (g : BitVec 4) (f : BitVec 8) : Raw :=
  { Raw.blank x.ctl g f with
    a := x.a.enc, b := x.b.enc, c := x.fmt, m := mBits x.width.code 0,
    imm := immM x.pol x.colour x.off }

def PrefOp.parse (r : Raw) : Option PrefOp := do
  return ⟨r.ctl, r.pol, ← Opd.dec r.a, r.off⟩

def PrefOp.raw (x : PrefOp) (g : BitVec 4) (f : BitVec 8) : Raw :=
  { Raw.blank x.ctl g f with a := x.a.enc, imm := immM x.pol 0 x.off }

def FenceOp.parse (r : Raw) : Option FenceOp := some ⟨r.ctl, r.imm.extractLsb' 0 8⟩

def FenceOp.raw (x : FenceOp) (g : BitVec 4) (f : BitVec 8) : Raw :=
  { Raw.blank x.ctl g f with imm := (0 : BitVec 24) ++ x.mask }

/-- m[3:0] of the atomics: release [3], acquire [2] (R55). -/
def orderBits (acq rel : Bool) : BitVec 4 := bit rel ++ bit acq ++ (0 : BitVec 2)

def AtomOp.parse (r : Raw) : Option AtomOp := do
  return ⟨r.ctl, ← AtomTy.ofCode r.ty, r.m.getLsbD 2, r.m.getLsbD 3, ← AtomFn.ofCode r.c,
    ← Opd.dec r.d, ← Opd.dec r.a, ← Opd.dec r.b, r.off⟩

def AtomOp.raw (x : AtomOp) (g : BitVec 4) (f : BitVec 8) : Raw :=
  { Raw.blank x.ctl g f with
    d := x.d.enc, a := x.a.enc, b := x.b.enc, c := x.fn.code,
    m := mBits x.ty.code (orderBits x.acq x.rel), imm := immM 0 0 x.off }

def CasOp.parse (r : Raw) : Option CasOp := do
  return ⟨r.ctl, ← AtomTy.ofCode r.ty, r.m.getLsbD 2, r.m.getLsbD 3,
    ← Opd.dec r.d, ← Opd.dec r.a, ← Opd.dec r.b, ← Opd.dec r.c, r.off⟩

def CasOp.raw (x : CasOp) (g : BitVec 4) (f : BitVec 8) : Raw :=
  { Raw.blank x.ctl g f with
    d := x.d.enc, a := x.a.enc, b := x.b.enc, c := x.c.enc,
    m := mBits x.ty.code (orderBits x.acq x.rel), imm := immM 0 0 x.off }

def FOp.parse (r : Raw) : Option FOp := do
  return ⟨r.ctl, ← FloatTy.ofCode r.ty, ← RndSel.ofCode r.low, ← Opd.dec r.d, ← Opd.dec r.a,
    ← r.src⟩

def FOp.raw (x : FOp) (g : BitVec 4) (f : BitVec 8) : Raw :=
  { Raw.blank x.ctl g f with
    d := x.d.enc, a := x.a.enc, m := mBits x.ty.code x.rnd.code }.withSrc x.b

def FOp3.parse (r : Raw) : Option FOp3 := do
  return ⟨r.ctl, ← FloatTy.ofCode r.ty, ← RndSel.ofCode r.low, ← Opd.dec r.d, ← Opd.dec r.a,
    ← r.src, ← Opd.dec r.c⟩

def FOp3.raw (x : FOp3) (g : BitVec 4) (f : BitVec 8) : Raw :=
  { Raw.blank x.ctl g f with
    d := x.d.enc, a := x.a.enc, c := x.c.enc, m := mBits x.ty.code x.rnd.code }.withSrc x.b

def FcmpOp.parse (r : Raw) : Option FcmpOp := do
  return ⟨r.ctl, ← Cond.ofCode r.low, ← predDec r.d, ← Opd.dec r.a, ← r.src⟩

def FcmpOp.raw (x : FcmpOp) (g : BitVec 4) (f : BitVec 8) : Raw :=
  { Raw.blank x.ctl g f with
    d := predEnc x.pd, a := x.a.enc, m := mBits 0 x.cond.code }.withSrc x.b

def FUn.parse (r : Raw) : Option FUn := do
  return ⟨r.ctl, ← RndSel.ofCode r.low, ← Opd.dec r.d, ← Opd.dec r.a⟩

def FUn.raw (x : FUn) (g : BitVec 4) (f : BitVec 8) : Raw :=
  { Raw.blank x.ctl g f with d := x.d.enc, a := x.a.enc, m := mBits 0 x.rnd.code }

def DOp.parse (r : Raw) : Option DOp := do
  return ⟨r.ctl, ← RndSel.ofCode r.low, ← Opd.dec r.d, ← Opd.dec r.a, ← Opd.dec r.b⟩

def DOp.raw (x : DOp) (g : BitVec 4) (f : BitVec 8) : Raw :=
  { Raw.blank x.ctl g f with
    d := x.d.enc, a := x.a.enc, b := x.b.enc, m := mBits 0 x.rnd.code }

/-- LAUNCH takes no rounding code; its shape carries one that must be `dyn` (R104). -/
def LaunchOp.parse (r : Raw) : Option DOp := DOp.parse r

def LaunchOp.raw (x : DOp) (g : BitVec 4) (f : BitVec 8) : Raw := DOp.raw x g f

/-- DFMA: type bits 0b000. -/
def DfmaOp.parse (r : Raw) : Option DOp3 := do
  return ⟨r.ctl, ← RndSel.ofCode r.low, ← Opd.dec r.d, ← Opd.dec r.a, ← Opd.dec r.b,
    ← Opd.dec r.c⟩

def DfmaOp.raw (x : DOp3) (g : BitVec 4) (f : BitVec 8) : Raw :=
  { Raw.blank x.ctl g f with
    d := x.d.enc, a := x.a.enc, b := x.b.enc, c := x.c.enc, m := mBits 0 x.rnd.code }

/-- FDOT4: type bits 0b011 (R164). -/
def DotOp.parse (r : Raw) : Option DOp3 := DfmaOp.parse r

def DotOp.raw (x : DOp3) (g : BitVec 4) (f : BitVec 8) : Raw :=
  { DfmaOp.raw x g f with m := mBits 3 x.rnd.code }

def DcmpOp.parse (r : Raw) : Option DcmpOp := do
  return ⟨r.ctl, ← Cond.ofCode r.low, ← predDec r.d, ← Opd.dec r.a, ← Opd.dec r.b⟩

def DcmpOp.raw (x : DcmpOp) (g : BitVec 4) (f : BitVec 8) : Raw :=
  { Raw.blank x.ctl g f with
    d := predEnc x.pd, a := x.a.enc, b := x.b.enc, m := mBits 0 x.cond.code }

def CvtOp.parse (r : Raw) : Option CvtOp := do
  return ⟨r.ctl, ← RndSel.ofCode r.low, ← Opd.dec r.d, ← Opd.dec r.a, ← Opd.dec r.b, r.c⟩

def CvtOp.raw (x : CvtOp) (g : BitVec 4) (f : BitVec 8) : Raw :=
  { Raw.blank x.ctl g f with
    d := x.d.enc, a := x.a.enc, b := x.b.enc, c := x.fmt, m := mBits 0 x.rnd.code }

def CvtiOp.parse (r : Raw) : Option CvtiOp := do
  return ⟨r.ctl, ← RndSel.ofCode r.low, r.imm.getLsbD 3, IntTy.ofCode (r.imm.extractLsb' 0 3),
    r.c, ← Opd.dec r.d, ← Opd.dec r.a⟩

def CvtiOp.raw (x : CvtiOp) (g : BitVec 4) (f : BitVec 8) : Raw :=
  { Raw.blank x.ctl g f with
    d := x.d.enc, a := x.a.enc, c := x.fmt, m := mBits 0 x.rnd.code,
    imm := (0 : BitVec 28) ++ bit x.toFloat ++ x.ty.code }

def TagsetOp.parse (r : Raw) : Option TagsetOp := do
  return ⟨r.ctl, ← Opd.dec r.d, ← Opd.dec r.a, ← Opd.dec r.b, r.c⟩

def TagsetOp.raw (x : TagsetOp) (g : BitVec 4) (f : BitVec 8) : Raw :=
  { Raw.blank x.ctl g f with d := x.d.enc, a := x.a.enc, b := x.b.enc, c := x.fmt }

def DaOp.parse (r : Raw) : Option DaOp := do
  return ⟨r.ctl, ← Opd.dec r.d, ← Opd.dec r.a⟩

def DaOp.raw (x : DaOp) (g : BitVec 4) (f : BitVec 8) : Raw :=
  { Raw.blank x.ctl g f with d := x.d.enc, a := x.a.enc }

def RowOp.parse (r : Raw) : Option RowOp := do
  return ⟨r.ctl, ← Opd.dec r.d, ← Opd.dec r.a, ← Opd.dec r.b, ← Opd.dec r.c⟩

def RowOp.raw (x : RowOp) (g : BitVec 4) (f : BitVec 8) : Raw :=
  { Raw.blank x.ctl g f with d := x.d.enc, a := x.a.enc, b := x.b.enc, c := x.c.enc }

/-- imm32[0] is the mode, imm32[3:2] the result format (R175). -/
def RowscaleOp.parse (r : Raw) : Option RowscaleOp := do
  return ⟨r.ctl, ← RndSel.ofCode r.low, ← FloatTy.ofCode (r.imm.extractLsb' 2 3),
    r.imm.getLsbD 0, ← Opd.dec r.d, ← Opd.dec r.a, ← Opd.dec r.b, ← Opd.dec r.c⟩

def RowscaleOp.raw (x : RowscaleOp) (g : BitVec 4) (f : BitVec 8) : Raw :=
  { Raw.blank x.ctl g f with
    d := x.d.enc, a := x.a.enc, b := x.b.enc, c := x.c.enc, m := mBits 0 x.rnd.code,
    imm := (0 : BitVec 27) ++ x.fmt.code ++ (0 : BitVec 1) ++ bit x.exp }

def JoinOp.parse (r : Raw) : Option JoinOp := do
  return ⟨r.ctl, ← Opd.dec r.d, ← r.src, ← predDec r.c⟩

def JoinOp.raw (x : JoinOp) (g : BitVec 4) (f : BitVec 8) : Raw :=
  { Raw.blank x.ctl g f with d := x.d.enc, c := predEnc x.pc }.withSrc x.b

def BOp.parse (r : Raw) : Option BOp := do
  return ⟨r.ctl, ← r.src⟩

def BOp.raw (x : BOp) (g : BitVec 4) (f : BitVec 8) : Raw := (Raw.blank x.ctl g f).withSrc x.b

def DbOp.parse (r : Raw) : Option DbOp := do
  return ⟨r.ctl, ← Opd.dec r.d, ← r.src⟩

def DbOp.raw (x : DbOp) (g : BitVec 4) (f : BitVec 8) : Raw :=
  { Raw.blank x.ctl g f with d := x.d.enc }.withSrc x.b

/-- Modes of SHFL (R131). -/
def ShflMode.code : ShflMode → BitVec 4
  | .idx => 0
  | .up => 1
  | .down => 2
  | .xor => 3

def ShflMode.ofCode (c : BitVec 4) : Option ShflMode :=
  match c.toNat with
  | 0 => some .idx
  | 1 => some .up
  | 2 => some .down
  | 3 => some .xor
  | _ => none

def ShflOp.parse (r : Raw) : Option ShflOp := do
  return ⟨r.ctl, r.m.getLsbD 5, ← ShflMode.ofCode r.low, ← Opd.dec r.d, ← Opd.dec r.a, ← r.src,
    ← CrewCode.dec r.c⟩

def ShflOp.raw (x : ShflOp) (g : BitVec 4) (f : BitVec 8) : Raw :=
  { Raw.blank x.ctl g f with
    d := x.d.enc, a := x.a.enc, c := x.crew.enc,
    m := mBits (if x.wide then 2 else 0) x.mode.code }.withSrc x.b

def VoteDst.parse (r : Raw) : Option VoteDst :=
  match r.low.toNat with
  | 0 => (predDec r.d).map .any
  | 1 => (predDec r.d).map .all
  | 2 => (predDec r.d).map .leader
  | 3 => (Opd.dec r.d).map .ballot
  | _ => none

def VoteDst.field : VoteDst → BitVec 8
  | .any p => predEnc p
  | .all p => predEnc p
  | .leader p => predEnc p
  | .ballot d => d.enc

def VoteDst.mode : VoteDst → BitVec 4
  | .any _ => 0
  | .all _ => 1
  | .leader _ => 2
  | .ballot _ => 3

def VoteOp.parse (r : Raw) : Option VoteOp := do
  return ⟨r.ctl, ← VoteDst.parse r, ← predDec r.a, ← CrewCode.dec r.c⟩

def VoteOp.raw (x : VoteOp) (g : BitVec 4) (f : BitVec 8) : Raw :=
  { Raw.blank x.ctl g f with
    d := x.dst.field, a := predEnc x.pa, c := x.crew.enc, m := mBits 0 x.dst.mode }

def CredOp.parse (r : Raw) : Option CredOp := do
  return ⟨r.ctl, ← RedTy.ofCode r.ty, ← RedFn.ofCode r.low, ← Opd.dec r.d, ← Opd.dec r.a,
    ← CrewCode.dec r.c⟩

def CredOp.raw (x : CredOp) (g : BitVec 4) (f : BitVec 8) : Raw :=
  { Raw.blank x.ctl g f with
    d := x.d.enc, a := x.a.enc, c := x.crew.enc, m := mBits x.ty.code x.fn.code }

def CscanOp.parse (r : Raw) : Option CscanOp := do
  return ⟨r.ctl, ← RedTy.ofCode r.ty, r.m.getLsbD 3, ← RedFn.ofCode (r.low &&& 7),
    ← Opd.dec r.d, ← Opd.dec r.a, ← CrewCode.dec r.c⟩

def CscanOp.raw (x : CscanOp) (g : BitVec 4) (f : BitVec 8) : Raw :=
  { Raw.blank x.ctl g f with
    d := x.d.enc, a := x.a.enc, c := x.crew.enc,
    m := mBits x.ty.code (x.fn.code ||| (if x.excl then 8 else 0)) }

def BinitOp.parse (r : Raw) : Option BinitOp := do
  return ⟨r.ctl, ← barDec r.d, ← r.src⟩

def BinitOp.raw (x : BinitOp) (g : BitVec 4) (f : BitVec 8) : Raw :=
  { Raw.blank x.ctl g f with d := barEnc x.bar }.withSrc x.b

def BarvOp.parse (r : Raw) : Option BarvOp := do
  return ⟨r.ctl, ← Opd.dec r.d, ← barDec r.a⟩

def BarvOp.raw (x : BarvOp) (g : BitVec 4) (f : BitVec 8) : Raw :=
  { Raw.blank x.ctl g f with d := x.d.enc, a := barEnc x.bar }

def BwaitOp.parse (r : Raw) : Option BwaitOp := do
  return ⟨r.ctl, ← barDec r.a, ← Opd.dec r.b⟩

def BwaitOp.raw (x : BwaitOp) (g : BitVec 4) (f : BitVec 8) : Raw :=
  { Raw.blank x.ctl g f with a := barEnc x.bar, b := x.b.enc }

def BsyncOp.parse (r : Raw) : Option BsyncOp := do
  return ⟨r.ctl, ← barDec r.a⟩

def BsyncOp.raw (x : BsyncOp) (g : BitVec 4) (f : BitVec 8) : Raw :=
  { Raw.blank x.ctl g f with a := barEnc x.bar }

def CopyOp.parse (r : Raw) : Option CopyOp := do
  return ⟨r.ctl, ← barOptDec r.d, ← Opd.dec r.a, ← Opd.dec r.b, ← Opd.dec r.c⟩

def CopyOp.raw (x : CopyOp) (g : BitVec 4) (f : BitVec 8) : Raw :=
  { Raw.blank x.ctl g f with
    d := barOptEnc x.bar, a := x.a.enc, b := x.b.enc, c := x.c.enc }

def CopyxOp.parse (r : Raw) : Option CopyxOp := do
  return ⟨r.ctl, ← barOptDec r.d, ← predDec (0#5 ++ r.m.extractLsb' 0 3), ← Opd.dec r.a,
    ← Opd.dec r.b, ← Opd.dec r.c⟩

def CopyxOp.raw (x : CopyxOp) (g : BitVec 4) (f : BitVec 8) : Raw :=
  { Raw.blank x.ctl g f with
    d := barOptEnc x.bar, a := x.a.enc, b := x.b.enc, c := x.c.enc, m := predEnc x.dim }

def PublOp.parse (r : Raw) : Option PublOp := do
  return ⟨r.ctl, ← barOptDec r.d, r.m.getLsbD 0, ← Opd.dec r.a, ← Opd.dec r.b⟩

def PublOp.raw (x : PublOp) (g : BitVec 4) (f : BitVec 8) : Raw :=
  { Raw.blank x.ctl g f with
    d := barOptEnc x.bar, a := x.a.enc, b := x.b.enc, m := mBits 0 (0#3 ++ bit x.keep) }

def CpqOp.parse (r : Raw) : Option CpqOp := do
  return ⟨r.ctl, r.m.getLsbD 0, ← Opd.dec r.d⟩

def CpqOp.raw (x : CpqOp) (g : BitVec 4) (f : BitVec 8) : Raw :=
  { Raw.blank x.ctl g f with d := x.d.enc, m := mBits 0 (0#3 ++ bit x.clr) }

def WaitOp.parse (r : Raw) : Option WaitOp :=
  some ⟨r.ctl, r.imm.extractLsb' 0 6, r.imm.extractLsb' 6 6, r.imm.extractLsb' 12 6,
    r.imm.extractLsb' 18 6⟩

def WaitOp.raw (x : WaitOp) (g : BitVec 4) (f : BitVec 8) : Raw :=
  { Raw.blank x.ctl g f with imm := (0 : BitVec 8) ++ x.t ++ x.c ++ x.s ++ x.l }

/-- m[1:0] of MCLM: acc, wait (R203). -/
def MclmOp.parse (r : Raw) : Option MclmOp := do
  return ⟨r.ctl, r.m.getLsbD 1, r.m.getLsbD 0, ← Opd.dec r.d, ← r.src⟩

def MclmOp.raw (x : MclmOp) (g : BitVec 4) (f : BitVec 8) : Raw :=
  { Raw.blank x.ctl g f with
    d := x.d.enc, m := mBits 0 (0#2 ++ bit x.acc ++ bit x.wait) }.withSrc x.b

def MrelOp.parse (r : Raw) : Option MrelOp := do
  return ⟨r.ctl, r.m.getLsbD 1, ← r.src⟩

def MrelOp.raw (x : MrelOp) (g : BitVec 4) (f : BitVec 8) : Raw :=
  { Raw.blank x.ctl g f with m := mBits 0 (0#2 ++ bit x.acc ++ 0#1) }.withSrc x.b

def MldsOp.parse (r : Raw) : Option MldsOp := do
  return ⟨r.ctl, r.m.getLsbD 0, r.c, ← Opd.dec r.d, ← Opd.dec r.a⟩

def MldsOp.raw (x : MldsOp) (g : BitVec 4) (f : BitVec 8) : Raw :=
  { Raw.blank x.ctl g f with
    d := x.d.enc, a := x.a.enc, c := x.fmt, m := mBits 0 (0#3 ++ bit x.roleB) }

def MpostOp.parse (r : Raw) : Option MpostOp := do
  return ⟨r.ctl, ← barOptDec r.d, ← Opd.dec r.a⟩

def MpostOp.raw (x : MpostOp) (g : BitVec 4) (f : BitVec 8) : Raw :=
  { Raw.blank x.ctl g f with d := barOptEnc x.bar, a := x.a.enc }

def MaccOp.parse (r : Raw) : Option MaccOp := do
  return ⟨r.ctl, r.m.getLsbD 0, ← Opd.dec r.d, ← Opd.dec r.a, ← Opd.dec r.b⟩

def MaccOp.raw (x : MaccOp) (g : BitVec 4) (f : BitVec 8) : Raw :=
  { Raw.blank x.ctl g f with
    d := x.d.enc, a := x.a.enc, b := x.b.enc, m := mBits 0 (0#3 ++ bit x.clr) }

/-- m[4] is the mode of group 0xC, the low bits the entry's own (R238). -/
def travM (f64 : Bool) (low : BitVec 4) : BitVec 8 := mBits (0#2 ++ bit f64) low

def Raw.f64 (r : Raw) : Bool := r.m.getLsbD 4

def TraceOp.parse (r : Raw) : Option TraceOp := do
  return ⟨r.ctl, r.f64, r.m.getLsbD 0, ← Opd.dec r.d, ← Opd.dec r.a, ← Opd.dec r.b,
    ← Opd.dec r.c⟩

def TraceOp.raw (x : TraceOp) (g : BitVec 4) (f : BitVec 8) : Raw :=
  { Raw.blank x.ctl g f with
    d := x.d.enc, a := x.a.enc, b := x.b.enc, c := x.c.enc,
    m := travM x.f64 (0#3 ++ bit x.log) }

def TracecOp.parse (r : Raw) : Option TracecOp := do
  return ⟨r.ctl, r.f64, r.m.getLsbD 0, ← Opd.dec r.d, ← Opd.dec r.c⟩

def TracecOp.raw (x : TracecOp) (g : BitVec 4) (f : BitVec 8) : Raw :=
  { Raw.blank x.ctl g f with
    d := x.d.enc, c := x.c.enc, m := travM x.f64 (0#3 ++ bit x.accept) }

def ReplayOp.parse (r : Raw) : Option ReplayOp := do
  return ⟨r.ctl, r.f64, ← Opd.dec r.d, ← Opd.dec r.a, ← Opd.dec r.b, ← Opd.dec r.c⟩

def ReplayOp.raw (x : ReplayOp) (g : BitVec 4) (f : BitVec 8) : Raw :=
  { Raw.blank x.ctl g f with
    d := x.d.enc, a := x.a.enc, b := x.b.enc, c := x.c.enc, m := travM x.f64 0 }

/-- Queries of HITQ (R240). -/
def HitQuery.code : HitQuery → BitVec 2
  | .pos => 0
  | .nrm => 1
  | .record => 2
  | .user => 3

def HitQuery.ofCode (c : BitVec 2) : HitQuery :=
  match c.toNat with
  | 0 => .pos
  | 1 => .nrm
  | 2 => .record
  | _ => .user

def HitqOp.parse (r : Raw) : Option HitqOp := do
  return ⟨r.ctl, r.f64, r.m.getLsbD 3, HitQuery.ofCode (r.m.extractLsb' 0 2), ← Opd.dec r.d,
    ← Opd.dec r.a, ← Opd.dec r.b⟩

def HitqOp.raw (x : HitqOp) (g : BitVec 4) (f : BitVec 8) : Raw :=
  { Raw.blank x.ctl g f with
    d := x.d.enc, a := x.a.enc, b := x.b.enc,
    m := travM x.f64 (bit x.direct ++ 0#1 ++ x.query.code) }

def DirectOp.parse (r : Raw) : Option DirectOp := do
  return ⟨r.ctl, r.f64, ← Opd.dec r.d, ← Opd.dec r.a, ← Opd.dec r.b⟩

def DirectOp.raw (x : DirectOp) (g : BitVec 4) (f : BitVec 8) : Raw :=
  { Raw.blank x.ctl g f with
    d := x.d.enc, a := x.a.enc, b := x.b.enc, m := travM x.f64 0 }

def KclrOp.parse (r : Raw) : Option KclrOp := some ⟨r.ctl, r.imm.extractLsb' 0 16⟩

def KclrOp.raw (x : KclrOp) (g : BitVec 4) (f : BitVec 8) : Raw :=
  { Raw.blank x.ctl g f with imm := (0 : BitVec 16) ++ x.mask }

/-- Lobe codes of KLOBE (R255). -/
def LobeKind.code : LobeKind → BitVec 3
  | .diff => 1
  | .cond => 2
  | .diel => 3
  | .sheen => 4

def LobeKind.ofCode (c : BitVec 3) : Option LobeKind :=
  match c.toNat with
  | 1 => some .diff
  | 2 => some .cond
  | 3 => some .diel
  | 4 => some .sheen
  | _ => none

/-- m[2:0] as a predicate number (R255). -/
def Raw.mPred (r : Raw) : Fin 8 := ⟨(r.m.extractLsb' 0 3).toNat, (r.m.extractLsb' 0 3).isLt⟩

def mPredBits (p : Fin 8) : BitVec 4 := 0#1 ++ BitVec.ofNat 3 p.val

def KlobeOp.parse (r : Raw) : Option KlobeOp := do
  return ⟨r.ctl, ← LobeKind.ofCode r.ty, r.mPred, ← Opd.dec r.d, ← Opd.dec r.a, ← Opd.dec r.b⟩

def KlobeOp.raw (x : KlobeOp) (g : BitVec 4) (f : BitVec 8) : Raw :=
  { Raw.blank x.ctl g f with
    d := x.d.enc, a := x.a.enc, b := x.b.enc, m := mBits x.lobe.code (mPredBits x.pd) }

def KabOp.parse (r : Raw) : Option KabOp := do
  return ⟨r.ctl, r.mPred, ← Opd.dec r.d, ← Opd.dec r.a, ← Opd.dec r.b⟩

def KabOp.raw (x : KabOp) (g : BitVec 4) (f : BitVec 8) : Raw :=
  { Raw.blank x.ctl g f with
    d := x.d.enc, a := x.a.enc, b := x.b.enc, m := mBits 0 (mPredBits x.pd) }

def KabcOp.parse (r : Raw) : Option KabcOp := do
  return ⟨r.ctl, r.mPred, ← Opd.dec r.d, ← Opd.dec r.a, ← Opd.dec r.b, ← Opd.dec r.c⟩

def KabcOp.raw (x : KabcOp) (g : BitVec 4) (f : BitVec 8) : Raw :=
  { Raw.blank x.ctl g f with
    d := x.d.enc, a := x.a.enc, b := x.b.enc, c := x.c.enc, m := mBits 0 (mPredBits x.pd) }

def KevalOp.parse (r : Raw) : Option KevalOp := do
  return ⟨r.ctl, ← Opd.dec r.d, ← Opd.dec r.a, ← Opd.dec r.b⟩

def KevalOp.raw (x : KevalOp) (g : BitVec 4) (f : BitVec 8) : Raw :=
  { Raw.blank x.ctl g f with d := x.d.enc, a := x.a.enc, b := x.b.enc }

def KspillOp.parse (r : Raw) : Option KspillOp := do
  return ⟨r.ctl, ← Opd.dec r.a, ← Opd.dec r.b⟩

def KspillOp.raw (x : KspillOp) (g : BitVec 4) (f : BitVec 8) : Raw :=
  { Raw.blank x.ctl g f with a := x.a.enc, b := x.b.enc }

def KfillOp.parse (r : Raw) : Option KfillOp := do
  return ⟨r.ctl, r.mPred, ← Opd.dec r.a⟩

def KfillOp.raw (x : KfillOp) (g : BitVec 4) (f : BitVec 8) : Raw :=
  { Raw.blank x.ctl g f with a := x.a.enc, m := mBits 0 (mPredBits x.pd) }

/-- Queries of KINFO (R263). -/
def KQuery.code : KQuery → BitVec 2
  | .node => 0
  | .free => 1
  | .size => 2

def KQuery.ofCode (c : BitVec 2) : Option KQuery :=
  match c.toNat with
  | 0 => some .node
  | 1 => some .free
  | 2 => some .size
  | _ => none

def KinfoOp.parse (r : Raw) : Option KinfoOp := do
  return ⟨r.ctl, ← KQuery.ofCode (r.m.extractLsb' 0 2), ← Opd.dec r.d, ← Opd.dec r.a⟩

def KinfoOp.raw (x : KinfoOp) (g : BitVec 4) (f : BitVec 8) : Raw :=
  { Raw.blank x.ctl g f with
    d := x.d.enc, a := x.a.enc, m := mBits 0 (0#2 ++ x.query.code) }

def YieldbOp.parse (r : Raw) : Option YieldbOp := do
  return ⟨r.ctl, ← predDec r.d, ← r.src, r.c, r.low⟩

def YieldbOp.raw (x : YieldbOp) (g : BitVec 4) (f : BitVec 8) : Raw :=
  { Raw.blank x.ctl g f with d := predEnc x.pd, c := x.n, m := mBits 0 x.need }.withSrc x.bin

def WakeOp.parse (r : Raw) : Option WakeOp := do
  return ⟨r.ctl, ← predDec r.d, r.m.getLsbD 4, r.low, ← Opd.dec r.a, ← Opd.dec r.b⟩

def WakeOp.raw (x : WakeOp) (g : BitVec 4) (f : BitVec 8) : Raw :=
  { Raw.blank x.ctl g f with
    d := predEnc x.pd, a := x.a.enc, b := x.b.enc, m := mBits (0#2 ++ bit x.all) x.mask }

def BinqOp.parse (r : Raw) : Option BinqOp := do
  return ⟨r.ctl, r.m.getLsbD 0, ← Opd.dec r.d, ← Opd.dec r.a, ← Opd.dec r.b⟩

def BinqOp.raw (x : BinqOp) (g : BitVec 4) (f : BitVec 8) : Raw :=
  { Raw.blank x.ctl g f with
    d := x.d.enc, a := x.a.enc, b := x.b.enc, m := mBits 0 (0#3 ++ bit x.area) }

def TsortOp.parse (r : Raw) : Option TsortOp := do
  return ⟨r.ctl, r.m.getLsbD 0, r.c, ← Opd.dec r.b⟩

def TsortOp.raw (x : TsortOp) (g : BitVec 4) (f : BitVec 8) : Raw :=
  { Raw.blank x.ctl g f with b := x.b.enc, c := x.col, m := mBits 0 (0#3 ++ bit x.desc) }

def LineOp.parse (r : Raw) : Option LineOp := do
  return ⟨r.ctl, ← Opd.dec r.a, r.off⟩

def LineOp.raw (x : LineOp) (g : BitVec 4) (f : BitVec 8) : Raw :=
  { Raw.blank x.ctl g f with a := x.a.enc, imm := immM 0 0 x.off }

def HoldOp.parse (r : Raw) : Option HoldOp := do
  return ⟨r.ctl, ← predDec r.d, ← Opd.dec r.a, r.off⟩

def HoldOp.raw (x : HoldOp) (g : BitVec 4) (f : BitVec 8) : Raw :=
  { Raw.blank x.ctl g f with d := predEnc x.pd, a := x.a.enc, imm := immM 0 0 x.off }

def SyscOp.parse (r : Raw) : Option SyscOp := some ⟨r.ctl, r.imm.extractLsb' 0 16⟩

def SyscOp.raw (x : SyscOp) (g : BitVec 4) (f : BitVec 8) : Raw :=
  { Raw.blank x.ctl g f with imm := (0 : BitVec 16) ++ x.num }

/-- Modes of TRET (R296). -/
def TretMode.parse (imm : BitVec 32) : Option TretMode :=
  match (imm.extractLsb' 0 2).toNat with
  | 0 => some .resume
  | 1 => some .skip
  | 2 => some (.jump (imm.extractLsb' 2 30))
  | _ => none

def TretMode.imm : TretMode → BitVec 32
  | .resume => 0
  | .skip => 1
  | .jump off => off ++ (2 : BitVec 2)

def TretOp.parse (r : Raw) : Option TretOp := do
  return ⟨r.ctl, ← TretMode.parse r.imm⟩

def TretOp.raw (x : TretOp) (g : BitVec 4) (f : BitVec 8) : Raw :=
  { Raw.blank x.ctl g f with imm := x.mode.imm }

def CodeOp.parse (r : Raw) : Option CodeOp := some ⟨r.ctl, r.imm.extractLsb' 0 8⟩

def CodeOp.raw (x : CodeOp) (g : BitVec 4) (f : BitVec 8) : Raw :=
  { Raw.blank x.ctl g f with imm := (0 : BitVec 24) ++ x.code }

def SreadOp.parse (r : Raw) : Option SreadOp := do
  return ⟨r.ctl, r.imm.extractLsb' 0 8, r.imm.extractLsb' 8 10, ← Opd.dec r.d, ← Opd.dec r.a⟩

def SreadOp.raw (x : SreadOp) (g : BitVec 4) (f : BitVec 8) : Raw :=
  { Raw.blank x.ctl g f with
    d := x.d.enc, a := x.a.enc, imm := (0 : BitVec 14) ++ x.idx ++ x.reg }

def SwriteOp.parse (r : Raw) : Option SwriteOp := do
  return ⟨r.ctl, r.imm.extractLsb' 0 8, ← Opd.dec r.a⟩

def SwriteOp.raw (x : SwriteOp) (g : BitVec 4) (f : BitVec 8) : Raw :=
  { Raw.blank x.ctl g f with a := x.a.enc, imm := (0 : BitVec 24) ++ x.reg }

def NopreOp.parse (r : Raw) : Option NopreOp := some ⟨r.ctl, r.imm.getLsbD 0⟩

def NopreOp.raw (x : NopreOp) (g : BitVec 4) (f : BitVec 8) : Raw :=
  { Raw.blank x.ctl g f with imm := 0#31 ++ bit x.begin }

/-- The opcode map (R57): the instruction that group and fn select, its fields read in the layout
of its entry. -/
def parseRaw (r : Raw) : Option Instr :=
  match r.group.toNat, r.fn.toNat with
  | 0x0, 0x00 => (IntOp.parse r).map .iadd
  | 0x0, 0x01 => (IntOp.parse r).map .isub
  | 0x0, 0x02 => (IntOp.parse r).map .imin
  | 0x0, 0x03 => (IntOp.parse r).map .imax
  | 0x0, 0x04 => (IntUn.parse r).map .iabs
  | 0x0, 0x05 => (IntOp.parse r).map .and
  | 0x0, 0x06 => (IntOp.parse r).map .or
  | 0x0, 0x07 => (IntOp.parse r).map .xor
  | 0x0, 0x08 => (IntUn.parse r).map .not
  | 0x0, 0x09 => (IntOp.parse r).map .andn
  | 0x0, 0x0a => (IntOp.parse r).map .shl
  | 0x0, 0x0b => (IntOp.parse r).map .shr
  | 0x0, 0x0c => (IntOp.parse r).map .sar
  | 0x0, 0x0d => (IntOp.parse r).map .rol
  | 0x0, 0x0e => (IntOp.parse r).map .bfx
  | 0x0, 0x0f => (IntOp3.parse r).map .bfi
  | 0x0, 0x10 => (IntOp3.parse r).map .prmt
  | 0x0, 0x11 => (IntUn.parse r).map .mov
  | 0x0, 0x12 => (MovI.parse r).map .movi
  | 0x0, 0x13 => (MovH.parse r).map .movhi
  | 0x0, 0x14 => (MovH.parse r).map .addpchi
  | 0x0, 0x15 => (LeaOp.parse r).map .lea
  | 0x1, 0x00 => (IntOp.parse r).map .imul
  | 0x1, 0x01 => (IntOp.parse r).map .imulh
  | 0x1, 0x02 => (IntOp3.parse r).map .imad
  | 0x1, 0x03 => (IntOp3.parse r).map .imadw
  | 0x1, 0x04 => (IntOp.parse r).map .idiv
  | 0x1, 0x05 => (IntOp.parse r).map .irem
  | 0x1, 0x06 => (IntUn.parse r).map .popc
  | 0x1, 0x07 => (IntUn.parse r).map .clz
  | 0x1, 0x08 => (IntUn.parse r).map .ctz
  | 0x1, 0x09 => (IntUn.parse r).map .brev
  | 0x2, 0x00 => (IcmpOp.parse r).map .icmp
  | 0x2, 0x01 => (SelOp.parse r).map .sel
  | 0x2, 0x02 => (PlopOp.parse r).map .plop
  | 0x2, 0x03 => (PmovOp.parse r).map .pmov
  | 0x2, 0x04 => (PsetOp.parse r).map .pset
  | 0x3, 0x00 => (BrOp.parse r).map .bra
  | 0x3, 0x01 => (AOp.parse r).map .brx
  | 0x3, 0x02 => (BrOp.parse r).map .call
  | 0x3, 0x03 => (AOp.parse r).map .callx
  | 0x3, 0x04 => (NoOp.parse r).map .ret
  | 0x3, 0x05 => (NoOp.parse r).map .exit
  | 0x3, 0x06 => (NoOp.parse r).map .nop
  | 0x4, 0x00 => (LoadOp.parse r).map .ld
  | 0x4, 0x01 => (StoreOp.parse r).map .st
  | 0x4, 0x02 => (LoadOp.parse r).map .lds
  | 0x4, 0x03 => (StoreOp.parse r).map .sts
  | 0x4, 0x04 => (LoadOp.parse r).map .ldc
  | 0x4, 0x05 => (LoadOp.parse r).map .ldp
  | 0x4, 0x06 => (StoreOp.parse r).map .stp
  | 0x4, 0x07 => (PrefOp.parse r).map .pref
  | 0x5, 0x00 => (NoOp.parse r).map .acq
  | 0x5, 0x01 => (NoOp.parse r).map .rel
  | 0x5, 0x02 => (FenceOp.parse r).map .fence
  | 0x5, 0x03 => (AtomOp.parse r).map .atom
  | 0x5, 0x04 => (CasOp.parse r).map .cas
  | 0x5, 0x05 => (AtomOp.parse r).map .atomd
  | 0x5, 0x06 => (NoOp.parse r).map .dflush
  | 0x6, 0x00 => (FOp.parse r).map .fadd
  | 0x6, 0x01 => (FOp.parse r).map .fsub
  | 0x6, 0x02 => (FOp.parse r).map .fmul
  | 0x6, 0x03 => (FOp3.parse r).map .ffma
  | 0x6, 0x04 => (FOp.parse r).map .fmin
  | 0x6, 0x05 => (FOp.parse r).map .fmax
  | 0x6, 0x06 => (FcmpOp.parse r).map .fcmp
  | 0x6, 0x07 => (FUn.parse r).map .fclass
  | 0x6, 0x08 => (FOp.parse r).map .fdiv
  | 0x6, 0x09 => (FUn.parse r).map .fsqrt
  | 0x6, 0x0a => (DotOp.parse r).map .fdot4
  | 0x7, 0x00 => (DOp.parse r).map .dadd
  | 0x7, 0x01 => (DOp.parse r).map .dsub
  | 0x7, 0x02 => (DOp.parse r).map .dmul
  | 0x7, 0x03 => (DfmaOp.parse r).map .dfma
  | 0x7, 0x04 => (DOp.parse r).map .dmin
  | 0x7, 0x05 => (DOp.parse r).map .dmax
  | 0x7, 0x06 => (DcmpOp.parse r).map .dcmp
  | 0x7, 0x07 => (DOp.parse r).map .ddiv
  | 0x7, 0x08 => (FUn.parse r).map .dsqrt
  | 0x7, 0x09 => (FUn.parse r).map .dclass
  | 0x8, 0x00 => (CvtOp.parse r).map .cvt
  | 0x8, 0x01 => (CvtOp.parse r).map .cvts
  | 0x8, 0x02 => (CvtiOp.parse r).map .cvti
  | 0x8, 0x03 => (TagsetOp.parse r).map .tagset
  | 0x8, 0x04 => (DaOp.parse r).map .tagget
  | 0x8, 0x05 => (FUn.parse r).map .fexp2
  | 0x8, 0x06 => (FUn.parse r).map .flog2
  | 0x8, 0x07 => (FUn.parse r).map .frcp
  | 0x8, 0x08 => (FUn.parse r).map .frsq
  | 0x8, 0x09 => (FUn.parse r).map .fsin
  | 0x8, 0x0a => (FUn.parse r).map .fcos
  | 0x8, 0x0b => (FUn.parse r).map .ftanh
  | 0x8, 0x0c => (FUn.parse r).map .fsigm
  | 0x8, 0x0d => (FUn.parse r).map .fgelu
  | 0x8, 0x0e => (RowOp.parse r).map .rmsn
  | 0x8, 0x0f => (RowOp.parse r).map .smax
  | 0x8, 0x10 => (RowOp.parse r).map .rowsum
  | 0x8, 0x11 => (RowscaleOp.parse r).map .rowscale
  | 0x9, 0x00 => (JoinOp.parse r).map .join
  | 0x9, 0x01 => (BOp.parse r).map .leave
  | 0x9, 0x02 => (DbOp.parse r).map .crew
  | 0x9, 0x03 => (ShflOp.parse r).map .shfl
  | 0x9, 0x04 => (VoteOp.parse r).map .vote
  | 0x9, 0x05 => (CredOp.parse r).map .cred
  | 0x9, 0x06 => (CscanOp.parse r).map .cscan
  | 0x9, 0x07 => (BinitOp.parse r).map .binit
  | 0x9, 0x08 => (BarvOp.parse r).map .barv
  | 0x9, 0x09 => (BwaitOp.parse r).map .bwait
  | 0x9, 0x0a => (BsyncOp.parse r).map .bsync
  | 0xa, 0x00 => (CopyOp.parse r).map .cpy
  | 0xa, 0x01 => (CopyxOp.parse r).map .cpyx
  | 0xa, 0x02 => (CopyOp.parse r).map .cpyo
  | 0xa, 0x03 => (PublOp.parse r).map .publ
  | 0xa, 0x04 => (CpqOp.parse r).map .cpq
  | 0xa, 0x05 => (WaitOp.parse r).map .wait
  | 0xb, 0x00 => (MclmOp.parse r).map .mclm
  | 0xb, 0x01 => (MrelOp.parse r).map .mrel
  | 0xb, 0x02 => (MldsOp.parse r).map .mlds
  | 0xb, 0x03 => (MpostOp.parse r).map .mpost
  | 0xb, 0x04 => (MaccOp.parse r).map .macc
  | 0xb, 0x05 => (BOp.parse r).map .mzero
  | 0xc, 0x00 => (TraceOp.parse r).map .trace
  | 0xc, 0x01 => (TracecOp.parse r).map .tracec
  | 0xc, 0x02 => (ReplayOp.parse r).map .replay
  | 0xc, 0x03 => (HitqOp.parse r).map .hitq
  | 0xc, 0x04 => (DirectOp.parse r).map .asph
  | 0xc, 0x05 => (DirectOp.parse r).map .trix
  | 0xc, 0x06 => (DirectOp.parse r).map .boxx
  | 0xd, 0x00 => (KclrOp.parse r).map .kclr
  | 0xd, 0x01 => (KlobeOp.parse r).map .klobe
  | 0xd, 0x02 => (KabOp.parse r).map .knet
  | 0xd, 0x03 => (KabOp.parse r).map .kadd
  | 0xd, 0x04 => (KabcOp.parse r).map .kmix
  | 0xd, 0x05 => (KabcOp.parse r).map .kcoat
  | 0xd, 0x06 => (DaOp.parse r).map .kscl
  | 0xd, 0x07 => (KevalOp.parse r).map .ksample
  | 0xd, 0x08 => (KevalOp.parse r).map .keval
  | 0xd, 0x09 => (KevalOp.parse r).map .kpdf
  | 0xd, 0x0a => (KspillOp.parse r).map .kspill
  | 0xd, 0x0b => (KfillOp.parse r).map .kfill
  | 0xd, 0x0c => (KinfoOp.parse r).map .kinfo
  | 0xe, 0x00 => (YieldbOp.parse r).map .yieldb
  | 0xe, 0x01 => (DbOp.parse r).map .resume
  | 0xe, 0x02 => (WakeOp.parse r).map .wake
  | 0xe, 0x03 => (BinqOp.parse r).map .binq
  | 0xe, 0x04 => (TsortOp.parse r).map .tsort
  | 0xe, 0x05 => (TcompOp.parse r).map .tcomp
  | 0xe, 0x06 => (LineOp.parse r).map .monitor
  | 0xe, 0x07 => (DbOp.parse r).map .mwait
  | 0xe, 0x08 => (HoldOp.parse r).map .hold
  | 0xe, 0x09 => (LineOp.parse r).map .unhold
  | 0xe, 0x0a => (AOp.parse r).map .wreg
  | 0xe, 0x0b => (NoOp.parse r).map .wdrop
  | 0xf, 0x00 => (SyscOp.parse r).map .sysc
  | 0xf, 0x01 => (NoOp.parse r).map .tfence
  | 0xf, 0x02 => (TretOp.parse r).map .tret
  | 0xf, 0x03 => (CodeOp.parse r).map .trap
  | 0xf, 0x04 => (SreadOp.parse r).map .sread
  | 0xf, 0x05 => (SwriteOp.parse r).map .swrite
  | 0xf, 0x06 => (LaunchOp.parse r).map .launch
  | 0xf, 0x07 => (NopreOp.parse r).map .nopre
  | 0xf, 0x08 => (CodeOp.parse r).map .bkpt
  | _, _ => none

/-- The fields of an instruction's word, from the opcode map and the entries' encodings; a step
that is no instruction word has none. -/
def encodeRaw : Instr → Option Raw
  | .iadd x => some (IntOp.raw x 0x0 0x00)
  | .isub x => some (IntOp.raw x 0x0 0x01)
  | .imin x => some (IntOp.raw x 0x0 0x02)
  | .imax x => some (IntOp.raw x 0x0 0x03)
  | .iabs x => some (IntUn.raw x 0x0 0x04)
  | .and x => some (IntOp.raw x 0x0 0x05)
  | .or x => some (IntOp.raw x 0x0 0x06)
  | .xor x => some (IntOp.raw x 0x0 0x07)
  | .not x => some (IntUn.raw x 0x0 0x08)
  | .andn x => some (IntOp.raw x 0x0 0x09)
  | .shl x => some (IntOp.raw x 0x0 0x0a)
  | .shr x => some (IntOp.raw x 0x0 0x0b)
  | .sar x => some (IntOp.raw x 0x0 0x0c)
  | .rol x => some (IntOp.raw x 0x0 0x0d)
  | .bfx x => some (IntOp.raw x 0x0 0x0e)
  | .bfi x => some (IntOp3.raw x 0x0 0x0f)
  | .prmt x => some (IntOp3.raw x 0x0 0x10)
  | .mov x => some (IntUn.raw x 0x0 0x11)
  | .movi x => some (MovI.raw x 0x0 0x12)
  | .movhi x => some (MovH.raw x 0x0 0x13)
  | .addpchi x => some (MovH.raw x 0x0 0x14)
  | .lea x => some (LeaOp.raw x 0x0 0x15)
  | .imul x => some (IntOp.raw x 0x1 0x00)
  | .imulh x => some (IntOp.raw x 0x1 0x01)
  | .imad x => some (IntOp3.raw x 0x1 0x02)
  | .imadw x => some (IntOp3.raw x 0x1 0x03)
  | .idiv x => some (IntOp.raw x 0x1 0x04)
  | .irem x => some (IntOp.raw x 0x1 0x05)
  | .popc x => some (IntUn.raw x 0x1 0x06)
  | .clz x => some (IntUn.raw x 0x1 0x07)
  | .ctz x => some (IntUn.raw x 0x1 0x08)
  | .brev x => some (IntUn.raw x 0x1 0x09)
  | .icmp x => some (IcmpOp.raw x 0x2 0x00)
  | .sel x => some (SelOp.raw x 0x2 0x01)
  | .plop x => some (PlopOp.raw x 0x2 0x02)
  | .pmov x => some (PmovOp.raw x 0x2 0x03)
  | .pset x => some (PsetOp.raw x 0x2 0x04)
  | .bra x => some (BrOp.raw x 0x3 0x00)
  | .brx x => some (AOp.raw x 0x3 0x01)
  | .call x => some (BrOp.raw x 0x3 0x02)
  | .callx x => some (AOp.raw x 0x3 0x03)
  | .ret x => some (NoOp.raw x 0x3 0x04)
  | .exit x => some (NoOp.raw x 0x3 0x05)
  | .nop x => some (NoOp.raw x 0x3 0x06)
  | .ld x => some (LoadOp.raw x 0x4 0x00)
  | .st x => some (StoreOp.raw x 0x4 0x01)
  | .lds x => some (LoadOp.raw x 0x4 0x02)
  | .sts x => some (StoreOp.raw x 0x4 0x03)
  | .ldc x => some (LoadOp.raw x 0x4 0x04)
  | .ldp x => some (LoadOp.raw x 0x4 0x05)
  | .stp x => some (StoreOp.raw x 0x4 0x06)
  | .pref x => some (PrefOp.raw x 0x4 0x07)
  | .acq x => some (NoOp.raw x 0x5 0x00)
  | .rel x => some (NoOp.raw x 0x5 0x01)
  | .fence x => some (FenceOp.raw x 0x5 0x02)
  | .atom x => some (AtomOp.raw x 0x5 0x03)
  | .cas x => some (CasOp.raw x 0x5 0x04)
  | .atomd x => some (AtomOp.raw x 0x5 0x05)
  | .dflush x => some (NoOp.raw x 0x5 0x06)
  | .fadd x => some (FOp.raw x 0x6 0x00)
  | .fsub x => some (FOp.raw x 0x6 0x01)
  | .fmul x => some (FOp.raw x 0x6 0x02)
  | .ffma x => some (FOp3.raw x 0x6 0x03)
  | .fmin x => some (FOp.raw x 0x6 0x04)
  | .fmax x => some (FOp.raw x 0x6 0x05)
  | .fcmp x => some (FcmpOp.raw x 0x6 0x06)
  | .fclass x => some (FUn.raw x 0x6 0x07)
  | .fdiv x => some (FOp.raw x 0x6 0x08)
  | .fsqrt x => some (FUn.raw x 0x6 0x09)
  | .fdot4 x => some (DotOp.raw x 0x6 0x0a)
  | .dadd x => some (DOp.raw x 0x7 0x00)
  | .dsub x => some (DOp.raw x 0x7 0x01)
  | .dmul x => some (DOp.raw x 0x7 0x02)
  | .dfma x => some (DfmaOp.raw x 0x7 0x03)
  | .dmin x => some (DOp.raw x 0x7 0x04)
  | .dmax x => some (DOp.raw x 0x7 0x05)
  | .dcmp x => some (DcmpOp.raw x 0x7 0x06)
  | .ddiv x => some (DOp.raw x 0x7 0x07)
  | .dsqrt x => some (FUn.raw x 0x7 0x08)
  | .dclass x => some (FUn.raw x 0x7 0x09)
  | .cvt x => some (CvtOp.raw x 0x8 0x00)
  | .cvts x => some (CvtOp.raw x 0x8 0x01)
  | .cvti x => some (CvtiOp.raw x 0x8 0x02)
  | .tagset x => some (TagsetOp.raw x 0x8 0x03)
  | .tagget x => some (DaOp.raw x 0x8 0x04)
  | .fexp2 x => some (FUn.raw x 0x8 0x05)
  | .flog2 x => some (FUn.raw x 0x8 0x06)
  | .frcp x => some (FUn.raw x 0x8 0x07)
  | .frsq x => some (FUn.raw x 0x8 0x08)
  | .fsin x => some (FUn.raw x 0x8 0x09)
  | .fcos x => some (FUn.raw x 0x8 0x0a)
  | .ftanh x => some (FUn.raw x 0x8 0x0b)
  | .fsigm x => some (FUn.raw x 0x8 0x0c)
  | .fgelu x => some (FUn.raw x 0x8 0x0d)
  | .rmsn x => some (RowOp.raw x 0x8 0x0e)
  | .smax x => some (RowOp.raw x 0x8 0x0f)
  | .rowsum x => some (RowOp.raw x 0x8 0x10)
  | .rowscale x => some (RowscaleOp.raw x 0x8 0x11)
  | .join x => some (JoinOp.raw x 0x9 0x00)
  | .leave x => some (BOp.raw x 0x9 0x01)
  | .crew x => some (DbOp.raw x 0x9 0x02)
  | .shfl x => some (ShflOp.raw x 0x9 0x03)
  | .vote x => some (VoteOp.raw x 0x9 0x04)
  | .cred x => some (CredOp.raw x 0x9 0x05)
  | .cscan x => some (CscanOp.raw x 0x9 0x06)
  | .binit x => some (BinitOp.raw x 0x9 0x07)
  | .barv x => some (BarvOp.raw x 0x9 0x08)
  | .bwait x => some (BwaitOp.raw x 0x9 0x09)
  | .bsync x => some (BsyncOp.raw x 0x9 0x0a)
  | .cpy x => some (CopyOp.raw x 0xa 0x00)
  | .cpyx x => some (CopyxOp.raw x 0xa 0x01)
  | .cpyo x => some (CopyOp.raw x 0xa 0x02)
  | .publ x => some (PublOp.raw x 0xa 0x03)
  | .cpq x => some (CpqOp.raw x 0xa 0x04)
  | .wait x => some (WaitOp.raw x 0xa 0x05)
  | .mclm x => some (MclmOp.raw x 0xb 0x00)
  | .mrel x => some (MrelOp.raw x 0xb 0x01)
  | .mlds x => some (MldsOp.raw x 0xb 0x02)
  | .mpost x => some (MpostOp.raw x 0xb 0x03)
  | .macc x => some (MaccOp.raw x 0xb 0x04)
  | .mzero x => some (BOp.raw x 0xb 0x05)
  | .trace x => some (TraceOp.raw x 0xc 0x00)
  | .tracec x => some (TracecOp.raw x 0xc 0x01)
  | .replay x => some (ReplayOp.raw x 0xc 0x02)
  | .hitq x => some (HitqOp.raw x 0xc 0x03)
  | .asph x => some (DirectOp.raw x 0xc 0x04)
  | .trix x => some (DirectOp.raw x 0xc 0x05)
  | .boxx x => some (DirectOp.raw x 0xc 0x06)
  | .kclr x => some (KclrOp.raw x 0xd 0x00)
  | .klobe x => some (KlobeOp.raw x 0xd 0x01)
  | .knet x => some (KabOp.raw x 0xd 0x02)
  | .kadd x => some (KabOp.raw x 0xd 0x03)
  | .kmix x => some (KabcOp.raw x 0xd 0x04)
  | .kcoat x => some (KabcOp.raw x 0xd 0x05)
  | .kscl x => some (DaOp.raw x 0xd 0x06)
  | .ksample x => some (KevalOp.raw x 0xd 0x07)
  | .keval x => some (KevalOp.raw x 0xd 0x08)
  | .kpdf x => some (KevalOp.raw x 0xd 0x09)
  | .kspill x => some (KspillOp.raw x 0xd 0x0a)
  | .kfill x => some (KfillOp.raw x 0xd 0x0b)
  | .kinfo x => some (KinfoOp.raw x 0xd 0x0c)
  | .yieldb x => some (YieldbOp.raw x 0xe 0x00)
  | .resume x => some (DbOp.raw x 0xe 0x01)
  | .wake x => some (WakeOp.raw x 0xe 0x02)
  | .binq x => some (BinqOp.raw x 0xe 0x03)
  | .tsort x => some (TsortOp.raw x 0xe 0x04)
  | .tcomp x => some (TcompOp.raw x 0xe 0x05)
  | .monitor x => some (LineOp.raw x 0xe 0x06)
  | .mwait x => some (DbOp.raw x 0xe 0x07)
  | .hold x => some (HoldOp.raw x 0xe 0x08)
  | .unhold x => some (LineOp.raw x 0xe 0x09)
  | .wreg x => some (AOp.raw x 0xe 0x0a)
  | .wdrop x => some (NoOp.raw x 0xe 0x0b)
  | .sysc x => some (SyscOp.raw x 0xf 0x00)
  | .tfence x => some (NoOp.raw x 0xf 0x01)
  | .tret x => some (TretOp.raw x 0xf 0x02)
  | .trap x => some (CodeOp.raw x 0xf 0x03)
  | .sread x => some (SreadOp.raw x 0xf 0x04)
  | .swrite x => some (SwriteOp.raw x 0xf 0x05)
  | .launch x => some (LaunchOp.raw x 0xf 0x06)
  | .nopre x => some (NopreOp.raw x 0xf 0x07)
  | .bkpt x => some (CodeOp.raw x 0xf 0x08)
  | .fjasRun _ => none
  | .fjldRun _ _ => none
  | .dividerComplete _ _ => none
  | .loadReturn _ _ => none
  | .commitRegister _ _ => none
  | .atomicReturn _ _ => none
  | .atomdDrain _ => none
  | .rowOpWriteCycle _ => none
  | .crewGather _ _ => none
  | .publFlip _ _ => none
  | .copyRetire _ _ => none
  | .mldsComplete _ _ => none
  | .engineGrant _ => none
  | .engineEntryWriteCycle _ _ => none
  | .traversalComplete _ _ => none
  | .closureOpComplete _ _ => none
  | .binAutoResume _ => none
  | .binSortComplete _ _ => none
  | .mwaitWake _ => none
  | .mwaitTimeout _ => none
  | .purlinEntryExpiry _ => none
  | .nopreExpiry _ => none
  | .slotTurn _ => none
  | .threadOverdue _ => none
  | .twinMismatch _ _ => none
  | .pageWalk _ _ _ => none
  | .queueEnable _ _ => none
  | .queueDisable _ _ => none
  | .queueClearRefusal _ _ => none
  | .queueCtlBadOp _ _ => none
  | .doorbellWrite _ _ _ => none
  | .queueSlotAssign _ => none
  | .queueAgeOverdue _ _ => none
  | .packetHeadCheck _ _ => none
  | .packetBegin _ _ => none
  | .dependencePoll _ _ => none
  | .courseDispatch _ => none
  | .resplitTimerExpiry _ _ => none
  | .coreResplit _ => none
  | .resplitTimeWrite _ _ => none
  | .courseRetire _ => none
  | .launchEnd _ => none
  | .faultQueueAnswer _ _ => none
  | .tlbInvalPage _ _ _ => none
  | .tlbInvalContext _ _ => none
  | .tlbInvalPartition _ => none
  | .syscAnswer _ _ => none
  | .softRequest _ => none
  | .hardHalt _ => none
  | .contextReset _ => none
  | .preemptGraceExpiry _ => none
  | .preemptKillExpiry _ => none
  | .haltComplete _ => none
  | .contextRestore _ => none
  | .preemptTimeWrite _ _ => none
  | .debugStep _ _ => none
  | .debugBreak _ _ => none
  | .debugContinue _ => none
  | .ctxS1RootWrite _ _ => none
  | .ctxCeilWrite _ _ => none
  | .rollbackReq _ _ => none
  | .uncorrectableRegisterRead _ _ _ => none
  | .engineUncorrectableError _ => none
  | .infieldTestStart _ => none
  | .infieldMoveDeferExpiry _ => none
  | .infieldTestComplete _ _ _ => none
  | .createPartition => none
  | .destroyPartition => none
  | .setContext => none
  | .freeContext => none
  | .loadKey => none
  | .revokeKey => none
  | .snapshot => none
  | .setTokens => none
  | .migrateOut _ => none
  | .migrateIn _ => none
  | .setCollectiveGroup => none
  | .attest => none
  | .exportTransportKey => none
  | .hvCmdBadOp => none
  | .hvFaultQueueAnswer _ => none
  | .hvTlbInvalPage _ _ => none
  | .hvTlbInvalContext _ => none
  | .hvTlbInvalPartition _ => none
  | .hvTlbInvalPart => none
  | .absentPagePull _ _ _ => none
  | .pullTimeout _ _ => none
  | .migrationPathFailure _ => none
  | .settlement _ => none
  | .hostAccess _ _ _ => none
  | .triaterPortOutOfService _ => none
  | .collDoorbell _ _ _ => none
  | .collectiveReform _ => none
  | .collectiveComplete _ _ => none
  | .coldStart => none
  | .warmStart => none
  | .registerWrite _ _ _ => none
  | .privateStorePerformed _ _ => none
  | .linkRemoteAccess _ _ _ => none
  | .triaterFlitReceived _ _ _ => none
  | .migrationPullRequest _ _ => none
  | .migrationDataReceived _ _ _ => none

/-- The encoder: the 96-bit word of an instruction. -/
def encode (i : Instr) : Option IWord := (encodeRaw i).map Raw.toWord

/-- The decoder (R57, R58). A word decodes only when its term is well formed and encodes back to
the very word: an unused field that is not 0xFF, a reserved bit that is set and an m[7] of a format
the map does not list are therefore all refused. -/
def decode (w : IWord) : Except Reject Instr :=
  match parseRaw (Raw.ofWord w) with
  | none => .error .unassigned
  | some i => if i.wf && encode i == some w then .ok i else .error .illegal

/-- The 96-bit word in 12 bytes, byte 0 the least significant (R22). -/
def wordOfBytes (bs : List Byte) : IWord :=
  bs.foldr (fun x acc => (acc <<< 8) ||| x.setWidth 96) 0

/-- The 12 bytes of a word (R22). -/
def bytesOfWord (w : IWord) : List Byte :=
  (List.range 12).map fun i => w.extractLsb' (8 * i) 8

/-- Decode the first instruction of any bytes and give the rest. -/
def decodeBytes (bs : List Byte) : Except Reject (Instr × List Byte) :=
  if bs.length < 12 then .error .short
  else (decode (wordOfBytes (bs.take 12))).map fun i => (i, bs.drop 12)

/-- The instruction the decoder reads from a word whose low `nbits` bits are those of `w`, bit 0
the least significant bit of the word's first byte, and whose other bits are 0. -/
def decodeTableWord (nbits w : Nat) : Option Instr :=
  if nbits ≤ 96 then
    match decodeBytes (bytesOfWord (BitVec.ofNat 96 (w % 2 ^ nbits))) with
    | .ok (i, _) => some i
    | .error _ => none
  else none

end Sys2Proof
end

