-- ==== Sys2Proof/Config.lean ====
section
/-! DEFINITION. Config.lean: what the spec leaves open or to the part. Every constant here has no
body: no proof can see a value of it (log entries 5, 6 and 7). -/

namespace Sys2Proof.Config

/-- A free choice among finitely many behaviours the spec allows, drawn with the counter of the
state (log entry 5). -/
opaque freeChoice : Nat → Nat

/-- A free truth value drawn with the counter of the state (log entry 5). -/
opaque freeBit : Nat → Bool

/-- A free word drawn with the counter of the state (log entry 5). -/
opaque freeWord : Nat → Word

/-- A free number for a line that one instruction reads, drawn with the counter of the state: whether the
copies of the line have been evicted (R184, R269, log entry 5). -/
opaque freeLine : Nat → Nat → Nat

/-- The virtual address, in units of 16 bytes, of the area that the dispatcher assigns to a thread's private
memory, drawn with the counter of the state (R182, log entry 20). -/
opaque privateArea : Nat → Nat

/-- The area's address: a multiple of 16 (R182, log entry 20). -/
def privateAddr (n : Nat) : DWord := BitVec.ofNat 64 (16 * privateArea n)

/-- Cycles by which `%clock` of a core differs from the package's count (R15): the counts of two
cores are not synchronised (log entry 5). -/
opaque clockBase : Nat → Nat

/-- The value that a body byte of a context image holds: the body is laid out as restore reads it
(R312), so its bytes are not defined for programs (log entry 5). -/
opaque imageByte : Nat → Nat → Byte

/-- A check code over a context image (R312); the spec does not give the code (log entry 5). -/
opaque imageCheck : List Byte → DWord

/-- Undefined bytes of a suspended traversal's work area (R235), by free counter and offset
(log entry 5). -/
opaque workAreaByte : Nat → Nat → Byte

/-- Energy charged for one event, in picojoules, at the voltage and frequency point in force: the
calibration table is the part's own (R321). The first argument numbers the kind of event, the
second is `true` when the signed table governs and `false` for the nominal coefficients
(log entry 6). -/
opaque energy : Nat → Bool → Nat

/-- Energy of the L2, fabric and HBM accesses and of the flits that one step causes, in picojoules, drawn
with the counter of the state: which accesses a step makes is not fixed (R322, log entry 6). -/
opaque lineEnergy : Nat → Nat

/-- Static energy of one slice for one interval, in picojoules (R323, log entry 6). -/
opaque staticEnergy : Nat → Nat

/-- Refresh energy of one stack for one interval, in nanojoules (R323, log entry 6). -/
opaque refreshEnergy : Nat → Nat

/-- Whether the calibration table's signature is valid (R321, log entry 6). -/
opaque calibrationValid : Bool

/-- The private half of the device identity key, fused at test (R351, log entry 7). -/
opaque identityKey : BitVec 256

/-- Bytes of a page that a migration brings from the peer (R328, log entry 7). -/
opaque peerByte : Nat → Nat → Nat → Byte

/-- Bytes of an NVMe namespace, drawn with the counter of the state: storage is a device outside the part
(R318, R329, log entry 7). -/
opaque nvmeByte : Nat → Nat → Nat → Byte

/-- Whether a namespace exists (R315 code 0x05, log entry 7). -/
opaque namespacePresent : Nat → Bool

/-- The number of this device in its Triater domain (R349, log entry 7). -/
opaque deviceNumber : Nat

/-- The Ed25519 public key that verifies a partition's image (R318, log entry 7). -/
opaque partitionKey : Nat → BitVec 256

/-- The private half of the transport key pair made at the n-th cold start (R350, R352,
log entry 7). -/
opaque transportKey : Nat → BitVec 256

/-- SHA-512 measurement of the firmware (R350, R351, log entry 7). -/
opaque firmwareMeasurement : BitVec 512

/-- SHA-512 measurement of the hypervisor (R350, R351, log entry 7). -/
opaque hypervisorMeasurement : BitVec 512

/-- SHA-512 measurement of the calibration table (R351, log entry 7). -/
opaque calibrationMeasurement : BitVec 512

/-- Whether the firmware's and the hypervisor's signatures verify at a start (R350 steps 2 and 8,
log entry 7). -/
opaque firmwareValid : Bool

/-- See `firmwareValid`. -/
opaque hypervisorValid : Bool

end Sys2Proof.Config
end

