-- ==== Sys2Proof/Machine/State.lean ====
section
/-! DEFINITION. State.lean: everything the spec gives the machine, as plain data, and the state
right after reset. Collections are tables: lists of (key, value) pairs. -/

namespace Sys2Proof.Machine

/-- A finite map as a list of pairs. -/
abbrev Table (κ α : Type) := List (κ × α)

/-- Bytes by address: strictly rising addresses, no entry equal to what an unlisted address reads
as (`Memory.wf` in Ops.lean). -/
abbrev Memory := List Host.Cell

/-! ## Threads (R8, R15, R18) -/

/-- A v register: 32 bits and a tag byte (R8, R10). -/
structure VReg where
  bits : Word
  tag : Tag
  deriving DecidableEq, Repr

/-- A closure node (R242). -/
abbrev KReg := BitVec 256

/-- The monitor's arm (R283): the line VA[63:7], the physical line, the issue timestamp, and
whether the watch has fired or is lost. -/
structure Monitor where
  line : Nat
  phys : Nat
  stamp : Nat
  fired : Bool
  lost : Bool
  deriving DecidableEq, Repr

/-- A fault-queue entry that something waits on (R189, R190): which queue holds it, its number in
the queue (`none` while it waits for room), and its 32 bytes. -/
structure Ticket where
  hv : Bool
  part : Nat
  index : Option Nat
  entry : BitVec 256
  /-- The source number of the fault (R341). -/
  src : Nat
  deriving DecidableEq, Repr

/-- Why a thread is not a candidate (R119), or is stopped (R297, R313). -/
inductive Await where
  /-- A candidate, or in a run. -/
  | ready
  /-- At a WAIT whose limits are not met (R126). -/
  | counters (l s c t : Nat)
  /-- At a BWAIT or BSYNC: until the phase differs (R136). -/
  | barrier (bar : Fin 16) (phase : BitVec 8)
  /-- At a collective of a crew (R129). -/
  | crew (crew : Fin 64)
  /-- At an MWAIT, with its timeout on `%gts` (R284). -/
  | monitor (d : Opd) (timeout : Option Nat)
  /-- At an MCLM with wait: banks or slots, how many, where the mask goes, since when (R204). -/
  | claim (banks : Bool) (n : Nat) (d : Opd) (since : Nat)
  /-- At a SYSC whose call entry has this number (R307). -/
  | call (index : Nat)
  /-- Stopped on a fault-queue entry (R189). -/
  | fault (t : Ticket)
  /-- Stopped at a table-full trap to the partition kernel (R287), at a trap without a handler
  (R297) or inside one (R303). -/
  | stopped
  /-- Stopped by the debugger after a step, or at a BKPT (R313). -/
  | debug
  /-- Under single step: its instruction's destinations are not written yet (R229, R260). -/
  | landing
  /-- A resumed row becomes a candidate at this cycle (R294). -/
  | starting (cycle : Nat)
  /-- Exited; its slot stays until its outstanding loads have landed (R81). -/
  | exited
  deriving DecidableEq, Repr

/-- One thread (R8, R18). -/
structure Thread where
  regs : Vector VReg 192
  preds : BitVec 7
  kregs : Vector KReg 16
  pc : Word
  cso : Word
  fflags : BitVec 5
  fctl : BitVec 10
  gen : Word
  loads : Nat
  stores : Nat
  copies : Nat
  tileOps : Nat
  /-- Crews with the rank in each, the one joined last at the end (R127). -/
  crews : List (Fin 64 × Fin 32)
  trapfpc : Word
  trappc : Word
  trapinfo : Word
  trapmask : Word
  /-- Capture state (R300). -/
  armed : Bool
  field : BitVec 8
  /-- The operation whose late flag the capture holds, if it is one (R17, R300). -/
  late : Option Nat := none
  inHandler : Bool
  resume : Word
  prio : BitVec 3
  acqTs : Nat
  /-- Line objects VA[63:7] of the context (R285). -/
  holds : List Nat
  wreg : Option Nat
  monitor : Option Monitor
  /-- The `%gts` at which its NOPRE window opened (R311). -/
  nopre : Option Nat
  priv : Memory
  /-- Virtual address of the area of private memory assigned to its slot (R182). -/
  area : DWord
  await : Await
  /-- Thread slot of the core (R8, R120). -/
  slot : Nat
  /-- The core's pick count when the thread last became a candidate (R120). -/
  since : Nat
  overdue : Bool
  /-- Threads of one RESUME that are picked together (R294). -/
  cohort : Option Nat
  deriving DecidableEq, Repr

/-! ## Courses (R13) -/

/-- A tile register: 128 columns of 32-bit elements by tile_rows rows, row r at byte 512r, and its
tag (R13). -/
structure Tile where
  tag : Tag
  data : Memory
  deriving DecidableEq, Repr

/-- The tile writes that count as made in a cycle, by the last of them (R124). -/
structure TileWrite where
  cycle : Nat
  writers : List ThreadId
  tile : Tile
  /-- Instructions that read, or that write, the tile wait until it is seen (R175, R199, R213). -/
  readersWait : Bool
  writersWait : Bool
  deriving DecidableEq, Repr

/-- A tile register with the writes that not every thread sees yet, newest first (R124). -/
structure TileReg where
  base : Tile
  recent : List TileWrite
  deriving DecidableEq, Repr

/-- A barrier register (R135). -/
structure Barrier where
  phase : BitVec 8
  arrived : BitVec 12
  expected : BitVec 12
  deriving DecidableEq, Repr

/-- Where a thatch tile lies (R291). -/
inductive TileRef where
  | pool (n : Nat)
  | area (n : Nat)
  deriving DecidableEq, Repr

/-- A bin: its chain of tiles, head first, and the tail's next row index (R291, R293). -/
structure Bin where
  tiles : List TileRef
  nextRow : Nat
  deriving DecidableEq, Repr

/-- An entry of the staging store buffer (R266); `taken` numbers the commit that took it, `pol` is the
cache policy of its latest store (R89), `last` that store's cycle and PC (R88), and `whole` says
that an 8-byte access made it (R345). -/
structure StageEntry where
  addr : DWord
  phys : Nat
  key : Nat
  mask : BitVec 8
  data : DWord
  colour : Fin 8
  th : ThreadId
  pc : Word
  taken : Option Nat
  pol : Fin 4 := 0
  last : Nat × Word := (0, 0)
  whole : Bool := true
  deriving DecidableEq, Repr

/-- A commit that has not registered yet (R267): whose it is (`none` for the whole course), and
whether a FENCE counts it. -/
structure Commit where
  id : Nat
  th : Option ThreadId
  fence : Bool
  /-- Stopped on a write-protected page (R327). -/
  stop : Option Ticket
  deriving DecidableEq, Repr

/-- A course that is resident or saved (R13). -/
structure Course where
  ctx : Nat
  /-- Physical core number (R105). -/
  core : Nat
  /-- Thread slots reserved to the course. -/
  slots : List Nat
  /-- Its register footprint, and where its local rows lie in the core's pool: ranges of base and
  size (R107, R109). -/
  regBytes : Nat
  regAt : List (Nat × Nat)
  /-- Its scratchpad allocation in the core's pool (R109). -/
  spAt : List (Nat × Nat)
  /-- Bytes of its registers that a lease covers, and whether they lie in L2 (R113, R114). -/
  leased : Nat
  inL2 : Bool
  tiles : List TileReg
  bars : Vector Barrier 16
  scratch : Memory
  bins : List Bin
  pool : List Memory
  area : Option (DWord × Nat)
  /-- Private memory of rows asleep in bins, by `%cthr` (R293). -/
  rowPriv : Table Nat Memory
  /-- Copy status (R198). -/
  poison : Bool
  noshadow : Bool
  firstThr : BitVec 10
  staging : List StageEntry
  commits : List Commit
  /-- No longer eligible for rollback (R335). -/
  committed : Bool
  /-- Reported as stranded; the fault that the core's own RESUME waits on (R294, R295). -/
  stranded : Bool
  binStop : Option Ticket
  /-- Picojoules charged for its work, and those of work that a rollback redoes, which the hypervisor's
  account pays (R322, R336). -/
  charged : Nat
  redo : Nat
  deriving DecidableEq, Repr

/-! ## Operations in progress -/

/-- What an atomic does at home (R278). -/
inductive AtomKind where
  | op (fn : AtomFn) (b : DWord)
  | cas (expected new : DWord)
  deriving DecidableEq, Repr

/-- The four commands of group 0xA that the copy unit takes (R196). -/
inductive CopyKind where
  | cpy
  | cpyx
  | cpyo
  | publ
  deriving DecidableEq, Repr

/-- The core side of a copy. -/
inductive CopySide where
  | scratch (addr : Nat)
  | tile (t : Fin 8)
  deriving DecidableEq, Repr

/-- A command of the copy unit (R192 to R202). `seen` is a number drawn at its acceptance and global memory
as it stood then; `hide` names the words whose staged stores the copy must not see (R333); PUBL holds
its region in `base` and `len`. -/
structure CopyReq where
  kind : CopyKind
  bar : Option (Fin 16)
  recs : List (BitVec 512)
  coords : List Word
  dim : Nat
  side : CopySide
  bytes : Nat
  seen : Option (Nat × Memory)
  hide : List Nat
  base : Nat
  len : Nat
  keep : Bool
  flipped : Bool
  deriving DecidableEq, Repr

/-- The best valid test of a walk (R226): codes in the trace's format, the identity, and the log
word of the test. -/
structure BestHit where
  t : Nat
  u : Nat
  w : Nat
  id : Nat
  entry : Word
  deriving DecidableEq, Repr

/-- A walk (R226, R234 to R237): the ray's eight values and word, the header, the stack with its top
first, the leaf run under way (kind, next primitive, end), what REPLAY has still to test, what has
been found and logged, the nodes and primitives done, and the candidate handed to the thread. -/
structure Walk where
  f64 : Bool
  log : Bool
  area : Bool
  ray : List Nat
  hdr : List Byte
  stack : List (Nat × Nat)
  leaf : Option (Nat × Nat × Nat)
  replay : List Word
  best : Option BestHit
  why : BitVec 4
  uskip : Bool
  ovf : Bool
  count : Nat
  nodesDone : List Nat
  primsDone : List Nat
  cand : Nat
  /-- Log entries that this instruction has still to write. -/
  pending : List (Nat × Word)
  /-- Records read for the node or primitive that is under way, by address (R229). -/
  reading : List (Nat × List Byte)
  /-- Why the walk has failed, while its log is still to be written. -/
  failed : Option Nat
  deriving DecidableEq, Repr

/-- What an outstanding operation will do. -/
inductive OpKind where
  /-- LD, LDS, LDC, LDP: register writes that land at LOAD_RETURN (R86). -/
  | load (writes : List (Nat × VReg))
  /-- STP and KSPILL, performed at PRIVATE_STORE_PERFORMED (R86, R92, R261). -/
  | priv (addr : Nat) (data : List Byte)
  /-- A division or square root of the slot's divider (R65, R158). -/
  | divide (writes : List (Nat × VReg)) (flags : BitVec 5)
  /-- ATOM, CAS, and ATOMD outside deterministic kernels (R278, R279). -/
  | atomic (ty : AtomTy) (kind : AtomKind) (d : Opd) (addr : DWord) (phys key : Nat)
      (acq : Bool)
  /-- A row operation with its operands as read at issue (R175). -/
  | row (i : Instr) (vals : List VReg) (gen : Word)
  /-- A traversal operation (R228): the addresses in a and c, the span it reads, and the header or
  record read at issue (empty when its line is uncorrectable). -/
  | traverse (i : Instr) (a c : DWord) (span : List Word) (bytes : List Byte)
  /-- A closure operation (R255, R259): the k registers and the span it reads, as at issue. -/
  | closure (i : Instr) (ks : List KReg) (span : List Word)
  /-- A copy or publication (R197, R202). -/
  | copy (c : CopyReq)
  /-- An accepted MLDS: the course id of the slot, the bytes read at acceptance (R205). -/
  | mlds (slot : Nat) (roleB : Bool) (fmt : Tag) (elems : Memory) (scales : Memory)
      (src : CopySide)
  /-- A DFLUSH whose drain has not registered (R280): entries placed before this number. -/
  | dflush (before : Nat)
  /-- TSORT (key column, descending) or TCOMP (`none`) of a bin (R295). -/
  | binSort (bin : Nat) (key : Option (Nat × Bool))
  deriving DecidableEq, Repr

/-- An outstanding operation: who started it, where, its d field (R300), its issue cycle, the cycle
before which it does not complete, and the fault entry it is stopped on. -/
structure Op where
  th : ThreadId
  pc : Word
  field : BitVec 8
  issued : Nat
  due : Nat
  stop : Option Ticket
  /-- `%fctl` of the thread at issue (R17). -/
  fctl : BitVec 10
  /-- Capture was armed at issue (R300). -/
  armed : Bool := true
  /-- The core and issue slot of the gang that issued it (R278). -/
  gang : Nat × Nat := (0, 0)
  /-- The progress of a traversal that a fault has stopped (R228, R229). -/
  walk : Option Walk := none
  /-- What a closure operation has read of its tables, in order, and how much of it has been used again
  since it was resumed (R259, R260). -/
  reads : List (List Byte) := []
  readAt : Nat := 0
  kind : OpKind
  deriving DecidableEq, Repr

/-! ## Launches and queues (R95 to R104) -/

/-- A kernel descriptor's fields (R24). -/
structure KDesc where
  textLen : Nat
  nameOff : Nat
  privateBytes : Nat
  kspill : Nat
  spQ : Nat
  rfQ : Nat
  thatchTiles : Nat
  bins : Nat
  scratch : Nat
  courses : Nat
  tileRows : Nat
  tiles : Nat
  threads : Nat
  prio : Nat
  regs : Nat
  fctlInit : Nat
  trapvec : Word
  codeBase : DWord
  entryPc : Word
  twinN : Nat
  twin : Nat
  determ : Bool
  version : Nat
  magic : Nat
  /-- The first field from the top that R24 wants zero and that is not, and its value. -/
  reserved : Option (String × Nat)
  deriving DecidableEq, Repr

/-- An entry of a partition's launch table (R102, R116). -/
structure Launch where
  part : Nat
  queue : Nat
  index : Nat
  ctx : Nat
  packet : BitVec 512
  kd : KDesc
  /-- Memory as fetch sees it: as it stood when the packet was accepted (R31), with the keys of
  its units. -/
  code : Memory
  codeKeys : Table Nat (Nat × BitVec 512)
  /-- Next course to dispatch. -/
  next : Nat
  /-- Rolled-back courses to dispatch first, with the cluster to avoid (R336). -/
  redo : List (Nat × Nat)
  retired : Nat
  turn : Nat
  /-- Rollbacks of each course in this launch (R337). -/
  rollbacks : Table Nat Nat
  /-- Picojoules of work of each course to redo after a hardware error (R322). -/
  redoPj : Table Nat Nat
  deriving DecidableEq, Repr

/-- The head packet as read, with its descriptor and its dependences' state (R99, R103). -/
structure Head where
  packet : BitVec 512
  kd : Option KDesc
  dep0 : Bool
  dep1 : Bool
  deriving DecidableEq, Repr

/-- A queue: the latched entry and its state (R95 to R101). -/
structure Queue where
  clusterMask : BitVec 192
  statusAddr : DWord
  ringBase : DWord
  ctx : Nat
  log2 : Nat
  prio : Nat
  dev : Bool
  enabled : Bool
  disabling : Bool
  code : BitVec 8
  write : Nat
  rd : Nat
  /-- The `%gts` from which its age counts. -/
  since : Nat
  overdue : Bool
  active : Bool
  waiting : Bool
  head : Option Head
  deriving DecidableEq, Repr

/-! ## Cores, clusters, dies -/

/-- A run of an issue slot (R62, R118, R137). -/
structure Run where
  gang : List ThreadId
  count : Nat
  twin : Bool
  /-- The instruction issues once more, in the slot's next turn (R137). -/
  second : Bool
  /-- A mismatch has been seen at this instruction (R138). -/
  mismatched : Bool
  gathered : Bool
  /-- Its first threads, which have issued the instruction that the others wait for (R120, R199). -/
  done : List ThreadId := []
  deriving DecidableEq, Repr

/-- An issue slot (R118): its run, the runs it has started (R137), and the cycle at which its
divider is free (R65). -/
structure IssueSlot where
  run : Option Run
  started : Nat
  divFree : Nat
  deriving DecidableEq, Repr

/-- How a cache policy marks a line for replacement (R89). -/
inductive LineMark where
  | normal
  /-- First for eviction. -/
  | first
  | retained
  deriving DecidableEq, Repr

/-- A cache line with its key slot and fill timestamp (R184, R191, R269). -/
structure CacheLine where
  line : Nat
  key : Nat
  data : Memory
  fill : Nat
  mark : LineMark := .normal
  deriving DecidableEq, Repr

/-- An entry of a core's ATOMD buffer (R279). -/
structure AtomdEntry where
  seq : Nat
  th : ThreadId
  pc : Word
  addr : DWord
  ty : AtomTy
  fn : AtomFn
  operand : DWord
  /-- The drain that has taken it (R280). -/
  taken : Option Nat
  stop : Option Ticket
  deriving DecidableEq, Repr

/-- A cached translation (R187, R188): the virtual page, its size, and what it gives. -/
structure TlbEntry where
  ctx : Nat
  page : Nat
  size : Nat
  inter : Nat
  phys : Nat
  key : Nat
  /-- Permissions of stage 1 and of stage 2. -/
  r : Bool
  w : Bool
  x : Bool
  r2 : Bool
  w2 : Bool
  x2 : Bool
  shadow : Bool
  front : Bool
  deriving DecidableEq, Repr

/-- A core (R109, R112, R118). -/
structure Core where
  rf : Nat
  sp : Nat
  /-- Marked as re-splitting for this launch's kernel (R110). -/
  resplit : Option Nat
  mirror : Bool
  slots : Vector IssueSlot 4
  picks : Nat
  atomd : List AtomdEntry
  l1 : List CacheLine
  /-- Its 64 cached translations, newest first (R188). -/
  tlb : List TlbEntry
  deriving DecidableEq, Repr

/-- An operand slot of an engine (R203). -/
structure EngineSlot where
  owner : Option (CourseId × Nat)
  elems : Memory
  scales : Memory
  tag : Tag
  roleB : Bool
  summary : BitVec 128
  deriving DecidableEq, Repr

/-- An accumulator bank: the words that are not +0, by 128 × row + column, and the flags nv, of,
uf, nx (R203). -/
structure Bank where
  owner : Option (CourseId × Nat)
  acc : Table Nat Word
  flags : BitVec 4
  /-- The cycle of the latest write to it (R208). -/
  wrote : Option Nat := none
  deriving DecidableEq, Repr

/-- What an engine entry does (R206, R213, R214). -/
inductive EntryKind where
  | pass (block : BitVec 512) (bar : Option (Fin 16))
  | macc (tile : Fin 8) (bank first rows : Nat) (clr : Bool)
  | mzero (mask : BitVec 4)
  deriving DecidableEq, Repr

/-- A reservation (R207, R208); `write` is the write cycle once it is granted. -/
structure EngineEntry where
  id : Nat
  th : ThreadId
  pc : Word
  field : BitVec 8
  fctl : BitVec 10
  /-- Capture was armed at issue (R300). -/
  armed : Bool := true
  kind : EntryKind
  prio : BitVec 3
  stamp : Nat
  slot : Nat
  passedOver : Nat
  write : Option Nat
  /-- MLDS operations of the course that were issued before it. -/
  after : List Nat
  deriving DecidableEq, Repr

/-- A register lease of a cluster (R113). -/
structure Lease where
  lender : Nat
  co : CourseId
  bytes : Nat
  /-- The lender's rows. -/
  rows : List (Nat × Nat)
  deriving DecidableEq, Repr

/-- In-field test (R340). -/
inductive TestState where
  /-- Its courses are still to be moved; deferral ends at this `%gts`. -/
  | moving (deadline : Nat)
  | testing (done : Nat)
  deriving DecidableEq, Repr

/-- A cluster and its matrix engine (R105, R203, R208, R339, R340). -/
structure Cluster where
  inService : Bool
  fused : Option (Fin 4)
  test : Option TestState
  lease : Option Lease
  slots : Vector EngineSlot 32
  banks : Vector Bank 4
  entries : List EngineEntry
  /-- The first cycles at which the next entry, and the next pass, may be granted (R208, R212). -/
  grantFrom : Nat
  passFrom : Nat
  /-- Its 2,048 cached translations (R188). -/
  tlb : List TlbEntry
  deriving DecidableEq, Repr

/-- An object of the Purlin table (R286). -/
inductive PurlinObj where
  | line (ctx line : Nat)
  | barrier (co : CourseId) (bar : Fin 16) (phase : BitVec 8)
  | crew (co : CourseId) (crew : Fin 64) (pc : Word)
  | engine (cluster : Nat) (banks : Bool)
  | syscall (th : ThreadId)
  | faultQueue (part : Nat)
  deriving DecidableEq, Repr

/-- A Purlin entry: holders in the order of registration, the waiters, and the `%gts` from which it
has had no waiter (R286). -/
structure PurlinEntry where
  obj : PurlinObj
  holders : List ThreadId
  waiters : List ThreadId
  idleFrom : Nat
  deriving DecidableEq, Repr

/-- What a die holds besides its clusters (R184, R188, R283, R286). -/
structure Die where
  rdc : List CacheLine
  /-- Lines that the L2 holds, whose values are those of home, with their marks (R89, R184). -/
  l2 : List (Nat × LineMark)
  /-- Its 32,768 cached translations (R188). -/
  tlb : List TlbEntry
  watches : List ThreadId
  purlin : List PurlinEntry
  /-- Line objects whose entries were freed by age, and whose next wait finds no holders (R286). -/
  expired : List PurlinObj
  deriving DecidableEq, Repr

/-! ## Partitions and contexts -/

/-- A ring that a control block describes (R189, R290, R305), with the `%gts` of its newest entries and
the sources of the entries of that `%gts` (R341). -/
structure Ring where
  base : DWord
  log2 : Nat
  tail : Nat
  head : Nat
  stamp : Nat
  srcs : List Nat
  deriving DecidableEq, Repr

/-- A collective group (R349). -/
structure Group where
  members : List Nat
  rank : Nat
  listAddr : DWord
  deriving DecidableEq, Repr

/-- A migration under way (R328 to R330). -/
structure Migration where
  outgoing : Bool
  path : Nat
  peer : DWord
  peerPart : Nat
  session : Nat
  dirtyMax : Nat
  /-- Pages still absent at the destination. -/
  absent : List Nat
  /-- At the source: the contexts that migrate. -/
  ctxs : List Nat
  deriving DecidableEq, Repr

/-- A snapshot (R327): pages still protected, pages in storage, the dirty bitmap. -/
structure Snapshot where
  guarded : List Nat
  stored : Table Nat (List Byte)
  dirty : List Nat
  deriving DecidableEq, Repr

/-- A partition (R96, R189, R290, R305, R317, R319, R325 to R330, R349). -/
structure Partition where
  slices : BitVec 48
  port : Nat
  nsid : Word
  alloc : Nat
  weight : Nat
  /-- What op 8 sets from the next interval (R326). -/
  nextAlloc : Nat
  nextWeight : Nat
  imageLen : Nat
  measurement : List Byte
  /-- Physical clusters in partition order and logical cores (R106). -/
  clusters : List Nat
  ltp : List Nat
  queueTable : DWord
  resplitTime : Nat
  faultQ : Ring
  deadlockQ : Ring
  ovfTrap : Bool
  callQ : Ring
  eventQ : Ring
  lost : Nat
  purlinSel : Nat
  grace : Nat
  kill : Nat
  tokens : Nat
  debt : Nat
  drawn : Nat
  /-- Picojoules spent below the next whole token. -/
  spent : Nat
  throttled : Bool
  hungry : Bool
  snapshot : Option Snapshot
  /-- The complete snapshot before this one, kept until this one is complete. -/
  lastSnapshot : Option Snapshot
  migration : Option Migration
  groups : Table Nat Group
  collStat : BitVec 8
  /-- Re-split timers: the launch that waits and the `%gts` at which its timer ends (R110). -/
  resplits : Table Nat Nat
  deriving DecidableEq, Repr

/-- The rungs of PREEMPT_STAT (R305). -/
inductive Rung where
  | running
  | soft
  | halting
  | saved
  | reset
  deriving DecidableEq, Repr

/-- What a context image holds of a course beside what stays in its record: its threads and
operations, its core's ATOMD entries, and its engine resources by course id (R18, R312). -/
structure SavedCourse where
  id : CourseId
  threads : Table ThreadId Thread
  ops : Table Nat Op
  atomd : List AtomdEntry
  slots : Table Nat EngineSlot
  banks : Table Nat Bank
  entries : List EngineEntry
  deriving DecidableEq, Repr

/-- A fault-queue answer that applies at restore (R304): reset of the context, or rollback of a course
with the PC and thread of the entry. -/
structure Answer where
  reset : Bool
  co : CourseId
  pc : Word
  cthr : Nat
  deriving DecidableEq, Repr

/-- A saved context: what restore reads from its image (R312), the answers that apply at restore, and
for a context that has been freed the records and launches that its image holds. -/
structure Saved where
  courses : List SavedCourse
  answers : List Answer
  records : Table CourseId Course
  launches : Table Nat Launch
  deriving DecidableEq, Repr

/-- A context (R319, R310 to R313, R321, R337). -/
structure Context where
  part : Nat
  keySlot : Nat
  twinOk : BitVec 3
  quota : DWord
  imageAddr : DWord
  s2Root : DWord
  s1Root : DWord
  ceiling : BitVec 3
  rung : Rung
  /-- The `%gts` of the soft request and of the start of the hard halt. -/
  softAt : Option Nat
  haltAt : Option Nat
  step : Bool
  brk : Bool
  saved : Option Saved
  /-- The halt belongs to a move: the context is restored at once, off these clusters (R339, R340). -/
  moveOff : Option (List Nat)
  /-- A settlement has found the quota reached (R324). -/
  quotaHit : Bool
  joule : Nat
  /-- Picojoules charged and not yet settled, with the remainder below a nanojoule. -/
  pj : Nat
  purlinOverflow : Nat
  purlinLost : Nat
  repairs : Nat
  rollbacks : Nat
  /-- Images that `fjld` placed for the context: base and length (R94). -/
  images : List (Nat × Nat)
  deriving DecidableEq, Repr

/-! ## The part -/

/-- A key slot of the key store (R320). -/
structure KeySlot where
  key : BitVec 512
  revoked : Bool
  deriving DecidableEq, Repr

/-- The hypervisor's management block (R315). -/
structure Management where
  arg : DWord
  addr : DWord
  code : BitVec 8
  busy : Bool
  pkgTokens : Nat
  calOk : Bool
  joule : Nat
  pj : Nat
  migState : BitVec 8
  migReason : BitVec 8
  migCtx : Nat
  faultQ : Ring
  deriving DecidableEq, Repr

/-- A Triater port (R346): whether it is in service, the tries of a flit that have failed in a row, and for
each virtual channel the flit times until a pause holds (`none`: not paused). -/
structure Port where
  inService : Bool
  retries : Nat
  paused : Vector (Option Nat) 4
  deriving DecidableEq, Repr

/-- A collective under way (R347, R348). -/
structure Collective where
  id : Nat
  part : Nat
  ctx : Nat
  desc : BitVec 512
  members : List Nat
  rank : Nat
  /-- This device's contribution, read when the operation starts (R281). -/
  mine : List Byte
  /-- Chunks that every member has acknowledged. -/
  acked : Nat
  deriving DecidableEq, Repr

/-- A suspended traversal (R234, R235): the context and physical address of its work area, the bytes
it left there, and the walk. -/
structure Suspension where
  ctx : Nat
  phys : Nat
  image : List Byte
  walk : Walk
  deriving DecidableEq, Repr

/-- The files that the tools read and write, and what the last invocation left (R30, R32, R94). -/
structure Tools where
  files : Table String (List Byte)
  err : String
  status : Nat
  deriving DecidableEq, Repr

/-- The gang whose instruction the next step fetches and runs (R118, R129). -/
structure Issue where
  core : Nat
  slot : Nat
  gang : List ThreadId
  gathered : Bool
  deriving DecidableEq, Repr

/-- Barrier and crew order (R270): the commits that a thread's next acquire comes after, those that the
arrivals at a barrier's current phase bring, and those that its completed phases brought. Commits
that have registered are of no more account. -/
structure Order where
  known : List (ThreadId × Nat)
  arrived : List ((CourseId × Fin 16) × Nat)
  passed : List ((CourseId × Fin 16) × Nat)
  deriving DecidableEq, Repr

/-- A write of global memory during launches: its number, key slot if a key covers it, address and
bytes. LDC may still return the values that it replaced (R91). -/
structure PastWrite where
  no : Nat
  key : Option Nat
  addr : Nat
  bytes : List Byte
  deriving DecidableEq, Repr

/-- The machine. The last fields are the model's own (log entries 1 and 5). -/
structure State where
  threads : Table ThreadId Thread
  courses : Table CourseId Course
  launches : Table Nat Launch
  queues : Table (Nat × Nat) Queue
  parts : Table Nat Partition
  ctxs : Table Nat Context
  ops : Table Nat Op
  cores : Table Nat Core
  clusters : Table Nat Cluster
  dies : Table Nat Die
  mem : Memory
  /-- The key slot and key that last wrote each 64-byte unit (R191). -/
  units : Table Nat (Nat × BitVec 512)
  /-- Physical lines that are uncorrectable (R198, R306). -/
  poisoned : List Nat
  caps : Word
  cycle : Nat
  mgmt : Management
  keys : Table Nat KeySlot
  transports : Nat
  ports : Vector Port 18
  collectives : Table Nat Collective
  suspended : List Suspension
  started : Bool
  startFailed : Option Nat
  tools : Tools
  /-- Events that arrive next, in order. -/
  inputs : List Instr
  issue : Option Issue
  /-- The core whose turn comes next in this cycle. -/
  turn : Nat
  free : Nat
  nextId : Nat
  /-- Images of contexts that have been freed, by context number (R312, R319). -/
  freed : Table Nat Saved
  /-- The last start was a warm one (R350). -/
  warm : Bool
  /-- `%gts` of the last settlement (R321). -/
  settled : Nat
  order : Order
  /-- Spare clusters, by 52 × die + cluster: the harvest map of the part (R1, R2, R105). -/
  spares : List Nat
  past : List PastWrite
  /-- The bytes that the last read of the host or of another device returned (R343, R346). -/
  answer : List Byte
  deriving DecidableEq, Repr

/-! ## How a step can stop -/

/-- Reasons for which the machine stops. -/
inductive Fault where
  /-- Raised by a physical access outside every range of R183, R344: the spec says that no such
  address exists. Safe: the model stops where nothing is defined. -/
  | noSuchAddress
  deriving DecidableEq, Repr

/-- Reasons for which the model has no next state. -/
inductive Refusal where
  /-- Raised by an arm of `exec` whose instruction has no meaning yet. Safe. -/
  | notModelled (mnemonic : String)
  deriving DecidableEq, Repr

/-! ## Reset -/

def Ring.reset : Ring := { base := 0, log2 := 0, tail := 0, head := 0, stamp := 0, srcs := [] }

def IssueSlot.reset : IssueSlot := { run := none, started := 0, divFree := 0 }

/-- A core at the split of R109, holding nothing. -/
def Core.reset : Core :=
  { rf := 4, sp := 6, resplit := none, mirror := false,
    slots := Vector.replicate 4 IssueSlot.reset, picks := 0, atomd := [], l1 := [], tlb := [] }

/-- An unclaimed slot; also what a fresh claim finds (R203). -/
def EngineSlot.reset : EngineSlot :=
  { owner := none, elems := [], scales := [], tag := 0, roleB := false, summary := 0 }

def Bank.reset : Bank := { owner := none, acc := [], flags := 0 }

/-- A cluster in service with an idle engine (R105, R203). -/
def Cluster.reset : Cluster :=
  { inService := true, fused := none, test := none, lease := none,
    slots := Vector.replicate 32 EngineSlot.reset, banks := Vector.replicate 4 Bank.reset,
    entries := [], grantFrom := 0, passFrom := 0, tlb := [] }

def Die.reset : Die := { rdc := [], l2 := [], tlb := [], watches := [], purlin := [], expired := [] }

/-- The management block at reset (R315). -/
def Management.reset : Management :=
  { arg := 0, addr := 0, code := 0, busy := false, pkgTokens := 3000, calOk := false, joule := 0,
    pj := 0, migState := 0, migReason := 0, migCtx := 0, faultQ := Ring.reset }

def Port.reset : Port := { inService := true, retries := 0, paused := Vector.replicate 4 none }

def Tools.reset : Tools := { files := [], err := "", status := 0 }

/-- The machine right after reset: no partition, context or key, nothing resident (R350). Log
entries 2 to 4 name the values that the spec does not give. -/
def State.reset : State :=
  { threads := [], courses := [], launches := [], queues := [], parts := [], ctxs := [], ops := [],
    cores := [], clusters := [], dies := [], mem := [], units := [], poisoned := [],
    caps := 0x000FFFF7, cycle := 0, mgmt := Management.reset, keys := [], transports := 0,
    ports := Vector.replicate 18 Port.reset, collectives := [], suspended := [], started := false,
    startFailed := none, tools := Tools.reset, inputs := [], issue := none, turn := 0, free := 0,
    nextId := 0, freed := [], warm := false, settled := 0,
    order := ⟨[], [], []⟩,
    spares := [48, 49, 50, 51, 100, 101, 102, 103, 152, 153, 154, 155, 204, 205, 206, 207],
    past := [], answer := [] }

end Sys2Proof.Machine
end

