-- ==== Sys2Proof/Machine/Bits.lean ====
section
/-! DEFINITION. Bits.lean: bit fields, byte order, tables and memory as data: what every other file
of the machine reads and writes with. -/

namespace Sys2Proof.Machine

/-! ## Tables -/

/-- The value at a key. -/
def tget {κ α : Type} [DecidableEq κ] : Table κ α → κ → Option α
  | [], _ => none
  | (k', v) :: r, k => if k = k' then some v else tget r k

/-- Replace the value at a key, or add it at the end. -/
def tput {κ α : Type} [DecidableEq κ] : Table κ α → κ → α → Table κ α
  | [], k, v => [(k, v)]
  | (k', v') :: r, k, v => if k = k' then (k, v) :: r else (k', v') :: tput r k v

/-- Remove a key. -/
def tdel {κ α : Type} [DecidableEq κ] : Table κ α → κ → Table κ α
  | [], _ => []
  | (k', v) :: r, k => if k = k' then tdel r k else (k', v) :: tdel r k

/-! ## Memory (log entry 2) -/

/-- What a byte that nothing has written reads as (log entry 2, DESIGN CHOICE). -/
def unlisted : Byte := 0

/-- The byte at an address. -/
def memRead : Memory → Nat → Byte
  | [], _ => unlisted
  | (k, b) :: r, a => if a = k then b else memRead r a

/-- Write one byte and keep the canonical form. -/
def memWrite : Memory → Nat → Byte → Memory
  | [], a, b => if b = unlisted then [] else [(a, b)]
  | (k, c) :: r, a, b =>
    if a < k then (if b = unlisted then (k, c) :: r else (a, b) :: (k, c) :: r)
    else if a = k then (if b = unlisted then r else (a, b) :: r)
    else (k, c) :: memWrite r a b

/-- Every address of the list is above `lo`, addresses rise strictly, and no entry reads as an
unlisted address does. -/
def memAbove : Option Nat → Memory → Bool
  | _, [] => true
  | lo, (k, b) :: r =>
    (match lo with | none => true | some l => decide (l < k)) && b != unlisted &&
      memAbove (some k) r

/-- The canonical form. -/
def memWf (m : Memory) : Bool := memAbove none m

/-- `n` bytes from an address upward. -/
def memReadN (m : Memory) (a : Nat) : Nat → List Byte
  | 0 => []
  | n + 1 => memRead m a :: memReadN m (a + 1) n

/-- Bytes written from an address upward. -/
def memWriteN (m : Memory) (a : Nat) : List Byte → Memory
  | [] => m
  | b :: r => memWriteN (memWrite m a b) (a + 1) r

/-! ## Bytes and words, little-endian (R20, R22, R24) -/

/-- The number that bytes hold, the first byte lowest. -/
def leNat : List Byte → Nat
  | [] => 0
  | b :: r => b.toNat + 256 * leNat r

/-- The low `k` bytes of a number, the lowest first. -/
def toLE (n : Nat) : Nat → List Byte
  | 0 => []
  | k + 1 => BitVec.ofNat 8 n :: toLE (n / 256) k

/-- Bits [hi:lo] of a number. -/
def bits (n hi lo : Nat) : Nat := n / 2 ^ lo % 2 ^ (hi + 1 - lo)

def nbit (n i : Nat) : Bool := n / 2 ^ i % 2 == 1

def b2n (b : Bool) : Nat := if b then 1 else 0

/-- The signed value of the low `w` bits. -/
def signedOf (w n : Nat) : Int :=
  let m := n % 2 ^ w
  if 2 * m ≥ 2 ^ w then (m : Int) - (2 ^ w : Nat) else m

/-- The low `w` bits of an integer. -/
def lowBits (w : Nat) (x : Int) : Nat := (x % (2 ^ w : Nat)).toNat

/-- Signed 12-bit offset extended to 64 bits (R85). -/
def sext64 (o : BitVec 12) : DWord := o.signExtend 64

/-- Signed 12-bit offset extended to 32 bits (R85). -/
def sext32 (o : BitVec 12) : Word := o.signExtend 32

def ceilDiv (a b : Nat) : Nat := (a + b - 1) / b

def roundUp (a b : Nat) : Nat := ceilDiv a b * b

/-- Replace element `i` of a list. -/
def setAt {α : Type} : List α → Nat → α → List α
  | [], _, _ => []
  | _ :: r, 0, v => v :: r
  | x :: r, i + 1, v => x :: setAt r i v

/-- Add to the end what is not there yet. -/
def addNew {α : Type} [DecidableEq α] (l : List α) (x : α) : List α :=
  if x ∈ l then l else l ++ [x]

/-- Insertion by a strict order, after equals. -/
def insertBy {α : Type} (lt : α → α → Bool) (x : α) : List α → List α
  | [] => [x]
  | y :: r => if lt x y then x :: y :: r else y :: insertBy lt x r

/-- Insertion by a strict order, before equals. -/
def placeBy {α : Type} (lt : α → α → Bool) (x : α) : List α → List α
  | [] => [x]
  | y :: t => if lt y x then y :: placeBy lt x t else x :: y :: t

/-- A stable sort by a strict order. -/
def sortBy {α : Type} (lt : α → α → Bool) : List α → List α
  | [] => []
  | x :: r => placeBy lt x (sortBy lt r)

/-- The first element that a strict order puts before every other. -/
def leastBy {α : Type} (lt : α → α → Bool) : List α → Option α
  | [] => none
  | x :: r => some (r.foldl (fun m y => if lt y m then y else m) x)

/-- Sum of a list of numbers. -/
def sumNat (l : List Nat) : Nat := l.foldl (· + ·) 0

end Sys2Proof.Machine
end

