-- ==== Sys2Proof/Machine/Crypto.lean ====
section
/-! DEFINITION. Crypto.lean: the standard functions that R191, R318, R351 and R352 name: AES-256
with XTS and GCM, SHA-512, HKDF, X25519 and Ed25519. Their definitions are those of the public
standards (log entry 7). -/

namespace Sys2Proof.Machine

/-! ## AES-256 (R191, R352) -/

/-- Multiply by x in the field of AES. -/
def xtime (a : Nat) : Nat :=
  let b := 2 * a
  if b ≥ 256 then (b % 256) ^^^ 0x1B else b

/-- Product in the field of AES. -/
def gmul (a b : Nat) : Nat :=
  ((List.range 8).foldl (fun (acc : Nat × Nat) i =>
    (if nbit b i then acc.1 ^^^ acc.2 else acc.1, xtime acc.2)) (0, a)).1

/-- a ^ 254: the inverse, and 0 for 0. -/
def ginv (a : Nat) : Nat :=
  let a2 := gmul a a
  let a4 := gmul a2 a2
  let a8 := gmul a4 a4
  let a16 := gmul a8 a8
  let a32 := gmul a16 a16
  let a64 := gmul a32 a32
  let a128 := gmul a64 a64
  gmul a128 (gmul a64 (gmul a32 (gmul a16 (gmul a8 (gmul a4 a2)))))

def rotl8 (a n : Nat) : Nat := (a * 2 ^ n) % 256 + a / 2 ^ (8 - n)

/-- The S-box. -/
def subByte (a : Nat) : Nat :=
  let b := ginv a
  b ^^^ rotl8 b 1 ^^^ rotl8 b 2 ^^^ rotl8 b 3 ^^^ rotl8 b 4 ^^^ 0x63

/-- The inverse S-box. -/
def invSubByte (a : Nat) : Nat := ginv (rotl8 a 1 ^^^ rotl8 a 3 ^^^ rotl8 a 6 ^^^ 0x05)

def xorList (a b : List Nat) : List Nat := List.zipWith (· ^^^ ·) a b

/-- Round keys of a 32-byte key: 15 keys of 16 bytes. -/
def expandKey (key : List Nat) : List (List Nat) :=
  let words := (List.range 52).foldl (fun (acc : List (List Nat) × Nat) n =>
    let i := n + 8
    let w := acc.1
    let prev := w.getD (i - 1) []
    let t :=
      if i % 8 == 0 then
        let r := (prev.drop 1 ++ prev.take 1).map subByte
        xorList r [acc.2, 0, 0, 0]
      else if i % 8 == 4 then prev.map subByte
      else prev
    (w ++ [xorList (w.getD (i - 8) []) t], if i % 8 == 0 then xtime acc.2 else acc.2))
    ((List.range 8).map fun i => (key.drop (4 * i)).take 4, 1)
  (List.range 15).map fun r => ((words.1.drop (4 * r)).take 4).flatten

def shiftRows (s : List Nat) : List Nat :=
  (List.range 16).map fun i => s.getD ((i + 4 * (i % 4)) % 16) 0

def invShiftRows (s : List Nat) : List Nat :=
  (List.range 16).map fun i => s.getD ((i + 12 * (i % 4)) % 16) 0

/-- Each column times a circulant row of coefficients. -/
def mixCols (k : List Nat) (s : List Nat) : List Nat :=
  (List.range 16).map fun i =>
    (List.range 4).foldl (fun acc j =>
      acc ^^^ gmul (k.getD ((j + 4 - i % 4) % 4) 0) (s.getD (4 * (i / 4) + j) 0)) 0

/-- AES-256 of one 16-byte block. -/
def aesEncrypt (key block : List Nat) : List Nat :=
  let ks := expandKey key
  let s := xorList block (ks.getD 0 [])
  let s := (List.range 13).foldl (fun s r =>
    xorList (mixCols [2, 3, 1, 1] (shiftRows (s.map subByte))) (ks.getD (r + 1) [])) s
  xorList (shiftRows (s.map subByte)) (ks.getD 14 [])

/-- The inverse of `aesEncrypt`. -/
def aesDecrypt (key block : List Nat) : List Nat :=
  let ks := expandKey key
  let s := xorList block (ks.getD 14 [])
  let s := (List.range 13).foldl (fun s r =>
    mixCols [14, 11, 13, 9] (xorList ((invShiftRows s).map invSubByte) (ks.getD (13 - r) []))) s
  xorList ((invShiftRows s).map invSubByte) (ks.getD 0 [])

def toNats (bs : List Byte) : List Nat := bs.map BitVec.toNat

def toBytes (ns : List Nat) : List Byte := ns.map (BitVec.ofNat 8)

/-- The two 32-byte keys of a key pair; byte i is bits [8i+7:8i]. -/
def keyHalves (key : BitVec 512) : List Nat × List Nat :=
  let bs := toNats (toLE key.toNat 64)
  (bs.take 32, bs.drop 32)

/-- The tweak of block `j` of a unit: E(unit number) times x^j. -/
def xtsTweaks (k2 : List Nat) (unit : Nat) : List (List Nat) :=
  let t := leNat (toBytes (aesEncrypt k2 (toNats (toLE unit 16))))
  let dbl (n : Nat) : Nat := let m := 2 * n; if m ≥ 2 ^ 128 then (m % 2 ^ 128) ^^^ 0x87 else m
  [t, dbl t, dbl (dbl t), dbl (dbl (dbl t))].map fun n => toNats (toLE n 16)

/-- AES-256-XTS of one 64-byte unit (R191). -/
def xtsEncrypt (key : BitVec 512) (unit : Nat) (plain : List Byte) : List Byte :=
  let (k1, k2) := keyHalves key
  toBytes (((xtsTweaks k2 unit).zipIdx.map fun (t, j) =>
    xorList t (aesEncrypt k1 (xorList t (toNats ((plain.drop (16 * j)).take 16))))).flatten)

/-- The inverse of `xtsEncrypt`. -/
def xtsDecrypt (key : BitVec 512) (unit : Nat) (cipher : List Byte) : List Byte :=
  let (k1, k2) := keyHalves key
  toBytes (((xtsTweaks k2 unit).zipIdx.map fun (t, j) =>
    xorList t (aesDecrypt k1 (xorList t (toNats ((cipher.drop (16 * j)).take 16))))).flatten)

/-! ## GCM (R352) -/

/-- Bytes as a number, the first byte highest. -/
def beNat (bs : List Byte) : Nat := bs.foldl (fun n b => 256 * n + b.toNat) 0

def toBE (n k : Nat) : List Byte := (toLE n k).reverse

/-- Product in the field of GCM, bit 127 the coefficient of x^0. -/
def ghashMul (x y : Nat) : Nat :=
  ((List.range 128).foldl (fun (acc : Nat × Nat) i =>
    let (z, v) := acc
    let z := if nbit x (127 - i) then z ^^^ v else z
    (z, if v % 2 == 1 then (v / 2) ^^^ (0xE1 * 2 ^ 120) else v / 2)) (0, y)).1

/-- Split into blocks of 16 bytes, the last padded with zeros. -/
def blocks16 (bs : List Byte) : List (List Byte) :=
  (List.range (ceilDiv bs.length 16)).map fun i =>
    let b := (bs.drop (16 * i)).take 16
    b ++ List.replicate (16 - b.length) 0

/-- AES-256-GCM with a 12-byte nonce: the ciphertext (or plaintext) of the data and the tag over
additional data and ciphertext. -/
def gcmStream (key nonce data : List Byte) : List Byte :=
  toBytes (((blocks16 data).zipIdx.map fun (b, i) =>
    xorList (aesEncrypt (toNats key) (toNats (nonce ++ toBE (i + 2) 4))) (toNats b)).flatten)
    |>.take data.length

def gcmTag (key nonce aad cipher : List Byte) : List Byte :=
  let h := beNat (toBytes (aesEncrypt (toNats key) (List.replicate 16 0)))
  let lens := toBE (8 * aad.length) 8 ++ toBE (8 * cipher.length) 8
  let g := (blocks16 aad ++ blocks16 cipher ++ [lens]).foldl (fun y b => ghashMul (y ^^^ beNat b) h) 0
  let e := beNat (toBytes (aesEncrypt (toNats key) (toNats (nonce ++ toBE 1 4))))
  toBE (g ^^^ e) 16

/-! ## SHA-512, HMAC and HKDF (R318, R352) -/

/-- The greatest r with r ^ e ≤ n, by bits from 2 ^ b down. -/
def iroot (e n : Nat) : Nat → Nat → Nat
  | 0, r => if (r + 1) ^ e ≤ n then r + 1 else r
  | b + 1, r => iroot e n b (if (r + 2 ^ (b + 1)) ^ e ≤ n then r + 2 ^ (b + 1) else r)

/-- The first 80 primes. -/
def primes80 : List Nat :=
  (List.range 410).filter fun n =>
    decide (2 ≤ n) && (List.range 21).all fun d => decide (d < 2) || n % d != 0 || n == d

def sha512Init : List Nat :=
  (primes80.take 8).map fun p => iroot 2 (p * 2 ^ 128) 70 0 % 2 ^ 64

def sha512K : List Nat :=
  primes80.map fun p => iroot 3 (p * 2 ^ 192) 70 0 % 2 ^ 64

def ror64 (x n : Nat) : Nat := x / 2 ^ n + (x % 2 ^ n) * 2 ^ (64 - n)

def sha512Pad (m : List Byte) : List Byte :=
  let z := (239 - m.length % 128) % 128
  m ++ [0x80] ++ List.replicate z 0 ++ toBE (8 * m.length) 16

/-- One block of SHA-512. -/
def sha512Block (h : List Nat) (block : List Byte) : List Nat :=
  let w0 := (List.range 16).map fun i => beNat ((block.drop (8 * i)).take 8)
  let w := (List.range 64).foldl (fun (w : List Nat) n =>
    let i := n + 16
    let x := w.getD (i - 15) 0
    let y := w.getD (i - 2) 0
    let s0 := ror64 x 1 ^^^ ror64 x 8 ^^^ x / 2 ^ 7
    let s1 := ror64 y 19 ^^^ ror64 y 61 ^^^ y / 2 ^ 6
    w ++ [(w.getD (i - 16) 0 + s0 + w.getD (i - 7) 0 + s1) % 2 ^ 64]) w0
  let r := (w.zip sha512K).foldl (fun (v : List Nat) wk =>
    match v with
    | [a, b, c, d, e, f, g, hh] =>
      let s1 := ror64 e 14 ^^^ ror64 e 18 ^^^ ror64 e 41
      let ch := (e &&& f) ^^^ ((2 ^ 64 - 1 - e) &&& g)
      let t1 := hh + s1 + ch + wk.2 + wk.1
      let s0 := ror64 a 28 ^^^ ror64 a 34 ^^^ ror64 a 39
      let mj := (a &&& b) ^^^ (a &&& c) ^^^ (b &&& c)
      [(t1 + s0 + mj) % 2 ^ 64, a, b, c, (d + t1) % 2 ^ 64, e, f, g]
    | v => v) h
  List.zipWith (fun a b => (a + b) % 2 ^ 64) h r

/-- SHA-512. -/
def sha512 (m : List Byte) : List Byte :=
  let p := sha512Pad m
  ((List.range (p.length / 128)).foldl (fun h i => sha512Block h ((p.drop (128 * i)).take 128))
    sha512Init).flatMap fun x => toBE x 8

def hmac512 (key m : List Byte) : List Byte :=
  let k := if key.length > 128 then sha512 key else key
  let k := k ++ List.replicate (128 - k.length) 0
  sha512 (k.map (· ^^^ 0x5C) ++ sha512 (k.map (· ^^^ 0x36) ++ m))

/-- The first 64 bytes of HKDF-SHA-512 with an empty salt. -/
def hkdf512 (secret info : List Byte) : List Byte :=
  hmac512 (hmac512 (List.replicate 64 0) secret) (info ++ [0x01])

/-! ## Curve25519 (R318, R351, R352) -/

def p25519 : Nat := 2 ^ 255 - 19

def l25519 : Nat := 2 ^ 252 + 27742317777372353535851937790883648493

/-- a ^ e mod m, over the bits of e from the top. -/
def powMod (m a e bitsOf : Nat) : Nat :=
  ((List.range bitsOf).reverse).foldl (fun acc i =>
    let s := acc * acc % m
    if nbit e i then s * a % m else s) 1

def inv25519 (a : Nat) : Nat := powMod p25519 a (p25519 - 2) 255

def subP (a b : Nat) : Nat := (a + p25519 - b % p25519) % p25519

/-- X25519 (RFC 7748). -/
def x25519 (scalar u : List Byte) : List Byte :=
  let k := leNat scalar
  let k := (k % 2 ^ 254) / 8 * 8 + 2 ^ 254
  let x1 := leNat u % 2 ^ 255 % p25519
  let r := ((List.range 255).reverse).foldl (fun (v : Nat × Nat × Nat × Nat) i =>
    let kt := nbit k i
    let (x2, z2, x3, z3) := if kt then (v.2.2.1, v.2.2.2, v.1, v.2.1) else v
    let a := (x2 + z2) % p25519
    let aa := a * a % p25519
    let b := subP x2 z2
    let bb := b * b % p25519
    let e := subP aa bb
    let da := subP x3 z3 * a % p25519
    let cb := (x3 + z3) * b % p25519
    let sx := (da + cb) % p25519
    let dx := subP da cb
    let n := (aa * bb % p25519, e * ((aa + 121665 * e) % p25519) % p25519,
      sx * sx % p25519, x1 * (dx * dx % p25519) % p25519)
    if kt then (n.2.2.1, n.2.2.2, n.1, n.2.1) else n) (1, 0, x1, 1)
  toLE (r.1 * inv25519 r.2.1 % p25519) 32

def x25519Base : List Byte := toLE 9 32

/-- Curve constant of Ed25519. -/
def ed25519D : Nat := subP 0 (121665 * inv25519 121666 % p25519)

/-- Sum of two points in extended coordinates. -/
def edAdd (p q : Nat × Nat × Nat × Nat) : Nat × Nat × Nat × Nat :=
  let (x1, y1, z1, t1) := p
  let (x2, y2, z2, t2) := q
  let a := subP y1 x1 * subP y2 x2 % p25519
  let b := (y1 + x1) * (y2 + x2) % p25519
  let c := 2 * ed25519D * t1 % p25519 * t2 % p25519
  let d := 2 * z1 * z2 % p25519
  let e := subP b a
  let f := subP d c
  let g := (d + c) % p25519
  let h := (b + a) % p25519
  (e * f % p25519, g * h % p25519, f * g % p25519, e * h % p25519)

def edMul (k : Nat) (p : Nat × Nat × Nat × Nat) : Nat × Nat × Nat × Nat :=
  ((List.range 256).reverse).foldl (fun acc i =>
    let s := edAdd acc acc
    if nbit k i then edAdd s p else s) (0, 1, 1, 0)

/-- The x of a y with a given low bit, when there is one. -/
def edRecoverX (y : Nat) (sign : Bool) : Option Nat :=
  let y2 := y * y % p25519
  let x2 := subP y2 1 * inv25519 ((ed25519D * y2 + 1) % p25519) % p25519
  let x := powMod p25519 x2 ((p25519 + 3) / 8) 255
  let x := if x * x % p25519 == x2 then x
    else x * powMod p25519 2 ((p25519 - 1) / 4) 255 % p25519
  if x * x % p25519 != x2 || (x == 0 && sign) then none
  else some (if nbit x 0 == sign then x else p25519 - x)

def edBase : Nat × Nat × Nat × Nat :=
  let y := 4 * inv25519 5 % p25519
  let x := (edRecoverX y false).getD 0
  (x, y, 1, x * y % p25519)

def edEncode (p : Nat × Nat × Nat × Nat) : List Byte :=
  let zi := inv25519 p.2.2.1
  let x := p.1 * zi % p25519
  let y := p.2.1 * zi % p25519
  toLE (y + (x % 2) * 2 ^ 255) 32

def edDecode (bs : List Byte) : Option (Nat × Nat × Nat × Nat) :=
  let n := leNat bs
  let y := n % 2 ^ 255
  if bs.length != 32 || y ≥ p25519 then none
  else (edRecoverX y (nbit n 255)).map fun x => (x, y, 1, x * y % p25519)

def edClamp (h : List Byte) : Nat := (leNat (h.take 32) % 2 ^ 254) / 8 * 8 + 2 ^ 254

def edPublic (secret : List Byte) : List Byte := edEncode (edMul (edClamp (sha512 secret)) edBase)

/-- Ed25519 signature of a message. -/
def edSign (secret m : List Byte) : List Byte :=
  let h := sha512 secret
  let a := edClamp h
  let pub := edEncode (edMul a edBase)
  let r := leNat (sha512 (h.drop 32 ++ m)) % l25519
  let rb := edEncode (edMul r edBase)
  let k := leNat (sha512 (rb ++ pub ++ m)) % l25519
  rb ++ toLE ((r + k * a) % l25519) 32

/-- Ed25519 verification. -/
def edVerify (pub m sig : List Byte) : Bool :=
  let s := leNat (sig.drop 32)
  match edDecode pub, edDecode (sig.take 32) with
  | some a, some r =>
    let k := leNat (sha512 (sig.take 32 ++ pub ++ m)) % l25519
    sig.length == 64 && decide (s < l25519) &&
      edEncode (edMul s edBase) == edEncode (edAdd r (edMul k a))
  | _, _ => false

end Sys2Proof.Machine
end

