-- ==== Sys2Proof/Machine/Ops.lean ====
section
/-! DEFINITION. Ops.lean: named operations over the state: tables, time, cores and clusters,
registers, physical memory, rings and events, and taking a trap and returning from one. -/

namespace Sys2Proof.Machine

/-! ## Time (R1, R15) -/

/-- `%gts`: nanoseconds, by the 2.5 GHz cycle count. -/
def State.gts (s : State) : Nat := 2 * s.cycle / 5

/-! ## Numbers of cores, clusters, slices and dies (R2, R105, R353) -/

/-- Physical core number of a position of a cluster (R105); clusters are numbered 52 × die +
cluster. -/
def coreNumber (cluster pos : Nat) : Nat := 256 * (cluster / 52) + 4 * (cluster % 52) + pos

def coreDie (core : Nat) : Nat := core / 256

def coreCluster (core : Nat) : Nat := 52 * (core / 256) + core % 256 / 4

def corePos (core : Nat) : Nat := core % 4

/-- Whether `%caps` names the compute die (R353). -/
def State.diePresent (s : State) (d : Nat) : Bool := d < 4 && s.caps.getLsbD (4 + d)

/-- The compute dies that are present, ascending. -/
def State.diesPresent (s : State) : List Nat := (List.range 4).filter s.diePresent

/-- A cluster of a present die that is no spare (R1, R2). -/
def State.enabledCluster (s : State) (c : Nat) : Bool :=
  decide (c ∉ s.spares) && s.diePresent (c / 52)

/-- The package slice of an enabled cluster: 12 × die + slice of the die, counted over the die's enabled
clusters in ascending order, four at a time (R2). -/
def State.clusterSlice (s : State) (c : Nat) : Nat :=
  12 * (c / 52) + ((List.range (c % 52)).filter fun k => decide (52 * (c / 52) + k ∉ s.spares)).length / 4

/-- Every cluster of the part, ascending. -/
def allClusters : List Nat := List.range 208

/-! ## Access to the tables -/

def State.thread (s : State) (id : ThreadId) : Option Thread := tget s.threads id

def State.setThread (s : State) (id : ThreadId) (t : Thread) : State :=
  { s with threads := tput s.threads id t }

def State.course (s : State) (id : CourseId) : Option Course := tget s.courses id

def State.setCourse (s : State) (id : CourseId) (c : Course) : State :=
  { s with courses := tput s.courses id c }

def State.launch (s : State) (l : Nat) : Option Launch := tget s.launches l

def State.setLaunch (s : State) (l : Nat) (x : Launch) : State :=
  { s with launches := tput s.launches l x }

def State.queue (s : State) (p q : Nat) : Option Queue := tget s.queues (p, q)

def State.setQueue (s : State) (p q : Nat) (x : Queue) : State :=
  { s with queues := tput s.queues (p, q) x }

def State.part (s : State) (p : Nat) : Option Partition := tget s.parts p

def State.setPart (s : State) (p : Nat) (x : Partition) : State :=
  { s with parts := tput s.parts p x }

def State.ctx (s : State) (c : Nat) : Option Context := tget s.ctxs c

def State.setCtx (s : State) (c : Nat) (x : Context) : State :=
  { s with ctxs := tput s.ctxs c x }

/-- A core, as at reset when nothing has touched it. -/
def State.core (s : State) (n : Nat) : Core := (tget s.cores n).getD Core.reset

/-- Where the courses of a saved context stand: on no core (R312). -/
def noCore : Nat := 1024

def State.setCore (s : State) (n : Nat) (x : Core) : State :=
  if n < noCore then { s with cores := tput s.cores n x } else s

def State.cluster (s : State) (n : Nat) : Cluster := (tget s.clusters n).getD Cluster.reset

def State.setCluster (s : State) (n : Nat) (x : Cluster) : State :=
  if n < 208 then { s with clusters := tput s.clusters n x } else s

def State.die (s : State) (n : Nat) : Die := (tget s.dies n).getD Die.reset

def State.setDie (s : State) (n : Nat) (x : Die) : State :=
  if n < 4 then { s with dies := tput s.dies n x } else s

def State.op (s : State) (n : Nat) : Option Op := tget s.ops n

def State.setOp (s : State) (n : Nat) (x : Op) : State := { s with ops := tput s.ops n x }

def State.delOp (s : State) (n : Nat) : State := { s with ops := tdel s.ops n }

/-- Change a thread that exists. -/
def State.modThread (s : State) (id : ThreadId) (f : Thread → Thread) : State :=
  match s.thread id with
  | some t => s.setThread id (f t)
  | none => s

def State.modCourse (s : State) (id : CourseId) (f : Course → Course) : State :=
  match s.course id with
  | some c => s.setCourse id (f c)
  | none => s

def State.modPart (s : State) (p : Nat) (f : Partition → Partition) : State :=
  match s.part p with
  | some x => s.setPart p (f x)
  | none => s

def State.modCtx (s : State) (c : Nat) (f : Context → Context) : State :=
  match s.ctx c with
  | some x => s.setCtx c (f x)
  | none => s

def State.modLaunch (s : State) (l : Nat) (f : Launch → Launch) : State :=
  match s.launch l with
  | some x => s.setLaunch l (f x)
  | none => s

def State.modQueue (s : State) (p q : Nat) (f : Queue → Queue) : State :=
  match s.queue p q with
  | some x => s.setQueue p q (f x)
  | none => s

def State.modCore (s : State) (n : Nat) (f : Core → Core) : State := s.setCore n (f (s.core n))

def State.modCluster (s : State) (n : Nat) (f : Cluster → Cluster) : State :=
  s.setCluster n (f (s.cluster n))

def State.modDie (s : State) (n : Nat) (f : Die → Die) : State := s.setDie n (f (s.die n))

def State.modOp (s : State) (n : Nat) (f : Op → Op) : State :=
  match s.op n with
  | some x => s.setOp n (f x)
  | none => s

/-- Change the courses of every context image. -/
def State.mapSavedCourses (s : State) (f : SavedCourse → SavedCourse) : State :=
  { s with ctxs := s.ctxs.map fun (p : Nat × Context) =>
      (p.1, { p.2 with saved := p.2.saved.map fun sv => { sv with courses := sv.courses.map f } }) }

/-- Change the threads of every context image. -/
def State.mapSaved (s : State) (f : ThreadId → Thread → Thread) : State :=
  s.mapSavedCourses fun c => { c with threads := c.threads.map fun q => (q.1, f q.1 q.2) }

/-- The key of a thread's course. -/
def courseOf (id : ThreadId) : CourseId := ⟨id.launch, id.course⟩

/-- A fresh number for a launch, an operation or a commit. -/
def State.fresh (s : State) : Nat × State := (s.nextId, { s with nextId := s.nextId + 1 })

/-- Add an outstanding operation of the gang at issue. -/
def State.addOp (s : State) (o : Op) : State :=
  let (n, s) := s.fresh
  s.setOp n { o with gang := match s.issue with
    | some g => (g.core, g.slot)
    | none => (0, 0) }

/-- A free truth value (log entry 5). -/
def State.drawBit (s : State) : Bool × State :=
  (Config.freeBit s.free, { s with free := s.free + 1 })

/-- A free choice below `n` (log entry 5). -/
def State.drawBelow (s : State) (n : Nat) : Nat × State :=
  (Config.freeChoice s.free % max n 1, { s with free := s.free + 1 })

/-- The kernel descriptor that governs a launch (R99). -/
def State.kdesc (s : State) (l : Nat) : Option KDesc := (s.launch l).map (·.kd)

/-- The context of a thread's launch. -/
def State.ctxOf (s : State) (id : ThreadId) : Nat :=
  match s.launch id.launch with
  | some l => l.ctx
  | none => 0

def State.partOf (s : State) (ctx : Nat) : Nat :=
  match s.ctx ctx with
  | some c => c.part
  | none => 0

/-- The core that a thread's course is placed on. -/
def State.coreOf (s : State) (id : ThreadId) : Nat :=
  match s.course (courseOf id) with
  | some c => c.core
  | none => 0

/-- The threads of a course. -/
def State.threadsOf (s : State) (co : CourseId) : Table ThreadId Thread :=
  s.threads.filter fun p => p.1.launch == co.launch && p.1.course == co.course

/-- The operations of a course. -/
def State.opsOf (s : State) (co : CourseId) : Table Nat Op :=
  s.ops.filter fun p => p.2.th.launch == co.launch && p.2.th.course == co.course

/-- The operations of a thread. -/
def State.opsOfThread (s : State) (id : ThreadId) : Table Nat Op :=
  s.ops.filter fun p => p.2.th == id

/-- Ascending (`%cthr`, `%cidx`), then the order in which launches began (R120). -/
def threadBefore (a b : ThreadId) : Bool :=
  decide (a.cthr < b.cthr) || (a.cthr == b.cthr &&
    (decide (a.course < b.course) || (a.course == b.course && decide (a.launch < b.launch))))

def State.regCount (s : State) (id : ThreadId) : Nat :=
  match s.kdesc id.launch with
  | some k => k.regs
  | none => 0

def State.determ (s : State) (l : Nat) : Bool :=
  match s.kdesc l with
  | some k => k.determ
  | none => false

/-- The course holds its launch's turn (R332). -/
def State.holdsTurn (s : State) (co : CourseId) : Bool :=
  match s.launch co.launch with
  | some l => l.turn == co.course
  | none => false

/-- Commits and atomics of the course may register now: always outside deterministic kernels
(R267, R332). -/
def State.mayRegister (s : State) (co : CourseId) : Bool :=
  !s.determ co.launch || s.holdsTurn co

/-! ## Registers (R8, R9, R10) -/

/-- The empty node of R242 is all zero. -/
def kEmpty : KReg := 0

/-- Read a v register; 0xFF reads as 0 (R9). -/
def Thread.reg (t : Thread) : Opd → VReg
  | .v n => t.regs[n]
  | _ => ⟨0, 0⟩

/-- Write a v register; a write to 0xFF is discarded (R9). -/
def Thread.setReg (t : Thread) (o : Opd) (r : VReg) : Thread :=
  match o with
  | .v n => { t with regs := t.regs.set n r }
  | _ => t

/-- The register after the one a field names: the high half of a pair, or a later register of a
span. -/
def Opd.plus (o : Opd) (k : Nat) : Opd :=
  match o with
  | .v n => if h : n.val + k < 192 then .v ⟨n.val + k, h⟩ else .zero
  | o => o

/-- Read a d pair; 0xFF reads as 0 in both halves (R9). -/
def Thread.pair (t : Thread) (o : Opd) : DWord :=
  (t.reg (Opd.plus o 1)).bits ++ (t.reg o).bits

/-- Write a d pair, both halves with one tag (R10). -/
def Thread.setPair (t : Thread) (o : Opd) (w : DWord) (tag : Tag) : Thread :=
  (t.setReg o ⟨w.setWidth 32, tag⟩).setReg (Opd.plus o 1) ⟨(w >>> 32).setWidth 32, tag⟩

/-- A register field passes the tag check when it is 0xFF or holds the tag (R9, R10). -/
def Thread.hasTag (t : Thread) (o : Opd) (tag : Tag) : Bool :=
  o == .zero || (t.reg o).tag == tag

/-- Both halves hold the tag (R10). -/
def Thread.pairHasTag (t : Thread) (o : Opd) (tag : Tag) : Bool :=
  o == .zero || ((t.reg o).tag == tag && (t.reg (Opd.plus o 1)).tag == tag)

/-- A predicate: p7 reads true (R8). -/
def Thread.predAt (t : Thread) (p : Fin 8) : Bool :=
  if p.val = 7 then true else t.preds.getLsbD p.val

/-- Write a predicate: a write to p7 is discarded (R8, R53). -/
def Thread.setPred (t : Thread) (p : Fin 8) (v : Bool) : Thread :=
  if p.val = 7 then t
  else { t with preds :=
    if v then t.preds ||| ((1 : BitVec 7) <<< p.val)
    else t.preds &&& ~~~((1 : BitVec 7) <<< p.val) }

/-- The guard (R52). -/
def Thread.guard (t : Thread) (c : Ctl) : Bool := t.predAt c.pred != c.neg

def Thread.kreg (t : Thread) : Opd → KReg
  | .k n => t.kregs[n]
  | _ => kEmpty

def Thread.setKreg (t : Thread) (o : Opd) (k : KReg) : Thread :=
  match o with
  | .k n => { t with kregs := t.kregs.set n k }
  | _ => t

/-- PC + 1. -/
def Thread.advance (t : Thread) : Thread := { t with pc := t.pc + 1 }

/-! ## `%fctl` fields (R15) -/

def Thread.ftz (t : Thread) : Bool := t.fctl.getLsbD 8

def Thread.compat (t : Thread) : Bool := t.fctl.getLsbD 9

def Thread.rmode (t : Thread) : BitVec 3 := t.fctl.extractLsb' 5 3

def Thread.enables (t : Thread) : BitVec 5 := t.fctl.extractLsb' 0 5

/-- OR flags into `%fflags`, with the capture of R300: `pc` and `d` are those of the instruction
that raised them, `en` the enables in force at it. -/
def Thread.raiseFlags (t : Thread) (fl en : BitVec 5) (pc : Word) (d : BitVec 8) : Thread :=
  let t' := { t with fflags := t.fflags ||| fl }
  if t.armed && !t.inHandler && fl &&& en != 0 then
    { t' with armed := false, trapfpc := pc, field := d, late := none }
  else t'

/-- Flags of operation `n` that arrive after issue, with capture armed at its issue or not: flags
update in program order, so that a capture by a later instruction gives way to it (R17, R300). -/
def Thread.raiseLate (t : Thread) (fl en : BitVec 5) (pc : Word) (d : BitVec 8) (armed : Bool)
    (n : Nat) : Thread :=
  let u := t.raiseFlags fl en pc d
  if fl &&& en == 0 || t.inHandler then u
  else if t.armed then { u with late := some n }
  else if armed && t.late.all fun m => decide (n < m) then { u with trapfpc := pc, field := d, late := some n }
  else u

/-- OR flags raised by the instruction at the thread's PC (R17, R300). -/
def Thread.flagsNow (t : Thread) (fl : BitVec 5) (d : Opd) : Thread :=
  t.raiseFlags fl t.enables t.pc d.enc

/-! ## Physical memory (R183, R191, R344) -/

/-- Where a physical address lies. -/
inductive PhysClass where
  | hbm
  | host
  | window
  | link (device : Nat)
  | absent
  deriving DecidableEq, Repr

def gib768 : Nat := 768 * 2 ^ 30

/-- The class of a physical address: a stack that `%caps` lacks is absent (R353). -/
def State.physClass (s : State) (a : Nat) : PhysClass :=
  if a < gib768 then
    if s.caps.getLsbD (8 + a / (64 * 2 ^ 30)) then .hbm else .absent
  else if 2 ^ 40 ≤ a ∧ a < 2 ^ 50 then .host
  else if 2 ^ 50 ≤ a ∧ a < 2 ^ 50 + 2 ^ 32 then .window
  else if 2 ^ 51 ≤ a ∧ a < 2 ^ 51 + 6144 * gib768 then .link ((a - 2 ^ 51) / gib768)
  else .absent

/-- The link window of this device's own number names its own memory (R344). -/
def canonPhys (a : Nat) : Nat :=
  if 2 ^ 51 ≤ a then
    if a < 2 ^ 51 + 6144 * gib768 ∧ (a - 2 ^ 51) / gib768 = Config.deviceNumber then (a - 2 ^ 51) % gib768 else a
  else a

/-- home_of (R4, R183). -/
def homeOf (a : Nat) : Option Nat := if a < gib768 then some (a / (192 * 2 ^ 30)) else none

/-- Some port is in service: other devices can be reached (R346). -/
def State.linkUp (s : State) : Bool := s.ports.toList.any (·.inService)

/-- A virtual channel starts no new flit: every port in service has paused it (R346). -/
def State.linkHeld (s : State) (channel : Fin 4) : Bool :=
  s.linkUp && s.ports.toList.all fun p => !p.inService || p.paused[channel] == some 0

/-- The address lies at another device, whose request channel is paused. -/
def State.requestHeld (s : State) (pa : Nat) : Bool :=
  match s.physClass pa with
  | .link _ => s.linkHeld 0
  | _ => false

/-- The 64 bytes of a unit as a reader under a key sees them (R191). -/
def State.viewUnit (s : State) (unit : Nat) (key : Option (Nat × BitVec 512)) : List Byte :=
  let raw := memReadN s.mem (64 * unit) 64
  match tget s.units unit, key with
  | some k', some k => if k' = k then raw else xtsDecrypt k.2 unit (xtsEncrypt k'.2 unit raw)
  | _, _ => raw

/-- The key that a slot holds, with its number. -/
def State.keyOf (s : State) (slot : Nat) : Option (Nat × BitVec 512) :=
  (tget s.keys slot).map fun k => (slot, k.key)

/-- Read `n` bytes under a key slot: units last written under the same key read as stored. -/
def State.readKeyed (s : State) (slot a n : Nat) : List Byte :=
  let key := s.keyOf slot
  let same := (List.range (ceilDiv (a % 64 + n) 64)).all fun i =>
    match tget s.units (a / 64 + i), key with
    | some k', some k => k' == k
    | _, _ => true
  if same then memReadN s.mem a n
  else
    let all := (List.range (ceilDiv (a % 64 + n) 64)).flatMap fun i => s.viewUnit (a / 64 + i) key
    (all.drop (a % 64)).take n

/-- Raw bytes of a physical range. -/
def State.readPhys (s : State) (a n : Nat) : List Byte := memReadN s.mem a n

/-- Give every unit of a range to a key; a unit of another key keeps, in the bytes not written,
what the new key's owner reads (R191). -/
def State.claimUnits (s : State) (key : Nat × BitVec 512) : List Nat → State
  | [] => s
  | u :: r =>
    let s' :=
      if tget s.units u = some key then s
      else { s with mem := memWriteN s.mem (64 * u) (s.viewUnit u (some key)),
                    units := tput s.units u key }
    s'.claimUnits key r

/-- Remember a write while launches run (R91). -/
def State.remember (s : State) (key : Option Nat) (a : Nat) (bs : List Byte) : State :=
  { s with past := if s.launches.isEmpty then [] else s.past ++ [⟨s.nextId, key, a, bs⟩] }

/-- Write bytes under a key slot. -/
def State.writeKeyed (s : State) (slot a : Nat) (bs : List Byte) : State :=
  let us := (List.range (ceilDiv (a % 64 + bs.length) 64)).map (a / 64 + ·)
  let s := s.remember (some slot) a bs
  let s := match s.keyOf slot with
    | some k => s.claimUnits k us
    | none => s
  { s with mem := memWriteN s.mem a bs }

/-- Write bytes that no key covers: control structures named by physical address (log entry 8). -/
def State.writePhys (s : State) (a : Nat) (bs : List Byte) : State :=
  let us := (List.range (ceilDiv (a % 64 + bs.length) 64)).map (a / 64 + ·)
  let s := s.remember none a bs
  { s with mem := memWriteN s.mem a bs, units := s.units.filter fun p => p.1 ∉ us }

/-- Make remembered writes again, in their order (R91, R197). -/
def State.replay (s : State) (ws : List PastWrite) : State :=
  ws.foldl (fun s w => match w.key with
    | some slot => s.writeKeyed slot w.addr w.bytes
    | none => s.writePhys w.addr w.bytes) s

/-- Whether any line of a range is uncorrectable. -/
def State.isPoisoned (s : State) (a n : Nat) : Bool :=
  s.poisoned.any fun l => decide (l * 128 < a + n) && decide (a < l * 128 + 128)

def State.keyRevoked (s : State) (slot : Nat) : Bool :=
  match tget s.keys slot with
  | some k => k.revoked
  | none => false

/-! ## Rings and events (R305, R341) -/

/-- An unset ring base (log entry 8): nothing is kept in memory. -/
def Ring.set (r : Ring) : Bool := r.base != 0

def Ring.full (r : Ring) : Bool := decide (r.tail - r.head ≥ 2 ^ r.log2)

/-- The address of entry `i` of a ring of `size`-byte entries. -/
def Ring.slot (r : Ring) (i size : Nat) : Nat := r.base.toNat / 4096 * 4096 + size * (i % 2 ^ r.log2)

/-- Write a value of `bytes` bytes into a ring's entry `i`, when the ring is set. -/
def State.ringWrite (s : State) (r : Ring) (i bytes value : Nat) : State :=
  if r.set then s.writePhys (r.slot i bytes) (toLE value bytes) else s

/-- Entries of `%gts` `g` that a new one from source `src` goes before: those of higher sources (R341). -/
def Ring.behind (r : Ring) (g src : Nat) : Nat :=
  if r.stamp = g then min (r.tail - r.head) (r.srcs.countP fun n => decide (src < n)) else 0

/-- Where an entry of `%gts` `g` from source `src` stands in the ring (R341). -/
def Ring.place (r : Ring) (g src : Nat) : Nat := r.tail - r.behind g src

/-- The ring with one more entry. -/
def Ring.more (r : Ring) (g src : Nat) : Ring :=
  { r with tail := r.tail + 1, stamp := g, srcs := src :: (if r.stamp = g then r.srcs else []) }

/-- Write an entry at its place; those behind it move up by one (R341). -/
def State.ringPut (s : State) (r : Ring) (g src bytes value : Nat) : State :=
  let s := (List.range (r.behind g src)).foldl (fun s j =>
    s.ringWrite r (r.tail - j) bytes (leNat (s.readPhys (r.slot (r.tail - j - 1) bytes) bytes))) s
  s.ringWrite r (r.place g src) bytes value

/-! Source numbers (R341): a cluster, the staging of a die, the mapper and dispatcher of a die, and the
collective engine. -/

/-- The cluster of a thread's core. -/
def State.srcOf (s : State) (id : ThreadId) : Nat := coreCluster (s.coreOf id)

/-- The staging of the die of a thread's core. -/
def State.stagingSrc (s : State) (id : ThreadId) : Nat := 238 + s.coreOf id / 256

/-- The mapper and dispatcher of the die of a partition's first cluster (log entry 81). -/
def State.mapperSrc (s : State) (p : Nat) : Nat :=
  242 + (match s.part p with
    | some x => x.clusters.headD 0 / 52
    | none => 0)

def collectiveSrc : Nat := 246

/-- The fields of an event record (R305), and the source that it comes from (R341). -/
structure Event where
  src : Nat
  va : Nat := 0
  gts : Nat := 0
  course : Nat := 0
  pc : Nat := 0
  ctx : Nat := 0
  cthr : Nat := 0
  type : Nat := 0
  cls : Nat := 0
  retired : Bool := false

def Event.toNat (e : Event) : Nat :=
  (e.va % 2 ^ 64) * 2 ^ 192 + (e.gts % 2 ^ 64) * 2 ^ 128 + (e.course % 2 ^ 32) * 2 ^ 96 +
  (e.pc % 2 ^ 32) * 2 ^ 64 + (e.ctx % 1024) * 2 ^ 54 + (e.cthr % 1024) * 2 ^ 44 +
  (e.type % 256) * 2 ^ 36 + (e.cls % 256) * 2 ^ 28 + b2n e.retired * 2 ^ 27

/-- Write an event record into a partition's event ring, or count it as lost (R305). -/
def State.pushEvent (s : State) (p : Nat) (e : Event) : State :=
  match s.part p with
  | none => s
  | some x =>
    if x.eventQ.full then s.setPart p { x with lost := x.lost + 1 }
    else
      (s.ringPut x.eventQ e.gts e.src 32 e.toNat).setPart p
        { x with eventQ := x.eventQ.more e.gts e.src }

/-- An event about a thread (R305). -/
def State.threadEvent (s : State) (id : ThreadId) (pc : Word) (type cls : Nat) : State :=
  let c := s.ctxOf id
  s.pushEvent (s.partOf c)
    { src := s.srcOf id, gts := s.gts, course := id.course, pc := pc.toNat, ctx := c, cthr := id.cthr,
      type := type, cls := cls }

/-! ## Candidates (R119, R120) -/

/-- The thread waits no more: it is a candidate from now, with age 0 (R120). -/
def State.wake (s : State) (id : ThreadId) : State :=
  let p := (s.core (s.coreOf id)).picks
  s.modThread id fun t => { t with await := .ready, since := p, overdue := false }

/-- The context of a thread is stepped by the debugger (R313). -/
def State.stepping (s : State) (id : ThreadId) : Bool :=
  match s.ctx (s.ctxOf id) with
  | some c => c.step
  | none => false

/-- A traversal or closure operation of the thread is outstanding: under single step its instruction
has not completed (R229, R260). -/
def State.unitPending (s : State) (id : ThreadId) : Bool :=
  (s.opsOfThread id).any fun p => match p.2.kind with
    | .traverse .. => true
    | .closure .. => true
    | _ => false

/-- A thread that stands at the next instruction after one that completed: under single step it
stops and event 0x07 is written (R313). -/
def State.completed (s : State) (id : ThreadId) : State :=
  if s.stepping id then
    match s.thread id with
    | some t =>
      if s.unitPending id then s.setThread id { t with await := .landing }
      else (s.setThread id { t with await := .debug }).threadEvent id t.pc 0x07 0
    | none => s
  else s.wake id

/-- It waits no more and stands at PC + 1. -/
def State.wakeNext (s : State) (id : ThreadId) : State :=
  (s.modThread id Thread.advance).completed id

/-- WAIT's conditions (R126). -/
def Thread.withinLimits (t : Thread) (l s c o : Nat) : Bool :=
  decide (t.loads ≤ l) && decide (t.stores ≤ s) && decide (t.copies ≤ c) &&
    decide (t.tileOps ≤ o)

/-- After a counter fell: end a WAIT whose limits are met (R126), or an instruction under single
step. -/
def State.checkWait (s : State) (id : ThreadId) : State :=
  match s.thread id with
  | some t =>
    match t.await with
    | .counters l st c o => if t.withinLimits l st c o then s.wakeNext id else s
    | .landing => s.completed id
    | _ => s
  | none => s

/-- The four classes of outstanding operations (R125). -/
inductive CountClass where
  | load | store | copy | tile
  deriving DecidableEq, Repr

def Thread.count (t : Thread) : CountClass → Nat
  | .load => t.loads
  | .store => t.stores
  | .copy => t.copies
  | .tile => t.tileOps

def Thread.setCount (t : Thread) (n : Nat) : CountClass → Thread
  | .load => { t with loads := n }
  | .store => { t with stores := n }
  | .copy => { t with copies := n }
  | .tile => { t with tileOps := n }

/-- One more outstanding operation of a class. -/
def Thread.countUp (t : Thread) (c : CountClass) : Thread := t.setCount (t.count c + 1) c

/-- One less; a WAIT may end. -/
def State.countDown (s : State) (id : ThreadId) (c : CountClass) : State :=
  (s.modThread id fun t => t.setCount (t.count c - 1) c).checkWait id

/-- One less for a thread that may be saved: its image counts it as complete (R18). -/
def State.countDownSaved (s : State) (id : ThreadId) (c : CountClass) : State :=
  match s.thread id with
  | some _ => s.countDown id c
  | none => s.mapSaved fun i t => if i = id then t.setCount (t.count c - 1) c else t

/-! ## Traps (R297 to R303) -/

/-- What stops an instruction for one thread. -/
inductive Trap where
  /-- A trap of R297: class, memory-fault cause, field and detail of `%trapinfo`, and whether the
  resume point is the instruction after. -/
  | take (cls cause field detail : BitVec 8) (after : Bool)
  /-- A memory fault of cause 0x1 to 0x3: the queue it goes to, the address and the access code
  (R189). -/
  | memory (hv : Bool) (cause access : Nat) (va : DWord)
  /-- The table-full trap to the partition kernel (R287). -/
  | tableFull
  deriving DecidableEq, Repr

/-- Illegal instruction, class 0x01. -/
def Trap.illegal (d : BitVec 8) : Trap := .take 0x01 0 d 0 false

def Trap.unitAbsent (d : BitVec 8) : Trap := .take 0x02 0 d 0 false

def Trap.privilege (d : BitVec 8) : Trap := .take 0x03 0 d 0 false

/-- Tag fault, class 0x04, naming the operand field whose tag failed (R298). -/
def Trap.tag (o : Opd) : Trap := .take 0x04 0 o.enc 0 false

/-- Memory fault of causes 0x4 to 0x9, class 0x05. -/
def Trap.fault (cause d : BitVec 8) : Trap := .take 0x05 cause d 0 false

def causeBadRecord : BitVec 8 := 0x4
def causeMisaligned : BitVec 8 := 0x5
def causeRange : BitVec 8 := 0x6
def causeBadTarget : BitVec 8 := 0x7
def causeOverflow : BitVec 8 := 0x8
def causeUnderflow : BitVec 8 := 0x9

/-- Closure-not-resident, class 0x06, naming the k register. -/
def Trap.notResident (k : Opd) : Trap := .take 0x06 0 k.enc 0 false

/-- The handler of a thread's kernel, when it is available (R297). -/
def State.handler (s : State) (id : ThreadId) (t : Thread) : Option Word :=
  match s.kdesc id.launch with
  | some k => if k.trapvec == 0xFFFFFFFF || t.inHandler then none else some k.trapvec
  | none => none

/-- Entry into the handler: what R299 writes, and nothing else. -/
def Thread.enterHandler (t : Thread) (vec pc resume info mask : Word) : Thread :=
  { t with trappc := pc, trapinfo := info, trapmask := mask, resume := resume, inHandler := true,
           pc := vec }

/-- Fields of a fault-queue entry (R189). -/
def faultEntry (va gts course pc ctx cthr cause access : Nat) (stage2 : Bool) : BitVec 256 :=
  BitVec.ofNat 256 (va % 2 ^ 64 * 2 ^ 192 + gts % 2 ^ 64 * 2 ^ 128 + course % 2 ^ 32 * 2 ^ 96 +
    pc % 2 ^ 32 * 2 ^ 64 + ctx % 1024 * 2 ^ 54 + cthr % 1024 * 2 ^ 44 + cause % 16 * 2 ^ 40 +
    access % 4 * 2 ^ 38 + b2n stage2 * 2 ^ 37)

/-- The ring that a fault goes to (R189, R316). -/
def State.faultRing (s : State) (hv : Bool) (p : Nat) : Ring :=
  if hv then s.mgmt.faultQ
  else match s.part p with
    | some x => x.faultQ
    | none => Ring.reset

def State.setFaultRing (s : State) (hv : Bool) (p : Nat) (r : Ring) : State :=
  if hv then { s with mgmt := { s.mgmt with faultQ := r } }
  else s.modPart p fun x => { x with faultQ := r }

/-- Give every ticket what `f` makes of it; what `f` gives none for waits no more. -/
def State.setTickets (s : State) (f : Ticket → Option Ticket) : State :=
  let onOp (o : Op) : Op := { o with stop := o.stop.bind f }
  let onEntry (e : AtomdEntry) : AtomdEntry := { e with stop := e.stop.bind f }
  let onThread (t : Thread) : Thread := match t.await with
    | .fault tk => match f tk with
      | some tk' => { t with await := .fault tk' }
      | none => { t with await := .ready }
    | _ => t
  let onCourse (c : Course) : Course :=
    { c with binStop := c.binStop.bind f,
             commits := c.commits.map fun m => { m with stop := m.stop.bind f } }
  let s := { s with
    threads := s.threads.map fun (p : ThreadId × Thread) => (p.1, onThread p.2),
    ops := s.ops.map fun (p : Nat × Op) => (p.1, onOp p.2),
    cores := s.cores.map fun (p : Nat × Core) => (p.1, { p.2 with atomd := p.2.atomd.map onEntry }),
    courses := s.courses.map fun (p : CourseId × Course) => (p.1, onCourse p.2) }
  s.mapSavedCourses fun c =>
    { c with threads := c.threads.map fun (p : ThreadId × Thread) => (p.1, onThread p.2),
             ops := c.ops.map fun (p : Nat × Op) => (p.1, onOp p.2), atomd := c.atomd.map onEntry }

/-- Ticket numbers of a queue from `n` on go up by one: an entry has been put before them (R341). -/
def State.renumber (s : State) (hv : Bool) (p n : Nat) : State :=
  s.setTickets fun tk => some (match tk.index with
    | some i =>
      if tk.hv == hv && (hv || tk.part == p) && decide (n ≤ i) then { tk with index := some (i + 1) } else tk
    | none => tk)

/-- The `%gts` of a fault-queue entry (R189). -/
def entryGts (e : BitVec 256) : Nat := e.toNat / 2 ^ 128 % 2 ^ 64

/-- Enter a fault from source `src` when there is room, and give its ticket (R189, R190, R341). -/
def State.enterFault (s : State) (hv : Bool) (p src : Nat) (e : BitVec 256) : Ticket × State :=
  let r := s.faultRing hv p
  let g := entryGts e
  if r.full then (⟨hv, p, none, e, src⟩, s)
  else
    let s := if r.behind g src = 0 then s else s.renumber hv p (r.place g src)
    (⟨hv, p, some (r.place g src), e, src⟩,
      (s.ringPut r g src 32 e.toNat).setFaultRing hv p (r.more g src))

/-- Stop a thread on a fault-queue entry; its PC stays at the instruction (R189, R304). -/
def State.stopOnFault (s : State) (id : ThreadId) (pc : Word) (hv : Bool)
    (cause access : Nat) (va : DWord) : State :=
  let c := s.ctxOf id
  let e := faultEntry va.toNat s.gts id.course pc.toNat c id.cthr cause access hv
  let (tk, s) := s.enterFault hv (s.partOf c) (s.srcOf id) e
  s.modThread id fun t => { t with await := .fault tk }

/-- Deliver a trap to a thread that stands at the trapping instruction (R299); `mask` is
`%trapmask`. -/
def State.deliver (s : State) (id : ThreadId) (tr : Trap) (mask : Word) : State :=
  match s.thread id with
  | none => s
  | some t =>
    match tr with
    | .take cls cause field detail after =>
      match s.handler id t with
      | some vec =>
        s.setThread id
          (t.enterHandler vec t.pc (if after then t.pc + 1 else t.pc)
            (cls ++ cause ++ field ++ detail) mask)
      | none =>
        (s.setThread id { t with await := .stopped }).threadEvent id t.pc
          (if t.inHandler then 0x02 else 0x01) cls.toNat
    | .memory hv cause access va => s.stopOnFault id t.pc hv cause access va
    | .tableFull => (s.setThread id { t with await := .stopped }).threadEvent id t.pc 0x05 0

/-- Return from the handler (R301): the in-handler bit clears and the thread goes on at `pc`. -/
def Thread.leaveHandler (t : Thread) (pc : Word) : Thread := { t with inHandler := false, pc := pc }

/-- The class that decides which lanes `%trapmask` names together. -/
def Trap.cls : Trap → Nat
  | .take c _ _ _ _ => c.toNat
  | .memory _ _ _ _ => 0x100
  | .tableFull => 0x101

/-- Bit i for each lane i whose thread took this class; 1 for a deadlock trap (R299). A thread's lane
is its place in the gang's order (log entry 12). -/
def laneMask (traps : List (Nat × ThreadId × Trap)) (cls : Nat) : Word :=
  if cls == 8 then 1 else traps.foldl (fun m p => if p.2.2.cls == cls then m ||| (1 <<< p.1) else m) 0

/-- Deliver the traps of one instruction. -/
def State.deliverAll (s : State) (traps : List (Nat × ThreadId × Trap)) : State :=
  traps.foldl (fun s p => s.deliver p.2.1 p.2.2 (laneMask traps p.2.2.cls)) s

/-! ## Running one instruction over a gang (R52, R85, R120) -/

/-- What one thread's part of an instruction gives. -/
abbrev Act := State → ThreadId → Thread → Except Trap State

/-- One thread of a gang: a false guard only passes on to PC + 1 (R52). -/
def stepThread (c : Ctl) (act : Act) (acc : State × List (Nat × ThreadId × Trap))
    (p : ThreadId × Nat) : State × List (Nat × ThreadId × Trap) :=
  match acc.1.thread p.1 with
  | none => acc
  | some t =>
    if t.guard c then
      match act acc.1 p.1 t with
      | .ok s' => (s', acc.2)
      | .error tr => (acc.1, acc.2 ++ [(p.2, p.1, tr)])
    else (acc.1.setThread p.1 t.advance, acc.2)

/-- What one thread's part of an instruction gives that may have to wait at issue: `none` waits. -/
abbrev EachAct := State → ThreadId → Thread → Except Trap (Option State)

/-- Wait at issue under a condition, else act. -/
def waitIf (held : State → ThreadId → Thread → Bool) (act : Act) : EachAct := fun s id t =>
  if held s id t then .ok none
  else match act s id t with
    | .ok s' => .ok (some s')
    | .error e => .error e

/-- The whole gang in ascending (`%cthr`, `%cidx`), then the traps. -/
def State.runGang (s : State) (c : Ctl) (act : Act) : State :=
  match s.issue with
  | none => s
  | some g =>
    let (s', traps) := g.gang.zipIdx.foldl (stepThread c act) (s, [])
    s'.deliverAll traps

/-- Lose the turn: the run goes on at a later turn (R118). -/
def State.loseTurn (s : State) : State := { s with issue := none }

/-- Threads of the gang whose guard is true. -/
def State.active (s : State) (c : Ctl) : List (ThreadId × Thread) :=
  match s.issue with
  | none => []
  | some g => g.gang.filterMap fun id =>
      match s.thread id with
      | some t => if t.guard c then some (id, t) else none
      | none => none

/-- Run an instruction unless some thread holds it at issue (R86, R118). -/
def State.runUnless (s : State) (c : Ctl) (held : State → ThreadId → Thread → Bool) (act : Act) :
    State :=
  if (s.active c).any fun p => held s p.1 p.2 then s.loseTurn else s.runGang c act

/-- Threads of a gang one after another until one waits: the state, the traps, and those that are left. -/
def eachFrom (c : Ctl) (act : EachAct) (s : State) (tr : List (Nat × ThreadId × Trap)) :
    List (ThreadId × Nat) → State × List (Nat × ThreadId × Trap) × List ThreadId
  | [] => (s, tr, [])
  | p :: r =>
    match s.thread p.1 with
    | none => eachFrom c act s tr r
    | some t =>
      if t.guard c then
        match act s p.1 t with
        | .ok (some s') => eachFrom c act s' tr r
        | .ok none => (s, tr, p.1 :: r.map (·.1))
        | .error e => eachFrom c act s (tr ++ [(p.2, p.1, e)]) r
      else eachFrom c act (s.setThread p.1 t.advance) tr r

/-- An issue slot of a core. -/
def Core.slot (c : Core) (n : Nat) : IssueSlot :=
  if h : n < 4 then c.slots[n] else IssueSlot.reset

def Core.setSlot (c : Core) (n : Nat) (x : IssueSlot) : Core :=
  if h : n < 4 then { c with slots := c.slots.set n x } else c

/-- Run an instruction whose threads issue in ascending (`%cthr`, `%cidx`), each when its own wait is over:
from the first that waits on, the threads issue it at later turns of the slot, and the run does not
end (R197, R199, R207, R292). -/
def State.runEach (s : State) (c : Ctl) (act : EachAct) : State :=
  match s.issue with
  | none => s
  | some g =>
    let first := match ((s.core g.core).slot g.slot).run with
      | some r => r.done.length
      | none => 0
    let (s', tr, left) := eachFrom c act s [] (g.gang.zipIdx first)
    let s' := s'.deliverAll tr
    let went := g.gang.filter fun id => id ∉ left
    if left.isEmpty then s'
    else if went.isEmpty then s'.loseTurn
    else
      (s'.modCore g.core fun k => k.setSlot g.slot { k.slot g.slot with
        run := (k.slot g.slot).run.map fun r => { r with done := r.done ++ went } }).loseTurn

/-- An instruction whose effect is on the thread's own registers. -/
def localAct (f : Thread → Except Trap Thread) : Act := fun s id t =>
  match f t with
  | .ok t' => .ok (s.setThread id t')
  | .error e => .error e

/-- A register instruction over the gang. -/
def State.runLocal (s : State) (c : Ctl) (f : Thread → Except Trap Thread) : State :=
  s.runGang c (localAct f)

end Sys2Proof.Machine
end

