-- ==== Sys2Proof/Machine/Xlate.lean ====
section
/-! DEFINITION. Xlate.lean: translation (R187, R188), loads through the caches (R184, R269), the
staging store buffer, commits and registration (R266 to R268, R306), and watches (R283). -/

namespace Sys2Proof.Machine

/-! ## Two-stage translation (R187) -/

/-- Access codes of a fault-queue entry (R189). -/
inductive Access where
  | read | write | exec | copy
  deriving DecidableEq, Repr

def Access.code : Access → Nat
  | .read => 0
  | .write => 1
  | .exec => 2
  | .copy => 3

/-- A leaf of one stage. -/
structure Leaf where
  frame : Nat
  size : Nat
  key : Nat
  shadow : Bool
  front : Bool
  r : Bool
  w : Bool
  x : Bool

/-- What one page entry says at a level. -/
inductive EntryKindOf where
  | invalid
  | table (addr : Nat)
  | leaf (l : Leaf)

/-- Shift of the index bits of a level. -/
def levelShift : Nat → Nat
  | 0 => 39
  | 1 => 30
  | 2 => 21
  | _ => 16

/-- Decode a page entry at a level (R187). -/
def pageEntry (stage2 : Bool) (level e : Nat) : EntryKindOf :=
  let size := bits e 11 10
  let zeros := bits e 15 13 != 0 || bits e 9 4 != 0 || (!stage2 && bits e 62 53 != 0) ||
    (stage2 && nbit e 63)
  if !nbit e 0 || zeros then .invalid
  else if size == 0 then
    if level == 3 || nbit e 63 || (stage2 && bits e 62 53 != 0) then .invalid
    else .table (bits e 52 16 * 2 ^ 16)
  else if size + level != 4 then .invalid
  else
    let sz := 2 ^ levelShift level
    let frame := bits e 52 16 * 2 ^ 16
    if frame % (if nbit e 63 then 2 * sz else sz) != 0 then .invalid
    else .leaf
      { frame := frame, size := sz, key := bits e 62 53, shadow := nbit e 63, front := nbit e 12,
        r := nbit e 1, w := nbit e 2, x := nbit e 3 }

/-- Index of an address at a level. -/
def levelIndex (level a : Nat) : Nat := a / 2 ^ levelShift level % (if level == 3 then 32 else 512)

/-- A frame at or above 768 GiB is valid only in the host window, a link window, or at the
partition's own user page or a doorbell page of it (R344). -/
def State.frameOk (s : State) (part pa : Nat) : Bool :=
  match s.physClass pa with
  | .hbm => true
  | .host => true
  | .link _ => true
  | .absent => false
  | .window =>
    let o := pa - 2 ^ 50
    (decide (0x08000000 + 0x10000 * part ≤ o) && decide (o < 0x08000000 + 0x10000 * (part + 1))) ||
    (decide (0x10000000 + 0x4000000 * part ≤ o) &&
      decide (o < 0x10000000 + 0x4000000 * (part + 1)))

/-- Every byte of a leaf's frame is one that a leaf may name. -/
def State.leafOk (s : State) (part : Nat) (l : Leaf) : Bool :=
  s.frameOk part l.frame && s.frameOk part (l.frame + l.size - 1) && decide (l.key < 512)

/-- Stage 2: `n` levels are left from `table`. -/
def State.walk2 (s : State) (part table ia : Nat) : Nat → Option Leaf
  | 0 => none
  | n + 1 =>
    let level := 3 - n
    match pageEntry true level (leNat (s.readPhys (table + 8 * levelIndex level ia) 8)) with
    | .invalid => none
    | .table t => s.walk2 part t ia n
    | .leaf l => if s.leafOk part l then some { l with frame := canonPhys l.frame } else none

/-- A stage-2 leaf's key slot: slot 0 in the leaf names none, and the context's slot serves
(R319, log entry 9). -/
def leafKey (x : Context) (l : Leaf) : Nat := if l.key == 0 then x.keySlot else l.key

/-- The physical address of an intermediate address, with the leaf. -/
def State.stage2 (s : State) (x : Context) (ia : Nat) : Option (Nat × Leaf) :=
  if ia ≥ 2 ^ 48 then none
  else (s.walk2 x.part (x.s2Root.toNat / 4096 * 4096) ia 4).map fun l =>
    (l.frame + ia % l.size, l)

/-- Stage 1: a failing table access is a stage-2 fault; the address of the leaf's own entry comes
with it, and its key slot. -/
def State.walk1 (s : State) (x : Context) (table va : Nat) :
    Nat → Except (Bool × Nat) (Leaf × Nat × Nat)
  | 0 => .error (false, 1)
  | n + 1 =>
    let level := 3 - n
    match s.stage2 x (table + 8 * levelIndex level va) with
    | none => .error (true, 1)
    | some (pa, l2) =>
      match pageEntry false level (leNat (s.readKeyed (leafKey x l2) pa 8)) with
      | .invalid => .error (false, 1)
      | .table t => s.walk1 x t va n
      | .leaf l => .ok (l, pa, leafKey x l2)

/-- A page walk: the translation, or whether the hypervisor's queue takes the fault, with its
cause (R187, R189). -/
def State.walk (s : State) (ctx : Nat) (va : DWord) : Except (Bool × Nat) TlbEntry :=
  match s.ctx ctx with
  | none => .error (false, 1)
  | some x =>
    let a := va.toNat
    if a / 2 ^ 47 != 0 && a / 2 ^ 47 != 2 ^ 17 - 1 then .error (false, 1)
    else
      match s.walk1 x (x.s1Root.toNat / 4096 * 4096) (a % 2 ^ 48) 4 with
      | .error e => .error e
      | .ok (l1, _) =>
        let ia := l1.frame + (if l1.shadow && l1.front then l1.size else 0) + a % l1.size
        match s.stage2 x ia with
        | none => .error (true, 1)
        | some (pa, l2) =>
          let size := min l1.size l2.size
          .ok { ctx := ctx, page := a / size * size, size := size, inter := ia / size * size,
                phys := pa / size * size, key := leafKey x l2, r := l1.r, w := l1.w, x := l1.x,
                r2 := l2.r, w2 := l2.w, x2 := l2.x, shadow := l1.shadow, front := l1.front }

/-- The stage-1 leaf that maps a page, with its entry's physical address and key slot (R200, R202). -/
def State.leafAddr (s : State) (ctx : Nat) (va : Nat) : Except (Bool × Nat) (Leaf × Nat × Nat) :=
  match s.ctx ctx with
  | none => .error (false, 1)
  | some x =>
    let a := va % 2 ^ 64
    if a / 2 ^ 47 != 0 && a / 2 ^ 47 != 2 ^ 17 - 1 then .error (false, 1)
    else s.walk1 x (x.s1Root.toNat / 4096 * 4096) (a % 2 ^ 48) 4

def TlbEntry.covers (e : TlbEntry) (ctx a : Nat) : Bool :=
  e.ctx == ctx && decide (e.page ≤ a) && decide (a < e.page + e.size)

/-! ## TLBs (R188) -/

/-- Put a translation into a TLB of `cap` entries, in the place of one that free number `k` chooses when it
is full. -/
def putTlb (cap k : Nat) (ls : List TlbEntry) (e : TlbEntry) : List TlbEntry :=
  let rest := ls.filter fun x => !x.covers e.ctx e.page
  e :: (if rest.length < cap then rest else rest.eraseIdx (k % rest.length))

/-- The translation that a core finds: in its own TLB, its cluster's or its die's. -/
def State.tlbHit (s : State) (core ctx va : Nat) : Option TlbEntry :=
  ((s.core core).tlb ++ (s.cluster (coreCluster core)).tlb ++ (s.die (coreDie core)).tlb).find?
    (·.covers ctx va)

/-- Keep a translation in the levels above the one that holds it. -/
def State.cacheTlb (s : State) (core : Nat) (e : TlbEntry) : State :=
  let cl := coreCluster core
  let k := Config.freeChoice s.free
  let inCore := decide (e ∈ (s.core core).tlb)
  let inCluster := inCore || decide (e ∈ (s.cluster cl).tlb)
  let inDie := inCluster || decide (e ∈ (s.die (coreDie core)).tlb)
  let full := decide (64 ≤ (s.core core).tlb.length) || decide (2048 ≤ (s.cluster cl).tlb.length) ||
    decide (32768 ≤ (s.die (coreDie core)).tlb.length)
  if inCore then s
  else
    let s := if full then { s with free := s.free + 1 } else s
    let s := s.modCore core fun c => { c with tlb := putTlb 64 k c.tlb e }
    let s := if inCluster then s else s.modCluster cl fun c => { c with tlb := putTlb 2048 k c.tlb e }
    if inDie then s else s.modDie (coreDie core) fun d => { d with tlb := putTlb 32768 k d.tlb e }

/-- Drop the translations of every TLB that a test names. -/
def State.dropTranslations (s : State) (p : TlbEntry → Bool) : State :=
  { s with
    cores := s.cores.map fun c => (c.1, { c.2 with tlb := c.2.tlb.filter fun e => !p e }),
    clusters := s.clusters.map fun c => (c.1, { c.2 with tlb := c.2.tlb.filter fun e => !p e }),
    dies := s.dies.map fun d => (d.1, { d.2 with tlb := d.2.tlb.filter fun e => !p e }) }

/-- Drop the translations of a page from the TLBs of a core, its cluster and its die. -/
def State.evictTlb (s : State) (core ctx va : Nat) : State :=
  let keep (ls : List TlbEntry) : List TlbEntry := ls.filter fun e => !e.covers ctx va
  ((s.modCore core fun c => { c with tlb := keep c.tlb }).modCluster (coreCluster core) fun c =>
    { c with tlb := keep c.tlb }).modDie (coreDie core) fun d => { d with tlb := keep d.tlb }

/-- The translation that a core's access uses: the cached one, or that of a walk, which is cached when it
succeeds. Where a cached one is not what a walk gives now, it may have been evicted, which a free bit
decides (R188, log entry 5). -/
def State.lookup (s : State) (core ctx : Nat) (va : DWord) :
    Except (Bool × Nat) TlbEntry × State :=
  let walked (s : State) : Except (Bool × Nat) TlbEntry × State := match s.walk ctx va with
    | .ok e => (.ok e, s.cacheTlb core e)
    | .error f => (.error f, s)
  match s.tlbHit core ctx va.toNat with
  | none => walked s
  | some e =>
    if (match s.walk ctx va with
      | .ok e' => decide (e = e')
      | .error _ => false) then (.ok e, s.cacheTlb core e)
    else
      let (b, s) := s.drawBit
      if b then (.ok e, s.cacheTlb core e) else walked (s.evictTlb core ctx va.toNat)

/-- A page that a snapshot still write-protects (R327). -/
def State.guarded (s : State) (part pa : Nat) : Bool :=
  match s.part part with
  | some p => match p.snapshot with
    | some n => (pa / 65536) ∈ n.guarded
    | none => false
  | none => false

/-- A page that has not arrived yet at the destination of a migration (R328, R329). -/
def State.absentPage (s : State) (part pa : Nat) : Bool :=
  match s.part part with
  | some p => match p.migration with
    | some m => !m.outgoing && decide ((pa / 65536) ∈ m.absent)
    | none => false
  | none => false

/-- Permission and key checks on a translation (R187, R189, R191): stage 1, stage 2, then the key.
A revoked key goes to the hypervisor's queue (log entry 9). -/
def State.checkAccess (s : State) (e : TlbEntry) (pa : Nat) (acc : Access) :
    Except (Bool × Nat) Unit :=
  let part := s.partOf e.ctx
  let ok1 := match acc with
    | .read => e.r
    | .write => e.w
    | .exec => e.x
    | .copy => e.r
  let ok2 := match acc with
    | .read => e.r2
    | .write => e.w2
    | .exec => e.x2
    | .copy => e.r2
  if s.absentPage part pa then .error (true, 1)
  else if !ok1 then .error (false, 2)
  else if !ok2 || (acc == .write && s.guarded part pa) then .error (true, 2)
  else if acc != .write && s.keyRevoked e.key then .error (true, 3)
  else .ok ()

/-- Translate an access of a context from a core: the physical address and the key slot, or the
queue and cause of its fault. -/
def State.translate (s : State) (core ctx : Nat) (va : DWord) (acc : Access) :
    Except (Bool × Nat) (Nat × Nat) × State :=
  match s.lookup core ctx va with
  | (.error f, s) => (.error f, s)
  | (.ok e, s) =>
    let pa := e.phys + (va.toNat - e.page)
    match s.checkAccess e pa acc with
    | .error f => (.error f, s)
    | .ok () => (.ok (pa, e.key), s)

/-- Pieces of at most a page, 64 KiB each. -/
def pagePieces (va n : Nat) : List (Nat × Nat) :=
  let first := 65536 - va % 65536
  if n ≤ first then [(va, n)] else [(va, first), (va + first, n - first)]

/-- Bytes of a virtual range in pieces that do not cross a 64 KiB page. -/
def cutPages (va : Nat) (bs : List Byte) : List (Nat × List Byte) :=
  let first := 65536 - va % 65536
  (va, bs.take first) ::
    (List.range (ceilDiv (bs.length - first) 65536)).map fun i =>
      (va + first + 65536 * i, (bs.drop (first + 65536 * i)).take 65536)

/-- Translate for a thread, as a trap when it fails. -/
def State.translateFor (s : State) (id : ThreadId) (va : DWord) (acc : Access) :
    Except Trap (Nat × Nat × State) :=
  match s.translate (s.coreOf id) (s.ctxOf id) va acc with
  | (.ok (pa, key), s') => .ok (pa, key, s')
  | (.error (hv, cause), _) => .error (.memory hv cause acc.code va)

/-! ## Watches (R283) -/

/-- A write of a physical line: every armed watch on it fires. -/
def State.fireWatches (s : State) (line : Nat) : State :=
  { s with threads := s.threads.map fun p =>
      match p.2.monitor with
      | some m =>
        if m.phys == line && !m.lost then
          (p.1, { p.2 with monitor := some { m with fired := true } })
        else p
      | none => p }

/-! ## Loads of global memory (R89, R184, R269) -/

/-- The line object of home memory, as a cache keeps it. -/
def State.fetchLine (s : State) (line key : Nat) : CacheLine :=
  { line := line, key := key, data := memWriteN [] 0 (s.readKeyed key (128 * line) 128),
    fill := s.gts }

def CacheLine.serves (l : CacheLine) (line key acq : Nat) : Bool :=
  l.line == line && l.key == key && decide (acq < l.fill)

def putLine (ls : List CacheLine) (l : CacheLine) : List CacheLine :=
  l :: ls.filter fun x => !(x.line == l.line && x.key == l.key)

/-- A register of the window as a context reads it (R345): COLL_STAT of its own user page; every
other read gives all ones. -/
def State.windowRead (s : State) (part pa n : Nat) : List Byte :=
  let o := pa - 2 ^ 50
  match s.part part with
  | some p =>
    if n == 8 && o == 0x08000000 + 0x10000 * part + 8 then toLE p.collStat.toNat 8
    else List.replicate n 0xFF
  | none => List.replicate n 0xFF

/-! ## Cache lines and policies (R89, R184, R186) -/

/-- A line's set in the L2, and in the remote-data cache (R186); `a` is a byte address of the line. -/
def bandOf (a : Nat) : Nat := bits a 21 16 ^^^ bits a 27 22 ^^^ bits a 33 28 ^^^ bits a 39 34

def l2Set (line : Nat) : Nat :=
  let a := 128 * line
  bandOf a * 1024 + (bits a 16 16 ^^^ bits a 34 34) * 512 + bits a 15 7

def rdcSet (line : Nat) : Nat := bandOf (128 * line) * 512 + bits (128 * line) 15 7

/-- The set of some line that holds more than `ways` lines. -/
def overfull {α : Type} (ways : Nat) (set : α → Nat) : List α → Option Nat
  | [] => none
  | x :: r =>
    if decide (ways < ((x :: r).filter fun y => set y == set x).length) then some (set x) else overfull ways set r

/-- Evict a line of a set: one marked for it first, a retained one last; free number `k` chooses among
equals (R89). -/
def evictOne {α : Type} [DecidableEq α] (set : α → Nat) (mark : α → LineMark) (k n : Nat) (ls : List α) :
    List α :=
  let own := ls.filter fun x => set x == n
  let first := own.filter fun x => mark x == .first
  let plain := own.filter fun x => mark x != .retained
  let cs := if !first.isEmpty then first else if !plain.isEmpty then plain else own
  match cs[k % cs.length]? with
  | some v => ls.erase v
  | none => ls

/-- Evict until no set holds more than `ways` lines. -/
def trimWays {α : Type} [DecidableEq α] (ways : Nat) (set : α → Nat) (mark : α → LineMark) (k : Nat) :
    Nat → List α → List α
  | 0, ls => ls
  | n + 1, ls =>
    match overfull ways set ls with
    | some m => trimWays ways set mark k n (evictOne set mark k m ls)
    | none => ls

/-- Sets of a core's L1: 8 ways of 128 bytes in the quanta that the split leaves it (R109, R184). -/
def Core.l1Sets (c : Core) : Nat := 64 * (16 - c.rf - c.sp)

/-- The L1 of a core, and its die's caches, hold no more than their ways: which line leaves a full set is a
free choice among those that the marks put first (R89, R186; the L1's set index is a DESIGN CHOICE,
log entry 77). -/
def State.trimCaches (s : State) (core : Nat) : State :=
  let k := Config.freeChoice s.free
  let l1Set (l : CacheLine) : Nat := l.line % max 1 (s.core core).l1Sets
  let d := s.die (coreDie core)
  let spills := (overfull 8 l1Set (s.core core).l1).isSome ||
    (overfull 8 (fun l => rdcSet l.line) d.rdc).isSome || (overfull 12 (fun l => l2Set l.1) d.l2).isSome
  if !spills then s
  else
    ({ s with free := s.free + 1 }.modCore core fun c =>
      { c with l1 := trimWays 8 l1Set (·.mark) k c.l1.length c.l1 }).modDie (coreDie core) fun d =>
      { d with rdc := trimWays 8 (fun l => rdcSet l.line) (·.mark) k d.rdc.length d.rdc,
               l2 := trimWays 12 (fun l => l2Set l.1) (·.2) k d.l2.length d.l2 }

/-- A core has read through its caches: the free number is used, and sets hold no more than their ways. -/
def State.readsDone (s : State) (core : Nat) : State := { s with free := s.free + 1 }.trimCaches core

/-- Allocate a line in its home die's L2 with a mark. -/
def State.markL2 (s : State) (line : Nat) (m : LineMark) : State :=
  match homeOf (128 * line) with
  | some die => s.modDie die fun d => { d with l2 := (line, m) :: d.l2.filter fun x => x.1 != line }
  | none => s

/-- Mark of a line that a load or prefetch of a policy fills in the L1, and in the L2 (R89). -/
def l1Mark (pol : Nat) : LineMark := if pol == 2 then .first else .normal

def l2Mark (pol : Nat) : LineMark := if pol == 3 then .retained else .normal

/-- Mark of a line that a store of a policy was written back to (R89). -/
def storeMark (pol : Nat) : LineMark :=
  if pol == 1 then .first else if pol == 3 then .retained else .normal

/-- The line that serves a load whose latest acquire is `acq`: L1, the remote-data cache for a line of
another home, else home (R184, R269). A copy that differs from home may have been evicted, which free
number `k` decides; it is then gone. The policy decides where the line is kept (R89): pol1 not in the
L1, pol2 only there. -/
def State.serve (s : State) (core acq line key pol k : Nat) : CacheLine × State :=
  let die := coreDie core
  let home := s.fetchLine line key
  let far := homeOf (128 * line) != some die
  let goes (l : CacheLine) : Bool := l.line == line && l.key == key
  let fromHome (s : State) : CacheLine × State :=
    let s := if far then s.modDie die fun d =>
        { d with rdc := if pol == 2 then d.rdc.filter fun x => !goes x else putLine d.rdc home }
      else if pol == 2 then s else s.markL2 line (l2Mark pol)
    (home, s)
  let below (s : State) : CacheLine × State :=
    match far, (s.die die).rdc.find? (·.serves line key acq) with
    | true, some l => if l.data = home.data || k / 2 % 2 == 0 then (l, s) else fromHome s
    | _, _ => fromHome s
  let fill (r : CacheLine × State) : CacheLine × State :=
    (r.1, if pol == 1 then r.2 else r.2.modCore core fun c =>
      { c with l1 := putLine c.l1 { r.1 with mark := l1Mark pol } })
  match (s.core core).l1.find? (·.serves line key acq) with
  | some l =>
    if l.data = home.data || k % 2 == 0 then (l, s)
    else fill (below (s.modCore core fun c => { c with l1 := c.l1.filter fun x => !goes x }))
  | none => fill (below s)

/-- A byte of the latest staged store of the thread to it, if there is one (R89). -/
def stagedByte (es : List StageEntry) (id : ThreadId) (a : Nat) : Option Byte :=
  (es.reverse.find? fun e =>
      e.th == id && e.phys == a / 8 * 8 && e.mask.getLsbD (a % 8)).map fun e =>
    e.data.extractLsb' (8 * (a % 8)) 8

/-- Lay a thread's staged stores over bytes read from `a` upward. -/
def overlayStaged (es : List StageEntry) (id : ThreadId) : Nat → List Byte → List Byte
  | _, [] => []
  | a, b :: r => (stagedByte es id a).getD b :: overlayStaged es id (a + 1) r

/-- Bytes that a load can read: no line of them is uncorrectable, and their device can be reached (R337
cause 0x06, R344). The register window always answers. -/
def State.reachable (s : State) (pa n : Nat) : Bool :=
  match s.physClass pa with
  | .window => true
  | .link _ => s.linkUp
  | .absent => false
  | .hbm => !s.isPoisoned pa n
  | .host => !s.isPoisoned pa n

/-- What a global load reads: `none` when the line is uncorrectable or its device cannot be reached
(R337 cause 0x06, R344). `draw` is the instruction's free number, one for every thread of a gang, so
that all that read a byte get the same value (R88). -/
def State.loadGlobal (s : State) (id : ThreadId) (acq pa key n pol draw : Nat) :
    Option (List Byte) × State :=
  if !s.reachable pa n then (none, s)
  else if s.physClass pa = .window then (some (s.windowRead (s.partOf (s.ctxOf id)) pa n), s)
  else
    let (l, s) := s.serve (s.coreOf id) acq (pa / 128) key pol (Config.freeLine draw (pa / 128))
    let es := match s.course (courseOf id) with
      | some c => c.staging
      | none => []
    (some (overlayStaged es id pa (memReadN l.data (pa % 128) n)), s)

/-! ## Staging (R266) -/

/-- Mask and data of a piece of a store within one 8-byte word. -/
def pieceMask (off n : Nat) : BitVec 8 := BitVec.ofNat 8 ((2 ^ n - 1) * 2 ^ off)

/-- Replace the masked bytes of a word. -/
def mergeWord (old new : DWord) (mask : BitVec 8) : DWord :=
  (List.range 8).foldl (fun w i =>
    if mask.getLsbD i then
      (w &&& ~~~((0xFF : DWord) <<< (8 * i))) ||| (new &&& ((0xFF : DWord) <<< (8 * i)))
    else w) old

/-- The register window: its stores never merge, since each access acts alone (R345). -/
def inWindow (a : Nat) : Bool := decide (2 ^ 50 ≤ a) && decide (a < 2 ^ 50 + 2 ^ 32)

def StageEntry.sameWord (x e : StageEntry) : Bool := x.th == e.th && x.phys == e.phys

/-- A store merges into the thread's untaken entry of the same colour and word (R266). -/
def mergesInto (es : List StageEntry) (e : StageEntry) : Option Nat :=
  if inWindow e.phys then none
  else es.findIdx? fun x => x.sameWord e && x.colour == e.colour && x.taken.isNone && x.key == e.key

/-- Bytes of a word that a thread's entries hold. -/
def stagedMask (es : List StageEntry) (e : StageEntry) : BitVec 8 :=
  es.foldl (fun m y => if y.sameWord e then m ||| y.mask else m) 0

/-- Stage one word of a store. A store that merges gives its bytes to the entry, whose PC stays; later
entries of the thread for the word give those bytes up, so that the latest store prevails (R89,
R267). An entry that lies before one of a lower thread of the same ST for the word moves behind it
(R88). -/
def stageWord (es : List StageEntry) (e : StageEntry) : List StageEntry :=
  match mergesInto es e with
  | some i =>
    match es[i]? with
    | some x =>
      let later := (es.drop (i + 1)).map fun y =>
        if y.sameWord e then { y with mask := y.mask &&& ~~~e.mask } else y
      let merged (keep : BitVec 8) : StageEntry :=
        { x with mask := (x.mask &&& keep) ||| e.mask, data := mergeWord x.data e.data e.mask, pol := e.pol,
                 last := e.last, whole := e.whole }
      if later.any fun y => y.phys == e.phys && y.th != e.th && y.last == e.last then
        es.take i ++ later ++ [merged (~~~(stagedMask later e))]
      else es.take i ++ merged 0xFF :: later
    | none => es ++ [e]
  | none => es ++ [e]

/-- The 8-byte words of a store's bytes, from an address aligned to the access, in a cycle. -/
def storeWords (id : ThreadId) (pc : Word) (colour : Fin 8) (va : DWord) (pa key : Nat)
    (bs : List Byte) (pol : Fin 4) (now : Nat) : List StageEntry :=
  (List.range (ceilDiv bs.length 8)).map fun j =>
    let part := (bs.drop (8 * j)).take 8
    let off := (pa + 8 * j) % 8
    { addr := BitVec.ofNat 64 ((va.toNat + 8 * j) / 8 * 8), phys := (pa + 8 * j) / 8 * 8, key := key,
      mask := pieceMask off part.length,
      data := BitVec.ofNat 64 (leNat part * 2 ^ (8 * off)), colour := colour, th := id, pc := pc,
      taken := none, pol := pol, last := (now, pc), whole := bs.length == 8 }

/-- Stage a store's words in its course's buffer (R89, R266). -/
def State.stage (s : State) (es : List StageEntry) (co : CourseId) : State :=
  s.modCourse co fun c => { c with staging := es.foldl stageWord c.staging }

/-! ## Commits (R267) -/

/-- The untaken entries of a thread that a commit of some colours takes: those of the colours, and
every earlier entry of the thread for the same words. -/
def takesEntry (es : List StageEntry) (id : ThreadId) (mask : BitVec 8) (i : Nat)
    (e : StageEntry) : Bool :=
  e.th == id && e.taken.isNone &&
    ((es.zipIdx.any fun p => decide (i ≤ p.2) && p.1.th == id && p.1.phys == e.phys &&
      p.1.taken.isNone && mask.getLsbD p.1.colour.val))

/-- Earlier atomics of the thread that are not performed yet (R267). -/
def State.atomicBefore (s : State) (id : ThreadId) (n : Nat) : Bool :=
  s.ops.any fun p => decide (p.1 < n) && p.2.th == id &&
    (match p.2.kind with | .atomic .. => true | _ => false)

/-- Earlier commits of the thread's own that have not registered. -/
def State.ownCommitBefore (s : State) (id : ThreadId) (n : Nat) : Bool :=
  match s.course (courseOf id) with
  | some c => c.commits.any fun m => decide (m.id < n) && m.th == some id
  | none => false

/-- Earlier commits that hold entries of the thread and have not registered: its own, and those of its
whole course (R267). -/
def State.commitBefore (s : State) (id : ThreadId) (n : Nat) : Bool :=
  s.ownCommitBefore id n || (match s.course (courseOf id) with
    | some c => c.commits.any fun m => decide (m.id < n) && m.th == none &&
        c.staging.any fun e => e.th == id && e.taken == some m.id
    | none => false)

/-- A commit of the thread's entries of the colours of `mask`. A release that takes none still comes
after the thread's atomics (R267, R270). -/
def State.commitThread (s : State) (id : ThreadId) (mask : BitVec 8) (fence : Bool) : State :=
  match s.course (courseOf id) with
  | none => s
  | some c =>
    let (n, s) := s.fresh
    let es := c.staging.zipIdx.map fun p =>
      if takesEntry c.staging id mask p.2 p.1 then { p.1 with taken := some n } else p.1
    if es = c.staging && !fence && !s.atomicBefore id n then s
    else s.setCourse (courseOf id)
      { c with staging := es, commits := c.commits ++ [⟨n, some id, fence, none⟩] }

/-- REL's commit: every colour (R275). -/
def State.release (s : State) (id : ThreadId) : State := s.commitThread id 0xFF false

/-- A commit of every entry of the course: overflow, retirement (R267, R268). -/
def State.commitCourse (s : State) (co : CourseId) : State :=
  match s.course co with
  | none => s
  | some c =>
    if c.staging.all fun e => e.taken.isSome then s
    else
      let (n, s) := s.fresh
      s.setCourse co
        { c with
          staging := c.staging.map fun e => if e.taken.isNone then { e with taken := some n } else e,
          commits := c.commits ++ [⟨n, none, false, none⟩] }

/-- A thread's cores drop the copies of a line that the thread has just written at home, so that it
never reads an older value (R271). -/
def State.dropLine (s : State) (id : ThreadId) (line : Nat) : State :=
  let core := s.coreOf id
  (s.modCore core fun c => { c with l1 := c.l1.filter fun l => l.line != line }).modDie
    (coreDie core) fun d => { d with rdc := d.rdc.filter fun l => l.line != line }

/-- Write masked bytes of a word at home. -/
def State.writeMasked (s : State) (key phys : Nat) (mask : BitVec 8) (data : DWord) : State :=
  (List.range 8).foldl (fun s i =>
    if mask.getLsbD i then s.writeKeyed key (phys + i) [data.extractLsb' (8 * i) 8] else s) s

/-- What a store to the register window starts (R97, R345, R347): an aligned 8-byte access of a
party that reaches the register; every other one is dropped. -/
def windowEvent (part ctx o : Nat) (full : Bool) (w : DWord) : List Instr :=
  let user := 0x08000000 + 0x10000 * part
  let bell := 0x10000000 + 0x4000000 * part
  if !full then []
  else if o == user then [.collDoorbell part ctx w]
  else if decide (bell ≤ o) && decide (o < bell + 0x4000000) && (o - bell) % 0x10000 == 0 then
    [.doorbellWrite part ((o - bell) / 0x10000) w]
  else []

/-- The thread has exited: it holds no slot, is asleep in no bin and lies in no context image. -/
def State.hasExited (s : State) (id : ThreadId) : Bool :=
  match s.thread id with
  | some t => t.await == .exited
  | none =>
    !((s.course (courseOf id)).any fun c => (tget c.rowPriv id.cthr).isSome) &&
      !(s.ctxs.any fun p => p.2.saved.any fun sv => sv.courses.any fun c => (tget c.threads id).isSome)

/-- An imprecise store fault (R306): one event; the bytes are dropped. -/
def State.storeFault (s : State) (e : StageEntry) (ctx cause : Nat) : State :=
  s.pushEvent (s.partOf ctx)
    { src := s.stagingSrc e.th, va := e.addr.toNat, gts := s.gts, course := e.th.course, pc := e.pc.toNat, ctx := ctx,
      cthr := e.th.cthr, type := 0x03, cls := cause, retired := s.hasExited e.th }

/-- Why an entry cannot register: the cause of its imprecise store fault (R306, R344). -/
def State.storeCause (s : State) (e : StageEntry) : Option Nat :=
  match s.physClass e.phys with
  | .window => none
  | .absent => some 0x3
  | .link _ => if s.keyRevoked e.key then some 0x2 else if s.linkUp then none else some 0x3
  | .hbm => if s.keyRevoked e.key then some 0x2 else if s.isPoisoned e.phys 8 then some 0x1 else none
  | .host => if s.keyRevoked e.key then some 0x2 else if s.isPoisoned e.phys 8 then some 0x1 else none

/-- Register one entry at home (R267, R306). Its line is written back as its policy says (R89), which
changes no value. An entry that later stores have emptied registers nothing. -/
def State.registerEntry (s : State) (ctx : Nat) (e : StageEntry) : State :=
  if e.mask == 0 then s
  else match s.storeCause e with
  | some c => s.storeFault e ctx c
  | none =>
    if s.physClass e.phys = .window then
      { s with inputs := s.inputs ++ windowEvent (s.partOf ctx) ctx (e.phys - 2 ^ 50) e.whole e.data }
    else
      (((s.writeMasked e.key e.phys e.mask e.data).dropLine e.th (e.phys / 128)).fireWatches
        (e.phys / 128)).markL2 (e.phys / 128) (storeMark e.pol.val)

/-- The oldest entry of a commit that meets a write-protected or an absent page (R327, R329). -/
def State.guardedEntry (s : State) (ctx : Nat) (es : List StageEntry) : Option StageEntry :=
  es.find? fun e => s.guarded (s.partOf ctx) e.phys || s.absentPage (s.partOf ctx) e.phys

/-- The dirty bit of each written page, in the partition's snapshots (R327). -/
def State.markDirty (s : State) (part pa : Nat) : State :=
  let mark (n : Snapshot) : Snapshot := { n with dirty := addNew n.dirty (pa / 65536) }
  s.modPart part fun p =>
    { p with snapshot := p.snapshot.map mark, lastSnapshot := p.lastSnapshot.map mark }

/-- Entries that a commit registers: those it took, and for a thread's commit those of the thread that an
earlier commit of the whole course took, so that it comes after them and waits for no other thread's
(R267, R273). -/
def Course.commits_ (c : Course) (m : Commit) (e : StageEntry) : Bool :=
  e.taken == some m.id || (m.th == some e.th && c.commits.any fun x =>
    decide (x.id < m.id) && x.th == none && e.taken == some x.id)

/-- Commands of a course whose acceptance comes now: the commits and atomics before them have registered,
or are deferred to the course's turn (R197, R267, R333). -/
def State.acceptCopies (s : State) (co : CourseId) : State :=
  (s.opsOf co).foldl (fun s p => match p.2.kind with
    | .copy c =>
      if c.seen.isNone && (!s.mayRegister co || (!s.commitBefore p.2.th p.1 && !s.atomicBefore p.2.th p.1)) then
        let (k, s) := s.fresh
        s.modOp p.1 fun o => { o with kind := .copy { c with seen := some (k, s.mem) } }
      else s
    | _ => s) s

/-- Register a commit: its entries in staging order; then the entries leave the buffer, a FENCE's
store counter falls (R276), and where an entry has reached home the course is committed (R335). A
write-protected or absent page stops it on a stage-2 fault (R327, R329). -/
def State.registerCommit (s : State) (co : CourseId) (m : Commit) : State :=
  match s.course co with
  | none => s
  | some c =>
    let es := c.staging.filter (c.commits_ m)
    match s.guardedEntry c.ctx es with
    | some e =>
      if m.stop.isSome then s
      else
        let cause := if s.absentPage (s.partOf c.ctx) e.phys then 1 else 2
        let (tk, s) := s.enterFault true (s.partOf c.ctx) (s.stagingSrc e.th)
          (faultEntry e.addr.toNat s.gts e.th.course e.pc.toNat c.ctx e.th.cthr cause 1 true)
        s.modCourse co fun c => { c with commits := c.commits.map fun x =>
          if x.id == m.id then { x with stop := some tk } else x }
    | none =>
      let home := es.any fun e => e.mask != 0 && (s.storeCause e).isNone
      let s := es.foldl (fun s e => (s.registerEntry c.ctx e).markDirty (s.partOf c.ctx) e.phys) s
      let s := s.modCourse co fun c' =>
        { c' with staging := c'.staging.filter (fun e => !c.commits_ m e),
                  commits := c'.commits.filter (fun x => x.id != m.id),
                  committed := c'.committed || home }
      (match m.fence, m.th with
        | true, some id => s.countDownSaved id .store
        | _, _ => s).acceptCopies co

/-- A commit may register: it is the earliest of its threads, after their earlier atomics, at the
course's turn (R267, R332), and not stopped on a fault or a paused channel (R346). -/
def State.commitReady (s : State) (co : CourseId) (m : Commit) : Bool :=
  match s.course co with
  | none => false
  | some c =>
    s.mayRegister co && m.stop.isNone &&
    (c.staging.all fun e => !c.commits_ m e || !s.requestHeld e.phys) &&
    (match m.th with
      | some id => !s.ownCommitBefore id m.id && !s.atomicBefore id m.id
      | none =>
        (c.commits.all fun x => decide (m.id ≤ x.id)) &&
          (s.threadsOf co).all fun p => !s.atomicBefore p.1 m.id)

/-! ## Barrier and crew order (R270) -/

/-- Some commit of a course that has not registered. -/
def State.commitOpen (s : State) (co : CourseId) (n : Nat) : Bool :=
  match s.course co with
  | some c => c.commits.any fun m => m.id == n
  | none => false

/-- What a thread's arrival or collective brings: its own commits, and those it knows through an
earlier phase or gather. -/
def State.brings (s : State) (id : ThreadId) : List Nat :=
  (match s.course (courseOf id) with
    | some c => c.commits.filterMap fun m => if m.th == none || m.th == some id then some m.id else none
    | none => []) ++
  s.order.known.filterMap fun p =>
    if p.1 == id && s.commitOpen (courseOf id) p.2 then some p.2 else none

/-- A thread's wait is released by a phase or gather that brought these commits. -/
def State.learn (s : State) (id : ThreadId) (ns : List Nat) : State :=
  { s with order := { s.order with
    known := ns.foldl (fun l n => addNew l (id, n))
      (s.order.known.filter fun p => s.commitOpen (courseOf p.1) p.2) } }

/-- Commits that arrivals at the current phase of a barrier brought. -/
def State.bring (s : State) (id : ThreadId) (n : Fin 16) : State :=
  { s with order := { s.order with
    arrived := (s.brings id).foldl (fun l k => addNew l ((courseOf id, n), k))
      (s.order.arrived.filter fun p => s.commitOpen p.1.1 p.2) } }

/-- The phase completes: its arrivals precede the waits that it releases. -/
def State.passPhase (s : State) (co : CourseId) (n : Fin 16) : State :=
  let (now, rest) := s.order.arrived.partition fun p => p.1 == (co, n)
  { s with order := { s.order with
    arrived := rest,
    passed := now.foldl addNew (s.order.passed.filter fun p => s.commitOpen p.1.1 p.2) } }

/-- Commits that the completed phases of a barrier brought. -/
def State.phaseBrought (s : State) (co : CourseId) (n : Fin 16) : List Nat :=
  s.order.passed.filterMap fun p => if p.1 == (co, n) then some p.2 else none

/-- An acquire of the thread waits: a commit of another thread that precedes it in barrier or crew
order has not registered, so that its later loads could miss what that commit holds (R270). -/
def State.acquireHeld (s : State) (id : ThreadId) : Bool :=
  match s.course (courseOf id) with
  | some c => c.commits.any fun m => m.th != some id && s.order.known.any fun p => p == (id, m.id)
  | none => false

/-- Atomics of the same gang and instruction with a lower (`%cthr`, `%cidx`) that are not performed yet: a
gang's operations are numbered in that order (R120, R278). -/
def State.gangBefore (s : State) (n : Nat) (o : Op) : Bool :=
  s.ops.any fun p => decide (p.1 < n) && p.2.issued == o.issued && p.2.pc == o.pc &&
    p.2.gang == o.gang &&
    (match p.2.kind with | .atomic .. => true | _ => false)

/-- An atomic may be performed: after the thread's earlier commits and atomics and the gang's lower
ones, and, where it acquires, after the commits that precede it in barrier or crew order (R267, R270,
R278). -/
def State.atomicReady (s : State) (n : Nat) (o : Op) (acq : Bool) : Bool :=
  !s.commitBefore o.th n && !s.atomicBefore o.th n && !s.gangBefore n o &&
    !(acq && s.acquireHeld o.th) && s.mayRegister (courseOf o.th) &&
    (match o.kind with
      | .atomic _ _ _ _ pa _ _ => !s.requestHeld pa
      | _ => true)

end Sys2Proof.Machine
end

