-- ==== Sys2Proof/Machine/Purlin.lean ====
section
/-! DEFINITION. Purlin.lean: the Purlin table: holders, waits, the cycle walk, the deadlock record
and effective priority (R285 to R290). -/

namespace Sys2Proof.Machine

/-- The die whose table holds an object of a thread (R286). -/
def State.purlinDie (s : State) (obj : PurlinObj) (id : ThreadId) : Nat :=
  match obj with
  | .line _ l =>
    let ds := s.diesPresent
    ds.getD (l % max ds.length 1) 0
  | _ => coreDie (s.coreOf id)

/-- Entries with the tables' die numbers, in order. -/
def State.purlinEntries (s : State) : List (Nat × PurlinEntry) :=
  s.dies.flatMap fun p => p.2.purlin.map fun e => (p.1, e)

/-- Current members of a crew, by rank (R127). -/
def State.crewMembers (s : State) (co : CourseId) (crew : Fin 64) :
    List (Fin 32 × ThreadId × Thread) :=
  sortBy (fun a b => decide (a.1 < b.1)) <|
    (s.threadsOf co).filterMap fun p =>
      (p.2.crews.find? fun c => c.1 == crew).map fun c => (c.2, p.1, p.2)

/-- Courses that hold slots or banks of an engine. -/
def Cluster.owners (c : Cluster) (banks : Bool) : List CourseId :=
  let os := if banks then c.banks.toList.filterMap (·.owner) else c.slots.toList.filterMap (·.owner)
  os.foldl (fun l o => addNew l o.1) []

/-- The holders of an object: for a line those the entry holds; for a crew its members that do not
wait at that PC (R130); for an engine the threads of every course but the waiter's own that holds its
resources (R204); none otherwise (R286). -/
def State.holdersOf (s : State) (e : PurlinEntry) (w : ThreadId) : List ThreadId :=
  match e.obj with
  | .line _ _ => e.holders
  | .crew co crew pc =>
    ((s.crewMembers co crew).filter fun m =>
      !(m.2.2.await == .crew crew && m.2.2.pc == pc)).map fun m => m.2.1
  | .engine cl banks =>
    let cos := ((s.cluster cl).owners banks).filter fun co => co != courseOf w
    let ts := cos.flatMap fun co => ((s.threadsOf co).filter fun p => p.2.await != .exited).map (·.1)
    (sortBy (fun a b => decide (a.course < b.course) ||
      (a.course == b.course && decide (a.cthr < b.cthr))) ts).take 16
  | _ => []

/-- The objects a thread waits on, as registered. -/
def State.waitsOf (s : State) (id : ThreadId) : List PurlinObj :=
  (s.purlinEntries.filter fun e => id ∈ e.2.waiters).map fun e => e.2.obj

/-- The entry of an object. -/
def State.purlinEntry (s : State) (obj : PurlinObj) : Option PurlinEntry :=
  (s.purlinEntries.find? fun e => e.2.obj = obj).map (·.2)

def State.setPurlin (s : State) (die : Nat) (f : List PurlinEntry → List PurlinEntry) : State :=
  s.modDie die fun d => { d with purlin := (f d.purlin).filter fun e =>
    !(e.holders.isEmpty && e.waiters.isEmpty) }

/-- A frame of the cycle walk: holders still to visit, and the path that led to them. -/
abbrev WalkFrame := List ThreadId × List (ThreadId × PurlinObj)

/-- The cycle walk (R288): at most 16 holders; `none` when it finds no cycle. -/
def State.walkFrames (s : State) (t : ThreadId) (hops : Nat) :
    Nat → List WalkFrame → Option (List (ThreadId × PurlinObj))
  | 0, _ => none
  | _, [] => none
  | n + 1, ([], _) :: rest => s.walkFrames t hops n rest
  | n + 1, (h :: hs, path) :: rest =>
    if hops + 1 > 16 then none
    else if h = t then some path
    else
      let next := (s.waitsOf h).filterMap fun o =>
        (s.purlinEntry o).map fun e => (s.holdersOf e h, path ++ [(h, o)])
      s.walkFrames t (hops + 1) n (next ++ (hs, path) :: rest)

/-- Does the wait of a thread on an object close a cycle? -/
def State.closesCycle (s : State) (t : ThreadId) (obj : PurlinObj) :
    Option (List (ThreadId × PurlinObj)) :=
  match s.purlinEntry obj with
  | some e => s.walkFrames t 0 80 [(s.holdersOf e t, [(t, obj)])]
  | none => none

/-- Drop a wait of a thread on an object (R287). -/
def State.dropWait (s : State) (id : ThreadId) (obj : PurlinObj) : State :=
  s.setPurlin (s.purlinDie obj id) fun es => es.map fun e =>
    if e.obj = obj then
      { e with waiters := e.waiters.filter (· != id),
               idleFrom := if e.waiters.all (· == id) then s.gts else e.idleFrom }
    else e

/-- Drop every wait of a thread except a WREG wait, when it stops waiting (R287). -/
def State.dropSleep (s : State) (id : ThreadId) : State :=
  let keep := match s.thread id with
    | some t => t.wreg.map fun l => PurlinObj.line (s.ctxOf id) l
    | none => none
  (s.waitsOf id).foldl (fun s o => if keep = some o then s else s.dropWait id o) s

/-- How registering a wait ends (R287). -/
inductive Registered where
  | entered (s : State)
  | untracked (s : State)
  | trapped

/-- An object whose entry was freed by age has an entry again. -/
def State.forgetExpired (s : State) (die : Nat) (obj : PurlinObj) : State :=
  s.modDie die fun d => { d with expired := d.expired.filter fun o => o != obj }

/-- Enter a wait in the table, without the walk (R286, R287). -/
def State.enterWait (s : State) (id : ThreadId) (obj : PurlinObj) : Registered :=
  let die := s.purlinDie obj id
  let c := s.ctxOf id
  match (s.die die).purlin.find? fun e => e.obj = obj with
  | some _ =>
    .entered (s.setPurlin die fun es => es.map fun e =>
      if e.obj = obj then { e with waiters := addNew e.waiters id } else e)
  | none =>
    if (s.die die).purlin.length ≥ 8192 then
      if (match s.part (s.partOf c) with | some p => p.ovfTrap | none => false) then .trapped
      else .untracked (s.modCtx c fun x => { x with purlinOverflow := x.purlinOverflow + 1 })
    else
      let s := if obj ∈ (s.die die).expired then
        (s.modCtx c fun x => { x with purlinLost := x.purlinLost + 1 }).forgetExpired die obj else s
      .entered (s.setPurlin die fun es => es ++ [⟨obj, [], [id], s.gts⟩])

/-- A line object of a context. -/
def PurlinObj.inCtx (o : PurlinObj) (ctx : Nat) : Bool :=
  match o with
  | .line c _ => c == ctx
  | _ => false

/-- Object word of a deadlock record's entry (R290). -/
def PurlinObj.word : PurlinObj → Nat
  | .line _ l => l * 128 % 2 ^ 64
  | .barrier co b ph => co.course % 2 ^ 32 * 2 ^ 32 + b.val * 256 + ph.toNat
  | .crew _ k pc => pc.toNat * 2 ^ 32 + k.val
  | .engine cl banks => b2n banks * 256 + cl % 256
  | .syscall th => th.course % 2 ^ 32 * 2 ^ 32 + th.cthr % 1024
  | .faultQueue _ => 0

/-- Type of an object (R286). -/
def PurlinObj.otype : PurlinObj → Nat
  | .line _ _ => 1
  | .barrier _ _ _ => 2
  | .crew _ _ _ => 3
  | .engine _ _ => 4
  | .syscall _ => 5
  | .faultQueue _ => 6

/-- An entry of a deadlock record (R290). -/
def State.recordEntry (s : State) (p : ThreadId × PurlinObj) : Nat :=
  p.2.word * 2 ^ 64 + p.2.otype * 2 ^ 60 + s.ctxOf p.1 % 1024 * 2 ^ 50 +
    p.1.course % 2 ^ 32 * 2 ^ 18 + p.1.cthr % 1024 * 2 ^ 8

/-- The 512-byte deadlock record (R290). -/
def State.deadlockRecord (s : State) (path : List (ThreadId × PurlinObj)) : Nat :=
  (path.zipIdx.foldl (fun n p => n + s.recordEntry p.1 * 2 ^ (128 * p.2 + 128)) 0) +
    s.gts % 2 ^ 64 * 2 ^ 64 + path.length % 256 * 2 ^ 56

/-- The ring is set, and its next entry of `size` bytes lies in memory that is there (R290, R344). -/
def State.ringMapped (s : State) (part : Nat) (r : Ring) (size : Nat) : Bool :=
  let a := r.slot r.tail size
  r.set && s.frameOk part a && s.frameOk part (a + size - 1) && !s.absentPage part a &&
    (match s.physClass a with
      | .window => false
      | .link _ => s.linkUp
      | _ => true)

/-- Write the record into the context's deadlock ring; a ring that is unset or unmapped drops it
(R290). -/
def State.writeDeadlock (s : State) (ctx src : Nat) (path : List (ThreadId × PurlinObj)) : State :=
  let p := s.partOf ctx
  match s.part p with
  | some x =>
    if s.ringMapped p x.deadlockQ 512 then
      (s.ringPut x.deadlockQ s.gts src 512 (s.deadlockRecord path)).setPart p
        { x with deadlockQ := x.deadlockQ.more s.gts src }
    else s
  | none => s

/-- Register a wait and run the walk (R287, R288). When a cycle closes, the wait is dropped, the
record written and the deadlock trap delivered to the thread, whose PC stays. `sleep` sets what it
waits on when no cycle closes; the table-full trap stops the thread at the instruction. -/
def State.beginWait (s : State) (id : ThreadId) (obj : PurlinObj) (d : BitVec 8)
    (sleep : Thread → Thread) : Except Trap State :=
  match s.enterWait id obj with
  | .trapped => .error .tableFull
  | .untracked s => .ok (s.modThread id sleep)
  | .entered s' =>
    let s'' := s'.modThread id sleep
    match s''.closesCycle id obj with
    | none => .ok s''
    | some path =>
      .ok (((((s''.modThread id fun t => { t with await := .ready }).dropWait id obj).writeDeadlock
        (s.ctxOf id) (s.srcOf id) path)).deliver id (.take 0x08 0 d 0 false) 1)

/-- HOLD's registration (R285): `none` when the thread already holds four objects. -/
def State.addHold (s : State) (id : ThreadId) (line : Nat) : Option State :=
  match s.thread id with
  | none => none
  | some t =>
    if line ∈ t.holds then some s
    else if t.holds.length ≥ 4 then none
    else
      let c := s.ctxOf id
      let obj := PurlinObj.line c line
      let die := s.purlinDie obj id
      let s := s.setThread id { t with holds := t.holds ++ [line] }
      match (s.die die).purlin.find? fun e => e.obj = obj with
      | some e =>
        if e.holders.length ≥ 16 then
          some (s.modCtx c fun x => { x with purlinLost := x.purlinLost + 1 })
        else some (s.setPurlin die fun es => es.map fun e =>
          if e.obj = obj then { e with holders := addNew e.holders id } else e)
      | none =>
        if (s.die die).purlin.length ≥ 8192 then
          some (s.modCtx c fun x => { x with purlinOverflow := x.purlinOverflow + 1 })
        else some ((s.forgetExpired die obj).setPurlin die fun es => es ++ [⟨obj, [id], [], s.gts⟩])

/-- UNHOLD (R285). -/
def State.dropHold (s : State) (id : ThreadId) (line : Nat) : State :=
  let obj := PurlinObj.line (s.ctxOf id) line
  (s.modThread id fun t => { t with holds := t.holds.filter (· != line) }).setPurlin
    (s.purlinDie obj id) fun es => es.map fun e =>
      if e.obj = obj then { e with holders := e.holders.filter (· != id) } else e

/-- WDROP (R285). -/
def State.dropWreg (s : State) (id : ThreadId) : State :=
  match s.thread id with
  | some t =>
    match t.wreg with
    | some l =>
      let s := s.setThread id { t with wreg := none }
      -- a sleep on the same object keeps its own wait
      if t.await != .ready && t.monitor.any (fun m => m.line == l) then s
      else s.dropWait id (.line (s.ctxOf id) l)
    | none => s
  | none => s

/-- Every hold and wait of a thread ends (R81, R336). -/
def State.dropAll (s : State) (id : ThreadId) : State :=
  let holds := match s.thread id with
    | some t => t.holds
    | none => []
  let s := holds.foldl (fun s l => s.dropHold id l) s
  let s := s.dropWreg id
  (s.waitsOf id).foldl (fun s o => s.dropWait id o) s

/-- Waiters on objects that any of some threads holds. -/
def State.waitersOn (s : State) (hs : List ThreadId) : List ThreadId :=
  (s.purlinEntries.flatMap fun e => e.2.waiters.filter fun w =>
    (s.holdersOf e.2 w).any fun h => h ∈ hs).foldl addNew []

/-- Threads whose priority reaches a thread within some hops (R289). -/
def State.reaches (s : State) : Nat → List ThreadId → List ThreadId
  | 0, hs => hs
  | n + 1, hs => s.reaches n ((s.waitersOn hs).foldl addNew hs)

/-- Effective priority (R289). -/
def State.effPrio (s : State) (id : ThreadId) : Nat :=
  let ids := if s.purlinEntries.isEmpty then [id] else s.reaches 16 [id]
  ids.foldl (fun m i => match s.thread i with
    | some t => max m t.prio.toNat
    | none => m) 0

end Sys2Proof.Machine
end

