-- ==== Sys2Proof/Machine/Contain.lean ====
section
/-! DEFINITION. Contain.lean: claims on an engine (R203, R204), giving up what a course holds (R331
step 3, R336), rollback and reset (R310, R336, R337). -/

namespace Sys2Proof.Machine

/-! ## Engine claims (R203, R204) -/

/-- Course ids and physical indices of the slots or banks that a course holds. -/
def Cluster.held (c : Cluster) (co : CourseId) (banks : Bool) : List (Nat × Nat) :=
  let os := if banks then c.banks.toList.map (·.owner) else c.slots.toList.map (·.owner)
  os.zipIdx.filterMap fun p => match p.1 with
    | some (o, i) => if o = co then some (i, p.2) else none
    | none => none

/-- The physical slot or bank of a course id. -/
def Cluster.physOf (c : Cluster) (co : CourseId) (banks : Bool) (id : Nat) : Option Nat :=
  ((c.held co banks).find? fun p => p.1 == id).map (·.2)

def Cluster.freeOf (c : Cluster) (banks : Bool) : List Nat :=
  if banks then (c.banks.toList.zipIdx.filter fun p => p.1.owner.isNone).map (·.2)
  else (c.slots.toList.zipIdx.filter fun p => p.1.owner.isNone).map (·.2)

def capOf (banks : Bool) : Nat := if banks then 4 else 32

/-- Give a physical slot or bank to a course under an id, fresh (R203). -/
def Cluster.assign (c : Cluster) (co : CourseId) (banks : Bool) (phys id : Nat) : Cluster :=
  if banks then
    if h : phys < 4 then
      { c with banks := c.banks.set phys { Bank.reset with owner := some (co, id) } }
    else c
  else
    if h : phys < 32 then
      { c with slots := c.slots.set phys { EngineSlot.reset with owner := some (co, id) } }
    else c

/-- Claim `n` of the lowest free physical ones under the lowest free course ids: the mask of those
ids, when the engine has `n` free (R204). -/
def Cluster.claim (c : Cluster) (co : CourseId) (banks : Bool) (n : Nat) : Option (Nat × Cluster) :=
  let free := c.freeOf banks
  if free.length < n then none
  else
    let used := (c.held co banks).map (·.1)
    let ids := ((List.range (capOf banks)).filter fun i => i ∉ used).take n
    some (ids.foldl (fun m i => m + 2 ^ i) 0,
      (free.zip ids).foldl (fun c p => c.assign co banks p.1 p.2) c)

/-- Give up a physical slot or bank. -/
def Cluster.giveUp (c : Cluster) (banks : Bool) (phys : Nat) : Cluster :=
  if banks then
    if h : phys < 4 then { c with banks := c.banks.set phys Bank.reset } else c
  else
    if h : phys < 32 then { c with slots := c.slots.set phys EngineSlot.reset } else c

/-- A waiting MCLM with its key: priority, wait start, core, slot (R204). -/
structure ClaimWait where
  id : ThreadId
  n : Nat
  d : Opd
  prio : Nat
  since : Nat
  core : Nat
  slot : Nat

def ClaimWait.before (a b : ClaimWait) : Bool :=
  decide (b.prio < a.prio) || (a.prio == b.prio &&
    (decide (a.since < b.since) || (a.since == b.since &&
      (decide (a.core < b.core) || (a.core == b.core && decide (a.slot < b.slot))))))

/-- Waiters on an engine's slots or banks. -/
def State.claimWaits (s : State) (cl : Nat) (banks : Bool) : List ClaimWait :=
  s.threads.filterMap fun p =>
    match p.2.await with
    | .claim b n d since =>
      let core := s.coreOf p.1
      if b == banks && coreCluster core == cl then
        some ⟨p.1, n, d, s.effPrio p.1, since, core, p.2.slot⟩
      else none
    | _ => none

/-- Serve waiting claims in key order as long as the first can be met (R204). -/
def State.serveClaims (s : State) (cl : Nat) (banks : Bool) : Nat → State
  | 0 => s
  | n + 1 =>
    match leastBy ClaimWait.before (s.claimWaits cl banks) with
    | none => s
    | some w =>
      match (s.cluster cl).claim (courseOf w.id) banks w.n with
      | none => s
      | some (mask, c) =>
        let s := (s.setCluster cl c).modThread w.id fun t =>
          t.setReg w.d ⟨BitVec.ofNat 32 mask, 0⟩
        ((s.dropSleep w.id).wakeNext w.id).serveClaims cl banks n

/-- Serve both kinds of waiters. -/
def State.serveAll (s : State) (cl : Nat) : State :=
  (s.serveClaims cl false s.threads.length).serveClaims cl true s.threads.length

/-! ## Giving up what a course holds (R331, R336) -/

/-- Register bytes that courses on a core hold, leases of the core's rows included (R107, R113). -/
def State.regBytesOn (s : State) (core : Nat) : Nat :=
  let own := sumNat ((s.courses.filter fun p => p.2.core == core).map fun p =>
    p.2.regBytes - p.2.leased)
  match (s.cluster (coreCluster core)).lease with
  | some l => if l.lender == core then own + l.bytes else own
  | none => own

/-- Mirroring: on when the allocated bytes are at most half of the register file (R112). -/
def State.updateMirror (s : State) (core : Nat) : State :=
  s.modCore core fun c =>
    { c with mirror := decide (2 * s.regBytesOn core ≤ c.rf * 65536) }

/-- Take a course's threads out of every run. -/
def Run.without (r : Run) (co : CourseId) : Option Run :=
  let g := r.gang.filter fun id => courseOf id != co
  if g.isEmpty then none else some { r with gang := g }

def Core.without (c : Core) (co : CourseId) : Core :=
  { c with
    slots := c.slots.map fun x => { x with run := x.run.bind fun r => r.without co },
    atomd := c.atomd.filter fun e => courseOf e.th != co }

def Issue.without (g : Issue) (co : CourseId) : Option Issue :=
  let ids := g.gang.filter fun id => courseOf id != co
  if ids.isEmpty then none else some { g with gang := ids }

/-- Release a course: waits, holds and watches, operations, engine resources, ATOMD entries, lease,
thread slots, registers and scratchpad; then waiting claims are served. -/
def State.removeCourse (s : State) (co : CourseId) : State :=
  match s.course co with
  | none => s
  | some c =>
    let cl := coreCluster c.core
    let ids := (s.threadsOf co).map (·.1)
    let s := ids.foldl (fun s id => s.dropAll id) s
    let unsave (sv : Saved) : Saved := { sv with courses := sv.courses.filter fun x => x.id != co }
    let ctxs := s.ctxs.map fun (p : Nat × Context) => (p.1, { p.2 with saved := p.2.saved.map unsave })
    let s := { s with
      ctxs := ctxs,
      threads := s.threads.filter fun p => courseOf p.1 != co,
      ops := s.ops.filter fun p => courseOf p.2.th != co,
      courses := tdel s.courses co,
      dies := s.dies.map fun (p : Nat × Die) =>
        (p.1, { p.2 with watches := p.2.watches.filter fun id => courseOf id != co }),
      issue := s.issue.bind fun g => g.without co }
    let s := s.modCore c.core fun x => x.without co
    let s := s.modCluster cl fun x =>
      { x with
        slots := x.slots.map fun (e : EngineSlot) =>
          if e.owner.any (fun o => o.1 == co) then EngineSlot.reset else e,
        banks := x.banks.map fun (e : Bank) =>
          if e.owner.any (fun o => o.1 == co) then Bank.reset else e,
        entries := x.entries.filter fun e => courseOf e.th != co,
        lease := x.lease.bind fun l => if l.co = co then none else some l }
    (s.updateMirror c.core).serveAll cl

/-! ## Invalid tags (R11) -/

/-- The registers of a thread that hold an invalid tag, ascending. -/
def Thread.badTags (t : Thread) : List (Fin 192) :=
  (List.finRange 192).filter fun i => !tagValid t.regs[i].tag

/-- Clear registers to 0 with tag 0x00. -/
def Thread.clearRegs (t : Thread) (is : List (Fin 192)) : Thread :=
  is.foldl (fun t i => t.setReg (.v i) ⟨0, 0⟩) t

/-- A thread that a restore or a RESUME has given an invalid tag takes the tag fault instead: the fault
names the lowest such register, and those registers are cleared (R11; the rest is the model's choice,
log entry 79). -/
def State.checkTags (s : State) (id : ThreadId) : State :=
  match s.thread id with
  | none => s
  | some t =>
    match t.badTags with
    | [] => s
    | n :: r =>
      let t := t.clearRegs (n :: r)
      match t.await with
      | .exited => s.setThread id t
      | a =>
        let a := match a with
          | .starting c => Await.starting c
          | _ => .ready
        let s := (s.dropSleep id).setThread id { t with await := a }
        { s.deliver id (Trap.tag (.v n)) (Config.freeWord s.free) with free := s.free + 1 }

/-! ## Reset and rollback (R310, R336, R337) -/

/-- The reset rung: the context's courses are discarded, no launch of it ends, and event 0x0B is
written (R310, R116). -/
def State.resetCtx (s : State) (ctx : Nat) : State :=
  match s.ctx ctx with
  | none => s
  | some x =>
    if x.rung = .reset then s
    else
      let cos := (s.courses.filter fun p => p.2.ctx == ctx).map (·.1)
      let s := cos.foldl (fun s co => s.removeCourse co) s
      let s := { s with
        launches := s.launches.filter fun p => p.2.ctx != ctx,
        suspended := s.suspended.filter fun p => p.ctx != ctx,
        dies := s.dies.map fun (p : Nat × Die) =>
          (p.1, { p.2 with expired := p.2.expired.filter fun (o : PurlinObj) => !(o.inCtx ctx) }) }
      let s := s.modCtx ctx fun x =>
        { x with rung := .reset, saved := none, softAt := none, haltAt := none, moveOff := none }
      s.pushEvent x.part { src := s.mapperSrc x.part, gts := s.gts, ctx := ctx, type := 0x0B }

/-- Event 0x0C with the cause in its class field (R337). -/
def State.rollbackEvent (s : State) (co : CourseId) (ctx cause : Nat) (pc : Word) (cthr : Nat) :
    State :=
  s.pushEvent (s.partOf ctx)
    { src := s.mapperSrc (s.partOf ctx), gts := s.gts, course := co.course, pc := pc.toNat, ctx := ctx,
      cthr := cthr, type := 0x0C, cls := cause }

/-- A cause of R337: an eligible course that has been rolled back fewer than three times in this
launch is rolled back (R336); otherwise its context is reset. Cause 0x05 is no error, so it keeps
no cluster away (R336 step 5). -/
def State.courseFailure (s : State) (co : CourseId) (cause : Nat) (pc : Word) (cthr : Nat) : State :=
  match s.course co, s.launch co.launch with
  | some c, some l =>
    let times := (tget l.rollbacks co.course).getD 0
    if c.committed || decide (times ≥ 3) then
      (s.rollbackEvent co c.ctx cause pc cthr).resetCtx c.ctx
    else
      let avoid := if cause == 5 then 208 else coreCluster c.core
      let s := s.removeCourse co
      let s := s.modLaunch co.launch fun l =>
        { l with redo := l.redo ++ [(co.course, avoid)],
                 rollbacks := tput l.rollbacks co.course (times + 1),
                 redoPj := if cause == 5 then l.redoPj else
                   tput l.redoPj co.course (c.charged + c.redo) }
      let s := s.modCtx c.ctx fun x => { x with rollbacks := x.rollbacks + 1 }
      s.rollbackEvent co c.ctx cause pc cthr
  | _, _ => s

/-- A thread read a word that is uncorrectable at home (R337 cause 0x06). -/
def State.readFailure (s : State) (id : ThreadId) : State :=
  match s.thread id with
  | some t => s.courseFailure (courseOf id) 0x06 t.pc id.cthr
  | none => s

/-- The operation waits on a fault-queue entry with access code 0b11 (R189). -/
def State.stopOp (s : State) (n : Nat) (o : Op) (hv : Bool) (cause va : Nat) : State :=
  let ctx := s.ctxOf o.th
  let (tk, s) := s.enterFault hv (s.partOf ctx) (s.srcOf o.th)
    (faultEntry va s.gts o.th.course o.pc.toNat ctx o.th.cthr cause 3 hv)
  s.modOp n fun o => { o with stop := some tk }

end Sys2Proof.Machine
end

