-- ==== Sys2Proof/Machine/Operands.lean ====
section
/-! DEFINITION. Operands.lean: reading and writing operands by type (R50, R63), tag checks (R64,
R156), the registers and tiles that a word names, and the checks of R9 and R12 that need the kernel
descriptor. -/

namespace Sys2Proof.Machine

/-! ## Integer operands (R63) -/

/-- The width of a type. -/
def IntTy.width : IntTy → Nat
  | .n32 => 32
  | .s32 => 32
  | .n64 => 64
  | .s64 => 64
  | .n16 => 16
  | .s16 => 16
  | .n8 => 8
  | .s8 => 8

/-- The low `w` bits of a register field, as an unsigned number; a d pair when `w` is 64. -/
def Thread.rawOpd (t : Thread) (w : Nat) (o : Opd) : Nat :=
  if w == 64 then (t.pair o).toNat else (t.reg o).bits.toNat % 2 ^ w

/-- An immediate taken under R50 at a type. -/
def immValue (ty : IntTy) (i : Word) : Nat :=
  match ty with
  | .n64 => i.toNat
  | .s64 => (i.signExtend 64).toNat
  | ty => i.toNat % 2 ^ IntTy.width ty

/-- src(f, w, s) of a register field. -/
def Thread.srcOpd (t : Thread) (ty : IntTy) (o : Opd) : Int :=
  let n := t.rawOpd (IntTy.width ty) o
  if ty.signed then signedOf (IntTy.width ty) n else n

/-- src(b, w, s), a register or an immediate. -/
def Thread.src (t : Thread) (ty : IntTy) (b : Src) : Int :=
  match b with
  | .reg o => t.srcOpd ty o
  | .imm i =>
    let n := immValue ty i
    if ty.signed then signedOf (IntTy.width ty) n else n

/-- src(b, 32, 0): a count, an index, a number of 32 bits. -/
def Thread.word (t : Thread) (b : Src) : Nat :=
  match b with
  | .reg o => (t.reg o).bits.toNat
  | .imm i => i.toNat

/-- put(d, x, w, s) with tag 0x00. -/
def Thread.put (t : Thread) (ty : IntTy) (d : Opd) (x : Int) : Thread :=
  match ty with
  | .n64 => t.setPair d (BitVec.ofInt 64 x) 0
  | .s64 => t.setPair d (BitVec.ofInt 64 x) 0
  | .n32 => t.setReg d ⟨BitVec.ofInt 32 x, 0⟩
  | .s32 => t.setReg d ⟨BitVec.ofInt 32 x, 0⟩
  | .n16 => t.setReg d ⟨(BitVec.ofInt 16 x).setWidth 32, 0⟩
  | .s16 => t.setReg d ⟨(BitVec.ofInt 16 x).signExtend 32, 0⟩
  | .n8 => t.setReg d ⟨(BitVec.ofInt 8 x).setWidth 32, 0⟩
  | .s8 => t.setReg d ⟨(BitVec.ofInt 8 x).signExtend 32, 0⟩

/-! ## Tag checks -/

/-- A v register or d pair must carry a tag (R10). -/
def Thread.need (t : Thread) (wide : Bool) (o : Opd) (tag : Tag) : Except Trap Unit :=
  if (if wide then t.pairHasTag o tag else t.hasTag o tag) then .ok () else .error (.tag o)

/-- The same of operand b; an immediate never fails (R50). -/
def Thread.needSrc (t : Thread) (wide : Bool) (b : Src) (tag : Tag) : Except Trap Unit :=
  match b with
  | .reg o => t.need wide o tag
  | .imm _ => .ok ()

/-- Every register of a span must carry a tag; the fault names the field that starts the span
(R298). -/
def Thread.needAll (t : Thread) (tag : Tag) (field : Opd) (l : List Opd) : Except Trap Unit :=
  if l.all fun o => t.hasTag o tag then .ok () else .error (.tag field)

/-- Consecutive registers from a field. -/
def Opd.span (o : Opd) (n : Nat) : List Opd := (List.range n).map fun i => Opd.plus o i

/-! ## The registers and tiles a word names -/

/-- A register field: its first register, how many it spans, and whether it is written. -/
structure Field where
  o : Opd
  n : Nat
  w : Bool

def fldR (o : Opd) (n : Nat) : Field := ⟨o, n, false⟩

def fldW (o : Opd) (n : Nat) : Field := ⟨o, n, true⟩

def srcFields (b : Src) (n : Nat) : List Field :=
  match b with
  | .reg o => [fldR o n]
  | .imm _ => []

def wideN (w : Bool) : Nat := if w then 2 else 1

def IntOp.fields (x : IntOp) (wb : Nat) : List Field :=
  [fldW x.d (wideN x.ty.wide), fldR x.a (wideN x.ty.wide)] ++ srcFields x.b wb

def IntOp3.fields (x : IntOp3) (wd wa wb wc : Nat) : List Field :=
  [fldW x.d wd, fldR x.a wa, fldR x.c wc] ++ srcFields x.b wb

def IntUn.fields (x : IntUn) (wd : Nat) : List Field :=
  [fldW x.d wd, fldR x.a (wideN x.ty.wide)]

/-- Registers that a width code moves (R83). -/
def Width.regs : Width → Nat
  | .b1 => 1
  | .b2 => 1
  | .b4 => 1
  | .b8 => 2
  | .b16 => 4

/-- Bytes that a width code moves (R55). -/
def Width.bytes : Width → Nat
  | .b1 => 1
  | .b2 => 2
  | .b4 => 4
  | .b8 => 8
  | .b16 => 16

def LoadOp.fields (x : LoadOp) (wa : Nat) : List Field :=
  [fldW x.d (Width.regs x.width), fldR x.a wa]

def StoreOp.fields (x : StoreOp) (wa : Nat) : List Field :=
  [fldR x.b (Width.regs x.width), fldR x.a wa]

def FOp.fields (x : FOp) : List Field := [fldW x.d 1, fldR x.a 1] ++ srcFields x.b 1

def FUn.fields (x : FUn) (wd wa : Nat) : List Field := [fldW x.d wd, fldR x.a wa]

def DOp.fields (x : DOp) : List Field := [fldW x.d 2, fldR x.a 2, fldR x.b 2]

/-- Registers of a ray span (R224) and of a hit span (R225). -/
def rayRegs (f64 : Bool) : Nat := if f64 then 17 else 9

def hitRegs (f64 : Bool) : Nat := if f64 then 8 else 5

/-- The register and tile fields of a word. -/
def Instr.fields : Instr → List Field
  | .iadd x => IntOp.fields x (wideN x.ty.wide)
  | .isub x => IntOp.fields x (wideN x.ty.wide)
  | .imin x => IntOp.fields x (wideN x.ty.wide)
  | .imax x => IntOp.fields x (wideN x.ty.wide)
  | .iabs x => IntUn.fields x (wideN x.ty.wide)
  | .and x => IntOp.fields x (wideN x.ty.wide)
  | .or x => IntOp.fields x (wideN x.ty.wide)
  | .xor x => IntOp.fields x (wideN x.ty.wide)
  | .not x => IntUn.fields x (wideN x.ty.wide)
  | .andn x => IntOp.fields x (wideN x.ty.wide)
  | .shl x => IntOp.fields x 1
  | .shr x => IntOp.fields x 1
  | .sar x => IntOp.fields x 1
  | .rol x => IntOp.fields x 1
  | .bfx x => IntOp.fields x 1
  | .bfi x => IntOp3.fields x (wideN x.ty.wide) (wideN x.ty.wide) 1 (wideN x.ty.wide)
  | .prmt x => IntOp3.fields x 1 1 1 1
  | .mov x => IntUn.fields x (wideN x.ty.wide)
  | .movi x => [fldW x.d (wideN x.ty.wide)]
  | .movhi x => [fldW x.d (wideN x.ty.wide)]
  | .addpchi x => [fldW x.d 2]
  | .lea x => [fldW x.d 2, fldR x.a 2]
  | .imul x => IntOp.fields x (wideN x.ty.wide)
  | .imulh x => IntOp.fields x (wideN x.ty.wide)
  | .imad x => IntOp3.fields x (wideN x.ty.wide) (wideN x.ty.wide) (wideN x.ty.wide) (wideN x.ty.wide)
  | .imadw x => IntOp3.fields x 2 1 1 2
  | .idiv x => IntOp.fields x (wideN x.ty.wide)
  | .irem x => IntOp.fields x (wideN x.ty.wide)
  | .popc x => IntUn.fields x 1
  | .clz x => IntUn.fields x 1
  | .ctz x => IntUn.fields x 1
  | .brev x => IntUn.fields x (wideN x.ty.wide)
  | .icmp x => fldR x.a (wideN x.ty.wide) :: srcFields x.b (wideN x.ty.wide)
  | .sel x => [fldW x.d (wideN x.ty.wide), fldR x.a (wideN x.ty.wide)] ++
      srcFields x.b (wideN x.ty.wide)
  | .plop _ => []
  | .pmov x => match x.dir with
    | .toReg d => [fldW d 1]
    | .fromReg a _ => [fldR a 1]
  | .pset _ => []
  | .bra _ => []
  | .brx x => [fldR x.a 2]
  | .call _ => []
  | .callx x => [fldR x.a 2]
  | .ret _ => []
  | .exit _ => []
  | .nop _ => []
  | .ld x => LoadOp.fields x 2
  | .st x => StoreOp.fields x 2
  | .lds x => LoadOp.fields x 1
  | .sts x => StoreOp.fields x 1
  | .ldc x => LoadOp.fields x 2
  | .ldp x => LoadOp.fields x 1
  | .stp x => StoreOp.fields x 1
  | .pref x => [fldR x.a 2]
  | .acq _ => []
  | .rel _ => []
  | .fence _ => []
  | .atom x => [fldW x.d (wideN x.ty.wide), fldR x.a 2, fldR x.b (wideN x.ty.wide)]
  | .cas x => [fldW x.d (wideN x.ty.wide), fldR x.a 2, fldR x.b (wideN x.ty.wide),
      fldR x.c (wideN x.ty.wide)]
  | .atomd x => [fldR x.a 2, fldR x.b (wideN x.ty.wide)]
  | .dflush _ => []
  | .fadd x => FOp.fields x
  | .fsub x => FOp.fields x
  | .fmul x => FOp.fields x
  | .ffma x => [fldW x.d 1, fldR x.a 1, fldR x.c 1] ++ srcFields x.b 1
  | .fmin x => FOp.fields x
  | .fmax x => FOp.fields x
  | .fcmp x => fldR x.a 1 :: srcFields x.b 1
  | .fclass x => FUn.fields x 1 1
  | .fdiv x => FOp.fields x
  | .fsqrt x => FUn.fields x 1 1
  | .fdot4 x => [fldW x.d 1, fldR x.a 1, fldR x.b 1, fldR x.c 1]
  | .dadd x => DOp.fields x
  | .dsub x => DOp.fields x
  | .dmul x => DOp.fields x
  | .dfma x => [fldW x.d 2, fldR x.a 2, fldR x.b 2, fldR x.c 2]
  | .dmin x => DOp.fields x
  | .dmax x => DOp.fields x
  | .dcmp x => [fldR x.a 2, fldR x.b 2]
  | .ddiv x => DOp.fields x
  | .dsqrt x => FUn.fields x 2 2
  | .dclass x => FUn.fields x 1 2
  | .cvt x => [fldW x.d 1, fldR x.a 1, fldR x.b 1]
  | .cvts x => [fldW x.d 1, fldR x.a 1, fldR x.b 1]
  | .cvti x =>
    if x.toFloat then [fldW x.d (wideN (x.fmt == 0x40)), fldR x.a (wideN x.ty.wide)]
    else [fldW x.d (wideN x.ty.wide), fldR x.a (wideN (x.fmt == 0x40))]
  | .tagset x => [fldW x.d (wideN (x.fmt == 0x40)), fldR x.a (wideN (x.fmt == 0x40)), fldR x.b 1]
  | .tagget x => [fldW x.d 1, fldR x.a 1]
  | .fexp2 x => FUn.fields x 1 1
  | .flog2 x => FUn.fields x 1 1
  | .frcp x => FUn.fields x 1 1
  | .frsq x => FUn.fields x 1 1
  | .fsin x => FUn.fields x 1 1
  | .fcos x => FUn.fields x 1 1
  | .ftanh x => FUn.fields x 1 1
  | .fsigm x => FUn.fields x 1 1
  | .fgelu x => FUn.fields x 1 1
  | .rmsn x => [fldW x.d 1, fldR x.a 1, fldR x.b 1, fldR x.c 1]
  | .smax x => [fldW x.d 2, fldR x.a 1, fldR x.b 1]
  | .rowsum x => [fldW x.d 1, fldR x.a 1, fldR x.b 1]
  | .rowscale x => [fldW x.d 1, fldR x.a 1, fldR x.b 1, fldR x.c 2]
  | .join x => fldW x.d 1 :: srcFields x.b 1
  | .leave x => srcFields x.b 1
  | .crew x => fldW x.d 1 :: srcFields x.b 1
  | .shfl x => [fldW x.d (wideN x.wide), fldR x.a (wideN x.wide)] ++ srcFields x.b 1
  | .vote x => match x.dst with
    | .ballot d => [fldW d 1]
    | _ => []
  | .cred x => [fldW x.d (wideN x.ty.wide), fldR x.a (wideN x.ty.wide)]
  | .cscan x => [fldW x.d (wideN x.ty.wide), fldR x.a (wideN x.ty.wide)]
  | .binit x => srcFields x.b 1
  | .barv x => [fldW x.d 1]
  | .bwait x => [fldR x.b 1]
  | .bsync _ => []
  | .cpy x => [fldR x.a 2, fldR x.b 1, fldW x.c 1]
  | .cpyx x => [fldR x.a 2, fldR x.b 1, fldW x.c 1]
  | .cpyo x => [fldR x.a 2, fldR x.b 1, fldR x.c 1]
  | .publ x => [fldR x.a 2, fldR x.b 1]
  | .cpq x => [fldW x.d 1]
  | .wait _ => []
  | .mclm x => fldW x.d 1 :: srcFields x.b 1
  | .mrel x => srcFields x.b 1
  | .mlds x => [fldR x.d 1, fldR x.a 1]
  | .mpost x => [fldR x.a 1]
  | .macc x => [fldW x.d 1, fldR x.a 1, fldR x.b 1]
  | .mzero x => srcFields x.b 1
  | .trace x => [fldW x.d (hitRegs x.f64), fldR x.a 2, fldR x.b (rayRegs x.f64), fldR x.c 2]
  | .tracec x => [fldW x.d (hitRegs x.f64), fldR x.c 2]
  | .replay x => [fldW x.d (hitRegs x.f64), fldR x.a 2, fldR x.b (rayRegs x.f64), fldR x.c 2]
  | .hitq x => [fldW x.d (match x.query with
      | .pos => if x.f64 then 6 else 3
      | .nrm => if x.f64 then 6 else 3
      | .record => 2
      | .user => 1), fldR x.a 2, fldR x.b (hitRegs x.f64)]
  | .asph x => [fldW x.d (hitRegs x.f64), fldR x.a 2, fldR x.b (rayRegs x.f64)]
  | .trix x => [fldW x.d (hitRegs x.f64), fldR x.a 2, fldR x.b (rayRegs x.f64)]
  | .boxx x => [fldW x.d 2, fldR x.a 2, fldR x.b (rayRegs x.f64)]
  | .kclr _ => []
  | .klobe x => fldR x.a 4 :: (match x.lobe with
      | .cond => [fldR x.b 4]
      | .diel => [fldR x.b 2]
      | _ => [])
  | .knet x => [fldR x.a 4, fldR x.b 2]
  | .kadd _ => []
  | .kmix x => [fldR x.c 1]
  | .kcoat x => [fldR x.c 3]
  | .kscl x => [fldR x.a 4]
  | .ksample x => [fldW x.d 9, fldR x.b 6]
  | .keval x => [fldW x.d 4, fldR x.b 6]
  | .kpdf x => [fldW x.d 1, fldR x.b 6]
  | .kspill x => [fldR x.b 1]
  | .kfill _ => []
  | .kinfo x => [fldW x.d 1]
  | .yieldb x => srcFields x.bin 1
  | .resume x => fldW x.d 1 :: srcFields x.b 1
  | .wake x => [fldR x.a 1, fldR x.b 1]
  | .binq x => [fldW x.d 1, fldR x.a 2, fldR x.b 1]
  | .tsort x => [fldR x.b 1]
  | .tcomp x => [fldR x.a 1]
  | .monitor x => [fldR x.a 2]
  | .mwait x => fldW x.d 1 :: srcFields x.b 1
  | .hold x => [fldR x.a 2]
  | .unhold x => [fldR x.a 2]
  | .wreg x => [fldR x.a 2]
  | .wdrop _ => []
  | .sysc _ => [fldW (.v 0) 1, fldW (.v 1) 1]
  | .tfence _ => []
  | .tret _ => []
  | .trap _ => []
  | .sread x => [fldW x.d (wideN (sregWide x.reg.toNat)), fldR x.a 1]
  | .swrite x => [fldR x.a 1]
  | .launch x => [fldW x.d 2, fldR x.a 2, fldR x.b 1]
  | .nopre _ => []
  | .bkpt _ => []
  | _ => []

/-- v registers that a word names, with whether it writes them. -/
def Instr.vRegs (i : Instr) : List (Nat × Bool) :=
  (Instr.fields i).flatMap fun f => match f.o with
    | .v n => (List.range f.n).map fun k => (n.val + k, f.w)
    | _ => []

/-- t registers that a word names, with whether it writes them. -/
def Instr.tRegs (i : Instr) : List (Fin 8 × Bool) :=
  (Instr.fields i).filterMap fun f => match f.o with
    | .t n => some (n, f.w)
    | _ => none

/-- SYSC's v0 and v1 are written only where they exist (R307); every other field must exist. -/
def Instr.implicitRegs : Instr → Bool
  | .sysc _ => true
  | _ => false

/-- The checks of R9 and R12 that need the kernel descriptor: every v register lies below the
register count and every t register below the tile count. -/
def Instr.fits (k : KDesc) (i : Instr) : Bool :=
  (Instr.implicitRegs i || (Instr.vRegs i).all fun r => decide (r.1 < k.regs)) &&
    (Instr.tRegs i).all fun t => decide (t.1.val < k.tiles)

/-! ## Registers that outstanding operations will write (R86) -/

/-- The v registers named by written fields. -/
def Instr.destRegs (i : Instr) : List Nat :=
  (Instr.vRegs i).filterMap fun r => if r.2 then some r.1 else none

/-- Destinations of an operation that has not landed. -/
def OpKind.dests : OpKind → List Nat
  | .load ws => ws.map (·.1)
  | .divide ws _ => ws.map (·.1)
  | .atomic ty _ d _ _ _ _ =>
    match d with
    | .v n => if ty.wide then [n.val, n.val + 1] else [n.val]
    | _ => []
  | .row i _ _ => Instr.destRegs i
  | .traverse i _ _ _ _ => Instr.destRegs i
  | .closure i _ _ => Instr.destRegs i
  | _ => []

/-- The registers of a thread that outstanding operations will write. -/
def State.pendingRegs (s : State) (id : ThreadId) : List Nat :=
  (s.opsOfThread id).flatMap fun p => p.2.kind.dests

/-! ## Loads and stores of registers (R87) -/

/-- The register writes of a loaded value (R83, R87). -/
def loadWrites (w : Width) (sext : Bool) (fmt : Tag) (d : Opd) (bs : List Byte) :
    List (Nat × VReg) :=
  match d with
  | .v n =>
    match w with
    | .b1 =>
      let b := BitVec.ofNat 8 (leNat bs)
      [(n.val, ⟨if sext then b.signExtend 32 else b.setWidth 32, fmt⟩)]
    | .b2 =>
      let b := BitVec.ofNat 16 (leNat bs)
      [(n.val, ⟨if sext then b.signExtend 32 else b.setWidth 32, fmt⟩)]
    | w => (List.range (Width.regs w)).map fun i =>
        (n.val + i, ⟨BitVec.ofNat 32 (leNat ((bs.drop (4 * i)).take 4)), fmt⟩)
  | _ => []

/-- Write registers by number. -/
def Thread.writeRegs (t : Thread) : List (Nat × VReg) → Thread
  | [] => t
  | (n, r) :: ws =>
    if h : n < 192 then ({ t with regs := t.regs.set n r }).writeRegs ws else t.writeRegs ws

/-- A store's bytes (R83, R87). -/
def Thread.storeBytes (t : Thread) (w : Width) (o : Opd) : List Byte :=
  (toLE (((Opd.span o 4).zipIdx.foldl (fun n p => n + (t.reg p.1).bits.toNat * 2 ^ (32 * p.2)) 0))
    (Width.bytes w))

/-- A store's data passes its check (R87). -/
def Thread.needData (t : Thread) (w : Width) (fmt : Tag) (o : Opd) : Except Trap Unit :=
  if tagClass fmt == 0 || o == .zero then .ok ()
  else if (Opd.span o (Width.regs w)).all fun r => (t.reg r).tag == fmt then .ok ()
  else .error (.tag o)

end Sys2Proof.Machine
end

