-- ==== Sys2Proof/Machine/Issue.lean ====
section
/-! DEFINITION. Issue.lean: fetch (R31, R60), what holds a word in the collector (R86, R124, R175,
R199, R213), the picker and the slots' turns (R118 to R122, R137 to R139), and the end of a run
(R62). -/

namespace Sys2Proof.Machine

/-! ## Tiles as instructions see them (R124) -/

/-- The value a tile has for an instruction that issues now: the newest write at least four cycles
old. -/
def TileReg.seen (r : TileReg) (now : Nat) : Tile :=
  match r.recent.find? fun w => decide (w.cycle + 4 ≤ now) with
  | some w => w.tile
  | none => r.base

/-- The newest value, that of every write made. -/
def TileReg.latest (r : TileReg) : Tile :=
  match r.recent with
  | w :: _ => w.tile
  | [] => r.base

/-- The value a thread's instruction reads: writes of earlier threads of the same instruction are
seen (R124), others when they are four cycles old. -/
def TileReg.readBy (r : TileReg) (now : Nat) : Tile :=
  match r.recent with
  | w :: _ => if w.cycle == now then w.tile else r.seen now
  | [] => r.base

/-- Add a write; older values that everyone sees are folded into the base. -/
def TileReg.write (r : TileReg) (w : TileWrite) : TileReg :=
  let newer := r.recent.filter fun x => decide (w.cycle < x.cycle + 4) && x.cycle != w.cycle
  let same := r.recent.filter fun x => x.cycle == w.cycle
  let w := { w with writers := same.foldl (fun l x => x.writers.foldl addNew l) w.writers,
                    readersWait := w.readersWait || same.any (·.readersWait),
                    writersWait := w.writersWait || same.any (·.writersWait) }
  { base := r.seen w.cycle, recent := w :: newer }

/-- A tile of a thread's course. -/
def State.tileReg (s : State) (id : ThreadId) (n : Fin 8) : Option TileReg :=
  match s.course (courseOf id) with
  | some c => c.tiles[n.val]?
  | none => none

def State.readTile (s : State) (id : ThreadId) (n : Fin 8) : Tile :=
  match s.tileReg id n with
  | some r => r.readBy s.cycle
  | none => ⟨0, []⟩

/-- Write a tile in this cycle. -/
def State.writeTile (s : State) (id : ThreadId) (n : Fin 8) (t : Tile) (readers writers : Bool) :
    State :=
  s.modCourse (courseOf id) fun c =>
    match c.tiles[n.val]? with
    | some r => { c with tiles := setAt c.tiles n.val (r.write ⟨s.cycle, [id], t, readers, writers⟩) }
    | none => c

/-! ## What holds a word at issue -/

/-- Recent writes of the tile make the thread wait: its own always, and every thread's where the
entry says so (R124, R175, R199, R213). -/
def tileRecent (r : TileReg) (id : ThreadId) (write : Bool) (now : Nat) : Bool :=
  r.recent.any fun w => decide (now < w.cycle + 4) &&
    (decide (id ∈ w.writers) || (if write then w.writersWait else w.readersWait))

/-- Operations of the course that hold a tile: row operations, copies, MLDS and MACC. -/
def State.tileBusy (s : State) (co : CourseId) (n : Fin 8) (write : Bool) : Bool :=
  ((s.opsOf co).any fun p =>
    match p.2.kind with
    | .row i _ _ =>
      (Instr.tRegs i).any fun t => t.1 == n && (t.2 || write)
    | .copy c => c.side == .tile n && (c.kind != .cpyo || write)
    | .mlds _ _ _ _ _ src => src == .tile n && write
    | _ => false) ||
  (match s.course co with
    | some c => (s.cluster (coreCluster c.core)).entries.any fun e =>
        courseOf e.th == co && (match e.kind with
          | .macc t _ _ _ _ => t == n
          | _ => false)
    | none => false)

/-- A word waits for the tiles it names. -/
def State.tileHeld (s : State) (id : ThreadId) (i : Instr) : Bool :=
  (Instr.tRegs i).any fun t =>
    s.tileBusy (courseOf id) t.1 t.2 ||
    (match s.tileReg id t.1 with
      | some r => tileRecent r id t.2 s.cycle
      | none => false)

/-- Registers of CVT's source span and destination span, by the source's tag (R166). -/
def cvtSpans (s : Tag) (x : CvtOp) : List Nat × List Nat :=
  let unitN (tag : Tag) : Nat := match tagClass tag with
    | 3 => 2
    | 4 => 2
    | 5 => 4
    | 6 => 4
    | _ => 1
  let regs (tag : Tag) (n : Nat) : Nat :=
    if tagClass tag == 2 then 2 * n else n / unitN tag
  let n := max (unitN s) (unitN x.fmt)
  let span (o : Opd) (k : Nat) : List Nat := match o with
    | .v m => (List.range k).map (m.val + ·)
    | _ => []
  (span x.a (regs s n), span x.d (regs x.fmt n))

def cvtRegsOf (s : Tag) (x : CvtOp) : List Nat := (cvtSpans s x).1 ++ (cvtSpans s x).2

/-- Dimensions that a copy's record names, as its thread reads it (R192); 0 where it cannot be read. -/
def State.recordDims (s : State) (id : ThreadId) (va : DWord) : Nat :=
  match s.translateFor id va .copy with
  | .error _ => 0
  | .ok (pa, key, s) =>
    let es := match s.course (courseOf id) with
      | some c => c.staging
      | none => []
    bits (leNat (overlayStaged es id pa (s.readKeyed key pa 64))) 402 400

/-- v registers from a field. -/
def Opd.numbers (o : Opd) (n : Nat) : List Nat :=
  match o with
  | .v k => (List.range n).map (k.val + ·)
  | _ => []

/-- v registers that hold a word in the collector (R86): those that its fields name, or that its execution
finds it to name: CVT's spans, and its scale only for a `.x32` source (R166); the pairs of a dynamic
TAGSET to FP64 (R168); a copy's coordinates (R195). -/
def State.waitRegs (s : State) (id : ThreadId) (t : Thread) (i : Instr) : List Nat :=
  let named := (Instr.vRegs i).map (·.1)
  match i with
  | .cvt x => cvtRegsOf (t.reg x.a).tag x ++ (if tagClass (t.reg x.a).tag == 6 then Opd.numbers x.b 1 else [])
  | .tagset x =>
    if x.b != .zero && (t.reg x.b).bits.setWidth 8 == (0x40 : Tag) then
      named ++ Opd.numbers x.d 2 ++ Opd.numbers x.a 2
    else named
  | .cpy x => named ++ Opd.numbers x.b (s.recordDims id (t.pair x.a))
  | .cpyo x => named ++ Opd.numbers x.b (s.recordDims id (t.pair x.a))
  | .cpyx x => named ++
      Opd.numbers x.b (s.recordDims id (t.pair x.a) + s.recordDims id (t.pair x.a + 64))
  | _ => named

/-- Flags of earlier instructions are still to come (R175, R213, R278, R300). -/
def State.flagsPending (s : State) (id : ThreadId) (all : Bool) : Bool :=
  ((s.opsOfThread id).any fun p =>
    match p.2.kind with
    | .row _ _ _ => true
    | .divide _ _ => true
    | .atomic ty _ _ _ _ _ _ => all && ty.float
    | _ => false) ||
  (all && (s.cluster (coreCluster (s.coreOf id))).entries.any fun e =>
    e.th == id && (match e.kind with | .macc .. => true | _ => false))

/-- A word waits for flags: TFENCE for every one, SREAD and SWRITE of `%fflags` and `%trapfpc` for
those of row operations and divisions, and for float atomics and MACC too, since they include the
flags of every earlier instruction, and their capture (R17, R175, R300). -/
def State.flagHeld (s : State) (id : ThreadId) : Instr → Bool
  | .tfence _ => s.flagsPending id true
  | .sread x => (x.reg == 0x0D || x.reg == 0x11) && s.flagsPending id true
  | .swrite x => (x.reg == 0x0D || x.reg == 0x11) && s.flagsPending id true
  | _ => false

/-- Words whose unit reads memory as loads of the issuing thread (R228, R259). -/
def Instr.unitLoads : Instr → Bool
  | .trace _ => true
  | .tracec _ => true
  | .replay _ => true
  | .hitq _ => true
  | .asph _ => true
  | .trix _ => true
  | .boxx _ => true
  | .ksample _ => true
  | .keval _ => true
  | .kpdf _ => true
  | _ => false

/-- Words that load, and ACQ: an acquiring atomic holds them (R278). -/
def Instr.loads : Instr → Bool
  | .ld _ => true
  | .lds _ => true
  | .ldc _ => true
  | .ldp _ => true
  | .acq _ => true
  | i => Instr.unitLoads i

/-- An atomic of the thread on some of `n` bytes from an address is not performed yet: a load of the
thread comes after it in program order, and reads its result (R270, R271). -/
def State.ownAtomic (s : State) (id : ThreadId) (va n : Nat) : Bool :=
  (s.opsOfThread id).any fun p => match p.2.kind with
    | .atomic ty _ _ a _ _ _ =>
      decide (va < a.toNat + (if ty.wide then 8 else 4)) && decide (a.toNat < va + n)
    | _ => false

/-- A word is held in the collector for a thread: a register that an outstanding operation will
write, a tile, or flags. After an acquiring atomic, loads, atomics and ACQ wait until it returns
(R278). A load waits for the thread's own atomics, which precede it in program order, and ACQ for the
commits before it in barrier or crew order (R270). -/
def State.collectorHeld (s : State) (id : ThreadId) (t : Thread) (i : Instr) : Bool :=
  let pend := s.pendingRegs id
  let acqOut := (s.opsOfThread id).any fun p => match p.2.kind with
    | .atomic _ _ _ _ _ _ acq => acq
    | _ => false
  ((!pend.isEmpty && (s.waitRegs id t i).any fun n => decide (n ∈ pend))) ||
  s.tileHeld id i || s.flagHeld id i ||
  (acqOut && (Instr.loads i || (match i with
    | .atom _ => true
    | .cas _ => true
    | .atomd _ => true
    | _ => false))) ||
  (match i with
    | .ld x => s.ownAtomic id ((t.pair x.a + sext64 x.off).toNat) (Width.bytes x.width)
    | .acq _ => s.acquireHeld id
    | _ => Instr.unitLoads i && s.atomicBefore id s.nextId)

/-- The guard of a word. -/
def Instr.ctl : Instr → Option Ctl
  | i => (encodeRaw i).map Raw.ctl

/-- Some thread whose guard is true holds the word. -/
def State.heldAtIssue (s : State) (i : Instr) : Bool :=
  match Instr.ctl i with
  | none => false
  | some c => (s.active c).any fun p => s.collectorHeld p.1 p.2 i

/-! ## Fetch (R31, R60) -/

/-- Outcome of a fetch. -/
inductive Fetched where
  | word (w : IWord)
  | fault (t : Trap)
  | poisoned

/-- The 12 bytes at a PC, as the launch's code stood when its packet was accepted. -/
def State.fetch (s : State) (id : ThreadId) (pc : Word) : Fetched × State :=
  match s.launch id.launch with
  | none => (.poisoned, s)
  | some l =>
    let a := l.kd.codeBase + 12 * pc.setWidth 64
    let core := s.coreOf id
    match s.translate core l.ctx a .exec with
    | (.error (hv, c), s) => (.fault (.memory hv c 2 a), s)
    | (.ok (pa, key), s) =>
      match s.translate core l.ctx (a + 11) .exec with
      | (.error (hv, c), s) => (.fault (.memory hv c 2 (a + 11)), s)
      | (.ok (pb, keyb), s) =>
        if s.isPoisoned pa 1 || s.isPoisoned pb 1 then (.poisoned, s)
        else
          let code : State := { s with mem := l.code, units := l.codeKeys }
          let n := if a.toNat / 65536 == (a + 11).toNat / 65536 then 12
            else 65536 - a.toNat % 65536
          (.word (wordOfBytes (code.readKeyed key pa n ++
            code.readKeyed keyb (pb + 1 - (12 - n)) (12 - n))), s)

/-! ## Runs (R62, R118) -/

/-- Words that always end a run (R62). -/
def Instr.endsRun : Instr → Bool
  | .bra _ => true
  | .brx _ => true
  | .call _ => true
  | .callx _ => true
  | .ret _ => true
  | .exit _ => true
  | .wait _ => true
  | .shfl _ => true
  | .vote _ => true
  | .cred _ => true
  | .cscan _ => true
  | .bwait _ => true
  | .bsync _ => true
  | .yieldb _ => true
  | .sysc _ => true
  | .tfence _ => true
  | .tret _ => true
  | .trap _ => true
  | .bkpt _ => true
  | _ => false

/-- The word's bnd hint (R54). -/
def Instr.bnd (i : Instr) : Bool :=
  match Instr.ctl i with
  | some c => c.bnd
  | none => false

/-- The run ends after the word: bnd is set, it always ends a run, or some thread of the gang entered
or left its handler (R62). -/
def State.runEnds (s t : State) (g : Issue) (i : Instr) : Bool :=
  Instr.bnd i || Instr.endsRun i || g.gang.any fun id =>
    (s.thread id).map (·.inHandler) != (t.thread id).map (·.inHandler)

/-- A thread of the gang goes on in the run: ready, at the next PC. -/
def State.goesOn (s : State) (pc : Word) (id : ThreadId) : Bool :=
  match s.thread id with
  | some t => t.await == .ready && t.pc == pc + 1
  | none => false

/-- A thread whose fault finds the queue full registers a wait (R190, R286). -/
def State.waitRoom (s : State) (id : ThreadId) : State :=
  match s.thread id with
  | some t =>
    match t.await with
    | .fault tk =>
      if tk.index.isSome then s
      else
        match s.enterWait id (.faultQueue tk.part) with
        | .trapped => s.deliver id .tableFull 0
        | .untracked s' => s'
        | .entered s' => s'
    | _ => s
  | none => s

/-- End a run: its threads that are ready become candidates with age 0, or stop under single step
(R62, R120, R313). -/
def State.endRun (s : State) (g : Issue) (pc : Word) : State :=
  let s := s.modCore g.core fun c => c.setSlot g.slot { c.slot g.slot with run := none }
  let s := g.gang.foldl (fun s id => match s.thread id with
    | some t =>
      if t.await == .ready then (if t.pc == pc && !s.stepping id then s.wake id else s.completed id)
      else s.waitRoom id
    | none => s) s
  { s with issue := none }

/-- After a word has issued for a gang that stood at `pc`: the run is counted on or ends (R62). A
turn that was lost leaves the run as it is. -/
def State.afterIssue (s : State) (g : Issue) (pc : Word) (ends : Bool) : State :=
  match s.issue with
  | none => s
  | some _ =>
    let sl := (s.core g.core).slot g.slot
    match sl.run with
    | none => s.endRun g pc
    | some r =>
      let g := { g with gang := r.gang }
      let whole := g.gang.all (s.goesOn pc)
      let stepped := g.gang.any s.stepping
      let halted := g.gang.any fun id => match s.ctx (s.ctxOf id) with
        | some c => c.rung == .saved || c.rung == .reset
        | none => true
      if ends || !whole || stepped || halted || decide (r.count + 1 ≥ 24) then s.endRun g pc
      else
        { s.modCore g.core fun c =>
            c.setSlot g.slot { sl with run := some { r with count := r.count + 1, second := false,
                                                            mismatched := false, done := [] } } with
          issue := none }

/-! ## The picker (R119, R120, R129) -/

/-- Ranks of candidates (R120). -/
structure PickKey where
  overdue : Bool
  age : Nat
  prio : Nat
  slot : Nat

/-- The key `a` ranks above `b`. -/
def PickKey.above (a b : PickKey) : Bool :=
  if a.overdue != b.overdue then a.overdue
  else if a.overdue && a.age != b.age then decide (b.age < a.age)
  else if a.prio != b.prio then decide (b.prio < a.prio)
  else if a.age != b.age then decide (b.age < a.age)
  else decide (a.slot < b.slot)

/-- Threads in runs of a core. -/
def Core.running (c : Core) : List ThreadId :=
  c.slots.toList.flatMap fun x => match x.run with
    | some r => r.gang
    | none => []

/-- The context's threads may be picked: it is not halting, saved or reset, but a thread with an
open NOPRE window goes on while the halt waits for it (R310, R311); its partition is not throttled
(R325). -/
def State.mayPick (s : State) (id : ThreadId) (t : Thread) : Bool :=
  match s.ctx (s.ctxOf id) with
  | none => false
  | some c =>
    let open_ := c.rung == .halting && t.nopre.isSome
    (c.rung == .running || c.rung == .soft || open_) &&
    (match s.part c.part with
      | some p => !p.throttled
      | none => false)

def State.pickKey (s : State) (core : Nat) (id : ThreadId) (t : Thread) : PickKey :=
  let age := (s.core core).picks - t.since
  { overdue := t.overdue || decide (age ≥ 4096), age := age, prio := s.effPrio id, slot := t.slot }

/-- Candidates of a core, with their keys (R119). -/
def State.candidates (s : State) (core : Nat) : List (ThreadId × Thread × PickKey) :=
  let busy := (s.core core).running
  s.threads.filterMap fun p =>
    let ready := match p.2.await with
      | .ready => true
      | .starting c => decide (c ≤ s.cycle)
      | _ => false
    if s.coreOf p.1 == core && ready && !(p.1 ∈ busy) && s.mayPick p.1 p.2 then
      some (p.1, p.2, s.pickKey core p.1 p.2)
    else none

/-- A crew whose members all wait at one collective PC for it has gathered (R129): its members. -/
def State.gathered (s : State) (co : CourseId) (crew : Fin 64) :
    Option (List (Fin 32 × ThreadId × Thread)) :=
  let ms := s.crewMembers co crew
  match ms with
  | [] => none
  | m :: _ =>
    if ms.all fun x => x.2.2.await == .crew crew && x.2.2.pc == m.2.2.pc then some ms else none

/-- Gathered crews of a core with the highest key among their members (R129). -/
def State.gatheredCrews (s : State) (core : Nat) : List (List ThreadId × PickKey) :=
  let busy := (s.core core).running
  (s.courses.filter fun p => p.2.core == core).flatMap fun p =>
    (List.finRange 64).filterMap fun k =>
      match s.gathered p.1 k with
      | some ms =>
        let ks := ms.map fun m => s.pickKey core m.2.1 m.2.2
        match leastBy PickKey.above ks with
        | some key =>
          if (ms.any fun m => m.2.1 ∈ busy) || !(ms.all fun m => s.mayPick m.2.1 m.2.2) then none
          else some (ms.map fun m => m.2.1, key)
        | none => none
      | none => none

/-- Physical ranges of a launch's text, page by page. -/
def State.textRanges (s : State) (l : Launch) : List (Nat × Nat) :=
  let base := l.kd.codeBase.toNat
  let first := base / 65536
  (List.range ((base + 12 * l.kd.textLen) / 65536 + 1 - first)).filterMap fun i =>
    let va := (first + i) * 65536
    match s.walk l.ctx (BitVec.ofNat 64 va) with
    | .ok e => some (e.phys + (va - e.page), 65536)
    | .error _ => none

/-- Two launches are of one descriptor and one context, and their fetches see the same text (R31, R120). -/
def State.sameKernel (s : State) (a b : Nat) : Bool :=
  a == b || (match s.launch a, s.launch b with
    | some x, some y =>
      let rs := s.textRanges x
      let inText (n k : Nat) : Bool := rs.any fun r => decide (n < r.1 + r.2) && decide (r.1 < n + k)
      x.ctx == y.ctx && decide (x.kd = y.kd) &&
        x.packet.extractLsb' 0 64 == y.packet.extractLsb' 0 64 &&
        decide ((x.code.filter fun c => inText c.1 1) = y.code.filter fun c => inText c.1 1) &&
        decide ((x.codeKeys.filter fun u => inText (64 * u.1) 64) =
          y.codeKeys.filter fun u => inText (64 * u.1) 64)
    | _, _ => false)

/-- The gang around a head: the candidates of its launch and PC in descending key order, at most 32;
a resumed row brings the rows resumed with it and no other thread (R120, R294). -/
def State.gangOf (s : State) (cs : List (ThreadId × Thread × PickKey)) (h : ThreadId × Thread × PickKey) :
    List ThreadId :=
  match h.2.1.cohort with
  | some k =>
    (cs.filter fun c => c.2.1.cohort == some k && c.2.1.pc == h.2.1.pc).map (·.1)
  | none =>
    let same := cs.filter fun c => s.sameKernel c.1.launch h.1.launch && c.2.1.pc == h.2.1.pc &&
      c.2.1.cohort.isNone
    ((sortBy (fun a b => a.2.2.above b.2.2) same).take 32).map (·.1)

/-- What a pick chooses: a gang, and whether it is a gathered crew. -/
def State.pick (s : State) (core : Nat) : Option (List ThreadId × Bool) :=
  let cs := s.candidates core
  let crew := leastBy (fun (a b : List ThreadId × PickKey) => a.2.above b.2) (s.gatheredCrews core)
  let head := leastBy (fun (a b : ThreadId × Thread × PickKey) => a.2.2.above b.2.2) cs
  match head, crew with
  | some h, some c => if h.2.2.above c.2 then some (s.gangOf cs h, false) else some (c.1, true)
  | some h, none => some (s.gangOf cs h, false)
  | none, some c => some (c.1, true)
  | none, none => none

/-- Whether a run that a slot starts is twinned (R137). -/
def State.twinned (s : State) (id : ThreadId) (started : Nat) : Bool :=
  match s.kdesc id.launch with
  | some k => k.twin == 2 || (k.twin == 1 && started % 2 ^ k.twinN == 0)
  | none => false

/-- Threads of a core that are no candidates yet, rows that were resumed and members of a crew that has not
gathered, do not age (R120, R129, R294). -/
def State.holdAges (s : State) (core : Nat) : State :=
  let picks := (s.core core).picks
  { s with threads := s.threads.map fun p =>
      let waits := match p.2.await with
        | .starting c => decide (s.cycle < c)
        | .crew k => (s.gathered (courseOf p.1) k).isNone
        | _ => false
      if waits && s.coreOf p.1 == core then (p.1, { p.2 with since := picks, overdue := false }) else p }

/-- The rows of one RESUME have been picked (R294). -/
def State.openCohort (s : State) : Option Nat → State
  | some k => { s with threads := s.threads.map fun p =>
      if p.2.cohort == some k then (p.1, { p.2 with cohort := none }) else p }
  | none => s

/-- Start a run in a slot with a gang. -/
def State.startRun (s : State) (core slot : Nat) (ids : List ThreadId) (gathered : Bool) : State :=
  let gang := sortBy threadBefore ids
  match gang with
  | [] => s
  | id :: _ =>
    let c := s.core core
    let sl := c.slot slot
    let twin := s.twinned id sl.started
    let s := s.openCohort ((s.thread id).bind (·.cohort))
    let s := gang.foldl (fun s id => s.modThread id fun t =>
      { t with overdue := false,
               await := match t.await with | .starting _ => .ready | a => a }) s
    let run : Run := { gang := gang, count := 0, twin := twin, second := twin, mismatched := false,
                       gathered := gathered }
    let s := s.modCore core fun c =>
      { c.setSlot slot { sl with run := some run, started := sl.started + 1 } with
        picks := c.picks + 1 }
    let s := s.holdAges core
    -- a twinned run's first issue writes nothing back (R137)
    if twin then s else { s with issue := some ⟨core, slot, gang, gathered⟩ }

/-- SLOT_TURN: the slot whose turn it is issues its run's next instruction or asks the picker. In a
twinned run each instruction issues a second time in the slot's next turn; the write-back follows
the comparison (R118, R137). -/
def State.slotTurn (s : State) (core : Nat) : State :=
  let slot := s.cycle % 4
  let c := s.core core
  match (c.slot slot).run with
  | some r =>
    let gang := r.gang.filter fun id => id ∉ r.done
    if r.twin && !r.second then
      s.setCore core (c.setSlot slot { c.slot slot with run := some { r with second := true } })
    else { s with issue := some ⟨core, slot, gang, r.gathered⟩ }
  | none =>
    match s.pick core with
    | none => s
    | some (ids, g) => s.startRun core slot ids g

/-- CREW_GATHER: the crew issues as one gang in the slot whose turn it is, when that slot runs
nothing (R129). -/
def State.crewGather (s : State) (co : CourseId) (crew : Fin 64) : State :=
  match s.course co, s.gathered co crew with
  | some c, some ms =>
    let slot := s.cycle % 4
    if ((s.core c.core).slot slot).run.isSome || s.issue.isSome ||
        !(ms.all fun m => s.mayPick m.2.1 m.2.2) then s
    else s.startRun c.core slot (ms.map fun m => m.2.1) true
  | _, _ => s

/-- THREAD_OVERDUE: a candidate whose age has reached 4,096 picks becomes overdue (R120). -/
def State.threadOverdue (s : State) (id : ThreadId) : State :=
  match s.thread id with
  | some t =>
    if t.await == .ready && decide ((s.core (s.coreOf id)).picks - t.since ≥ 4096) then
      s.setThread id { t with overdue := true }
    else s
  | none => s

/-! ## Outcomes before the instruction acts (R59) -/

/-- Every thread of the gang takes a trap, whatever its guard (R58, R59). -/
def State.trapGang (s : State) (g : Issue) (t : Trap) : State :=
  s.deliverAll (g.gang.zipIdx.map fun p => (p.2, p.1, t))

/-- Groups 0xC and 0xD need units that a variant may lack (R6, R353). -/
def State.unitAbsent (s : State) (w : IWord) : Bool :=
  let g := w.extractLsb' 92 4
  (g == 0xC && !s.caps.getLsbD 0) || (g == 0xD && !s.caps.getLsbD 1)

/-- The d field of a word. -/
def dField (w : IWord) : BitVec 8 := w.extractLsb' 76 8

/-- Decode a word for a kernel (R58): the instruction, or `none` when the word is illegal. -/
def State.legal (s : State) (launch : Nat) (w : IWord) : Option Instr :=
  match decode w, s.kdesc launch with
  | .ok i, some k => if Instr.fits k i then some i else none
  | _, _ => none

end Sys2Proof.Machine
end

