-- ==== Sys2Proof/Machine/Flags.lean ====
section
/-! DEFINITION. Flags.lean: the sticky flags (R15), the floating-point formats (R142 to R144), exact
values, rounding with its flags (R147 to R150, R155) and the stochastic generator (R151). -/

namespace Sys2Proof.Machine

/-! ## Flags, in the bit order of `%fflags` -/

def fNv : BitVec 5 := 0b10000
def fDz : BitVec 5 := 0b01000
def fOf : BitVec 5 := 0b00100
def fUf : BitVec 5 := 0b00010
def fNx : BitVec 5 := 0b00001

/-- A flag when a condition holds. -/
def flagIf (b : Bool) (f : BitVec 5) : BitVec 5 := if b then f else 0

/-! ## Rounding modes (R55, R147) -/

inductive Rnd where
  | rne | rtz | rdn | rup | sr
  deriving DecidableEq, Repr

/-- The rmode of `%fctl`; its reserved codes are never stored (R16). -/
def Rnd.ofCode (c : BitVec 3) : Rnd :=
  if c == 1 then .rtz else if c == 2 then .rdn else if c == 3 then .rup
  else if c == 4 then .sr else .rne

/-- The mode that a rounding code selects at issue (R55). -/
def Thread.rnd (t : Thread) : RndSel → Rnd
  | .dyn => .ofCode t.rmode
  | .rne => .rne
  | .rtz => .rtz
  | .rdn => .rdn
  | .rup => .rup
  | .sr => .sr

/-! ## Formats -/

/-- The floating-point formats of R142 and R144. -/
inductive Fmt where
  | f64 | f32 | bf16 | f16
  | b8 (prec : Nat) (signed inf : Bool)
  deriving DecidableEq, Repr

/-- Bits of a code. -/
def Fmt.width : Fmt → Nat
  | .f64 => 64
  | .f32 => 32
  | .bf16 => 16
  | .f16 => 16
  | .b8 _ _ _ => 8

/-- Fraction bits t. -/
def Fmt.frac : Fmt → Nat
  | .f64 => 52
  | .f32 => 23
  | .bf16 => 7
  | .f16 => 10
  | .b8 p _ _ => p - 1

/-- The bias B. -/
def Fmt.bias : Fmt → Nat
  | .f64 => 1023
  | .f32 => 127
  | .bf16 => 127
  | .f16 => 15
  | .b8 p s _ => 2 ^ ((if s then 8 - p else 9 - p) - 1)

def Fmt.isB8 : Fmt → Bool
  | .b8 _ _ _ => true
  | _ => false

/-- Magnitude code of the largest finite value M. -/
def Fmt.maxCode : Fmt → Nat
  | .b8 _ s i => (if s then 0x7F else 0xFE) - b2n i
  | f => 2 ^ (f.width - 1) - 2 ^ f.frac - 1

/-- Whether the format has infinities (R148). -/
def Fmt.hasInf : Fmt → Bool
  | .b8 _ _ i => i
  | _ => true

/-- Position of the sign; an unsigned format has none. -/
def Fmt.signed : Fmt → Bool
  | .b8 _ s _ => s
  | _ => true

/-- Code of a signed magnitude. -/
def Fmt.code (f : Fmt) (neg : Bool) (mag : Nat) : Nat :=
  if neg && f.signed then 2 ^ (f.width - 1) + mag else mag

/-- Canonical NaN (R145). -/
def Fmt.nan : Fmt → Nat
  | .f64 => 0x7FF8000000000000
  | .f32 => 0x7FC00000
  | .bf16 => 0x7FC0
  | .f16 => 0x7E00
  | .b8 _ s _ => if s then 0x80 else 0xFF

/-- The code of an infinity; M where the format has none. -/
def Fmt.infCode (f : Fmt) (neg : Bool) : Nat := f.code neg (f.maxCode + b2n f.hasInf)

/-- The format of a tag (R10); the integer tag and invalid tags name none. -/
def tagFmt (t : Tag) : Option Fmt :=
  match tagClass t with
  | 1 => some .f32
  | 2 => some .f64
  | 3 => some .bf16
  | 4 => some .f16
  | 5 => some (.b8 (t.extractLsb' 2 3).toNat (t.getLsbD 1) (t.getLsbD 0))
  | 6 => some (.b8 (t.extractLsb' 2 3).toNat (t.getLsbD 1) (t.getLsbD 0))
  | _ => none

/-! ## Exact values -/

/-- A value: a NaN, signalling or quiet, an infinity, or m × 2^e with a sign. -/
inductive FloatVal where
  | nan (signalling : Bool)
  | inf (neg : Bool)
  | fin (neg : Bool) (m : Nat) (e : Int)
  deriving DecidableEq, Repr

def FloatVal.zero : FloatVal := .fin false 0 0

def FloatVal.isNan : FloatVal → Bool
  | .nan _ => true
  | _ => false

def FloatVal.isSnan : FloatVal → Bool
  | .nan s => s
  | _ => false

def FloatVal.isZero : FloatVal → Bool
  | .fin _ m _ => m == 0
  | _ => false

def FloatVal.neg : FloatVal → Bool
  | .nan _ => false
  | .inf n => n
  | .fin n _ _ => n

/-- The value with the other sign. -/
def FloatVal.negate : FloatVal → FloatVal
  | .fin n m e => .fin (!n) m e
  | .inf n => .inf (!n)
  | x => x

/-- Magnitude scaled by a power of two, exactly. -/
def FloatVal.scale (x : FloatVal) (k : Int) : FloatVal :=
  match x with
  | .fin n m e => .fin n m (e + k)
  | x => x

/-- decode8 and the IEEE layouts (R142, R144): the value of a code. -/
def Fmt.read (f : Fmt) (code : Nat) : FloatVal :=
  let neg := f.signed && nbit code (f.width - 1)
  let mag := if f.signed then code % 2 ^ (f.width - 1) else code
  let t := f.frac
  let e : Nat := mag / 2 ^ t
  let fr := mag % 2 ^ t
  match f with
  | .b8 _ _ _ =>
    if code == 0 then .zero
    else if code == f.nan then .nan false
    else if f.hasInf && mag == f.maxCode + 1 then .inf neg
    else .fin neg (2 ^ t + fr) ((e : Int) - f.bias - t)
  | _ =>
    if mag > f.maxCode then
      if fr == 0 then .inf neg else .nan (fr < 2 ^ (t - 1))
    else if e == 0 then .fin neg fr (1 - (f.bias : Int) - t)
    else .fin neg (2 ^ t + fr) ((e : Int) - f.bias - t)

/-- ⌊log₂ n⌋ of the magnitude m × 2^e, m > 0. -/
def topExp (m : Nat) (e : Int) : Int := (Nat.log2 m : Int) + e

/-! ## Rounding a magnitude (R147) -/

/-- A positive magnitude between two neighbouring codes: the lower code, and the fraction of the way
to the next one as num / den, to which `more` adds less than one part of num. -/
structure Between where
  lo : Nat
  num : Nat
  den : Nat
  more : Bool

def Between.exact (b : Between) : Bool := b.num == 0 && !b.more

/-- Place m × 2^e, with `more` an amount below 2^e added to it, among the codes of a format. -/
def Fmt.between (f : Fmt) (m : Nat) (e : Int) (more : Bool) : Between :=
  let t := f.frac
  let emin : Int := if f.isB8 then -(f.bias : Int) else 1 - (f.bias : Int)
  let top := topExp m e
  let q := max top emin - t
  let sh := (q - e).toNat
  let n := if e ≥ q then m * 2 ^ (e - q).toNat else m / 2 ^ sh
  let rem := if e ≥ q then 0 else m % 2 ^ sh
  let den := 2 ^ sh
  let up := (q - (emin - t)).toNat
  if f.isB8 then
    let lo := up * 2 ^ t + n - 2 ^ t
    if top < emin || lo == 0 then
      -- between 0 and m, the value of code 0x01
      let vm := if t == 0 then 2 else 2 ^ t + 1
      let ve := emin - t
      if e ≥ ve then ⟨0, m * 2 ^ (e - ve).toNat, vm, more⟩
      else ⟨0, m, vm * 2 ^ (ve - e).toNat, more⟩
    else ⟨lo, rem, den, more⟩
  else ⟨up * 2 ^ t + n, rem, den, more⟩

/-- Whether the magnitude goes to the upper neighbour. -/
def Between.up (b : Between) (mode : Rnd) (neg : Bool) (draw : Nat) : Bool :=
  if b.exact then false
  else match mode with
  | .rne =>
    if 2 * b.num < b.den then false
    else if 2 * b.num == b.den && !b.more then b.lo % 2 == 1
    else true
  | .rtz => false
  | .rdn => neg
  | .rup => !neg
  | .sr =>
    let x := b.num * 2 ^ 32
    if neg then !(decide (draw * b.den + x < 2 ^ 32 * b.den))
    else decide (draw * b.den < x) || (draw * b.den == x && b.more)

/-- What the modes give where a magnitude overflows (R147, R148). -/
def Rnd.toInf (mode : Rnd) (neg : Bool) : Bool :=
  match mode with
  | .rne => true
  | .sr => true
  | .rtz => false
  | .rdn => neg
  | .rup => !neg

/-- Round a nonzero magnitude: its code and flags (R147, R148, R150). -/
def Fmt.roundMag (f : Fmt) (mode : Rnd) (draw : Nat) (neg : Bool) (m : Nat) (e : Int)
    (more : Bool) : Nat × BitVec 5 :=
  let b := f.between m e more
  let c := b.lo + b2n (b.up mode neg draw)
  let tiny := if f.isB8 then b.lo == 0 else decide (topExp m e < 1 - (f.bias : Int))
  if f.hasInf then
    if c > f.maxCode then
      (if mode.toInf neg then f.infCode neg else f.code neg f.maxCode, fOf ||| fNx)
    else
      (if c == 0 && f.isB8 then 0 else f.code neg c,
        flagIf (!b.exact) fNx ||| flagIf (!b.exact && tiny) fUf)
  else if b.lo > f.maxCode || (b.lo == f.maxCode && !b.exact) then
    (f.code neg f.maxCode, fOf ||| fNx)
  else
    (if c == 0 then 0 else f.code neg c,
      flagIf (!b.exact) fNx ||| flagIf (!b.exact && tiny) fUf)

/-- round(x, fmt, mode) with the flags of R150; `more` adds an amount below the last place of x
(R147 to R150). A signalling NaN has set nv where it was read. -/
def Fmt.round (f : Fmt) (mode : Rnd) (draw : Nat) (x : FloatVal) (more : Bool := false) :
    Nat × BitVec 5 :=
  match x with
  | .nan _ => (f.nan, 0)
  | .inf n =>
    if n && !f.signed then (0, fNv ||| fNx)
    else if f.hasInf then (f.infCode n, 0)
    else (f.infCode n, fOf ||| fNx)
  | .fin n m e =>
    if m == 0 && !more then (if f.isB8 then 0 else f.code n 0, 0)
    else if n && !f.signed then (0, fNv ||| fNx ||| flagIf ((f.between m e more).lo == 0) fUf)
    else f.roundMag mode draw n m e more

/-- round to nearest even, without flags. -/
def Fmt.rne (f : Fmt) (x : FloatVal) (more : Bool := false) : Nat := (f.round .rne 0 x more).1

/-! ## Exact arithmetic -/

/-- m × 2^e as an integer at scale 2^k, k ≤ e. -/
def atScale (n : Bool) (m : Nat) (e k : Int) : Int :=
  let v : Int := (m * 2 ^ (e - k).toNat : Nat)
  if n then -v else v

/-- A signed integer at a scale; a zero takes the sign given. -/
def FloatVal.ofInt (v : Int) (e : Int) (zeroNeg : Bool) : FloatVal :=
  if v == 0 then .fin zeroNeg 0 e else .fin (decide (v < 0)) v.natAbs e

/-- Exact sum, with nv for ∞ − ∞ (R159). An exact zero of operands of opposite sign is +0, or −0
under rdn. -/
def FloatVal.add (x y : FloatVal) (mode : Rnd) : FloatVal × BitVec 5 :=
  match x, y with
  | .nan _, _ => (.nan false, 0)
  | _, .nan _ => (.nan false, 0)
  | .inf a, .inf b => if a == b then (.inf a, 0) else (.nan false, fNv)
  | .inf a, _ => (.inf a, 0)
  | _, .inf b => (.inf b, 0)
  | .fin a m e, .fin b n f =>
    let k := min e f
    let z := if m == 0 && n == 0 && a == b then a else mode == .rdn
    (FloatVal.ofInt (atScale a m e k + atScale b n f k) k z, 0)

/-- Exact product, with nv for 0 × ∞ (R159). -/
def FloatVal.mul (x y : FloatVal) : FloatVal × BitVec 5 :=
  let s := x.neg != y.neg
  match x, y with
  | .nan _, _ => (.nan false, 0)
  | _, .nan _ => (.nan false, 0)
  | .inf _, y => if y.isZero then (.nan false, fNv) else (.inf s, 0)
  | x, .inf _ => if x.isZero then (.nan false, fNv) else (.inf s, 0)
  | .fin _ m e, .fin _ n f => (.fin s (m * n) (e + f), 0)

/-- x × y + z exactly; 0 × ∞ + z is invalid even for a NaN z (R159). -/
def FloatVal.fma (x y z : FloatVal) (mode : Rnd) : FloatVal × BitVec 5 :=
  let (p, fl) := x.mul y
  let (r, fl') := p.add z mode
  (r, fl ||| fl')

/-- A quotient or root to more bits than any format needs, with whether it is cut (R163). -/
structure Cut where
  x : FloatVal
  more : Bool
  flags : BitVec 5

/-- x / y (R163). -/
def FloatVal.div (x y : FloatVal) : Cut :=
  let s := x.neg != y.neg
  match x, y with
  | .nan _, _ => ⟨.nan false, false, 0⟩
  | _, .nan _ => ⟨.nan false, false, 0⟩
  | .inf _, .inf _ => ⟨.nan false, false, fNv⟩
  | .inf _, _ => ⟨.inf s, false, 0⟩
  | _, .inf _ => ⟨.fin s 0 0, false, 0⟩
  | .fin _ m e, .fin _ n f =>
    if n == 0 then
      if m == 0 then ⟨.nan false, false, fNv⟩ else ⟨.inf s, false, fDz⟩
    else
      let sh := 100 + Nat.log2 n
      ⟨.fin s (m * 2 ^ sh / n) (e - f - sh), m * 2 ^ sh % n != 0, 0⟩

/-- Integer square root by digits: `n` more pairs of bits of `v` below the root `r`. -/
def isqrtLoop (v : Nat) : Nat → Nat → Nat
  | 0, r => r
  | n + 1, r =>
    let r' := r + 2 ^ n
    isqrtLoop v n (if r' * r' ≤ v then r' else r)

def isqrt (v : Nat) : Nat := isqrtLoop v (Nat.log2 v / 2 + 1) 0

/-- √x (R163). -/
def FloatVal.sqrt (x : FloatVal) : Cut :=
  match x with
  | .nan _ => ⟨.nan false, false, 0⟩
  | .inf n => if n then ⟨.nan false, false, fNv⟩ else ⟨.inf false, false, 0⟩
  | .fin n m e =>
    if m == 0 then ⟨.fin n 0 0, false, 0⟩
    else if n then ⟨.nan false, false, fNv⟩
    else
      let sh : Nat := 200 + (e % 2).toNat
      let v := m * 2 ^ sh
      let r := isqrt v
      ⟨.fin false r ((e - sh) / 2), r * r != v, 0⟩

/-- Compare two values that are not NaN: −0 equals +0. -/
def FloatVal.cmp (x y : FloatVal) : Ordering :=
  match x, y with
  | .inf a, .inf b => if a == b then .eq else if a then .lt else .gt
  | .inf a, _ => if a then .lt else .gt
  | _, .inf b => if b then .gt else .lt
  | .fin a m e, .fin b n f => compare (atScale a m e (min e f)) (atScale b n f (min e f))
  | _, _ => .eq

def FloatVal.lt (x y : FloatVal) : Bool := x.cmp y == .lt

/-- x < y with −0 below +0 (R160). -/
def FloatVal.below (x y : FloatVal) : Bool := x.lt y || (x.isZero && y.isZero && x.neg && !y.neg)

/-- ⌊x⌋ of a finite value. -/
def floorOf (neg : Bool) (m : Nat) (e : Int) : Int :=
  if e ≥ 0 then (if neg then -((m * 2 ^ e.toNat : Nat) : Int) else (m * 2 ^ e.toNat : Nat))
  else (if neg then -(m : Int) else m) / ((2 ^ (-e).toNat : Nat) : Int)

/-! ## Integers from values (R155) -/

/-- A finite value rounded to an integer in a mode. -/
def roundInt (mode : Rnd) (draw : Nat) (neg : Bool) (m : Nat) (e : Int) : Int :=
  if e ≥ 0 then floorOf neg m e
  else
    let den := 2 ^ (-e).toNat
    let b : Between := ⟨m / den, m % den, den, false⟩
    let v : Int := ((b.lo + b2n (b.up mode neg draw) : Nat) : Int)
    if neg then -v else v

/-- The R155 result of a value for a range, with its flags. -/
def toInteger (mode : Rnd) (draw : Nat) (lo hi : Int) : FloatVal → Int × BitVec 5
  | .nan _ => (0, fNv)
  | .inf n => (if n then lo else hi, fNv)
  | .fin n m e =>
    let v := roundInt mode draw n m e
    if v > hi then (hi, fNv)
    else if v < lo then (lo, fNv)
    else (v, flagIf ((FloatVal.fin n m e).cmp (FloatVal.ofInt v 0 false) != .eq) fNx)

/-- The least and largest values of an integer type. -/
def IntTy.range (ty : IntTy) : Int × Int :=
  let w := IntTy.width ty
  if ty.signed then (-(2 ^ (w - 1) : Nat), (2 ^ (w - 1) : Nat) - 1) else (0, (2 ^ w : Nat) - 1)

/-! ## The stochastic generator (R151) -/

/-- The seed of a thread. -/
def seedGen (tid : Word) : Word :=
  let g := (tid + 1) * 0x9E3779B9
  if g == 0 then 0x6D2B79F5 else g

/-- One step. -/
def stepGen (g : Word) : Word :=
  let g := g ^^^ (g <<< 13)
  let g := g ^^^ (g >>> 17)
  g ^^^ (g <<< 5)

/-- A thread as it starts, with nothing in its registers (R99). -/
def Thread.fresh : Thread :=
  { regs := Vector.replicate 192 ⟨0, 0⟩, preds := 0, kregs := Vector.replicate 16 kEmpty, pc := 0,
    cso := 0, fflags := 0, fctl := 0, gen := seedGen 0, loads := 0, stores := 0, copies := 0,
    tileOps := 0, crews := [], trapfpc := 0, trappc := 0, trapinfo := 0, trapmask := 0,
    armed := true, field := 0xFF, late := none, inHandler := false, resume := 0, prio := 0, acqTs := 0, holds := [],
    wreg := none, monitor := none, nopre := none, priv := [], area := 0, await := .ready, slot := 0, since := 0,
    overdue := false, cohort := none }

/-! ## A thread's arithmetic -/

/-- What rounding reads and changes: the mode, whether FP32 subnormals flush, the flags raised so
far and the generator. -/
structure FEnv where
  mode : Rnd
  ftz : Bool
  flags : BitVec 5
  gen : Word

def FEnv.raise (v : FEnv) (fl : BitVec 5) : FEnv := { v with flags := v.flags ||| fl }

/-- The environment of a thread's instruction. -/
def Thread.fenv (t : Thread) (r : RndSel) : FEnv := ⟨t.rnd r, t.ftz, 0, t.gen⟩

/-- An environment that rounds to nearest even, with the thread's ftz. -/
def Thread.fenvRne (t : Thread) : FEnv := ⟨.rne, t.ftz, 0, t.gen⟩

/-- Store an instruction's flags and generator in the thread (R17, R151). -/
def Thread.afterFloat (t : Thread) (v : FEnv) (d : Opd) : Thread :=
  { t.flagsNow v.flags d with gen := v.gen }

/-- Step the generator when the mode is sr, and give the draw (R151). -/
def FEnv.draw (v : FEnv) : Nat × FEnv :=
  if v.mode == .sr then
    let g := stepGen v.gen
    (g.toNat, { v with gen := g })
  else (0, v)

/-- A subnormal FP32 code. -/
def f32Subnormal (c : Nat) : Bool := c % 2 ^ 31 != 0 && decide (c % 2 ^ 31 < 2 ^ 23)

/-- Round into a format: the draw, the flags of R150, and ftz for FP32 results (R146). -/
def FEnv.out (v : FEnv) (f : Fmt) (x : FloatVal) (more : Bool := false) : Nat × FEnv :=
  let (d, v) := v.draw
  let (c, fl) := f.round v.mode d x more
  if f == .f32 && v.ftz && f32Subnormal c then
    (c / 2 ^ 31 * 2 ^ 31, v.raise (fl ||| fUf ||| fNx))
  else (c, v.raise fl)

/-- Read a code: an FP32 subnormal is a zero of its sign under ftz; a signalling NaN sets nv (R145,
R146, R157). -/
def FEnv.get (v : FEnv) (f : Fmt) (c : Nat) : FloatVal × FEnv :=
  let x := if f == .f32 && v.ftz && f32Subnormal c then .fin (nbit c 31) 0 0 else f.read c
  (x, v.raise (flagIf x.isSnan fNv))

/-- Read without flags. -/
def FEnv.peek (v : FEnv) (f : Fmt) (c : Nat) : FloatVal := (v.get f c).1

/-- Add codes of a format, rounding once. -/
def FEnv.addC (v : FEnv) (f : Fmt) (a b : Nat) : Nat × FEnv :=
  let (x, v) := v.get f a
  let (y, v) := v.get f b
  let (r, fl) := x.add y v.mode
  (v.raise fl).out f r

def FEnv.subC (v : FEnv) (f : Fmt) (a b : Nat) : Nat × FEnv :=
  let (x, v) := v.get f a
  let (y, v) := v.get f b
  let (r, fl) := x.add y.negate v.mode
  (v.raise fl).out f r

def FEnv.mulC (v : FEnv) (f : Fmt) (a b : Nat) : Nat × FEnv :=
  let (x, v) := v.get f a
  let (y, v) := v.get f b
  let (r, fl) := x.mul y
  (v.raise fl).out f r

def FEnv.fmaC (v : FEnv) (f : Fmt) (a b c : Nat) : Nat × FEnv :=
  let (x, v) := v.get f a
  let (y, v) := v.get f b
  let (z, v) := v.get f c
  let (r, fl) := x.fma y z v.mode
  (v.raise fl).out f r

def FEnv.divC (v : FEnv) (f : Fmt) (a b : Nat) : Nat × FEnv :=
  let (x, v) := v.get f a
  let (y, v) := v.get f b
  let r := x.div y
  (v.raise r.flags).out f r.x r.more

def FEnv.sqrtC (v : FEnv) (f : Fmt) (a : Nat) : Nat × FEnv :=
  let (x, v) := v.get f a
  let r := x.sqrt
  (v.raise r.flags).out f r.x r.more

/-- FMIN and FMAX of codes: one source unchanged, NaNs ignored (R160). -/
def FEnv.minMaxC (v : FEnv) (f : Fmt) (max : Bool) (a b : Nat) : Nat × FEnv :=
  let flush (c : Nat) : Nat := if f == .f32 && v.ftz && f32Subnormal c then c / 2 ^ 31 * 2 ^ 31 else c
  let (x, v) := v.get f a
  let (y, v) := v.get f b
  let r :=
    if x.isNan && y.isNan then f.nan
    else if x.isNan then flush b
    else if y.isNan then flush a
    else if max then (if x.below y then flush b else flush a)
    else if y.below x then flush b else flush a
  (r, v)

/-- A condition of R55 on two values, with nv as FCMP raises it (R161). -/
def condOf (c : Cond) (x y : FloatVal) : Bool :=
  let un := x.isNan || y.isNan
  match c with
  | .eq => !un && x.cmp y == .eq
  | .ne => un || x.cmp y != .eq
  | .lt => !un && x.cmp y == .lt
  | .le => !un && x.cmp y != .gt
  | .gt => !un && x.cmp y == .gt
  | .ge => !un && x.cmp y != .lt
  | .ord => !un
  | .uno => un

def Cond.ordered : Cond → Bool
  | .lt => true
  | .le => true
  | .gt => true
  | .ge => true
  | _ => false

/-- FCLASS's mask (R162). -/
def classMask (f : Fmt) (x : FloatVal) : Nat :=
  match x with
  | .nan s => if s then 2 ^ 8 else 2 ^ 9
  | .inf n => if n then 1 else 2 ^ 7
  | .fin n m e =>
    if m == 0 then (if n then 2 ^ 3 else 2 ^ 4)
    else if topExp m e < 1 - (f.bias : Int) then (if n then 2 ^ 2 else 2 ^ 5)
    else if n then 2 else 2 ^ 6

end Sys2Proof.Machine
end

