-- ==== Sys2Proof/Machine/Integer.lean ====
section
/-! DEFINITION. Integer.lean: the meanings of groups 0x0 and 0x1 (R63 to R73). -/

namespace Sys2Proof.Machine

/-! ## Shared forms -/

/-- An arithmetic instruction of d, a, b: untyped sources, result put at the type (R63, R64, R66). -/
def intArith (x : IntOp) (f : Int → Int → Int) (t : Thread) : Except Trap Thread := do
  t.need x.ty.wide x.a 0
  t.needSrc x.ty.wide x.b 0
  .ok (t.put x.ty x.d (f (t.srcOpd x.ty x.a) (t.src x.ty x.b))).advance

/-- The low w bits of a register or immediate, unsigned. -/
def Thread.rawSrc (t : Thread) (ty : IntTy) (b : Src) : Nat := lowBits (IntTy.width ty) (t.src ty b)

/-- A bitwise instruction of d, a, b: any tag (R64, R66). -/
def intBits (x : IntOp) (f : Nat → Nat → Nat) (t : Thread) : Except Trap Thread :=
  .ok (t.put x.ty x.d (f (t.rawOpd (IntTy.width x.ty) x.a) (t.rawSrc x.ty x.b) : Nat)).advance

/-- A shift or rotate: width, source bits and count modulo the width (R67). -/
def intShift (x : IntOp) (f : Nat → Nat → Nat → Int) (t : Thread) : Except Trap Thread :=
  let w := IntTy.width x.ty
  .ok (t.put x.ty x.d (f w (t.rawOpd w x.a) (t.word x.b % w))).advance

/-- Position and length of BFX and BFI, clipped; `none` where no bit is named (R68). -/
def fieldOf (w b : Nat) : Option (Nat × Nat) :=
  let pos := b % 256
  let len := b / 256 % 256
  if len == 0 || decide (pos ≥ w) then none else some (pos, min len (w - pos))

/-- A multiply of d, a, b, c: all sources untyped (R64, R71). -/
def intArith3 (x : IntOp3) (f : Int → Int → Int → Int) (t : Thread) : Except Trap Thread := do
  t.need x.ty.wide x.a 0
  t.needSrc x.ty.wide x.b 0
  t.need x.ty.wide x.c 0
  .ok (t.put x.ty x.d (f (t.srcOpd x.ty x.a) (t.src x.ty x.b) (t.srcOpd x.ty x.c))).advance

/-- A count of the bits of a, written to one register (R73). -/
def intCount (x : IntUn) (f : Nat → Nat → Nat) (t : Thread) : Except Trap Thread :=
  let w := IntTy.width x.ty
  .ok (t.setReg x.d ⟨BitVec.ofNat 32 (f w (t.rawOpd w x.a)), 0⟩).advance

/-! ## Bit counts -/

def popCount (w n : Nat) : Nat := sumNat ((List.range w).map fun i => b2n (nbit n i))

def leadZeros (w n : Nat) : Nat := if n == 0 then w else w - 1 - Nat.log2 n

def trailZeros (w n : Nat) : Nat := ((List.range w).find? fun i => nbit n i).getD w

def bitReverse (w n : Nat) : Nat :=
  sumNat ((List.range w).map fun i => if nbit n i then 2 ^ (w - 1 - i) else 0)

/-! ## Division (R72) -/

/-- Quotient toward zero with R72's fixed cases. -/
def quotient (x y : Int) : Int := if y == 0 then -1 else Int.tdiv x y

/-- The matching remainder. -/
def remainder (x y : Int) : Int := if y == 0 then x else Int.tmod x y

/-- Registers of `t'` that an operand spans, as pending writes. -/
def writesOf (t' : Thread) (d : Opd) (n : Nat) : List (Nat × VReg) :=
  match d with
  | .v k => (List.range n).map fun i => (k.val + i, t'.reg (Opd.plus d i))
  | _ => []

/-- Start an operation of the issue slot's divider: it ends `cycles` after the slot's earlier
division (R65, R158). -/
def State.startDivide (s : State) (id : ThreadId) (t : Thread) (d : Opd) (cycles : Nat)
    (ws : List (Nat × VReg)) (fl : BitVec 5) : State :=
  let g := s.issue.getD ⟨s.coreOf id, 0, [], false⟩
  let sl := (s.core g.core).slot g.slot
  -- the gang's threads divide together
  let begun := s.ops.any fun p => p.2.issued == s.cycle && decide (p.2.th ∈ g.gang) &&
    (match p.2.kind with | .divide _ _ => true | _ => false)
  let due := if begun then sl.divFree else max sl.divFree s.cycle + cycles
  let s := s.addOp { th := id, pc := t.pc, field := d.enc, issued := s.cycle, due := due, stop := none,
                     fctl := t.fctl, armed := t.armed, kind := .divide ws fl }
  let s := s.modCore g.core fun c => c.setSlot g.slot { c.slot g.slot with divFree := due }
  s.setThread id t.advance

/-- IDIV and IREM. R65 gives 20 cycles for 32-bit and 36 for 64-bit types and none for narrower ones; the
model takes 20 for those, its own choice (log entry 84). -/
def divideAct (x : IntOp) (f : Int → Int → Int) : Act := fun s id t => do
  t.need x.ty.wide x.a 0
  t.needSrc x.ty.wide x.b 0
  let t' := t.put x.ty x.d (f (t.srcOpd x.ty x.a) (t.src x.ty x.b))
  .ok (s.startDivide id t x.d (if x.ty.wide then 36 else 20)
    (writesOf t' x.d (if x.ty.wide then 2 else 1)) 0)

/-! ## Group 0x0 -/

/-- IADD (R66). -/
def execIadd (x : IntOp) (s : State) : Host.Outcome State Fault Refusal :=
  .next (s.runLocal x.ctl (intArith x fun a b => a + b))

/-- ISUB (R66). -/
def execIsub (x : IntOp) (s : State) : Host.Outcome State Fault Refusal :=
  .next (s.runLocal x.ctl (intArith x fun a b => a - b))

/-- IMIN (R66). -/
def execImin (x : IntOp) (s : State) : Host.Outcome State Fault Refusal :=
  .next (s.runLocal x.ctl (intArith x fun a b => if a ≤ b then a else b))

/-- IMAX (R66). -/
def execImax (x : IntOp) (s : State) : Host.Outcome State Fault Refusal :=
  .next (s.runLocal x.ctl (intArith x fun a b => if a ≤ b then b else a))

/-- IABS (R66): the most negative value wraps to itself. -/
def execIabs (x : IntUn) (s : State) : Host.Outcome State Fault Refusal :=
  .next (s.runLocal x.ctl fun t => do
    t.need x.ty.wide x.a 0
    .ok (t.put x.ty x.d ((t.srcOpd x.ty x.a).natAbs : Nat)).advance)

/-- AND (R66). -/
def execAnd (x : IntOp) (s : State) : Host.Outcome State Fault Refusal :=
  .next (s.runLocal x.ctl (intBits x fun a b => a &&& b))

/-- OR (R66). -/
def execOr (x : IntOp) (s : State) : Host.Outcome State Fault Refusal :=
  .next (s.runLocal x.ctl (intBits x fun a b => a ||| b))

/-- XOR (R66). -/
def execXor (x : IntOp) (s : State) : Host.Outcome State Fault Refusal :=
  .next (s.runLocal x.ctl (intBits x fun a b => a ^^^ b))

/-- NOT (R66): any tag. -/
def execNot (x : IntUn) (s : State) : Host.Outcome State Fault Refusal :=
  .next (s.runLocal x.ctl fun t =>
    let w := IntTy.width x.ty
    .ok (t.put x.ty x.d (2 ^ w - 1 - t.rawOpd w x.a : Nat)).advance)

/-- ANDN (R66): a ∧ ¬b. -/
def execAndn (x : IntOp) (s : State) : Host.Outcome State Fault Refusal :=
  .next (s.runLocal x.ctl (intBits x fun a b => a &&& (2 ^ IntTy.width x.ty - 1 - b)))

/-- SHL (R67). -/
def execShl (x : IntOp) (s : State) : Host.Outcome State Fault Refusal :=
  .next (s.runLocal x.ctl (intShift x fun _ a n => (a * 2 ^ n : Nat)))

/-- SHR (R67). -/
def execShr (x : IntOp) (s : State) : Host.Outcome State Fault Refusal :=
  .next (s.runLocal x.ctl (intShift x fun _ a n => (a / 2 ^ n : Nat)))

/-- SAR (R67). -/
def execSar (x : IntOp) (s : State) : Host.Outcome State Fault Refusal :=
  .next (s.runLocal x.ctl (intShift x fun w a n => signedOf w a / (2 ^ n : Nat)))

/-- ROL (R67). -/
def execRol (x : IntOp) (s : State) : Host.Outcome State Fault Refusal :=
  .next (s.runLocal x.ctl (intShift x fun w a n => (a * 2 ^ n + a / 2 ^ ((w - n) % w) * b2n (n != 0) : Nat)))

/-- BFX (R68): any tag. -/
def execBfx (x : IntOp) (s : State) : Host.Outcome State Fault Refusal :=
  .next (s.runLocal x.ctl fun t =>
    let w := IntTy.width x.ty
    let r : Int := match fieldOf w (t.word x.b) with
      | none => 0
      | some (pos, l) =>
        let v := t.rawOpd w x.a / 2 ^ pos % 2 ^ l
        if x.ty.signed then signedOf l v else v
    .ok (t.put x.ty x.d r).advance)

/-- BFI (R68): any tag. -/
def execBfi (x : IntOp3) (s : State) : Host.Outcome State Fault Refusal :=
  .next (s.runLocal x.ctl fun t =>
    let w := IntTy.width x.ty
    let c := t.rawOpd w x.c
    let r : Nat := match fieldOf w (t.word x.b) with
      | none => c
      | some (pos, l) =>
        c / 2 ^ (pos + l) * 2 ^ (pos + l) + t.rawOpd w x.a % 2 ^ l * 2 ^ pos + c % 2 ^ pos
    .ok (t.put x.ty x.d r).advance)

/-- The byte that a PRMT selector chooses from the eight bytes of a and c (R69). -/
def prmtByte (bytes sel : Nat) : Nat :=
  let b := bytes / 2 ^ (8 * (sel % 8)) % 256
  if sel / 8 % 2 == 1 then (if b ≥ 128 then 0xFF else 0) else b

/-- PRMT (R69): any tag. -/
def execPrmt (x : IntOp3) (s : State) : Host.Outcome State Fault Refusal :=
  .next (s.runLocal x.ctl fun t =>
    let bytes := (t.reg x.a).bits.toNat + (t.reg x.c).bits.toNat * 2 ^ 32
    let sel := t.word x.b
    let r := sumNat ((List.range 4).map fun i => prmtByte bytes (sel / 16 ^ i % 16) * 256 ^ i)
    .ok (t.setReg x.d ⟨BitVec.ofNat 32 r, 0⟩).advance)

/-- MOV (R70): each half keeps its tag (R64). -/
def execMov (x : IntUn) (s : State) : Host.Outcome State Fault Refusal :=
  .next (s.runLocal x.ctl fun t =>
    if x.ty.wide then
      .ok ((t.setReg x.d (t.reg x.a)).setReg (Opd.plus x.d 1) (t.reg (Opd.plus x.a 1))).advance
    else .ok (t.setReg x.d (t.reg x.a)).advance)

/-- MOVI (R70). -/
def execMovi (x : MovI) (s : State) : Host.Outcome State Fault Refusal :=
  .next (s.runLocal x.ctl fun t => .ok (t.put x.ty x.d (immValue x.ty x.imm : Nat)).advance)

/-- MOVHI (R70). -/
def execMovhi (x : MovH) (s : State) : Host.Outcome State Fault Refusal :=
  .next (s.runLocal x.ctl fun t =>
    .ok (t.put x.ty x.d (immValue x.ty (x.hi.setWidth 32 <<< 12) : Nat)).advance)

/-- Byte address of a PC of a launch (R60). -/
def State.pcAddr (s : State) (id : ThreadId) (pc : Word) : DWord :=
  match s.kdesc id.launch with
  | some k => k.codeBase + 12 * pc.setWidth 64
  | none => 12 * pc.setWidth 64

/-- ADDPCHI (R70). -/
def execAddpchi (x : MovH) (s : State) : Host.Outcome State Fault Refusal :=
  .next (s.runGang x.ctl fun s id t =>
    .ok (s.setThread id
      (t.setPair x.d (s.pcAddr id t.pc + (x.hi.setWidth 32 <<< 12).signExtend 64) 0).advance))

/-- LEA (R70): the address pair is untyped (R64). -/
def execLea (x : LeaOp) (s : State) : Host.Outcome State Fault Refusal :=
  .next (s.runLocal x.ctl fun t => do
    t.need true x.a 0
    .ok (t.setPair x.d (t.pair x.a + sext64 x.off) 0).advance)

/-! ## Group 0x1 -/

/-- IMUL (R71). -/
def execImul (x : IntOp) (s : State) : Host.Outcome State Fault Refusal :=
  .next (s.runLocal x.ctl (intArith x fun a b => a * b))

/-- IMULH (R71). -/
def execImulh (x : IntOp) (s : State) : Host.Outcome State Fault Refusal :=
  .next (s.runLocal x.ctl (intArith x fun a b => a * b / (2 ^ IntTy.width x.ty : Nat)))

/-- IMAD (R71). -/
def execImad (x : IntOp3) (s : State) : Host.Outcome State Fault Refusal :=
  .next (s.runLocal x.ctl (intArith3 x fun a b c => a * b + c))

/-- IMADW (R71): 32-bit factors, 64-bit addend and result. -/
def execImadw (x : IntOp3) (s : State) : Host.Outcome State Fault Refusal :=
  .next (s.runLocal x.ctl fun t => do
    t.need false x.a 0
    t.needSrc false x.b 0
    t.need true x.c 0
    let c := (t.pair x.c).toNat
    let z : Int := if x.ty.signed then signedOf 64 c else c
    .ok (t.setPair x.d (BitVec.ofInt 64 (t.srcOpd x.ty x.a * t.src x.ty x.b + z)) 0).advance)

/-- IDIV (R72). -/
def execIdiv (x : IntOp) (s : State) : Host.Outcome State Fault Refusal :=
  .next (s.runGang x.ctl (divideAct x quotient))

/-- IREM (R72). -/
def execIrem (x : IntOp) (s : State) : Host.Outcome State Fault Refusal :=
  .next (s.runGang x.ctl (divideAct x remainder))

/-- DIVIDER_COMPLETE: a division that is due writes its result and its flags (R65, R158). -/
def execDividerComplete (th : ThreadId) (op : Nat) (s : State) : Host.Outcome State Fault Refusal :=
  match s.op op with
  | some o =>
    match o.kind with
    | .divide ws fl =>
      if o.th = th ∧ o.due ≤ s.cycle then
        .next ((s.delOp op).modThread th fun t =>
          (t.writeRegs ws).raiseLate fl (o.fctl.extractLsb' 0 5) o.pc o.field o.armed op)
      else .next s
    | _ => .next s
  | none => .next s

/-- POPC (R73). -/
def execPopc (x : IntUn) (s : State) : Host.Outcome State Fault Refusal :=
  .next (s.runLocal x.ctl (intCount x popCount))

/-- CLZ (R73). -/
def execClz (x : IntUn) (s : State) : Host.Outcome State Fault Refusal :=
  .next (s.runLocal x.ctl (intCount x leadZeros))

/-- CTZ (R73). -/
def execCtz (x : IntUn) (s : State) : Host.Outcome State Fault Refusal :=
  .next (s.runLocal x.ctl (intCount x trailZeros))

/-- BREV (R73). -/
def execBrev (x : IntUn) (s : State) : Host.Outcome State Fault Refusal :=
  .next (s.runLocal x.ctl fun t =>
    let w := IntTy.width x.ty
    .ok (t.put x.ty x.d (bitReverse w (t.rawOpd w x.a) : Nat)).advance)

end Sys2Proof.Machine
end

