-- ==== Sys2Proof/Machine/Control.lean ====
section
/-! DEFINITION. Control.lean: the meanings of group 0x3 (R78 to R82) and the end of a thread. -/

namespace Sys2Proof.Machine

/-! ## Targets and the call stack -/

/-- The PC of a byte address (R79). -/
def targetOf (codeBase a : Nat) : Option Word :=
  let t := a - codeBase
  if a < codeBase || t % 12 != 0 || t / 12 ≥ 2 ^ 32 then none else some (BitVec.ofNat 32 (t / 12))

/-- The target that an address pair names: tag fault, then bad target (R64, R79). -/
def State.indirect (s : State) (id : ThreadId) (t : Thread) (a : Opd) : Except Trap Word := do
  t.need true a 0
  match targetOf (s.pcAddr id 0).toNat (t.pair a).toNat with
  | some pc => .ok pc
  | none => .error (.fault causeBadTarget 0xFF)

/-- Bytes of the private area that LDP, STP and calls reach (R80). -/
def State.stackBytes (s : State) (id : ThreadId) : Nat :=
  match s.kdesc id.launch with
  | some k => k.privateBytes - 512 * k.kspill
  | none => 0

/-- Private stores of the thread that are not performed yet (R92). -/
def State.privPending (s : State) (id : ThreadId) : Bool :=
  (s.opsOfThread id).any fun p => match p.2.kind with
    | .priv _ _ => true
    | _ => false

/-- An access of `n` bytes of the thread's private area, at most 64 KiB of it: each page it touches is
translated and checked as global memory is (R85, R182, R187). The answer says whether every byte can be
read; a write marks its pages dirty (R327). -/
def State.privAccess (s : State) (id : ThreadId) (t : Thread) (off n : Nat) (acc : Access) :
    Except Trap (Bool × State) := do
  let va := t.area + BitVec.ofNat 64 off
  let page (s : State) (va : DWord) : Except Trap (Bool × State) := do
    let (pa, _, s) ← s.translateFor id va acc
    .ok (s.reachable pa 1, if acc = .write then s.markDirty (s.partOf (s.ctxOf id)) pa else s)
  let (ok, s) ← page s va
  if va.toNat % 65536 + n ≤ 65536 then .ok (ok, s)
  else
    let (ok', s) ← page s (va + BitVec.ofNat 64 (n - 1))
    .ok (ok && ok', s)

/-- Push PC + 1 and go to the target (R80). -/
def State.call (s : State) (id : ThreadId) (t : Thread) (target : Word) : Except Trap State :=
  if t.cso.toNat + 4 > s.stackBytes id then .error (.fault causeOverflow 0xFF)
  else do
    let (_, s) ← s.privAccess id t t.cso.toNat 4 .write
    .ok (s.setThread id
      { t with priv := memWriteN t.priv t.cso.toNat (toLE (t.pc + 1).toNat 4), cso := t.cso + 4,
               pc := target })

/-! ## The end of a thread (R81) -/

/-- An exited thread leaves when its outstanding loads have landed; its slot is free then (R81). -/
def State.reap (s : State) (id : ThreadId) : State :=
  match s.thread id with
  | some t =>
    if t.await == .exited && t.loads == 0 then { s with threads := tdel s.threads id } else s
  | none => s

/-- The watch of a thread's monitor goes (R283). -/
def State.dropWatch (s : State) (id : ThreadId) : State :=
  { s with dies := s.dies.map fun (p : Nat × Die) =>
      (p.1, { p.2 with watches := p.2.watches.filter (· != id) }) }

/-- EXIT of one thread: crews, holds, waits and its watch end (R81, R283). -/
def State.exitThread (s : State) (id : ThreadId) : State :=
  let s := (s.dropAll id).dropWatch id
  (s.modThread id fun t => { t with crews := [], await := .exited, monitor := none, nopre := none }).reap id

/-- A course as it starts (R13). -/
def Course.fresh (ctx core : Nat) (tiles : Nat) : Course :=
  { ctx := ctx, core := core, slots := [0], regBytes := 0, regAt := [], spAt := [],
    leased := 0, inL2 := false, tiles := List.replicate tiles ⟨⟨0, []⟩, []⟩,
    bars := Vector.replicate 16 ⟨0, 0, 0⟩, scratch := [], bins := [], pool := [], area := none,
    rowPriv := [], poison := false, noshadow := false, firstThr := 0, staging := [], commits := [],
    committed := false, stranded := false, binStop := none, charged := 0, redo := 0 }

/-! ## Group 0x3 -/

/-- BRA (R79). -/
def execBra (x : BrOp) (s : State) : Host.Outcome State Fault Refusal :=
  .next (s.runLocal x.ctl fun t => .ok { t with pc := t.pc + x.off })

/-- BRX (R79). -/
def execBrx (x : AOp) (s : State) : Host.Outcome State Fault Refusal :=
  .next (s.runGang x.ctl fun s id t => do
    let pc ← s.indirect id t x.a
    .ok (s.setThread id { t with pc := pc }))

/-- CALL (R80). -/
def execCall (x : BrOp) (s : State) : Host.Outcome State Fault Refusal :=
  .next (s.runUnless x.ctl (fun s id _ => s.privPending id) fun s id t => s.call id t (t.pc + x.off))

/-- CALLX (R80). -/
def execCallx (x : AOp) (s : State) : Host.Outcome State Fault Refusal :=
  .next (s.runUnless x.ctl (fun s id _ => s.privPending id) fun s id t => do
    let pc ← s.indirect id t x.a
    s.call id t pc)

/-- RET (R80). -/
def execRet (x : NoOp) (s : State) : Host.Outcome State Fault Refusal :=
  .next (s.runUnless x.ctl (fun s id _ => s.privPending id) fun s id t =>
    if t.cso == 0 then .error (.fault causeUnderflow 0xFF)
    else do
      let cso := t.cso - 4
      let (ok, s) ← s.privAccess id t cso.toNat 4 .read
      if ok then
        .ok (s.setThread id
          { t with cso := cso, pc := BitVec.ofNat 32 (leNat (memReadN t.priv cso.toNat 4)) })
      else .ok (s.readFailure id))

/-- EXIT (R81). -/
def execExit (x : NoOp) (s : State) : Host.Outcome State Fault Refusal :=
  .next (s.runGang x.ctl fun s id _ => .ok (s.exitThread id))

/-- NOP (R82). -/
def execNop (x : NoOp) (s : State) : Host.Outcome State Fault Refusal :=
  .next (s.runLocal x.ctl fun t => .ok t.advance)

end Sys2Proof.Machine
end

