-- ==== Sys2Proof/Machine/Thatch.lean ====
section
/-! DEFINITION. Thatch.lean: thatch tiles, their rows and headers, and loads that land in a row
(R291, R293). -/

namespace Sys2Proof.Machine

/-- Why a tile cannot be reached: a translation failure, or an uncorrectable or revoked line. -/
inductive BinFail where
  | fault (hv : Bool) (cause va : Nat)
  | lost

/-! ## Bytes of a tile (R291, R295) -/

/-- Pieces of at most 64 bytes that no unit divides. -/
def unitPieces (a n : Nat) : List (Nat × Nat) :=
  let first := min n (64 - a % 64)
  (a, first) :: (List.range (ceilDiv (n - first) 64)).map fun i =>
    (a + first + 64 * i, min 64 (n - first - 64 * i))

/-- Where the bin unit finds a piece of global memory. -/
def State.binAddr (s : State) (c : Course) (va n : Nat) (acc : Access) :
    Except BinFail (Nat × Nat × State) :=
  match s.translate c.core c.ctx (BitVec.ofNat 64 va) acc with
  | (.error (hv, cause), _) => .error (if cause == 3 then .lost else .fault hv cause va)
  | (.ok (pa, key), s) =>
    if s.keyRevoked key || !s.reachable pa n then .error .lost else .ok (pa, key, s)

/-- Read pieces of global memory at home. -/
def State.binRead (s : State) (c : Course) : List (Nat × Nat) → Except BinFail (List Byte × State)
  | [] => .ok ([], s)
  | (va, n) :: r => do
    let (pa, key, s) ← s.binAddr c va n .copy
    let bs := if s.physClass pa = .window then s.windowRead (s.partOf c.ctx) pa n
      else s.readKeyed key pa n
    let (rest, s) ← s.binRead c r
    .ok (bs ++ rest, s)

/-- Write pieces of global memory at home; the register window drops them. -/
def State.binWrite (s : State) (c : Course) (bs : List Byte) :
    List (Nat × Nat) → Except BinFail State
  | [] => .ok s
  | (va, n) :: r => do
    let (pa, key, s) ← s.binAddr c va n .write
    let s := if s.physClass pa = .window then s
      else (s.writeKeyed key pa (bs.take n)).markDirty (s.partOf c.ctx) pa
    s.binWrite c (bs.drop n) r

def areaBase (c : Course) : Nat :=
  match c.area with
  | some (b, _) => b.toNat
  | none => 0

/-- Bytes of a tile, its headers from 4,096 upward. -/
def State.tileRead (s : State) (co : CourseId) (ref : TileRef) (off n : Nat) :
    Except BinFail (List Byte × State) :=
  match s.course co with
  | none => .ok (List.replicate n 0, s)
  | some c =>
    match ref with
    | .pool i => .ok (memReadN (c.pool.getD i []) off n, s)
    | .area i => s.binRead c (unitPieces (areaBase c + 6144 * i + off) n)

def State.tileWrite (s : State) (co : CourseId) (ref : TileRef) (off : Nat) (bs : List Byte) :
    Except BinFail State :=
  match s.course co with
  | none => .ok s
  | some c =>
    match ref with
    | .pool i =>
      let m := memWriteN (c.pool.getD i []) off bs
      .ok (s.setCourse co { c with pool := setAt c.pool i m })
    | .area i => s.binWrite c bs (unitPieces (areaBase c + 6144 * i + off) bs.length)

/-! ## Rows (R291) -/

/-- A row header. -/
structure RowHeader where
  tags : List Tag
  gen : Word
  cso : Word
  pc : Word
  cthr : Nat
  n : Nat
  preds : BitVec 7
  prio : BitVec 3
  fctl : BitVec 10
  fflags : BitVec 5
  need : BitVec 4
  have_ : BitVec 4
  pend : Nat
  live : Bool
  deriving DecidableEq, Repr

def RowHeader.read (bs : List Byte) : RowHeader :=
  let h := leNat bs
  { tags := (List.range 32).map fun j => BitVec.ofNat 8 (h / 2 ^ (256 + 8 * j)),
    gen := BitVec.ofNat 32 (bits h 255 224), cso := BitVec.ofNat 32 (bits h 223 192),
    pc := BitVec.ofNat 32 (bits h 191 160), cthr := bits h 159 150, n := bits h 149 144,
    preds := BitVec.ofNat 7 (bits h 143 137), prio := BitVec.ofNat 3 (bits h 136 134),
    fctl := BitVec.ofNat 10 (bits h 133 124), fflags := BitVec.ofNat 5 (bits h 123 119),
    need := BitVec.ofNat 4 (bits h 118 115), have_ := BitVec.ofNat 4 (bits h 114 111),
    pend := bits h 110 105, live := nbit h 104 }

def RowHeader.bytes (h : RowHeader) : List Byte :=
  toLE (h.tags.zipIdx.foldl (fun n p => n + p.1.toNat * 2 ^ (256 + 8 * p.2)) 0 +
    h.gen.toNat * 2 ^ 224 + h.cso.toNat * 2 ^ 192 + h.pc.toNat * 2 ^ 160 + h.cthr % 1024 * 2 ^ 150 +
    h.n % 64 * 2 ^ 144 + h.preds.toNat * 2 ^ 137 + h.prio.toNat * 2 ^ 134 + h.fctl.toNat * 2 ^ 124 +
    h.fflags.toNat * 2 ^ 119 + h.need.toNat * 2 ^ 115 + h.have_.toNat * 2 ^ 111 +
    h.pend % 64 * 2 ^ 105 + b2n h.live * 2 ^ 104) 64

/-- Awake: live, no load to land, and every needed wake bit received. -/
def RowHeader.awake (h : RowHeader) : Bool :=
  h.live && h.pend == 0 && h.have_ &&& h.need == h.need

/-- A row of a chain: its tile, its index and its header. -/
structure RowAt where
  tile : TileRef
  row : Nat
  hdr : RowHeader

def State.readHeader (s : State) (co : CourseId) (ref : TileRef) (r : Nat) :
    Except BinFail (RowHeader × State) := do
  let (bs, s) ← s.tileRead co ref (4096 + 64 * r) 64
  .ok (RowHeader.read bs, s)

def State.writeHeader (s : State) (co : CourseId) (x : RowAt) : Except BinFail State :=
  s.tileWrite co x.tile (4096 + 64 * x.row) x.hdr.bytes

/-- The words of a row. -/
def State.readRow (s : State) (co : CourseId) (ref : TileRef) (r : Nat) :
    Except BinFail (List Word × State) := do
  let (bs, s) ← s.tileRead co ref (128 * r) 128
  .ok ((List.range 32).map fun j => BitVec.ofNat 32 (leNat ((bs.drop (4 * j)).take 4)), s)

def rowBytes (ws : List Word) : List Byte := ws.flatMap fun w => toLE w.toNat 4

/-- Row places of a chain that have been used, in order. -/
def Bin.places (b : Bin) : List (TileRef × Nat) :=
  b.tiles.zipIdx.flatMap fun p =>
    (List.range (if p.2 + 1 == b.tiles.length then b.nextRow else 32)).map fun r => (p.1, r)

/-- Live rows at some places, in order. -/
def State.liveAt (s : State) (co : CourseId) :
    List (TileRef × Nat) → Except BinFail (List RowAt × State)
  | [] => .ok ([], s)
  | (ref, r) :: rest => do
    let (h, s) ← s.readHeader co ref r
    let (l, s) ← s.liveAt co rest
    .ok (if h.live then ⟨ref, r, h⟩ :: l else l, s)

/-- Live rows of a bin in chain order. -/
def State.liveRows (s : State) (co : CourseId) (bin : Nat) : Except BinFail (List RowAt × State) :=
  match s.course co with
  | some c => match c.bins[bin]? with
    | some b => s.liveAt co b.places
    | none => .ok ([], s)
  | none => .ok ([], s)

/-! ## Loads that land in a row (R293) -/

/-- The live row that holds a thread, among some bins. -/
def State.findRow (s : State) (co : CourseId) (cthr : Nat) :
    List Nat → Except BinFail (Option RowAt × State)
  | [] => .ok (none, s)
  | b :: r => do
    let (rows, s) ← s.liveRows co b
    match rows.find? fun x => x.hdr.cthr == cthr with
    | some x => .ok (some x, s)
    | none => s.findRow co cthr r

/-- Write the words of a load into a row and its tags into the header. -/
def State.landWords (s : State) (co : CourseId) (x : RowAt) :
    List (Nat × VReg) → Except BinFail (RowAt × State)
  | [] => .ok (x, s)
  | (n, v) :: r => do
    let s ← s.tileWrite co x.tile (128 * x.row + 4 * n) (toLE v.bits.toNat 4)
    s.landWords co { x with hdr := { x.hdr with tags := setAt x.hdr.tags n v.tag } } r

/-- Land register writes and flags in the row of a thread that has yielded: the row's pend falls. -/
def State.landRow (s : State) (th : ThreadId) (ws : List (Nat × VReg)) (fl : BitVec 5) :
    Except BinFail State := do
  let co := courseOf th
  let bins := match s.course co with
    | some c => List.range c.bins.length
    | none => []
  let (x, s) ← s.findRow co th.cthr bins
  match x with
  | none => .ok s
  | some x =>
    let (x, s) ← s.landWords co x (ws.filter fun p => decide (p.1 < x.hdr.n))
    s.writeHeader co { x with hdr := { x.hdr with
      fflags := x.hdr.fflags ||| fl, pend := x.hdr.pend - (if ws.isEmpty then 0 else 1) } }

/-- Land an operation of the load class: in the thread, or in its row. -/
def State.land (s : State) (op : Nat) (o : Op) (ws : List (Nat × VReg)) (fl : BitVec 5)
    (f : Thread → Thread) : Except BinFail State :=
  match s.thread o.th with
  | some _ => .ok ((((s.delOp op).modThread o.th fun t =>
      f ((t.writeRegs ws).raiseLate fl (o.fctl.extractLsb' 0 5) o.pc o.field o.armed op)).countDown
        o.th .load).reap o.th)
  | none => do
    let s ← s.landRow o.th ws fl
    .ok (s.delOp op)

/-- The same as an outcome: a row that cannot be reached stops the operation on the fault queue, and
a lost tile rolls the course back (R295, R337). -/
def State.landed (s : State) (op : Nat) (o : Op) (ws : List (Nat × VReg)) (fl : BitVec 5)
    (f : Thread → Thread) : State :=
  match s.land op o ws fl f with
  | .ok s => s
  | .error (.fault hv cause va) => s.stopOp op o hv cause va
  | .error .lost => s.courseFailure (courseOf o.th) 0x04 o.pc o.th.cthr

end Sys2Proof.Machine
end

