-- ==== Sys2Proof/Machine/Memory.lean ====
section
/-! DEFINITION. Memory.lean: the meanings of group 0x4 and the returns of its operations (R83 to
R93). -/

namespace Sys2Proof.Machine

/-! ## Addresses (R85) -/

/-- The effective address of a global access: the pair's tag, then alignment. -/
def Thread.globalAddr (t : Thread) (a : Opd) (off : BitVec 12) (bytes : Nat) (d : Opd) :
    Except Trap DWord := do
  t.need true a 0
  let va := t.pair a + sext64 off
  if va.toNat % bytes != 0 then .error (.fault causeMisaligned d.enc) else .ok va

/-- The effective address of a scratchpad or private access, within `limit` bytes. -/
def Thread.localAddr (t : Thread) (a : Opd) (off : BitVec 12) (bytes limit : Nat) (d : Opd) :
    Except Trap Nat := do
  t.need false a 0
  let n := ((t.reg a).bits + sext32 off).toNat
  if n % bytes != 0 then .error (.fault causeMisaligned d.enc)
  else if n + bytes > limit then .error (.fault causeRange d.enc)
  else .ok n

/-- Bytes of the program area of the scratchpad (R14). -/
def State.scratchBytes (s : State) (id : ThreadId) : Nat :=
  match s.kdesc id.launch with
  | some k => k.scratch
  | none => 0

/-- A counter at 63 holds the instruction (R86). -/
def countFull (c : CountClass) : State → ThreadId → Thread → Bool := fun _ _ t => decide (t.count c ≥ 63)

/-- A copy or MLDS in flight holds an access to its scratchpad range (R199, R205): a load against
what CPY and CPYX write, a store against every range. -/
def State.rangeHeld (s : State) (co : CourseId) (addr bytes : Nat) (write : Bool) : Bool :=
  (s.opsOf co).any fun p => match p.2.kind with
    | .copy c => match c.side with
      | .scratch a => (write || c.kind != .cpyo) && c.kind != .publ && decide (a < addr + bytes) &&
          decide (addr < a + c.bytes)
      | .tile _ => false
    | .mlds _ _ fmt _ _ (.scratch a) => write && decide (a < addr + bytes) &&
        decide (addr < a + 8192 + (if tagClass fmt == 6 then 256 else 0))
    | _ => false

/-! ## Operations in flight -/

/-- Start an operation of the load class that will write registers (R86). -/
def State.startLoad (s : State) (id : ThreadId) (t : Thread) (d : Opd)
    (ws : List (Nat × VReg)) : State :=
  (s.addOp { th := id, pc := t.pc, field := d.enc, issued := s.cycle, due := s.cycle, stop := none,
             fctl := t.fctl, kind := .load ws }).setThread id (t.countUp .load).advance

/-- Start a private store (R86). -/
def State.startPrivate (s : State) (id : ThreadId) (t : Thread) (addr : Nat) (bs : List Byte) :
    State :=
  (s.addOp { th := id, pc := t.pc, field := 0xFF, issued := s.cycle, due := s.cycle, stop := none,
             fctl := t.fctl, kind := .priv addr bs }).setThread id (t.countUp .store).advance

/-- Private memory as the thread's next instruction sees it: its own pending stores are performed in
program order (R92). -/
def State.privView (s : State) (id : ThreadId) (t : Thread) : Memory :=
  (s.opsOfThread id).foldl (fun m p => match p.2.kind with
    | .priv a bs => memWriteN m a bs
    | _ => m) t.priv

/-! ## Loads -/

/-- The latest acquire among the threads of a load that read a line: they all get the value that it
allows (R88, R269). -/
def State.lineAcq (s : State) (ps : List (ThreadId × Thread)) (a : Opd) (off : BitVec 12) (line : Nat) : Nat :=
  ps.foldl (fun m p =>
    match (s.translate (s.coreOf p.1) (s.ctxOf p.1) (p.2.pair a + sext64 off) .read).1 with
    | .ok (pa, _) => if pa / 128 == line then max m p.2.acqTs else m
    | .error _ => m) 0

/-- LD of one thread (R83 to R89): `acq` gives the acquire that the line's copy must come after, and
`draw` is the instruction's free number. -/
def loadAct (x : LoadOp) (acq : Nat → Nat) (draw : Nat) : Act := fun s id t => do
  let n := Width.bytes x.width
  let va ← t.globalAddr x.a x.off n x.d
  let (pa, key, s) ← s.translateFor id va .read
  match s.loadGlobal id (max t.acqTs (acq (pa / 128))) pa key n x.pol.val draw with
  | (some bs, s) => .ok (s.startLoad id t x.d (loadWrites x.width x.sext x.fmt x.d bs))
  | (none, s) => .ok (s.readFailure id)

/-- An instruction that has read through the caches of the issuing core used a free number, and may have
filled a set beyond its ways. -/
def State.afterReads (s : State) : State :=
  match s.issue with
  | some g => s.readsDone g.core
  | none => s

/-- LD (R83 to R89). -/
def execLd (x : LoadOp) (s : State) : Host.Outcome State Fault Refusal :=
  .next (s.runUnless x.ctl (countFull .load)
    (loadAct x (s.lineAcq (s.active x.ctl) x.a x.off) s.free)).afterReads

/-- LDS (R85, R90): performed at the core in issue order. -/
def execLds (x : LoadOp) (s : State) : Host.Outcome State Fault Refusal :=
  .next (s.runUnless x.ctl
    (fun s id t => countFull .load s id t ||
      s.rangeHeld (courseOf id) ((t.reg x.a).bits + sext32 x.off).toNat (Width.bytes x.width) false)
    fun s id t => do
      let n := Width.bytes x.width
      let a ← t.localAddr x.a x.off n (s.scratchBytes id) x.d
      let bs := match s.course (courseOf id) with
        | some c => memReadN c.scratch a n
        | none => List.replicate n 0
      .ok (s.startLoad id t x.d (loadWrites x.width x.sext x.fmt x.d bs)))

/-- Global memory as it was after the first `k` writes since a launch began (R91). -/
def State.sinceBegin (s : State) (launch k : Nat) : State :=
  match s.launch launch with
  | some l => { s with mem := l.code, units := l.codeKeys }.replay
      ((s.past.filter fun (w : PastWrite) => decide (launch < w.no)).take k)
  | none => s

/-- What LDC reads of one 8-byte word: its value when the launch began or after some write since, which
the instruction's free number decides word by word (R91, log entry 5). -/
def State.constWord (s : State) (launch key pa n draw : Nat) : List Byte :=
  let m := (s.past.filter fun w => decide (launch < w.no)).length
  (s.sinceBegin launch (Config.freeLine draw (pa / 8) % (m + 1))).readKeyed key pa n

/-- LDC's bytes. -/
def State.loadConst (s : State) (id : ThreadId) (pa key n draw : Nat) : List Byte :=
  if s.physClass pa = .window then s.windowRead (s.partOf (s.ctxOf id)) pa n
  else if n ≤ 8 then s.constWord id.launch key pa n draw
  else s.constWord id.launch key pa 8 draw ++ s.constWord id.launch key (pa + 8) (n - 8) draw

/-- LDC of one thread (R91). A value that was written since the launch began drops the caches' copies of
the line, so that no later load of the thread gets an older one (R271). -/
def constAct (x : LoadOp) (draw : Nat) : Act := fun s id t => do
  let n := Width.bytes x.width
  let va ← t.globalAddr x.a x.off n x.d
  let (pa, key, s) ← s.translateFor id va .read
  if !s.reachable pa n then .ok (s.readFailure id)
  else
    let bs := s.loadConst id pa key n draw
    let s := if bs = (s.sinceBegin id.launch 0).readKeyed key pa n then s else s.dropLine id (pa / 128)
    .ok (s.startLoad id t x.d (loadWrites x.width x.sext x.fmt x.d bs))

/-- LDC (R91). -/
def execLdc (x : LoadOp) (s : State) : Host.Outcome State Fault Refusal :=
  .next (s.runUnless x.ctl (countFull .load) (constAct x s.free)).afterReads

/-- LDP (R92). -/
def execLdp (x : LoadOp) (s : State) : Host.Outcome State Fault Refusal :=
  .next (s.runUnless x.ctl (countFull .load) fun s id t => do
    let n := Width.bytes x.width
    let a ← t.localAddr x.a x.off n (s.stackBytes id) x.d
    let (ok, s) ← s.privAccess id t a n .read
    if ok then
      .ok (s.startLoad id t x.d
        (loadWrites x.width x.sext x.fmt x.d (memReadN (s.privView id t) a n)))
    else .ok (s.readFailure id))

/-- LOAD_RETURN: an outstanding load writes its registers and the load counter falls (R86); the
values of an exited thread are discarded (R81), and those of a yielded one land in its row (R293). -/
def execLoadReturn (th : ThreadId) (op : Nat) (s : State) : Host.Outcome State Fault Refusal :=
  match s.op op with
  | some o =>
    match o.kind with
    | .load ws =>
      if o.th = th ∧ o.stop.isNone then .next (s.landed op o ws 0 id) else .next s
    | _ => .next s
  | none => .next s

/-! ## Stores -/

/-- A course of the gang whose staging buffer would pass its 4,096 entries (R266, R268). -/
def State.overflowed (s : State) (ids : List ThreadId) : List CourseId :=
  (ids.map courseOf).foldl (fun l co => match s.course co with
    | some c => if c.staging.length > 4096 then addNew l co else l
    | none => l) []

/-- ST of one thread: checks, translation, and the staged words (R85, R87, R89). -/
def storeAct (x : StoreOp) : Act := fun s id t => do
  let n := Width.bytes x.width
  t.need true x.a 0
  t.needData x.width x.fmt x.b
  let va ← t.globalAddr x.a x.off n .zero
  let (pa, key, s) ← s.translateFor id va .write
  .ok ((s.stage (storeWords id t.pc x.colour va pa key (t.storeBytes x.width x.b)
    x.pol s.cycle) (courseOf id)).setThread id t.advance)

/-- ST. It waits at issue while its course's buffer has no room, after a commit of the whole course
(R268). -/
def execSt (x : StoreOp) (s : State) : Host.Outcome State Fault Refusal :=
  if (s.active x.ctl).any fun p => countFull .store s p.1 p.2 then .next s.loseTurn
  else
    let s' := s.runGang x.ctl (storeAct x)
    match s'.overflowed ((s.active x.ctl).map (·.1)) with
    | [] => .next s'
    | cos => .next (cos.foldl (fun s co => s.commitCourse co) s).loseTurn

/-- STS (R85, R88, R90): performed at issue, thread by thread. -/
def execSts (x : StoreOp) (s : State) : Host.Outcome State Fault Refusal :=
  .next (s.runUnless x.ctl
    (fun s id t => countFull .store s id t ||
      s.rangeHeld (courseOf id) ((t.reg x.a).bits + sext32 x.off).toNat (Width.bytes x.width) true)
    fun s id t => do
      t.need false x.a 0
      t.needData x.width x.fmt x.b
      let a ← t.localAddr x.a x.off (Width.bytes x.width) (s.scratchBytes id) .zero
      .ok ((s.modCourse (courseOf id) fun c =>
        { c with scratch := memWriteN c.scratch a (t.storeBytes x.width x.b) }).setThread id
          t.advance))

/-- STP (R92). -/
def execStp (x : StoreOp) (s : State) : Host.Outcome State Fault Refusal :=
  .next (s.runUnless x.ctl (countFull .store) fun s id t => do
    t.need false x.a 0
    t.needData x.width x.fmt x.b
    let a ← t.localAddr x.a x.off (Width.bytes x.width) (s.stackBytes id) .zero
    let (_, s) ← s.privAccess id t a (Width.bytes x.width) .write
    .ok (s.startPrivate id t a (t.storeBytes x.width x.b)))

/-- PRIVATE_STORE_PERFORMED: the thread's earliest private store is performed and the store counter
falls (R86). -/
def execPrivateStorePerformed (th : ThreadId) (op : Nat) (s : State) :
    Host.Outcome State Fault Refusal :=
  match s.op op with
  | some o =>
    match o.kind with
    | .priv a bs =>
      let earlier := (s.opsOfThread th).any fun p => decide (p.1 < op) && (match p.2.kind with
        | .priv _ _ => true
        | _ => false)
      if o.th = th ∧ earlier = false then
        .next (((s.delOp op).modThread th fun t => { t with priv := memWriteN t.priv a bs }).countDown
          th .store)
      else .next s
    | _ => .next s
  | none => .next s

/-! ## PREF (R93) -/

/-- A prefetch of one thread: dropped where a check fails, no translation is cached, or the level that the
policy names has the line already. -/
def State.prefetch (s : State) (id : ThreadId) (t : Thread) (va : DWord) (pol draw : Nat) : State :=
  let core := s.coreOf id
  let die := coreDie core
  match s.tlbHit core (s.ctxOf id) va.toNat with
  | none => s
  | some e =>
    let pa := e.phys + (va.toNat - e.page)
    match s.checkAccess e pa .read with
    | .error _ => s
    | .ok () =>
      let line := pa / 128
      let far := homeOf pa != some die
      let has (ls : List CacheLine) : Bool := ls.any fun l => l.line == line && l.key == e.key
      if !s.reachable pa 1 || s.physClass pa = .window then s
      else if pol == 1 then
        if far then
          if has (s.die die).rdc then s
          else s.modDie die fun d => { d with rdc := putLine d.rdc (s.fetchLine line e.key) }
        else if (s.die die).l2.any fun l => l.1 == line then s
        else s.markL2 line .normal
      else if has (s.core core).l1 then s
      else (s.serve core t.acqTs line e.key pol (Config.freeLine draw line)).2

/-- PREF. -/
def execPref (x : PrefOp) (s : State) : Host.Outcome State Fault Refusal :=
  let draw := s.free
  .next (s.runGang x.ctl fun s id t =>
    let s := if t.pairHasTag x.a 0 then s.prefetch id t (t.pair x.a + sext64 x.off) x.pol.val draw else s
    .ok (s.setThread id t.advance)).afterReads

end Sys2Proof.Machine
end

