-- ==== Sys2Proof/Machine/Atomic.lean ====
section
/-! DEFINITION. Atomic.lean: the meanings of group 0x5, commits as they register, and the ATOMD
buffer (R266 to R280). -/

namespace Sys2Proof.Machine

/-! ## What an atomic computes (R278) -/

def AtomTy.width (ty : AtomTy) : Nat := if ty.wide then 64 else 32

def AtomTy.signed : AtomTy → Bool
  | .s32 => true
  | .s64 => true
  | _ => false

/-- The tag of a type (R277). -/
def AtomTy.tag : AtomTy → Tag
  | .f32 => 0x20
  | .f64 => 0x40
  | _ => 0x00

def AtomTy.fmt (ty : AtomTy) : Fmt := if ty.wide then .f64 else .f32

/-- The rounding of float atomics: nearest even, subnormals kept. -/
def plainRne : FEnv := ⟨.rne, false, 0, 0⟩

/-- op(old, b) with the flags of a float operation. -/
def atomOp (ty : AtomTy) (fn : AtomFn) (old b : Nat) : Nat × BitVec 5 :=
  let w := AtomTy.width ty
  let val (n : Nat) : Int := if AtomTy.signed ty then signedOf w n else n
  let flt (r : Nat × FEnv) : Nat × BitVec 5 := (r.1, r.2.flags)
  match fn with
  | .add => if ty.float then flt (plainRne.addC (AtomTy.fmt ty) old b) else ((old + b) % 2 ^ w, 0)
  | .min =>
    if ty.float then flt (plainRne.minMaxC (AtomTy.fmt ty) false old b)
    else (if val old ≤ val b then old else b, 0)
  | .max =>
    if ty.float then flt (plainRne.minMaxC (AtomTy.fmt ty) true old b)
    else (if val old ≤ val b then b else old, 0)
  | .and => (old &&& b, 0)
  | .or => (old ||| b, 0)
  | .xor => (old ^^^ b, 0)
  | .exch => (b, 0)

/-- The new value of the word. -/
def AtomKind.apply (k : AtomKind) (ty : AtomTy) (old : Nat) : Nat × BitVec 5 :=
  let w := AtomTy.width ty
  match k with
  | .op fn b => atomOp ty fn old (b.toNat % 2 ^ w)
  | .cas e n => (if old == e.toNat % 2 ^ w then n.toNat % 2 ^ w else old, 0)

/-! ## Registration at home -/

/-- Write bytes at home: the writer's own copies go, watches fire, snapshots note the page (R267,
R271, R283, R327). -/
def State.homeWrite (s : State) (id : ThreadId) (key pa : Nat) (bs : List Byte) : State :=
  (((s.writeKeyed key pa bs).dropLine id (pa / 128)).fireWatches (pa / 128)).markDirty
    (s.partOf (s.ctxOf id)) pa

/-- A commit of the thread's untaken entries for the 8-byte word of an address (R278). -/
def State.commitWord (s : State) (id : ThreadId) (pa : Nat) : State :=
  match s.course (courseOf id) with
  | none => s
  | some c =>
    let hit (e : StageEntry) : Bool := e.th == id && e.phys == pa / 8 * 8 && e.taken.isNone
    if c.staging.any hit then
      let (n, s) := s.fresh
      s.setCourse (courseOf id)
        { c with staging := c.staging.map fun e => if hit e then { e with taken := some n } else e,
                 commits := c.commits ++ [⟨n, some id, false, none⟩] }
    else s

/-- COMMIT_REGISTER: a commit that may register does so (R267, R332). -/
def execCommitRegister (co : CourseId) (commit : Nat) (s : State) :
    Host.Outcome State Fault Refusal :=
  match s.course co with
  | some c =>
    match c.commits.find? fun m => m.id == commit with
    | some m => if s.commitReady co m then .next (s.registerCommit co m) else .next s
    | none => .next s
  | none => .next s

/-! ## ACQ, REL and FENCE -/

/-- ACQ (R274). -/
def execAcq (x : NoOp) (s : State) : Host.Outcome State Fault Refusal :=
  .next (s.runUnless x.ctl (fun _ _ t => t.loads != 0) fun s id t =>
    .ok (s.setThread id { t.advance with acqTs := s.gts }))

/-- REL (R275). -/
def execRel (x : NoOp) (s : State) : Host.Outcome State Fault Refusal :=
  .next (s.runGang x.ctl fun s id t => .ok ((s.release id).setThread id t.advance))

/-- Commits of a thread that have not registered. -/
def State.commitsOpen (s : State) (id : ThreadId) : Bool := s.commitBefore id s.nextId

/-- FENCE (R276): with nothing to register it completes at once. -/
def execFence (x : FenceOp) (s : State) : Host.Outcome State Fault Refusal :=
  .next (s.runUnless x.ctl (countFull .store) fun s id t =>
    let es := match s.course (courseOf id) with
      | some c => c.staging
      | none => []
    let takes := es.zipIdx.any fun p => takesEntry es id x.mask p.2 p.1
    if x.mask == 0 || (!takes && !s.commitsOpen id) then .ok (s.setThread id t.advance)
    else .ok ((s.commitThread id x.mask true).setThread id (t.countUp .store).advance))

/-! ## ATOM and CAS -/

/-- The turn holds ATOM, CAS, SYSC and LAUNCH at issue in a deterministic kernel (R333). -/
def turnHeld : State → ThreadId → Thread → Bool := fun s id _ => !s.mayRegister (courseOf id)

/-- An operand of an atomic. -/
def Thread.atomOperand (t : Thread) (ty : AtomTy) (o : Opd) : DWord :=
  if ty.wide then t.pair o else (t.reg o).bits.setWidth 64

/-- Checks of an atomic's address: tag, alignment, and a page that is readable and writable
(R277). -/
def State.atomAddr (s : State) (id : ThreadId) (t : Thread) (ty : AtomTy) (a d : Opd)
    (off : BitVec 12) : Except Trap (DWord × Nat × Nat × State) := do
  let va ← t.globalAddr a off (AtomTy.width ty / 8) d
  let (_, _, s) ← s.translateFor id va .read
  let (pa, key, s) ← s.translateFor id va .write
  .ok (va, pa, key, s)

/-- Start an atomic: the releases and commits before it, then the operation (R278). -/
def State.startAtomic (s : State) (id : ThreadId) (t : Thread) (ty : AtomTy) (kind : AtomKind)
    (d : Opd) (va : DWord) (pa key : Nat) (acq rel : Bool) : State :=
  let s := if rel then s.release id else s
  let s := s.commitWord id pa
  (s.addOp { th := id, pc := t.pc, field := d.enc, issued := s.cycle, due := s.cycle, stop := none,
             fctl := t.fctl, armed := t.armed, kind := .atomic ty kind d va pa key acq }).setThread id
    (t.countUp .load).advance

/-- ATOM of one thread, and ATOMD outside deterministic kernels. -/
def atomAct (x : AtomOp) (d : Opd) : Act := fun s id t => do
  t.need true x.a 0
  t.need x.ty.wide x.b (AtomTy.tag x.ty)
  let (va, pa, key, s) ← s.atomAddr id t x.ty x.a d x.off
  .ok (s.startAtomic id t x.ty (.op x.fn (t.atomOperand x.ty x.b)) d va pa key x.acq x.rel)

/-- ATOM (R277, R278). -/
def execAtom (x : AtomOp) (s : State) : Host.Outcome State Fault Refusal :=
  .next (s.runUnless x.ctl (fun s id t => countFull .load s id t || turnHeld s id t)
    (atomAct x x.d))

/-- CAS (R277, R278). -/
def execCas (x : CasOp) (s : State) : Host.Outcome State Fault Refusal :=
  .next (s.runUnless x.ctl (fun s id t => countFull .load s id t || turnHeld s id t) fun s id t => do
    t.need true x.a 0
    t.need x.ty.wide x.b (AtomTy.tag x.ty)
    t.need x.ty.wide x.c (AtomTy.tag x.ty)
    let (va, pa, key, s) ← s.atomAddr id t x.ty x.a x.d x.off
    .ok (s.startAtomic id t x.ty (.cas (t.atomOperand x.ty x.b) (t.atomOperand x.ty x.c)) x.d va pa
      key x.acq x.rel))

/-- The atomic at home: the old value, and the state with the new one; `none` when the word is
uncorrectable or its device cannot be reached. The register window drops it (R345). -/
def State.performAtomic (s : State) (id : ThreadId) (ty : AtomTy) (kind : AtomKind) (pa key : Nat) :
    Option (Nat × BitVec 5 × State) :=
  let n := AtomTy.width ty / 8
  let perform : Option (Nat × BitVec 5 × State) :=
    let old := leNat (s.readKeyed key pa n)
    let (new, fl) := kind.apply ty old
    some (old, fl, s.homeWrite id key pa (toLE new n))
  match s.physClass pa with
  | .window => some (2 ^ (8 * n) - 1, 0, s)
  | .absent => none
  | .link _ => if s.linkUp then perform else none
  | .hbm => if s.isPoisoned pa n then none else perform
  | .host => if s.isPoisoned pa n then none else perform

/-- The register writes of the old value. -/
def atomWrites (ty : AtomTy) (d : Opd) (old : Nat) : List (Nat × VReg) :=
  match d with
  | .v n =>
    if ty.wide then [(n.val, ⟨BitVec.ofNat 32 old, AtomTy.tag ty⟩),
      (n.val + 1, ⟨BitVec.ofNat 32 (old / 2 ^ 32), AtomTy.tag ty⟩)]
    else [(n.val, ⟨BitVec.ofNat 32 old, AtomTy.tag ty⟩)]
  | _ => []

/-- An acquiring atomic's return acquires (R278). -/
def Thread.acquireIf (acq : Bool) (now : Nat) (t : Thread) : Thread :=
  if acq then { t with acqTs := now } else t

/-- ATOMIC_RETURN: the operation is performed at home after the thread's earlier commits and atomics,
and old returns (R267, R278). A page protected for a snapshot, or absent, stops it on a stage-2 fault
(R327, R329). -/
def execAtomicReturn (th : ThreadId) (op : Nat) (s : State) : Host.Outcome State Fault Refusal :=
  match s.op op with
  | some o =>
    match o.kind with
    | .atomic ty kind d va pa key acq =>
      if o.th ≠ th || o.stop.isSome || !s.atomicReady op o acq then .next s
      else
        let ctx := s.ctxOf th
        let absent := s.absentPage (s.partOf ctx) pa
        if absent || s.guarded (s.partOf ctx) pa then
          let (tk, s) := s.enterFault true (s.partOf ctx) (s.srcOf th)
            (faultEntry va.toNat s.gts th.course o.pc.toNat ctx th.cthr (if absent then 1 else 2) 1 true)
          .next (s.modOp op fun o => { o with stop := some tk })
        else
          -- the row of a yielded thread must be within reach before the word changes
          match s.land op o (atomWrites ty d 0) 0 id with
          | .error _ => .next (s.landed op o (atomWrites ty d 0) 0 id)
          | .ok _ =>
            match s.performAtomic th ty kind pa key with
            | some (old, fl, s) =>
              let s := s.modCourse (courseOf th) fun c => { c with committed := true }
              .next ((s.landed op o (atomWrites ty d old) fl (Thread.acquireIf acq s.gts)).acceptCopies
                (courseOf th))
            | none => .next (s.courseFailure (courseOf th) 0x06 o.pc th.cthr)
    | _ => .next s
  | none => .next s

/-! ## ATOMD and DFLUSH (R279, R280) -/

/-- The entry that a new one combines with: the latest of the thread for the word, of the same type
and operation, integer and not taken. -/
def combinesWith (es : List AtomdEntry) (id : ThreadId) (va : DWord) (ty : AtomTy) (fn : AtomFn) :
    Option AtomdEntry :=
  match es.reverse.find? fun e => e.th == id && e.addr.toNat / 8 == va.toNat / 8 with
  | some e =>
    if e.addr == va && e.ty == ty && e.fn == fn && !ty.float && e.taken.isNone then some e else none
  | none => none

/-- Combine an operand into an earlier one: the two updates in one. -/
def combineOperand (e : AtomdEntry) (b : DWord) : DWord :=
  BitVec.ofNat 64 (atomOp e.ty e.fn (e.operand.toNat % 2 ^ AtomTy.width e.ty)
    (b.toNat % 2 ^ AtomTy.width e.ty)).1

/-- A drain takes every entry that the course has placed and no earlier drain has taken (R280). -/
def State.takeAtomd (s : State) (co : CourseId) : State :=
  match s.course co with
  | some c => s.modCore c.core fun k =>
      { k with atomd := k.atomd.map fun e =>
          if courseOf e.th == co && e.taken.isNone then { e with taken := some s.nextId } else e }
  | none => s

/-- ATOMD in a deterministic kernel: its entry is placed (R279). -/
def atomdAct (x : AtomOp) : Act := fun s id t => do
  t.need true x.a 0
  t.need x.ty.wide x.b (AtomTy.tag x.ty)
  let (va, pa, _, s) ← s.atomAddr id t x.ty x.a .zero x.off
  let s := s.commitWord id pa
  let core := s.coreOf id
  let b := t.atomOperand x.ty x.b
  let (n, s) := s.fresh
  let es := (s.core core).atomd
  let es' := match combinesWith es id va x.ty x.fn with
    | some e => es.map fun y => if y.seq == e.seq then { y with operand := combineOperand e b } else y
    | none => es ++ [{ seq := n, th := id, pc := t.pc, addr := va, ty := x.ty, fn := x.fn,
                       operand := b, taken := none, stop := none }]
  .ok ((s.modCore core fun k => { k with atomd := es' }).setThread id t.advance)

/-- ATOMD. A full buffer makes the issuing course drain first (R279). -/
def execAtomd (x : AtomOp) (s : State) : Host.Outcome State Fault Refusal :=
  match s.issue with
  | some ⟨core, _, id :: _, _⟩ =>
    if s.determ id.launch then
      if (s.active x.ctl).any fun p => countFull .store s p.1 p.2 then .next s.loseTurn
      else
        let s' := s.runGang x.ctl (atomdAct x)
        if (s'.core core).atomd.length > 1024 then
          .next ((s.active x.ctl).foldl (fun s p => s.takeAtomd (courseOf p.1)) s).loseTurn
        else .next s'
    else .next (s.runUnless x.ctl (countFull .load) (atomAct x .zero))
  | _ => .next s

/-- DFLUSH (R280). -/
def execDflush (x : NoOp) (s : State) : Host.Outcome State Fault Refusal :=
  .next (s.runUnless x.ctl (countFull .store) fun s id t =>
    let s := s.takeAtomd (courseOf id)
    .ok ((s.addOp { th := id, pc := t.pc, field := 0xFF, issued := s.cycle, due := s.cycle, stop := none,
                    fctl := t.fctl, kind := .dflush s.nextId }).setThread id
      (t.countUp .store).advance))

/-- The drains in their order; within one, ascending (course index, `%cthr`, program order) (R280). -/
def atomdBefore (a b : AtomdEntry) : Bool :=
  let da := a.taken.getD 0
  let db := b.taken.getD 0
  decide (da < db) || (da == db &&
    (decide (a.th.course < b.th.course) || (a.th.course == b.th.course &&
      (decide (a.th.cthr < b.th.cthr) || (a.th.cthr == b.th.cthr && decide (a.seq < b.seq))))))

/-- How one update of a drain ends. -/
inductive Drained where
  | done (s : State)
  | stopped (s : State)

/-- Perform one update: translated and checked now (R280). An uncorrectable word, a revoked key or an
unreachable device is an imprecise store fault (R306). -/
def State.drainEntry (s : State) (core : Nat) (e : AtomdEntry) : Drained :=
  let ctx := s.ctxOf e.th
  let drop (s : State) : State :=
    s.modCore core fun k => { k with atomd := k.atomd.filter fun y => y.seq != e.seq }
  let stop (s : State) (hv : Bool) (cause : Nat) : Drained :=
    let (tk, s) := s.enterFault hv (s.partOf ctx) (coreCluster core)
      (faultEntry e.addr.toNat s.gts e.th.course e.pc.toNat ctx e.th.cthr cause 1 hv)
    .stopped (s.modCore core fun k => { k with atomd := k.atomd.map fun y =>
      if y.seq == e.seq then { y with stop := some tk } else y })
  if e.stop.isSome || s.commitBefore e.th e.seq || s.atomicBefore e.th e.seq then .stopped s
  else
    match s.translate core ctx e.addr .write with
    | (.error (hv, cause), s) => stop s hv cause
    | (.ok (pa, key), s) =>
      let fault (cause : Nat) : Drained :=
        let se : StageEntry := { addr := e.addr, phys := pa, key := key, mask := 0, data := 0,
                                 colour := 0, th := e.th, pc := e.pc, taken := none }
        .done (drop (s.storeFault se ctx cause))
      if s.keyRevoked key then fault 0x2
      else
        match s.translate core ctx e.addr .read with
        | (.error (hv, cause), s) => stop s hv cause
        | (.ok _, s) =>
          match s.performAtomic e.th e.ty (.op e.fn e.operand) pa key with
          | some (_, _, s) =>
            .done (drop (s.modCourse (courseOf e.th) fun c => { c with committed := true }))
          | none => fault (match s.physClass pa with | .link _ => 0x3 | _ => 0x1)

/-- Perform updates in order until one stops. -/
def State.drainAll (s : State) (core : Nat) : List AtomdEntry → State
  | [] => s
  | e :: r =>
    match s.drainEntry core e with
    | .done s => s.drainAll core r
    | .stopped s => s

/-- Complete the DFLUSH operations of a course whose entries have all drained. -/
def State.endFlushes (s : State) (co : CourseId) (core : Nat) : State :=
  (s.opsOf co).foldl (fun s p => match p.2.kind with
    | .dflush before =>
      if (s.core core).atomd.any fun e => courseOf e.th == co && decide (e.seq < before) then s
      else (s.delOp p.1).countDown p.2.th .store
    | _ => s) s

/-- ATOMD_DRAIN: the entries that the course's drains have taken, at the course's turn (R280). -/
def execAtomdDrain (co : CourseId) (s : State) : Host.Outcome State Fault Refusal :=
  match s.course co with
  | some c =>
    if s.mayRegister co then
      let es := sortBy atomdBefore
        ((s.core c.core).atomd.filter fun e => courseOf e.th == co && e.taken.isSome)
      .next ((s.drainAll c.core es).endFlushes co c.core)
    else .next s
  | none => .next s

end Sys2Proof.Machine
end

