-- ==== Sys2Proof/Machine/Crew.lean ====
section
/-! DEFINITION. Crew.lean: crews and their collectives (R127 to R134). -/

namespace Sys2Proof.Machine

/-! ## Membership (R127, R128) -/

/-- Rank of a thread in a crew. -/
def Thread.rankIn (t : Thread) (crew : Fin 64) : Option (Fin 32) :=
  (t.crews.find? fun c => c.1 == crew).map (·.2)

/-- `%crew`: the crew joined last that the thread still belongs to. -/
def Thread.curCrew (t : Thread) : Option (Fin 64) := t.crews.getLast?.map (·.1)

/-- Ranks held in a crew. -/
def State.ranksHeld (s : State) (co : CourseId) (crew : Fin 64) : List (Fin 32) :=
  (s.crewMembers co crew).map (·.1)

/-- A crew id from a source: its tag, then its range (R128). -/
def Thread.crewArg (t : Thread) (b : Src) (d : BitVec 8) : Except Trap (Fin 64) := do
  t.needSrc false b 0
  if h : t.word b < 64 then .ok ⟨t.word b, h⟩ else .error (.illegal d)

/-- JOIN (R128). -/
def execJoin (x : JoinOp) (s : State) : Host.Outcome State Fault Refusal :=
  .next (s.runGang x.ctl fun s id t => do
    let crew ← t.crewArg x.b x.d.enc
    let ranks := s.ranksHeld (courseOf id) crew
    match t.rankIn crew with
    | some r =>
      .ok (s.setThread id ((t.setReg x.d ⟨BitVec.ofNat 32 r.val, 0⟩).setPred x.pc true).advance)
    | none =>
      match (List.finRange 32).find? fun r => r ∉ ranks with
      | none => .ok (s.setThread id ((t.setReg x.d ⟨0xFFFFFFFF, 0⟩).setPred x.pc false).advance)
      | some r =>
        .ok (s.setThread id { ((t.setReg x.d ⟨BitVec.ofNat 32 r.val, 0⟩).setPred x.pc true).advance with
          crews := t.crews ++ [(crew, r)] }))

/-- LEAVE (R128). -/
def execLeave (x : BOp) (s : State) : Host.Outcome State Fault Refusal :=
  .next (s.runLocal x.ctl fun t => do
    let crew ← t.crewArg x.b 0xFF
    .ok { t.advance with crews := t.crews.filter fun c => c.1 != crew })

/-- CREW (R128). -/
def execCrew (x : DbOp) (s : State) : Host.Outcome State Fault Refusal :=
  .next (s.runGang x.ctl fun s id t => do
    let crew ← t.crewArg x.b x.d.enc
    let mask := sumNat ((s.ranksHeld (courseOf id) crew).map fun r => 2 ^ r.val)
    .ok (s.setThread id (t.setReg x.d ⟨BitVec.ofNat 32 mask, 0⟩).advance))

/-! ## Gathering (R129, R130) -/

/-- The crew that a code names for a thread: one of which it is a member. -/
def Thread.crewNamed (t : Thread) (code : CrewCode) : Option (Fin 64) :=
  let crew := match code with
    | .id n => some n
    | .cur => t.curCrew
  crew.bind fun n => if (t.rankIn n).isSome then some n else none

/-- A thread comes to a collective and waits for its crew. -/
def gatherAct (code : CrewCode) (d : BitVec 8) : Act := fun s id t =>
  match t.crewNamed code with
  | none => .error (.illegal d)
  | some crew =>
    s.beginWait id (.crew (courseOf id) crew t.pc) d fun t => { t with await := .crew crew }

/-- A member of a gathered crew: its rank, key and thread. -/
abbrev Member := Fin 32 × ThreadId × Thread

/-- Members of the gang that issues as a crew, by rank. -/
def State.members (s : State) (code : CrewCode) : List Member :=
  match s.issue with
  | none => []
  | some g => sortBy (fun a b => decide (a.1 < b.1)) (g.gang.filterMap fun id =>
      match s.thread id with
      | some t =>
        match t.await with
        | .crew c => (t.rankIn c).map fun r => (r, id, t)
        | _ => (t.crewNamed code).bind fun c => (t.rankIn c).map fun r => (r, id, t)
      | none => none)

/-- Perform a collective on a gathered crew: every check before any write; a failed check is the tag
fault of every member (R134). -/
def State.collective (s : State) (code : CrewCode) (check : Thread → Except Trap Unit)
    (act : List Member → Member → Thread) : State :=
  let ms := s.members code
  let s := ms.foldl (fun s m => (s.dropSleep m.2.1).modThread m.2.1 fun t =>
    { t with await := .ready }) s
  let bad := ms.findSome? fun m => match check m.2.2 with
    | .error e => some e
    | .ok () => none
  match bad with
  | some e => s.deliverAll ((sortBy (fun a b => threadBefore a b) (ms.map (·.2.1))).zipIdx.map fun p =>
      (p.2, p.1, e))
  | none =>
    let ns := ms.flatMap fun m => s.brings m.2.1
    ms.foldl (fun s m =>
      (s.setThread m.2.1 { (act ms m).advance with await := .ready }).learn m.2.1 ns) s

/-- A collective: the crew issues as one gang, or the threads come to it. -/
def State.runCollective (s : State) (c : Ctl) (code : CrewCode) (d : BitVec 8)
    (check : Thread → Except Trap Unit) (act : List Member → Member → Thread) : State :=
  match s.issue with
  | none => s
  | some g =>
    if g.gathered then s.collective code check act else s.runGang c (gatherAct code d)

/-! ## SHFL and VOTE (R131, R132) -/

/-- The rank that a member takes its value from. -/
def shflRank (mode : ShflMode) (k sel : Nat) : Int :=
  match mode with
  | .idx => sel
  | .up => (k : Int) - sel
  | .down => (k : Int) + sel
  | .xor => ((k ^^^ (sel % 32) : Nat) : Int)

/-- SHFL. -/
def execShfl (x : ShflOp) (s : State) : Host.Outcome State Fault Refusal :=
  .next (s.runCollective x.ctl x.crew x.d.enc (fun t => t.needSrc false x.b 0) fun ms m =>
    let j := shflRank x.mode m.1.val (m.2.2.word x.b)
    let src : Thread := match ms.find? fun o => (o.1.val : Int) == j with
      | some o => o.2.2
      | none => m.2.2
    let t := m.2.2.setReg x.d (src.reg x.a)
    if x.wide then t.setReg (Opd.plus x.d 1) (src.reg (Opd.plus x.a 1)) else t)

/-- The d field of a VOTE. -/
def VoteDst.enc : VoteDst → BitVec 8
  | .any p => BitVec.ofNat 8 p.val
  | .all p => BitVec.ofNat 8 p.val
  | .leader p => BitVec.ofNat 8 p.val
  | .ballot d => d.enc

/-- VOTE. -/
def execVote (x : VoteOp) (s : State) : Host.Outcome State Fault Refusal :=
  .next (s.runCollective x.ctl x.crew (VoteDst.enc x.dst) (fun _ => .ok ()) fun ms m =>
    let yes := ms.filter fun o => o.2.2.predAt x.pa
    match x.dst with
    | .any p => m.2.2.setPred p (!yes.isEmpty)
    | .all p => m.2.2.setPred p (yes.length == ms.length)
    | .leader p => m.2.2.setPred p (match yes.head? with
        | some o => o.1 == m.1
        | none => false)
    | .ballot d => m.2.2.setReg d
        ⟨BitVec.ofNat 32 (sumNat (yes.map fun o => 2 ^ o.1.val)), 0⟩)

/-! ## CRED and CSCAN (R133) -/

def RedTy.width (ty : RedTy) : Nat := if ty.wide then 64 else 32

def RedTy.signed : RedTy → Bool
  | .s32 => true
  | .s64 => true
  | _ => false

def RedTy.isFloat : RedTy → Bool
  | .f32 => true
  | _ => false

def RedTy.tag (ty : RedTy) : Tag := if RedTy.isFloat ty then 0x20 else 0

/-- Combine two values, the lower rank's on the left. -/
def redOp (ty : RedTy) (fn : RedFn) (v : FEnv) (a b : Nat) : Nat × FEnv :=
  let w := RedTy.width ty
  let val (n : Nat) : Int := if RedTy.signed ty then signedOf w n else n
  match fn with
  | .add => if RedTy.isFloat ty then v.addC .f32 a b else ((a + b) % 2 ^ w, v)
  | .min => if RedTy.isFloat ty then v.minMaxC .f32 false a b else (if val a ≤ val b then a else b, v)
  | .max => if RedTy.isFloat ty then v.minMaxC .f32 true a b else (if val a ≤ val b then b else a, v)
  | .and => (a &&& b, v)
  | .or => (a ||| b, v)
  | .xor => (a ^^^ b, v)

/-- One level of the tree by rank: absent children pass the other up. -/
def redLevel (ty : RedTy) (fn : RedFn) (v : FEnv) : List (Option Nat) → List (Option Nat) × FEnv
  | a :: b :: r =>
    let (c, v) := match a, b with
      | some a, some b => let (c, v) := redOp ty fn v a b; (some c, v)
      | some a, none => (some a, v)
      | none, b => (b, v)
    let (l, v) := redLevel ty fn v r
    (c :: l, v)
  | l => (l, v)

/-- The root of the tree of 32 leaves. -/
def redTree (ty : RedTy) (fn : RedFn) (v : FEnv) (l : List (Option Nat)) : Nat → Option Nat × FEnv
  | 0 => ((l.head?).join, v)
  | n + 1 =>
    let (l, v) := redLevel ty fn v l
    redTree ty fn v l n

/-- The identity of an exclusive scan. -/
def redIdentity (ty : RedTy) (fn : RedFn) : Nat :=
  let w := RedTy.width ty
  match fn with
  | .add => 0
  | .min => if RedTy.isFloat ty then 0x7F800000 else if RedTy.signed ty then 2 ^ (w - 1) - 1 else 2 ^ w - 1
  | .max => if RedTy.isFloat ty then 0xFF800000 else if RedTy.signed ty then 2 ^ (w - 1) else 0
  | .and => 2 ^ w - 1
  | .or => 0
  | .xor => 0

/-- A member's source, as a member with a given ftz reads it. -/
def redSource (ty : RedTy) (a : Opd) (ftz : Bool) (t : Thread) : Nat :=
  let c := if ty.wide then (t.pair a).toNat else (t.reg a).bits.toNat
  if RedTy.isFloat ty && ftz && f32Subnormal c then c / 2 ^ 31 * 2 ^ 31 else c

/-- Write a member's result with its flags; a NaN is canonical. -/
def redWrite (ty : RedTy) (d : Opd) (t : Thread) (r : Nat) (v : FEnv) : Thread :=
  let t := t.flagsNow v.flags d
  if ty.wide then t.setPair d (BitVec.ofNat 64 r) 0
  else
    let r := if RedTy.isFloat ty && (Fmt.f32.read r).isNan then Fmt.f32.nan else r
    t.setReg d ⟨BitVec.ofNat 32 r, RedTy.tag ty⟩

/-- CRED. -/
def execCred (x : CredOp) (s : State) : Host.Outcome State Fault Refusal :=
  .next (s.runCollective x.ctl x.crew x.d.enc (fun t => t.need x.ty.wide x.a (RedTy.tag x.ty))
    fun ms m =>
      let leaves := (List.finRange 32).map fun r =>
        (ms.find? fun o => o.1 == r).map fun o => redSource x.ty x.a m.2.2.ftz o.2.2
      let (r, v) := redTree x.ty x.fn m.2.2.fenvRne leaves 5
      redWrite x.ty x.d m.2.2 (r.getD 0) v)

/-- CSCAN. -/
def execCscan (x : CscanOp) (s : State) : Host.Outcome State Fault Refusal :=
  .next (s.runCollective x.ctl x.crew x.d.enc (fun t => t.need x.ty.wide x.a (RedTy.tag x.ty))
    fun ms m =>
      let before := ms.filter fun o => if x.excl then o.1 < m.1 else o.1 ≤ m.1
      let vals := before.map fun o => redSource x.ty x.a m.2.2.ftz o.2.2
      match vals with
      | [] => redWrite x.ty x.d m.2.2 (redIdentity x.ty x.fn) m.2.2.fenvRne
      | a :: r =>
        let (c, v) := r.foldl (fun acc b => redOp x.ty x.fn acc.2 acc.1 b) (a, m.2.2.fenvRne)
        redWrite x.ty x.d m.2.2 c v)

/-- CREW_GATHER: every current member waits at one collective PC; the crew issues as one gang
(R129). -/
def execCrewGather (co : CourseId) (crew : Fin 64) (s : State) : Host.Outcome State Fault Refusal :=
  .next (s.crewGather co crew)

end Sys2Proof.Machine
end

