-- ==== Sys2Proof/Machine/Barriers.lean ====
section
/-! DEFINITION. Barriers.lean: barrier registers (R135, R136) and WAIT (R126). -/

namespace Sys2Proof.Machine

/-- The word of a barrier register (R135). -/
def Barrier.word (b : Barrier) : Word := b.phase ++ b.arrived ++ b.expected

def State.barrier (s : State) (co : CourseId) (n : Fin 16) : Barrier :=
  match s.course co with
  | some c => c.bars[n]
  | none => ⟨0, 0, 0⟩

def State.setBarrier (s : State) (co : CourseId) (n : Fin 16) (b : Barrier) : State :=
  s.modCourse co fun c => { c with bars := c.bars.set n b }

/-- Threads of a course that wait on a barrier. -/
def State.barrierWaiters (s : State) (co : CourseId) (n : Fin 16) : List ThreadId :=
  (s.threadsOf co).filterMap fun p => match p.2.await with
    | .barrier b _ => if b == n then some p.1 else none
    | _ => none

/-- One arrival: the phase completes when arrived reaches expected, and every waiter of the old
phase goes on (R135). -/
def State.arrive (s : State) (co : CourseId) (n : Fin 16) : State :=
  let b := s.barrier co n
  let a := b.arrived + 1
  if a == b.expected then
    let s := (s.setBarrier co n { b with phase := b.phase + 1, arrived := 0 }).passPhase co n
    (s.barrierWaiters co n).foldl (fun s id =>
      ((s.dropSleep id).wakeNext id).learn id (s.phaseBrought co n)) s
  else s.setBarrier co n { b with arrived := a }

/-- An engine's arrival at the barrier that its operation names, if it names one. -/
def State.arriveOpt (s : State) (co : CourseId) : Option (Fin 16) → State
  | some n => s.arrive co n
  | none => s

/-- An engine operation that names the barrier has not retired (R136). -/
def State.barrierBusy (s : State) (co : CourseId) (n : Fin 16) : Bool :=
  ((s.opsOf co).any fun p => match p.2.kind with
    | .copy c => c.bar == some n
    | _ => false) ||
  (match s.course co with
    | some c => (s.cluster (coreCluster c.core)).entries.any fun e =>
        courseOf e.th == co && (match e.kind with
          | .pass _ bar => bar == some n
          | _ => false)
    | none => false)

/-- The encoding of a barrier field. -/
def barEnc (n : Fin 16) : BitVec 8 := (Opd.b n).enc

/-- BINIT (R136). -/
def execBinit (x : BinitOp) (s : State) : Host.Outcome State Fault Refusal :=
  .next (s.runGang x.ctl fun s id t => do
    t.needSrc false x.b 0
    let n := t.word x.b
    let co := courseOf id
    let b := s.barrier co x.bar
    if n == 0 || n > 4095 || b.arrived != 0 || !(s.barrierWaiters co x.bar).isEmpty ||
        s.barrierBusy co x.bar then
      .error (.illegal (barEnc x.bar))
    else
      .ok ((s.setBarrier co x.bar { b with expected := BitVec.ofNat 12 n, arrived := 0 }).setThread id
        t.advance))

/-- BARV (R136). -/
def execBarv (x : BarvOp) (s : State) : Host.Outcome State Fault Refusal :=
  .next (s.runGang x.ctl fun s id t =>
    let co := courseOf id
    let b := s.barrier co x.bar
    if b.expected == 0 then .error (.illegal x.d.enc)
    else
      let t := (t.setReg x.d ⟨Barrier.word { b with arrived := b.arrived + 1 }, 0⟩).advance
      .ok (((s.setThread id t).bring id x.bar).arrive co x.bar))

/-- Wait on the current phase of a barrier (R135). -/
def State.waitPhase (s : State) (id : ThreadId) (n : Fin 16) (phase : BitVec 8) : Except Trap State :=
  s.beginWait id (.barrier (courseOf id) n phase) 0xFF fun t => { t with await := .barrier n phase }

/-- BWAIT (R136). -/
def execBwait (x : BwaitOp) (s : State) : Host.Outcome State Fault Refusal :=
  .next (s.runGang x.ctl fun s id t => do
    t.need false x.b 0
    let tok := ((t.reg x.b).bits >>> 24).setWidth 8
    let phase := (s.barrier (courseOf id) x.bar).phase
    if phase != tok then
      .ok ((s.setThread id t.advance).learn id (s.phaseBrought (courseOf id) x.bar))
    else s.waitPhase id x.bar phase)

/-- BSYNC (R136). -/
def execBsync (x : BsyncOp) (s : State) : Host.Outcome State Fault Refusal :=
  .next (s.runGang x.ctl fun s id t =>
    let co := courseOf id
    let b := s.barrier co x.bar
    if b.expected == 0 then .error (.illegal 0xFF)
    else
      let s := (s.bring id x.bar).arrive co x.bar
      if (s.barrier co x.bar).phase != b.phase then
        .ok ((s.setThread id t.advance).learn id (s.phaseBrought co x.bar))
      else s.waitPhase id x.bar b.phase)

/-- WAIT (R126). -/
def execWait (x : WaitOp) (s : State) : Host.Outcome State Fault Refusal :=
  .next (s.runLocal x.ctl fun t =>
    let (l, st, c, o) := (x.l.toNat, x.s.toNat, x.c.toNat, x.t.toNat)
    if t.withinLimits l st c o then .ok t.advance
    else .ok { t with await := .counters l st c o })

end Sys2Proof.Machine
end

