-- ==== Sys2Proof/Machine/Copy.lean ====
section
/-! DEFINITION. Copy.lean: the copy unit: tensor layout records, CPY, CPYX, CPYO, PUBL and CPQ (R192
to R202). -/

namespace Sys2Proof.Machine

/-! ## The record and the box (R192, R193) -/

/-- A tensor layout record's fields; lists begin with dimension 0, and `stride` with an unused 0. -/
structure Tlr where
  high : Nat
  esize : Nat
  scaleBase : Nat
  fill : Nat
  swizzle : Nat
  ndims : Nat
  tag : Tag
  box : List Nat
  stride : List Nat
  ext : List Nat
  base : Nat
  deriving DecidableEq, Repr

def Tlr.read (r : BitVec 512) : Tlr :=
  let n := r.toNat
  let dims := List.range 5
  { high := bits n 511 505, esize := bits n 504 502, scaleBase := bits n 501 438,
    fill := bits n 437 406, swizzle := bits n 405 403, ndims := bits n 402 400,
    tag := BitVec.ofNat 8 (bits n 399 392),
    box := dims.map fun i => bits n (359 + 8 * i) (352 + 8 * i) + 1,
    stride := 0 :: [0, 1, 2, 3].map fun i => bits n (255 + 32 * i) (224 + 32 * i),
    ext := dims.map fun i => bits n (95 + 32 * i) (64 + 32 * i),
    base := bits n 63 0 }

/-- The elements carry scales: class 0b110. -/
def Tlr.scaled (r : Tlr) : Bool := tagClass r.tag == 6

/-- Elements of the box. -/
def Tlr.elems (r : Tlr) : Nat := (r.box.take r.ndims).foldl (· * ·) 1

/-- Scale blocks of the box. -/
def Tlr.blocks (r : Tlr) : Nat := if r.scaled then r.elems / 32 else 0

/-- Element bytes and scale bytes of the box (R195). -/
def Tlr.dataBytes (r : Tlr) : Nat := r.elems * 2 ^ r.esize + r.blocks

/-- Bytes of the box in scratchpad (R194). -/
def Tlr.span (r : Tlr) : Nat :=
  if r.scaled then roundUp (r.elems * 2 ^ r.esize) 16 + r.blocks else r.elems * 2 ^ r.esize

/-- esize agrees with the class of elem_tag (R192). -/
def Tlr.sizeOk (r : Tlr) : Bool :=
  match tagClass r.tag with
  | 0 => decide (r.esize ≤ 3)
  | 1 => r.esize == 2
  | 2 => r.esize == 3
  | 3 => r.esize == 1
  | 4 => r.esize == 1
  | _ => r.esize == 0

/-- The record keeps every rule of R192 and R193, the first coordinate included. -/
def Tlr.ok (r : Tlr) (c0 : Int) : Bool :=
  r.high == 0 && decide (r.swizzle ≤ 3) && decide (1 ≤ r.ndims) && decide (r.ndims ≤ 5) &&
  ((r.box.drop r.ndims).all (· == 1)) && ((r.stride.drop r.ndims).all (· == 0)) &&
  ((r.ext.drop r.ndims).all (· == 0)) && r.sizeOk &&
  (r.scaled || r.scaleBase == 0) &&
  (!r.scaled || (r.box.headD 1 % 32 == 0 && c0 % 32 == 0))

/-- Coordinates of element `n` of the box (R193). -/
def boxCoords : List Nat → List Int → Nat → List Int
  | b :: bs, c :: cs, n => (c + (n % b : Nat)) :: boxCoords bs cs (n / b)
  | _, _, _ => []

/-- Element `n`'s coordinates, when it is in bounds. -/
def Tlr.inBounds (r : Tlr) (co : List Int) (n : Nat) : Option (List Nat) :=
  let xs := boxCoords (r.box.take r.ndims) co n
  if (xs.zip r.ext).all fun p => decide (0 ≤ p.1) && decide (p.1 < p.2) then
    some (xs.map Int.toNat)
  else none

/-- Address of element `n`, when it is in bounds. -/
def Tlr.elemAddr (r : Tlr) (co : List Int) (n : Nat) : Option Nat :=
  (r.inBounds co n).map fun xs =>
    ((xs.zip r.stride).foldl (fun a p => a + p.1 * p.2) (r.base + xs.headD 0 * 2 ^ r.esize)) % 2 ^ 64

/-- Address of the scale of block `j`, when the block is in bounds. -/
def Tlr.scaleAddr (r : Tlr) (co : List Int) (j : Nat) : Option Nat :=
  (r.inBounds co (32 * j)).map fun xs =>
    let outer := ((xs.drop 1).zip (r.ext.drop 1)).reverse.foldl (fun a p => p.1 + p.2 * a) 0
    (r.scaleBase + xs.headD 0 / 32 + ceilDiv (r.ext.headD 0) 32 * outer) % 2 ^ 64

/-- Row of element `n` in its box. -/
def Tlr.rowOf (r : Tlr) (n : Nat) : Nat := n / r.box.headD 1

/-- Rows of the box. -/
def Tlr.rows (r : Tlr) : Nat := r.elems / r.box.headD 1

/-- Offset of element `n` within the box in scratchpad (R194). -/
def Tlr.scratchOff (r : Tlr) (n : Nat) : Nat :=
  let o := n * 2 ^ r.esize
  if r.swizzle == 0 then o else o ^^^ (r.rowOf n % 2 ^ r.swizzle * 16)

/-- Where element `n` of the `k`-th box lies: an offset from the scratchpad address, or the byte of
the tile (R194, R201). -/
def Tlr.elemPlace (r : Tlr) (side : CopySide) (k n : Nat) : Nat :=
  match side with
  | .scratch a => a + k * r.span + r.scratchOff n
  | .tile _ => 512 * (k * r.rows + r.rowOf n) + n % r.box.headD 1 * 2 ^ r.esize

/-- Where the scale of block `j` lies. -/
def Tlr.scalePlace (r : Tlr) (side : CopySide) (k j : Nat) : Nat :=
  match side with
  | .scratch a => a + k * r.span + roundUp (r.elems * 2 ^ r.esize) 16 + j
  | .tile _ => 512 * (k * r.rows + r.rowOf (32 * j)) + 128 + j % (r.box.headD 1 / 32)

/-- Elements that a tile row holds (R195). -/
def Tlr.tileWidth (r : Tlr) : Nat :=
  match tagClass r.tag with
  | 1 => 128
  | 3 => 256
  | 4 => 256
  | 5 => 512
  | 6 => 128
  | _ => 0

/-- Conditions of step 6 of R195 on the core side, for `k` boxes. -/
def sideOk (r : Tlr) (side : CopySide) (k : Nat) (scratch tileRows : Nat) : Bool :=
  match side with
  | .scratch a => a % 16 == 0 && decide (a + k * r.span ≤ scratch)
  | .tile _ => r.swizzle == 0 && decide (r.box.headD 1 ≤ r.tileWidth) &&
      decide (k * r.rows ≤ tileRows)

/-! ## The check (R195) -/

/-- A record as the issuing thread's command reads it: at home, with the issuer's own staged bytes,
which its release registers before acceptance (R197, R275). -/
def State.readRecord (s : State) (id : ThreadId) (va : DWord) :
    Except Trap (Option (BitVec 512) × State) := do
  let (pa, key, s) ← s.translateFor id va .copy
  if s.isPoisoned pa 64 then .ok (none, s)
  else
    let es := match s.course (courseOf id) with
      | some c => if s.mayRegister (courseOf id) then c.staging else []
      | none => []
    .ok (some (BitVec.ofNat 512 (leNat (overlayStaged es id pa (s.readKeyed key pa 64)))), s)

/-- Coordinates as signed numbers. -/
def Thread.coords (t : Thread) (b : Opd) (n : Nat) : List Int :=
  (Opd.span b n).map fun o => signedOf 32 (t.reg o).bits.toNat

/-- `n` registers from a field lie below the register count; 0xFF names none (log entry 10). -/
def coordsFit (b : Opd) (n regs : Nat) : Bool :=
  match b with
  | .v k => decide (k.val + n ≤ regs)
  | _ => false

/-- What a command asks for. -/
structure Command where
  kind : CopyKind
  bar : Option (Fin 16)
  dim : Nat
  d : Opd
  a : Opd
  b : Opd
  c : Opd

def CopyOp.command (x : CopyOp) (kind : CopyKind) : Command :=
  { kind := kind, bar := x.bar, dim := 0, a := x.a, b := x.b, c := x.c,
    d := match x.bar with | some n => .b n | none => .zero }

def CopyxOp.command (x : CopyxOp) : Command :=
  { kind := .cpyx, bar := x.bar, dim := x.dim.val, a := x.a, b := x.b, c := x.c,
    d := match x.bar with | some n => .b n | none => .zero }

/-- How a command's check ends: the request, or an unreadable record. -/
inductive Checked where
  | ok (c : CopyReq) (s : State)
  | unreadable (s : State)

/-- The checks of R195 in their order. -/
def State.checkCopy (s : State) (id : ThreadId) (t : Thread) (x : Command) : Except Trap Checked := do
  let co := courseOf id
  let bad : Except Trap Checked := .error (.fault causeBadRecord x.d.enc)
  t.need true x.a 0
  let side ← (match x.c with
    | .t n => Except.ok (CopySide.tile n)
    | c => do
      t.need false c 0
      .ok (.scratch (t.reg c).bits.toNat))
  t.need false x.b 0
  match x.bar with
  | some n => if (s.barrier co n).expected == 0 then Except.error (.illegal x.d.enc) else .ok ()
  | none => .ok ()
  let va := t.pair x.a
  if va.toNat % 64 != 0 then Except.error (.fault causeMisaligned x.d.enc) else .ok ()
  let (r0, s) ← s.readRecord id va
  let (rs, s) ← (if x.kind == .cpyx then do
      let (r1, s) ← s.readRecord id (va + 64)
      Except.ok ([r0, r1], s)
    else .ok ([r0], s))
  match rs.mapM fun r => r with
  | none => .ok (.unreadable s)
  | some recs =>
    let ts := recs.map Tlr.read
    if ts.any fun r => !tagValid r.tag then .error (.tag x.a)
    else
      let nd := sumNat (ts.map (·.ndims))
      if !coordsFit x.b nd (s.regCount id) then .error (.illegal x.d.enc)
      else
        t.needAll 0 x.b (Opd.span x.b nd)
        let cs := t.coords x.b nd
        match x.kind, side with
        | .cpyo, .tile n =>
          if ts.all fun r => (s.readTile id n).tag == r.tag then Except.ok ()
          else .error (.tag x.c)
        | _, _ => .ok ()
        let rows := match s.kdesc id.launch with
          | some k => k.tileRows
          | none => 0
        let req (r : Tlr) (k : Nat) : CopyReq :=
          let es : List StageEntry := match s.course co with
            | some c => c.staging
            | none => []
          { kind := x.kind, bar := x.bar, recs := recs, coords := (Opd.span x.b nd).map
              fun o => (t.reg o).bits, dim := x.dim, side := side, bytes := k * r.span, seen := none,
            hide := if s.mayRegister co then [] else es.map (·.phys), base := 0, len := 0,
            keep := false, flipped := false }
        match ts with
        | [r] =>
          if r.ok (cs.headD 0) && decide (r.dataBytes ≤ 524288) &&
              sideOk r side 1 (s.scratchBytes id) rows then .ok (.ok (req r 1) s)
          else bad
        | [i, r] =>
          let c1 := cs.drop i.ndims
          if i.tag == 0 && i.esize == 2 && i.ok (cs.headD 0) && r.ok (c1.headD 0) &&
              decide (x.dim < r.ndims) && decide (i.elems * r.dataBytes ≤ 524288) &&
              decide (i.dataBytes ≤ 524288) &&
              sideOk r side i.elems (s.scratchBytes id) rows then .ok (.ok (req r i.elems) s)
          else bad
        | _ => bad

/-! ## Issue (R197, R199) -/

/-- Entries of a core's range scoreboard, those of MLDS included (R199, R205). -/
def State.rangeEntries (s : State) (core : Nat) : Nat :=
  (s.ops.filter fun p => s.coreOf p.2.th == core && (match p.2.kind with
    | .copy c => c.kind != .publ
    | .mlds .. => true
    | _ => false)).length

/-- The checked range of a copy is held by a copy in flight (R199). -/
def State.copyHeld (s : State) (x : Command) (id : ThreadId) (t : Thread) : Bool :=
  match s.checkCopy id t x with
  | .ok (.ok c _) =>
    match c.side with
    | .scratch a => s.rangeHeld (courseOf id) a c.bytes (c.kind != .cpyo)
    | .tile n => s.tileBusy (courseOf id) n (c.kind != .cpyo)
  | _ => false

/-- Issue a copy or publication: the issuer's release first, and then its acceptance, which comes at once
where nothing precedes it (R197, R202, R267). -/
def State.acceptCopy (s : State) (id : ThreadId) (t : Thread) (c : CopyReq) (d : Opd) : State :=
  (((s.release id).addOp { th := id, pc := t.pc, field := d.enc, issued := s.cycle, due := s.cycle,
                           stop := none, fctl := t.fctl, kind := .copy c }).setThread id
    (t.countUp .copy).advance).acceptCopies (courseOf id)

/-- CPY, CPYX or CPYO of one thread: it waits for room in the scoreboard, its counter, and copies in flight
on its range or tile (R197, R199). -/
def copyAct (x : Command) : EachAct := fun s id t =>
  if decide (s.rangeEntries (s.coreOf id) ≥ 32) || countFull .copy s id t || s.copyHeld x id t then .ok none
  else do
    match ← s.checkCopy id t x with
    | .ok r s => .ok (some (s.acceptCopy id t r x.d))
    | .unreadable s => .ok (some (s.readFailure id))

/-- CPY, CPYX or CPYO over the gang. -/
def State.issueCopy (s : State) (c : Ctl) (x : Command) : State := s.runEach c (copyAct x)

/-- CPY (R196, R200). -/
def execCpy (x : CopyOp) (s : State) : Host.Outcome State Fault Refusal :=
  .next (s.issueCopy x.ctl (CopyOp.command x .cpy))

/-- CPYX (R196, R201). -/
def execCpyx (x : CopyxOp) (s : State) : Host.Outcome State Fault Refusal :=
  .next (s.issueCopy x.ctl (CopyxOp.command x))

/-- CPYO (R196, R200). -/
def execCpyo (x : CopyOp) (s : State) : Host.Outcome State Fault Refusal :=
  .next (s.issueCopy x.ctl (CopyOp.command x .cpyo))

/-- PUBL (R202). -/
def execPubl (x : PublOp) (s : State) : Host.Outcome State Fault Refusal :=
  .next (s.runUnless x.ctl (countFull .copy) fun s id t => do
    let d : Opd := match x.bar with | some n => .b n | none => .zero
    t.need true x.a 0
    t.need false x.b 0
    match x.bar with
    | some n =>
      if (s.barrier (courseOf id) n).expected == 0 then Except.error (.illegal d.enc) else .ok ()
    | none => .ok ()
    let base := (t.pair x.a).toNat
    let len := (t.reg x.b).bits.toNat
    if base % 65536 != 0 || len % 65536 != 0 || len == 0 then .error (.fault causeBadRecord d.enc)
    else
      .ok (s.acceptCopy id t
        { kind := .publ, bar := x.bar, recs := [], coords := [], dim := 0, side := .scratch 0,
          bytes := 0, seen := none, hide := [], base := base, len := len, keep := x.keep,
          flipped := false } d))

/-! ## Copy status (R198) -/

/-- Set bits of the course's copy status. -/
def State.copyStatus (s : State) (id : ThreadId) (poison noshadow : Bool) : State :=
  if poison || noshadow then
    s.modCourse (courseOf id) fun c =>
      { c with poison := c.poison || poison, noshadow := c.noshadow || noshadow,
               firstThr := if c.poison || c.noshadow then c.firstThr else BitVec.ofNat 10 id.cthr }
  else s

/-- Copies and PUBLs of a course that have not retired. -/
def State.inflight (s : State) (co : CourseId) : Nat :=
  ((s.opsOf co).filter fun p => match p.2.kind with
    | .copy _ => true
    | _ => false).length

/-- CPQ (R198). A count above 63 does not fit its field, and the field is a free value then (log
entry 5). -/
def execCpq (x : CpqOp) (s : State) : Host.Outcome State Fault Refusal :=
  .next (s.runGang x.ctl fun s id t =>
    match s.course (courseOf id) with
    | none => .ok (s.setThread id t.advance)
    | some c =>
      let n := s.inflight (courseOf id)
      let (m, s) := if n < 64 then (n, s) else s.drawBelow 64
      let w := b2n c.poison * 2 ^ 31 + b2n c.noshadow * 2 ^ 30 + c.firstThr.toNat * 2 ^ 16 + m
      let s := s.setThread id (t.setReg x.d ⟨BitVec.ofNat 32 w, 0⟩).advance
      .ok (if x.clr then s.modCourse (courseOf id) fun c =>
        { c with poison := false, noshadow := false, firstThr := 0 } else s))

/-! ## Translation of a copy's data (R189, R191, R200) -/

/-- Where the bytes of one element go to or come from: pieces of a physical address, a key slot and a
length, one for each page. -/
inductive Target where
  | at (ps : List (Nat × Nat × Nat))
  | poisoned
  | noshadow
  | fault (hv : Bool) (cause va : Nat)

/-- A piece, then those that follow it. -/
def Target.cons (p : Nat × Nat × Nat) : Target × State → Target × State
  | (.at ps, s) => (.at (p :: ps), s)
  | r => r

/-- The pieces of a source element. A revoked key and an uncorrectable line poison it (R198). -/
def State.copySource (s : State) (core ctx : Nat) : List (Nat × Nat) → Target × State
  | [] => (.at [], s)
  | (va, n) :: r =>
    match s.translate core ctx (BitVec.ofNat 64 va) .copy with
    | (.error (hv, c), s) => (if c == 3 then .poisoned else .fault hv c va, s)
    | (.ok (pa, key), s) =>
      if s.reachable pa n then Target.cons (pa, key, n) (s.copySource core ctx r) else (.poisoned, s)

/-- The pieces of the back backing of a shadowed page, for writing (R200): the leaf's permission, then the
back's own page. -/
def State.copyDest (s : State) (ctx : Nat) : List (Nat × Nat) → Target × State
  | [] => (.at [], s)
  | (va, n) :: r =>
    match s.leafAddr ctx va, s.ctx ctx with
    | .ok (l, _, _), some x =>
      if !l.w then (.fault false 2 va, s)
      else if !l.shadow then (.noshadow, s)
      else
        match s.stage2 x (l.frame + (if l.front then 0 else l.size) + va % l.size) with
        | none => (.fault true 1 va, s)
        | some (pa, l2) =>
          if s.absentPage x.part pa then (.fault true 1 va, s)
          else if !l2.w || s.guarded x.part pa then (.fault true 2 va, s)
          else if s.keyRevoked (leafKey x l2) then (.poisoned, s)
          else Target.cons (pa, leafKey x l2, n) (s.copyDest ctx r)
    | .error (hv, c), _ => (.fault hv c va, s)
    | _, none => (.fault false 1 va, s)

/-- Translate a list of element addresses; the first fault stops (R189). -/
def State.copyTargets (s : State) (f : State → Nat → Target × State) :
    List (Option Nat) → Except (Bool × Nat × Nat) (List (Option Target)) × State
  | [] => (.ok [], s)
  | none :: r =>
    match s.copyTargets f r with
    | (.ok l, s) => (.ok (none :: l), s)
    | e => e
  | some va :: r =>
    match f s va with
    | (.fault hv c va, s) => (.error (hv, c, va), s)
    | (t, s) =>
      match s.copyTargets f r with
      | (.ok l, s) => (.ok (some t :: l), s)
      | e => e

/-- Bytes that a copy reads at home, byte by byte: as they stood at acceptance or after some write since
(R197); those of words it must not see stay as they stood (R333). -/
def State.copyBytes (s : State) (part : Nat) (c : CopyReq) (pa key n : Nat) : List Byte × State :=
  if s.physClass pa = .window then (s.windowRead part pa n, s)
  else
    match c.seen with
    | none => (s.readKeyed key pa n, s)
    | some (k, m) =>
      let base := { s with mem := m }
      let ws := s.past.filter fun (w : PastWrite) =>
        decide (k < w.no) && decide (w.addr < pa + n) && decide (pa < w.addr + w.bytes.length)
      if ws.isEmpty then (base.readKeyed key pa n, s)
      else
        (List.range n).foldl (fun (acc : List Byte × State) i =>
          let a := pa + i
          if (a / 8 * 8) ∈ c.hide then (acc.1 ++ base.readKeyed key a 1, acc.2)
          else
            let (j, s) := acc.2.drawBelow (ws.length + 1)
            (acc.1 ++ (base.replay (ws.take j)).readKeyed key a 1, s)) ([], s)

/-- Bytes of many pieces. -/
def State.copyPieces (s : State) (part : Nat) (c : CopyReq) :
    List (Nat × Nat × Nat) → List Byte × State
  | [] => ([], s)
  | (pa, key, n) :: r =>
    let (bs, s) := s.copyBytes part c pa key n
    let (rest, s) := s.copyPieces part c r
    (bs ++ rest, s)

/-- The value of one source element: fill where it is out of bounds or poisoned. -/
def State.copyValue (s : State) (part : Nat) (c : CopyReq) (n fill : Nat) :
    Option Target → List Byte × Bool × State
  | some (.at ps) =>
    let (bs, s) := s.copyPieces part c ps
    (bs, false, s)
  | some _ => (toLE fill n, true, s)
  | none => (toLE fill n, false, s)

/-- Values of many elements, and whether some were poisoned. -/
def State.copyValues (s : State) (part : Nat) (c : CopyReq) (n fill : Nat) :
    List (Option Target) → List (List Byte) × Bool × State
  | [] => ([], false, s)
  | t :: r =>
    let (bs, p, s) := s.copyValue part c n fill t
    let (l, q, s) := s.copyValues part c n fill r
    (bs :: l, p || q, s)

/-- Element and scale addresses of one box. -/
def Tlr.addrs (r : Tlr) (co : List Int) : List (Option Nat) × List (Option Nat) :=
  ((List.range r.elems).map (r.elemAddr co), (List.range r.blocks).map (r.scaleAddr co))

/-- The fill of an element (R192). -/
def Tlr.elemFill (r : Tlr) : Nat := r.fill % 2 ^ (8 * 2 ^ r.esize)

/-! ## Retirement (R197, R198) -/

/-- End of a copy: the issuer's counter, then the named barrier. -/
def State.endCopy (s : State) (n : Nat) (o : Op) (c : CopyReq) : State :=
  ((s.delOp n).countDown o.th .copy).arriveOpt (courseOf o.th) c.bar

/-- Write bytes on the core side, at places within the scratchpad or the tile. -/
def State.putSide (s : State) (id : ThreadId) (side : CopySide) (tag : Tag)
    (ps : List (Nat × List Byte)) : State :=
  match side with
  | .scratch _ => s.modCourse (courseOf id) fun c =>
      { c with scratch := ps.foldl (fun m p => memWriteN m p.1 p.2) c.scratch }
  | .tile n =>
    match s.tileReg id n with
    | some r =>
      let t := r.latest
      s.writeTile id n { tag := tag, data := ps.foldl (fun m p => memWriteN m p.1 p.2) t.data } true
        false
    | none => s

/-- Bytes on the core side. -/
def State.getSide (s : State) (id : ThreadId) (side : CopySide) (a n : Nat) : List Byte :=
  match side with
  | .scratch _ => match s.course (courseOf id) with
    | some c => memReadN c.scratch a n
    | none => List.replicate n 0
  | .tile t => match s.tileReg id t with
    | some r => memReadN r.latest.data a n
    | none => List.replicate n 0

/-- Fill the core side from boxes of a record. -/
def State.fetchBoxes (s : State) (n : Nat) (o : Op) (c : CopyReq) (r : Tlr) (bs : List (List Int))
    (poison : Bool) : State :=
  let ctx := s.ctxOf o.th
  let core := s.coreOf o.th
  let part := s.partOf ctx
  let es := bs.flatMap fun b => (r.addrs b).1
  let ss := bs.flatMap fun b => (r.addrs b).2
  match s.copyTargets (fun s va => s.copySource core ctx (pagePieces va (2 ^ r.esize))) es with
  | (.error (hv, cause, va), s) => s.stopOp n o hv cause va
  | (.ok ets, s) =>
    match s.copyTargets (fun s va => s.copySource core ctx [(va, 1)]) ss with
    | (.error (hv, cause, va), s) => s.stopOp n o hv cause va
    | (.ok sts, s) =>
      let (vs, p, s) := s.copyValues part c (2 ^ r.esize) r.elemFill ets
      let (ks, q, s) := s.copyValues part c 1 (r.fill / 256 % 256) sts
      let places := vs.zipIdx.map fun v =>
        (r.elemPlace c.side (v.2 / r.elems) (v.2 % r.elems), v.1)
      let scales := ks.zipIdx.map fun v =>
        (r.scalePlace c.side (v.2 / r.blocks) (v.2 % r.blocks), v.1)
      ((s.putSide o.th c.side r.tag (places ++ scales)).copyStatus o.th (poison || p || q)
        false).endCopy n o c

/-- CPYO's writes to the back backing. -/
def State.storeBox (s : State) (n : Nat) (o : Op) (c : CopyReq) (r : Tlr) (co : List Int) : State :=
  let ctx := s.ctxOf o.th
  let (es, ss) := r.addrs co
  let dest (n : Nat) (s : State) (va : Nat) : Target × State := s.copyDest ctx (pagePieces va n)
  match s.copyTargets (dest (2 ^ r.esize)) es with
  | (.error (hv, cause, va), s) => s.stopOp n o hv cause va
  | (.ok ets, s) => match s.copyTargets (dest 1) ss with
  | (.error (hv, cause, va), s) => s.stopOp n o hv cause va
  | (.ok sts, s) =>
    let ts := ets ++ sts
    let (s, p, q) := ts.zipIdx.foldl (fun (acc : State × Bool × Bool) v =>
      let (s, p, q) := acc
      match v.1 with
      | some (.at ps) =>
        let bs := if v.2 < r.elems then
            s.getSide o.th c.side (r.elemPlace c.side 0 v.2) (2 ^ r.esize)
          else s.getSide o.th c.side (r.scalePlace c.side 0 (v.2 - r.elems)) 1
        ((ps.foldl (fun (acc : State × List Byte) p =>
          (acc.1.homeWrite o.th p.2.1 p.1 (acc.2.take p.2.2), acc.2.drop p.2.2)) (s, bs)).1, p, q)
      | some .noshadow => (s, p, true)
      | some _ => (s, true, q)
      | none => (s, p, q)) (s, false, false)
    (s.copyStatus o.th p q).endCopy n o c

/-- A gather: all index elements are read before any data element (R201). -/
def State.gatherBoxes (s : State) (n : Nat) (o : Op) (c : CopyReq) (i r : Tlr) (cs : List Int) :
    State :=
  let ctx := s.ctxOf o.th
  let core := s.coreOf o.th
  match s.copyTargets (fun s va => s.copySource core ctx (pagePieces va 4)) (i.addrs (cs.take i.ndims)).1 with
  | (.error (hv, cause, va), s) => s.stopOp n o hv cause va
  | (.ok ts, s) =>
    let (is, p, s) := s.copyValues (s.partOf ctx) c 4 i.elemFill ts
    let co := cs.drop i.ndims
    s.fetchBoxes n o c r (is.map fun b => setAt co c.dim (signedOf 32 (leNat b))) p

/-- The bytes of PUBL's keep: each page's new front onto its new back, 64 KiB at a time (R202). -/
def State.keepPages (s : State) (id : ThreadId) (ctx : Nat) :
    List Nat → Except (Bool × Nat × Nat) Unit × State
  | [] => (.ok (), s)
  | va :: r =>
    match s.leafAddr ctx va, s.ctx ctx with
    | .ok (l, _, _), some x =>
      let off (b : Bool) : Nat := l.frame + (if b then l.size else 0) + va % l.size
      match s.stage2 x (off l.front), s.stage2 x (off !l.front) with
      | some (pf, lf), some (pb, lb) =>
        if s.absentPage x.part pf || s.absentPage x.part pb then (.error (true, 1, va), s)
        else if !lf.r || !lb.w || s.guarded x.part pb then (.error (true, 2, va), s)
        else
          (s.homeWrite id (leafKey x lb) pb (s.readKeyed (leafKey x lf) pf 65536)).keepPages id ctx r
      | _, _ => (.error (true, 1, va), s)
    | .error (hv, c), _ => (.error (hv, c, va), s)
    | _, none => (.error (false, 1, va), s)

/-- Pages of a region, 64 KiB each. -/
def CopyReq.pages (c : CopyReq) : List Nat := (List.range (c.len / 65536)).map (c.base + 65536 * ·)

/-- COPY_RETIRE (R197). -/
def State.copyRetire (s : State) (n : Nat) (o : Op) (c : CopyReq) : State :=
  let ts := c.recs.map Tlr.read
  let cs := c.coords.map fun w => signedOf 32 w.toNat
  match c.kind, ts with
  | .cpy, [r] => s.fetchBoxes n o c r [cs] false
  | .cpyo, [r] => s.storeBox n o c r cs
  | .cpyx, [i, r] => s.gatherBoxes n o c i r cs
  | .publ, _ =>
    if !c.flipped then s
    else if c.keep then
      match s.keepPages o.th (s.ctxOf o.th) c.pages with
      | (.ok (), s) => s.endCopy n o c
      | (.error (hv, cause, va), s) => s.stopOp n o hv cause va
    else s.endCopy n o c
  | _, _ => s

def execCopyRetire (co : CourseId) (op : Nat) (s : State) : Host.Outcome State Fault Refusal :=
  match s.op op with
  | some o =>
    match o.kind with
    | .copy c =>
      if courseOf o.th = co ∧ o.stop.isNone ∧ c.seen.isSome then .next (s.copyRetire op o c)
      else .next s
    | _ => .next s
  | none => .next s

/-! ## PUBL_FLIP (R202) -/

/-- An earlier CPYO of the course into the region that has not retired. -/
def State.cpyoBefore (s : State) (co : CourseId) (n : Nat) (c : CopyReq) : Bool :=
  (s.opsOf co).any fun p => decide (p.1 < n) && (match p.2.kind with
    | .copy x => x.kind == .cpyo && (match x.recs.map Tlr.read with
        | [r] =>
          let (es, ss) := r.addrs (x.coords.map fun w => signedOf 32 w.toNat)
          (es ++ ss).any fun a => match a with
            | some a => decide (c.base < a + 2 ^ r.esize) && decide (a < c.base + c.len)
            | none => false
        | _ => false)
    | _ => false)

/-- The shadowed leaves of a region's pages, each once; `none` when some page is not a shadowed leaf
wholly inside it. A leaf in a page that a snapshot protects stops the flip on a stage-2 fault (R327). -/
def State.shadowLeaves (s : State) (ctx : Nat) (c : CopyReq) :
    List Nat → List (Nat × Nat) → Except (Nat × Nat) (Option (List (Nat × Nat)))
  | [], acc => .ok (some acc)
  | va :: r, acc =>
    match s.leafAddr ctx va with
    | .error (true, cause) => .error (cause, va)
    | .error (false, _) => .ok none
    | .ok (l, pa, key) =>
      let page := va / l.size * l.size
      if l.shadow && decide (c.base ≤ page) && decide (page + l.size ≤ c.base + c.len) then
        if s.guarded (s.partOf ctx) pa then .error (2, va)
        else s.shadowLeaves ctx c r (addNew acc (pa, key))
      else .ok none

/-- Drop every cached translation of a context that meets a range. -/
def State.dropTlb (s : State) (ctx base len : Nat) : State :=
  s.dropTranslations fun e => e.ctx == ctx && decide (e.page < base + len) && decide (base < e.page + e.size)

/-- Every armed watch of a context on a line of a range fires (R283). -/
def State.fireRegion (s : State) (ctx base len : Nat) : State :=
  { s with threads := s.threads.map fun p =>
      match p.2.monitor with
      | some m =>
        if s.ctxOf p.1 == ctx && !m.lost && decide (base ≤ 128 * m.line) &&
            decide (128 * m.line < base + len) then
          (p.1, { p.2 with monitor := some { m with fired := true } })
        else p
      | none => p }

/-- Flip the front bit of a leaf's entry; its page is dirty (R327). -/
def State.flipLeaf (s : State) (part : Nat) (p : Nat × Nat) : State :=
  let b := (s.readKeyed p.2 (p.1 + 1) 1).headD 0
  (s.writeKeyed p.2 (p.1 + 1) [b ^^^ 0x10]).markDirty part p.1

/-- Drop the copies of a flipped page's new front from every cache: one filled before the flip is older
than what the region has shown since (R202, R271, log entry 14). -/
def State.dropFront (s : State) (ctx va : Nat) : State :=
  match s.leafAddr ctx va, s.ctx ctx with
  | .ok (l, _, _), some x =>
    match s.stage2 x (l.frame + (if l.front then l.size else 0) + va % l.size) with
    | some (pa, _) =>
      let keep (ls : List CacheLine) : List CacheLine :=
        ls.filter fun c => !(decide (pa / 128 ≤ c.line) && decide (c.line < pa / 128 + 512))
      { s with
        cores := s.cores.map fun c => (c.1, { c.2 with l1 := keep c.2.l1 }),
        dies := s.dies.map fun d => (d.1, { d.2 with rdc := keep d.2.rdc }) }
    | none => s
  | _, _ => s

def State.publFlip (s : State) (n : Nat) (o : Op) (c : CopyReq) : State :=
  let ctx := s.ctxOf o.th
  match s.shadowLeaves ctx c c.pages [] with
  | .error (cause, va) => s.stopOp n o true cause va
  | .ok none => (s.copyStatus o.th false true).endCopy n o c
  | .ok (some ls) =>
    let s := ls.foldl (fun s l => s.flipLeaf (s.partOf ctx) l) s
    let s := c.pages.foldl (fun s va => s.dropFront ctx va) s
    let s := (s.dropTlb ctx c.base c.len).fireRegion ctx c.base c.len
    (s.modCourse (courseOf o.th) fun k => { k with committed := true }).modOp n fun o =>
      { o with kind := .copy { c with flipped := true } }

/-- PUBL_FLIP: after the course's earlier copies into the region, at its turn in a deterministic
kernel (R202, R335). -/
def execPublFlip (co : CourseId) (op : Nat) (s : State) : Host.Outcome State Fault Refusal :=
  match s.op op with
  | some o =>
    match o.kind with
    | .copy c =>
      if courseOf o.th = co ∧ c.kind = .publ ∧ c.flipped = false ∧ o.stop.isNone ∧
          s.mayRegister co ∧ c.seen.isSome ∧ s.cpyoBefore co op c = false then
        .next (s.publFlip op o c)
      else .next s
    | _ => .next s
  | none => .next s

end Sys2Proof.Machine
end

