-- ==== Sys2Proof/Machine/Special.lean ====
section
/-! DEFINITION. Special.lean: the special functions (R170 to R172): correctly rounded tables of g,
interpolation and reconstruction. Every table entry is decided by intervals that shrink until both
ends round to one FP32 value. -/

namespace Sys2Proof.Machine

/-! ## Intervals at scale 2^P -/

/-- A nonnegative real between lo / 2^P and hi / 2^P. -/
structure Iv where
  lo : Nat
  hi : Nat

def Iv.ofRat (P a b : Nat) : Iv := ⟨a * 2 ^ P / b, a * 2 ^ P / b + 1⟩

def Iv.add (x y : Iv) : Iv := ⟨x.lo + y.lo, x.hi + y.hi⟩

/-- Difference of which the true value is nonnegative. -/
def Iv.sub (x y : Iv) : Iv := ⟨x.lo - y.hi, x.hi - y.lo⟩

def Iv.mul (P : Nat) (x y : Iv) : Iv := ⟨x.lo * y.lo / 2 ^ P, x.hi * y.hi / 2 ^ P + 1⟩

def Iv.div (P : Nat) (x y : Iv) : Iv :=
  ⟨x.lo * 2 ^ P / y.hi, x.hi * 2 ^ P / max y.lo 1 + 1⟩

def Iv.divNat (x : Iv) (n : Nat) : Iv := ⟨x.lo / n, x.hi / n + 1⟩

def Iv.mulNat (x : Iv) (n : Nat) : Iv := ⟨x.lo * n, x.hi * n⟩

def Iv.sqrt (P : Nat) (x : Iv) : Iv := ⟨isqrt (x.lo * 2 ^ P), isqrt (x.hi * 2 ^ P) + 1⟩

/-- Sum of a series of `n` more terms, each the last one times `x` over `d k`; positive and negative
terms are summed apart, and the tail is below one unit. -/
def ivSeries (P : Nat) (x : Iv) (d : Nat → Nat) (alt : Bool) : Nat → Nat → Iv → Bool → Iv × Iv →
    Iv × Iv
  | 0, _, _, _, acc => (⟨acc.1.lo, acc.1.hi + 1⟩, ⟨acc.2.lo, acc.2.hi + 1⟩)
  | n + 1, k, term, neg, acc =>
    let acc := if neg then (acc.1, acc.2.add term) else (acc.1.add term, acc.2)
    ivSeries P x d alt n (k + 1) ((term.mul P x).divNat (d (k + 1))) (neg != alt) acc

/-- e^x for x ≤ 8. -/
def ivExp (P : Nat) (x : Iv) : Iv :=
  (ivSeries P x (fun k => k) false (P + 32) 0 ⟨2 ^ P, 2 ^ P⟩ false (⟨0, 0⟩, ⟨0, 0⟩)).1

/-- Σ z^(2k+1) / (2k+1), which is artanh z, for z ≤ 1/3. -/
def ivArtanh (P : Nat) (z : Iv) : Iv :=
  let z2 := z.mul P z
  let rec go : Nat → Nat → Iv → Iv → Iv
    | 0, _, _, acc => ⟨acc.lo, acc.hi + 1⟩
    | n + 1, k, p, acc => go n (k + 1) (p.mul P z2) (acc.add (p.divNat (2 * k + 1)))
  go (P / 2) 0 z ⟨0, 0⟩

/-- Σ (−1)^k / ((2k+1) n^(2k+1)), which is arctan (1/n). -/
def ivArctan (P n : Nat) : Iv :=
  let rec go : Nat → Nat → Iv → Iv × Iv → Iv
    | 0, _, _, acc => let d := acc.1.sub acc.2; ⟨d.lo - 1, d.hi + 1⟩
    | m + 1, k, p, acc =>
      let t := p.divNat (2 * k + 1)
      go m (k + 1) (p.divNat (n * n)) (if k % 2 == 0 then (acc.1.add t, acc.2) else (acc.1, acc.2.add t))
  go (P / 4 + 1) 0 (Iv.ofRat P 1 n) (⟨0, 0⟩, ⟨0, 0⟩)

/-- π by Machin's formula. -/
def ivPi (P : Nat) : Iv := ((ivArctan P 5).mulNat 16).sub ((ivArctan P 239).mulNat 4)

/-- sin x for x ≤ π/2. -/
def ivSin (P : Nat) (x : Iv) : Iv :=
  let (p, n) := ivSeries P (x.mul P x) (fun k => 2 * k * (2 * k + 1)) true P 0 x false
    (⟨0, 0⟩, ⟨0, 0⟩)
  p.sub n

/-- The standard normal distribution function Φ of x ≤ 4: ½ + Σ (−1)^k x^(2k+1) / (2^k k! (2k+1)) / √(2π). -/
def ivPhi (P : Nat) (x : Iv) : Iv :=
  let x2 := x.mul P x
  let rec go : Nat → Nat → Iv → Iv × Iv → Iv
    | 0, _, _, acc => let d := acc.1.sub acc.2; ⟨d.lo - 1, d.hi + 1⟩
    | m + 1, k, p, acc =>
      let t := p.divNat (2 * k + 1)
      go m (k + 1) ((p.mul P x2).divNat (2 * (k + 1)))
        (if k % 2 == 0 then (acc.1.add t, acc.2) else (acc.1, acc.2.add t))
  let s := go (P + 32) 0 x (⟨0, 0⟩, ⟨0, 0⟩)
  (Iv.ofRat P 1 2).add (s.div P (((ivPi P).mulNat 2).sqrt P))

/-! ## The tables (R170) -/

/-- The functions g of R170. -/
inductive GFn where
  | exp2 | log2 | rcp | rsq | sin | cos | tanh | sigm | phi
  deriving DecidableEq, Repr

/-- ⌊2^(j/n) × 2^P⌋ for n a power of two: square roots of floors are floors of square roots. -/
def rootPow (P j : Nat) : Nat → Nat
  | 1 => 2 ^ (P + j)
  | n => (List.range (Nat.log2 n)).foldl (fun r _ => isqrt r) (2 ^ (n * P + j))

/-- An interval around g(j/n), 0 ≤ j ≤ n. -/
def gIv (P : Nat) (g : GFn) (j n : Nat) : Iv :=
  match g with
  | .exp2 => let r := rootPow P j n; ⟨r, r + 1⟩
  | .log2 =>
    if j == 0 then ⟨0, 0⟩
    else (ivArtanh P (Iv.ofRat P j (2 * n + j))).div P (ivArtanh P (Iv.ofRat P 1 3))
  | .rcp => Iv.ofRat P n (n + j)
  | .rsq =>
    -- W is a / n
    let a := if 2 * j < n then n + 2 * j else 4 * j
    let r := isqrt (n * 2 ^ (2 * P) / a)
    ⟨r, r + 1⟩
  | .sin => if j == 0 then ⟨0, 0⟩ else ivSin P (((ivPi P).mulNat j).divNat (2 * n))
  | .cos => if j == n then ⟨0, 0⟩ else ivSin P (((ivPi P).mulNat (n - j)).divNat (2 * n))
  | .tanh =>
    if j == 0 then ⟨0, 0⟩
    else
      let e := ivExp P (Iv.ofRat P (8 * j) n)
      (e.sub ⟨2 ^ P, 2 ^ P⟩).div P (e.add ⟨2 ^ P, 2 ^ P⟩)
  | .sigm =>
    let e := ivExp P (Iv.ofRat P (8 * j) n)
    e.div P (e.add ⟨2 ^ P, 2 ^ P⟩)
  | .phi => ivPhi P (Iv.ofRat P (4 * j) n)

/-- The FP32 value nearest to the real in an interval, once both ends agree; the last precision
answers otherwise, which no entry of the tables comes to. -/
def nearest (iv : Nat → Iv) : List Nat → Nat
  | [] => 0
  | P :: ps =>
    let x := iv P
    let a := Fmt.f32.rne (.fin false x.lo (-(P : Int)))
    let b := Fmt.f32.rne (.fin false x.hi (-(P : Int)))
    if a == b then a else if ps.isEmpty then a else nearest iv ps

def precisions : List Nat := [96, 192, 384, 768]

/-- T[j]: the correctly rounded g(j/n). -/
def tableT (g : GFn) (n j : Nat) : Nat := nearest (fun P => gIv P g j n) precisions

/-- y of R170, with the flags of R150: one fused rounding, toward zero in compat mode (R172), of
u = un / 2^k. -/
def interpFlags (g : GFn) (compat : Bool) (un k : Nat) : Nat × BitVec 5 :=
  let n := if compat then 32 else 64
  let j := min (un * n / 2 ^ k) (n - 1)
  let t := Fmt.f32.read (tableT g n j)
  let t1 := Fmt.f32.read (tableT g n (j + 1))
  let d := Fmt.f32.read (Fmt.f32.rne (t1.add t.negate .rne).1)
  let fr := FloatVal.fin false (un * n - j * 2 ^ k) (-(k : Int))
  Fmt.f32.round (if compat then .rtz else .rne) 0 (d.fma fr t .rne).1

def interp (g : GFn) (compat : Bool) (un k : Nat) : Nat := (interpFlags g compat un k).1

/-! ## The functions (R170, R171) -/

/-- The nine functions. -/
inductive Special where
  | exp2 | log2 | rcp | rsq | sin | cos | tanh | sigm | gelu
  deriving DecidableEq, Repr

/-- m × 2^e as a numerator over a power of two. -/
def overPow (m : Nat) (e : Int) : Nat × Nat := (m * 2 ^ e.toNat, (-e).toNat)

/-- min(|x|, c) / c for c = 2^b, as numerator and power. -/
def clampOver (m : Nat) (e : Int) (b : Nat) : Nat × Nat :=
  let (n, k) := overPow m (e - b)
  if n ≥ 2 ^ k then (1, 0) else (n, k)

/-- The result of a finite source, with its flags, before ftz: the final scaling of FEXP2, FRCP and
FRSQ has the flags of R150, every finite result that is not exact by the list of R171 sets nx, and the
last rounding of a tiny result sets uf (R150, R173; log entry 23). -/
def Special.finite (f : Special) (compat neg : Bool) (m : Nat) (e : Int) : Nat × BitVec 5 :=
  let (xn, k) := overPow m e
  let sx : Int := if neg then -(xn : Int) else xn
  let top := Nat.log2 m
  let ex : Int := topExp m e
  let nx (u : Nat) (fl : BitVec 5) : BitVec 5 := fl ||| flagIf (u != 0) fNx
  let sign (c : Nat) : Nat := if neg then 2 ^ 31 + c else c
  match f with
  | .exp2 =>
    let n := sx / ((2 ^ k : Nat) : Int)
    let un := (sx - n * ((2 ^ k : Nat) : Int)).toNat
    -- beyond ±400 the scaled result overflows or vanishes all the same
    let n := max (-400) (min 400 n)
    let (c, fl) := Fmt.f32.round .rne 0 ((Fmt.f32.read (interp .exp2 compat un k)).scale n)
    (c, nx un fl)
  | .log2 =>
    let un := m - 2 ^ top
    let y := Fmt.f32.read (interp .log2 compat un top)
    (Fmt.f32.rne (y.add (FloatVal.ofInt ex 0 false) .rne).1, nx un 0)
  | .rcp =>
    let un := m - 2 ^ top
    let (c, fl) := Fmt.f32.round .rne 0 ((Fmt.f32.read (interp .rcp compat un top)).scale (-ex))
    (sign c, nx un fl)
  | .rsq =>
    let un := m - 2 ^ top + (if ex % 2 == 1 then 2 ^ top else 0)
    let (c, fl) :=
      Fmt.f32.round .rne 0 ((Fmt.f32.read (interp .rsq compat un (top + 1))).scale (-(ex / 2)))
    (c, nx un fl)
  | .sin => turn 0
  | .cos => turn 1
  | .tanh =>
    let (un, k) := clampOver m e 2
    let (y, fl) := interpFlags .tanh compat un k
    (sign y, nx un (fl &&& fUf))
  | .sigm =>
    let (un, k) := clampOver m e 3
    let y := interp .sigm compat un k
    (if neg then Fmt.f32.rne (((Fmt.f32.read y).negate.add (.fin false 1 0) .rne).1) else y, nx un 0)
  | .gelu =>
    if m == 0 then (0, 0)
    else
      let (un, k) := clampOver m e 2
      let y := Fmt.f32.read (interp .phi compat un k)
      let p := if neg then (y.negate.add (.fin false 1 0) .rne).1 else y
      let (c, fl) := Fmt.f32.round .rne 0 (p.mul (.fin neg m e)).1
      (c, fNx ||| (fl &&& fUf))
where
  /-- FSIN (first quarter 0) and FCOS (first quarter 1) of x in turns. -/
  turn (first : Nat) : Nat × BitVec 5 :=
    let (xn, k) := overPow m e
    let sx : Int := if neg then -(xn : Int) else xn
    let v := (sx % ((2 ^ k : Nat) : Int)).toNat
    let q := (4 * v / 2 ^ k + first) % 4
    let un := 4 * v % 2 ^ k
    let (y, fl) := interpFlags (if q % 2 == 0 then .sin else .cos) compat un k
    (if q ≥ 2 && y != 0 then 2 ^ 31 + y else y, (fl &&& fUf) ||| flagIf (un != 0) fNx)

/-- A special function of an FP32 code: the result before ftz and the flags (R170, R171). -/
def Special.eval (f : Special) (compat : Bool) (x : FloatVal) : Nat × BitVec 5 :=
  let nan := Fmt.f32.nan
  let inf (n : Bool) := Fmt.f32.infCode n
  match x with
  | .nan s => (nan, flagIf s fNv)
  | .inf n =>
    match f with
    | .exp2 => (if n then 0 else inf false, 0)
    | .log2 => if n then (nan, fNv) else (inf false, 0)
    | .rcp => (Fmt.f32.code n 0, 0)
    | .rsq => if n then (nan, fNv) else (0, 0)
    | .sin => (nan, fNv)
    | .cos => (nan, fNv)
    | .tanh => (Fmt.f32.code n (interp .tanh compat 1 0), fNx)
    | .sigm =>
      let y := interp .sigm compat 1 0
      (if n then Fmt.f32.rne (((Fmt.f32.read y).negate.add (.fin false 1 0) .rne).1) else y, fNx)
    | .gelu => (inf n, 0)
  | .fin n m e =>
    if m == 0 then
      match f with
      | .log2 => (inf true, fDz)
      | .rcp => (inf n, fDz)
      | .rsq => (inf n, fDz)
      | f => f.finite compat n 0 0
    else
      match f with
      | .log2 => if n then (nan, fNv) else f.finite compat n m e
      | .rsq => if n then (nan, fNv) else f.finite compat n m e
      | f => f.finite compat n m e

/-- A special function of a code under the environment of an instruction (R157, R171). -/
def FEnv.special (v : FEnv) (f : Special) (compat : Bool) (c : Nat) : Nat × FEnv :=
  let (x, v) := v.get .f32 c
  let (r, fl) := f.eval compat x
  if v.ftz && f32Subnormal r then (r / 2 ^ 31 * 2 ^ 31, v.raise (fl ||| fUf ||| fNx))
  else (r, v.raise fl)

end Sys2Proof.Machine
end

