-- ==== Sys2Proof/Machine/Vector.lean ====
section
/-! DEFINITION. Vector.lean: the meanings of groups 0x6 and 0x7 (R157 to R165). -/

namespace Sys2Proof.Machine

/-! ## Elements (R157) -/

def FloatTy.fmt : FloatTy → Fmt
  | .f32 => .f32
  | .bf16 => .bf16
  | .f16 => .f16

/-- The tag that every source of the type carries. -/
def FloatTy.tag : FloatTy → Tag
  | .f32 => 0x20
  | .bf16 => 0x60
  | .f16 => 0x80

/-- Elements per register. -/
def FloatTy.lanes : FloatTy → Nat
  | .f32 => 1
  | _ => 2

/-- Code of element `e`. -/
def FloatTy.el (ty : FloatTy) (w : Word) (e : Nat) : Nat :=
  w.toNat / 2 ^ ((FloatTy.fmt ty).width * e) % 2 ^ (FloatTy.fmt ty).width

/-- Apply an operation to the elements in order, element 0 first. -/
def laneLoop (ty : FloatTy) (f : FEnv → Nat → Nat × FEnv) : Nat → Nat → FEnv → Nat → Nat × FEnv
  | 0, _, v, acc => (acc, v)
  | n + 1, e, v, acc =>
    let (r, v) := f v e
    laneLoop ty f n (e + 1) v (acc + r * 2 ^ ((FloatTy.fmt ty).width * e))

/-- The 32 bits that a source b gives. -/
def Thread.srcBits (t : Thread) (b : Src) : Word :=
  match b with
  | .reg o => (t.reg o).bits
  | .imm i => i

/-- FADD to FMAX: two sources of the type, one result per element (R159, R160). -/
def floatBin (x : FOp) (fixed : Bool) (f : FEnv → Fmt → Nat → Nat → Nat × FEnv) (t : Thread) :
    Except Trap Thread := do
  t.need false x.a (FloatTy.tag x.ty)
  t.needSrc false x.b (FloatTy.tag x.ty)
  let a := (t.reg x.a).bits
  let b := t.srcBits x.b
  let (r, v) := laneLoop x.ty
    (fun v e => f v (FloatTy.fmt x.ty) (FloatTy.el x.ty a e) (FloatTy.el x.ty b e))
    (FloatTy.lanes x.ty) 0 (if fixed then t.fenvRne else t.fenv x.rnd) 0
  .ok ((t.afterFloat v x.d).setReg x.d ⟨BitVec.ofNat 32 r, FloatTy.tag x.ty⟩).advance

/-- A division or root of FP32: it uses the slot's divider (R158, R163). -/
def floatDivide (s : State) (id : ThreadId) (t : Thread) (d : Opd) (cycles : Nat)
    (r : Nat × FEnv) : State :=
  let ws := match d with
    | .v n => [(n.val, (⟨BitVec.ofNat 32 r.1, 0x20⟩ : VReg))]
    | _ => []
  s.startDivide id { t with gen := r.2.gen } d cycles ws r.2.flags

/-! ## Group 0x6 -/

/-- FADD (R159). -/
def execFadd (x : FOp) (s : State) : Host.Outcome State Fault Refusal :=
  .next (s.runLocal x.ctl (floatBin x false FEnv.addC))

/-- FSUB (R159). -/
def execFsub (x : FOp) (s : State) : Host.Outcome State Fault Refusal :=
  .next (s.runLocal x.ctl (floatBin x false FEnv.subC))

/-- FMUL (R159). -/
def execFmul (x : FOp) (s : State) : Host.Outcome State Fault Refusal :=
  .next (s.runLocal x.ctl (floatBin x false FEnv.mulC))

/-- FFMA (R159). -/
def execFfma (x : FOp3) (s : State) : Host.Outcome State Fault Refusal :=
  .next (s.runLocal x.ctl fun t => do
    t.need false x.a (FloatTy.tag x.ty)
    t.needSrc false x.b (FloatTy.tag x.ty)
    t.need false x.c (FloatTy.tag x.ty)
    let a := (t.reg x.a).bits
    let b := t.srcBits x.b
    let c := (t.reg x.c).bits
    let (r, v) := laneLoop x.ty
      (fun v e => v.fmaC (FloatTy.fmt x.ty) (FloatTy.el x.ty a e) (FloatTy.el x.ty b e)
        (FloatTy.el x.ty c e))
      (FloatTy.lanes x.ty) 0 (t.fenv x.rnd) 0
    .ok ((t.afterFloat v x.d).setReg x.d ⟨BitVec.ofNat 32 r, FloatTy.tag x.ty⟩).advance)

/-- FMIN (R160). -/
def execFmin (x : FOp) (s : State) : Host.Outcome State Fault Refusal :=
  .next (s.runLocal x.ctl (floatBin x true fun v f a b => v.minMaxC f false a b))

/-- FMAX (R160). -/
def execFmax (x : FOp) (s : State) : Host.Outcome State Fault Refusal :=
  .next (s.runLocal x.ctl (floatBin x true fun v f a b => v.minMaxC f true a b))

/-- A comparison with its flags: an ordered condition sets nv for any NaN (R161). -/
def FEnv.compare (v : FEnv) (f : Fmt) (c : Cond) (a b : Nat) : Bool × FEnv :=
  let (x, v) := v.get f a
  let (y, v) := v.get f b
  (condOf c x y, v.raise (flagIf (Cond.ordered c && (x.isNan || y.isNan)) fNv))

/-- FCMP (R161): its d field is a predicate. -/
def execFcmp (x : FcmpOp) (s : State) : Host.Outcome State Fault Refusal :=
  .next (s.runLocal x.ctl fun t => do
    t.need false x.a 0x20
    t.needSrc false x.b 0x20
    let (r, v) := t.fenvRne.compare .f32 x.cond (t.reg x.a).bits.toNat (t.srcBits x.b).toNat
    .ok ((t.raiseFlags v.flags t.enables t.pc (BitVec.ofNat 8 x.pd.val)).setPred x.pd r).advance)

/-- FCLASS (R162). -/
def execFclass (x : FUn) (s : State) : Host.Outcome State Fault Refusal :=
  .next (s.runLocal x.ctl fun t => do
    t.need false x.a 0x20
    let c := classMask .f32 (t.fenvRne.peek .f32 (t.reg x.a).bits.toNat)
    .ok (t.setReg x.d ⟨BitVec.ofNat 32 c, 0⟩).advance)

/-- FDIV (R163). -/
def execFdiv (x : FOp) (s : State) : Host.Outcome State Fault Refusal :=
  .next (s.runGang x.ctl fun s id t => do
    t.need false x.a 0x20
    t.needSrc false x.b 0x20
    .ok (floatDivide s id t x.d 16
      ((t.fenv x.rnd).divC .f32 (t.reg x.a).bits.toNat (t.srcBits x.b).toNat)))

/-- FSQRT (R163). -/
def execFsqrt (x : FUn) (s : State) : Host.Outcome State Fault Refusal :=
  .next (s.runGang x.ctl fun s id t => do
    t.need false x.a 0x20
    .ok (floatDivide s id t x.d 18 ((t.fenv x.rnd).sqrtC .f32 (t.reg x.a).bits.toNat)))

/-- A binary8×4 source: its format, or a tag fault; 0xFF reads as zeros (R156, R164). -/
def Thread.b8Src (t : Thread) (o : Opd) : Except Trap Fmt :=
  if o == .zero then .ok (.b8 4 true false)
  else if tagClass (t.reg o).tag == 5 then
    match tagFmt (t.reg o).tag with
    | some f => .ok f
    | none => .error (.tag o)
  else .error (.tag o)

/-- A product whose zero is +0 (R164). -/
def dotTerm (x y : FloatVal) : FloatVal × BitVec 5 :=
  match x.mul y with
  | (.fin n m e, fl) => (if m == 0 then .zero else .fin n m e, fl)
  | r => r

/-- The exact sum of terms; infinite terms of opposite sign set nv (R164). -/
def sumTerms (ts : List FloatVal) (mode : Rnd) : FloatVal × BitVec 5 :=
  let infs := ts.any (fun x => x == .inf false) && ts.any (fun x => x == .inf true)
  let s := ts.foldl (fun (a x : FloatVal) => (a.add x mode).1) FloatVal.zero
  (if s.isZero then .fin (mode == .rdn) 0 0 else s, flagIf infs fNv)

/-- FDOT4 (R164). -/
def execFdot4 (x : DOp3) (s : State) : Host.Outcome State Fault Refusal :=
  .next (s.runLocal x.ctl fun t => do
    let fa ← t.b8Src x.a
    let fb ← t.b8Src x.b
    t.need false x.c 0x20
    let v := t.fenv x.rnd
    let a := (t.reg x.a).bits.toNat
    let b := (t.reg x.b).bits.toNat
    let ps := (List.range 4).map fun e =>
      dotTerm (fa.read (a / 256 ^ e % 256)) (fb.read (b / 256 ^ e % 256))
    let (c, v) := v.get .f32 (t.reg x.c).bits.toNat
    let (sum, fl) := sumTerms (c :: ps.map (·.1)) v.mode
    let fl := ps.foldl (fun f p => f ||| p.2) fl
    let (r, v) := (v.raise fl).out .f32 sum
    .ok ((t.afterFloat v x.d).setReg x.d ⟨BitVec.ofNat 32 r, 0x20⟩).advance)

/-! ## Group 0x7 (R165) -/

/-- DADD to DMAX: FP64 pairs. -/
def doubleBin (x : DOp) (f : FEnv → Nat → Nat → Nat × FEnv) (t : Thread) : Except Trap Thread := do
  t.need true x.a 0x40
  t.need true x.b 0x40
  let (r, v) := f (t.fenv x.rnd) (t.pair x.a).toNat (t.pair x.b).toNat
  .ok ((t.afterFloat v x.d).setPair x.d (BitVec.ofNat 64 r) 0x40).advance

/-- The pending writes of a pair. -/
def pairWrites (d : Opd) (w : DWord) (tag : Tag) : List (Nat × VReg) :=
  match d with
  | .v n => [(n.val, ⟨w.setWidth 32, tag⟩), (n.val + 1, ⟨(w >>> 32).setWidth 32, tag⟩)]
  | _ => []

/-- DADD. -/
def execDadd (x : DOp) (s : State) : Host.Outcome State Fault Refusal :=
  .next (s.runLocal x.ctl (doubleBin x fun v a b => v.addC .f64 a b))

/-- DSUB. -/
def execDsub (x : DOp) (s : State) : Host.Outcome State Fault Refusal :=
  .next (s.runLocal x.ctl (doubleBin x fun v a b => v.subC .f64 a b))

/-- DMUL. -/
def execDmul (x : DOp) (s : State) : Host.Outcome State Fault Refusal :=
  .next (s.runLocal x.ctl (doubleBin x fun v a b => v.mulC .f64 a b))

/-- DFMA. -/
def execDfma (x : DOp3) (s : State) : Host.Outcome State Fault Refusal :=
  .next (s.runLocal x.ctl fun t => do
    t.need true x.a 0x40
    t.need true x.b 0x40
    t.need true x.c 0x40
    let (r, v) := (t.fenv x.rnd).fmaC .f64 (t.pair x.a).toNat (t.pair x.b).toNat (t.pair x.c).toNat
    .ok ((t.afterFloat v x.d).setPair x.d (BitVec.ofNat 64 r) 0x40).advance)

/-- DMIN. -/
def execDmin (x : DOp) (s : State) : Host.Outcome State Fault Refusal :=
  .next (s.runLocal x.ctl (doubleBin x fun v a b => v.minMaxC .f64 false a b))

/-- DMAX. -/
def execDmax (x : DOp) (s : State) : Host.Outcome State Fault Refusal :=
  .next (s.runLocal x.ctl (doubleBin x fun v a b => v.minMaxC .f64 true a b))

/-- DCMP. -/
def execDcmp (x : DcmpOp) (s : State) : Host.Outcome State Fault Refusal :=
  .next (s.runLocal x.ctl fun t => do
    t.need true x.a 0x40
    t.need true x.b 0x40
    let (r, v) := t.fenvRne.compare .f64 x.cond (t.pair x.a).toNat (t.pair x.b).toNat
    .ok ((t.raiseFlags v.flags t.enables t.pc (BitVec.ofNat 8 x.pd.val)).setPred x.pd r).advance)

/-- DDIV. -/
def execDdiv (x : DOp) (s : State) : Host.Outcome State Fault Refusal :=
  .next (s.runGang x.ctl fun s id t => do
    t.need true x.a 0x40
    t.need true x.b 0x40
    let (r, v) := (t.fenv x.rnd).divC .f64 (t.pair x.a).toNat (t.pair x.b).toNat
    .ok (s.startDivide id { t with gen := v.gen } x.d 30 (pairWrites x.d (BitVec.ofNat 64 r) 0x40)
      v.flags))

/-- DSQRT. -/
def execDsqrt (x : FUn) (s : State) : Host.Outcome State Fault Refusal :=
  .next (s.runGang x.ctl fun s id t => do
    t.need true x.a 0x40
    let (r, v) := (t.fenv x.rnd).sqrtC .f64 (t.pair x.a).toNat
    .ok (s.startDivide id { t with gen := v.gen } x.d 32 (pairWrites x.d (BitVec.ofNat 64 r) 0x40)
      v.flags))

/-- DCLASS. -/
def execDclass (x : FUn) (s : State) : Host.Outcome State Fault Refusal :=
  .next (s.runLocal x.ctl fun t => do
    t.need true x.a 0x40
    let c := classMask .f64 (Fmt.f64.read (t.pair x.a).toNat)
    .ok (t.setReg x.d ⟨BitVec.ofNat 32 c, 0⟩).advance)

end Sys2Proof.Machine
end

