-- ==== Sys2Proof/Machine/Matrix.lean ====
section
/-! DEFINITION. Matrix.lean: the matrix engine (R203 to R215). -/

namespace Sys2Proof.Machine

/-- The cluster of a thread's core. -/
def State.clusterOf (s : State) (id : ThreadId) : Nat := coreCluster (s.coreOf id)

/-- The core of the gang that issues. -/
def State.issueCore (s : State) : Nat :=
  match s.issue with
  | some g => g.core
  | none => 0

/-! ## Claiming and releasing (R204) -/

/-- MCLM of one thread. -/
def State.mclm (s : State) (id : ThreadId) (t : Thread) (x : MclmOp) : Except Trap State := do
  t.needSrc false x.b 0
  let n := t.word x.b
  let cl := s.clusterOf id
  let co := courseOf id
  let held := ((s.cluster cl).held co x.acc).length
  if n == 0 || n > capOf x.acc || (x.wait && n > capOf x.acc - held) then .error (.illegal x.d.enc)
  else
    match (s.cluster cl).claim co x.acc n with
    | some (mask, c) =>
      .ok ((s.setCluster cl c).setThread id (t.setReg x.d ⟨BitVec.ofNat 32 mask, 0⟩).advance)
    | none =>
      if !x.wait then .ok (s.setThread id (t.setReg x.d ⟨0, 0⟩).advance)
      else s.beginWait id (.engine cl x.acc) x.d.enc fun t =>
        { t with await := .claim x.acc n x.d s.gts }

/-- MCLM. -/
def execMclm (x : MclmOp) (s : State) : Host.Outcome State Fault Refusal :=
  .next (s.runGang x.ctl fun s id t => s.mclm id t x)

/-- Course ids that an entry names. -/
def EntryKind.slotIds : EntryKind → List Nat
  | .pass b _ => [bits b.toNat 4 0, bits b.toNat 9 5]
  | _ => []

def EntryKind.bankIds : EntryKind → List Nat
  | .pass b _ => [bits b.toNat 13 12]
  | .macc _ b _ _ _ => [b]
  | .mzero m => (List.range 4).filter fun i => m.getLsbD i

/-- An incomplete MLDS or reservation of a course names an id. -/
def State.idBusy (s : State) (cl : Nat) (co : CourseId) (banks : Bool) (i : Nat) : Bool :=
  ((s.cluster cl).entries.any fun e => courseOf e.th == co &&
    decide (i ∈ (if banks then e.kind.bankIds else e.kind.slotIds))) ||
  (!banks && (s.opsOf co).any fun p => match p.2.kind with
    | .mlds n _ _ _ _ _ => n == i
    | _ => false)

/-- MREL of one thread. -/
def State.mrel (s : State) (id : ThreadId) (t : Thread) (x : MrelOp) : Except Trap State := do
  t.needSrc false x.b 0
  let m := t.word x.b
  let cl := s.clusterOf id
  let co := courseOf id
  let held := (s.cluster cl).held co x.acc
  let ids := (List.range 32).filter fun i => nbit m i
  if !(ids.all fun i => held.any fun p => p.1 == i) then .error (.illegal 0xFF)
  else
    let c := (held.filter fun p => p.1 ∈ ids).foldl (fun c p => c.giveUp x.acc p.2) (s.cluster cl)
    .ok (((s.setCluster cl c).setThread id t.advance).serveClaims cl x.acc s.threads.length)

/-- MREL. -/
def execMrel (x : MrelOp) (s : State) : Host.Outcome State Fault Refusal :=
  .next (s.runUnless x.ctl
    (fun s id t => (List.range 32).any fun i =>
      nbit (t.word x.b) i && s.idBusy (s.clusterOf id) (courseOf id) x.acc i)
    fun s id t => s.mrel id t x)

/-! ## Loading a slot (R205) -/

/-- Elements of a row along K, their size, and the group size, by class (R205, R209). -/
structure Shape where
  kp : Nat
  bytes : Nat
  group : Nat

def shapeOf (tag : Tag) : Shape :=
  match tagClass tag with
  | 1 => ⟨16, 4, 16⟩
  | 3 => ⟨32, 2, 32⟩
  | _ => ⟨64, 1, 32⟩

/-- 64 bytes of each of 128 tile rows, and their two scales; rows the tile lacks read 0x00 and 0x7F. -/
def tileSlot (t : Tile) (rows : Nat) (scaled : Bool) : Memory × Memory :=
  let elems := (List.range (min rows 128)).foldl
    (fun m i => memWriteN m (64 * i) (memReadN t.data (512 * i) 64)) []
  let scale (i g : Nat) : Byte :=
    if scaled && decide (i < rows) then memRead t.data (512 * i + 128 + g) else 0x7F
  (elems, memWriteN [] 0 ((List.range 128).flatMap fun i => [scale i 0, scale i 1]))

/-- The bytes of a slot from scratchpad. -/
def scratchSlot (m : Memory) (p : Nat) (scaled : Bool) : Memory × Memory :=
  (memWriteN [] 0 (memReadN m p 8192),
    memWriteN [] 0 (if scaled then memReadN m (p + 8192) 256 else List.replicate 256 0x7F))

/-- Bytes that MLDS reads in scratchpad. -/
def mldsBytes (fmt : Tag) : Nat := 8192 + (if tagClass fmt == 6 then 256 else 0)

/-- MLDS of one thread. -/
def State.mlds (s : State) (id : ThreadId) (t : Thread) (x : MldsOp) : Except Trap State := do
  t.need false x.d 0
  match x.a with
  | .v _ => t.need false x.a 0
  | _ => .ok ()
  let n := (t.reg x.d).bits.toNat
  let co := courseOf id
  if n > 31 || ((s.cluster (s.clusterOf id)).physOf co false n).isNone then
    .error (.privilege x.d.enc)
  else
    let scaled := tagClass x.fmt == 6
    let start (elems scales : Memory) (src : CopySide) : State :=
      (s.addOp { th := id, pc := t.pc, field := x.d.enc, issued := s.cycle, due := s.cycle + 40,
                 stop := none, fctl := t.fctl,
                 kind := .mlds n x.roleB x.fmt elems scales src }).setThread id
        (t.countUp .tile).advance
    match x.a with
    | .t k =>
      let tile := s.readTile id k
      if tile.tag != x.fmt then .error (.tag x.a)
      else
        let rows := match s.kdesc id.launch with
          | some k => k.tileRows
          | none => 0
        let (e, sc) := tileSlot tile rows scaled
        .ok (start e sc (.tile k))
    | a =>
      let p := (t.reg a).bits.toNat
      if p % 16 != 0 then .error (.fault causeMisaligned x.d.enc)
      else if p + mldsBytes x.fmt > s.scratchBytes id then .error (.fault causeRange x.d.enc)
      else
        let m := match s.course co with
          | some c => c.scratch
          | none => []
        let (e, sc) := scratchSlot m p scaled
        .ok (start e sc (.scratch p))

/-- MLDS waits for the slot's reservations, the scoreboard, its counter, and copies into its source. -/
def mldsHeld (x : MldsOp) : State → ThreadId → Thread → Bool := fun s id t =>
  decide (s.rangeEntries (s.coreOf id) ≥ 32) || countFull .tile s id t ||
    ((s.cluster (s.clusterOf id)).entries.any fun e => courseOf e.th == courseOf id &&
      decide ((t.reg x.d).bits.toNat ∈ e.kind.slotIds)) ||
    (match x.a with
      | .t _ => false
      | a => s.rangeHeld (courseOf id) (t.reg a).bits.toNat (mldsBytes x.fmt) false)

/-- MLDS: its wait comes after its checks (R205). -/
def execMlds (x : MldsOp) (s : State) : Host.Outcome State Fault Refusal :=
  .next (s.runEach x.ctl fun s id t => do
    let s' ← s.mlds id t x
    .ok (if mldsHeld x s id t then none else some s'))

/-- The format of a tag; FP32 where a slot holds tag 0x00. -/
def slotFmt (tag : Tag) : Fmt := (tagFmt tag).getD .f32

/-- Element at an index of a slot, `e` bytes each. -/
def slotElem (m : Memory) (f : Fmt) (e i : Nat) : FloatVal := f.read (leNat (memReadN m (e * i) e))

def FloatVal.special : FloatVal → Bool
  | .fin _ _ _ => false
  | _ => true

/-- Summary bits of a B slot (R205). -/
def summaryOf (tag : Tag) (elems : Memory) : BitVec 128 :=
  let sh := shapeOf tag
  let f := slotFmt tag
  let part := sh.kp / 8
  let hit (kb cb : Nat) : Bool :=
    (List.range part).any fun k => (List.range 8).any fun c =>
      (slotElem elems f sh.bytes (128 * (kb * part + k) + 8 * cb + c)).special
  BitVec.ofNat 128 ((List.range 128).foldl
    (fun n j => n + b2n (hit (j / 16) (j % 16)) * 2 ^ j) 0)

/-- Change a physical slot or bank. -/
def Cluster.modSlot (c : Cluster) (n : Nat) (f : EngineSlot → EngineSlot) : Cluster :=
  if h : n < 32 then { c with slots := c.slots.set n (f c.slots[n]) } else c

def Cluster.modBank (c : Cluster) (n : Nat) (f : Bank → Bank) : Cluster :=
  if h : n < 4 then { c with banks := c.banks.set n (f c.banks[n]) } else c

/-- The slot or bank of a course id; an unclaimed one where there is none. -/
def Cluster.slotOf (c : Cluster) (co : CourseId) (i : Nat) : EngineSlot :=
  match c.physOf co false i with
  | some n => if h : n < 32 then c.slots[n] else EngineSlot.reset
  | none => EngineSlot.reset

def Cluster.bankOf (c : Cluster) (co : CourseId) (i : Nat) : Bank :=
  match c.physOf co true i with
  | some n => if h : n < 4 then c.banks[n] else Bank.reset
  | none => Bank.reset

/-- MLDS_COMPLETE: 40 cycles after acceptance the slot takes its contents (R205). -/
def execMldsComplete (cluster op : Nat) (s : State) : Host.Outcome State Fault Refusal :=
  match s.op op with
  | some o =>
    match o.kind with
    | .mlds n roleB fmt elems scales _ =>
      if s.clusterOf o.th = cluster ∧ o.due ≤ s.cycle then
        let co := courseOf o.th
        let c := s.cluster cluster
        let c := match c.physOf co false n with
          | some p => c.modSlot p fun e =>
              { e with elems := elems, scales := scales, tag := fmt, roleB := roleB,
                       summary := if roleB then summaryOf fmt elems else 0 }
          | none => c
        .next (((s.delOp op).setCluster cluster c).countDown o.th .tile)
      else .next s
    | _ => .next s
  | none => .next s

/-! ## Posting (R206, R207, R213, R214) -/

/-- An entry enters the table. -/
def State.postEntry (s : State) (id : ThreadId) (t : Thread) (d : Opd) (kind : EntryKind) : State :=
  let (n, s) := s.fresh
  let after := (s.opsOf (courseOf id)).filterMap fun p => match p.2.kind with
    | .mlds .. => some p.1
    | _ => none
  let e : EngineEntry :=
    { id := n, th := id, pc := t.pc, field := d.enc, fctl := t.fctl, armed := t.armed, kind := kind,
      prio := BitVec.ofNat 3 (s.effPrio id), stamp := s.gts, slot := t.slot, passedOver := 0,
      write := none, after := after }
  (s.modCluster (s.clusterOf id) fun c => { c with entries := c.entries ++ [e] }).setThread id
    (t.countUp .tile).advance

/-- The reservation table has no free entry, or the tile counter is full. -/
def State.postHeld (s : State) (id : ThreadId) (t : Thread) : Bool :=
  decide ((s.cluster (s.clusterOf id)).entries.length ≥ 32) || countFull .tile s id t

/-- Post for the threads of a gang: every check of a thread, then its wait for a free entry (R207). -/
def State.runPosting (s : State) (c : Ctl) (act : Act) : State :=
  s.runEach c fun s id t => do
    let s' ← act s id t
    .ok (if s.postHeld id t then none else some s')

/-- The zero fields of a parameter block, and its quarter (R206). -/
def blockOk (b : Nat) (fp32 : Bool) : Bool :=
  bits b 383 64 == 0 && bits b 47 16 == 0 && bits b 11 10 == 0 && (fp32 || bits b 15 14 == 0)

/-- The two tags of a pass are compatible (R207). -/
def tagsPair (a b : Tag) : Bool :=
  let b8 (t : Tag) : Bool := tagClass t == 5 || tagClass t == 6
  (b8 a && b8 b) || (a == 0x60 && b == 0x60) || (a == 0x20 && b == 0x20)

/-- MPOST of one thread. -/
def State.mpost (s : State) (id : ThreadId) (t : Thread) (x : MpostOp) : Except Trap State := do
  let d : Opd := match x.bar with | some n => .b n | none => .zero
  let co := courseOf id
  t.need false x.a 0
  match x.bar with
  | some n => if (s.barrier co n).expected == 0 then Except.error (.illegal d.enc) else .ok ()
  | none => .ok ()
  let p := (t.reg x.a).bits.toNat
  if p % 64 != 0 then .error (.fault causeMisaligned d.enc)
  else if p + 64 > s.scratchBytes id then .error (.fault causeRange d.enc)
  else
    let m := match s.course co with
      | some c => c.scratch
      | none => []
    let b := leNat (memReadN m p 64)
    let c := s.cluster (s.clusterOf id)
    let (ia, ib, ic) := (bits b 4 0, bits b 9 5, bits b 13 12)
    if (c.physOf co false ia).isNone || (c.physOf co false ib).isNone ||
        (c.physOf co true ic).isNone then .error (.privilege d.enc)
    else
      let (sa, sb) := (c.slotOf co ia, c.slotOf co ib)
      if sa.roleB || !sb.roleB || sa.tag.toNat != bits b 55 48 || sb.tag.toNat != bits b 63 56 ||
          !tagsPair sa.tag sb.tag then .error (.tag x.a)
      else if !blockOk b (sa.tag == 0x20) then .error (.fault causeBadRecord d.enc)
      else .ok (s.postEntry id t d (.pass (BitVec.ofNat 512 b) x.bar))

/-- MPOST: its block is read as an LDS would read it, which a copy into it holds (R199, R207). -/
def execMpost (x : MpostOp) (s : State) : Host.Outcome State Fault Refusal :=
  if (s.active x.ctl).any fun p => s.rangeHeld (courseOf p.1) (p.2.reg x.a).bits.toNat 64 false then
    .next s.loseTurn
  else .next (s.runPosting x.ctl fun s id t => s.mpost id t x)

/-- MACC of one thread. -/
def State.macc (s : State) (id : ThreadId) (t : Thread) (x : MaccOp) : Except Trap State := do
  t.need false x.a 0
  t.need false x.b 0
  let r0 := (t.reg x.b).bits.toNat
  let b := (t.reg x.a).bits.toNat
  if r0 > 127 || r0 % 8 != 0 then .error (.illegal x.d.enc)
  else if ((s.cluster (s.clusterOf id)).physOf (courseOf id) true b).isNone then
    .error (.privilege x.d.enc)
  else
    let rows := match s.kdesc id.launch with
      | some k => min k.tileRows (128 - r0)
      | none => 0
    match x.d with
    | .t n => .ok (s.postEntry id t x.d (.macc n b r0 rows x.clr))
    | _ => .ok (s.setThread id t.advance)

/-- MACC. -/
def execMacc (x : MaccOp) (s : State) : Host.Outcome State Fault Refusal :=
  .next (s.runPosting x.ctl fun s id t => s.macc id t x)

/-- MZERO. -/
def execMzero (x : BOp) (s : State) : Host.Outcome State Fault Refusal :=
  .next (s.runPosting x.ctl fun s id t => do
    t.needSrc false x.b 0
    let m := t.word x.b
    let c := s.cluster (s.clusterOf id)
    if m ≥ 16 then .error (.illegal 0xFF)
    else if (List.range 4).any fun i => nbit m i && (c.physOf (courseOf id) true i).isNone then
      .error (.privilege 0xFF)
    else .ok (s.postEntry id t .zero (.mzero (BitVec.ofNat 4 m))))

/-! ## Granting (R208, R212) -/

/-- Processed blocks of a pass: those not skipped, and skipped ones that meet a summary bit (R212). -/
def processed (b : Nat) (fp32 : Bool) (summary : BitVec 128) : Nat :=
  let q := bits b 15 14
  let cbs := if fp32 then (List.range 4).map (4 * q + ·) else List.range 16
  ((List.range 128).filter fun j =>
    !nbit b (384 + j) || cbs.any fun cb => summary.getLsbD (j % 8 * 16 + cb)).length

/-- Cycles from the grant to the write cycle, and to the next pass grant (R212). -/
def EngineEntry.cycles (c : Cluster) (e : EngineEntry) : Nat × Nat :=
  match e.kind with
  | .pass b _ =>
    let sb := c.slotOf (courseOf e.th) (bits b.toNat 9 5)
    let n := processed b.toNat (sb.tag == 0x20) sb.summary
    (20 + ceilDiv n 4, max 32 (ceilDiv n 2))
  | .macc _ _ _ rows _ => (8 + ceilDiv rows 4, 0)
  | .mzero _ => (4, 0)

/-- A context whose entries are not granted: it is halting, saved or reset (R216). -/
def State.halted (s : State) (ctx : Nat) : Bool :=
  match s.ctx ctx with
  | some c => c.rung == .halting || c.rung == .saved || c.rung == .reset
  | none => true

/-- A partition is throttled (R325). -/
def State.throttledPart (s : State) (p : Nat) : Bool :=
  match s.part p with
  | some x => x.throttled
  | none => false

/-- An entry that may be granted now: those before it on its banks have completed, in an earlier cycle
(R208), and its context is neither halted nor throttled (R216, R325). -/
def State.eligible (s : State) (cl : Nat) (e : EngineEntry) : Bool :=
  let c := s.cluster cl
  let mine := c.entries.filter fun x => courseOf x.th == courseOf e.th && decide (x.id < e.id)
  e.write.isNone && (mine.all fun x => x.write.isSome) &&
    (e.after.all fun n => (s.op n).isNone) &&
    (match e.kind with | .pass .. => decide (c.passFrom ≤ s.cycle) | _ => true) &&
    (mine.all fun x => x.kind.bankIds.all fun i => i ∉ e.kind.bankIds) &&
    (e.kind.bankIds.all fun i => (c.bankOf (courseOf e.th) i).wrote != some s.cycle) &&
    !s.halted (s.ctxOf e.th) && !s.throttledPart (s.partOf (s.ctxOf e.th))

/-- The order of grants (R208). -/
def State.grantBefore (s : State) (a b : EngineEntry) : Bool :=
  let late (e : EngineEntry) : Nat := b2n (decide (e.passedOver ≥ 1024))
  decide (late b < late a) || (late a == late b &&
    (decide (b.prio < a.prio) || (a.prio == b.prio &&
      (decide (a.stamp < b.stamp) || (a.stamp == b.stamp &&
        (decide (s.coreOf a.th < s.coreOf b.th) || (s.coreOf a.th == s.coreOf b.th &&
          decide (a.slot < b.slot))))))))

/-- The entry that the next grant takes. -/
def State.nextGrant (s : State) (cl : Nat) : Option EngineEntry :=
  if (s.cluster cl).grantFrom ≤ s.cycle then
    leastBy s.grantBefore ((s.cluster cl).entries.filter (s.eligible cl))
  else none

/-- ENGINE_GRANT: at most one entry in a cycle. -/
def execEngineGrant (cluster : Nat) (s : State) : Host.Outcome State Fault Refusal :=
  match s.nextGrant cluster with
  | none => .next s
  | some e =>
    let c := s.cluster cluster
    let (w, gap) := e.cycles c
    let passed := (c.entries.filter (s.eligible cluster)).map (·.id)
    let es := c.entries.map fun x =>
      if x.id == e.id then { x with write := some (s.cycle + w) }
      else if x.id ∈ passed then { x with passedOver := x.passedOver + 1 } else x
    .next (s.setCluster cluster
      { c with entries := es, grantFrom := s.cycle + 1,
               passFrom := if gap == 0 then c.passFrom else s.cycle + gap })

/-! ## A pass (R209 to R211) -/

/-- Flags of a bank from those of an operation: nv, of, uf, nx. -/
def bankFlags (f : BitVec 5) : BitVec 4 := f.extractLsb' 4 1 ++ f.extractLsb' 0 3

/-- Flags of `%fflags` from those of a bank. -/
def flagsOfBank (f : BitVec 4) : BitVec 5 := f.extractLsb' 3 1 ++ (0 : BitVec 1) ++ f.extractLsb' 0 3

/-- One group of one output element: the exact sum, scaled, with its flags (R209, R210). -/
def groupSum (xs ys : List FloatVal) (sa sb : Nat) : FloatVal × BitVec 5 :=
  let ps := (xs.zip ys).map fun p => p.1.mul p.2
  let (s, fl) := sumTerms (ps.map (·.1)) .rne
  let fl := ps.foldl (fun f p => f ||| p.2) fl
  let fl := fl ||| flagIf ((xs ++ ys).any FloatVal.isSnan) fNv
  (if sa == 0xFF || sb == 0xFF then .nan false
    else s.scale ((sa : Int) - 127 + ((sb : Int) - 127)), fl)

/-- Add the groups of an element to its accumulator. -/
def accumulate (acc : Nat) (fl : BitVec 5) : List (FloatVal × BitVec 5) → Nat × BitVec 5
  | [] => (acc, fl)
  | (s, f) :: r =>
    let (g, f1) := Fmt.f32.round .rne 0 s
    let (a, v) := plainRne.addC .f32 acc g
    accumulate a (fl ||| f ||| f1 ||| v.flags) r

/-- Lists of `n` elements each. -/
def chunks {α : Type} (n : Nat) : Nat → List α → List (List α)
  | 0, _ => []
  | k + 1, l => l.take n :: chunks n k (l.drop n)

/-- Apply a pass to its bank. -/
def applyPass (b : Nat) (sa sb : EngineSlot) (bank : Bank) : Bank :=
  let sh := shapeOf sa.tag
  let (fa, fb) := (slotFmt sa.tag, slotFmt sb.tag)
  let groups := sh.kp / sh.group
  let q := bits b 15 14
  let used (n : Nat) : Bool := sa.tag != 0x20 || n / 32 == q
  let rowA (i : Nat) : List (List FloatVal) :=
    chunks sh.group groups ((List.range sh.kp).map fun k =>
      if nbit b (384 + (8 * (i / 8) + 8 * k / sh.kp)) then FloatVal.zero
      else slotElem sa.elems fa sh.bytes (sh.kp * i + k))
  let colB (n : Nat) : List (List FloatVal) :=
    chunks sh.group groups ((List.range sh.kp).map fun k =>
      slotElem sb.elems fb sh.bytes (128 * k + n))
  let scale (e : EngineSlot) (i : Nat) : Nat :=
    if tagClass e.tag == 6 then (memRead e.scales i).toNat else 0x7F
  let cols := (List.range 128).map fun n => (n, if used n then colB n else [])
  let (rows, fl) := (List.range 128).foldl (fun (acc : List (List (Nat × Word)) × BitVec 5) i =>
    let ra := rowA i
    let (ws, fl) := cols.foldl (fun (acc : List (Nat × Word) × BitVec 5) c =>
      let old := ((tget bank.acc (128 * i + c.1)).getD 0).toNat
      let (v, f) := if used c.1 then
          accumulate old acc.2 (((ra.zip c.2).zipIdx).map fun p =>
            groupSum p.1.1 p.1.2 (scale sa (2 * i + p.2)) (scale sb (128 * p.2 + c.1)))
        else (old, acc.2)
      (if v == 0 then acc.1 else (128 * i + c.1, BitVec.ofNat 32 v) :: acc.1, f)) ([], acc.2)
    (ws.reverse :: acc.1, fl)) ([], 0)
  { bank with acc := rows.reverse.flatten, flags := bank.flags ||| bankFlags fl }

/-! ## The write cycle (R212 to R214) -/

/-- MACC's rows of a tile (R213). -/
def maccTile (bank : Bank) (t : Tile) (r0 rows : Nat) : Tile :=
  { tag := 0x20,
    data := (List.range rows).foldl (fun m j => memWriteN m (512 * j)
      ((List.range 128).flatMap fun n =>
        toLE ((tget bank.acc (128 * (r0 + j) + n)).getD 0).toNat 4)) t.data }

/-- The effect of an entry in its write cycle. -/
def State.entryEffect (s : State) (cl : Nat) (e : EngineEntry) : State :=
  let co := courseOf e.th
  let c := s.cluster cl
  match e.kind with
  | .pass b _ =>
    match c.physOf co true (bits b.toNat 13 12) with
    | some n => s.setCluster cl (c.modBank n (applyPass b.toNat (c.slotOf co (bits b.toNat 4 0))
        (c.slotOf co (bits b.toNat 9 5))))
    | none => s
  | .macc t b r0 rows clr =>
    let bank := c.bankOf co b
    let s := match s.tileReg e.th t with
      | some r => s.writeTile e.th t (maccTile bank r.latest r0 rows) true true
      | none => s
    let s := s.modThread e.th fun th =>
      th.raiseLate (flagsOfBank bank.flags) (e.fctl.extractLsb' 0 5) e.pc e.field e.armed e.id
    match c.physOf co true b with
    | some n => s.setCluster cl (c.modBank n fun k =>
        { k with flags := 0,
                 acc := if clr then k.acc.filter fun p =>
                     !(decide (128 * r0 ≤ p.1) && decide (p.1 < 128 * (r0 + rows)))
                   else k.acc })
    | none => s
  | .mzero m =>
    let ns := ((List.range 4).filter fun i => m.getLsbD i).filterMap (c.physOf co true)
    s.setCluster cl (ns.foldl (fun c n => c.modBank n fun k => { k with acc := [], flags := 0 }) c)

/-- ENGINE_ENTRY_WRITE_CYCLE: the entry takes effect and completes. -/
def execEngineEntryWriteCycle (cluster op : Nat) (s : State) : Host.Outcome State Fault Refusal :=
  match (s.cluster cluster).entries.find? fun e => e.id == op with
  | some e =>
    if e.write.any fun w => decide (w ≤ s.cycle) then
      let s := (s.entryEffect cluster e).modCluster cluster fun c =>
        let c := (e.kind.bankIds.filterMap (c.physOf (courseOf e.th) true)).foldl
          (fun c n => c.modBank n fun k => { k with wrote := some s.cycle }) c
        { c with entries := c.entries.filter fun x => x.id != op }
      let s := s.countDown e.th .tile
      .next (match e.kind with
        | .pass _ bar => s.arriveOpt (courseOf e.th) bar
        | _ => s)
    else .next s
  | none => .next s

end Sys2Proof.Machine
end

