-- ==== Sys2Proof/Machine/Trace.lean ====
section
/-! DEFINITION. Trace.lean: the tests of the traversal unit: boxes, triangles, aspheres and normals
(R219 to R233), in arithmetic that rounds each operation as written and keeps subnormals (R245). -/

namespace Sys2Proof.Machine

/-! ## Arithmetic on codes (R146, R230, R245) -/

namespace Arith

def add (f : Fmt) (a b : Nat) : Nat := (plainRne.addC f a b).1
def sub (f : Fmt) (a b : Nat) : Nat := (plainRne.subC f a b).1
def mul (f : Fmt) (a b : Nat) : Nat := (plainRne.mulC f a b).1
def div (f : Fmt) (a b : Nat) : Nat := (plainRne.divC f a b).1
def sqrt (f : Fmt) (a : Nat) : Nat := (plainRne.sqrtC f a).1

/-- c + a × b, rounded once. -/
def fma (f : Fmt) (a b c : Nat) : Nat := (plainRne.fmaC f a b c).1

/-- The code with the other sign; a NaN stays. -/
def neg (f : Fmt) (a : Nat) : Nat :=
  if (f.read a).isNan then f.nan else a ^^^ 2 ^ (f.width - 1)

/-- c − a × b, rounded once. -/
def fnma (f : Fmt) (a b c : Nat) : Nat := fma f (neg f a) b c

def abs (f : Fmt) (a : Nat) : Nat := a % 2 ^ (f.width - 1)

/-- Comparisons: false where a NaN takes part. -/
def lt (f : Fmt) (a b : Nat) : Bool := condOf .lt (f.read a) (f.read b)
def le (f : Fmt) (a b : Nat) : Bool := condOf .le (f.read a) (f.read b)
def isZero (f : Fmt) (a : Nat) : Bool := (f.read a).isZero
def isNan (f : Fmt) (a : Nat) : Bool := (f.read a).isNan
def isFinite (f : Fmt) (a : Nat) : Bool := match f.read a with | .fin _ _ _ => true | _ => false
def isNeg (f : Fmt) (a : Nat) : Bool := lt f a 0
def isPos (f : Fmt) (a : Nat) : Bool := lt f 0 a

/-- The code of a small integer. -/
def ofNat (f : Fmt) (n : Nat) : Nat := f.rne (.fin false n 0)

def one (f : Fmt) : Nat := ofNat f 1
def two (f : Fmt) : Nat := ofNat f 2

/-- Convert between formats, rounding to nearest even. -/
def conv (f g : Fmt) (a : Nat) : Nat := if f = g then a else g.rne (f.read a)

/-- a·b with the convention of R245: the first product rounded, later ones fused. -/
def dot3 (f : Fmt) (a b : Nat × Nat × Nat) : Nat :=
  fma f a.2.2 b.2.2 (fma f a.2.1 b.2.1 (mul f a.1 b.1))

/-- a × b − c × d: the first product rounded, the second fused. -/
def diffProd (f : Fmt) (a b c d : Nat) : Nat := fnma f c d (mul f a b)

/-- The correctly rounded reciprocal square root. -/
def rsqrt (f : Fmt) (a : Nat) : Nat :=
  match f.read a with
  | .nan _ => f.nan
  | .inf n => if n then f.nan else 0
  | .fin n m e =>
    if m == 0 then f.infCode false
    else if n then f.nan
    else
      let m := if e % 2 == 0 then m else 2 * m
      let e := if e % 2 == 0 then e else e - 1
      let r := isqrt (2 ^ 400 / m)
      f.rne (.fin false r (-200 - e / 2)) (r * r * m != 2 ^ 400)

end Arith

/-! ## Records (R219 to R223) -/

/-- A structure header's fields. -/
structure Header where
  nodeBase : Nat
  triBase : Nat
  asphBase : Nat
  userBase : Nat
  nodes : Nat
  tris : Nat
  asphs : Nat
  users : Nat
  ok : Bool

def Header.read (bs : List Byte) : Header :=
  let n := leNat bs
  let h : Header :=
    { nodeBase := bits n 63 0, triBase := bits n 127 64, asphBase := bits n 191 128,
      userBase := bits n 255 192, nodes := bits n 287 256, tris := bits n 319 288,
      asphs := bits n 351 320, users := bits n 383 352, ok := true }
  { h with ok := bits n 511 392 == 0 && bits n 391 384 == 1 && decide (h.users ≤ 2 ^ 26) &&
      decide (h.asphs ≤ 2 ^ 26) && decide (h.tris ≤ 2 ^ 26) && decide (1 ≤ h.nodes) &&
      decide (h.nodes ≤ 2 ^ 26) && h.nodeBase % 64 == 0 && h.triBase % 16 == 0 &&
      h.asphBase % 64 == 0 && h.userBase % 16 == 0 }

/-- Count, base and size of the primitives of a kind; kind 3 is reserved. -/
def Header.kind (h : Header) : Nat → Nat × Nat × Nat
  | 0 => (h.tris, h.triBase, 48)
  | 1 => (h.asphs, h.asphBase, 128)
  | 2 => (h.users, h.userBase, 32)
  | _ => (0, 0, 0)

/-- Address of a primitive's record. -/
def Header.addr (h : Header) (kind j : Nat) : Nat :=
  let (_, base, size) := h.kind kind
  (base + size * j) % 2 ^ 64

/-- The identity of a primitive (R226). -/
def primId (kind j : Nat) : Nat := kind * 2 ^ 30 + j

/-- A box: low and high bounds, FP32. -/
structure Box where
  lo : List Nat
  hi : List Nat

def Box.read (n : Nat) : Box :=
  { lo := [0, 1, 2].map fun i => bits n (32 * i + 31) (32 * i),
    hi := [3, 4, 5].map fun i => bits n (32 * i + 31) (32 * i) }

/-- A node's fields. -/
structure Node where
  box : Box
  /-- The word that R220 gives a leaf. HITQ `.user` writes the record's own word, as R240 says, so no
  instruction reads this one (log entry 80). -/
  user : Nat
  kind : Nat
  pkind : Nat
  mask : Nat
  count : Nat
  first : Nat
  children : List Nat
  zero : Bool

def Node.read (bs : List Byte) : Node :=
  let n := leNat bs
  { box := Box.read n, user := bits n 383 352, kind := bits n 193 192, pkind := bits n 195 194, mask := bits n 207 200,
    count := bits n 215 208, first := bits n 255 224,
    children := [0, 1, 2, 3].map fun i => bits n (255 + 32 * i) (224 + 32 * i),
    zero := bits n 511 384 == 0 && bits n 223 216 == 0 && bits n 199 196 == 0 }

/-- A node that may be visited: no reserved kind, no zero field set, and a leaf's run within its
kind's count (R220). -/
def Node.ok (x : Node) (h : Header) : Bool :=
  x.zero &&
  (match x.kind with
    | 0 => true
    | 1 => x.pkind != 3 && x.count != 0 && decide (x.first + x.count ≤ (h.kind x.pkind).1)
    | _ => false)

/-! ## Rays (R224) -/

/-- The format of a mode. -/
def modeFmt (f64 : Bool) : Fmt := if f64 then .f64 else .f32

/-- A ray in its mode's format, and its word. -/
structure Ray where
  f64 : Bool
  o : List Nat
  d : List Nat
  tmin : Nat
  tmax : Nat
  word : Nat

def Ray.ofList (f64 : Bool) (l : List Nat) : Ray :=
  { f64 := f64, o := l.take 3, d := (l.drop 3).take 3, tmin := l.getD 6 0, tmax := l.getD 7 0,
    word := l.getD 8 0 }

/-- The registers of a ray span as eight codes and the word. -/
def rayValues (f64 : Bool) (span : List Word) : List Nat :=
  if f64 then
    (List.range 8).map (fun i => (span.getD (2 * i) 0).toNat + (span.getD (2 * i + 1) 0).toNat * 2 ^ 32)
      ++ [(span.getD 16 0).toNat]
  else span.map BitVec.toNat

def Ray.fmt (r : Ray) : Fmt := modeFmt r.f64

def Ray.wave (r : Ray) : Nat := bits r.word 23 16
def Ray.mask (r : Ray) : Nat := bits r.word 15 8
def Ray.anyhit (r : Ray) : Bool := nbit r.word 2
def Ray.cullback (r : Ray) : Bool := nbit r.word 1
def Ray.nouser (r : Ray) : Bool := nbit r.word 0

/-- A bad ray (R224). -/
def Ray.bad (r : Ray) : Bool :=
  let f := r.fmt
  (r.o ++ r.d).any (fun c => !Arith.isFinite f c) || Arith.isNan f r.tmin || Arith.isNan f r.tmax ||
    r.d.all (Arith.isZero f) || bits r.word 31 24 != 0 || bits r.word 7 3 != 0

/-- tmin > tmax. -/
def Ray.empty (r : Ray) : Bool := Arith.lt r.fmt r.tmax r.tmin

/-- Origin and direction rounded to FP32. -/
def Ray.o32 (r : Ray) : List Nat := r.o.map (Arith.conv r.fmt .f32)

def Ray.d32 (r : Ray) : List Nat := r.d.map (Arith.conv r.fmt .f32)

/-- Round a code to FP32 in a direction. -/
def toF32 (f : Fmt) (mode : Rnd) (c : Nat) : Nat :=
  if f == .f32 then c else (Fmt.f32.round mode 0 (f.read c)).1

/-! ## Boxes (R227) -/

def f32Inf (neg : Bool) : Nat := Fmt.f32.infCode neg

/-- One slab: its interval, or `none` when it is empty. The roundings move the smaller bound toward
−∞ and the larger toward +∞, so that the interval contains the exact one. -/
def slab (lo hi o d : Nat) : Option (Nat × Nat) :=
  let all := (f32Inf true, f32Inf false)
  let dn : FEnv := ⟨.rdn, false, 0, 0⟩
  let up : FEnv := ⟨.rup, false, 0, 0⟩
  let f := Fmt.f32
  if Arith.isNan f lo || Arith.isNan f hi then some all
  else if Arith.lt f hi lo then none
  else if Arith.isZero f d then (if Arith.le f lo o && Arith.le f o hi then some all else none)
  else
    let (a, b) := if Arith.isNeg f d then
        ((dn.divC f (up.subC f hi o).1 d).1, (up.divC f (dn.subC f lo o).1 d).1)
      else ((dn.divC f (dn.subC f lo o).1 d).1, (up.divC f (up.subC f hi o).1 d).1)
    if Arith.isNan f a || Arith.isNan f b then some all else some (a, b)

/-- The slabs of a box, axis by axis. -/
def Box.slabs (b : Box) (r : Ray) : List (Option (Nat × Nat)) :=
  ((b.lo.zip b.hi).zip (r.o32.zip r.d32)).map fun p => slab p.1.1 p.1.2 p.2.1 p.2.2

/-- tenter of some slabs. -/
def Ray.enters (r : Ray) (ss : List (Nat × Nat)) : Nat :=
  ss.foldl (fun m s => (plainRne.minMaxC .f32 true m s.1).1) (toF32 r.fmt .rdn r.tmin)

/-- tenter and texit of a box, when it is hit; `far` is the bound of texit, FP32. -/
def Box.test (b : Box) (r : Ray) (far : Nat) : Option (Nat × Nat) :=
  match (b.slabs r).mapM fun s => s with
  | none => none
  | some ss =>
    let t0 := r.enters ss
    let t1 := ss.foldl (fun m s => (plainRne.minMaxC .f32 false m s.2).1) far
    if Arith.le .f32 t0 t1 then some (t0, t1) else none

/-- texit's bound: the best t, or tmax, rounded up. -/
def Ray.far (r : Ray) (best : Option BestHit) : Nat :=
  toF32 r.fmt .rup (match best with | some b => b.t | none => r.tmax)

/-! ## Triangles (R230, R231) -/

/-- Codes of one test's hit in the ray's format. -/
structure Hit where
  t : Nat
  u : Nat
  w : Nat

/-- How a primitive test ends: a hit, a miss with why bits, or a bad record. -/
inductive Tested where
  | hit (h : Hit)
  | miss (why : BitVec 4)
  | badRecord

/-- The edge from P to Q is top-left (R231). -/
def topLeft (neg : Bool) (p q : Nat × Nat × Nat) : Bool :=
  let f := Fmt.f32
  let ex := ((f.read q.1).add (f.read p.1).negate .rne).1
  let ey := ((f.read q.2.1).add (f.read p.2.1).negate .rne).1
  let ex := if neg then ex.negate else ex
  let ey := if neg then ey.negate else ey
  condOf .gt ey .zero || (ey.isZero && condOf .lt ex .zero)

/-- The triangle test. -/
def triangle (r : Ray) (n : Nat) : Tested :=
  let f := Fmt.f32
  if bits n 383 323 != 0 then .badRecord
  else
    let (o, d) := (r.o32, r.d32)
    let at3 (l : List Nat) (i : Nat) : Nat := l.getD i 0
    let vert (k : Nat) : List Nat := [0, 1, 2].map fun i => bits n (96 * k + 32 * i + 31) (96 * k + 32 * i)
    let mag (i : Nat) : Nat := Arith.abs f (at3 d i)
    let kz := if Arith.lt f (mag 0) (mag 1) then (if Arith.lt f (mag 1) (mag 2) then 2 else 1)
      else if Arith.lt f (mag 0) (mag 2) then 2 else 0
    let kx := (kz + 1) % 3
    let ky := (kx + 1) % 3
    let (kx, ky) := if Arith.isNeg f (at3 d kz) then (ky, kx) else (kx, ky)
    let sx := Arith.div f (at3 d kx) (at3 d kz)
    let sy := Arith.div f (at3 d ky) (at3 d kz)
    let sz := Arith.div f (Arith.one f) (at3 d kz)
    let shear (v : List Nat) : Nat × Nat × Nat :=
      let e (k : Nat) : Nat := Arith.sub f (at3 v k) (at3 o k)
      (Arith.fnma f sx (e kz) (e kx), Arith.fnma f sy (e kz) (e ky), Arith.mul f sz (e kz))
    let a := shear (vert 0)
    let b := shear (vert 1)
    let c := shear (vert 2)
    let edge (g : Fmt) (p q : Nat × Nat × Nat) : Nat :=
      Arith.sub g (Arith.mul g (Arith.conv f g p.1) (Arith.conv f g q.2.1))
        (Arith.mul g (Arith.conv f g p.2.1) (Arith.conv f g q.1))
    let some0 := Arith.isZero f (edge f c b) || Arith.isZero f (edge f a c) ||
      Arith.isZero f (edge f b a)
    let g : Fmt := if some0 then .f64 else .f32
    let (u, v, w) := (edge g c b, edge g a c, edge g b a)
    let negs := [u, v, w].any (Arith.isNeg g)
    let poss := [u, v, w].any (Arith.isPos g)
    let det := Arith.add g (Arith.add g u v) w
    if negs && poss then .miss 0
    else if Arith.isZero g det || (r.cullback && Arith.isNeg g det) then .miss 0
    else
      let zs := [u, v, w].map (Arith.isZero g)
      let bound := [nbit n 322, nbit n 321, nbit n 320]
      let out (c : Nat) : Nat := Arith.conv .f32 r.fmt (Arith.conv g .f32 c)
      let widen (c : Nat) : Nat := Arith.conv .f32 r.fmt c
      let zb := (zs.zip bound).any fun p => p.1 && p.2
      let full : Tested :=
        let z (p : Nat × Nat × Nat) : Nat := Arith.conv f g p.2.2
        let t := Arith.fma g w (z c) (Arith.fma g v (z b) (Arith.mul g u (z a)))
        .hit ⟨out (Arith.div g t det), out (Arith.div g v det), out (Arith.div g w det)⟩
      match zs with
      | [true, true, _] => if zb then .miss 0 else .hit ⟨widen c.2.2, 0, widen (Arith.one f)⟩
      | [_, true, true] => if zb then .miss 0 else .hit ⟨widen a.2.2, 0, 0⟩
      | [true, _, true] => if zb then .miss 0 else .hit ⟨widen b.2.2, widen (Arith.one f), 0⟩
      | [true, false, false] =>
        if !zb && topLeft (Arith.isNeg g det) b c then full else .miss 0
      | [false, true, false] =>
        if !zb && topLeft (Arith.isNeg g det) c a then full else .miss 0
      | [false, false, true] =>
        if !zb && topLeft (Arith.isNeg g det) a b then full else .miss 0
      | _ => full

/-! ## Aspheres (R222, R232, R233) -/

/-- World components of a local point, by axis code. -/
def axisMap (axis : Nat) (p : Nat × Nat × Nat) : Nat × Nat × Nat :=
  let m (c : Nat) : Nat := Arith.neg .f64 c
  let (x, y, z) := p
  match axis with
  | 0 => (x, y, z)
  | 1 => (y, x, m z)
  | 2 => (z, x, y)
  | 3 => (m z, y, x)
  | 4 => (y, z, x)
  | _ => (x, m z, y)

/-- Local components of a world vector. -/
def axisInv (axis : Nat) (p : Nat × Nat × Nat) : Nat × Nat × Nat :=
  let m (c : Nat) : Nat := Arith.neg .f64 c
  let (x, y, z) := p
  match axis with
  | 0 => (x, y, z)
  | 1 => (y, x, m z)
  | 2 => (y, z, x)
  | 3 => (z, y, m x)
  | 4 => (z, x, y)
  | _ => (x, z, m y)

/-- An asphere record's fields; `coef` runs from A4 to A20. -/
structure Asphere where
  axis : Nat
  origin : Nat × Nat × Nat
  aper : Nat
  coef : List Nat
  k : Nat
  c : Nat
  ok : Bool

def Asphere.read (n : Nat) : Asphere :=
  let word (i : Nat) : Nat := bits n (64 * i + 63) (64 * i)
  let aper := word 11
  { axis := bits n 962 960, origin := (word 12, word 13, word 14), aper := aper,
    coef := (List.range 9).map fun i => word (2 + i), k := word 1, c := word 0,
    ok := bits n 991 963 == 0 && decide (bits n 962 960 ≤ 5) && Arith.isPos .f64 aper &&
      Arith.isFinite .f64 aper }

/-- Horner over coefficients, the highest first. -/
def horner (cs : List Nat) (x : Nat) : Nat :=
  match cs with
  | [] => 0
  | c :: r => r.foldl (fun p a => Arith.fma .f64 p x a) c

/-- sag(r2): sg and ms, or `none` when g < 0. -/
def Asphere.sag (a : Asphere) (r2 : Nat) : Option (Nat × Nat) :=
  let f := Fmt.f64
  let kappa := Arith.add f (Arith.one f) a.k
  let s := Arith.mul f a.c r2
  let g := Arith.fnma f (Arith.mul f kappa a.c) s (Arith.one f)
  if Arith.isNeg f g then none
  else
    let q := Arith.sqrt f g
    let poly := horner a.coef.reverse r2
    let dp := horner (a.coef.zipIdx.reverse.map fun p => Arith.mul f (Arith.ofNat f (p.2 + 2)) p.1) r2
    let sg := Arith.fma f (Arith.mul f poly r2) r2 (Arith.div f s (Arith.add f (Arith.one f) q))
    let ms := Arith.fma f dp r2 (Arith.div f a.c (Arith.mul f (Arith.two f) q))
    some (sg, ms)

/-- Newton's steps from an estimate (R232): the t that meets the stopping rule, or why not. -/
def Asphere.newton (a : Asphere) (p d : Nat × Nat × Nat) : Nat → Nat → Except (BitVec 4) Nat
  | 0, _ => .error 1
  | n + 1, t =>
    let f := Fmt.f64
    let x := Arith.fma f t d.1 p.1
    let y := Arith.fma f t d.2.1 p.2.1
    let z := Arith.fma f t d.2.2 p.2.2
    let r2 := Arith.fma f y y (Arith.mul f x x)
    match a.sag r2 with
    | none => .error 4
    | some (sg, ms) =>
      let fv := Arith.sub f z sg
      let fp := Arith.fnma f (Arith.mul f (Arith.two f) ms)
        (Arith.fma f y d.2.1 (Arith.mul f x d.1)) d.2.2
      if Arith.isZero f fp || !Arith.isFinite f fp then .error 1
      else
        let dt := Arith.div f fv fp
        let t := Arith.sub f t dt
        let lim := Arith.mul f (f.rne (.fin false 1 (-40))) (Arith.abs f t)
        if Arith.le f (Arith.abs f dt) lim then .ok t else a.newton p d n t

/-- The starting estimate: the conic's least root, or where the ray meets the vertex plane. -/
def Asphere.start (a : Asphere) (p d : Nat × Nat × Nat) (tmin : Nat) : Option Nat :=
  let f := Fmt.f64
  let kappa := Arith.add f (Arith.one f) a.k
  let form (x y : Nat × Nat × Nat) : Nat :=
    Arith.fma f kappa (Arith.mul f x.2.2 y.2.2) (Arith.fma f x.2.1 y.2.1 (Arith.mul f x.1 y.1))
  let qa := Arith.mul f a.c (form d d)
  let qb := Arith.mul f (Arith.two f) (Arith.fma f a.c (form p d) (Arith.neg f d.2.2))
  let qc := Arith.fnma f (Arith.two f) p.2.2 (Arith.mul f a.c (form p p))
  let roots : List Nat :=
    if Arith.isZero f qa then
      (if Arith.isZero f qb then [] else [Arith.div f (Arith.neg f qc) qb])
    else
      let disc := Arith.fnma f (Arith.mul f (Arith.ofNat f 4) qa) qc (Arith.mul f qb qb)
      if Arith.isNeg f disc then []
      else
        let q := Arith.sqrt f disc
        let sum := Arith.add f qb (if Arith.isNeg f qb then Arith.neg f q else q)
        let h := Arith.div f (Arith.neg f sum) (Arith.two f)
        [Arith.div f h qa, Arith.div f qc h]
  let good := roots.filter fun t => Arith.le f tmin t &&
    Arith.le f (Arith.mul f (Arith.mul f a.c kappa) (Arith.fma f t d.2.2 p.2.2)) (Arith.one f)
  match leastBy (Arith.lt f) good with
  | some t => some t
  | none =>
    if Arith.isZero f d.2.2 then none else some (Arith.div f (Arith.neg f p.2.2) d.2.2)

/-- The asphere test. -/
def asphere (r : Ray) (n : Nat) : Tested :=
  let f := Fmt.f64
  let a := Asphere.read n
  if !a.ok then .badRecord
  else
    let wide (c : Nat) : Nat := Arith.conv r.fmt f c
    let (o, d) := (r.o.map wide, r.d.map wide)
    let at3 (l : List Nat) (i : Nat) : Nat := l.getD i 0
    let p := axisInv a.axis (Arith.sub f (at3 o 0) a.origin.1, Arith.sub f (at3 o 1) a.origin.2.1,
      Arith.sub f (at3 o 2) a.origin.2.2)
    let d := axisInv a.axis (at3 d 0, at3 d 1, at3 d 2)
    match a.start p d (wide r.tmin) with
    | none => .miss 8
    | some t0 =>
      match a.newton p d 8 t0 with
      | .error w => .miss w
      | .ok t =>
        let x := Arith.fma f t d.1 p.1
        let y := Arith.fma f t d.2.1 p.2.1
        let r2 := Arith.fma f y y (Arith.mul f x x)
        if Arith.lt f (Arith.mul f a.aper a.aper) r2 then .miss 2
        else if Arith.lt f t (wide r.tmin) || Arith.lt f (wide r.tmax) t then .miss 0
        else
          let out (c : Nat) : Nat := Arith.conv f r.fmt c
          .hit ⟨out t, out x, out y⟩

/-! ## Points and normals (R240) -/

/-- The unit vector, by a correctly rounded reciprocal square root. -/
def unitVec (f : Fmt) (n : Nat × Nat × Nat) : Nat × Nat × Nat :=
  let k := Arith.rsqrt f (Arith.dot3 f n n)
  (Arith.mul f n.1 k, Arith.mul f n.2.1 k, Arith.mul f n.2.2 k)

/-- Vertices of a triangle record in a format. -/
def triVertex (f : Fmt) (n k : Nat) : Nat × Nat × Nat :=
  let c (i : Nat) : Nat := Arith.conv .f32 f (bits n (96 * k + 32 * i + 31) (96 * k + 32 * i))
  (c 0, c 1, c 2)

/-- HITQ .pos. -/
def hitPos (f64 : Bool) (kind n u w : Nat) : Nat × Nat × Nat :=
  let f := modeFmt f64
  if kind == 0 then
    let (a, b, c) := (triVertex f n 0, triVertex f n 1, triVertex f n 2)
    let comp (x y z : Nat) : Nat :=
      Arith.fma f w (Arith.sub f z x) (Arith.fma f u (Arith.sub f y x) x)
    (comp a.1 b.1 c.1, comp a.2.1 b.2.1 c.2.1, comp a.2.2 b.2.2 c.2.2)
  else
    let a := Asphere.read n
    let g := Fmt.f64
    let (u, w) := (Arith.conv f g u, Arith.conv f g w)
    let z := match a.sag (Arith.fma g w w (Arith.mul g u u)) with
      | some (sg, _) => sg
      | none => g.nan
    let p := axisMap a.axis (u, w, z)
    let out (o c : Nat) : Nat := Arith.conv g f (Arith.add g o c)
    (out a.origin.1 p.1, out a.origin.2.1 p.2.1, out a.origin.2.2 p.2.2)

/-- HITQ .nrm. -/
def hitNrm (f64 : Bool) (kind n u w : Nat) : Nat × Nat × Nat :=
  let f := modeFmt f64
  if kind == 0 then
    let (a, b, c) := (triVertex f n 0, triVertex f n 1, triVertex f n 2)
    let s (p : Nat × Nat × Nat) : Nat × Nat × Nat :=
      (Arith.sub f p.1 a.1, Arith.sub f p.2.1 a.2.1, Arith.sub f p.2.2 a.2.2)
    let (x, y) := (s b, s c)
    unitVec f (Arith.diffProd f x.2.1 y.2.2 x.2.2 y.2.1, Arith.diffProd f x.2.2 y.1 x.1 y.2.2,
      Arith.diffProd f x.1 y.2.1 x.2.1 y.1)
  else
    let a := Asphere.read n
    let g := Fmt.f64
    let (u, w) := (Arith.conv f g u, Arith.conv f g w)
    let ms := match a.sag (Arith.fma g w w (Arith.mul g u u)) with
      | some (_, ms) => ms
      | none => g.nan
    let m2 := Arith.neg g (Arith.two g)
    let v := axisMap a.axis (unitVec g (Arith.mul g (Arith.mul g m2 u) ms,
      Arith.mul g (Arith.mul g m2 w) ms, Arith.one g))
    (Arith.conv g f v.1, Arith.conv g f v.2.1, Arith.conv g f v.2.2)

end Sys2Proof.Machine
end

