-- ==== Sys2Proof/Machine/Traverse.lean ====
section
/-! DEFINITION. Traverse.lean: the walk, its work area and log, and the meanings of group 0xC (R226,
R228, R234 to R241). -/

namespace Sys2Proof.Machine

/-! ## Reads of the unit (R228) -/

/-- What stops a walk: a translation fault, or an error of R225. -/
inductive Stop where
  | fault (hv : Bool) (cause va : Nat)
  | err (why : Nat)

/-- Bytes read as a load of the thread, in pieces of 16 bytes that no line or page divides. -/
def State.unitRead (s : State) (id : ThreadId) (acq va : Nat) :
    Nat → Except Stop (List Byte × State)
  | 0 => .ok ([], s)
  | n + 1 =>
    match s.translate (s.coreOf id) (s.ctxOf id) (BitVec.ofNat 64 va) .read with
    | (.error (hv, c), _) => if c == 3 then .error (.err 3) else .error (.fault hv c va)
    | (.ok (pa, key), s) =>
      match s.loadGlobal id acq pa key 16 0 s.free with
      | (none, _) => .error (.err 3)
      | (some bs, s) => do
        let (r, s) ← (s.readsDone (s.coreOf id)).unitRead id acq ((va + 16) % 2 ^ 64) n
        .ok (bs ++ r, s)

/-- What stops a part of a walk, with the walk and the state as it leaves them. -/
abbrev Halt := Stop × Walk × State

/-- A record read for a walk. One that was read before a fault stopped the walk is not read again
(R229). -/
def State.walkRead (s : State) (id : ThreadId) (acq : Nat) (w : Walk) (va n : Nat) :
    Except Halt (List Byte × Walk × State) :=
  match tget w.reading va with
  | some bs => .ok (bs, w, s)
  | none =>
    match s.unitRead id acq va n with
    | .ok (bs, s) => .ok (bs, { w with reading := tput w.reading va bs }, s)
    | .error e => .error (e, w, s)

/-! ## Logging (R236) -/

/-- Note an event of a logged walk: entries 0 to 254, then overflow. -/
def Walk.event (w : Walk) (e : Word) : Walk :=
  if !w.log then w
  else if w.count < 255 then
    { w with count := w.count + 1, pending := w.pending ++ [(w.count, e)] }
  else { w with ovf := true }

def nodeEntry (hits n : Nat) : Word := BitVec.ofNat 32 (hits * 2 ^ 26 + n)

def primEntry (outcome kind j : Nat) : Word :=
  BitVec.ofNat 32 (2 ^ 30 + outcome * 2 ^ 28 + kind * 2 ^ 26 + j)

/-! ## Primitive tests (R226) -/

def Walk.theRay (w : Walk) : Ray := Ray.ofList w.f64 w.ray

def Walk.header (w : Walk) : Header := Header.read w.hdr

/-- (t, identity) of a hit is below the best's. -/
def Walk.closer (w : Walk) (t id : Nat) : Bool :=
  match w.best with
  | none => true
  | some b =>
    let f := modeFmt w.f64
    Arith.lt f t b.t || (Arith.le f t b.t && decide (id < b.id))

/-- A hit's t lies between tmin and tmax. -/
def Walk.valid (w : Walk) (t : Nat) : Bool :=
  let r := w.theRay
  Arith.le r.fmt r.tmin t && Arith.le r.fmt t r.tmax

/-- Stop where the first valid test ends an anyhit walk. -/
def Walk.stopAny (w : Walk) : Walk :=
  if w.theRay.anyhit then { w with stack := [], leaf := none, replay := [] } else w

/-- A valid test takes part in the closest-hit rule; `invalid` is the outcome logged otherwise. -/
def Walk.offer (w : Walk) (kind j : Nat) (h : Option Hit) (invalid : Nat) : Walk :=
  match h with
  | none => w.event (primEntry invalid kind j)
  | some h =>
    if !w.valid h.t then w.event (primEntry invalid kind j)
    else if w.closer h.t (primId kind j) then
      ({ w with best := some ⟨h.t, h.u, h.w, primId kind j, primEntry 1 kind j⟩ }.event
        (primEntry 1 kind j)).stopAny
    else (w.event (primEntry 2 kind j)).stopAny

/-- Test a triangle or an asphere. -/
def State.testPrim (s : State) (id : ThreadId) (acq : Nat) (w : Walk) (kind j : Nat) :
    Except Halt (Walk × State) := do
  let h := w.header
  let (bs, w, s) ← s.walkRead id acq w (h.addr kind j) ((h.kind kind).2.2 / 16)
  let r := w.theRay
  match if kind == 0 then triangle r (leNat bs) else asphere r (leNat bs) with
  | .badRecord => .error (.err 2, w, s)
  | .miss why => .ok ({ w with why := w.why ||| why }.offer kind j none 0, s)
  | .hit x => .ok (w.offer kind j (some x) 0, s)

/-! ## The walk (R226) -/

/-- How far a walk has gone. -/
inductive Reached where
  | finished
  | candidate (tenter : Nat)
  | failed (why : Nat)

/-- Test one child: its entry for the stack when mask and box pass. -/
def State.testChild (s : State) (id : ThreadId) (acq : Nat) (w : Walk) (c : Nat) :
    Except Halt (Option Nat × Walk × State) := do
  let h := w.header
  if c == 0xFFFFFFFF then .ok (none, w, s)
  else if c == 0 || c ≥ h.nodes then .error (.err 2, w, s)
  else
    let (bs, w, s) ← s.walkRead id acq w ((h.nodeBase + 64 * c) % 2 ^ 64) 4
    let n := Node.read bs
    let r := w.theRay
    if n.mask &&& r.mask == 0 then .ok (none, w, s)
    else .ok ((n.box.test r (r.far w.best)).map (·.1), w, s)

/-- Test the children of an inner node, slot by slot: (slot, child, tenter) of those hit. -/
def State.testChildren (s : State) (id : ThreadId) (acq : Nat) (w : Walk) :
    List (Nat × Nat) → Except Halt (List (Nat × Nat × Nat) × Walk × State)
  | [] => .ok ([], w, s)
  | (c, i) :: r => do
    let (t, w, s) ← s.testChild id acq w c
    let (l, w, s) ← s.testChildren id acq w r
    .ok (match t with | some t => (i, c, t) :: l | none => l, w, s)

/-- The stack after the hit children are pushed: the nearest, on equal tenter the lowest slot, on
top. -/
def pushOrder (hits : List (Nat × Nat × Nat)) : List (Nat × Nat) :=
  (sortBy (fun a b => Arith.lt .f32 a.2.2 b.2.2 ||
    (Arith.le .f32 a.2.2 b.2.2 && decide (a.1 < b.1))) hits).map fun p => p.2

/-- Visit a node that was popped. Its log entry comes before the push that may overflow (R226). -/
def State.visit (s : State) (id : ThreadId) (acq : Nat) (w : Walk) (n : Nat) :
    Except Halt (Walk × State) := do
  let h := w.header
  let (bs, w, s) ← s.walkRead id acq w ((h.nodeBase + 64 * n) % 2 ^ 64) 4
  let x := Node.read bs
  if !x.ok h then .error (.err 2, w, s)
  else if x.kind == 1 then
    .ok ({ w with leaf := some (x.pkind, x.first, x.first + x.count), nodesDone := n :: w.nodesDone }, s)
  else
    let (hits, w, s) ← s.testChildren id acq w x.children.zipIdx
    let w : Walk := { w with nodesDone := n :: w.nodesDone }
    let w := w.event (nodeEntry (hits.foldl (fun m p => m + 2 ^ p.1) 0) n)
    let stack := pushOrder hits ++ w.stack
    if stack.length > 64 then .error (.err 1, w, s) else .ok ({ w with stack := stack }, s)

/-- A user primitive that a leaf run meets (R234). -/
def State.meetUser (s : State) (id : ThreadId) (acq : Nat) (w : Walk) (j : Nat) :
    Except Halt (Option Nat × Walk × State) := do
  let r := w.theRay
  if !w.area || r.nouser then .ok (none, { w with uskip := w.uskip || !w.area }, s)
  else
    let (bs, w, s) ← s.walkRead id acq w (w.header.addr 2 j) 2
    let n := leNat bs
    if bits n 255 224 != 0 then .error (.err 2, w, s)
    else
      match (Box.read n).test r (r.far w.best) with
      | none => .ok (none, w.event (primEntry 0 2 j), s)
      | some (t, _) => .ok (some t, { w with cand := j }, s)

/-- A part of a walk has stopped: an error of R225 ends the walk; a fault leaves it where it stood before
that part, with the records read for it. -/
def walkStopped (w : Walk) : Halt → Except Halt (Reached × Walk × State)
  | (.err why, w', s) => .ok (.failed why, { w' with failed := some why }, s)
  | (e, w', s) => .error (e, { w with reading := w'.reading }, s)

/-- The records of a node or primitive that is done are let go. -/
def Walk.done (w : Walk) : Walk := { w with reading := [] }

/-- Pass on from a primitive of a leaf run, which is not tested again. -/
def Walk.pass (w : Walk) (kind j e : Nat) : Walk :=
  { w with leaf := some (kind, j + 1, e), primsDone := primId kind j :: w.primsDone, reading := [] }

/-- The walk, node by node and primitive by primitive; each node and primitive once (R229). At a candidate
it stands at the primitive. -/
def State.walkOn (s : State) (id : ThreadId) (acq : Nat) (w : Walk) :
    Nat → Except Halt (Reached × Walk × State)
  | 0 => .ok (.finished, w, s)
  | n + 1 =>
    match w.leaf with
    | some (kind, j, e) =>
      if j ≥ e then s.walkOn id acq { w with leaf := none } n
      else if primId kind j ∈ w.primsDone then s.walkOn id acq (w.pass kind j e) n
      else if kind == 2 then
        match s.meetUser id acq w j with
        | .error h => walkStopped w h
        | .ok (some t, w', s) => .ok (.candidate t, w', s)
        | .ok (none, w', s) => s.walkOn id acq (w'.pass kind j e) n
      else
        match s.testPrim id acq w kind j with
        | .error h => walkStopped w h
        | .ok (w', s) => s.walkOn id acq (match w'.leaf with
          | some _ => w'.pass kind j e
          | none => w'.done) n
    | none =>
      match w.stack with
      | [] => .ok (.finished, w, s)
      | (x, te) :: rest =>
        let w' := { w with stack := rest }
        let far := match w.best with
          | some b => condOf .gt (Fmt.f32.read te) ((modeFmt w.f64).read b.t)
          | none => false
        if far || x ∈ w.nodesDone then s.walkOn id acq w' n
        else
          match s.visit id acq w' x with
          | .error h => walkStopped w h
          | .ok (w', s) => s.walkOn id acq w'.done n

/-- tenter of a user primitive that a replay meets; no box is tested, so an axis that the ray misses gives
no bound (R237, log entry 80). -/
def State.replayUser (s : State) (id : ThreadId) (acq : Nat) (w : Walk) (j : Nat) :
    Except Halt (Nat × Walk × State) := do
  let (bs, w, s) ← s.walkRead id acq w (w.header.addr 2 j) 2
  let n := leNat bs
  if bits n 255 224 != 0 then .error (.err 2, w, s)
  else .ok (w.theRay.enters (((Box.read n).slabs w.theRay).filterMap fun x => x), { w with cand := j }, s)

/-- The tests of a replayed log, in order (R237). At a candidate the log still begins with its entry. -/
def State.replayOn (s : State) (id : ThreadId) (acq : Nat) (w : Walk) :
    List Word → Except Halt (Reached × Walk × State)
  | [] => .ok (.finished, { w with replay := [] }, s)
  | e :: rest =>
    let n := e.toNat
    let (kind, j, outcome) := (bits n 27 26, bits n 25 0, bits n 29 28)
    let w := { w with replay := e :: rest }
    if bits n 31 30 == 0 then s.replayOn id acq w rest
    else if bits n 31 30 != 1 || kind == 3 || j ≥ (w.header.kind kind).1 then
      .ok (.failed 2, { w with failed := some 2 }, s)
    else if kind == 2 then
      if outcome == 1 || outcome == 2 then
        match s.replayUser id acq w j with
        | .error h => walkStopped w h
        | .ok (t, w, s) => .ok (.candidate t, w, s)
      else s.replayOn id acq w rest
    else
      match s.testPrim id acq w kind j with
      | .error h => walkStopped w h
      | .ok (w', s) =>
        if w'.theRay.anyhit && w'.best.isSome then .ok (.finished, { w'.done with replay := [] }, s)
        else s.replayOn id acq w'.done rest

/-- The walk goes on behind its candidate. -/
def Walk.afterCand (w : Walk) : Walk :=
  match w.leaf with
  | some (kind, j, e) => w.pass kind j e
  | none => { w with replay := w.replay.drop 1, reading := [] }

/-! ## Results (R225) -/

def hitWrites (f64 : Bool) (d : Opd) (t u w : Nat) (prim status : Word) : List (Nat × VReg) :=
  match d with
  | .v n =>
    if f64 then
      ([t, u, w].zipIdx.flatMap fun p =>
        [(n.val + 2 * p.2, (⟨BitVec.ofNat 32 p.1, 0x40⟩ : VReg)),
         (n.val + 2 * p.2 + 1, ⟨BitVec.ofNat 32 (p.1 / 2 ^ 32), 0x40⟩)]) ++
      [(n.val + 6, ⟨prim, 0⟩), (n.val + 7, ⟨status, 0⟩)]
    else
      ([t, u, w].zipIdx.map fun p => (n.val + p.2, (⟨BitVec.ofNat 32 p.1, 0x20⟩ : VReg))) ++
      [(n.val + 3, ⟨prim, 0⟩), (n.val + 4, ⟨status, 0⟩)]
  | _ => []

def statusWord (result why wave : Nat) (uskip ovf : Bool) (count : Nat) : Word :=
  BitVec.ofNat 32 (result * 2 ^ 28 + why * 2 ^ 24 + wave * 2 ^ 16 + b2n uskip * 2 ^ 10 +
    b2n ovf * 2 ^ 9 + count)

/-- The hit span of a miss or an error. -/
def missWrites (f64 : Bool) (d : Opd) (status : Word) : List (Nat × VReg) :=
  hitWrites f64 d ((modeFmt f64).infCode false) 0 0 0xFFFFFFFF status

def Walk.status (w : Walk) (result why : Nat) : Word :=
  statusWord result why w.theRay.wave w.uskip w.ovf w.count

/-- The hit span of a finished walk. -/
def Walk.finish (w : Walk) (d : Opd) : List (Nat × VReg) :=
  match w.best with
  | none => missWrites w.f64 d (w.status 0 w.why.toNat)
  | some b => hitWrites w.f64 d b.t b.u b.w (BitVec.ofNat 32 b.id)
      (w.status (b.id / 2 ^ 30 + 1) w.why.toNat)

/-- The hit span of a candidate. -/
def Walk.offered (w : Walk) (d : Opd) (tenter : Nat) : List (Nat × VReg) :=
  hitWrites w.f64 d (Arith.conv .f32 (modeFmt w.f64) tenter) 0 0 (BitVec.ofNat 32 (primId 2 w.cand))
    (w.status 4 w.why.toNat)

/-! ## The work area (R235, R236) -/

/-- Translate the pieces of some writes: address, physical address, key slot and bytes. -/
def State.areaTargets (s : State) (id : ThreadId) :
    List (Nat × List Byte) → Except Stop (List (Nat × Nat × Nat × List Byte) × State)
  | [] => .ok ([], s)
  | (va, bs) :: r =>
    match s.translate (s.coreOf id) (s.ctxOf id) (BitVec.ofNat 64 va) .write with
    | (.error (hv, c), _) => .error (.fault hv (c + 16) va)
    | (.ok (pa, key), s) => do
      let (l, s) ← s.areaTargets id r
      .ok ((va, pa, key, bs) :: l, s)

/-- Stage bytes at offsets of a work area as colour-0 stores of the thread, all or none. -/
def State.areaWrites (s : State) (id : ThreadId) (pc : Word) (area : DWord)
    (ws : List (Nat × List Byte)) : Except Stop State := do
  let (ts, s) ← s.areaTargets id
    (ws.flatMap fun p => cutPages (area + BitVec.ofNat 64 p.1).toNat p.2)
  .ok (ts.foldl (fun s p =>
    s.stage (storeWords id pc 0 (BitVec.ofNat 64 p.1) p.2.1 p.2.2.1 p.2.2.2 0 s.cycle) (courseOf id)) s)

/-- Log entries that are still to be written, and the header when the walk has ended. -/
def Walk.logWrites (w : Walk) (ended : Bool) : List (Nat × List Byte) :=
  (w.pending.map fun p => (0x300 + 4 * p.1, toLE p.2.toNat 4)) ++
  (if w.log && ended then [(0x2FC, toLE (b2n w.ovf * 2 ^ 9 + w.count) 4)] else [])

/-- At the end of a logged walk that overflowed, entry 255 records the best's test (R236). -/
def Walk.lastEntry (w : Walk) : Walk :=
  match w.best with
  | some b => if w.log && w.ovf then
      { w with count := 256, pending := w.pending ++ [(255, b.entry)] } else w
  | none => w

/-- Undefined bytes of a work area. -/
def freeBytes (free n : Nat) : List Byte := (List.range n).map (Config.workAreaByte free)

/-- What a completed step of a walk does: its register writes and the state with its stores. -/
structure Completion where
  writes : List (Nat × VReg)
  s : State

/-- The end of a walk with an error. -/
def State.failWalk (s : State) (id : ThreadId) (pc : Word) (area : DWord) (d : Opd) (w : Walk)
    (why : Nat) : Except Stop Completion := do
  let w := w.lastEntry
  let s ← s.areaWrites id pc area (w.logWrites true)
  .ok ⟨missWrites w.f64 d (w.status 15 why), s⟩

/-- Finish, suspend or fail (R234). `phys` is the work area's physical address. -/
def State.concludeWalk (s : State) (id : ThreadId) (pc : Word) (area : DWord) (phys : Nat) (d : Opd)
    (r : Reached) (w : Walk) : Except Stop Completion :=
  match r with
  | .failed why => s.failWalk id pc area d w why
  | .finished => do
    let w := w.lastEntry
    let s ← s.areaWrites id pc area (w.logWrites true)
    .ok ⟨w.finish d, s⟩
  | .candidate t => do
    let image := freeBytes s.free 764
    let s := { s with free := s.free + 1 }
    let s ← s.areaWrites id pc area ((0, image) :: w.logWrites false)
    let e : Suspension := { ctx := s.ctxOf id, phys := phys, image := image,
                            walk := { w with pending := [] } }
    .ok ⟨w.offered d t, { s with suspended :=
      e :: (s.suspended.filter fun x => !(x.ctx == e.ctx && x.phys == phys)) }⟩

/-- What stops an operation: the fault or error, the walk's progress, and the state. -/
abbrev UnitHalt := Stop × Option Walk × State

/-- A part of an operation, made from a state: where it stops, the walk has come so far. -/
def haltAt {α : Type} (w : Option Walk) (s : State) (r : Except Stop α) : Except UnitHalt α :=
  match r with
  | .ok a => .ok a
  | .error e => .error (e, w, s)

/-- Run a walk to its conclusion. A fault leaves its progress, from which it goes on (R228, R229). -/
def State.runWalk (s : State) (id : ThreadId) (pc : Word) (acq : Nat) (area : DWord) (phys : Nat)
    (d : Opd) (w : Walk) (replay : Bool) : Except UnitHalt Completion :=
  let run : Except Halt (Reached × Walk × State) := match w.failed with
    | some why => .ok (.failed why, w, s)
    | none => if replay then s.replayOn id acq w w.replay else s.walkOn id acq w (300 * w.header.nodes + 10)
  match run with
  | .error (e, w, s) => .error (e, some w, s)
  | .ok (r, w, s) => haltAt (some w) s (s.concludeWalk id pc area phys d r w)

/-- The physical address of a work area; 0 where none is named. -/
def State.areaPhys (s : State) (id : ThreadId) (area : DWord) (named : Bool) :
    Except Stop (Nat × State) :=
  if !named then .ok (0, s)
  else
    match s.translate (s.coreOf id) (s.ctxOf id) area .write with
    | (.error (hv, c), _) => .error (.fault hv (c + 16) area.toNat)
    | (.ok (pa, _), s) => .ok (pa, s)

def Walk.fresh (f64 log area : Bool) (ray : List Nat) (hdr : List Byte) : Walk :=
  { f64 := f64, log := log, area := area, ray := ray, hdr := hdr, stack := [], leaf := none,
    replay := [], best := none, why := 0, uskip := false, ovf := false, count := 0, nodesDone := [],
    primsDone := [], cand := 0, pending := [], reading := [], failed := none }

/-- TRACE at completion (R226, R239); `prog` is the walk that a fault stopped. -/
def State.traceDone (s : State) (id : ThreadId) (pc : Word) (acq : Nat) (x : TraceOp) (c : DWord)
    (span : List Word) (hdr : List Byte) (prog : Option Walk) : Except UnitHalt Completion := do
  let named := x.c != .zero
  let w := Walk.fresh x.f64 x.log named (rayValues x.f64 span) hdr
  let r := w.theRay
  let fail (why : Nat) (s : State) : Except UnitHalt Completion :=
    haltAt none s (s.failWalk id pc c x.d w why)
  let (phys, s) ← haltAt prog s (s.areaPhys id c named)
  match prog with
  | some w => s.runWalk id pc acq c phys x.d w false
  | none =>
    if r.bad then fail 4 s
    else if hdr.isEmpty then fail 3 s
    else if !w.header.ok then fail 2 s
    else if r.empty then haltAt none s (s.concludeWalk id pc c phys x.d .finished w)
    else
      match s.unitRead id acq w.header.nodeBase 4 with
      | .error (.err why) => fail why s
      | .error e => .error (e, none, s)
      | .ok (bs, s) =>
        let n := Node.read bs
        let stack := match n.box.test r (r.far none) with
          | some (t, _) => if n.mask &&& r.mask == 0 then [] else [(0, t)]
          | none => []
        s.runWalk id pc acq c phys x.d { w with stack := stack } false

/-- A walk that replays a log: nothing is left of a tree. -/
def Walk.replays (w : Walk) : Bool := w.stack.isEmpty && w.leaf.isNone

/-- TRACEC at completion (R234, R235): the answer in its span. -/
def State.tracecDone (s : State) (id : ThreadId) (pc : Word) (acq : Nat) (x : TracecOp) (c : DWord)
    (span : List Word) (prog : Option Walk) : Except UnitHalt Completion := do
  let (phys, s) ← haltAt prog s (s.areaPhys id c true)
  let fail (why : Nat) (s : State) : Completion :=
    ⟨missWrites x.f64 x.d (statusWord 15 why 0 false false 0), s⟩
  match prog with
  | some w => s.runWalk id pc acq c phys x.d w w.replays
  | none =>
    match s.unitRead id acq c.toNat 48 with
    | .error (.err why) => .ok (fail why s)
    | .error e => .error (e, none, s)
    | .ok (bs, s) =>
      match s.suspended.find? fun e => e.ctx == s.ctxOf id && e.phys == phys with
      | none => .ok (fail 5 s)
      | some e =>
        if e.image != bs.take 764 || e.walk.f64 != x.f64 then .ok (fail 5 s)
        else
          let vals := rayValues x.f64 (span ++ List.replicate 17 0)
          let replay := e.walk.replays
          let hit := if x.accept then some ⟨vals.getD 0 0, vals.getD 1 0, vals.getD 2 0⟩ else none
          let w := e.walk.afterCand.offer 2 e.walk.cand hit 3
          -- a resumed suspension is marked consumed
          let s' ← haltAt none s (s.areaWrites id pc c [(0x200, freeBytes s.free 252)])
          let s := { s' with
            free := s'.free + 1,
            suspended := s'.suspended.filter fun y => !(y.ctx == e.ctx && y.phys == phys) }
          s.runWalk id pc acq c phys x.d w replay

/-- REPLAY at completion (R237). -/
def State.replayDone (s : State) (id : ThreadId) (pc : Word) (acq : Nat) (x : ReplayOp) (c : DWord)
    (span : List Word) (hdr : List Byte) (prog : Option Walk) : Except UnitHalt Completion := do
  let w := Walk.fresh x.f64 false true (rayValues x.f64 span) hdr
  let r := w.theRay
  let fail (why : Nat) (s : State) : Except UnitHalt Completion :=
    haltAt none s (s.failWalk id pc c x.d w why)
  let (phys, s) ← haltAt prog s (s.areaPhys id c true)
  match prog with
  | some w => s.runWalk id pc acq c phys x.d w true
  | none =>
    if r.bad then fail 4 s
    else if hdr.isEmpty then fail 3 s
    else if !w.header.ok then fail 2 s
    else
      match s.unitRead id acq (c + 0x2F0).toNat 65 with
      | .error (.err why) => fail why s
      | .error e => .error (e, none, s)
      | .ok (bs, s) =>
        let count := leNat ((bs.drop 12).take 4) % 512
        if count > 256 then fail 2 s
        else if r.empty then haltAt none s (s.concludeWalk id pc c phys x.d .finished w)
        else
          let es := (List.range count).map fun i =>
            BitVec.ofNat 32 (leNat ((bs.drop (16 + 4 * i)).take 4))
          s.runWalk id pc acq c phys x.d { w with replay := es } true

/-! ## Direct tests and queries (R240, R241) -/

/-- ASPH and TRIX. -/
def directDone (x : DirectOp) (kind : Nat) (span : List Word) (rec : List Byte) :
    List (Nat × VReg) :=
  let r := Ray.ofList x.f64 (rayValues x.f64 span)
  let err (why : Nat) : List (Nat × VReg) :=
    missWrites x.f64 x.d (statusWord 15 why r.wave false false 0)
  let miss (why : Nat) : List (Nat × VReg) :=
    missWrites x.f64 x.d (statusWord 0 why r.wave false false 0)
  if r.bad then err 4
  else if rec.isEmpty then err 3
  else
    let n := leNat rec
    match if kind == 0 then triangle r n else asphere r n with
    | .badRecord => err 2
    | .miss why => miss (if r.empty then 0 else why.toNat)
    | .hit h =>
      if !r.empty && Arith.le r.fmt r.tmin h.t && Arith.le r.fmt h.t r.tmax then
        hitWrites x.f64 x.d h.t h.u h.w (BitVec.ofNat 32 (primId kind 0))
          (statusWord (kind + 1) 0 r.wave false false 0)
      else miss 0

/-- BOXX. -/
def boxDone (x : DirectOp) (span : List Word) (rec : List Byte) : List (Nat × VReg) :=
  let r := Ray.ofList x.f64 (rayValues x.f64 span)
  let res := if r.bad || rec.isEmpty || r.empty then none
    else (Node.read rec).box.test r (r.far none)
  let (a, b) := res.getD (f32Inf false, f32Inf true)
  match x.d with
  | .v n => [(n.val, ⟨BitVec.ofNat 32 a, 0x20⟩), (n.val + 1, ⟨BitVec.ofNat 32 b, 0x20⟩)]
  | _ => []

/-- The register writes of a triple of codes. -/
def vecWrites (f64 : Bool) (d : Opd) (p : Nat × Nat × Nat) : List (Nat × VReg) :=
  match d with
  | .v n => [p.1, p.2.1, p.2.2].zipIdx.flatMap fun q =>
      if f64 then [(n.val + 2 * q.2, ⟨BitVec.ofNat 32 q.1, 0x40⟩),
        (n.val + 2 * q.2 + 1, ⟨BitVec.ofNat 32 (q.1 / 2 ^ 32), 0x40⟩)]
      else [(n.val + q.2, ⟨BitVec.ofNat 32 q.1, 0x20⟩)]
  | _ => []

/-- A hit span read by HITQ: u, w, the prim word and the result. -/
structure HitSpan where
  u : Nat
  w : Nat
  kind : Nat
  index : Nat
  result : Nat

def HitSpan.read (f64 : Bool) (span : List Word) : HitSpan :=
  let at_ (i : Nat) : Nat := (span.getD i 0).toNat
  let prim := if f64 then at_ 6 else at_ 3
  let st := if f64 then at_ 7 else at_ 4
  { u := if f64 then at_ 2 + at_ 3 * 2 ^ 32 else at_ 1,
    w := if f64 then at_ 4 + at_ 5 * 2 ^ 32 else at_ 2,
    kind := bits prim 31 30, index := bits prim 25 0, result := bits st 31 28 }

/-- HITQ's writes from a record at an address; a user primitive has no point or normal, and its
values are free (log entry 5). -/
def hitqWrites (x : HitqOp) (h : HitSpan) (addr : Nat) (rec : List Byte) (free : Nat) :
    List (Nat × VReg) :=
  let n := leNat rec
  let f (i : Nat) : Nat := if x.f64 then
      (Config.freeWord (free + 2 * i)).toNat + (Config.freeWord (free + 2 * i + 1)).toNat * 2 ^ 32
    else (Config.freeWord (free + i)).toNat
  let one (w : Word) : List (Nat × VReg) := match x.d with
    | .v k => [(k.val, ⟨w, 0⟩)]
    | _ => []
  match x.query with
  | .pos => vecWrites x.f64 x.d
      (if h.kind == 2 then (f 0, f 1, f 2) else hitPos x.f64 h.kind n h.u h.w)
  | .nrm => vecWrites x.f64 x.d
      (if h.kind == 2 then (f 0, f 1, f 2) else hitNrm x.f64 h.kind n h.u h.w)
  | .record => match x.d with
    | .v k => [(k.val, ⟨BitVec.ofNat 32 addr, 0⟩), (k.val + 1, ⟨BitVec.ofNat 32 (addr / 2 ^ 32), 0⟩)]
    | _ => []
  | .user => one (BitVec.ofNat 32 (match h.kind with
      | 0 => bits n 319 288
      | 1 => bits n 1023 992
      | _ => bits n 223 192))

/-- HITQ's zeros. -/
def hitqZeros (x : HitqOp) : List (Nat × VReg) :=
  match x.query, x.d with
  | .record, .v k => [(k.val, ⟨0, 0⟩), (k.val + 1, ⟨0, 0⟩)]
  | .user, .v k => [(k.val, ⟨0, 0⟩)]
  | _, d => vecWrites x.f64 d (0, 0, 0)

/-- HITQ asks for nothing that a record holds: a miss, an error, a candidate's point or normal, or a
reserved kind. -/
def hitqNone (x : HitqOp) (h : HitSpan) : Bool :=
  let geo := match x.query with
    | .pos => true
    | .nrm => true
    | _ => false
  h.result == 0 || h.result == 15 || (h.result == 4 && geo) || h.kind == 3

/-- HITQ at completion. An uncorrectable line is a load's (R337). -/
def State.hitqDone (s : State) (id : ThreadId) (acq : Nat) (x : HitqOp) (a : DWord)
    (span : List Word) (bytes : List Byte) : Except Stop Completion := do
  let h := HitSpan.read x.f64 span
  if hitqNone x h then .ok ⟨hitqZeros x, s⟩
  else if x.direct then
    if bytes.isEmpty then .error (.err 3)
    else .ok ⟨hitqWrites x h a.toNat bytes s.free, { s with free := s.free + 6 }⟩
  else
    let hd := Header.read bytes
    let (count, _, size) := hd.kind h.kind
    if bytes.isEmpty then .error (.err 3)
    else if h.index ≥ count then .ok ⟨hitqZeros x, s⟩
    else
      let addr := hd.addr h.kind h.index
      let (rec, s) ← s.unitRead id acq addr (size / 16)
      .ok ⟨hitqWrites x h addr rec s.free, { s with free := s.free + 6 }⟩

/-! ## Issue (R228, R238) -/

/-- Tags of a ray span (R224). -/
def Thread.needRay (t : Thread) (f64 : Bool) (b : Opd) : Except Trap Unit := do
  t.needAll (if f64 then 0x40 else 0x20) b (Opd.span b (if f64 then 16 else 8))
  t.needAll 0 b [Opd.plus b (if f64 then 16 else 8)]

/-- Tags of the answer in a hit span (R225). -/
def Thread.needAnswer (t : Thread) (f64 : Bool) (b : Opd) : Except Trap Unit :=
  t.needAll (if f64 then 0x40 else 0x20) b (Opd.span b (if f64 then 6 else 3))

/-- The words of a span. -/
def Thread.spanWords (t : Thread) (o : Opd) (n : Nat) : List Word :=
  (Opd.span o n).map fun r => (t.reg r).bits

/-- Read a header or record at issue: a precise fault where it is misaligned or cannot be translated,
no bytes where its line is uncorrectable. -/
def State.recordAt (s : State) (id : ThreadId) (t : Thread) (va : DWord) (align n : Nat) (d : Opd) :
    Except Trap (List Byte × State) :=
  if va.toNat % align != 0 then .error (.fault causeMisaligned d.enc)
  else
    let rec go (s : State) (va : DWord) : Nat → Except Trap (Option (List Byte) × State)
      | 0 => .ok (some [], s)
      | n + 1 => do
        let (pa, key, s) ← s.translateFor id va .read
        let (bs, s) := s.loadGlobal id t.acqTs pa key 16 0 s.free
        let (r, s) ← go s (va + 16) n
        .ok (match bs, r with | some b, some r => some (b ++ r) | _, _ => none, s)
    do
      let (r, s) ← go s va n
      .ok (r.getD [], s.readsDone (s.coreOf id))

/-- A work area is aligned and writable (R238). -/
def State.checkArea (s : State) (id : ThreadId) (va : DWord) (d : Opd) : Except Trap State := do
  if va.toNat % 64 != 0 then .error (.fault causeMisaligned d.enc)
  else
    let (_, _, s) ← s.translateFor id va .write
    let (_, _, s) ← s.translateFor id (va + 1791) .write
    .ok s

/-- Accept a traversal operation. -/
def State.acceptTraverse (s : State) (id : ThreadId) (t : Thread) (i : Instr) (d : Opd) (a c : DWord)
    (span : List Word) (bytes : List Byte) : State :=
  (s.addOp { th := id, pc := t.pc, field := d.enc, issued := s.cycle, due := s.cycle, stop := none,
             fctl := t.fctl, kind := .traverse i a c span bytes }).setThread id
    (t.countUp .load).advance

/-- TRACE (R238, R239). -/
def execTrace (x : TraceOp) (s : State) : Host.Outcome State Fault Refusal :=
  .next (s.runUnless x.ctl (countFull .load) fun s id t => do
    t.need true x.a 0
    t.needRay x.f64 x.b
    t.need true x.c 0
    let (hdr, s) ← s.recordAt id t (t.pair x.a) 64 4 x.d
    let s ← (if x.c == .zero then Except.ok s else s.checkArea id (t.pair x.c) x.d)
    .ok (s.acceptTraverse id t (.trace x) x.d (t.pair x.a) (t.pair x.c)
      (t.spanWords x.b (rayRegs x.f64)) hdr))

/-- TRACEC (R238, R239). -/
def execTracec (x : TracecOp) (s : State) : Host.Outcome State Fault Refusal :=
  .next (s.runUnless x.ctl (countFull .load) fun s id t => do
    t.needAnswer x.f64 x.d
    t.need true x.c 0
    let s ← s.checkArea id (t.pair x.c) x.d
    .ok (s.acceptTraverse id t (.tracec x) x.d 0 (t.pair x.c) (t.spanWords x.d (hitRegs x.f64)) []))

/-- REPLAY (R237, R238). -/
def execReplay (x : ReplayOp) (s : State) : Host.Outcome State Fault Refusal :=
  .next (s.runUnless x.ctl (countFull .load) fun s id t => do
    t.need true x.a 0
    t.needRay x.f64 x.b
    t.need true x.c 0
    let (hdr, s) ← s.recordAt id t (t.pair x.a) 64 4 x.d
    let s ← s.checkArea id (t.pair x.c) x.d
    .ok (s.acceptTraverse id t (.replay x) x.d (t.pair x.a) (t.pair x.c)
      (t.spanWords x.b (rayRegs x.f64)) hdr))

/-- HITQ (R238, R240). -/
def execHitq (x : HitqOp) (s : State) : Host.Outcome State Fault Refusal :=
  .next (s.runUnless x.ctl (countFull .load) fun s id t => do
    t.need true x.a 0
    t.needAnswer x.f64 x.b
    t.needAll 0 x.b (Opd.span (Opd.plus x.b (if x.f64 then 6 else 3)) 2)
    let span := t.spanWords x.b (hitRegs x.f64)
    let h := HitSpan.read x.f64 span
    let (align, n) := if !x.direct then (64, 4) else match h.kind with
      | 0 => (16, 3)
      | 1 => (64, 8)
      | _ => (16, 2)
    let (bytes, s) ← s.recordAt id t (t.pair x.a) align n x.d
    .ok (s.acceptTraverse id t (.hitq x) x.d (t.pair x.a) 0 span bytes))

/-- ASPH, TRIX or BOXX over the gang. -/
def State.issueDirect (s : State) (x : DirectOp) (i : Instr) (align n : Nat) : State :=
  s.runUnless x.ctl (countFull .load) fun s id t => do
    t.need true x.a 0
    t.needRay x.f64 x.b
    let (rec, s) ← s.recordAt id t (t.pair x.a) align n x.d
    .ok (s.acceptTraverse id t i x.d (t.pair x.a) 0 (t.spanWords x.b (rayRegs x.f64)) rec)

/-- ASPH (R241). -/
def execAsph (x : DirectOp) (s : State) : Host.Outcome State Fault Refusal :=
  .next (s.issueDirect x (.asph x) 64 8)

/-- TRIX (R241). -/
def execTrix (x : DirectOp) (s : State) : Host.Outcome State Fault Refusal :=
  .next (s.issueDirect x (.trix x) 16 3)

/-- BOXX (R241). -/
def execBoxx (x : DirectOp) (s : State) : Host.Outcome State Fault Refusal :=
  .next (s.issueDirect x (.boxx x) 64 4)

/-! ## Completion -/

/-- What an accepted operation writes. -/
def State.traverseDone (s : State) (o : Op) (acq : Nat) (i : Instr) (a c : DWord) (span : List Word)
    (bytes : List Byte) : Except UnitHalt Completion :=
  match i with
  | .trace x => s.traceDone o.th o.pc acq x c span bytes o.walk
  | .tracec x => s.tracecDone o.th o.pc acq x c span o.walk
  | .replay x => s.replayDone o.th o.pc acq x c span bytes o.walk
  | .hitq x => haltAt none s (s.hitqDone o.th acq x a span bytes)
  | .asph x => .ok ⟨directDone x 1 span bytes, s⟩
  | .trix x => .ok ⟨directDone x 0 span bytes, s⟩
  | .boxx x => .ok ⟨boxDone x span bytes, s⟩
  | _ => .ok ⟨[], s⟩

/-- Enter a fault of an accepted operation: access 0b00, or 0b01 for a write (R228, R259). -/
def State.stopUnit (s : State) (n : Nat) (o : Op) (hv : Bool) (cause va : Nat) : State :=
  let ctx := s.ctxOf o.th
  let (tk, s) := s.enterFault hv (s.partOf ctx) (s.srcOf o.th)
    (faultEntry va s.gts o.th.course o.pc.toNat ctx o.th.cthr (cause % 16) (cause / 16) hv)
  s.modOp n fun o => { o with stop := some tk }

/-- TRAVERSAL_COMPLETE: destinations written, stores staged, the load counter falls (R228). Where the
course's staging buffer has no room, its entries are committed first (R268). -/
def execTraversalComplete (th : ThreadId) (op : Nat) (s : State) : Host.Outcome State Fault Refusal :=
  match s.op op with
  | some o =>
    match o.kind with
    | .traverse i a c span bytes =>
      if o.th ≠ th ∨ o.stop.isSome then .next s
      else
        let acq := match s.thread th with
          | some t => t.acqTs
          | none => 0
        match s.traverseDone o acq i a c span bytes with
        | .error (.fault hv cause va, w, s) =>
          .next ((s.stopUnit op o hv cause va).modOp op fun o => { o with walk := w })
        | .error (.err _, _, _) => .next (s.courseFailure (courseOf th) 0x06 o.pc th.cthr)
        | .ok r =>
          match r.s.overflowed [th] with
          | [] =>
            .next (r.s.landed op o r.writes 0 id)
          | _ => .next (s.commitCourse (courseOf th))
    | _ => .next s
  | none => .next s

end Sys2Proof.Machine
end

