-- ==== Sys2Proof/Machine/Lobe.lean ====
section
/-! DEFINITION. Lobe.lean: closure nodes and the arithmetic of the closure unit: walks, lobes and
sampling (R242 to R254). -/

namespace Sys2Proof.Machine

/-! ## FP32 arithmetic of the unit (R245) -/

namespace Clo

def add (a b : Nat) : Nat := Arith.add .f32 a b
def sub (a b : Nat) : Nat := Arith.sub .f32 a b
def mul (a b : Nat) : Nat := Arith.mul .f32 a b
def div (a b : Nat) : Nat := Arith.div .f32 a b
def sqrt (a : Nat) : Nat := Arith.sqrt .f32 a
def fma (a b c : Nat) : Nat := Arith.fma .f32 a b c
/-- c − a × b. -/
def fnma (a b c : Nat) : Nat := Arith.fnma .f32 a b c
/-- a × b − c, rounded once: DEDUCED, R245 rounds a product on its own where it is the leftmost of
several or alone inside parentheses, and this one is neither (log entry 43). -/
def fms (a b c : Nat) : Nat := Arith.fma .f32 a b (Arith.neg .f32 c)
def neg (a : Nat) : Nat := Arith.neg .f32 a
def abs (a : Nat) : Nat := Arith.abs .f32 a
def lt (a b : Nat) : Bool := Arith.lt .f32 a b
def le (a b : Nat) : Bool := Arith.le .f32 a b
def zero (a : Nat) : Bool := Arith.isZero .f32 a
def num (n : Nat) : Nat := Arith.ofNat .f32 n
def one : Nat := 0x3F800000
def half : Nat := 0x3F000000
/-- 1/π and 4π as R245 gives them. -/
def rPi : Nat := 0x3EA2F983
def fourPi : Nat := 0x41490FDB
def max0 (a : Nat) : Nat := (plainRne.minMaxC .f32 true a 0).1
def clamp (lo hi a : Nat) : Nat := (plainRne.minMaxC .f32 false (plainRne.minMaxC .f32 true a lo).1 hi).1
def cos (a : Nat) : Nat := (plainRne.special .cos false a).1
def sin (a : Nat) : Nat := (plainRne.special .sin false a).1
def exp2 (a : Nat) : Nat := (plainRne.special .exp2 false a).1

/-- p + (q − p) × f, rounded once after the subtraction. -/
def lerp (p q f : Nat) : Nat := fma (sub q p) f p

/-- min(floor(x), m) of a value that is not negative; a NaN gives m. -/
def floorMin (x m : Nat) : Nat :=
  match Fmt.f32.read x with
  | .fin n a e => min (floorOf n a e).toNat m
  | _ => m

end Clo

/-- A vector, or a triple of random numbers. -/
structure Vec3 where
  x : Nat
  y : Nat
  z : Nat
  deriving DecidableEq, Repr

namespace Vec3

def ofList (l : List Nat) : Vec3 := ⟨l.getD 0 0, l.getD 1 0, l.getD 2 0⟩
def map (v : Vec3) (f : Nat → Nat) : Vec3 := ⟨f v.x, f v.y, f v.z⟩
def zip (v w : Vec3) (f : Nat → Nat → Nat) : Vec3 := ⟨f v.x w.x, f v.y w.y, f v.z w.z⟩
def dot (v w : Vec3) : Nat := Arith.dot3 .f32 (v.x, v.y, v.z) (w.x, w.y, w.z)
def normalize (v : Vec3) : Vec3 :=
  let n := Clo.sqrt (v.dot v)
  v.map fun c => Clo.div c n
def isZero (v : Vec3) : Bool := Clo.zero v.x && Clo.zero v.y && Clo.zero v.z
def finite (v : Vec3) : Bool :=
  Arith.isFinite .f32 v.x && Arith.isFinite .f32 v.y && Arith.isFinite .f32 v.z

end Vec3

/-- Directions for which every value and density is +0 (R246). -/
def badDirs (i o : Vec3) : Bool := !i.finite || !o.finite || i.isZero

/-- A random number as it is used (R246). -/
def remap (u : Nat) : Nat :=
  if Arith.isNan .f32 u || Clo.lt u 0 then 0 else if Clo.le Clo.one u then 0x3F7FFFFF else u

/-! ## Nodes (R242, R243) -/

def kWeights (k : KReg) : List Nat := (List.range 4).map fun j => (k.extractLsb' (128 + 32 * j) 32).toNat
def kKind (k : KReg) : Nat := (k.extractLsb' 124 4).toNat
def kOwned (k : KReg) : Bool := k.getLsbD 123
def kField (k : KReg) (lo n : Nat) : Nat := (k.extractLsb' lo n).toNat

/-- Children of a combinator. -/
def kChildren (k : KReg) : List Nat :=
  if kKind k == 8 || kKind k == 9 || kKind k == 10 then [kField k 119 4, kField k 115 4] else []

/-- A node from its weights, kind, owned bit and body. -/
def kNode (ws : List Nat) (kind : Nat) (owned : Bool) (body : Nat) : KReg :=
  BitVec.ofNat 256 ((ws.zipIdx.foldl (fun n p => n + p.1 * 2 ^ (32 * p.2)) 0) * 2 ^ 128 +
    kind * 2 ^ 124 + b2n owned * 2 ^ 123 + body)

/-- The same node with another owned bit. -/
def kSetOwned (k : KReg) (owned : Bool) : KReg :=
  if k == 0 then k
  else if owned then k ||| ((1 : KReg) <<< 123) else k &&& ~~~((1 : KReg) <<< 123)

def kSetWeights (k : KReg) (ws : List Nat) : KReg :=
  (k.extractLsb' 0 128).setWidth 256 ||| kNode ws 0 false 0

/-- An address of a field that holds VA[47:n]. -/
def kAddr (field n : Nat) : Nat :=
  let a := field * 2 ^ n
  if nbit a 47 then a + (2 ^ 64 - 2 ^ 48) else a

/-- Bits of a body that its kind leaves unnamed are zero, and the kind is valid (R262). -/
def kValid (k : KReg) : Bool :=
  match kKind k with
  | 1 => kField k 0 123 == 0
  | 2 => kField k 0 48 == 0
  | 3 => kField k 0 59 == 0
  | 4 => kField k 0 123 == 0
  | 5 => kField k 0 81 == 0
  | 8 => kField k 0 115 == 0
  | 9 => kField k 0 83 == 0
  | 10 => kField k 0 51 == 0
  | 15 => kField k 0 111 == 0
  | _ => false

/-! ## The walk (R247) -/

/-- A lobe that the walk meets. -/
structure LobeHit where
  node : KReg
  wv : List Nat
  ws : List Nat

/-- cv and cs of a COAT. -/
def coatFactors (k : KReg) (iz oz : Nat) : Nat × Nat :=
  let t := kField k 83 32
  let ab := kField k 51 32
  if Clo.zero ab then (t, t)
  else
    let m := Clo.neg ab
    let ri := Clo.div Clo.one (Clo.abs iz)
    let ro := Clo.div Clo.one (Clo.abs oz)
    (Clo.mul t (Clo.exp2 (Clo.mul m (Clo.add ri ro))),
      Clo.mul t (Clo.exp2 (Clo.mul m (Clo.div (Clo.num 2) (Clo.abs iz)))))

/-- The lobes of a tree, or the register that holds a spilled reference. -/
def kWalk (ks : List KReg) (iz oz : Nat) : Nat → Nat → List Nat → List Nat →
    Except Nat (List LobeHit)
  | 0, _, _, _ => .ok []
  | fuel + 1, n, wv, ws =>
    let k := ks.getD n 0
    let times (w : List Nat) (v : List Nat) : List Nat := List.zipWith Clo.mul w v
    let scale (w : List Nat) (f : Nat) : List Nat := w.map fun c => Clo.mul c f
    let wv := times wv (kWeights k)
    let ws := times ws (kWeights k)
    let (a, b) := (kField k 119 4, kField k 115 4)
    match kKind k with
    | 0 => .ok []
    | 15 => .error n
    | 8 => do
      let l ← kWalk ks iz oz fuel a wv ws
      let r ← kWalk ks iz oz fuel b wv ws
      .ok (l ++ r)
    | 9 => do
      let f := kField k 83 32
      let g := Clo.sub Clo.one f
      let l ← kWalk ks iz oz fuel a (scale wv f) (scale ws f)
      let r ← kWalk ks iz oz fuel b (scale wv g) (scale ws g)
      .ok (l ++ r)
    | 10 => do
      let (cv, cs) := coatFactors k iz oz
      let l ← kWalk ks iz oz fuel a wv ws
      let r ← kWalk ks iz oz fuel b (scale wv cv) (scale ws cs)
      .ok (l ++ r)
    | _ => .ok [⟨k, wv, ws⟩]

/-- The walk from a root. -/
def kLobes (ks : List KReg) (root iz oz : Nat) : Except Nat (List LobeHit) :=
  kWalk ks iz oz 17 root [Clo.one, Clo.one, Clo.one, Clo.one] [Clo.one, Clo.one, Clo.one, Clo.one]

/-! ## Analytic lobes (R249) -/

/-- D(h). -/
def ggxD (a2 hz : Nat) : Nat :=
  let e := Clo.fma (Clo.mul hz hz) (Clo.sub a2 Clo.one) Clo.one
  Clo.div (Clo.mul a2 Clo.rPi) (Clo.mul e e)

/-- G1(v). -/
def ggxG1 (a2 vz : Nat) : Nat :=
  let z := Clo.abs vz
  Clo.div (Clo.mul (Clo.num 2) z)
    (Clo.add z (Clo.sqrt (Clo.fma (Clo.sub Clo.one a2) (Clo.mul vz vz) a2)))

/-- The GGX map. -/
def ggxMap (a2 u2 u3 : Nat) : Vec3 :=
  let tau := Clo.div (Clo.mul a2 u2) (Clo.sub Clo.one u2)
  let hz := Clo.div Clo.one (Clo.sqrt (Clo.add Clo.one tau))
  let r := Clo.sqrt (Clo.fnma hz hz Clo.one)
  ⟨Clo.mul r (Clo.cos u3), Clo.mul r (Clo.sin u3), hz⟩

/-- 2 × (i·h) × h − i. -/
def reflect (i h : Vec3) : Vec3 :=
  let c := Clo.mul (Clo.num 2) (i.dot h)
  h.zip i fun hk ik => Clo.fms c hk ik

/-- F_j of a conductor. -/
def conductorF (eta kappa c : Nat) : Nat :=
  let a := Clo.fma kappa kappa (Clo.mul eta eta)
  let tw := Clo.mul (Clo.mul (Clo.num 2) eta) c
  let c2 := Clo.mul c c
  let rs := Clo.div (Clo.add (Clo.sub a tw) c2) (Clo.add (Clo.add a tw) c2)
  let rp := Clo.div (Clo.add (Clo.fms a c2 tw) Clo.one) (Clo.add (Clo.fma a c2 tw) Clo.one)
  Clo.mul (Clo.add rs rp) Clo.half

/-- Fd(c) of a dielectric. -/
def dielectricF (e c : Nat) : Nat :=
  let g2 := Clo.fma c c (Clo.sub (Clo.mul e e) Clo.one)
  if Clo.lt g2 0 then Clo.one
  else
    let g := Clo.sqrt g2
    let q := Clo.div (Clo.sub g c) (Clo.add g c)
    let y := Clo.div (Clo.fms c (Clo.add g c) Clo.one) (Clo.fma c (Clo.sub g c) Clo.one)
    Clo.mul (Clo.mul (Clo.mul q q) Clo.half) (Clo.fma y y Clo.one)

/-- e of a dielectric node for a side. -/
def dielectricE (k : KReg) (iz : Nat) : Nat :=
  let eta := kField k 59 32
  if Clo.lt 0 iz then eta else Clo.div Clo.one eta

/-- Value and density of a dielectric. -/
def dielectricEval (k : KReg) (i o : Vec3) : Nat × Nat :=
  if Clo.zero i.z || Clo.zero o.z then (0, 0)
  else
    let al := kField k 91 32
    let a2 := Clo.mul al al
    let e := dielectricE k i.z
    let g := Clo.mul (ggxG1 a2 i.z) (ggxG1 a2 o.z)
    let up (h : Vec3) : Vec3 := if Clo.lt h.z 0 then h.map Clo.neg else h
    if Arith.isNeg .f32 i.z == Arith.isNeg .f32 o.z then
      let h := up (i.zip o Clo.add).normalize
      let ih := Clo.abs (i.dot h)
      let fd := Clo.mul (dielectricF e ih) (ggxD a2 h.z)
      (Clo.div (Clo.mul fd g) (Clo.mul (Clo.num 4) (Clo.abs i.z)),
        Clo.div (Clo.mul fd h.z) (Clo.mul (Clo.num 4) ih))
    else
      let h := up (i.zip o fun ik ok => Clo.fma e ok ik).normalize
      let ih := i.dot h
      let oh := o.dot h
      if !Clo.lt (Clo.mul ih oh) 0 then (0, 0)
      else
        let f := Clo.sub Clo.one (dielectricF e (Clo.abs ih))
        let s := Clo.fma e oh ih
        let del := Clo.mul s s
        let d := ggxD a2 h.z
        let v := Clo.mul (Clo.mul (Clo.mul (Clo.mul (Clo.abs ih) (Clo.abs oh)) f) d) g
        let p := Clo.mul (Clo.mul (Clo.mul (Clo.mul f d) h.z) (Clo.mul e e)) (Clo.abs oh)
        (Clo.div v (Clo.mul (Clo.abs i.z) del), Clo.div p del)

/-- The map of a dielectric, and whether it refracts. -/
def dielectricMap (k : KReg) (i : Vec3) (u1 u2 u3 : Nat) : Vec3 × Bool :=
  let al := kField k 91 32
  let e := dielectricE k i.z
  let h := ggxMap (Clo.mul al al) u2 u3
  let hs := if Clo.le 0 (i.dot h) then h else h.map Clo.neg
  let ci := i.dot hs
  if Clo.lt u1 (dielectricF e ci) then (reflect i hs, false)
  else
    let r := Clo.div Clo.one e
    let q := Clo.sqrt (Clo.fnma (Clo.mul r r) (Clo.fnma ci ci Clo.one) Clo.one)
    let c := Clo.fms r ci q
    (hs.zip i fun hk ik => Clo.fnma r ik (Clo.mul c hk), true)

/-- The cosine map of diffuse and sheen. -/
def cosineMap (u2 u3 : Nat) : Vec3 :=
  let r := Clo.sqrt u2
  ⟨Clo.mul r (Clo.cos u3), Clo.mul r (Clo.sin u3), Clo.sqrt (Clo.sub Clo.one u2)⟩

/-! ## Tables (R250, R251) -/

/-- Who reads a table: the thread, its latest acquire and the operation. -/
structure Reader where
  id : ThreadId
  acq : Nat
  op : Nat

/-- What stops an evaluation: a translation fault, or an uncorrectable or revoked line, with KSAMPLE's status
where a lobe has been chosen (R259). -/
inductive TableStop where
  | fault (hv : Bool) (cause va : Nat)
  | poison (status : Option Word)

/-- 16 × `n` or 4 bytes of a table, read as a load of the thread. -/
def State.tableBytes (s : State) (rd : Reader) (va : Nat) (word : Bool) (n : Nat) :
    Except Stop (List Byte × State) :=
  if !word then s.unitRead rd.id rd.acq va n
  else
    match s.translate (s.coreOf rd.id) (s.ctxOf rd.id) (BitVec.ofNat 64 va) .read with
    | (.error (hv, c), _) => if c == 3 then .error (.err 3) else .error (.fault hv c va)
    | (.ok (pa, key), s) =>
      match s.loadGlobal rd.id rd.acq pa key 4 0 s.free with
      | (none, _) => .error (.err 3)
      | (some bs, s) => .ok (bs, s.readsDone (s.coreOf rd.id))

/-- A read of an evaluation. A resumed one has those that it made before the fault (R260). -/
def State.tableRead (s : State) (rd : Reader) (va : Nat) (word : Bool) (n : Nat) :
    Except (TableStop × State) (List Byte × State) :=
  match (s.op rd.op).bind fun o => o.reads[o.readAt]? with
  | some bs => .ok (bs, s.modOp rd.op fun o => { o with readAt := o.readAt + 1 })
  | none =>
    match s.tableBytes rd va word n with
    | .ok (bs, s) =>
      .ok (bs, s.modOp rd.op fun o => { o with reads := o.reads ++ [bs], readAt := o.readAt + 1 })
    | .error (.fault hv c va) => .error (.fault hv c va, s)
    | .error (.err _) => .error (.poison none, s)

/-- A word of a table. -/
def State.tableWord (s : State) (rd : Reader) (va : Nat) : Except (TableStop × State) (Nat × State) := do
  let (bs, s) ← s.tableRead rd va true 0
  .ok (leNat bs, s)

/-- A network table's counts, and where its arrays begin. -/
structure Net where
  np : Nat
  no : Nat
  ni : Nat
  z : Nat
  g : Nat
  alb : Nat
  cdf : Nat
  val : Nat

/-- Read a network header; `none` when it breaks R251. -/
def State.netHeader (s : State) (rd : Reader) (k : KReg) :
    Except (TableStop × State) (Option Net × State) := do
  let a := kAddr (kField k 81 42) 6
  let (bs, s) ← s.tableRead rd a false 4
  let n := leNat bs
  let (np, no, ni) := (bits n 23 16, bits n 15 8, bits n 7 0)
  let inRange (c : Nat) : Bool := decide (2 ≤ c) && decide (c ≤ 16)
  if bits n 511 40 != 0 || bits n 39 32 != 1 || bits n 31 24 != 0 || !inRange np || !inRange no ||
      !inRange ni then .ok (none, s)
  else
    let z := a + 64
    let g := z + 4 * np
    let alb := g + 4 * np
    let cdf := alb + 4 * ni
    .ok (some { np := np, no := no, ni := ni, z := z, g := g, alb := alb, cdf := cdf,
                val := cdf + 4 * (ni * ((no - 1) * (np - 1))) }, s)

/-- a, fa and a* of R252. -/
def netRow (t : Net) (iz : Nat) : Nat × Nat × Nat :=
  let x := Clo.mul iz (Clo.num (t.ni - 1))
  let a := Clo.floorMin x (t.ni - 2)
  (a, Clo.sub x (Clo.num a), Clo.floorMin (Clo.add x Clo.half) (t.ni - 1))

/-- ρ of a network lobe, and whether its header is bad. -/
def State.netAlbedo (s : State) (rd : Reader) (k : KReg) (iz : Nat) :
    Except (TableStop × State) (Nat × Bool × State) := do
  let (t, s) ← s.netHeader rd k
  match t with
  | none => .ok (0, true, s)
  | some t =>
    if Clo.le iz 0 then .ok (0, false, s)
    else
      let (a, fa, _) := netRow t iz
      let (p, s) ← s.tableWord rd (t.alb + 4 * a)
      let (q, s) ← s.tableWord rd (t.alb + 4 * (a + 1))
      .ok (Clo.lerp p q fa, false, s)

/-- The probability of cell n of a row (R252). -/
def State.netCell (s : State) (rd : Reader) (t : Net) (row n : Nat) :
    Except (TableStop × State) (Nat × Nat × State) := do
  let at_ (n : Nat) : Nat := t.cdf + 4 * (row * ((t.no - 1) * (t.np - 1)) + n)
  let (hi, s) ← s.tableWord rd (at_ n)
  let (lo, s) ← if n == 0 then Except.ok (0, s) else s.tableWord rd (at_ (n - 1))
  .ok (Clo.max0 (Clo.sub hi lo), lo, s)

/-- The least c ≤ np − 2 with cd ≥ z at c + 1, else np − 2. -/
def State.netAzimuth (s : State) (rd : Reader) (t : Net) (cd : Nat) :
    Nat → Nat → Except (TableStop × State) (Nat × State)
  | 0, c => .ok (min c (t.np - 2), s)
  | n + 1, c =>
    if c ≥ t.np - 2 then .ok (t.np - 2, s)
    else do
      let (z, s) ← s.tableWord rd (t.z + 4 * (c + 1))
      if Clo.le z cd then .ok (c, s) else s.netAzimuth rd t cd n (c + 1)

/-- Value and density of a network lobe (R252). -/
def State.netEval (s : State) (rd : Reader) (k : KReg) (i o : Vec3) :
    Except (TableStop × State) (Nat × Nat × State) := do
  let (t, s) ← s.netHeader rd k
  match t with
  | none => .ok (0, 0, s)
  | some t =>
    if Clo.le i.z 0 || Clo.le o.z 0 then .ok (0, 0, s)
    else
      let (a, fa, row) := netRow t i.z
      let y := Clo.mul o.z (Clo.num (t.no - 1))
      let b := Clo.floorMin y (t.no - 2)
      let fb := Clo.sub y (Clo.num b)
      let hi := Clo.sqrt (Clo.fma i.y i.y (Clo.mul i.x i.x))
      let ho := Clo.sqrt (Clo.fma o.y o.y (Clo.mul o.x o.x))
      let cd := if Clo.zero hi || Clo.zero ho then Clo.one
        else Clo.clamp (Clo.neg Clo.one) Clo.one
          (Clo.div (Clo.fma i.y o.y (Clo.mul i.x o.x)) (Clo.mul hi ho))
      let (c, s) ← s.netAzimuth rd t cd 16 0
      let (z0, s) ← s.tableWord rd (t.z + 4 * c)
      let (z1, s) ← s.tableWord rd (t.z + 4 * (c + 1))
      let dz := Clo.sub z0 z1
      let fc := if Clo.zero dz then 0 else Clo.div (Clo.sub z0 cd) dz
      let w (s : State) (a b : Nat) : Except (TableStop × State) (Nat × State) := do
        let at_ := t.val + 4 * ((a * t.no + b) * t.np + c)
        let (p, s) ← s.tableWord rd at_
        let (q, s) ← s.tableWord rd (at_ + 4)
        .ok (Clo.lerp p q fc, s)
      let v (s : State) (a : Nat) : Except (TableStop × State) (Nat × State) := do
        let (p, s) ← w s a b
        let (q, s) ← w s a (b + 1)
        .ok (Clo.lerp p q fb, s)
      let (v0, s) ← v s a
      let (v1, s) ← v s (a + 1)
      let (pr, _, s) ← s.netCell rd t row (b * (t.np - 1) + c)
      let (g0, s) ← s.tableWord rd (t.g + 4 * c)
      let (g1, s) ← s.tableWord rd (t.g + 4 * (c + 1))
      let den := Clo.mul Clo.fourPi (Clo.sub g1 g0)
      let p := if Clo.zero den then 0 else Clo.div (Clo.mul pr (Clo.num (t.no - 1))) den
      .ok (Clo.max0 (Clo.lerp v0 v1 fa), p, s)

/-- The least cell n with u2 < cdf[row][n], else the last. -/
def State.netPick (s : State) (rd : Reader) (t : Net) (row u2 : Nat) :
    Nat → Nat → Except (TableStop × State) (Nat × State)
  | 0, n => .ok (n, s)
  | m + 1, n =>
    let cells := (t.no - 1) * (t.np - 1)
    if n + 1 ≥ cells then .ok (cells - 1, s)
    else do
      let (c, s) ← s.tableWord rd (t.cdf + 4 * (row * cells + n))
      if Clo.lt u2 c then .ok (n, s) else s.netPick rd t row u2 m (n + 1)

/-- The map of a network lobe (R252). -/
def State.netMap (s : State) (rd : Reader) (k : KReg) (i : Vec3) (u2 u3 : Nat) :
    Except (TableStop × State) (Vec3 × State) := do
  let (t, s) ← s.netHeader rd k
  match t with
  | none => .ok (⟨0, 0, 0⟩, s)
  | some t =>
    let (_, _, row) := netRow t i.z
    let (n, s) ← s.netPick rd t row u2 256 0
    let (b, c) := (n / (t.np - 1), n % (t.np - 1))
    let (pr, lo, s) ← s.netCell rd t row n
    let r := if Clo.zero pr then 0 else Clo.div (Clo.sub u2 lo) pr
    let oz := Clo.div (Clo.add (Clo.num b) r) (Clo.num (t.no - 1))
    let two := Clo.mul (Clo.num 2) u3
    let (sg, v) := if Clo.lt u3 Clo.half then (Clo.one, two)
      else (Clo.neg Clo.one, Clo.sub two Clo.one)
    let (g0, s) ← s.tableWord rd (t.g + 4 * c)
    let (g1, s) ← s.tableWord rd (t.g + 4 * (c + 1))
    let tt := Clo.fma v (Clo.sub g1 g0) g0
    let hi := Clo.sqrt (Clo.fma i.y i.y (Clo.mul i.x i.x))
    let (ex, ey) := if Clo.zero hi then (Clo.one, 0) else (Clo.div i.x hi, Clo.div i.y hi)
    let so := Clo.sqrt (Clo.fnma oz oz Clo.one)
    let (ct, st) := (Clo.cos tt, Clo.sin tt)
    .ok (⟨Clo.mul so (Clo.fnma sg (Clo.mul ey st) (Clo.mul ex ct)),
      Clo.mul so (Clo.fma sg (Clo.mul ex st) (Clo.mul ey ct)), oz⟩, s)

/-- Value (four components) and density of a conductor (R249, R250). -/
def State.conductorEval (s : State) (rd : Reader) (k : KReg) (i o : Vec3) :
    Except (TableStop × State) (List Nat × Nat × State) := do
  let zero := ([0, 0, 0, 0], 0, s)
  if Clo.le i.z 0 || Clo.le o.z 0 then .ok zero
  else
    let sum := i.zip o Clo.add
    if sum.isZero then .ok zero
    else
      let h := sum.normalize
      let c := i.dot h
      if Clo.le c 0 then .ok zero
      else
        let al := kField k 91 32
        let a2 := Clo.mul al al
        let d := ggxD a2 h.z
        let dg := Clo.mul d (Clo.mul (ggxG1 a2 i.z) (ggxG1 a2 o.z))
        let base := kAddr (kField k 48 37) 11
        let rec entries (s : State) : List Nat → Except (TableStop × State) (List Nat × State)
          | [] => .ok ([], s)
          | j :: r => do
            let e := (kField k 85 6 + 64 * j) % 256
            let (eta, s) ← s.tableWord rd (base + 8 * e)
            let (kap, s) ← s.tableWord rd (base + 8 * e + 4)
            let (l, s) ← entries s r
            .ok (Clo.div (Clo.mul dg (conductorF eta kap c)) (Clo.mul (Clo.num 4) i.z) :: l, s)
        let (vs, s) ← entries s [0, 1, 2, 3]
        .ok (vs, Clo.div (Clo.mul d h.z) (Clo.mul (Clo.num 4) c), s)

/-- A lobe's value and density at (i, o). -/
def State.lobeEval (s : State) (rd : Reader) (k : KReg) (i o : Vec3) :
    Except (TableStop × State) (List Nat × Nat × State) := do
  let same (v : Nat) : List Nat := [v, v, v, v]
  let below := Clo.le i.z 0 || Clo.le o.z 0
  match kKind k with
  | 1 =>
    let v := if below then 0 else Clo.mul Clo.rPi o.z
    .ok (same v, v, s)
  | 2 => s.conductorEval rd k i o
  | 3 =>
    let (v, p) := dielectricEval k i o
    .ok (same v, p, s)
  | 4 =>
    if below then .ok (same 0, 0, s)
    else
      let m := Clo.sub Clo.one (Clo.sqrt (Clo.mul (Clo.add Clo.one (i.dot o)) Clo.half))
      let m2 := Clo.mul m m
      let c := Clo.mul Clo.rPi o.z
      .ok (same (Clo.mul (Clo.mul c (Clo.mul m2 m2)) m), c, s)
  | _ => do
    let (v, p, s) ← s.netEval rd k i o
    .ok (same v, p, s)

/-! ## Values, densities and sampling (R248, R253) -/

/-- ρ of every lobe, and whether some header is bad. -/
def State.albedos (s : State) (rd : Reader) (iz : Nat) :
    List LobeHit → Except (TableStop × State) (List Nat × Bool × State)
  | [] => .ok ([], false, s)
  | l :: r => do
    let (a, bad, s) ← if kKind l.node == 5 then s.netAlbedo rd l.node iz
      else Except.ok (Clo.one, false, s)
    let (as, b, s) ← s.albedos rd iz r
    .ok (a :: as, bad || b, s)

/-- s_k of every lobe. -/
def selection (ls : List LobeHit) (rho : List Nat) : List Nat :=
  let mean (w : List Nat) : Nat :=
    Clo.mul (Clo.add (Clo.add (w.getD 0 0) (w.getD 1 0)) (Clo.add (w.getD 2 0) (w.getD 3 0)))
      0x3E800000
  let qs := List.zipWith (fun (l : LobeHit) r => Clo.mul (Clo.max0 (mean l.ws)) r) ls rho
  match qs with
  | [] => []
  | q :: r =>
    let tot := r.foldl Clo.add q
    if Clo.zero tot || !Arith.isFinite .f32 tot then qs.map fun _ => 0
    else qs.map fun x => Clo.div x tot

/-- Sums of the lobes' values and densities. -/
def State.sumLobes (s : State) (rd : Reader) (i o : Vec3) :
    List (LobeHit × Nat) → List Nat → Nat → Except (TableStop × State) (List Nat × Nat × State)
  | [], val, pdf => .ok (val, pdf, s)
  | (l, sk) :: r, val, pdf => do
    let (vs, p, s) ← s.lobeEval rd l.node i o
    s.sumLobes rd i o r
      (List.zipWith (fun v p => Clo.fma p.1 p.2 v) val (l.wv.zip vs)) (Clo.fma sk p pdf)

/-- eval(root, i, o): value, density and badtab. -/
def State.kEval (s : State) (rd : Reader) (ks : List KReg) (root : Nat) (i o : Vec3) :
    Except (TableStop × State) (List Nat × Nat × Bool × State) := do
  match kLobes ks root i.z o.z with
  | .error _ => .ok ([0, 0, 0, 0], 0, false, s)
  | .ok ls =>
    let (rho, bad, s) ← s.albedos rd i.z ls
    if badDirs i o then .ok ([0, 0, 0, 0], 0, bad, s)
    else
      let (val, pdf, s) ← s.sumLobes rd i o (ls.zip (selection ls rho)) [0, 0, 0, 0] 0
      .ok (val, pdf, bad, s)

/-- The lobe that u1 chooses, and C of the one before it. -/
def chooseLobe (sel : List Nat) (u1 : Nat) : Option (Nat × Nat) :=
  let rec go : List Nat → Nat → Nat → Option (Nat × Nat) → Option (Nat × Nat)
    | [], _, _, last => last
    | s :: r, k, c, last =>
      let c' := if k == 0 then s else Clo.add c s
      let before := if k == 0 then 0 else c
      if Clo.lt u1 c' then some (k, before)
      else go r (k + 1) c' (if Clo.lt 0 s then some (k, before) else last)
  go sel 0 0 none

/-- A lobe's map. -/
def State.lobeMap (s : State) (rd : Reader) (k : KReg) (i : Vec3) (u1 u2 u3 : Nat) :
    Except (TableStop × State) (Vec3 × Bool × State) := do
  match kKind k with
  | 2 =>
    let al := kField k 91 32
    .ok (reflect i (ggxMap (Clo.mul al al) u2 u3), false, s)
  | 3 =>
    let (o, r) := dielectricMap k i u1 u2 u3
    .ok (o, r, s)
  | 5 => do
    let (o, s) ← s.netMap rd k i u2 u3
    .ok (o, false, s)
  | _ => .ok (cosineMap u2 u3, false, s)

/-- What KSAMPLE writes: direction, density, value and status word. -/
structure Sampled where
  o : Vec3
  pdf : Nat
  val : List Nat
  status : Word

/-- A part of KSAMPLE after the choice of a lobe: where it is poisoned, the status names the lobe. -/
def poisonedAs {α : Type} (status : Word) (r : Except (TableStop × State) α) : Except (TableStop × State) α :=
  match r with
  | .error (.poison none, s) => .error (.poison (some status), s)
  | r => r

/-- KSAMPLE (R253, R259). -/
def State.kSample (s : State) (rd : Reader) (ks : List KReg) (root : Nat) (i u : Vec3) :
    Except (TableStop × State) (Sampled × State) := do
  let u := u.map remap
  match kLobes ks root i.z Clo.one with
  | .error _ => .ok (⟨⟨0, 0, 0⟩, 0, [0, 0, 0, 0], 0⟩, s)
  | .ok ls =>
    let (rho, bad, s) ← s.albedos rd i.z ls
    let sel := selection ls rho
    let status (result kind lobe : Nat) (refr zpdf : Bool) : Word :=
      BitVec.ofNat 32 (result * 2 ^ 28 + kind * 2 ^ 24 + lobe * 2 ^ 20 + b2n refr * 2 ^ 19 +
        b2n bad * 2 ^ 18 + b2n zpdf * 2 ^ 17)
    match if sel.all Clo.zero then none else chooseLobe sel u.x with
    | none => .ok (⟨⟨0, 0, 0⟩, 0, [0, 0, 0, 0], status 1 0 0 false true⟩, s)
    | some (k, c) =>
      let node := (ls.map (·.node)).getD k 0
      let u1 := remap (Clo.div (Clo.sub u.x c) (sel.getD k 0))
      let (o, refr, s) ← poisonedAs (status 3 (kKind node) k false false) (s.lobeMap rd node i u1 u.y u.z)
      let (val, pdf, _, s) ← poisonedAs (status 3 (kKind node) k refr false) (s.kEval rd ks root i o)
      .ok (⟨o, pdf, val, status 0 (kKind node) k refr (pdf == 0)⟩, s)

end Sys2Proof.Machine
end

