-- ==== Sys2Proof/Machine/Closure.lean ====
section
/-! DEFINITION. Closure.lean: the meanings of group 0xD and the completion of its evaluations (R242
to R264). -/

namespace Sys2Proof.Machine

/-! ## Free registers and subtrees (R244) -/

def kAt (ks : List KReg) (n : Nat) : KReg := ks.getD n 0

/-- Some resident combinator names the register. -/
def kNamed (ks : List KReg) (n : Nat) : Bool := ks.any fun k => decide (n ∈ kChildren k)

def kFree (ks : List KReg) (n : Nat) : Bool := kAt ks n == 0 && !kNamed ks n

/-- A register and every non-empty one reachable from it, parents first; none for an empty root. -/
def kSubtree (ks : List KReg) : Nat → Nat → List Nat
  | 0, _ => []
  | f + 1, n =>
    if kAt ks n == 0 then []
    else n :: (kChildren (kAt ks n)).flatMap (kSubtree ks f)

def kNodes (ks : List KReg) (root : Nat) : List Nat := kSubtree ks 17 root

/-- The number of a k register field. -/
def kNum : Opd → Nat
  | .k n => n.val
  | _ => 0

def Thread.kl (t : Thread) : List KReg := t.kregs.toList

/-- Change one k register. -/
def Thread.modK (t : Thread) (n : Nat) (f : KReg → KReg) : Thread :=
  if h : n < 16 then { t with kregs := t.kregs.set n (f t.kregs[n]) } else t

/-- Registers that may be children together of a destination (R244). -/
def Thread.childrenOk (t : Thread) (d a b : Opd) : Bool :=
  let ok (o : Opd) : Bool := t.kreg o != 0 && !kOwned (t.kreg o)
  ok a && ok b && a != b && a != d && b != d

/-- Steps 2 and 3 of a builder (R257). -/
def Thread.build (t : Thread) (pd : Fin 8) (d : Opd) (node : KReg) : Thread :=
  if !kFree t.kl (kNum d) then (t.setPred pd false).advance
  else
    let t := (kChildren node).foldl (fun t n => t.modK n fun k => kSetOwned k true) t
    ((t.setKreg d node).setPred pd true).advance

/-! ## Parameters (R257) -/

def f32At (t : Thread) (o : Opd) : Nat := (t.reg o).bits.toNat

/-- Four consecutive words. -/
def Thread.four (t : Thread) (o : Opd) : List Nat := (Opd.span o 4).map (f32At t)

def clampUnit (x : Nat) : Nat := if Arith.isNan .f32 x then 0 else Clo.clamp 0 Clo.one x

/-- Alpha in [2⁻¹⁰, 1]; NaN gives 1.0. -/
def clampAlpha (x : Nat) : Nat := if Arith.isNan .f32 x then Clo.one else Clo.clamp 0x3A800000 Clo.one x

/-- Eta; NaN, not above 0 and infinite give 1.0. -/
def fixEta (x : Nat) : Nat := if !Arith.isFinite .f32 x || !Clo.lt 0 x then Clo.one else x

def maxZero (x : Nat) : Nat := if Arith.isNan .f32 x then 0 else Clo.max0 x

def weightOne : List Nat := [Clo.one, Clo.one, Clo.one, Clo.one]

/-! ## Builders -/

/-- KCLR (R256). -/
def Thread.kclr (t : Thread) (mask : BitVec 16) : Thread :=
  let orphans := (t.kl.zipIdx.filter fun p => mask.getLsbD p.2).flatMap fun p => kChildren p.1
  let t := orphans.foldl (fun t n => t.modK n fun k => kSetOwned k false) t
  ((List.range 16).foldl (fun t n => if mask.getLsbD n then t.modK n fun _ => 0 else t) t).advance

/-- KCLR. -/
def execKclr (x : KclrOp) (s : State) : Host.Outcome State Fault Refusal :=
  .next (s.runLocal x.ctl fun t => .ok (t.kclr x.mask))

/-- KLOBE of one thread: tags, the wave, the table's alignment (R59, R257). -/
def Thread.klobe (t : Thread) (x : KlobeOp) : Except Trap Thread := do
  t.needAll 0x20 x.a (Opd.span x.a 4)
  let w := t.four x.a
  let b1 := Opd.plus x.b 1
  match x.lobe with
  | .diff => .ok (t.build x.pd x.d (kNode w 1 false 0))
  | .sheen => .ok (t.build x.pd x.d (kNode w 4 false 0))
  | .diel =>
    t.needAll 0x20 x.b [x.b, b1]
    .ok (t.build x.pd x.d (kNode w 3 false
      (clampAlpha (f32At t x.b) * 2 ^ 91 + fixEta (f32At t b1) * 2 ^ 59)))
  | .cond =>
    t.needAll 0x20 x.b [x.b]
    t.needAll 0 x.b [b1, Opd.plus x.b 2, Opd.plus x.b 3]
    let wave := f32At t b1
    let tab := (t.pair (Opd.plus x.b 2)).toNat
    if wave ≥ 64 then .error (.illegal x.d.enc)
    else if tab % 2048 != 0 then .error (.fault causeMisaligned x.d.enc)
    else .ok (t.build x.pd x.d (kNode w 2 false
      (clampAlpha (f32At t x.b) * 2 ^ 91 + wave * 2 ^ 85 + bits tab 47 11 * 2 ^ 48)))

/-- KLOBE. -/
def execKlobe (x : KlobeOp) (s : State) : Host.Outcome State Fault Refusal :=
  .next (s.runLocal x.ctl fun t => t.klobe x)

/-- KNET of one thread. -/
def Thread.knet (t : Thread) (x : KabOp) : Except Trap Thread := do
  t.needAll 0x20 x.a (Opd.span x.a 4)
  t.need true x.b 0
  let tab := (t.pair x.b).toNat
  if tab % 64 != 0 then .error (.fault causeMisaligned x.d.enc)
  else .ok (t.build x.pd x.d (kNode (t.four x.a) 5 false (bits tab 47 6 * 2 ^ 81)))

/-- KNET. -/
def execKnet (x : KabOp) (s : State) : Host.Outcome State Fault Refusal :=
  .next (s.runLocal x.ctl fun t => t.knet x)

/-- The child fields of a combinator's body. -/
def childBits (a b : Opd) : Nat := kNum a * 2 ^ 119 + kNum b * 2 ^ 115

/-- KADD. -/
def execKadd (x : KabOp) (s : State) : Host.Outcome State Fault Refusal :=
  .next (s.runLocal x.ctl fun t =>
    if !t.childrenOk x.d x.a x.b then .error (.illegal x.d.enc)
    else .ok (t.build x.pd x.d (kNode weightOne 8 false (childBits x.a x.b))))

/-- KMIX. -/
def execKmix (x : KabcOp) (s : State) : Host.Outcome State Fault Refusal :=
  .next (s.runLocal x.ctl fun t => do
    t.need false x.c 0x20
    if !t.childrenOk x.d x.a x.b then .error (.illegal x.d.enc)
    else .ok (t.build x.pd x.d (kNode weightOne 9 false
      (childBits x.a x.b + clampUnit (f32At t x.c) * 2 ^ 83))))

/-- KCOAT: the top is a lobe (R244). -/
def execKcoat (x : KabcOp) (s : State) : Host.Outcome State Fault Refusal :=
  .next (s.runLocal x.ctl fun t => do
    t.needAll 0x20 x.c (Opd.span x.c 3)
    let top := kKind (t.kreg x.a)
    if !t.childrenOk x.d x.a x.b || !(decide (1 ≤ top) && decide (top ≤ 5)) then
      .error (.illegal x.d.enc)
    else
      let ab := Clo.mul (maxZero (f32At t (Opd.plus x.c 1))) (maxZero (f32At t (Opd.plus x.c 2)))
      .ok (t.build x.pd x.d (kNode weightOne 10 false
        (childBits x.a x.b + clampUnit (f32At t x.c) * 2 ^ 83 + ab * 2 ^ 51))))

/-- KSCL (R258). -/
def execKscl (x : DaOp) (s : State) : Host.Outcome State Fault Refusal :=
  .next (s.runLocal x.ctl fun t => do
    t.needAll 0x20 x.a (Opd.span x.a 4)
    let k := t.kreg x.d
    if k == 0 then .error (.illegal x.d.enc)
    else
      .ok (t.setKreg x.d
        (kSetWeights k (List.zipWith Clo.mul (kWeights k) (t.four x.a)))).advance)

/-! ## Evaluations (R259) -/

/-- Accept an evaluation: the k registers and the span as they stand at issue. -/
def State.issueClosure (s : State) (x : KevalOp) (i : Instr) : State :=
  s.runUnless x.ctl (countFull .load) fun s id t => do
    t.needAll 0x20 x.b (Opd.span x.b 6)
    let span := t.spanWords x.b 6
    match kLobes t.kl (kNum x.a) Clo.one Clo.one with
    | .error n => .error (.notResident (if h : n < 16 then .k ⟨n, h⟩ else x.a))
    | .ok _ =>
      .ok ((s.addOp { th := id, pc := t.pc, field := x.d.enc, issued := s.cycle, due := s.cycle,
                      stop := none, fctl := t.fctl, kind := .closure i t.kl span }).setThread id
            (t.countUp .load).advance)

/-- KSAMPLE. -/
def execKsample (x : KevalOp) (s : State) : Host.Outcome State Fault Refusal :=
  .next (s.issueClosure x (.ksample x))

/-- KEVAL. -/
def execKeval (x : KevalOp) (s : State) : Host.Outcome State Fault Refusal :=
  .next (s.issueClosure x (.keval x))

/-- KPDF. -/
def execKpdf (x : KevalOp) (s : State) : Host.Outcome State Fault Refusal :=
  .next (s.issueClosure x (.kpdf x))

/-- FP32 words with tag 0x20 from a register upward. -/
def f32Writes (d : Opd) (vs : List Nat) : List (Nat × VReg) :=
  match d with
  | .v n => vs.zipIdx.map fun p => (n.val + p.2, ⟨BitVec.ofNat 32 p.1, 0x20⟩)
  | _ => []

/-- KSAMPLE's nine words. -/
def sampleWrites (d : Opd) (fs : List Nat) (status : Word) : List (Nat × VReg) :=
  f32Writes d fs ++ (match d with
    | .v n => [(n.val + 8, ⟨status, 0⟩)]
    | _ => [])

/-- The status of a poisoned KSAMPLE: result 0x3 and the chosen lobe; where no lobe was chosen yet, what a
lobe would say is free (log entry 5). -/
def poisonStatus (chosen : Option Word) (free : Nat) : Word :=
  chosen.getD (0x30000000 ||| (Config.freeWord free &&& 0x0FFC0000))

/-- The poison result (R259). -/
def poisonWrites (i : Instr) (chosen : Option Word) (free : Nat) : List (Nat × VReg) :=
  let nan := 0x7FC00000
  match i with
  | .ksample x => sampleWrites x.d (List.replicate 8 nan) (poisonStatus chosen free)
  | .keval x => f32Writes x.d (List.replicate 4 nan)
  | .kpdf x => f32Writes x.d [nan]
  | _ => []

/-- What an evaluation writes. -/
def State.closureDone (s : State) (rd : Reader) (i : Instr) (ks : List KReg)
    (span : List Word) : Except (TableStop × State) Completion :=
  let s := s.modOp rd.op fun o => { o with readAt := 0 }
  let ws := span.map BitVec.toNat
  let (p, q) := (Vec3.ofList ws, Vec3.ofList (ws.drop 3))
  match i with
  | .ksample x => do
    let (r, s) ← s.kSample rd ks (kNum x.a) p q
    .ok ⟨sampleWrites x.d ([r.o.x, r.o.y, r.o.z, r.pdf] ++ r.val) r.status, s⟩
  | .keval x => do
    let (v, _, _, s) ← s.kEval rd ks (kNum x.a) p q
    .ok ⟨f32Writes x.d v, s⟩
  | .kpdf x => do
    let (_, pdf, _, s) ← s.kEval rd ks (kNum x.a) p q
    .ok ⟨f32Writes x.d [pdf], s⟩
  | _ => .ok ⟨[], s⟩

/-- CLOSURE_OP_COMPLETE (R255, R259): a table byte that cannot be translated stops the operation on
the fault queue; an uncorrectable or revoked line gives the poison result. -/
def execClosureOpComplete (th : ThreadId) (op : Nat) (s : State) :
    Host.Outcome State Fault Refusal :=
  match s.op op with
  | some o =>
    match o.kind with
    | .closure i ks span =>
      if o.th ≠ th ∨ o.stop.isSome then .next s
      else
        let acq := match s.thread th with
          | some t => t.acqTs
          | none => 0
        match s.closureDone ⟨th, acq, op⟩ i ks span with
        | .error (.fault hv cause va, s) => .next (s.stopUnit op o hv cause va)
        | .error (.poison w, s) =>
          .next ({ s with free := s.free + 1 }.landed op o (poisonWrites i w s.free) 0 id)
        | .ok r => .next (r.s.landed op o r.writes 0 id)
    | _ => .next s
  | none => .next s

/-! ## Spilling and filling (R261, R262) -/

def State.kspillSets (s : State) (id : ThreadId) : Nat :=
  match s.kdesc id.launch with
  | some k => k.kspill
  | none => 0

/-- The address of a spill set in private memory. -/
def State.spillAddr (s : State) (id : ThreadId) (set : Nat) : Nat := s.stackBytes id + 512 * set

/-- The bytes of a set: each node of the subtree at its register's slot. -/
def setBytes (ks : List KReg) (sub : List Nat) : List Byte :=
  (List.range 16).flatMap fun r => toLE (if r ∈ sub then (kAt ks r).toNat else 0) 32

/-- The reference that KSPILL leaves in the root. -/
def kReference (set slot : Nat) (owned : Bool) : KReg :=
  kNode weightOne 15 owned (set * 2 ^ 115 + slot * 2 ^ 111)

/-- KSPILL. -/
def execKspill (x : KspillOp) (s : State) : Host.Outcome State Fault Refusal :=
  .next (s.runUnless x.ctl (countFull .store) fun s id t => do
    t.need false x.b 0
    let root := kNum x.a
    let set := f32At t x.b
    if t.kreg x.a == 0 then .error (.illegal 0xFF)
    else if set ≥ s.kspillSets id then .error (.fault causeRange 0xFF)
    else do
      let (_, s) ← s.privAccess id t (s.spillAddr id set) 512 .write
      let sub := kNodes t.kl root
      let bs := setBytes t.kl sub
      let cleared := sub.foldl (fun t n => t.modK n fun _ => 0) t
      let t' := cleared.setKreg x.a (kReference set root (kOwned (t.kreg x.a)))
      .ok (s.startPrivate id t' (s.spillAddr id set) bs))

/-- The nodes of a set's bytes. -/
def setNodes (bs : List Byte) : List KReg :=
  (List.range 16).map fun r => BitVec.ofNat 256 (leNat ((bs.drop (32 * r)).take 32))

/-- The set may be restored from a root slot (R262). -/
def setOk (ns : List KReg) (root : Nat) : Bool :=
  let used := (List.range 16).filter fun r => kAt ns r != 0
  let reached := kNodes ns root
  kAt ns root != 0 && used.all (fun r => kValid (kAt ns r)) &&
    used.all (fun r => (kChildren (kAt ns r)).all fun c => kAt ns c != 0) &&
    used.all fun r => (reached.filter (· == r)).length == 1

/-- A node with its child fields sent through a map. -/
def kRemap (m : Nat → Nat) (k : KReg) : KReg :=
  match kChildren k with
  | [a, b] =>
    (k &&& ~~~((0xFF : KReg) <<< 115)) ||| BitVec.ofNat 256 (m a * 2 ^ 119 + m b * 2 ^ 115)
  | _ => k

/-- Restore a set over the reference in `root` (R262 steps 1 to 4). -/
def Thread.fill (t : Thread) (pd : Fin 8) (ref : Opd) (ns : List KReg) (rootSlot : Nat) : Thread :=
  let k := t.kreg ref
  let others := (List.range 16).filter fun r => kAt ns r != 0 && r != rootSlot
  let free := (List.range 16).filter fun r => kFree t.kl r
  if free.length < others.length then (t.setPred pd false).advance
  else
    let pairs := others.zip free
    let m (r : Nat) : Nat := if r == rootSlot then kNum ref else (tget pairs r).getD 0
    let t' := pairs.foldl (fun t p => t.modK p.2 fun _ => kRemap m (kAt ns p.1)) t
    let node := kRemap m (kAt ns rootSlot)
    let node := kSetOwned
      (kSetWeights node (List.zipWith Clo.mul (kWeights node) (kWeights k))) (kOwned k)
    ((t'.setKreg ref node).setPred pd true).advance

/-- KFILL. The thread's own private stores come first (R92, R264). -/
def execKfill (x : KfillOp) (s : State) : Host.Outcome State Fault Refusal :=
  .next (s.runGang x.ctl fun s id t =>
    let k := t.kreg x.a
    if kKind k != 15 then .error (.illegal 0xFF)
    else do
      let a := s.spillAddr id (kField k 115 8)
      let (ok, s) ← s.privAccess id t a 512 .read
      let ns := setNodes (memReadN (s.privView id t) a 512)
      let root := kField k 111 4
      if !ok then .ok (s.readFailure id)
      else if !setOk ns root then .error (.illegal 0xFF)
      else .ok (s.setThread id (t.fill x.pd x.a ns root)))

/-! ## Inquiry (R263) -/

/-- The node word. -/
def kinfoNode (k : KReg) : Nat :=
  let kind := kKind k
  let (ca, cb) := match kChildren k with
    | [a, b] => (a, b)
    | _ => (0, 0)
  let (set, slot) := if kind == 15 then (kField k 115 8, kField k 111 4) else (0, 0)
  kind * 2 ^ 28 + b2n (kOwned k) * 2 ^ 27 + ca * 2 ^ 23 + cb * 2 ^ 19 + set * 2 ^ 11 + slot * 2 ^ 7

/-- KINFO. -/
def execKinfo (x : KinfoOp) (s : State) : Host.Outcome State Fault Refusal :=
  .next (s.runLocal x.ctl fun t =>
    let w := match x.query with
      | .node => kinfoNode (t.kreg x.a)
      | .free => (List.range 16).foldl (fun m r => m + b2n (kFree t.kl r) * 2 ^ r) 0
      | .size => (kNodes t.kl (kNum x.a)).length
    .ok (t.setReg x.d ⟨BitVec.ofNat 32 w, 0⟩).advance)

end Sys2Proof.Machine
end

