-- ==== Sys2Proof/Machine/Bins.lean ====
section
/-! DEFINITION. Bins.lean: the bin instructions of group 0xE (R291 to R295). -/

namespace Sys2Proof.Machine

/-! ## Bins of a course -/

def State.bin (s : State) (co : CourseId) (n : Nat) : Bin :=
  match s.course co with
  | some c => c.bins.getD n ⟨[], 0⟩
  | none => ⟨[], 0⟩

def State.setBin (s : State) (co : CourseId) (n : Nat) (b : Bin) : State :=
  s.modCourse co fun c => { c with bins := setAt c.bins n b }

def State.binCount (s : State) (co : CourseId) : Nat :=
  match s.course co with
  | some c => c.bins.length
  | none => 0

/-- Tiles in use by any bin of a course. -/
def Course.usedTiles (c : Course) : List TileRef := c.bins.flatMap (·.tiles)

/-- The lowest free pool tile, else the lowest free area tile (R293). -/
def Course.freeTile (c : Course) : Option TileRef :=
  let used := c.usedTiles
  match (List.range c.pool.length).find? fun i => TileRef.pool i ∉ used with
  | some i => some (.pool i)
  | none =>
    let n := match c.area with
      | some (_, n) => n
      | none => 0
    ((List.range n).find? fun i => TileRef.area i ∉ used).map TileRef.area

/-- A bin number: its tag, then its range (R282). -/
def State.binArg (s : State) (id : ThreadId) (t : Thread) (b : Src) (d : BitVec 8) :
    Except Trap Nat := do
  t.needSrc false b 0
  let n := t.word b
  if n ≥ s.binCount (courseOf id) then .error (.illegal d) else .ok n

/-- A TSORT or TCOMP holds the bin (R292). -/
def State.binBusy (s : State) (co : CourseId) (n : Nat) : Bool :=
  (s.opsOf co).any fun p => match p.2.kind with
    | .binSort b _ => b == n
    | _ => false

def binHeld (b : Src) : State → ThreadId → Thread → Bool := fun s id t =>
  match s.binArg id t b 0xFF with
  | .ok n => s.binBusy (courseOf id) n
  | .error _ => false

/-- A bin instruction's part for one thread: a tile that cannot be translated is a fault with access
0b11; a lost one rolls the course back (R295, R337). -/
def State.binAct (s : State) (id : ThreadId) (t : Thread) (r : Except BinFail State) :
    Except Trap State :=
  match r with
  | .ok s' => .ok s'
  | .error (.fault hv cause va) => .error (.memory hv cause 3 (BitVec.ofNat 64 va))
  | .error .lost => .ok (s.courseFailure (courseOf id) 0x04 t.pc id.cthr)

/-! ## YIELDB (R293) -/

/-- Outstanding operations of the load class. -/
def OpKind.isLoad : OpKind → Bool
  | .load _ => true
  | .atomic .. => true
  | .traverse .. => true
  | .closure .. => true
  | _ => false

/-- YIELDB waits for stores, copies, tile operations and divisions, and for loads into v(n) and
above. -/
def State.yieldHeld (s : State) (id : ThreadId) (t : Thread) (n : Nat) : Bool :=
  t.stores != 0 || t.copies != 0 || t.tileOps != 0 ||
    (s.opsOfThread id).any fun p => match p.2.kind with
      | .divide _ _ => true
      | k => k.isLoad && k.dests.any fun r => decide (n ≤ r)

/-- The encoding of a predicate field (R53). -/
def predEnc (p : Fin 8) : BitVec 8 := BitVec.ofNat 8 p.val

/-- The checks before the wait. -/
def State.yieldCheck (s : State) (id : ThreadId) (t : Thread) (x : YieldbOp) : Except Trap Nat := do
  t.needSrc false x.bin 0
  if x.n.toNat > s.regCount id then .error (.illegal (predEnc x.pd))
  else
    let bin ← s.binArg id t x.bin (predEnc x.pd)
    if !t.holds.isEmpty || t.wreg.isSome then .error (.illegal (predEnc x.pd))
    else .ok bin

/-- The row that a thread leaves. -/
def State.yieldRow (s : State) (id : ThreadId) (t : Thread) (x : YieldbOp) : RowHeader × List Word :=
  let n := x.n.toNat
  let regs := (t.regs.toList.take 32).zipIdx
  let pend := (s.opsOfThread id).filter fun p => p.2.kind.isLoad && !p.2.kind.dests.isEmpty
  ({ tags := regs.map fun p => if p.2 < n then p.1.tag else 0, gen := t.gen, cso := t.cso,
     pc := t.pc + 1, cthr := id.cthr, n := n, preds := t.preds, prio := t.prio, fctl := t.fctl,
     fflags := t.fflags, need := x.need, have_ := 0, pend := pend.length, live := true },
    regs.map fun p => if p.2 < n then p.1.bits else 0)

/-- The thread leaves its slot: crews, monitor, closure registers and window are gone. -/
def State.leaveSlot (s : State) (id : ThreadId) (t : Thread) : State :=
  let s := (s.dropWatch id).modCourse (courseOf id) fun c =>
    { c with rowPriv := tput c.rowPriv id.cthr t.priv }
  { s with threads := tdel s.threads id }

/-- Put the row in the bin's next place; `pd` is false when no tile is free. -/
def State.yieldb (s : State) (id : ThreadId) (t : Thread) (x : YieldbOp) (bin : Nat) :
    Except BinFail State := do
  let co := courseOf id
  let b := s.bin co bin
  let place : Option (TileRef × Nat × Bin) :=
    match b.tiles.getLast? with
    | some ref =>
      if b.nextRow < 32 then some (ref, b.nextRow, { b with nextRow := b.nextRow + 1 }) else none
    | none => none
  let place := match place with
    | some p => some p
    | none => ((s.course co).bind Course.freeTile).map fun ref =>
        (ref, 0, ⟨b.tiles ++ [ref], 1⟩)
  match place with
  | none => .ok (s.setThread id (t.setPred x.pd false).advance)
  | some (ref, r, b') =>
    let (h, ws) := s.yieldRow id t x
    let s ← s.tileWrite co ref (128 * r) (rowBytes ws)
    let s ← s.writeHeader co ⟨ref, r, h⟩
    .ok ((s.setBin co bin b').leaveSlot id t)

/-- YIELDB. -/
def execYieldb (x : YieldbOp) (s : State) : Host.Outcome State Fault Refusal :=
  .next (s.runUnless x.ctl
    (fun s id t => match s.yieldCheck id t x with
      | .ok n => s.binBusy (courseOf id) n || s.yieldHeld id t x.n.toNat
      | .error _ => false)
    fun s id t => do
      let bin ← s.yieldCheck id t x
      s.binAct id t (s.yieldb id t x bin))

/-! ## RESUME (R294) -/

/-- The lowest reserved thread slot of a course that no thread holds. -/
def State.freeThreadSlot (s : State) (co : CourseId) (c : Course) : Nat :=
  let used := (s.threadsOf co).map (·.2.slot)
  (c.slots.find? fun n => n ∉ used).getD 0

/-- The priority ceiling of a context (R16). -/
def State.ceilingOf (s : State) (ctx : Nat) : BitVec 3 :=
  match s.ctx ctx with
  | some x => x.ceiling
  | none => 7

def capPrio (p c : BitVec 3) : BitVec 3 := if c < p then c else p

/-- Start the thread of an awake row, with an area of private memory that the free number names (R182). -/
def State.startRow (s : State) (co : CourseId) (cohort : Nat) (x : RowAt) : Except BinFail State := do
  let (ws, s) ← s.readRow co x.tile x.row
  let s ← s.writeHeader co { x with hdr := { x.hdr with live := false } }
  match s.course co with
  | none => .ok s
  | some c =>
    let h := x.hdr
    let id : ThreadId := ⟨co.launch, co.course, h.cthr⟩
    let writes := (ws.zip h.tags).zipIdx.filterMap fun p =>
      if p.2 < h.n then some (p.2, (⟨p.1.1, p.1.2⟩ : VReg)) else none
    let t : Thread :=
      { Thread.fresh.writeRegs writes with
        pc := h.pc, preds := h.preds, prio := capPrio h.prio (s.ceilingOf c.ctx), fctl := h.fctl,
        fflags := h.fflags, gen := h.gen, cso := h.cso, acqTs := s.gts,
        priv := (tget c.rowPriv h.cthr).getD [], area := Config.privateAddr s.free, await := .starting (s.cycle + 40),
        slot := s.freeThreadSlot co c, since := (s.core c.core).picks, cohort := some cohort }
    let s := { s with free := s.free + 1 }
    .ok (((s.setCourse co { c with rowPriv := tdel c.rowPriv h.cthr }).setThread id t).checkTags id)

def State.startRows (s : State) (co : CourseId) (cohort : Nat) : List RowAt → Except BinFail State
  | [] => .ok s
  | x :: r => do
    let s ← s.startRow co cohort x
    s.startRows co cohort r

/-- Resume the awake rows of a bin's head tile: their number. -/
def State.resumeBin (s : State) (co : CourseId) (bin : Nat) : Except BinFail (Nat × State) := do
  let b := s.bin co bin
  match b.tiles with
  | [] => .ok (0, s)
  | ref :: rest =>
    let used := if rest.isEmpty then b.nextRow else 32
    let (rows, s) ← s.liveAt co ((List.range used).map fun r => (ref, r))
    let awake := rows.filter fun x => x.hdr.awake
    let (cohort, s) := s.fresh
    let s ← s.startRows co cohort awake
    let s := if awake.length == rows.length && (used == 32 || !rest.isEmpty) then
      s.setBin co bin { b with tiles := rest } else s
    .ok (awake.length, s)

/-- RESUME. -/
def execResume (x : DbOp) (s : State) : Host.Outcome State Fault Refusal :=
  .next (s.runUnless x.ctl (binHeld x.b) fun s id t => do
    let bin ← s.binArg id t x.b x.d.enc
    s.binAct id t (do
      let (n, s) ← s.resumeBin (courseOf id) bin
      .ok (s.setThread id (t.setReg x.d ⟨BitVec.ofNat 32 n, 0⟩).advance)))

/-- The lowest-numbered bin whose head tile has an awake row, and whether some row anywhere can still
wake. -/
def State.autoBin (s : State) (co : CourseId) :
    List Nat → Except BinFail (Option Nat × Bool × State)
  | [] => .ok (none, false, s)
  | n :: rest => do
    let (rows, s) ← s.liveRows co n
    let head := (s.bin co n).tiles.head?
    let can := rows.any fun x => x.hdr.awake || x.hdr.pend != 0
    if rows.any fun x => x.hdr.awake && some x.tile == head then .ok (some n, true, s)
    else
      let (b, c, s) ← s.autoBin co rest
      .ok (b, can || c, s)

/-- Some bin of a course holds a live row; a tile out of reach counts as one. -/
def State.anyLive (s : State) (co : CourseId) : Bool :=
  (List.range (s.binCount co)).any fun n => match s.liveRows co n with
    | .ok (rows, _) => !rows.isEmpty
    | .error _ => true

/-- The bin that the core would resume is held by a sort (R292). -/
def State.autoHeld (s : State) (co : CourseId) : Bool :=
  match s.autoBin co (List.range (s.binCount co)) with
  | .ok (some n, _, _) => s.binBusy co n
  | _ => false

/-- BIN_AUTO_RESUME: the core resumes rows of a course whose thread slots are all free; a course
without a row that can wake is stranded (R294). -/
def State.autoResume (s : State) (co : CourseId) (c : Course) : State :=
  let fail (f : BinFail) : State := match f with
    | .lost => s.courseFailure co 0x04 0 0
    | .fault hv cause va =>
      let (tk, s) := s.enterFault hv (s.partOf c.ctx) (coreCluster c.core)
        (faultEntry va s.gts co.course 0 c.ctx 0 cause 3 hv)
      s.modCourse co fun c => { c with binStop := some tk }
  match s.autoBin co (List.range c.bins.length) with
  | .error f => fail f
  | .ok (some n, _, s) =>
    if s.binBusy co n then s
    else match s.resumeBin co n with
    | .error f => fail f
    | .ok (_, s) => s
  | .ok (none, true, s) => s
  | .ok (none, false, s) =>
    if c.stranded then s
    else
      (s.modCourse co fun c => { c with stranded := true }).pushEvent (s.partOf c.ctx)
        { src := coreCluster c.core, gts := s.gts, course := co.course, ctx := c.ctx, type := 0x06 }

/-- BIN_AUTO_RESUME. -/
def execBinAutoResume (co : CourseId) (s : State) : Host.Outcome State Fault Refusal :=
  match s.course co with
  | some c =>
    let halted := match s.ctx c.ctx with
      | some x => x.rung == .halting
      | none => false
    if c.core ≠ noCore ∧ !halted ∧ (s.threadsOf co).isEmpty ∧ c.binStop.isNone ∧ s.anyLive co then .next (s.autoResume co c)
    else .next s
  | none => .next s

/-! ## WAKE and BINQ (R295) -/

/-- Set wake bits in rows of a bin. -/
def State.wakeRows (s : State) (co : CourseId) (mask : BitVec 4) : List RowAt → Except BinFail State
  | [] => .ok s
  | x :: r => do
    let s ← s.writeHeader co { x with hdr := { x.hdr with have_ := x.hdr.have_ ||| mask } }
    s.wakeRows co mask r

/-- WAKE. -/
def execWake (x : WakeOp) (s : State) : Host.Outcome State Fault Refusal :=
  .next (s.runUnless x.ctl (binHeld (.reg x.b)) fun s id t => do
    t.need false x.a 0
    let bin ← s.binArg id t (.reg x.b) (predEnc x.pd)
    let co := courseOf id
    s.binAct id t (do
      let (rows, s) ← s.liveRows co bin
      let rows := rows.filter fun r => (x.all || r.hdr.cthr == (t.reg x.a).bits.toNat) &&
        r.hdr.have_ ||| x.mask != r.hdr.have_
      let s ← s.wakeRows co x.mask rows
      .ok (s.setThread id (t.setPred x.pd (!rows.isEmpty)).advance)))

/-- BINQ.area: base and count, and no global tile in use (R59, R295). -/
def State.setArea (s : State) (id : ThreadId) (t : Thread) (a b : Opd) : Except Trap State := do
  t.need true a 0
  t.need false b 0
  let base := t.pair a
  let n := (t.reg b).bits.toNat
  let inUse := match s.course (courseOf id) with
    | some c => c.usedTiles.any fun r => match r with
      | .area _ => true
      | .pool _ => false
    | none => false
  if inUse then .error (.illegal 0xFF)
  else if base.toNat % 64 != 0 || n == 0 || n > 65535 then .error (.fault causeBadRecord 0xFF)
  else .ok ((s.modCourse (courseOf id) fun c => { c with area := some (base, n) }).setThread id
    t.advance)

/-- BINQ. -/
def execBinq (x : BinqOp) (s : State) : Host.Outcome State Fault Refusal :=
  .next (s.runUnless x.ctl (fun s id t => !x.area && binHeld (.reg x.b) s id t) fun s id t =>
    if x.area then s.setArea id t x.a x.b
    else do
      let bin ← s.binArg id t (.reg x.b) x.d.enc
      s.binAct id t (do
        let (rows, s) ← s.liveRows (courseOf id) bin
        let awake := rows.filter fun r => r.hdr.awake
        let w := awake.length * 2 ^ 16 + rows.length
        .ok (s.setThread id (t.setReg x.d ⟨BitVec.ofNat 32 w, 0⟩).advance)))

/-! ## TSORT and TCOMP (R295) -/

/-- The bin is held, or a row of it still has loads to land. -/
def sortHeld (b : Opd) : State → ThreadId → Thread → Bool := fun s id t =>
  countFull .tile s id t || (match s.binArg id t (.reg b) 0xFF with
    | .ok n => s.binBusy (courseOf id) n || (match s.liveRows (courseOf id) n with
      | .ok (rows, _) => rows.any fun r => r.hdr.pend != 0
      | .error _ => false)
    | .error _ => false)

/-- Start a sort: it completes 20 + 4 × (rows in the chain) cycles later. -/
def State.startSort (s : State) (c : Ctl) (b : Opd) (key : Option (Nat × Bool)) : State :=
  s.runEach c fun s id t =>
    if sortHeld b s id t then .ok none
    else do
      let bin ← s.binArg id t (.reg b) 0xFF
      some <$> s.binAct id t (do
        let (rows, s) ← s.liveRows (courseOf id) bin
        .ok ((s.addOp { th := id, pc := t.pc, field := 0xFF, issued := s.cycle,
                        due := s.cycle + 20 + 4 * rows.length, stop := none, fctl := t.fctl,
                        kind := .binSort bin key }).setThread id (t.countUp .tile).advance))

/-- TSORT. -/
def execTsort (x : TsortOp) (s : State) : Host.Outcome State Fault Refusal :=
  .next (s.startSort x.ctl x.b (some (x.col.toNat, x.desc)))

/-- TCOMP. -/
def execTcomp (x : AOp) (s : State) : Host.Outcome State Fault Refusal :=
  .next (s.startSort x.ctl x.a none)

/-- Headers and words of rows. -/
def State.loadRows (s : State) (co : CourseId) :
    List RowAt → Except BinFail (List (RowHeader × List Word) × State)
  | [] => .ok ([], s)
  | x :: r => do
    let (ws, s) ← s.readRow co x.tile x.row
    let (l, s) ← s.loadRows co r
    .ok ((x.hdr, ws) :: l, s)

/-- Write rows into the places of a chain, in order. -/
def State.storeRows (s : State) (co : CourseId) :
    List ((TileRef × Nat) × RowHeader × List Word) → Except BinFail State
  | [] => .ok s
  | ((ref, r), h, ws) :: rest => do
    let s ← s.tileWrite co ref (128 * r) (rowBytes ws)
    let s ← s.writeHeader co ⟨ref, r, h⟩
    s.storeRows co rest

/-- Order the rows: by key, or awake ones first; equal rows keep their order. -/
def orderRows (key : Option (Nat × Bool)) (rows : List (RowHeader × List Word)) :
    List (RowHeader × List Word) :=
  match key with
  | some (col, desc) =>
    let k (x : RowHeader × List Word) : Nat := (x.2.getD col 0).toNat
    sortBy (fun a b => if desc then decide (k b < k a) else decide (k a < k b)) rows
  | none => (rows.filter fun x => x.1.awake) ++ rows.filter fun x => !x.1.awake

/-- Sort a bin's live rows and free the tiles left without them. -/
def State.sortBin (s : State) (co : CourseId) (bin : Nat) (key : Option (Nat × Bool)) :
    Except BinFail State := do
  let (rows, s) ← s.liveRows co bin
  let (full, s) ← s.loadRows co rows
  let b := s.bin co bin
  let s ← s.storeRows co (b.places.zip (orderRows key full))
  let tiles := ceilDiv full.length 32
  .ok (s.setBin co bin ⟨b.tiles.take tiles, full.length - 32 * (tiles - 1)⟩)

/-- BIN_SORT_COMPLETE. -/
def execBinSortComplete (co : CourseId) (op : Nat) (s : State) : Host.Outcome State Fault Refusal :=
  match s.op op with
  | some o =>
    match o.kind with
    | .binSort bin key =>
      if courseOf o.th = co ∧ o.stop.isNone ∧ o.due ≤ s.cycle then
        match s.sortBin co bin key with
        | .ok s => .next ((s.delOp op).countDown o.th .tile)
        | .error (.fault hv cause va) => .next (s.stopOp op o hv cause va)
        | .error .lost => .next (s.courseFailure co 0x04 o.pc o.th.cthr)
      else .next s
    | _ => .next s
  | none => .next s

end Sys2Proof.Machine
end

