-- ==== Sys2Proof/Machine/Waits.lean ====
section
/-! DEFINITION. Waits.lean: monitors, holds and declared waits of group 0xE (R283 to R287). -/

namespace Sys2Proof.Machine

/-- VA of a line instruction: the pair's tag, then the sum. -/
def Thread.lineAddr (t : Thread) (a : Opd) (off : BitVec 12) : Except Trap DWord := do
  t.need true a 0
  .ok (t.pair a + sext64 off)

/-! ## Monitors (R283, R284) -/

/-- Lose the oldest watch of a die when it holds 4,096 (R283). -/
def State.roomForWatch (s : State) (die : Nat) : State :=
  match (s.die die).watches with
  | [] => s
  | old :: rest =>
    if rest.length + 1 < 4096 then s
    else
      (s.modDie die fun d => { d with watches := rest }).modThread old fun t =>
        { t with monitor := t.monitor.map fun m => { m with lost := true } }

/-- Arm a thread's monitor on the line of an address. -/
def State.arm (s : State) (id : ThreadId) (va : DWord) (pa : Nat) : State :=
  let die := (homeOf pa).getD (coreDie (s.coreOf id))
  let s := (s.dropWatch id).roomForWatch die
  let m : Monitor :=
    { line := va.toNat / 128, phys := pa / 128, stamp := s.gts, fired := false, lost := false }
  (s.modDie die fun d => { d with watches := d.watches ++ [id] }).modThread id fun t =>
    { t with monitor := some m }

/-- MONITOR. -/
def execMonitor (x : LineOp) (s : State) : Host.Outcome State Fault Refusal :=
  .next (s.runGang x.ctl fun s id t => do
    let va ← t.lineAddr x.a x.off
    let (pa, _, s) ← s.translateFor id va .read
    .ok ((s.setThread id t.advance).arm id va pa))

/-- MWAIT ends with a reason: the monitor is disarmed and v(d) written. -/
def State.endMwait (s : State) (id : ThreadId) (d : Opd) (reason : Nat) : State :=
  (s.dropWatch id).modThread id fun t =>
    { t.setReg d ⟨BitVec.ofNat 32 reason, 0⟩ with monitor := none }

/-- In a deterministic kernel MWAIT, WREG and HOLD are refused (R333). -/
def State.refuseDeterm (s : State) (id : ThreadId) (d : BitVec 8) : Except Trap Unit :=
  if s.determ id.launch then .error (.privilege d) else .ok ()

/-- MWAIT. -/
def execMwait (x : DbOp) (s : State) : Host.Outcome State Fault Refusal :=
  .next (s.runGang x.ctl fun s id t => do
    t.needSrc false x.b 0
    s.refuseDeterm id x.d.enc
    let lim := t.word x.b
    let done (reason : Nat) : Except Trap State :=
      .ok ((s.setThread id t.advance).endMwait id x.d reason)
    match t.monitor with
    | none => .ok (s.setThread id (t.setReg x.d ⟨2, 0⟩).advance)
    | some m =>
      if m.fired then done 0
      else if m.lost then done 1
      else if lim == 0 then done 3
      else
        s.beginWait id (.line (s.ctxOf id) m.line) x.d.enc fun t =>
          { t with await := .monitor x.d (if lim == 0xFFFFFFFF then none else some (s.gts + lim)) })

/-- A sleeping MWAIT ends (R284, R287). -/
def State.wakeMwait (s : State) (th : ThreadId) (d : Opd) (reason : Nat) : State :=
  ((s.dropSleep th).endMwait th d reason).wakeNext th

/-- MWAIT_WAKE: the watch has fired or is lost. -/
def execMwaitWake (th : ThreadId) (s : State) : Host.Outcome State Fault Refusal :=
  match s.thread th with
  | some t =>
    match t.await, t.monitor with
    | .monitor d _, some m =>
      if m.fired then .next (s.wakeMwait th d 0)
      else if m.lost then .next (s.wakeMwait th d 1)
      else .next s
    | _, _ => .next s
  | none => .next s

/-- MWAIT_TIMEOUT. -/
def execMwaitTimeout (th : ThreadId) (s : State) : Host.Outcome State Fault Refusal :=
  match s.thread th with
  | some t =>
    match t.await with
    | .monitor d (some lim) => if lim ≤ s.gts then .next (s.wakeMwait th d 3) else .next s
    | _ => .next s
  | none => .next s

/-! ## Holds and declared waits (R285) -/

/-- HOLD. -/
def execHold (x : HoldOp) (s : State) : Host.Outcome State Fault Refusal :=
  .next (s.runGang x.ctl fun s id t => do
    let va ← t.lineAddr x.a x.off
    s.refuseDeterm id (predEnc x.pd)
    match s.addHold id (va.toNat / 128) with
    | some s' => .ok (s'.modThread id fun t => (t.setPred x.pd true).advance)
    | none => .ok (s.setThread id (t.setPred x.pd false).advance))

/-- UNHOLD. -/
def execUnhold (x : LineOp) (s : State) : Host.Outcome State Fault Refusal :=
  .next (s.runGang x.ctl fun s id t => do
    let va ← t.lineAddr x.a x.off
    let s := if va.toNat / 128 ∈ t.holds then s.dropHold id (va.toNat / 128) else s
    .ok (s.modThread id Thread.advance))

/-- WREG of one thread. When the walk closes a cycle, the wait it declared is dropped (R288). -/
def State.declareWait (s : State) (id : ThreadId) (t : Thread) (line : Nat) : Except Trap State := do
  let s' ← (s.dropWreg id).beginWait id (.line (s.ctxOf id) line) 0xFF fun t =>
    { t.advance with wreg := some line }
  match s'.thread id with
  | some t' =>
    if t'.await == .stopped || t'.inHandler != t.inHandler then
      .ok (s'.setThread id { t' with wreg := none })
    else .ok s'
  | none => .ok s'

/-- WREG. -/
def execWreg (x : AOp) (s : State) : Host.Outcome State Fault Refusal :=
  .next (s.runGang x.ctl fun s id t => do
    let va ← t.lineAddr x.a 0
    s.refuseDeterm id 0xFF
    s.declareWait id t (va.toNat / 128))

/-- WDROP. -/
def execWdrop (x : NoOp) (s : State) : Host.Outcome State Fault Refusal :=
  .next (s.runGang x.ctl fun s id _ => .ok ((s.dropWreg id).modThread id Thread.advance))

/-! ## The table (R286) -/

/-- An entry that may expire: it has holders, and no waiter for 1 ms. -/
def PurlinEntry.expired (e : PurlinEntry) (now : Nat) : Bool :=
  !e.holders.isEmpty && e.waiters.isEmpty && decide (e.idleFrom + 1000000 ≤ now)

/-- PURLIN_ENTRY_EXPIRY: when more than 7,680 entries are in use, the first that may expire goes; a later
wait on its object finds no holders. -/
def execPurlinEntryExpiry (die : Nat) (s : State) : Host.Outcome State Fault Refusal :=
  let es := (s.die die).purlin
  if es.length ≤ 7680 then .next s
  else
    match es.find? (·.expired s.gts) with
    | some e => .next ((s.setPurlin die fun es => es.filter fun x => !(x.obj = e.obj)).modDie die fun d =>
        { d with expired := addNew d.expired e.obj })
    | none => .next s

end Sys2Proof.Machine
end

