-- ==== Sys2Proof/Machine/Queue.lean ====
section
/-! DEFINITION. Queue.lean: kernel descriptors as read (R24, R25), queues, doorbells and the mapper
(R95 to R103). -/

namespace Sys2Proof.Machine

/-! ## Kernel descriptors (R24, R25) -/

/-- A descriptor's fields. -/
def KDesc.read (bs : List Byte) : KDesc :=
  let n := leNat bs
  { textLen := bits n 447 416, nameOff := bits n 415 384, privateBytes := bits n 351 320,
    kspill := bits n 319 312, spQ := bits n 311 308, rfQ := bits n 307 304,
    thatchTiles := bits n 303 296, bins := bits n 295 288, scratch := bits n 287 256,
    courses := bits n 255 224, tileRows := bits n 223 216, tiles := bits n 215 208,
    threads := bits n 207 192, prio := bits n 191 184, regs := bits n 183 176,
    fctlInit := bits n 175 160, trapvec := BitVec.ofNat 32 (bits n 159 128),
    codeBase := BitVec.ofNat 64 (bits n 127 64), entryPc := BitVec.ofNat 32 (bits n 63 32),
    twinN := bits n 30 27, twin := bits n 26 25, determ := nbit n 24, version := bits n 23 16,
    magic := bits n 15 0,
    reserved := [("[1023:448]", bits n 1023 448), ("[383:352]", bits n 383 352), ("[31]", bits n 31 31)].find?
      fun p => p.2 != 0 }

/-- Register footprint of a course (R107). -/
def KDesc.regFootprint (k : KDesc) : Nat := roundUp (k.regs * k.threads * 4) 4096

/-- Scratchpad of a course (R107). -/
def KDesc.spFootprint (k : KDesc) : Nat := k.scratch + k.tiles * k.tileRows * 512 + k.thatchTiles * 4096

/-- The first field of R24's table, from the top, that lies outside its range. That bits [15:10] of
fctl_init are judged by R16's condition and not here: DESIGN CHOICE (log entry 76). -/
def KDesc.badField (k : KDesc) : Option (String × Nat) :=
  let checks : List (String × Nat × Bool) :=
    [("text_len", k.textLen, k.textLen ≥ 1), ("private_bytes", k.privateBytes, k.privateBytes % 16 == 0),
     ("kspill", k.kspill, k.kspill ≤ 255), ("sp_q", k.spQ, k.spQ ≤ 8),
     ("rf_q", k.rfQ, decide (2 ≤ k.rfQ) && decide (k.rfQ ≤ 10)), ("bins", k.bins, k.bins ≤ 16),
     ("scratch", k.scratch, k.scratch % 16 == 0), ("courses", k.courses, k.courses ≥ 1),
     ("tile_rows", k.tileRows,
       if k.tiles == 0 then k.tileRows == 0
       else decide (8 ≤ k.tileRows) && decide (k.tileRows ≤ 128) && k.tileRows % 8 == 0),
     ("tiles", k.tiles, k.tiles ≤ 8),
     ("threads", k.threads, decide (1 ≤ k.threads) && decide (k.threads ≤ 1024)),
     ("prio", k.prio, k.prio ≤ 7), ("regs", k.regs, decide (1 ≤ k.regs) && decide (k.regs ≤ 192)),
     ("twin", k.twin, k.twin != 3)]
  (checks.find? fun c => !c.2.2).map fun c => (c.1, c.2.1)

/-- `%fctl` rules of R16: no zero bit set, and no reserved rounding mode. -/
def fctlOk (n : Nat) : Bool := n / 1024 == 0 && bits n 7 5 ≤ 4

/-- The trap handler is absent or a PC inside the kernel (R25). -/
def KDesc.trapvecOk (k : KDesc) : Bool :=
  k.trapvec == 0xFFFFFFFF || (decide (k.entryPc.toNat ≤ k.trapvec.toNat) &&
    decide (k.trapvec.toNat < k.entryPc.toNat + k.textLen))

/-- The checks of R25 that need no image. -/
def KDesc.ok (k : KDesc) : Bool :=
  k.badField.isNone && k.reserved.isNone && fctlOk k.fctlInit && k.trapvecOk &&
    decide (k.courses * k.threads ≤ 2 ^ 32) && decide (k.regs * k.threads * 4 ≤ k.rfQ * 65536) &&
    decide (k.spFootprint ≤ k.spQ * 65536) && decide (k.rfQ + k.spQ ≤ 14)

/-- What stands for the descriptor of a signal-only packet: no courses (R98, R116). -/
def KDesc.none : KDesc :=
  { textLen := 0, nameOff := 0, privateBytes := 0, kspill := 0, spQ := 0, rfQ := 0, thatchTiles := 0,
    bins := 0, scratch := 0, courses := 0, tileRows := 0, tiles := 0, threads := 0, prio := 0,
    regs := 0, fctlInit := 0, trapvec := 0xFFFFFFFF, codeBase := 0, entryPc := 0, twinN := 0,
    twin := 0, determ := false, version := 1, magic := 0xD35C, reserved := Option.none }

/-! ## Memory as the mapper and the engines reach it: a context's addresses, at home -/

/-- Translate for a unit that enters no fault. -/
def State.ctxAddr (s : State) (ctx va : Nat) (acc : Access) : Option (Nat × Nat) :=
  match s.walk ctx (BitVec.ofNat 64 va) with
  | .ok e =>
    let pa := e.phys + (va % 2 ^ 64 - e.page)
    match s.checkAccess e pa acc with
    | .ok () => some (pa, e.key)
    | .error _ => none
  | .error _ => none

/-- The bytes at a physical address can be read or written at home. -/
def State.atHome (s : State) (pa n : Nat) : Bool := s.reachable pa n && s.physClass pa != .window

/-- Read within one page of a context. -/
def State.ctxRead (s : State) (ctx va n : Nat) : Option (List Byte) :=
  match s.ctxAddr ctx va .read with
  | some (pa, key) => if s.atHome pa n then some (s.readKeyed key pa n) else none
  | none => none

/-- Registered bytes at home: memory, watches, dirty bit. -/
def State.engineWrite (s : State) (ctx pa key : Nat) (bs : List Byte) : State :=
  ((s.writeKeyed key pa bs).fireWatches (pa / 128)).markDirty (s.partOf ctx) pa

/-- The page of an address that a context maps. -/
def State.pageOf (s : State) (ctx va : Nat) : Option Nat :=
  match s.walk ctx (BitVec.ofNat 64 va) with
  | .ok e => some ((e.phys + (va % 2 ^ 64 - e.page)) / 65536)
  | .error _ => none

/-- The hypervisor has copied a protected page and lifts the protection. -/
def State.liftPage (s : State) (part page : Nat) : State :=
  s.modPart part fun p => match p.snapshot with
    | some n =>
      if page ∈ n.guarded then
        let n := { n with guarded := n.guarded.filter (· != page),
                          stored := tput n.stored page (s.readPhys (65536 * page) 65536) }
        { p with snapshot := some n }
      else p
    | none => p

/-- An engine's write to a page waits for it: it has not arrived at the destination of a migration
(R329). -/
def State.ctxAbsent (s : State) (ctx va : Nat) : Bool :=
  (s.pageOf ctx va).any fun g => s.absentPage (s.partOf ctx) (65536 * g)

/-- Write within one page of a context: a page that a snapshot protects is copied and freed first, as the
fault and its answer do (R327); what cannot be reached is dropped (log entry 78). -/
def State.ctxWrite (s : State) (ctx va : Nat) (bs : List Byte) : State :=
  let s := match s.pageOf ctx va with
    | some page => s.liftPage (s.partOf ctx) page
    | none => s
  match s.ctxAddr ctx va .write with
  | some (pa, key) =>
    if s.atHome pa bs.length && !s.keyRevoked key then s.engineWrite ctx pa key bs else s
  | none => s

/-! ## Queues (R95, R96, R101) -/

/-- The latched fields of a queue table entry. -/
def Queue.ofEntry (bs : List Byte) : Queue :=
  let n := leNat bs
  { clusterMask := BitVec.ofNat 192 (bits n 511 320), statusAddr := BitVec.ofNat 64 (bits n 319 256),
    ringBase := BitVec.ofNat 64 (bits n 255 192), ctx := bits n 169 160, log2 := bits n 159 152,
    prio := bits n 150 148, dev := nbit n 147, enabled := false, disabling := false, code := 0,
    write := 0, rd := 0, since := 0, overdue := false, active := false, waiting := false,
    head := none }

/-- The layout of an entry (R95). -/
def entryOk (bs : List Byte) : Bool :=
  let n := leNat bs
  bits n 191 170 == 0 && !nbit n 151 && bits n 146 0 == 0 && bits n 267 256 % 16 == 0 &&
    bits n 203 192 == 0 && bits n 169 160 < 512 && decide (4 ≤ bits n 159 152) &&
    decide (bits n 159 152 ≤ 16)

/-- Entry q of a partition's queue table. -/
def State.queueEntry (s : State) (p q : Nat) : List Byte :=
  match s.part p with
  | some x => s.readPhys (x.queueTable.toNat / 64 * 64 + 64 * q) 64
  | none => List.replicate 64 0

/-- Pending (R101); a queue whose head waits for a dependence is not (R103). -/
def Queue.pending (q : Queue) : Bool :=
  q.enabled && q.code == 0 && decide (q.rd < q.write) && !q.waiting

/-- Change a queue; its age starts anew when it becomes pending, but for a queue that was waiting
(R101, R103). -/
def State.touchQueue (s : State) (p n : Nat) (f : Queue → Queue) : State :=
  s.modQueue p n fun q =>
    let q' := f q
    if q'.pending && !q.pending && !q.waiting then { q' with since := s.gts, overdue := false } else q'

/-- Write a queue's status block (R95). -/
def State.writeStatus (s : State) (p n : Nat) : State :=
  match s.queue p n with
  | some q =>
    s.ctxWrite q.ctx (q.statusAddr.toNat / 16 * 16)
      (toLE q.rd 8 ++ [q.code] ++ List.replicate 7 0)
  | none => s

/-- Event 0x0E (R100, R305). -/
def State.refusalEvent (s : State) (p n : Nat) (q : Queue) : State :=
  s.pushEvent p
    { src := s.mapperSrc p, va := q.rd, gts := s.gts, course := n, ctx := q.ctx, type := 0x0E, cls := q.code.toNat }

/-- Stop a queue with a code (R96, R97, R100). -/
def State.refuseQueue (s : State) (p n : Nat) (code : BitVec 8) : State :=
  let s := s.touchQueue p n fun q =>
    { q with code := code, active := false, waiting := false, head := none }
  match s.queue p n with
  | some q => (s.writeStatus p n).refusalEvent p n q
  | none => s

/-- A bad op: code 0x09 in the status block, and an event; the entry names the block of a queue that
is not latched (R96). -/
def State.badQueueOp (s : State) (p n : Nat) : State :=
  match s.queue p n with
  | some _ => s.refuseQueue p n 0x09
  | none =>
    let q := { Queue.ofEntry (s.queueEntry p n) with code := 0x09 }
    (s.ctxWrite q.ctx (q.statusAddr.toNat / 16 * 16)
      (toLE 0 8 ++ [0x09] ++ List.replicate 7 0)).refusalEvent p n q

/-- QUEUE_ENABLE: QUEUE_CTL op 1 (R96). -/
def execQueueEnable (part q : Nat) (s : State) : Host.Outcome State Fault Refusal :=
  match s.part part with
  | none => .next s
  | some _ =>
    let e := s.queueEntry part q
    if q > 1023 then .next s
    else if entryOk e then
      .next ((s.setQueue part q { Queue.ofEntry e with enabled := true }).writeStatus part q)
    else .next (s.badQueueOp part q)

/-- The launch of the packet that a queue took last, while it runs. -/
def State.lastLaunch (s : State) (p n : Nat) : Option Launch :=
  match s.queue p n with
  | some q => (s.launches.find? fun l => l.2.part == p && l.2.queue == n && l.2.index + 1 == q.rd).map (·.2)
  | none => none

/-- Courses of the queue's current packet are still to be dispatched. -/
def State.dispatching (s : State) (p n : Nat) : Bool :=
  (s.lastLaunch p n).any fun l => decide (l.next < l.kd.courses) || !l.redo.isEmpty

/-- QUEUE_DISABLE: op 2, after the current packet (R96). -/
def execQueueDisable (part q : Nat) (s : State) : Host.Outcome State Fault Refusal :=
  let busy := s.dispatching part q
  .next (s.touchQueue part q fun x =>
    if !x.enabled then x
    else if busy then { x with disabling := true, head := none }
    else { x with enabled := false, disabling := false, active := false, waiting := false,
                  head := none })

/-- QUEUE_CLEAR_REFUSAL: op 3; without a refusal the packet that was read stays (R96, R99). -/
def execQueueClearRefusal (part q : Nat) (s : State) : Host.Outcome State Fault Refusal :=
  .next ((s.touchQueue part q fun x =>
    if x.code == 0 then x else { x with code := 0, head := none }).writeStatus part q)

/-- QUEUE_CTL_BAD_OP. -/
def execQueueCtlBadOp (part q : Nat) (s : State) : Host.Outcome State Fault Refusal :=
  .next (s.badQueueOp part q)

/-- DOORBELL_WRITE (R97). -/
def execDoorbellWrite (part q : Nat) (w : DWord) (s : State) : Host.Outcome State Fault Refusal :=
  match s.queue part q with
  | none => .next s
  | some x =>
    if !x.enabled || x.dev || w.toNat ≤ x.write then .next s
    else if w.toNat - x.rd ≤ 2 ^ x.log2 then
      .next (s.touchQueue part q fun x => { x with write := w.toNat })
    else .next (s.refuseQueue part q 0x07)

/-! ## Active slots (R101) -/

/-- The waiting time after which a pending queue ranks above every other (R101). -/
def Queue.late (q : Queue) (now : Nat) : Bool :=
  q.pending && (q.overdue || decide (q.since + 1048576 ≤ now))

/-- The order of R101. -/
def queueAbove (now : Nat) (a b : Nat × Queue) : Bool :=
  if a.2.late now != b.2.late now then a.2.late now
  else if a.2.prio != b.2.prio then decide (b.2.prio < a.2.prio)
  else if a.2.since != b.2.since then decide (a.2.since < b.2.since)
  else decide (a.1 < b.1)

/-- A partition's queues. -/
def State.queuesOf (s : State) (p : Nat) : List (Nat × Queue) :=
  s.queues.filterMap fun e => if e.1.1 == p then some (e.1.2, e.2) else none

/-- QUEUE_SLOT_ASSIGN: idle occupants give their slots up, then the highest-ranked pending queue takes
a slot, from the lowest-ranked occupant between packets when all 32 are held. -/
def execQueueSlotAssign (part : Nat) (s : State) : Host.Outcome State Fault Refusal :=
  let s := (s.queuesOf part).foldl (fun s e =>
    if e.2.active && !e.2.pending && !s.dispatching part e.1 then
      s.modQueue part e.1 fun q => { q with active := false }
    else s) s
  let qs := s.queuesOf part
  match leastBy (queueAbove s.gts) (qs.filter fun e => e.2.pending && !e.2.active) with
  | none => .next s
  | some best =>
    let occ := qs.filter fun e => e.2.active
    let take (s : State) : State := s.modQueue part best.1 fun q => { q with active := true }
    if occ.length < 32 then .next (take s)
    else
      match leastBy (fun a b => queueAbove s.gts b a) occ with
      | some low =>
        if queueAbove s.gts best low && !s.dispatching part low.1 then
          .next (take (s.modQueue part low.1 fun q => { q with active := false }))
        else .next s
      | none => .next s

/-- QUEUE_AGE_OVERDUE. -/
def execQueueAgeOverdue (part q : Nat) (s : State) : Host.Outcome State Fault Refusal :=
  .next (s.modQueue part q fun x =>
    if x.pending && decide (x.since + 1048576 ≤ s.gts) then { x with overdue := true } else x)

/-! ## The head packet (R98 to R100) -/

def pktType (p : BitVec 512) : Nat := bits p.toNat 7 0
def pktFence (p : BitVec 512) : Bool := p.getLsbD 11
def pktSigEn (p : BitVec 512) : Bool := p.getLsbD 12
def pktDep0En (p : BitVec 512) : Bool := p.getLsbD 13
def pktDep1En (p : BitVec 512) : Bool := p.getLsbD 14
def pktNotify (p : BitVec 512) : Bool := p.getLsbD 15
def pktWord (p : BitVec 512) (i : Nat) : Nat := (p.extractLsb' (64 * i) 64).toNat
def pktKdesc (p : BitVec 512) : Nat := pktWord p 1
def pktDep0 (p : BitVec 512) : Nat × Nat := (pktWord p 3, pktWord p 2)
def pktDep1 (p : BitVec 512) : Nat × Nat := (pktWord p 5, pktWord p 4)
def pktSig (p : BitVec 512) : Nat × Nat := (pktWord p 7, pktWord p 6)

/-- Code 0x06: the mask stays within the partition's clusters and selects an enabled core. -/
def State.maskOk (s : State) (p : Nat) (mask : BitVec 192) : Bool :=
  match s.part p with
  | none => false
  | some x =>
    mask.toNat / 2 ^ x.clusters.length == 0 &&
    (x.clusters.zipIdx.any fun c => (mask == 0 || mask.getLsbD c.2) && (s.cluster c.1).inService)

/-- The checks of R100 on the packet and its descriptor: a code, or the descriptor. -/
def State.checkPacket (s : State) (p : Nat) (q : Queue) (pkt : BitVec 512) :
    Except (BitVec 8) (Option KDesc) :=
  let n := pkt.toNat
  let type := pktType pkt
  let va := pktKdesc pkt
  let sigBad := pktSigEn pkt && ((pktSig pkt).1 % 16 != 0 ||
    (s.ctxAddr q.ctx (pktSig pkt).1 .write).isNone)
  let depBad (en : Bool) (d : Nat × Nat) : Bool :=
    en && (d.1 % 8 != 0 || (s.ctxAddr q.ctx d.1 .read).isNone)
  let rest (kd : Option KDesc) : Except (BitVec 8) (Option KDesc) :=
    if sigBad || depBad (pktDep0En pkt) (pktDep0 pkt) || depBad (pktDep1En pkt) (pktDep1 pkt) then
      .error 0x05
    else if !s.maskOk p q.clusterMask then .error 0x06
    else
      let permits (k : KDesc) : Bool := match s.ctx q.ctx with
        | some x => x.twinOk.getLsbD k.twin
        | none => false
      match kd with
      | some k => if permits k then .ok kd else .error 0x08
      | none => .ok kd
  if (type != 1 && type != 2) || bits n 63 16 != 0 || bits n 10 8 != 0 || (type == 2 && va != 0) then
    .error 0x01
  else if type == 2 then rest none
  else if va % 128 != 0 then .error 0x02
  else
    match s.ctxRead q.ctx va 128 with
    | none => .error 0x02
    | some bs =>
      let k := KDesc.read bs
      if k.magic != 0xD35C || k.version != 1 then .error 0x03
      else if !k.ok then .error 0x04
      else rest (some k)

/-- PACKET_HEAD_CHECK (R99, R100). -/
def execPacketHeadCheck (part q : Nat) (s : State) : Host.Outcome State Fault Refusal :=
  match s.queue part q with
  | none => .next s
  | some x =>
    if !x.active || !x.pending || x.head.isSome || x.disabling then .next s
    else
      match s.ctxRead x.ctx (x.ringBase.toNat + 64 * (x.rd % 2 ^ x.log2)) 64 with
      | none => .next (s.refuseQueue part q 0x0A)
      | some bs =>
        let pkt := BitVec.ofNat 512 (leNat bs)
        match s.checkPacket part x pkt with
        | .error c => .next (s.refuseQueue part q c)
        | .ok kd =>
          let h : Head :=
            { packet := pkt, kd := kd, dep0 := !pktDep0En pkt, dep1 := !pktDep1En pkt }
          .next (s.setQueue part q { x with head := some h })

/-! ## Dependences and the begin (R102, R103) -/

/-- The head's dependences after one more read of their words; one that was satisfied stays so. -/
def State.pollHead (s : State) (x : Queue) (h : Head) : Head :=
  let met (d : Nat × Nat) : Bool := match s.ctxRead x.ctx d.1 8 with
    | some bs => decide (d.2 ≤ leNat bs)
    | none => false
  { h with dep0 := h.dep0 || met (pktDep0 h.packet), dep1 := h.dep1 || met (pktDep1 h.packet) }

/-- DEPENDENCE_POLL: an unsatisfied head makes its queue wait; it becomes pending again when all are
satisfied, and its age counts from when it began to wait. -/
def execDependencePoll (part q : Nat) (s : State) : Host.Outcome State Fault Refusal :=
  match s.queue part q with
  | none => .next s
  | some x =>
    match x.head with
    | none => .next s
    | some h =>
      let h := s.pollHead x h
      if h.dep0 && h.dep1 then .next (s.setQueue part q { x with head := some h, waiting := false })
      else
        .next (s.setQueue part q
          { x with head := some h, waiting := true, active := false,
                   since := if x.waiting then x.since else s.gts,
                   overdue := x.waiting && x.overdue })

/-- The head packet may begin (R102, R103, R310, R325). -/
def State.mayBegin (s : State) (p n : Nat) (q : Queue) (h : Head) : Bool :=
  let run := match s.ctx q.ctx with
    | some c => c.rung == .running
    | none => false
  q.active && q.pending && !q.disabling && h.dep0 && h.dep1 && run && !s.throttledPart p &&
    !s.dispatching p n &&
    !(pktFence h.packet && (s.lastLaunch p n).isSome) && !s.ctxAbsent q.ctx (q.statusAddr.toNat / 16 * 16) &&
    decide ((s.launches.filter fun l => l.2.part == p).length < 256)

/-- PACKET_BEGIN (R99, R102): the packet is taken and holds an entry of the launch table. Fetch sees
memory as it stands now (R31). -/
def execPacketBegin (part q : Nat) (s : State) : Host.Outcome State Fault Refusal :=
  match s.queue part q with
  | none => .next s
  | some x =>
    match x.head with
    | none => .next s
    | some h =>
      if s.mayBegin part q x h then
        let (n, s) := s.fresh
        let l : Launch :=
          { part := part, queue := q, index := x.rd, ctx := x.ctx, packet := h.packet,
            kd := h.kd.getD KDesc.none, code := s.mem, codeKeys := s.units, next := 0, redo := [],
            retired := 0, turn := 0, rollbacks := [], redoPj := [] }
        .next (((s.setLaunch n l).setQueue part q { x with rd := x.rd + 1, head := none }).writeStatus
          part q)
      else .next s

end Sys2Proof.Machine
end

