-- ==== Sys2Proof/Machine/Traps.lean ====
section
/-! DEFINITION. Traps.lean: the meanings of group 0xF: calls, flag traps, the return from a trap,
special registers, LAUNCH, windows and breakpoints (R104, R296 to R313). -/

namespace Sys2Proof.Machine

/-! ## SYSC (R307, R308) -/

/-- Threads of the gang that could not act stay in the run, which loses its turn; the others go on
(R118). -/
def State.narrowRun (s : State) (left : List ThreadId) (pc : Word) : State :=
  match s.issue with
  | none => s
  | some g =>
    let s := (g.gang.filter fun id => id ∉ left).foldl (fun s id => match s.thread id with
      | some t => if t.await == .ready && t.pc != pc then s.completed id else s
      | none => s) s
    let sl := (s.core g.core).slot g.slot
    { s.modCore g.core fun c => c.setSlot g.slot
        { sl with run := sl.run.map fun r => { r with gang := left } } with issue := none }

/-- v0 to v7 as a call entry holds them. -/
def State.callArgs (s : State) (id : ThreadId) (t : Thread) : Nat :=
  ((t.regs.toList.take 8).zipIdx.foldl (fun n p =>
    n + (if p.2 < s.regCount id then p.1.bits.toNat else 0) * 2 ^ (32 * p.2)) 0)

/-- The call entry (R308). -/
def State.callEntry (s : State) (id : ThreadId) (t : Thread) (num : BitVec 16) : Nat :=
  s.callArgs id t * 2 ^ 192 + s.gts % 2 ^ 64 * 2 ^ 128 + id.course % 2 ^ 32 * 2 ^ 96 +
    t.pc.toNat * 2 ^ 64 + s.ctxOf id % 1024 * 2 ^ 54 + id.cthr % 1024 * 2 ^ 44 + num.toNat * 2 ^ 28

/-- The call ring of a thread's partition. -/
def State.callRing (s : State) (id : ThreadId) : Ring :=
  match s.part (s.partOf (s.ctxOf id)) with
  | some p => p.callQ
  | none => Ring.reset

/-- Calls of a partition from `n` on go up by one: an entry has been put before them (R341). -/
def State.shiftCalls (s : State) (part n : Nat) : State :=
  let up (id : ThreadId) (t : Thread) : Thread := match t.await with
    | .call i =>
      if s.partOf (s.ctxOf id) == part && decide (n ≤ i) then { t with await := .call (i + 1) } else t
    | _ => t
  { s with threads := s.threads.map fun (p : ThreadId × Thread) => (p.1, up p.1 p.2) }.mapSaved up

/-- Write a thread's call entry at its place in the ring (R307, R341). -/
def State.putCall (s : State) (id : ThreadId) (t : Thread) (num : BitVec 16) : State :=
  let r := s.callRing id
  let part := s.partOf (s.ctxOf id)
  let src := s.srcOf id
  let s := if r.behind s.gts src = 0 then s else s.shiftCalls part (r.place s.gts src)
  (s.ringPut r s.gts src 64 (s.callEntry id t num)).modPart part fun p =>
    { p with callQ := r.more s.gts src }

/-- SYSC of one thread; it does nothing yet while the ring is full. -/
def syscAct (num : BitVec 16) : Act := fun s id t =>
  let r := s.callRing id
  if r.full then .ok s
  else
    let i := r.place s.gts (s.srcOf id)
    let s := (s.putCall id t num).modCourse (courseOf id) fun c => { c with committed := true }
    s.beginWait id (.syscall id) 0xFF fun t => { t with await := .call i }

/-- SYSC: no load is outstanding, the course holds its turn, and the thread's stores are released and
have registered before its entry is written. -/
def execSysc (x : SyscOp) (s : State) : Host.Outcome State Fault Refusal :=
  let act := s.active x.ctl
  let rel := act.foldl (fun s p => s.release p.1) s
  if act.any fun p => p.2.loads != 0 || turnHeld s p.1 p.2 then .next s.loseTurn
  else if act.any fun p => rel.commitsOpen p.1 then .next rel.loseTurn
  else
    let s' := s.runGang x.ctl (syscAct x.num)
    let left := act.filterMap fun p => match s'.thread p.1 with
      | some t => if t.await == .ready && t.pc == p.2.pc && (s'.callRing p.1).full then some p.1 else none
      | none => none
    match act, left with
    | _, [] => .next s'
    | p :: _, _ => .next (s'.narrowRun left p.2.pc)
    | [], _ => .next s'

/-- The thread that waits on call `n` of a partition's ring. -/
def State.caller (s : State) (part n : Nat) : Option ThreadId :=
  (s.threads.find? fun p => p.2.await == .call n && s.partOf (s.ctxOf p.1) == part).map (·.1)

/-- What an answer writes: v0 and v1 where they exist (R307). -/
def Thread.answered (t : Thread) (regs : Nat) (ret now : Nat) : Thread :=
  let ws := [(0, (⟨BitVec.ofNat 32 ret, 0⟩ : VReg)), (1, ⟨BitVec.ofNat 32 (ret / 2 ^ 32), 0⟩)]
  { t.writeRegs (ws.filter fun p => decide (p.1 < regs)) with acqTs := now }

/-- Answer one call; of a saved thread it is applied to the image, for the restore (R307). -/
def State.answerCall (s : State) (part n : Nat) : State :=
  match s.part part with
  | none => s
  | some p =>
    let e := leNat (s.readPhys (p.callQ.slot n 64) 64)
    let ret := if nbit e 27 then e / 2 ^ 448 else 0xFFFFFFFF
    match s.caller part n with
    | some id =>
      ((s.dropSleep id).modThread id fun t => t.answered (s.regCount id) ret s.gts).wakeNext id
    | none =>
      s.mapSaved fun id t =>
        if t.await == .call n && s.partOf (s.ctxOf id) == part then
          { (t.answered (s.regCount id) ret s.gts).advance with await := .ready }
        else t

/-- SYSC_ANSWER: a larger SYSC_Q_HEAD answers the entries it passes, in ring order (R308). -/
def execSyscAnswer (part : Nat) (head : DWord) (s : State) : Host.Outcome State Fault Refusal :=
  match s.part part with
  | none => .next s
  | some p =>
    let h := min head.toNat p.callQ.tail
    let s := (List.range (h - p.callQ.head)).foldl (fun s i => s.answerCall part (p.callQ.head + i)) s
    .next (s.modPart part fun p => { p with callQ := { p.callQ with head := max h p.callQ.head } })

/-! ## TFENCE, TRET, TRAP, BKPT (R300 to R302, R313) -/

/-- TFENCE: earlier flags have arrived when it issues. -/
def execTfence (x : NoOp) (s : State) : Host.Outcome State Fault Refusal :=
  .next (s.runLocal x.ctl fun t =>
    let fl := t.fflags &&& t.enables
    if !t.inHandler && fl != 0 then .error (.take 0x07 0 t.field (fl.setWidth 8) true)
    else .ok t.advance)

/-- Where TRET continues (R301). -/
def Thread.tretPc (t : Thread) : TretMode → Word
  | .resume => t.resume
  | .skip => t.trappc + 1
  | .jump off => t.pc + off.signExtend 32

/-- TRET. -/
def execTret (x : TretOp) (s : State) : Host.Outcome State Fault Refusal :=
  .next (s.runLocal x.ctl fun t =>
    if t.inHandler then .ok (t.leaveHandler (t.tretPc x.mode)) else .error (.illegal 0xFF))

/-- TRAP. -/
def execTrap (x : CodeOp) (s : State) : Host.Outcome State Fault Refusal :=
  .next (s.runLocal x.ctl fun _ => .error (.take 0x09 0 0xFF x.code true))

/-- A debugger is attached to the thread's context. -/
def State.breaking (s : State) (id : ThreadId) : Bool :=
  match s.ctx (s.ctxOf id) with
  | some c => c.brk
  | none => false

/-- BKPT: it stops the thread under a debugger; otherwise it goes to the handler, and is a NOP where
none is available (R297, R313). -/
def execBkpt (x : CodeOp) (s : State) : Host.Outcome State Fault Refusal :=
  .next (s.runGang x.ctl fun s id t =>
    if s.breaking id then
      .ok ((s.setThread id { t.advance with await := .debug }).threadEvent id t.pc 0x08 0)
    else if (s.handler id t).isSome then .error (.take 0x0A 0 0xFF x.code true)
    else .ok (s.setThread id t.advance))

/-! ## Special registers (R15 to R17, R309) -/

/-- Logical number of a physical core in a list of physical cores. -/
def logicalCore (ltp : List Nat) (core : Nat) : Nat := (ltp.findIdx? (· == core)).getD 0

def State.ltpOf (s : State) (id : ThreadId) : List Nat :=
  match s.part (s.partOf (s.ctxOf id)) with
  | some p => p.ltp
  | none => []

/-- `%hmap` of a die: its enabled clusters with a fused position (R105). -/
def State.hmap (s : State) (die : Nat) : Nat :=
  (List.range 52).foldl (fun n j =>
    let c := 52 * die + j
    n + b2n (s.enabledCluster c && (s.cluster c).fused.isSome) * 2 ^ j) 0

/-- Courses and threads of a thread's kernel. -/
def State.kdescOf (s : State) (id : ThreadId) : KDesc := (s.kdesc id.launch).getD KDesc.none

/-- The value of a special register (R15). -/
def State.special (s : State) (id : ThreadId) (t : Thread) (reg idx : Nat) : Nat :=
  let k := s.kdescOf id
  let core := s.coreOf id
  let crew := t.curCrew
  match reg with
  | 0x00 => id.course * k.threads + id.cthr
  | 0x01 => id.course
  | 0x02 => id.cthr
  | 0x03 => k.courses
  | 0x04 => k.threads
  | 0x05 => logicalCore (s.ltpOf id) core
  | 0x06 => coreDie core
  | 0x07 => s.clusterSlice (coreCluster core)
  | 0x08 => match crew with
    | some c => c.val
    | none => 0xFFFFFFFF
  | 0x09 => match crew.bind t.rankIn with
    | some r => r.val
    | none => 0
  | 0x0A => match crew with
    | some c => (s.crewMembers (courseOf id) c).length
    | none => 0
  | 0x0B => s.gts
  | 0x0C => Config.clockBase core + s.cycle
  | 0x0D => t.fflags.toNat
  | 0x0E => t.fctl.toNat
  | 0x0F => t.trapmask.toNat
  | 0x10 => t.trappc.toNat
  | 0x11 => t.trapfpc.toNat
  | 0x12 => t.trapinfo.toNat
  | 0x13 => s.caps.toNat
  | 0x14 => s.hmap idx
  | 0x15 => (s.ltpOf id).getD idx 0xFFFFFFFF
  | 0x16 => t.prio.toNat
  | _ => s.ctxOf id

/-- The index of an SREAD: from v(a), which must carry tag 0x00, or the immediate; in range, and only
on a register that has one (R15, R309). -/
def Thread.sreadIndex (t : Thread) (x : SreadOp) : Except Trap Nat := do
  t.need false x.a 0
  let r := x.reg.toNat
  let i := if x.a == .zero then x.idx.toNat else (t.reg x.a).bits.toNat
  let limit := if r == 0x14 then 4 else if r == 0x15 then 1024 else 1
  if i ≥ limit || (x.a != .zero && !sregIndexed r) then .error (.illegal x.d.enc) else .ok i

/-- SREAD. -/
def execSread (x : SreadOp) (s : State) : Host.Outcome State Fault Refusal :=
  .next (s.runGang x.ctl fun s id t => do
    let i ← t.sreadIndex x
    let v := s.special id t x.reg.toNat i
    .ok (s.setThread id (if sregWide x.reg.toNat then t.setPair x.d (BitVec.ofNat 64 v) 0
      else t.setReg x.d ⟨BitVec.ofNat 32 v, 0⟩).advance))

/-- What SWRITE does with a register (R15, R16, R300). -/
def Thread.swrite (t : Thread) (reg : Nat) (w : Word) (ceiling : BitVec 3) : Except Trap Thread :=
  match reg with
  | 0x0D => .ok { t with fflags := w.setWidth 5 }
  | 0x0E => if fctlOk w.toNat then .ok { t with fctl := w.setWidth 10 } else .error (.illegal 0xFF)
  | 0x11 => .ok { t with trapfpc := w, armed := w == 0, field := 0xFF }
  | 0x16 =>
    if w.toNat > 7 then .error (.illegal 0xFF)
    else .ok { t with prio := capPrio (w.setWidth 3) ceiling }
  | _ => .error (.privilege 0xFF)

/-- SWRITE. -/
def execSwrite (x : SwriteOp) (s : State) : Host.Outcome State Fault Refusal :=
  .next (s.runGang x.ctl fun s id t => do
    let t' ← t.swrite x.reg.toNat (t.reg x.a).bits (s.ceilingOf (s.ctxOf id))
    .ok (s.setThread id t'.advance))

/-! ## LAUNCH (R104) -/

/-- LAUNCH's checks: tags, the image, the queue. -/
def State.launchCheck (s : State) (id : ThreadId) (t : Thread) (x : DOp) :
    Except Trap (List Byte × Nat × Queue × State) := do
  t.need true x.a 0
  t.need false x.b 0
  let q := (t.reg x.b).bits.toNat
  let ctx := s.ctxOf id
  let (bs, s) ← s.recordAt id t (t.pair x.a) 64 4 x.d
  match s.queue (s.partOf ctx) q with
  | some k =>
    if q > 1023 || !k.enabled || !k.dev || k.ctx != ctx then .error (.privilege x.d.enc)
    else .ok (bs, q, k, s)
  | none => .error (.privilege x.d.enc)

/-- The index reaches d: as a load of the thread, at once under single step (R104, R313). -/
def State.giveIndex (s : State) (id : ThreadId) (t : Thread) (d : Opd) (i : Nat) : State :=
  let w := BitVec.ofNat 64 i
  if s.stepping id then s.setThread id (t.setPair d w 0).advance
  else
    s.startLoad id t d (match d with
      | .v n => [(n.val, ⟨w.setWidth 32, 0⟩), (n.val + 1, ⟨(w >>> 32).setWidth 32, 0⟩)]
      | _ => [])

/-- LAUNCH of one thread, when its stores have registered. -/
def launchAct (x : DOp) : Act := fun s id t => do
  let (bs, q, k, s) ← s.launchCheck id t x
  let ctx := s.ctxOf id
  if bs.isEmpty then .ok (s.readFailure id)
  else if k.write - k.rd ≥ 2 ^ k.log2 then .ok (s.giveIndex id t x.d (2 ^ 64 - 1))
  else
    let slot := k.ringBase + BitVec.ofNat 64 (64 * (k.write % 2 ^ k.log2))
    let (pa, key, s) ← s.translateFor id slot .write
    let s := s.homeWrite id key pa bs
    let s := s.touchQueue (s.partOf ctx) q fun k => { k with write := k.write + 1 }
    let s := s.modCourse (courseOf id) fun c => { c with committed := true }
    .ok (s.giveIndex id ((s.thread id).getD t) x.d k.write)

/-- LAUNCH: the thread's stores are released first, and the queue changes when they have registered;
in a deterministic kernel at the course's turn (R104, R333). -/
def execLaunch (x : DOp) (s : State) : Host.Outcome State Fault Refusal :=
  let act := s.active x.ctl
  if act.any fun p => countFull .load s p.1 p.2 || turnHeld s p.1 p.2 then .next s.loseTurn
  else
    let ok := act.filter fun p => match s.launchCheck p.1 p.2 x with
      | .ok _ => true
      | .error _ => false
    let s' := ok.foldl (fun s p => s.release p.1) s
    if ok.any fun p => s'.commitsOpen p.1 then .next s'.loseTurn
    else .next (s.runGang x.ctl (launchAct x))

/-! ## NOPRE (R311) -/

/-- The hard halt of a thread's context has started. -/
def State.halting (s : State) (id : ThreadId) : Bool :=
  match s.ctx (s.ctxOf id) with
  | some c => c.rung == .halting || c.rung == .saved || c.rung == .reset
  | none => false

/-- NOPRE. -/
def execNopre (x : NopreOp) (s : State) : Host.Outcome State Fault Refusal :=
  .next (s.runGang x.ctl fun s id t =>
    let t' := if !x.begin then { t with nopre := none }
      else if t.nopre.isSome || s.halting id then t
      else { t with nopre := some s.gts }
    .ok (s.setThread id t'.advance))

/-- NOPRE_EXPIRY: a window of 50,000 ns closes, with event 0x09. -/
def execNopreExpiry (th : ThreadId) (s : State) : Host.Outcome State Fault Refusal :=
  match s.thread th with
  | some t =>
    match t.nopre with
    | some w =>
      if w + 50000 ≤ s.gts then
        .next ((s.setThread th { t with nopre := none }).threadEvent th t.pc 0x09 0)
      else .next s
    | none => .next s
  | none => .next s

end Sys2Proof.Machine
end

