-- ==== Sys2Proof/Machine/Place.lean ====
section
/-! DEFINITION. Place.lean: the dispatcher: room, placement, leases and re-splits (R105 to R114), the
retirement of a course (R331, R332) and the end of a launch (R116). -/

namespace Sys2Proof.Machine

/-! ## Ranges of a core's pool (R109) -/

/-- Gaps of [lo, hi) that sorted ranges leave. -/
def gapsOf (lo hi : Nat) : List (Nat × Nat) → List (Nat × Nat)
  | [] => if lo < hi then [(lo, hi - lo)] else []
  | (b, n) :: r =>
    (if lo < b then [(lo, b - lo)] else []) ++ gapsOf (max lo (b + n)) hi r

/-- Take `n` bytes from the lowest gaps. -/
def takeLow : List (Nat × Nat) → Nat → List (Nat × Nat)
  | _, 0 => []
  | [], _ => []
  | (b, k) :: r, n => (b, min k n) :: takeLow r (n - min k n)

/-- Take `n` bytes from the highest gaps, which come first. -/
def takeHigh : List (Nat × Nat) → Nat → List (Nat × Nat)
  | _, 0 => []
  | [], _ => []
  | (b, k) :: r, n => (b + k - min k n, min k n) :: takeHigh r (n - min k n)

def sortRanges (l : List (Nat × Nat)) : List (Nat × Nat) := sortBy (fun a b => decide (a.1 < b.1)) l

def quantum : Nat := 65536

def poolBytes : Nat := 1048576

/-- Courses on a core. -/
def State.coursesOn (s : State) (core : Nat) : Table CourseId Course :=
  s.courses.filter fun p => p.2.core == core

/-- Register ranges held on a core, those it lends included. -/
def State.regsHeld (s : State) (core : Nat) : List (Nat × Nat) :=
  (s.coursesOn core).flatMap (fun p => p.2.regAt) ++
    (match (s.cluster (coreCluster core)).lease with
      | some l => if l.lender == core then l.rows else []
      | none => [])

def State.spHeld (s : State) (core : Nat) : List (Nat × Nat) :=
  (s.coursesOn core).flatMap fun p => p.2.spAt

def State.freeRegs (s : State) (core rf : Nat) : Nat := rf * quantum - s.regBytesOn core

def State.freeSp (s : State) (core sp : Nat) : Nat :=
  sp * quantum - sumNat ((s.spHeld core).map (·.2))

def State.freeSlots (s : State) (core : Nat) : List Nat :=
  let used := (s.coursesOn core).flatMap fun p => p.2.slots
  (List.range 2048).filter fun n => n ∉ used

/-! ## Room (R107, R113) -/

/-- The core is in service. -/
def State.coreInService (s : State) (core : Nat) : Bool :=
  let c := s.cluster (coreCluster core)
  c.inService && c.test.isNone && c.fused.all fun f => f.val != corePos core

/-- Eligible cores of a launch, in logical order. -/
def State.eligibleCores (s : State) (l : Launch) : List Nat :=
  match s.part l.part with
  | none => []
  | some p =>
    let mask : BitVec 192 := match s.queue l.part l.queue with
      | some q => q.clusterMask
      | none => 0
    p.ltp.filter fun core =>
      s.coreInService core && (mask == 0 ||
        (match p.clusters.findIdx? (· == coreCluster core) with
          | some i => mask.getLsbD i
          | none => false))

/-- Room for one more course at a split, but for registers: slots, courses, scratchpad, and no
re-split for another kernel's split. -/
def State.roomBut (s : State) (n : Nat) (k : KDesc) (core rf sp : Nat) : Bool :=
  let resplitting := match (s.core core).resplit with
    | some m => m != n && (match s.launch m with
      | some l => decide (l.kd.rfQ < k.rfQ) || decide (l.kd.spQ < k.spQ)
      | none => false)
    | none => false
  decide ((s.coursesOn core).length < 32) && decide (k.threads ≤ (s.freeSlots core).length) &&
    decide (k.rfQ ≤ rf) && decide (k.spQ ≤ sp) && decide (k.spFootprint ≤ s.freeSp core sp) &&
    !resplitting

/-- The lender for a shortfall on a core: the other core of the cluster with the most free register
bytes, the lowest logical one on a tie (R113). -/
def State.lender (s : State) (ltp : List Nat) (core short : Nat) : Option Nat :=
  let cl := coreCluster core
  if (s.cluster cl).lease.isSome || short > quantum then none
  else
    let free (c : Nat) : Nat := s.freeRegs c (s.core c).rf
    let others := ltp.filter fun c => coreCluster c == cl && c != core && s.coreInService c
    match leastBy (fun a b => decide (free b < free a)) others with
    | some c => if free c ≥ short then some c else none
    | none => none

/-- How a core takes a course. -/
inductive Fit where
  | own
  | lease (lender bytes : Nat)
  deriving DecidableEq, Repr

/-- Room on a core as it is split now. -/
def State.fit (s : State) (ltp : List Nat) (n : Nat) (k : KDesc) (core : Nat) : Option Fit :=
  let c := s.core core
  if !s.roomBut n k core c.rf c.sp then none
  else
    let free := s.freeRegs core c.rf
    if k.regFootprint ≤ free then some .own
    else (s.lender ltp core (k.regFootprint - free)).map fun m => .lease m (k.regFootprint - free)

/-- Courses of a launch on a core. -/
def State.sameLaunch (s : State) (n core : Nat) : Nat :=
  ((s.coursesOn core).filter fun p => p.1.launch == n).length

/-- The core of R108: the fewest courses of the launch, then the lowest logical number. -/
def State.bestCore (s : State) (ltp : List Nat) (n : Nat) (k : KDesc) (cores : List Nat) :
    Option (Nat × Fit) :=
  leastBy (fun a b => decide (s.sameLaunch n a.1 < s.sameLaunch n b.1))
    (cores.filterMap fun c => (s.fit ltp n k c).map fun f => (c, f))

/-! ## Placing (R8, R13, R108, R112) -/

/-- A thread as it starts, with the area of private memory that the dispatcher assigns (R8, R16, R151,
R182). -/
def startThread (k : KDesc) (course cthr slot now picks : Nat) (ceiling : BitVec 3) (area : DWord) : Thread :=
  { Thread.fresh with
    area := area, pc := k.entryPc, fctl := BitVec.ofNat 10 k.fctlInit,
    gen := seedGen (BitVec.ofNat 32 (course * k.threads + cthr)),
    prio := capPrio (BitVec.ofNat 3 k.prio) ceiling, acqTs := now, slot := slot, since := picks }

/-- Each issue slot counts its runs from 0 when a context is loaded onto the core (R137). -/
def State.loadContext (s : State) (ctx core : Nat) : State :=
  if (s.coursesOn core).any fun p => p.2.ctx == ctx then s
  else s.modCore core fun c => { c with slots := c.slots.map fun x => { x with started := 0 } }

/-- Take register rows and scratchpad on a core for a course, and those of its lender. -/
def State.takeRoom (s : State) (co : CourseId) (k : KDesc) (core : Nat) (f : Fit) :
    List (Nat × Nat) × List (Nat × Nat) × Nat × State :=
  let c := s.core core
  let leased := match f with
    | .own => 0
    | .lease _ b => b
  let regs := takeLow (gapsOf 0 (c.rf * quantum) (sortRanges (s.regsHeld core))) (k.regFootprint - leased)
  let sps := takeHigh (gapsOf ((16 - c.sp) * quantum) poolBytes (sortRanges (s.spHeld core))).reverse
    k.spFootprint
  let s := match f with
    | .own => s
    | .lease m b =>
      let rows := takeLow (gapsOf 0 ((s.core m).rf * quantum) (sortRanges (s.regsHeld m))) b
      (s.modCluster (coreCluster core) fun cl =>
        { cl with lease := some { lender := m, co := co, bytes := b, rows := rows } }).updateMirror m
  (regs, sps, leased, s)

/-- Place a course with its threads. -/
def State.placeCourse (s : State) (n idx : Nat) (l : Launch) (core : Nat) (f : Fit) : State :=
  let k := l.kd
  let co : CourseId := ⟨n, idx⟩
  let s := s.loadContext l.ctx core
  let slots := (s.freeSlots core).take k.threads
  let (regs, sps, leased, s) := s.takeRoom co k core f
  let c : Course :=
    { Course.fresh l.ctx core k.tiles with
      redo := (tget l.redoPj idx).getD 0, slots := slots, regBytes := k.regFootprint, regAt := regs,
      spAt := sps, leased := leased,
      bins := List.replicate k.bins ⟨[], 0⟩, pool := List.replicate k.thatchTiles [] }
  let ceiling := s.ceilingOf l.ctx
  let picks := (s.core core).picks
  let ts := slots.zipIdx.map fun p =>
    ((⟨n, idx, p.2⟩ : ThreadId), startThread k idx p.2 p.1 s.gts picks ceiling
      (Config.privateAddr (s.free + p.2)))
  let s := { s.setCourse co c with threads := s.threads ++ ts, free := s.free + slots.length }
  s.updateMirror core

/-! ## Re-splits and lease revocation (R110, R114) -/

/-- Highest register quantum held, plus one. -/
def State.rfHeld (s : State) (core : Nat) : Nat :=
  (s.regsHeld core).foldl (fun m r => max m (ceilDiv (r.1 + r.2) quantum)) 0

/-- Lowest scratchpad quantum held; 16 when none is. -/
def State.spLow (s : State) (core : Nat) : Nat :=
  (s.spHeld core).foldl (fun m r => if r.2 == 0 then m else min m (r.1 / quantum)) 16

/-- The split that a core would take for a kernel, when it can. -/
def State.newSplit (s : State) (k : KDesc) (core : Nat) : Option (Nat × Nat) :=
  let rf := max k.rfQ (s.rfHeld core)
  let sp := max k.spQ (16 - s.spLow core)
  if rf + sp ≤ 14 then some (rf, sp) else none

/-- Split a core for a launch, whose mark goes. Where the L1 loses quanta, the lines in them are dropped:
which ones those are is free (R110, log entry 77). -/
def State.setSplit (s : State) (n core rf sp : Nat) : State :=
  let old := s.core core
  let shrinks := decide (old.rf + old.sp < rf + sp)
  let keep := if shrinks then (old.l1.zipIdx.filter fun p => Config.freeBit (s.free + p.2)).map (·.1) else old.l1
  let s := if shrinks then { s with free := s.free + old.l1.length } else s
  ((s.modCore core fun c =>
    { c with rf := rf, sp := sp, resplit := if c.resplit == some n then none else c.resplit,
             l1 := keep }).updateMirror core).trimCaches core

/-- Re-split at once the first eligibleCores core that qualifies and then has room. -/
def State.resplitNow (s : State) (n : Nat) (k : KDesc) (cores : List Nat) : Option (Nat × State) :=
  cores.findSome? fun core =>
    let c := s.core core
    if k.rfQ ≤ c.rf && k.spQ ≤ c.sp then none
    else
      match s.newSplit k core with
      | some (rf, sp) =>
        if s.roomBut n k core rf sp && decide (k.regFootprint ≤ s.freeRegs core rf) then
          some (core, s.setSplit n core rf sp)
        else none
      | none => none

/-- Revoke a cluster's lease: the leased rows go to L2 (R114). -/
def State.revokeLease (s : State) (cl : Nat) : State :=
  match (s.cluster cl).lease with
  | none => s
  | some l =>
    ((s.modCourse l.co fun c => { c with inL2 := true }).modCluster cl fun c =>
      { c with lease := none }).updateMirror l.lender

/-- A lender that has room once its lease is revoked. -/
def State.revokeFor (s : State) (ltp : List Nat) (n : Nat) (k : KDesc) (cores : List Nat) :
    Option (Nat × State) :=
  cores.findSome? fun core =>
    match (s.cluster (coreCluster core)).lease with
    | some l =>
      if l.lender == core then
        let s' := s.revokeLease (coreCluster core)
        if s'.fit ltp n k core == some .own then some (core, s') else none
      else none
    | none => none

/-- A core would have room if its split were another. -/
def State.splitBlocks (s : State) (n : Nat) (k : KDesc) (core : Nat) : Bool :=
  let c := s.core core
  (decide (c.rf < k.rfQ) || decide (c.sp < k.spQ)) && (s.newSplit k core).isNone &&
    decide ((s.coursesOn core).length < 32) && (match c.resplit with
      | some m => m == n
      | none => true)

/-! ## COURSE_DISPATCH -/

/-- The next course of a launch, and the cluster that it avoids (R336). -/
def Launch.nextCourse (l : Launch) : Option (Nat × Option Nat) :=
  match l.redo with
  | (c, avoid) :: _ => some (c, some avoid)
  | [] => if l.next < l.kd.courses then some (l.next, none) else none

/-- The course has been dispatched. -/
def Launch.dispatched (l : Launch) : Launch :=
  match l.redo with
  | _ :: r => { l with redo := r }
  | [] => { l with next := l.next + 1 }

/-- A place for a course of a launch among some cores: one with room, else one where a re-split or a
revoked lease makes room. -/
def State.placeAmong (s : State) (n : Nat) (l : Launch) (cores : List Nat) :
    Option (Nat × Fit × State) :=
  let ltp := match s.part l.part with
    | some p => p.ltp
    | none => []
  match s.bestCore ltp n l.kd cores with
  | some (c, f) => some (c, f, s)
  | none =>
    match s.resplitNow n l.kd cores with
    | some (c, s') => some (c, .own, s')
    | none => (s.revokeFor ltp n l.kd cores).map fun p => (p.1, .own, p.2)

/-- Where the next course of a launch goes: off the avoided cluster where another cluster has room. -/
def State.findPlace (s : State) (n : Nat) (l : Launch) (avoid : Option Nat) :
    Option (Nat × Fit × State) :=
  let cores := s.eligibleCores l
  match avoid with
  | none => s.placeAmong n l cores
  | some a =>
    match s.placeAmong n l (cores.filter fun c => coreCluster c != a) with
    | some r => some r
    | none => s.placeAmong n l cores

/-- The context's courses may be placed (R310). -/
def State.mayPlace (s : State) (ctx : Nat) : Bool :=
  match s.ctx ctx with
  | some c => c.rung == .running
  | none => false

/-- Launches with a course to dispatch, in the order of their queues (R101, R102). -/
def State.dispatchOrder (s : State) (part : Nat) : List (Nat × Launch) :=
  let key (l : Launch) : Nat × Queue :=
    (l.queue, (s.queue l.part l.queue).getD (Queue.ofEntry []))
  sortBy (fun a b => queueAbove s.gts (key a.2) (key b.2) ||
      (a.2.queue == b.2.queue && decide (a.1 < b.1)))
    (s.launches.filter fun l => l.2.part == part && l.2.nextCourse.isSome && s.mayPlace l.2.ctx)

/-- Place the next course of the first launch that can be placed. -/
def State.dispatchFirst (s : State) : List (Nat × Launch) → Option State
  | [] => none
  | (n, l) :: r =>
    match l.nextCourse with
    | none => s.dispatchFirst r
    | some (idx, avoid) =>
      match s.findPlace n l avoid with
      | none => s.dispatchFirst r
      | some (core, f, s') =>
        let s' := (s'.placeCourse n idx l core f).setLaunch n l.dispatched
        let s' := s'.modPart l.part fun p => { p with resplits := tdel p.resplits n }
        -- a packet whose last course is dispatched lets a disabled queue go (R96)
        let s' := if s'.dispatching l.part l.queue then s' else
          s'.modQueue l.part l.queue fun q =>
            if q.disabling then { q with enabled := false, disabling := false, active := false,
                                         waiting := false, head := none } else q
        some s'

/-- A launch waits for a re-split, and no core is marked for it yet (R110). -/
def State.wantsSplit (s : State) (n : Nat) (l : Launch) : Bool :=
  let cores := s.eligibleCores l
  (cores.any (s.splitBlocks n l.kd)) && cores.all fun c => (s.core c).resplit != some n

/-- Start the re-split timers of launches that only a re-split could place (R110, R111). -/
def State.startTimers (s : State) (part : Nat) (ls : List (Nat × Launch)) : State :=
  ls.foldl (fun s p =>
    match s.part part with
    | some x =>
      if (tget x.resplits p.1).isNone && s.wantsSplit p.1 p.2 then
        s.setPart part { x with resplits := tput x.resplits p.1 (s.gts + 1000 * x.resplitTime) }
      else s
    | none => s) s

/-- COURSE_DISPATCH (R107, R108). -/
def execCourseDispatch (part : Nat) (s : State) : Host.Outcome State Fault Refusal :=
  let ls := s.dispatchOrder part
  match s.dispatchFirst ls with
  | some s' => .next s'
  | none => .next (s.startTimers part ls)

/-- RESPLIT_TIMER_EXPIRY: the eligibleCores core with the fewest courses is marked (R110). -/
def execResplitTimerExpiry (part launch : Nat) (s : State) : Host.Outcome State Fault Refusal :=
  match s.part part, s.launch launch with
  | some p, some l =>
    match tget p.resplits launch with
    | some due =>
      if due ≤ s.gts then
        let s := s.setPart part { p with resplits := tdel p.resplits launch }
        let cores := (s.eligibleCores l).filter fun c => (s.core c).resplit.isNone
        match leastBy (fun a b => decide ((s.coursesOn a).length < (s.coursesOn b).length)) cores with
        | some c => .next (s.modCore c fun x => { x with resplit := some launch })
        | none => .next s
      else .next s
    | none => .next s
  | _, _ => .next s

/-- CORE_RESPLIT: a marked core re-splits when its courses allow it (R110). -/
def execCoreResplit (core : Nat) (s : State) : Host.Outcome State Fault Refusal :=
  match (s.core core).resplit with
  | none => .next s
  | some n =>
    match s.launch n with
    | none => .next (s.modCore core fun c => { c with resplit := none })
    | some l =>
      match s.newSplit l.kd core with
      | some (rf, sp) => .next (s.setSplit n core rf sp)
      | none => .next s

/-- RESPLIT_TIME_WRITE: what is written to the zero field is ignored (R111). -/
def execResplitTimeWrite (part : Nat) (w : DWord) (s : State) : Host.Outcome State Fault Refusal :=
  .next (s.modPart part fun p => { p with resplitTime := max 1 (min 10000 (w.toNat % 2 ^ 24)) })

/-! ## COURSE_RETIRE (R331, R332) -/

/-- Operations that end before their course retires (R81, R331). -/
def OpKind.holdsRetire : OpKind → Bool
  | .divide _ _ => false
  | .priv _ _ => false
  | .dflush _ => false
  | _ => true

/-- Every thread has exited, no row is live, and every copy, matrix, row and unit operation has
ended. -/
def State.courseDone (s : State) (co : CourseId) (c : Course) : Bool :=
  c.core != noCore && (s.threadsOf co).isEmpty && !s.anyLive co && !((s.opsOf co).any fun p => p.2.kind.holdsRetire) &&
    !((s.cluster (coreCluster c.core)).entries.any fun e => courseOf e.th == co)

/-- The turn reaches a course: an acquire of its threads (R332). One that is saved or not yet placed
acquires when it is placed (R269). -/
def State.acquireTurn (s : State) (co : CourseId) : State :=
  (s.threadsOf co).foldl (fun s p => s.modThread p.1 fun t => { t with acqTs := s.gts }) s

/-- The steps of R331: the drain and the commit begin, and when both have ended the course goes. -/
def State.retire (s : State) (co : CourseId) (c : Course) : State :=
  if (s.core c.core).atomd.any fun e => courseOf e.th == co then s.takeAtomd co
  else if !c.staging.isEmpty || !c.commits.isEmpty then s.commitCourse co
  else if !s.mayRegister co then s
  else
    let s := (s.removeCourse co).modLaunch co.launch fun l => { l with retired := l.retired + 1 }
    match s.launch co.launch with
    | some l =>
      if l.kd.determ && l.turn == co.course then
        (s.setLaunch co.launch { l with turn := co.course + 1 }).acquireTurn ⟨co.launch, co.course + 1⟩
      else s
    | none => s

/-- COURSE_RETIRE. -/
def execCourseRetire (co : CourseId) (s : State) : Host.Outcome State Fault Refusal :=
  match s.course co with
  | some c => if s.courseDone co c then .next (s.retire co c) else .next s
  | none => .next s

/-! ## LAUNCH_END (R116) -/

/-- The launch's end waits for the page of its signal word (R329). -/
def State.endWaits (s : State) (l : Launch) : Bool :=
  pktSigEn l.packet && s.ctxAbsent l.ctx (pktSig l.packet).1

/-- LAUNCH_END: every course has retired, so its stores are at home; the signal words, the event, and
the entry is free. -/
def execLaunchEnd (launch : Nat) (s : State) : Host.Outcome State Fault Refusal :=
  match s.launch launch with
  | none => .next s
  | some l =>
    if l.retired < l.kd.courses ∨ s.endWaits l then .next s
    else
      let p := l.packet
      let (addr, value) := pktSig p
      let now := s.gts
      let s := if pktSigEn p then
          (s.ctxWrite l.ctx (addr + 8) (toLE now 8)).ctxWrite l.ctx addr (toLE value 8)
        else s
      let s := if pktNotify p then
          s.pushEvent l.part
            { src := s.mapperSrc l.part, va := l.index, gts := now, course := l.queue, ctx := l.ctx, type := 0x0F }
        else s
      .next ({ s with launches := tdel s.launches launch }.modPart l.part fun x =>
        { x with resplits := tdel x.resplits launch })

end Sys2Proof.Machine
end

