-- ==== Sys2Proof/Machine/Preempt.lean ====
section
/-! DEFINITION. Preempt.lean: the pre-emption ladder, the save and the restore of a context (R18, R216,
R304, R310 to R312), and the debugger (R313). -/

namespace Sys2Proof.Machine

/-! ## What a halt waits for (R310) -/

/-- Courses of a context that stand on a core. -/
def State.residentOf (s : State) (ctx : Nat) : Table CourseId Course :=
  s.courses.filter fun p => p.2.ctx == ctx && p.2.core != noCore

/-- An operation that the image holds: stopped on a fault-queue entry, or a drain that waits to
register. -/
def Op.mayStay (o : Op) : Bool :=
  o.stop.isSome || (match o.kind with
    | .dflush _ => true
    | _ => false)

/-- Some run or issue of the context is under way. -/
def State.runningCtx (s : State) (ctx : Nat) : Bool :=
  (s.cores.any fun p => p.2.running.any fun id => s.ctxOf id == ctx) ||
    (match s.issue with
      | some g => g.gang.any fun id => s.ctxOf id == ctx
      | none => false)

/-- The halt of a context need wait no longer: its runs have ended, its windows are closed, and what
it had outstanding has finished. -/
def State.quiet (s : State) (ctx : Nat) : Bool :=
  !s.runningCtx ctx && (s.threads.all fun p => s.ctxOf p.1 != ctx || p.2.nopre.isNone) &&
    (s.ops.all fun p => s.ctxOf p.2.th != ctx || p.2.mayStay) &&
    (s.clusters.all fun p => p.2.entries.all fun e => s.ctxOf e.th != ctx || e.write.isNone)

/-! ## The image (R18, R216, R312) -/

/-- Slots that a course holds, by course id. -/
def Cluster.slotsOf (c : Cluster) (co : CourseId) : Table Nat EngineSlot :=
  c.slots.toList.filterMap fun e => match e.owner with
    | some (o, i) => if o = co then some (i, e) else none
    | none => none

/-- Banks that a course holds, by course id. -/
def Cluster.banksOf (c : Cluster) (co : CourseId) : Table Nat Bank :=
  c.banks.toList.filterMap fun e => match e.owner with
    | some (o, i) => if o = co then some (i, e) else none
    | none => none

/-- Take a course off its core: what the image holds of it, and the course left on no core, its
staging buffer in L2. -/
def State.saveCourse (s : State) (co : CourseId) (c : Course) : SavedCourse × State :=
  let cl := s.cluster (coreCluster c.core)
  let sv : SavedCourse :=
    { id := co, threads := s.threadsOf co, ops := s.opsOf co,
      atomd := (s.core c.core).atomd.filter fun e => courseOf e.th == co,
      slots := cl.slotsOf co, banks := cl.banksOf co,
      entries := (cl.entries.filter fun e => courseOf e.th == co).map fun e => { e with after := [] } }
  (sv, (s.removeCourse co).setCourse co
    { c with core := noCore, slots := [], regAt := [], spAt := [], leased := 0, inL2 := false })

/-- Bytes of a saved course's record and of its threads' (R312). -/
def State.recordBytes (s : State) (sv : SavedCourse) : Nat :=
  match s.kdesc sv.id.launch with
  | some k =>
    roundUp (1024 + k.scratch + k.tiles * k.tileRows * 512 + k.thatchTiles * 6144 +
      8576 * sv.slots.length + 65600 * sv.banks.length + 128 * sv.entries.length) 4096 +
      sv.threads.length * roundUp (768 + 5 * k.regs) 64
  | none => 0

/-- The context image: its header, a body whose bytes restore alone reads, and the check code over all
that follows the code (R312). -/
def State.imageOf (s : State) (ctx : Nat) (cs : List SavedCourse) : List Byte :=
  let launches := (s.launches.filter fun p => p.2.ctx == ctx).length
  let len := 64 + 4096 * launches + sumNat (cs.map s.recordBytes)
  let rest := s.gts % 2 ^ 64 * 2 ^ 384 + len % 2 ^ 64 * 2 ^ 320 + cs.length % 2 ^ 32 * 2 ^ 288 +
    sumNat (cs.map fun c => c.threads.length) % 2 ^ 32 * 2 ^ 256 + ctx % 1024 * 2 ^ 246 + 2 ^ 224
  let body := (List.range (len - 64)).map (Config.imageByte s.free)
  let head := toLE rest 56
  head ++ toLE (Config.imageCheck (head ++ body)).toNat 8 ++ body

/-- The check code of an image in memory holds, and it is an image of the context (R312). -/
def State.imageValid (s : State) (ctx : Nat) (x : Context) : Bool :=
  let a := x.imageAddr.toNat
  let head := s.readKeyed x.keySlot a 64
  let h := leNat head
  let len := bits h 383 320
  let body := s.readKeyed x.keySlot (a + 64) (len - 64)
  !s.keyRevoked x.keySlot && decide (64 ≤ len) && bits h 255 246 == ctx && bits h 239 224 == 1 &&
    bits h 511 448 == (Config.imageCheck (head.take 56 ++ body)).toNat

/-- The image is written, the context's cores are free, and event 0x0A follows (R310, R312). A move
restores the context at once (R339, R340). -/
def State.saveContext (s : State) (ctx : Nat) : State :=
  match s.ctx ctx with
  | none => s
  | some x =>
    let (cs, s) := (s.residentOf ctx).foldl (fun (a : List SavedCourse × State) p =>
      let r := a.2.saveCourse p.1 p.2
      (a.1 ++ [r.1], r.2)) ([], s)
    let s := { s.writeKeyed x.keySlot x.imageAddr.toNat (s.imageOf ctx cs) with free := s.free + 1 }
    let s := s.modCtx ctx fun x =>
      { x with rung := .saved, haltAt := none,
               saved := some { courses := cs, answers := [], records := [], launches := [] } }
    let s := s.pushEvent x.part { src := s.mapperSrc x.part, gts := s.gts, ctx := ctx, type := 0x0A }
    if x.moveOff.isSome then { s with inputs := .contextRestore ctx :: s.inputs } else s

/-! ## The rungs (R310) -/

/-- A soft request: no packet begins and no course is placed; with none resident, saved at once. A
context that is being moved remembers it. -/
def State.softRequest (s : State) (ctx : Nat) : State :=
  match s.ctx ctx with
  | none => s
  | some x =>
    match x.rung with
    | .running =>
      let s := s.setCtx ctx { x with rung := .soft, softAt := some s.gts }
      if (s.residentOf ctx).isEmpty then s.saveContext ctx else s
    | _ =>
      if x.moveOff.isSome && x.softAt.isNone then s.setCtx ctx { x with softAt := some s.gts } else s

/-- SOFT_REQUEST. -/
def execSoftRequest (ctx : Nat) (s : State) : Host.Outcome State Fault Refusal :=
  .next (s.softRequest ctx)

/-- The hard halt begins; a halt that was a move becomes one that stays. -/
def State.hardHalt (s : State) (ctx : Nat) : State :=
  s.modCtx ctx fun x =>
    match x.rung with
    | .running => { x with rung := .halting, haltAt := some s.gts }
    | .soft => { x with rung := .halting, haltAt := some s.gts }
    | .halting =>
      if x.moveOff.isSome then { x with moveOff := none, haltAt := some s.gts } else x
    | .saved => { x with moveOff := none }
    | .reset => x

/-- HARD_HALT. -/
def execHardHalt (ctx : Nat) (s : State) : Host.Outcome State Fault Refusal := .next (s.hardHalt ctx)

/-- CONTEXT_RESET. -/
def execContextReset (ctx : Nat) (s : State) : Host.Outcome State Fault Refusal :=
  .next (s.resetCtx ctx)

/-- PREEMPT_GRACE_EXPIRY: the grace time after the soft request has passed. -/
def execPreemptGraceExpiry (ctx : Nat) (s : State) : Host.Outcome State Fault Refusal :=
  match s.ctx ctx with
  | none => .next s
  | some x =>
    match x.softAt, s.part x.part with
    | some t, some p =>
      if x.rung == .soft && decide (t + 1000 * p.grace ≤ s.gts) then .next (s.hardHalt ctx) else .next s
    | _, _ => .next s

/-- PREEMPT_KILL_EXPIRY: the kill time after the start of the hard halt has passed. -/
def execPreemptKillExpiry (ctx : Nat) (s : State) : Host.Outcome State Fault Refusal :=
  match s.ctx ctx with
  | none => .next s
  | some x =>
    match x.haltAt, s.part x.part with
    | some t, some p =>
      if x.rung == .halting && decide (t + 1000 * p.kill ≤ s.gts) then .next (s.resetCtx ctx)
      else .next s
    | _, _ => .next s

/-- The waits of a ladder step have ended. -/
def State.haltDone (s : State) (ctx : Nat) : Bool :=
  match s.ctx ctx with
  | some x =>
    (x.rung == .halting && s.quiet ctx) || (x.rung == .soft && (s.residentOf ctx).isEmpty)
  | none => false

/-- Contexts of a partition. -/
def State.ctxsOf (s : State) (part : Nat) : Table Nat Context := s.ctxs.filter fun p => p.2.part == part

/-- HALT_COMPLETE. -/
def execHaltComplete (ctx : Nat) (s : State) : Host.Outcome State Fault Refusal :=
  if s.haltDone ctx then .next (s.saveContext ctx) else .next s

/-- PREEMPT_TIME_WRITE: each field is stored as the nearest end of its range (R305). -/
def execPreemptTimeWrite (part : Nat) (w : DWord) (s : State) : Host.Outcome State Fault Refusal :=
  let n := w.toNat
  .next (s.modPart part fun p =>
    { p with grace := max 10 (min 100000 (bits n 23 0)), kill := max 1000 (min 1000000 (bits n 55 32)) })

/-! ## Restore (R18, R216, R284, R285, R304, R312) -/

/-- Cores that may take a saved course: off the avoided clusters, with as many free slots and banks as
it holds. -/
def State.restoreCores (s : State) (l : Launch) (avoid : List Nat) (sv : SavedCourse) : List Nat :=
  (s.eligibleCores l).filter fun core =>
    let cl := s.cluster (coreCluster core)
    coreCluster core ∉ avoid && decide (sv.slots.length ≤ (cl.freeOf false).length) &&
      decide (sv.banks.length ≤ (cl.freeOf true).length)

/-- Give a course its slots and banks, under their ids, with what they held. -/
def Cluster.refill (c : Cluster) (co : CourseId) (sv : SavedCourse) : Cluster :=
  let c := ((c.freeOf false).zip sv.slots).foldl (fun (c : Cluster) p =>
    if h : p.1 < 32 then { c with slots := c.slots.set p.1 { p.2.2 with owner := some (co, p.2.1) } }
    else c) c
  ((c.freeOf true).zip sv.banks).foldl (fun (c : Cluster) p =>
    if h : p.1 < 4 then { c with banks := c.banks.set p.1 { p.2.2 with owner := some (co, p.2.1) } }
    else c) c

/-- A thread as restore makes it: a fresh age, an acquire at the restore, its watch lost (R269,
R284). -/
def Thread.restored (t : Thread) (slot picks now : Nat) : Thread :=
  { t with slot := slot, since := picks, overdue := false, cohort := none, acqTs := now,
           monitor := t.monitor.map fun m => { m with fired := false, lost := true } }

/-- Place a saved course, with its threads, operations and entries. -/
def State.restoreCourse (s : State) (avoid : List Nat) (sv : SavedCourse) : Option State :=
  match s.course sv.id, s.launch sv.id.launch with
  | some c, some l =>
    match s.placeAmong sv.id.launch l (s.restoreCores l avoid sv) with
    | none => none
    | some (core, f, s) =>
      let s := s.loadContext c.ctx core
      let slots := (s.freeSlots core).take l.kd.threads
      let (regs, sps, leased, s) := s.takeRoom sv.id l.kd core f
      let picks := (s.core core).picks
      let slotOf (id : ThreadId) : Nat := slots.getD id.cthr 0
      let ts := sv.threads.map fun (p : ThreadId × Thread) => (p.1, p.2.restored (slotOf p.1) picks s.gts)
      let es := sv.entries.map fun e => { e with slot := slotOf e.th }
      let s := s.setCourse sv.id
        { c with core := core, slots := slots, regAt := regs, spAt := sps, leased := leased }
      let s := { s with threads := s.threads ++ ts, ops := s.ops ++ sv.ops }
      let s := s.modCore core fun k => { k with atomd := k.atomd ++ sv.atomd }
      let s := s.modCluster (coreCluster core) fun cl =>
        { (cl.refill sv.id sv) with entries := cl.entries ++ es }
      some (s.updateMirror core)
  | _, _ => some s

/-- Place every saved course, or none. -/
def State.restoreAll (s : State) (avoid : List Nat) : List SavedCourse → Option State
  | [] => some s
  | x :: r => (s.restoreCourse avoid x).bind fun s => s.restoreAll avoid r

/-- The d field of the word that a thread stands at. -/
def State.dFieldAt (s : State) (id : ThreadId) (t : Thread) : BitVec 8 :=
  match (s.fetch id t.pc).1 with
  | .word w => dField w
  | _ => 0xFF

/-- The object that a waiting thread waits on (R286); an MWAIT wakes at once and waits no more. -/
def State.waitObject (s : State) (id : ThreadId) (t : Thread) : Option PurlinObj :=
  match t.await with
  | .barrier b ph => some (.barrier (courseOf id) b ph)
  | .crew k => some (.crew (courseOf id) k t.pc)
  | .claim banks _ _ _ => some (.engine (coreCluster (s.coreOf id)) banks)
  | .call _ => some (.syscall id)
  | .fault tk => if tk.index.isNone then some (.faultQueue tk.part) else none
  | _ => none

/-- Register a wait anew; the walk runs as for a new wait, and a trap is delivered. -/
def State.rewait (s : State) (id : ThreadId) (obj : PurlinObj) (d : BitVec 8) (f : Thread → Thread) :
    State :=
  match s.beginWait id obj d f with
  | .ok s' => s'
  | .error tr => s.deliver id tr 1

/-- Enter a restored thread's holds. -/
def State.reenterHolds (s : State) (id : ThreadId) : State :=
  match s.thread id with
  | none => s
  | some t =>
    t.holds.foldl (fun s l => (s.addHold id l).getD s) (s.setThread id { t with holds := [] })

/-- Enter a restored thread's WREG wait, then the wait that it sleeps on. -/
def State.reenterWaits (s : State) (id : ThreadId) : State :=
  match s.thread id with
  | none => s
  | some t =>
    let s := match t.wreg with
      | some l =>
        let s' := s.rewait id (.line (s.ctxOf id) l) 0xFF fun t => t
        match s'.thread id with
        | some t' => if t'.inHandler != t.inHandler || (t'.await == .stopped && t.await != .stopped) then
            s'.setThread id { t' with wreg := none } else s'
        | none => s'
      | none => s
    match s.thread id with
    | none => s
    | some t =>
      match s.waitObject id t with
      | some obj => (s.rewait id obj (s.dFieldAt id t) fun t => t).checkWait id
      | none => s.checkWait id

/-- Apply an answer that was written while the context was saved (R304). -/
def State.applyAnswer (s : State) (ctx : Nat) (a : Answer) : State :=
  if a.reset then s.resetCtx ctx else s.courseFailure a.co 0x05 a.pc a.cthr

/-- The rung of a context that has been restored: a move keeps a soft request (R339). -/
def Context.resumed (x : Context) : Context :=
  match x.moveOff, x.softAt with
  | some _, some _ => { x with rung := .soft, saved := none, moveOff := none }
  | _, _ => { x with rung := .running, saved := none, moveOff := none, softAt := none }

/-- Restore a context whose image holds: every course is placed, holds and waits are entered before
any thread issues, waiting claims are served, pending answers apply. Nothing happens while some course has no room. -/
def State.restoreContext (s : State) (ctx : Nat) (x : Context) (sv : Saved) : State :=
  let s0 := { s with courses := s.courses ++ sv.records, launches := s.launches ++ sv.launches }
  match s0.restoreAll (x.moveOff.getD []) sv.courses with
  | none => s
  | some s =>
    let s := s.modCtx ctx Context.resumed
    let ids := sv.courses.flatMap fun c => c.threads.map (·.1)
    let s := ids.foldl State.reenterHolds s
    let s := ids.foldl State.reenterWaits s
    let s := ids.foldl State.checkTags s
    let s := ((sv.courses.filterMap fun c => (s.course c.id).map fun x => coreCluster x.core).foldl addNew
      []).foldl State.serveAll s
    sv.answers.foldl (fun s a => s.applyAnswer ctx a) s

/-- CONTEXT_RESTORE: of a saved context, or of one made valid again over the image of a freed one; an
image whose check code fails resets the context (R312). -/
def execContextRestore (ctx : Nat) (s : State) : Host.Outcome State Fault Refusal :=
  match s.ctx ctx with
  | none => .next s
  | some x =>
    match x.saved with
    | none => .next s
    | some sv =>
      if x.rung == .saved || x.rung == .running then
        if s.imageValid ctx x then .next (s.restoreContext ctx x sv) else .next (s.resetCtx ctx)
      else .next s

/-! ## The debugger (R313) -/

/-- DEBUG_STEP. -/
def execDebugStep (ctx : Nat) (on : Bool) (s : State) : Host.Outcome State Fault Refusal :=
  .next (s.modCtx ctx fun x => { x with step := on })

/-- DEBUG_BREAK. -/
def execDebugBreak (ctx : Nat) (on : Bool) (s : State) : Host.Outcome State Fault Refusal :=
  .next (s.modCtx ctx fun x => { x with brk := on })

/-- A thread that the debugger or the partition kernel holds stopped. -/
def Thread.halted (t : Thread) : Bool := t.await == .debug || t.await == .stopped

/-- DEBUG_CONTINUE: every stopped thread of the context is released, saved ones too. -/
def execDebugContinue (ctx : Nat) (s : State) : Host.Outcome State Fault Refusal :=
  let ids := (s.threads.filter fun p => s.ctxOf p.1 == ctx && p.2.halted).map (·.1)
  .next ((ids.foldl (fun s id => s.wake id) s).mapSaved fun id t =>
    if s.ctxOf id == ctx && t.halted then { t with await := .ready } else t)

/-! ## The rest of a context's control block (R319) -/

/-- CTX_S1_ROOT_WRITE. -/
def execCtxS1RootWrite (part : Nat) (w : DWord) (s : State) : Host.Outcome State Fault Refusal :=
  let ctx := bits w.toNat 9 0
  match s.ctx ctx with
  | some x =>
    if x.part == part && bits w.toNat 11 10 == 0 then
      .next (s.setCtx ctx { x with s1Root := BitVec.ofNat 64 (w.toNat / 4096 * 4096) })
    else .next s
  | none => .next s

/-- CTX_CEIL_WRITE (R16, R319). -/
def execCtxCeilWrite (part : Nat) (w : DWord) (s : State) : Host.Outcome State Fault Refusal :=
  let ctx := bits w.toNat 9 0
  match s.ctx ctx with
  | some x =>
    if x.part == part && w.toNat / 2 ^ 13 == 0 then
      .next (s.setCtx ctx { x with ceiling := BitVec.ofNat 3 (bits w.toNat 12 10) })
    else .next s
  | none => .next s

end Sys2Proof.Machine
end

