-- ==== Sys2Proof/Machine/Answers.lean ====
section
/-! DEFINITION. Answers.lean: answers to fault-queue entries (R190, R304, R316, R327), page walks and
the invalidation of translations (R188, R316), the turns of issue slots and twin mismatches (R118,
R120, R138, R339). -/

namespace Sys2Proof.Machine

/-! ## Everything that waits on a fault-queue entry -/

/-- Every ticket, with the course of what waits on it and whether it is in a context image. -/
def State.tickets (s : State) : List (Ticket × CourseId × Bool) :=
  let ofThread (p : ThreadId × Thread) : List (Ticket × CourseId) := match p.2.await with
    | .fault tk => [(tk, courseOf p.1)]
    | _ => []
  let ofOp (p : Nat × Op) : List (Ticket × CourseId) :=
    (p.2.stop.map fun tk => (tk, courseOf p.2.th)).toList
  let ofEntry (e : AtomdEntry) : List (Ticket × CourseId) :=
    (e.stop.map fun tk => (tk, courseOf e.th)).toList
  let ofCourse (p : CourseId × Course) : List (Ticket × CourseId) :=
    (p.2.commits.filterMap fun m => m.stop.map fun tk => (tk, p.1)) ++
      (p.2.binStop.map fun tk => (tk, p.1)).toList
  let here := s.threads.flatMap ofThread ++ s.ops.flatMap ofOp ++
    (s.cores.flatMap fun p => p.2.atomd.flatMap ofEntry) ++ s.courses.flatMap ofCourse
  let away := s.ctxs.flatMap fun p => match p.2.saved with
    | some sv => sv.courses.flatMap fun c =>
        c.threads.flatMap ofThread ++ c.ops.flatMap ofOp ++ c.atomd.flatMap ofEntry
    | none => []
  here.map (fun t => (t.1, t.2, false)) ++ away.map fun t => (t.1, t.2, true)

/-- Change every ticket; what `f` gives none for waits no more. -/
def State.mapTickets (s : State) (f : Ticket → Option Ticket) : State :=
  let freed := (s.threads.filter fun p => match p.2.await with
    | .fault tk => (f tk).isNone
    | _ => false).map (·.1)
  (freed.foldl (fun s id => (s.dropSleep id).wake id) s).setTickets f

/-- Ticket `n` of a queue. -/
def Ticket.is (tk : Ticket) (hv : Bool) (part n : Nat) : Bool :=
  tk.hv == hv && (hv || tk.part == part) && tk.index == some n

/-- A ticket that waits for room in a queue. -/
def Ticket.waits (tk : Ticket) (hv : Bool) (part : Nat) : Bool :=
  tk.hv == hv && (hv || tk.part == part) && tk.index.isNone

def Ticket.gts (tk : Ticket) : Nat := entryGts tk.entry

/-- Faults that wait for room enter it, the oldest first, of equal `%gts` by source (R190, R341). -/
def State.fillQueue (s : State) (hv : Bool) (part : Nat) : Nat → State
  | 0 => s
  | n + 1 =>
    match leastBy (fun a b => decide (a.gts < b.gts) || (a.gts == b.gts && decide (a.src < b.src)))
        ((s.tickets.map (·.1)).filter fun tk => tk.waits hv part) with
    | none => s
    | some tk =>
      let (tk', s) := s.enterFault hv tk.part tk.src tk.entry
      if tk'.index.isNone then s
      else
        let waiting := (s.threads.filter fun p => p.2.await == .fault tk).map (·.1)
        let s := waiting.foldl (fun s id => s.dropSleep id) s
        (s.mapTickets fun x => some (if x = tk then tk' else x)).fillQueue hv part n

/-! ## A snapshot's protected pages (R327) -/

/-! ## Answers (R190, R304) -/

/-- Apply one answer: retry, reset or rollback of what waits on the entry; of a saved context, reset
and rollback apply at restore. An entry that nothing waits on any more has no effect. -/
def State.answerFault (s : State) (hv : Bool) (part n : Nat) : State :=
  let e := leNat (s.readPhys ((s.faultRing hv part).slot n 32) 32)
  let resp := bits e 36 35
  match s.tickets.find? fun t => t.1.is hv part n with
  | none => s
  | some (tk, co, away) =>
    let own := tk.entry.toNat
    let ctx := bits own 63 54
    let s := if hv && resp == 0 then
        (match s.pageOf ctx (bits own 255 192) with
          | some page => s.liftPage (s.partOf ctx) page
          | none => s)
      else s
    if resp == 0 then s.mapTickets fun x => if x.is hv part n then none else some x
    else
      let a : Answer :=
        { reset := resp != 2, co := co, pc := BitVec.ofNat 32 (bits own 95 64), cthr := bits own 53 44 }
      if away then
        s.modCtx ctx fun x => { x with saved := x.saved.map fun sv =>
          { sv with answers := sv.answers ++ [a] } }
      else s.applyAnswer ctx a

/-- A larger head answers the entries that it passes, in queue order; then faults that waited for room
enter. -/
def State.answerFaults (s : State) (hv : Bool) (part : Nat) (head : DWord) : State :=
  let r := s.faultRing hv part
  let h := min head.toNat r.tail
  let s := (List.range (h - r.head)).foldl (fun s i => s.answerFault hv part (r.head + i)) s
  let s := s.setFaultRing hv part { s.faultRing hv part with head := max h r.head }
  s.fillQueue hv part s.tickets.length

/-- FAULT_QUEUE_ANSWER. -/
def execFaultQueueAnswer (part : Nat) (head : DWord) (s : State) : Host.Outcome State Fault Refusal :=
  match s.part part with
  | some _ => .next (s.answerFaults false part head)
  | none => .next s

/-- HV_FAULT_QUEUE_ANSWER (R316). -/
def execHvFaultQueueAnswer (head : DWord) (s : State) : Host.Outcome State Fault Refusal :=
  .next (s.answerFaults true 0 head)

/-! ## Walks and invalidation (R188, R316) -/

/-- PAGE_WALK: the translation is cached when the walk succeeds. -/
def execPageWalk (core ctx : Nat) (va : DWord) (s : State) : Host.Outcome State Fault Refusal :=
  match s.walk ctx va with
  | .ok e => .next (s.cacheTlb core e)
  | .error _ => .next s

/-- TLB_INVAL_PAGE: one page of a context of the partition. -/
def execTlbInvalPage (part ctx : Nat) (va : DWord) (s : State) : Host.Outcome State Fault Refusal :=
  if (s.ctx ctx).any fun x => x.part == part then
    .next (s.dropTranslations fun e => e.ctx == ctx && decide (e.page / 65536 ≤ va.toNat / 65536) &&
      decide (va.toNat / 65536 ≤ (e.page + e.size - 1) / 65536))
  else .next s

/-- TLB_INVAL_CONTEXT. -/
def execTlbInvalContext (part ctx : Nat) (s : State) : Host.Outcome State Fault Refusal :=
  if (s.ctx ctx).any fun x => x.part == part then .next (s.dropTranslations fun e => e.ctx == ctx) else .next s

/-- TLB_INVAL_PARTITION. -/
def execTlbInvalPartition (part : Nat) (s : State) : Host.Outcome State Fault Refusal :=
  .next (s.dropTranslations fun e => (s.ctx e.ctx).any fun x => x.part == part)

/-- HV_TLB_INVAL_PAGE: the translations that used one intermediate page of a context. The hypervisor
writes it after it changes the page's stage-2 entry; on a page that a snapshot protects the change
lifts the protection. -/
def execHvTlbInvalPage (ctx : Nat) (ia : DWord) (s : State) : Host.Outcome State Fault Refusal :=
  match s.ctx ctx with
  | none => .next s
  | some x =>
    let s := match s.stage2 x ia.toNat with
      | some (pa, _) => s.liftPage x.part (pa / 65536)
      | none => s
    .next (s.dropTranslations fun e => e.ctx == ctx && decide (e.inter / 65536 ≤ ia.toNat / 65536) &&
      decide (ia.toNat / 65536 ≤ (e.inter + e.size - 1) / 65536))

/-- HV_TLB_INVAL_CONTEXT. -/
def execHvTlbInvalContext (ctx : Nat) (s : State) : Host.Outcome State Fault Refusal :=
  .next (s.dropTranslations fun e => e.ctx == ctx)

/-- HV_TLB_INVAL_PARTITION: every translation of the context's partition. -/
def execHvTlbInvalPartition (ctx : Nat) (s : State) : Host.Outcome State Fault Refusal :=
  match s.ctx ctx with
  | none => .next s
  | some x => .next (s.dropTranslations fun e => (s.ctx e.ctx).any fun y => y.part == x.part)

/-- HV_TLB_INVAL_PART. -/
def execHvTlbInvalPart (s : State) : Host.Outcome State Fault Refusal := .next (s.dropTranslations fun _ => true)

/-! ## Turns (R118, R120) -/

/-- SLOT_TURN. -/
def execSlotTurn (core : Nat) (s : State) : Host.Outcome State Fault Refusal :=
  if s.issue.isSome then .next s else .next (s.slotTurn core)

/-- THREAD_OVERDUE. -/
def execThreadOverdue (th : ThreadId) (s : State) : Host.Outcome State Fault Refusal :=
  .next (s.threadOverdue th)

/-! ## Twin mismatches and the retirement of a cluster (R138, R339) -/

/-- Take a context through a hard halt and restore it off a cluster (R339, R340). A context already on
the ladder leaves the cluster by its own halt. -/
def State.moveContext (s : State) (cluster ctx : Nat) : State :=
  s.modCtx ctx fun x =>
    match x.rung with
    | .running => { x with rung := .halting, moveOff := some [cluster] }
    | .soft => { x with rung := .halting, moveOff := some [cluster] }
    | .halting => { x with moveOff := x.moveOff.map fun l => addNew l cluster }
    | _ => x

/-- Contexts with a course on a cluster. -/
def State.ctxsOn (s : State) (cluster : Nat) : List Nat :=
  (s.courses.filter fun p => p.2.core != noCore && coreCluster p.2.core == cluster).foldl
    (fun l p => addNew l p.2.ctx) []

/-- The partition that a cluster belongs to. -/
def State.partOfCluster (s : State) (cluster : Nat) : Option Nat :=
  (s.parts.find? fun p => cluster ∈ p.2.clusters).map (·.1)

/-- Event 0x0D about a core (R305). -/
def State.clusterEvent (s : State) (cluster core cls : Nat) : State :=
  match s.partOfCluster cluster with
  | some p => s.pushEvent p { src := coreCluster core, gts := s.gts, pc := core, type := 0x0D, cls := cls }
  | none => s

/-- A cluster goes out of service: the course at fault is handled, every other course is moved off,
and the event is written (R339). -/
def State.retireCluster (s : State) (cluster : Nat) (co : CourseId) (pc : Word) (cthr : Nat) : State :=
  let s := s.modCluster cluster fun c => { c with inService := false }
  let s := s.courseFailure co 0x03 pc cthr
  let s := (s.ctxsOn cluster).foldl (fun s c => s.moveContext cluster c) s
  s.clusterEvent cluster (coreNumber cluster 0) 0x03

/-- TWIN_MISMATCH: between the two issues of a twinned instruction. The first time the run goes on
from that instruction, twinned, with event 0x04; the second time the cluster is retired. The mismatch
is in some thread of the gang. -/
def execTwinMismatch (core slot : Nat) (s : State) : Host.Outcome State Fault Refusal :=
  let sl := (s.core core).slot slot
  match sl.run with
  | none => .next s
  | some r =>
    if !r.twin || !r.second then .next s
    else
      let (k, s) := s.drawBelow r.gang.length
      match r.gang[k]? with
      | none => .next s
      | some id =>
        let pc := match s.thread id with
          | some t => t.pc
          | none => 0
        if r.mismatched then .next (s.retireCluster (coreCluster core) (courseOf id) pc id.cthr)
        else
          let s := s.modCore core fun c =>
            c.setSlot slot { sl with run := some { r with second := false, mismatched := true } }
          .next (s.threadEvent id pc 0x04 0)

end Sys2Proof.Machine
end

