-- ==== Sys2Proof/Machine/Convert.lean ====
section
/-! DEFINITION. Convert.lean: conversions, tags and the special functions of group 0x8 (R166 to
R173). -/

namespace Sys2Proof.Machine

/-! ## CVT (R166) -/

/-- Elements and registers per unit of a format. -/
def Fmt.unit : Fmt → Nat × Nat
  | .f64 => (1, 2)
  | .f32 => (1, 1)
  | .bf16 => (2, 1)
  | .f16 => (2, 1)
  | .b8 _ _ _ => (4, 1)

/-- Registers of the span of `n` elements. -/
def Fmt.spanRegs (f : Fmt) (n : Nat) : Nat := n / f.unit.1 * f.unit.2

/-- The words of a span as one number, the first register lowest. -/
def Thread.spanBits (t : Thread) (o : Opd) (n : Nat) : Nat :=
  (Opd.span o n).zipIdx.foldl (fun acc p => acc + (t.reg p.1).bits.toNat * 2 ^ (32 * p.2)) 0

/-- Write a number to a span of registers with one tag. -/
def Thread.setSpan (t : Thread) (o : Opd) (n w : Nat) (tag : Tag) : Thread :=
  (Opd.span o n).zipIdx.foldl (fun t p => t.setReg p.1 ⟨BitVec.ofNat 32 (w / 2 ^ (32 * p.2)), tag⟩) t

/-- A span starts at a multiple of its length and lies below the register count. -/
def spanOk (o : Opd) (n regs : Nat) : Bool :=
  match o with
  | .v k => k.val % n == 0 && decide (k.val + n ≤ regs)
  | _ => false

/-- The value of an element under an E8 scale (R152). -/
def scaled (scale : Nat) (x : FloatVal) : FloatVal :=
  if scale == 0xFF then .nan false else x.scale ((scale : Int) - 127)

/-- Convert elements in order. -/
def convertAll (src dst : Fmt) (scale : Option Nat) (w : Nat) : Nat → Nat → FEnv → Nat → Nat × FEnv
  | 0, _, v, acc => (acc, v)
  | n + 1, e, v, acc =>
    let (x, v) := v.get src (w / 2 ^ (src.width * e) % 2 ^ src.width)
    let x := match scale with
      | some k => scaled k x
      | none => x
    let (r, v) := v.out dst x
    convertAll src dst scale w n (e + 1) v (acc + r * 2 ^ (dst.width * e))

/-- CVT of one thread. A span that starts at 0xFF does not lie below the register count. -/
def cvtThread (x : CvtOp) (regs : Nat) (t : Thread) : Except Trap Thread := do
  let st := (t.reg x.a).tag
  let src ← (match x.a, tagFmt st with
    | .v _, some f => Except.ok f
    | .v _, none => .error (Trap.tag x.a)
    | _, _ => .error (.illegal x.d.enc))
  match tagFmt x.fmt with
  | none => .error (.illegal x.d.enc)
  | some dst =>
    let n := max src.unit.1 dst.unit.1
    let ls := src.spanRegs n
    let ld := dst.spanRegs n
    t.needAll st x.a ((Opd.span x.a ls).filter fun o => match o with
      | .v k => decide (k.val < regs)
      | _ => false)
    if tagClass st == 6 then t.need false x.b 0
    if spanOk x.a ls regs && spanOk x.d ld regs then
      let scale := if tagClass st == 6 then some ((t.reg x.b).bits.toNat % 256) else none
      let (w, v) := convertAll src dst scale (t.spanBits x.a ls) n 0 (t.fenv x.rnd) 0
      .ok ((t.afterFloat v x.d).setSpan x.d ld w x.fmt).advance
    else .error (.illegal x.d.enc)

/-- CVT (R166). -/
def execCvt (x : CvtOp) (s : State) : Host.Outcome State Fault Refusal :=
  .next (s.runGang x.ctl fun s id t => do
    let t ← cvtThread x (s.regCount id) t
    .ok (s.setThread id t))

/-! ## CVTI (R167) -/

/-- CVTI. -/
def execCvti (x : CvtiOp) (s : State) : Host.Outcome State Fault Refusal :=
  .next (s.runLocal x.ctl fun t => do
    let wide := x.fmt == 0x40
    let f : Fmt := if wide then .f64 else .f32
    let v := t.fenv x.rnd
    if x.toFloat then
      t.need x.ty.wide x.a 0
      let (r, v) := v.out f (FloatVal.ofInt (t.srcOpd x.ty x.a) 0 false)
      let t := t.afterFloat v x.d
      .ok (if wide then t.setPair x.d (BitVec.ofNat 64 r) x.fmt
        else t.setReg x.d ⟨BitVec.ofNat 32 r, x.fmt⟩).advance
    else
      t.need wide x.a x.fmt
      let c := if wide then (t.pair x.a).toNat else (t.reg x.a).bits.toNat
      let (y, v) := v.get f c
      let (dr, v) := v.draw
      let (r, fl) := toInteger v.mode dr (IntTy.range x.ty).1 (IntTy.range x.ty).2 y
      .ok ((t.afterFloat (v.raise fl) x.d).put x.ty x.d r).advance)

/-! ## Tags (R168, R169) -/

/-- Change the newest contents of a tile (R124). -/
def State.modTile (s : State) (id : ThreadId) (n : Fin 8) (f : Tile → Tile) (readers writers : Bool) :
    State :=
  match s.tileReg id n with
  | some r => s.writeTile id n (f r.latest) readers writers
  | none => s

/-- The pair that an FP64 tag needs lies below the register count, and starts even (R168). -/
def pairBelow (o : Opd) (regs : Nat) : Bool :=
  match o with
  | .v n => n.val % 2 == 0 && decide (n.val + 1 < regs)
  | .zero => true
  | _ => false

/-- Set a tag on the bits of a. -/
def State.tagsetTo (s : State) (id : ThreadId) (t : Thread) (d a : Opd) (tag : Tag) : State :=
  match d with
  | .t n => (s.modTile id n (fun x => { x with tag := tag }) false false).setThread id t.advance
  | d =>
    if tag == 0x40 then s.setThread id (t.setPair d (t.pair a) tag).advance
    else s.setThread id (t.setReg d ⟨(t.reg a).bits, tag⟩).advance

/-- TAGSET (R168). -/
def execTagset (x : TagsetOp) (s : State) : Host.Outcome State Fault Refusal :=
  .next (s.runGang x.ctl fun s id t => do
    match x.b with
    | .zero => .ok (s.tagsetTo id t x.d x.a x.fmt)
    | b =>
      t.need false b 0
      let tag := (t.reg b).bits.setWidth 8
      let regs := s.regCount id
      if !tagValid tag then .error (.tag b)
      else if tag == 0x40 && !(pairBelow x.d regs && pairBelow x.a regs) then .error (.tag b)
      else .ok (s.tagsetTo id t x.d x.a tag))

/-- TAGGET (R169). -/
def execTagget (x : DaOp) (s : State) : Host.Outcome State Fault Refusal :=
  .next (s.runGang x.ctl fun s id t =>
    let tag := match x.a with
      | .t n => (s.readTile id n).tag
      | o => (t.reg o).tag
    .ok (s.setThread id (t.setReg x.d ⟨tag.setWidth 32, 0⟩).advance))

/-! ## Special functions (R170 to R173) -/

/-- A special function of one FP32 source. -/
def specialThread (f : Special) (x : FUn) (t : Thread) : Except Trap Thread := do
  t.need false x.a 0x20
  let (r, v) := t.fenvRne.special f t.compat (t.reg x.a).bits.toNat
  .ok ((t.afterFloat v x.d).setReg x.d ⟨BitVec.ofNat 32 r, 0x20⟩).advance

/-- FEXP2. -/
def execFexp2 (x : FUn) (s : State) : Host.Outcome State Fault Refusal :=
  .next (s.runLocal x.ctl (specialThread .exp2 x))

/-- FLOG2. -/
def execFlog2 (x : FUn) (s : State) : Host.Outcome State Fault Refusal :=
  .next (s.runLocal x.ctl (specialThread .log2 x))

/-- FRCP. -/
def execFrcp (x : FUn) (s : State) : Host.Outcome State Fault Refusal :=
  .next (s.runLocal x.ctl (specialThread .rcp x))

/-- FRSQ. -/
def execFrsq (x : FUn) (s : State) : Host.Outcome State Fault Refusal :=
  .next (s.runLocal x.ctl (specialThread .rsq x))

/-- FSIN. -/
def execFsin (x : FUn) (s : State) : Host.Outcome State Fault Refusal :=
  .next (s.runLocal x.ctl (specialThread .sin x))

/-- FCOS. -/
def execFcos (x : FUn) (s : State) : Host.Outcome State Fault Refusal :=
  .next (s.runLocal x.ctl (specialThread .cos x))

/-- FTANH. -/
def execFtanh (x : FUn) (s : State) : Host.Outcome State Fault Refusal :=
  .next (s.runLocal x.ctl (specialThread .tanh x))

/-- FSIGM. -/
def execFsigm (x : FUn) (s : State) : Host.Outcome State Fault Refusal :=
  .next (s.runLocal x.ctl (specialThread .sigm x))

/-- FGELU. -/
def execFgelu (x : FUn) (s : State) : Host.Outcome State Fault Refusal :=
  .next (s.runLocal x.ctl (specialThread .gelu x))

end Sys2Proof.Machine
end

