-- ==== Sys2Proof/Machine/Text.lean ====
section
/-! DEFINITION. Text.lean: what the assembler reads characters with: names, operands, numbers (R33,
R34, R354), expressions (R355), and the numbers that diagnostics print. A source is a list of
characters, one for each byte. -/

namespace Sys2Proof.Machine

/-- Characters of a source. -/
abbrev Chars := List Char

/-- A diagnostic's code and text (R46). -/
structure Diag where
  code : String
  text : String
  deriving DecidableEq, Repr

def diag {α : Type} (code text : String) : Except Diag α := .error ⟨code, text⟩

def str (c : Chars) : String := String.ofList c

/-- Syntax error near what stands there. -/
def nearErr {α : Type} (c : Chars) : Except Diag α :=
  diag "A107" ("syntax error near '" ++ str c ++ "'")

/-! ## Characters -/

def isBlank (c : Char) : Bool := c == ' ' || c == '\t' || c == '\r'

def isDigit (c : Char) : Bool := decide ('0' ≤ c) && decide (c ≤ '9')

def isLetter (c : Char) : Bool :=
  (decide ('a' ≤ c) && decide (c ≤ 'z')) || (decide ('A' ≤ c) && decide (c ≤ 'Z'))

def nameStart (c : Char) : Bool := isLetter c || c == '_' || c == '.'

def nameChar (c : Char) : Bool := nameStart c || isDigit c

def trimStart : Chars → Chars
  | [] => []
  | c :: r => if isBlank c then trimStart r else c :: r

def trim (c : Chars) : Chars := (trimStart (trimStart c).reverse).reverse

/-- The leading characters that satisfy a test, and the rest. -/
def spanOf (p : Char → Bool) : Chars → Chars × Chars
  | [] => ([], [])
  | c :: r =>
    if p c then
      let (a, b) := spanOf p r
      (c :: a, b)
    else ([], c :: r)

/-- The first word of a trimmed line, and what follows it. -/
def firstWord (c : Chars) : Chars × Chars :=
  let (a, b) := spanOf (fun x => !isBlank x) c
  (a, trim b)

/-- Cut at a character. -/
def splitOn (s : Char) : Chars → List Chars
  | [] => [[]]
  | c :: r =>
    if c == s then [] :: splitOn s r
    else match splitOn s r with
      | x :: xs => (c :: x) :: xs
      | [] => [[c]]

/-- Cut at the commas that stand in no bracket. -/
def splitArgsAt (depth : Nat) : Chars → List Chars
  | [] => [[]]
  | c :: r =>
    if c == ',' && depth == 0 then [] :: splitArgsAt 0 r
    else
      let d := if c == '(' || c == '[' then depth + 1 else if c == ')' || c == ']' then depth - 1 else depth
      match splitArgsAt d r with
      | x :: xs => (c :: x) :: xs
      | [] => [[c]]

/-- Operands of a line, trimmed. -/
def splitArgs (c : Chars) : List Chars :=
  if (trim c).isEmpty then [] else (splitArgsAt 0 c).map trim

def isPrefix : Chars → Chars → Bool
  | [], _ => true
  | _, [] => false
  | a :: r, b :: t => a == b && isPrefix r t

/-! ## Numbers (R34) -/

def digitOf (c : Char) : Option Nat :=
  if isDigit c then some (c.toNat - 48)
  else if decide ('a' ≤ c) && decide (c ≤ 'f') then some (c.toNat - 87)
  else if decide ('A' ≤ c) && decide (c ≤ 'F') then some (c.toNat - 55)
  else none

/-- The value and the count of the digits of a base, underscores skipped. -/
def digitsIn (base : Nat) : Chars → Option (Nat × Nat)
  | cs => cs.foldl (fun a c => match a with
      | none => none
      | some (v, n) =>
        if c == '_' then some (v, n)
        else match digitOf c with
          | some d => if d < base then some (v * base + d, n + 1) else none
          | none => none) (some (0, 0))

/-- A literal without a sign: decimal, 0x or 0b. -/
def natLit (c : Chars) : Option Nat :=
  let fin (x : Option (Nat × Nat)) : Option Nat := match x with
    | some (v, n) => if n == 0 then none else some v
    | none => none
  match c with
  | '0' :: 'x' :: r => fin (digitsIn 16 r)
  | '0' :: 'b' :: r => fin (digitsIn 2 r)
  | d :: _ => if isDigit d then fin (digitsIn 10 c) else none
  | [] => none

/-- A literal with an optional leading minus. -/
def intLit (c : Chars) : Option Int :=
  match c with
  | '-' :: r => (natLit (trim r)).map fun n => -(n : Int)
  | _ => (natLit c).map fun n => (n : Int)

/-- The exact value of a float literal: sign, numerator, denominator (R354). -/
structure Exact where
  neg : Bool
  num : Nat
  den : Nat
  deriving DecidableEq, Repr

/-- A decimal exponent, signed. -/
def expLit (c : Chars) : Option Int :=
  match c with
  | '+' :: r => (digitsIn 10 r).bind fun p => if p.2 == 0 then none else some (p.1 : Int)
  | '-' :: r => (digitsIn 10 r).bind fun p => if p.2 == 0 then none else some (-(p.1 : Int))
  | r => (digitsIn 10 r).bind fun p => if p.2 == 0 then none else some (p.1 : Int)

/-- Mantissa digits around an optional point: value and digits after the point. -/
def mantissa (base : Nat) (c : Chars) : Option (Nat × Nat) :=
  let (a, b) := spanOf (· != '.') c
  let frac := b.drop 1
  match digitsIn base a, digitsIn base frac with
  | some (x, n), some (y, m) => if n + m == 0 then none else some (x * base ^ m + y, m)
  | _, _ => none

/-- Scale by a power. -/
def Exact.scale (x : Exact) (base : Nat) (e : Int) : Exact :=
  if e ≥ 0 then { x with num := x.num * base ^ e.toNat }
  else { x with den := x.den * base ^ (-e).toNat }

/-- A float literal without a sign: a decimal with a point or an exponent, or a hexadecimal one with
a binary exponent. -/
def floatAbs (c : Chars) : Option Exact :=
  match c with
  | '0' :: 'x' :: r =>
    let (m, e) := spanOf (· != 'p') r
    match e with
    | _ :: e =>
      match mantissa 16 m, expLit e with
      | some (v, k), some x => some ((Exact.mk false v 1).scale 2 (x - 4 * (k : Int)))
      | _, _ => none
    | [] => none
  | _ =>
    let (m, e) := spanOf (fun x => x != 'e' && x != 'E') c
    if !(c.any fun x => x == '.' || x == 'e' || x == 'E') || !(c.head?.any fun x => isDigit x || x == '.') then none
    else
      match mantissa 10 m, (match e with
        | [] => some 0
        | _ :: e => expLit e) with
      | some (v, k), some x => some ((Exact.mk false v 1).scale 10 (x - (k : Int)))
      | _, _ => none

/-- A float literal with an optional leading minus. -/
def floatLit (c : Chars) : Option Exact :=
  match c with
  | '-' :: r => (floatAbs (trim r)).map fun x => { x with neg := true }
  | _ => floatAbs c

/-- Powers of two that a quotient is scaled by before it is cut. -/
def Exact.shift (x : Exact) : Int := 1200 + (Nat.log2 x.den : Int) - (Nat.log2 x.num : Int)

/-- Round an exact value once into a format, ties to even (R354); beyond the largest finite value it
is an infinity. -/
def Exact.round (f : Fmt) (x : Exact) : Nat :=
  if x.num == 0 then f.code x.neg 0
  else
    let k := x.shift
    let n := if k ≥ 0 then x.num * 2 ^ k.toNat else x.num
    let d := if k ≥ 0 then x.den else x.den * 2 ^ (-k).toNat
    f.rne (.fin x.neg (n / d) (-k)) (n % d != 0)

/-! ## Registers as symbols (R33) -/

/-- Number of registers of a letter's class. -/
def classSize (c : Char) : Nat :=
  match c with
  | 'v' => 192
  | 'd' => 96
  | 'k' => 16
  | 't' => 8
  | 'b' => 16
  | 'p' => 8
  | _ => 0

/-- A register as it is written: its class letter and number. -/
def regName (c : Chars) : Option (Char × Nat) :=
  match c with
  | l :: r =>
    match digitsIn 10 r with
    | some (n, k) =>
      if k != 0 && r.all isDigit && decide (n < classSize l) then some (l, n) else none
    | none => none
  | [] => none

/-- A name that may be a symbol. -/
def symName (c : Chars) : Bool :=
  c.head?.any nameStart && c.all nameChar && (regName c).isNone && c != "zero".toList

/-- A name local to the file. -/
def localName (c : Chars) : Bool := isPrefix ['.', 'L'] c

/-! ## Expressions (R355) -/

/-- 64-bit two's complement. -/
def wrap64 (x : Int) : Int := signedOf 64 (lowBits 64 x)

inductive BinOp where
  | or | and | shl | shr | add | sub | mul | div
  deriving DecidableEq, Repr

/-- How tightly an operator binds, the loosest 0. -/
def BinOp.level : BinOp → Nat
  | .or => 0
  | .and => 1
  | .shl => 2
  | .shr => 2
  | .add => 3
  | .sub => 3
  | .mul => 4
  | .div => 4

inductive Tok where
  | num (n : Nat)
  | sym (s : Chars)
  | op (o : BinOp)
  | lp
  | rp
  deriving DecidableEq, Repr

/-- Tokens of an expression; `none` where no token begins. -/
def tokens : Nat → Chars → Option (List Tok)
  | 0, _ => none
  | n + 1, cs =>
    match trimStart cs with
    | [] => some []
    | '<' :: '<' :: r => (tokens n r).map (.op .shl :: ·)
    | '>' :: '>' :: r => (tokens n r).map (.op .shr :: ·)
    | '|' :: r => (tokens n r).map (.op .or :: ·)
    | '&' :: r => (tokens n r).map (.op .and :: ·)
    | '+' :: r => (tokens n r).map (.op .add :: ·)
    | '-' :: r => (tokens n r).map (.op .sub :: ·)
    | '*' :: r => (tokens n r).map (.op .mul :: ·)
    | '/' :: r => (tokens n r).map (.op .div :: ·)
    | '(' :: r => (tokens n r).map (.lp :: ·)
    | ')' :: r => (tokens n r).map (.rp :: ·)
    | c :: r =>
      let (w, rest) := spanOf nameChar (c :: r)
      if isDigit c then
        match natLit w with
        | some v => (tokens n rest).map (.num v :: ·)
        | none => none
      else if symName w then (tokens n rest).map (.sym w :: ·)
      else none

inductive Expr where
  | num (n : Nat)
  | sym (s : Chars)
  | neg (e : Expr)
  | bin (o : BinOp) (a b : Expr)

/-- Parse by levels: with no left operand, an operand of the level; with one, the operators of the
level that follow it, which group from the left. -/
def parseExpr : Nat → Nat → Option Expr → List Tok → Option (Expr × List Tok)
  | 0, _, _, _ => none
  | n + 1, lvl, none, ts =>
    if lvl < 5 then
      match parseExpr n (lvl + 1) none ts with
      | some (e, r) => parseExpr n lvl (some e) r
      | none => none
    else match ts with
      | .num v :: r => some (.num v, r)
      | .sym s :: r => some (.sym s, r)
      | .op .sub :: r =>
        match parseExpr n 5 none r with
        | some (e, r) => some (.neg e, r)
        | none => none
      | .lp :: r =>
        match parseExpr n 0 none r with
        | some (e, .rp :: r) => some (e, r)
        | _ => none
      | _ => none
  | n + 1, lvl, some e, ts =>
    match ts with
    | .op o :: r =>
      if o.level == lvl then
        match parseExpr n (lvl + 1) none r with
        | some (y, r) => parseExpr n lvl (some (.bin o e y)) r
        | none => none
      else some (e, ts)
    | _ => some (e, ts)

/-- A value: a number, with the one relocatable symbol that it is counted from (R37). -/
structure Val where
  k : Int
  rel : Option Chars
  deriving DecidableEq, Repr

/-- What a symbol stands for. -/
inductive SymVal where
  | abs (v : Int)
  | rel
  | unknown

def notAbsolute {α : Type} (s : Chars) : Except Diag α :=
  diag "A206" ("symbol '" ++ str s ++ "' is not absolute")

def undefinedSym {α : Type} (s : Chars) : Except Diag α :=
  diag "A201" ("undefined symbol '" ++ str s ++ "'")

/-- Apply an operator to absolute values; `text` is the expression, for A108. -/
def BinOp.apply (o : BinOp) (x y : Int) (text : Chars) : Except Diag Int :=
  let bad : Except Diag Int := diag "A108" ("invalid expression: " ++ str text)
  let ux := lowBits 64 x
  let uy := lowBits 64 y
  match o with
  | .or => .ok (signedOf 64 (ux ||| uy))
  | .and => .ok (signedOf 64 (ux &&& uy))
  | .add => .ok (wrap64 (x + y))
  | .sub => .ok (wrap64 (x - y))
  | .mul => .ok (wrap64 (x * y))
  | .div => if y == 0 then bad else .ok (wrap64 (Int.tdiv x y))
  | .shl => if decide (y < 0) || decide (63 < y) then bad else .ok (wrap64 (x * (2 ^ y.toNat : Nat)))
  | .shr => if decide (y < 0) || decide (63 < y) then bad else .ok (Int.fdiv x (2 ^ y.toNat : Nat))

/-- Evaluate. A relocatable symbol may stand only where the value is the symbol plus a constant, and
only when `rel` allows it. -/
def Expr.eval (look : Chars → SymVal) (allow : Bool) (text : Chars) : Expr → Except Diag Val
  | .num n =>
    if n < 2 ^ 64 then .ok ⟨signedOf 64 n, none⟩
    else diag "A105" ("value " ++ toString n ++ " does not fit 64 bits")
  | .sym s =>
    match look s with
    | .abs v => .ok ⟨v, none⟩
    | .rel => if allow then .ok ⟨0, some s⟩ else notAbsolute s
    | .unknown => undefinedSym s
  | .neg e => do
    let v ← e.eval look allow text
    match v.rel with
    | some s => notAbsolute s
    | none => .ok ⟨wrap64 (-v.k), none⟩
  | .bin o a b => do
    let x ← a.eval look allow text
    let y ← b.eval look allow text
    match x.rel, y.rel with
    | none, none =>
      let r ← o.apply x.k y.k text
      .ok ⟨r, none⟩
    | some s, none =>
      if o == .add || o == .sub then
        let r ← o.apply x.k y.k text
        .ok ⟨r, some s⟩
      else notAbsolute s
    | none, some s =>
      if o == .add then
        let r ← o.apply x.k y.k text
        .ok ⟨r, some s⟩
      else notAbsolute s
    | some s, some _ => notAbsolute s

/-- A float literal stands among the pieces of an expression, which takes none (R354). -/
def holdsFloat (c : Chars) : Bool :=
  let pieces (c : Chars) : List Chars :=
    c.foldr (fun x l => match l with
      | p :: r => if isBlank x || "+-*/&|<>()".toList.contains x then [] :: l else (x :: p) :: r
      | [] => [[x]]) [[]]
  (pieces c).any fun p =>
    p.head?.any isDigit && (natLit p).isNone &&
      ((floatAbs p).isSome || (floatAbs (p ++ ['0'])).isSome)

/-- A relocation operator is written here (R37). -/
def isOperator (c : Chars) : Bool := c.head? == some '%' && c.contains '('

def wrongField {α : Type} : Except Diag α := diag "A204" "relocation operator in wrong field"

def floatErr {α : Type} (c : Chars) (f : String) : Except Diag α :=
  diag "A105" ("value " ++ str c ++ " does not fit " ++ f)

/-- Read and evaluate an expression. -/
def evalText (look : Chars → SymVal) (allow : Bool) (c : Chars) : Except Diag Val :=
  let c := trim c
  if (floatLit c).isSome && (intLit c).isNone then
    floatErr c "an integer"
  else if c.contains '%' then wrongField
  else
    match tokens (c.length + 1) c with
    | none => if holdsFloat c then floatErr c "an integer" else nearErr c
    | some ts =>
      match parseExpr (16 * (ts.length + 2)) 0 none ts with
      | some (e, []) => e.eval look allow c
      | _ => nearErr c

/-! ## Printed numbers -/

/-- A hexadecimal digit. -/
def hexDigit (n : Nat) : Char :=
  if n < 10 then Char.ofNat (48 + n) else Char.ofNat (55 + n)

/-- `k` hexadecimal digits. -/
def hexDigits (n : Nat) : Nat → Chars
  | 0 => []
  | k + 1 => hexDigits (n / 16) k ++ [hexDigit (n % 16)]

/-- Digits that a number needs in hexadecimal. -/
def hexLen (n : Nat) : Nat := max 1 (if n == 0 then 1 else Nat.log2 n / 4 + 1)

/-- Underscores between groups of four digits, from the right. -/
def groupFour : Chars → Chars
  | cs =>
    ((cs.reverse.zipIdx.flatMap fun p => if p.2 != 0 && p.2 % 4 == 0 then ['_', p.1] else [p.1])).reverse

def padLeft (n : Nat) (c : Chars) : Chars := List.replicate (n - c.length) ' ' ++ c

def padRight (n : Nat) (c : Chars) : Chars := c ++ List.replicate (n - c.length) ' '

/-- As in `0xC000_0000`. -/
def hexStr (n : Nat) : String := "0x" ++ str (groupFour (hexDigits n (hexLen n)))

/-- A signed value in that form. -/
def hexInt (x : Int) : String := if x < 0 then "-" ++ hexStr x.natAbs else hexStr x.toNat

/-- One 32-bit group of a word. -/
def hexWord (n : Nat) : String := "0x" ++ str (groupFour (hexDigits n 8))

end Sys2Proof.Machine
end

