-- ==== Sys2Proof/Machine/Forms.lean ====
section
/-! DEFINITION. Forms.lean: how each mnemonic is written: its suffixes in their order, its operands
and where each goes (the encoding tables and examples of the entries, R5, R34 to R36, R55, R56, R84), and
the tags that sources want and results get (R45). -/

namespace Sys2Proof.Machine

/-! ## Shapes of the table -/

/-- What a suffix adds to m, field c and imm32, whether it makes the type's operands pairs (the
destination's and the others' apart for CVTI), and the tag of the type. -/
structure Eff where
  m : Nat := 0
  c : Nat := 0
  imm : Nat := 0
  wideD : Bool := false
  wide : Bool := false
  tag : Option Tag := none
  quad : Bool := false
  x32 : Bool := false

/-- A place for one suffix, and whether it must be there. -/
structure Suf where
  req : Bool
  words : List (String × Eff)

/-- Where an operand goes. -/
inductive Place where
  | d
  | a
  | b
  | c
  /-- m[2:0] and imm[10:8], for predicates; bits of imm32 from a position; m; all of imm32. -/
  | mLow
  | immPred
  | imm (at_ : Nat)
  | m
  deriving DecidableEq, Repr

/-- Classes an operand position allows (R34). `w` is a v register, or a d pair when the type is 64
bits wide; `wd` the same by the destination's type; `ev` a v register of an even number. -/
inductive Cls where
  | v | d | w | wd | ev | k | t | b | p | zero
  /-- An immediate in b; with a float literal; from 0 to 63. -/
  | imm | flt | imm6
  /-- A crew code (R127). -/
  | crew
  deriving DecidableEq, Repr

/-- Tags of an operand (R45): not judged, or these. -/
inductive Tg where
  | free
  /-- Every tag is accepted. -/
  | any
  | is (t : Tag)
  /-- That of the type suffix. -/
  | ty
  /-- What a store accepts (R87). -/
  | store
  /-- Any binary8×4 tag. -/
  | b8
  /-- Any floating-point tag (R166). -/
  | float
  /-- Consecutive registers, so many of each tag. -/
  | segs (l : List (Nat × Tag))
  /-- A result that takes the tag of the first source. -/
  | same
  deriving DecidableEq, Repr

inductive Arg where
  /-- A register, or an immediate where the classes allow one; how many registers its tags cover. -/
  | opd (p : Place) (cs : List Cls) (tg : Tg := .free) (n : Nat := 1)
  /-- A memory operand on a d pair or a v register. -/
  | mem (pair : Bool)
  /-- A number from a least to a greatest value. -/
  | num (p : Place) (lo hi : Nat)
  /-- All of imm32, and imm[19:0] of format H. -/
  | word
  | hi
  /-- A label of BRA and CALL, and of TRET. -/
  | target
  | back
  /-- The very word. -/
  | lit (s : String)
  /-- A special register; an index (R309). -/
  | sreg
  | idx
  /-- WAIT's limits; KCLR's registers, each with the rest of the line. -/
  | limits
  | kmask
  deriving DecidableEq

/-- Counter classes (R125). -/
inductive Counts where
  | load | store | copy | tile
  deriving DecidableEq, Repr

/-- How one form of a mnemonic is written. -/
structure Form where
  name : String
  group : Nat
  fn : Nat
  sufs : List Suf := []
  args : List Arg := []
  /-- Operands that may be left out, from the end. -/
  opt : Nat := 0
  m : Nat := 0
  c : Nat := 0xFF
  imm : Nat := 0
  /-- Always format I. -/
  fmtI : Bool := false
  /-- `fjas` sets bnd (R43). -/
  bnd : Bool := false
  /-- Width, sign and format byte come from the suffix (R84): a load, or not. -/
  memory : Option Bool := none
  count : Option Counts := none
  /-- An immediate in b names a bin (R45). -/
  bin : Bool := false

/-! ## Suffixes (R5, R55) -/

def sfx (m : Nat) (t : Tag) (wide : Bool := false) : Eff :=
  { m := 16 * m, tag := some t, wideD := wide, wide := wide }

/-- The eight integer types. -/
def intWords : List (String × Eff) :=
  [("n32", sfx 0 0), ("s32", sfx 1 0), ("n64", sfx 2 0 true), ("s64", sfx 3 0 true),
   ("n16", sfx 4 0), ("s16", sfx 5 0), ("n8", sfx 6 0), ("s8", sfx 7 0)]

def pick (ws : List String) (l : List (String × Eff)) : List (String × Eff) :=
  l.filter fun p => p.1 ∈ ws

def sInt : Suf := ⟨false, intWords⟩

def sIntOf (ws : List String) : Suf := ⟨false, pick ws intWords⟩

def f32Eff : Eff := { tag := some 0x20 }

def sF32 : Suf := ⟨false, [("f32", f32Eff)]⟩

def sF64 : Suf := ⟨false, [("f64", { tag := some 0x40, wideD := true, wide := true })]⟩

/-- The float types of group 0x6. -/
def sFlt : Suf := ⟨false, [("f32", f32Eff), ("bf16", sfx 1 0x60), ("f16", sfx 2 0x80)]⟩

def sAtom : Suf :=
  ⟨false, [("n32", sfx 0 0), ("s32", sfx 1 0), ("n64", sfx 2 0 true), ("s64", sfx 3 0 true),
    ("f32", sfx 4 0x20), ("f64", sfx 5 0x40 true)]⟩

def sCas : Suf := ⟨false, sAtom.words.take 4⟩

def sRed : Suf := ⟨false, sAtom.words.take 5⟩

/-- Words whose codes count up from a first one, in m. -/
def codesM (first : Nat) (ws : List String) : List (String × Eff) :=
  ws.zipIdx.map fun p => (p.1, { m := first + p.2 })

def sRnd : Suf := ⟨false, codesM 1 ["rne", "rtz", "rdn", "rup", "sr"]⟩

def sCond (n : Nat) : Suf := ⟨true, codesM 0 (["eq", "ne", "lt", "le", "gt", "ge", "ord", "uno"].take n)⟩

def sRedFn : Suf := ⟨true, codesM 0 ["add", "min", "max", "and", "or", "xor"]⟩

/-- Operations of ATOM, in field c. -/
def sAtomFn (n : Nat) : Suf :=
  ⟨true, (["add", "min", "max", "and", "or", "xor", "exch"].take n).zipIdx.map fun p =>
    (p.1, { c := p.2 })⟩

def sOrd : Suf := ⟨false, [("acq", { m := 4 }), ("rel", { m := 8 }), ("acqrel", { m := 12 })]⟩

/-- A flag word. -/
def sFlag (w : String) (m : Nat) (req : Bool := false) : Suf := ⟨req, [(w, { m := m })]⟩

/-- The binary8 suffixes with their tags: precision, signedness, infinities (R5, R10). -/
def b8Words : List (String × Eff) :=
  (List.range 7).flatMap fun i =>
    [(false, false), (false, true), (true, false), (true, true)].map fun (uns, inf) =>
      let t : Tag := BitVec.ofNat 8 (0xA0 + 4 * (i + 1) + (if uns then 0 else 2) + b2n inf)
      ("f8p" ++ toString (i + 1) ++ (if uns then "n" else "") ++ (if inf then "i" else ""),
        { c := t.toNat, tag := some t })

def fmtWord (s : String) (t : Nat) (wide : Bool := false) : String × Eff :=
  (s, { c := t, tag := some (BitVec.ofNat 8 t), wideD := wide, wide := wide })

/-- Floating-point formats in field c. -/
def floatFmts : List (String × Eff) :=
  [fmtWord "f32" 0x20, fmtWord "f64" 0x40 true, fmtWord "bf16" 0x60, fmtWord "f16" 0x80] ++ b8Words

def sX32 (req : Bool := false) : Suf := ⟨req, [("x32", { x32 := true })]⟩

/-- Suffixes of group 0x4: width code, sign and format byte (R84). -/
def sMem : Suf :=
  let i (s : String) (w x : Nat) (wide : Bool := false) : String × Eff :=
    (s, { m := 16 * w + 8 * x, c := 0, wideD := wide, wide := wide, tag := some 0 })
  ⟨true, [i "n8" 0 0, i "s8" 0 1, i "n16" 1 0, i "s16" 1 1, i "n32" 2 0, i "s32" 2 0, i "n64" 3 0 true,
      i "s64" 3 0 true] ++
    (floatFmts.map fun p => (p.1, { p.2 with m := if p.2.wide then 0x30 else 0x20 }))⟩

def sQuad : Suf := ⟨false, [("quad", { quad := true })]⟩

def sCol : Suf := ⟨false, (List.range 8).map fun i => ("c" ++ toString i, { imm := i * 4096 })⟩

def sPol (n : Nat) : Suf := ⟨false, (List.range n).map fun i => ("pol" ++ toString i, { imm := i * 32768 })⟩

/-- The mode of group 0xC. -/
def sMode (f64 : Bool) : Suf := ⟨true, if f64 then [("f64", { m := 0x10 })] else [("f32", {})]⟩

/-! ## Operands -/

def vi (p : Place) : Arg := .opd p [.v, .zero] (.is 0)
def va (p : Place) : Arg := .opd p [.v, .zero] .any
def bi : Arg := .opd .b [.v, .zero, .imm] (.is 0)
def di (p : Place) : Arg := .opd p [.d, .zero] (.is 0)
def wt (p : Place) : Arg := .opd p [if p == .d then .wd else .w, .zero] .ty
def wa (p : Place) : Arg := .opd p [if p == .d then .wd else .w, .zero] .any
def pr (p : Place) : Arg := .opd p [.p]
def vf (p : Place) : Arg := .opd p [.v, .zero] .ty
def df (p : Place) : Arg := .opd p [.d, .zero] (.is 0x40)
def crewArg : Arg := .opd .c [.crew]
def kr (p : Place) : Arg := .opd p [.k]
def tr (p : Place) : Arg := .opd p [.t]
def barOr (p : Place) : Arg := .opd p [.b, .zero]

/-- Forms that several mnemonics of a group share, with their fn. -/
def family (g : Nat) (l : List (String × Nat)) (f : Form) : List Form :=
  l.map fun p => { f with name := p.1, group := g, fn := p.2 }

/-! ## Groups 0x0 to 0x3 -/

def formsInt : List Form :=
  family 0x0 [("iadd", 0), ("isub", 1), ("imin", 2), ("imax", 3)]
    { name := "", group := 0, fn := 0, sufs := [sInt],
      args := [wt .d, wt .a, .opd .b [.w, .zero, .imm] .ty] } ++
  family 0x0 [("and", 5), ("or", 6), ("xor", 7), ("andn", 9)]
    { name := "", group := 0, fn := 0, sufs := [sInt],
      args := [wt .d, wa .a, .opd .b [.w, .zero, .imm] .any] } ++
  family 0x0 [("shl", 0xA), ("shr", 0xB), ("sar", 0xC), ("rol", 0xD), ("bfx", 0xE)]
    { name := "", group := 0, fn := 0, sufs := [sInt],
      args := [wt .d, wa .a, .opd .b [.v, .zero, .imm] .any] } ++
  [{ name := "iabs", group := 0, fn := 4, sufs := [⟨true, pick ["s32", "s64", "s16", "s8"] intWords⟩],
     args := [wt .d, wt .a] },
   { name := "not", group := 0, fn := 8, sufs := [sInt], args := [wt .d, wa .a] },
   { name := "bfi", group := 0, fn := 0xF, sufs := [sInt],
     args := [wt .d, wa .a, .opd .b [.v, .zero, .imm] .any, wa .c] },
   { name := "prmt", group := 0, fn := 0x10, sufs := [sIntOf ["n32"]],
     args := [vi .d, va .a, .opd .b [.v, .zero, .imm] .any, va .c] },
   { name := "mov", group := 0, fn := 0x11, sufs := [sIntOf ["n32", "n64"]],
     args := [.opd .d [.wd, .zero] .same, wa .a] },
   { name := "movi", group := 0, fn := 0x12, sufs := [sIntOf ["n32", "n64", "s64"]],
     args := [wt .d, .word], fmtI := true },
   { name := "movhi", group := 0, fn := 0x13, sufs := [sIntOf ["n32", "n64", "s64"]], args := [wt .d, .hi] },
   { name := "addpchi", group := 0, fn := 0x14, sufs := [sIntOf ["n32"]], args := [di .d, .hi] },
   { name := "lea", group := 0, fn := 0x15, sufs := [sIntOf ["n32"]], args := [di .d, .mem true] }]

def formsMul : List Form :=
  family 0x1 [("imul", 0), ("imulh", 1), ("idiv", 4), ("irem", 5)]
    { name := "", group := 1, fn := 0, sufs := [sInt],
      args := [wt .d, wt .a, .opd .b [.w, .zero, .imm] .ty] } ++
  [{ name := "imad", group := 1, fn := 2, sufs := [sInt],
     args := [wt .d, wt .a, .opd .b [.w, .zero, .imm] .ty, wt .c] },
   { name := "imadw", group := 1, fn := 3, sufs := [sIntOf ["n32", "s32"]], args := [di .d, vi .a, bi, di .c] }] ++
  family 0x1 [("popc", 6), ("clz", 7), ("ctz", 8)]
    { name := "", group := 1, fn := 0, sufs := [sIntOf ["n32", "n64", "n16", "n8"]], args := [vi .d, wa .a] } ++
  [{ name := "brev", group := 1, fn := 9, sufs := [sIntOf ["n32", "n64", "n16", "n8"]], args := [wt .d, wa .a] }]

def formsPred : List Form :=
  [{ name := "icmp", group := 2, fn := 0, sufs := [sInt, sCond 6],
     args := [pr .d, wt .a, .opd .b [.w, .zero, .imm] .ty] },
   { name := "sel", group := 2, fn := 1, sufs := [sIntOf ["n32", "n64"]],
     args := [wa .d, wa .a, .opd .b [.w, .zero, .imm] .any, pr .c] },
   { name := "plop", group := 2, fn := 2, args := [pr .d, pr .a, pr .c, pr .immPred, .num (.imm 0) 0 255],
     fmtI := true },
   { name := "pmov", group := 2, fn := 3, args := [vi .d, .lit "pr"], c := 0 },
   { name := "pmov", group := 2, fn := 3, args := [.lit "pr", va .a, .num (.imm 0) 0 127], c := 1 },
   { name := "pset", group := 2, fn := 4, args := [.word], fmtI := true }]

def formsCtl : List Form :=
  [{ name := "bra", group := 3, fn := 0, args := [.target], bnd := true },
   { name := "brx", group := 3, fn := 1, args := [di .a], bnd := true },
   { name := "call", group := 3, fn := 2, args := [.target], bnd := true },
   { name := "callx", group := 3, fn := 3, args := [di .a], bnd := true },
   { name := "ret", group := 3, fn := 4, bnd := true },
   { name := "exit", group := 3, fn := 5, bnd := true },
   { name := "nop", group := 3, fn := 6 }]

/-! ## Groups 0x4 and 0x5 -/

def dataW (p : Place) (tg : Tg) : Arg := .opd p [if p == .d then .wd else .w, .zero] tg

def formsMem : List Form :=
  [{ name := "ld", group := 4, fn := 0, sufs := [sMem, sQuad, sPol 4], args := [dataW .d .ty, .mem true],
     memory := some true, count := some .load },
   { name := "st", group := 4, fn := 1, sufs := [sMem, sQuad, sCol, sPol 4],
     args := [.mem true, dataW .b .store], memory := some false, count := some .store },
   { name := "lds", group := 4, fn := 2, sufs := [sMem, sQuad], args := [dataW .d .ty, .mem false],
     memory := some true, count := some .load },
   { name := "sts", group := 4, fn := 3, sufs := [sMem, sQuad], args := [.mem false, dataW .b .store],
     memory := some false, count := some .store },
   { name := "ldc", group := 4, fn := 4, sufs := [sMem, sQuad], args := [dataW .d .ty, .mem true],
     memory := some true, count := some .load },
   { name := "ldp", group := 4, fn := 5, sufs := [sMem, sQuad], args := [dataW .d .ty, .mem false],
     memory := some true, count := some .load },
   { name := "stp", group := 4, fn := 6, sufs := [sMem, sQuad], args := [.mem false, dataW .b .store],
     memory := some false, count := some .store },
   { name := "pref", group := 4, fn := 7, sufs := [sPol 3], args := [.mem true] }]

def formsSync : List Form :=
  [{ name := "acq", group := 5, fn := 0 }, { name := "rel", group := 5, fn := 1 },
   { name := "fence", group := 5, fn := 2, args := [.num (.imm 0) 0 255], count := some .store },
   { name := "atom", group := 5, fn := 3, sufs := [sAtom, sAtomFn 7, sOrd],
     args := [wt .d, .mem true, wt .b], c := 0, count := some .load },
   { name := "cas", group := 5, fn := 4, sufs := [sCas, sOrd], args := [wt .d, .mem true, wt .b, wt .c],
     count := some .load },
   { name := "atomd", group := 5, fn := 5, sufs := [sAtom, sAtomFn 6], args := [.mem true, wt .b], c := 0,
     count := some .store },
   { name := "dflush", group := 5, fn := 6, count := some .store }]

/-! ## Groups 0x6 to 0x8 -/

def fb : Arg := .opd .b [.v, .zero, .imm, .flt] .ty

def formsFloat : List Form :=
  family 6 [("fadd", 0), ("fsub", 1), ("fmul", 2)]
    { name := "", group := 6, fn := 0, sufs := [sFlt, sRnd], args := [vf .d, vf .a, fb] } ++
  family 6 [("fmin", 4), ("fmax", 5)]
    { name := "", group := 6, fn := 0, sufs := [sFlt], args := [vf .d, vf .a, fb] } ++
  [{ name := "ffma", group := 6, fn := 3, sufs := [sFlt, sRnd], args := [vf .d, vf .a, fb, vf .c] },
   { name := "fcmp", group := 6, fn := 6, sufs := [sF32, sCond 8], args := [pr .d, vf .a, fb] },
   { name := "fclass", group := 6, fn := 7, sufs := [sF32], args := [vi .d, vf .a] },
   { name := "fdiv", group := 6, fn := 8, sufs := [sF32, sRnd], args := [vf .d, vf .a, fb] },
   { name := "fsqrt", group := 6, fn := 9, sufs := [sF32, sRnd], args := [vf .d, vf .a] },
   { name := "fdot4", group := 6, fn := 0xA, sufs := [sF32, sRnd], m := 0x30,
     args := [vf .d, .opd .a [.v, .zero] .b8, .opd .b [.v, .zero] .b8, vf .c] }] ++
  family 7 [("dadd", 0), ("dsub", 1), ("dmul", 2), ("ddiv", 7)]
    { name := "", group := 7, fn := 0, sufs := [sF64, sRnd], args := [df .d, df .a, df .b] } ++
  family 7 [("dmin", 4), ("dmax", 5)]
    { name := "", group := 7, fn := 0, sufs := [sF64], args := [df .d, df .a, df .b] } ++
  [{ name := "dfma", group := 7, fn := 3, sufs := [sF64, sRnd], args := [df .d, df .a, df .b, df .c] },
   { name := "dcmp", group := 7, fn := 6, sufs := [sF64, sCond 8], args := [pr .d, df .a, df .b] },
   { name := "dsqrt", group := 7, fn := 8, sufs := [sF64, sRnd], args := [df .d, df .a] },
   { name := "dclass", group := 7, fn := 9, sufs := [sF64], args := [vi .d, df .a] }]

/-- CVTI: the destination's suffix, then the source's (R167). -/
def cvtiInt (dest : Bool) : List (String × Eff) :=
  intWords.map fun p => (p.1, { imm := p.2.m / 16 + (if dest then 0 else 8),
                                wideD := dest && p.2.wide, wide := !dest && p.2.wide })

def cvtiFlt (dest : Bool) : List (String × Eff) :=
  [("f32", { c := 0x20, tag := some 0x20 }),
   ("f64", { c := 0x40, tag := some 0x40, wideD := dest, wide := !dest })]

def formsCvt : List Form :=
  [{ name := "cvt", group := 8, fn := 0, c := 0, sufs := [⟨true, floatFmts⟩, sRnd], opt := 1,
     args := [.opd .d [.v, .wd, .zero] .ty, .opd .a [.v, .d, .zero] .float, vi .b] },
   { name := "cvts", group := 8, fn := 1, c := 0x20, count := some .tile, sufs := [⟨true, b8Words⟩, sX32, sRnd],
     args := [tr .d, tr .a, vi .b] },
   { name := "cvti", group := 8, fn := 2, c := 0, sufs := [⟨true, cvtiInt true⟩, ⟨true, cvtiFlt false⟩, sRnd],
     args := [.opd .d [.wd, .zero] (.is 0), .opd .a [.w, .zero] .ty] },
   { name := "cvti", group := 8, fn := 2, c := 0, sufs := [⟨true, cvtiFlt true⟩, ⟨true, cvtiInt false⟩, sRnd],
     args := [.opd .d [.wd, .zero] .ty, .opd .a [.w, .zero] (.is 0)] },
   { name := "tagset", group := 8, fn := 3, c := 0,
     sufs := [⟨false, (intWords.map fun p => (p.1, { tag := some 0 })) ++ floatFmts⟩, sX32], opt := 1,
     args := [.opd .d [.wd, .t, .zero] .ty, .opd .a [.w, .t, .zero] .any, vi .b] },
   { name := "tagget", group := 8, fn := 4, args := [vi .d, .opd .a [.v, .t, .zero] .any] }] ++
  family 8 [("fexp2", 5), ("flog2", 6), ("frcp", 7), ("frsq", 8), ("fsin", 9), ("fcos", 0xA),
      ("ftanh", 0xB), ("fsigm", 0xC), ("fgelu", 0xD)]
    { name := "", group := 8, fn := 0, sufs := [sF32], args := [vf .d, vf .a] } ++
  [{ name := "rmsn", group := 8, fn := 0xE, count := some .tile,
     args := [tr .d, tr .a, vi .b, .opd .c [.v, .zero] (.is 0x20)] },
   { name := "smax", group := 8, fn := 0xF, count := some .tile,
     args := [.opd .d [.ev, .d, .zero] (.is 0x20) 2, tr .a, vi .b] },
   { name := "rowsum", group := 8, fn := 0x10, count := some .tile,
     args := [.opd .d [.v, .zero] (.is 0x20), tr .a, vi .b] },
   { name := "rowscale", group := 8, fn := 0x11, count := some .tile,
     sufs := [⟨true, [("f32", { imm := 0 }), ("bf16", { imm := 4 }), ("f16", { imm := 8 })]⟩,
       ⟨true, [("fma", { imm := 0 }), ("exp", { imm := 1 })]⟩, sRnd],
     args := [tr .d, tr .a, vi .b, .opd .c [.ev, .d, .zero] (.is 0x20) 2] }]

/-! ## Groups 0x9 to 0xB -/

def formsCrew : List Form :=
  [{ name := "join", group := 9, fn := 0, args := [vi .d, .opd .b [.v, .zero, .imm6] (.is 0), pr .c] },
   { name := "leave", group := 9, fn := 1, args := [bi] },
   { name := "crew", group := 9, fn := 2, args := [vi .d, .opd .b [.v, .zero, .imm6] (.is 0)] },
   { name := "shfl", group := 9, fn := 3, bnd := true,
     sufs := [⟨true, codesM 0 ["idx", "up", "down", "xor"]⟩, sIntOf ["n32", "n64"]],
     args := [.opd .d [.wd, .zero] .free, wa .a, bi, crewArg] },
   { name := "vote", group := 9, fn := 4, bnd := true, sufs := [⟨true, codesM 0 ["any", "all", "leader"]⟩],
     args := [pr .d, pr .a, crewArg] },
   { name := "vote", group := 9, fn := 4, bnd := true, sufs := [sFlag "ballot" 3 true],
     args := [vi .d, pr .a, crewArg] },
   { name := "cred", group := 9, fn := 5, bnd := true, sufs := [sRed, sRedFn], args := [wt .d, wt .a, crewArg] },
   { name := "cscan", group := 9, fn := 6, bnd := true, sufs := [sRed, sRedFn, sFlag "excl" 8],
     args := [wt .d, wt .a, crewArg] },
   { name := "binit", group := 9, fn := 7, args := [.opd .d [.b], bi] },
   { name := "barv", group := 9, fn := 8, args := [vi .d, .opd .a [.b]] },
   { name := "bwait", group := 9, fn := 9, bnd := true, args := [.opd .a [.b], vi .b] },
   { name := "bsync", group := 9, fn := 0xA, bnd := true, args := [.opd .a [.b]] }]

def formsCopy : List Form :=
  family 0xA [("cpy", 0), ("cpyo", 2)]
    { name := "", group := 0xA, fn := 0, count := some .copy,
      args := [barOr .d, di .a, vi .b, .opd .c [.v, .t, .zero] (.is 0)] } ++
  [{ name := "cpyx", group := 0xA, fn := 1, count := some .copy,
     args := [barOr .d, di .a, vi .b, .opd .c [.v, .t, .zero] (.is 0), .num .m 0 7] },
   { name := "publ", group := 0xA, fn := 3, count := some .copy, sufs := [sFlag "keep" 1],
     args := [barOr .d, di .a, vi .b] },
   { name := "cpq", group := 0xA, fn := 4, sufs := [sFlag "clr" 1], args := [vi .d] },
   { name := "wait", group := 0xA, fn := 5, bnd := true, args := [.limits, .limits, .limits, .limits] }]

def formsMatrix : List Form :=
  [{ name := "mclm", group := 0xB, fn := 0, bnd := true, sufs := [sFlag "acc" 2, sFlag "wait" 1 true],
     args := [vi .d, bi] },
   { name := "mclm", group := 0xB, fn := 0, sufs := [sFlag "acc" 2], args := [vi .d, bi] },
   { name := "mrel", group := 0xB, fn := 1, sufs := [sFlag "acc" 2], args := [bi] },
   { name := "mlds", group := 0xB, fn := 2, c := 0, count := some .tile,
     sufs := [sFlag "a" 0 true, ⟨true, [fmtWord "f32" 0x20, fmtWord "bf16" 0x60] ++ b8Words⟩, sX32],
     args := [vi .d, .opd .a [.v, .t, .zero] (.is 0)] },
   { name := "mlds", group := 0xB, fn := 2, c := 0, count := some .tile,
     sufs := [sFlag "b" 1 true, ⟨true, [fmtWord "f32" 0x20, fmtWord "bf16" 0x60] ++ b8Words⟩, sX32],
     args := [vi .d, vi .a] },
   { name := "mpost", group := 0xB, fn := 3, count := some .tile, args := [barOr .d, vi .a] },
   { name := "macc", group := 0xB, fn := 4, count := some .tile, sufs := [sFlag "clr" 1],
     args := [tr .d, vi .a, vi .b] },
   { name := "mzero", group := 0xB, fn := 5, count := some .tile, args := [bi] }]

/-! ## Groups 0xC and 0xD -/

/-- A span's first register: a v register, or a pair under `.f64`. -/
def spanArg (p : Place) (f64 : Bool) : Arg := .opd p [if f64 then .d else .v]

/-- A ray's span, and a hit's (R224, R225, R228). -/
def rayArg (f64 : Bool) : Arg :=
  .opd .b [if f64 then .d else .v] (.segs [if f64 then (16, 0x40) else (8, 0x20), (1, 0)])

def hitArg (f64 : Bool) : Arg :=
  .opd .b [if f64 then .d else .v] (.segs [if f64 then (6, 0x40) else (3, 0x20), (2, 0)])

def formsRay : List Form :=
  [false, true].flatMap fun f =>
    [{ name := "trace", group := 0xC, fn := 0, sufs := [sMode f, sFlag "log" 1 true], count := some .load,
       args := [spanArg .d f, di .a, rayArg f, .opd .c [.d] (.is 0)] },
     { name := "trace", group := 0xC, fn := 0, sufs := [sMode f], count := some .load,
       args := [spanArg .d f, di .a, rayArg f, di .c] },
     { name := "tracec", group := 0xC, fn := 1, count := some .load,
       sufs := [sMode f, ⟨true, [("acc", { m := 1 }), ("rej", {})]⟩], args := [spanArg .d f, .opd .c [.d] (.is 0)] },
     { name := "replay", group := 0xC, fn := 2, sufs := [sMode f], count := some .load,
       args := [spanArg .d f, di .a, rayArg f, di .c] },
     { name := "hitq", group := 0xC, fn := 3, count := some .load,
       sufs := [sMode f, ⟨true, [("pos", {}), ("nrm", { m := 1 })]⟩, sFlag "direct" 8],
       args := [spanArg .d f, di .a, hitArg f] },
     { name := "hitq", group := 0xC, fn := 3, count := some .load,
       sufs := [sMode f, sFlag "rec" 2 true, sFlag "direct" 8], args := [di .d, di .a, hitArg f] },
     { name := "hitq", group := 0xC, fn := 3, count := some .load,
       sufs := [sMode f, sFlag "user" 3 true, sFlag "direct" 8], args := [vi .d, di .a, hitArg f] }] ++
    family 0xC [("asph", 4), ("trix", 5)]
      { name := "", group := 0xC, fn := 0, sufs := [sMode f], count := some .load,
        args := [spanArg .d f, di .a, rayArg f] } ++
    [{ name := "boxx", group := 0xC, fn := 6, sufs := [sMode f], count := some .load,
       args := [.opd .d [.ev], di .a, rayArg f] }]

def formsClosure : List Form :=
  let s4 (p : Place) : Arg := .opd p [.v] (.is 0x20) 4
  let sp (p : Place) : Arg := .opd p [.v]
  [{ name := "kclr", group := 0xD, fn := 0, args := [.kmask] }] ++
  ([("diff", 0x10), ("sheen", 0x40)].map fun (w, m) =>
    { name := "klobe", group := 0xD, fn := 1, sufs := [sFlag w m true], args := [kr .d, s4 .a, pr .mLow] }) ++
  [{ name := "klobe", group := 0xD, fn := 1, sufs := [sFlag "cond" 0x20 true],
     args := [kr .d, s4 .a, .opd .b [.ev] (.segs [(1, 0x20), (3, 0)]), pr .mLow] },
   { name := "klobe", group := 0xD, fn := 1, sufs := [sFlag "diel" 0x30 true],
     args := [kr .d, s4 .a, .opd .b [.v] (.is 0x20) 2, pr .mLow] },
   { name := "knet", group := 0xD, fn := 2, args := [kr .d, s4 .a, di .b, pr .mLow] },
   { name := "kadd", group := 0xD, fn := 3, args := [kr .d, kr .a, kr .b, pr .mLow] },
   { name := "kmix", group := 0xD, fn := 4,
     args := [kr .d, kr .a, kr .b, .opd .c [.v, .zero] (.is 0x20), pr .mLow] },
   { name := "kcoat", group := 0xD, fn := 5, args := [kr .d, kr .a, kr .b, .opd .c [.v] (.is 0x20) 3, pr .mLow] },
   { name := "kscl", group := 0xD, fn := 6, args := [kr .d, s4 .a] }] ++
  family 0xD [("ksample", 7), ("keval", 8), ("kpdf", 9)]
    { name := "", group := 0xD, fn := 0, count := some .load, args := [sp .d, kr .a, .opd .b [.v] (.is 0x20) 6] } ++
  [{ name := "kspill", group := 0xD, fn := 0xA, count := some .store, args := [kr .a, vi .b] },
   { name := "kfill", group := 0xD, fn := 0xB, args := [kr .a, pr .mLow] },
   { name := "kinfo", group := 0xD, fn := 0xC, sufs := [⟨true, [("node", {}), ("size", { m := 2 })]⟩],
     args := [vi .d, kr .a] },
   { name := "kinfo", group := 0xD, fn := 0xC, sufs := [sFlag "free" 1 true], args := [vi .d] }]

/-! ## Groups 0xE and 0xF -/

def formsWait : List Form :=
  [{ name := "yieldb", group := 0xE, fn := 0, c := 0, bnd := true, bin := true, opt := 1,
     args := [pr .d, bi, .num .c 0 32, .num .m 0 15] },
   { name := "resume", group := 0xE, fn := 1, bin := true, args := [vi .d, bi] },
   { name := "wake", group := 0xE, fn := 2, sufs := [sFlag "all" 0x10 true],
     args := [pr .d, vi .b, .num .m 1 15] },
   { name := "wake", group := 0xE, fn := 2, args := [pr .d, vi .a, vi .b, .num .m 1 15] },
   { name := "binq", group := 0xE, fn := 3, sufs := [sFlag "count" 0 true], args := [vi .d, vi .b] },
   { name := "binq", group := 0xE, fn := 3, sufs := [sFlag "area" 1 true], args := [di .a, vi .b] },
   { name := "tsort", group := 0xE, fn := 4, c := 0, sufs := [sFlag "desc" 1], count := some .tile,
     args := [vi .b, .num .c 0 31] },
   { name := "tcomp", group := 0xE, fn := 5, count := some .tile, args := [vi .b] },
   { name := "monitor", group := 0xE, fn := 6, args := [.mem true] },
   { name := "mwait", group := 0xE, fn := 7, bnd := true, args := [vi .d, bi] },
   { name := "hold", group := 0xE, fn := 8, args := [pr .d, .mem true] },
   { name := "unhold", group := 0xE, fn := 9, args := [.mem true] },
   { name := "wreg", group := 0xE, fn := 0xA, args := [di .a] },
   { name := "wdrop", group := 0xE, fn := 0xB }]

def formsSys : List Form :=
  [{ name := "sysc", group := 0xF, fn := 0, bnd := true, args := [.num (.imm 0) 0 65535] },
   { name := "tfence", group := 0xF, fn := 1, bnd := true },
   { name := "tret", group := 0xF, fn := 2, sufs := [⟨true, [("skip", { imm := 1 })]⟩] },
   { name := "tret", group := 0xF, fn := 2, sufs := [⟨true, [("to", { imm := 2 })]⟩], args := [.back] },
   { name := "tret", group := 0xF, fn := 2 },
   { name := "trap", group := 0xF, fn := 3, args := [.num (.imm 0) 0 255] },
   { name := "sread", group := 0xF, fn := 4, opt := 1, args := [.opd .d [.v, .d, .zero] (.is 0), .sreg, .idx] },
   { name := "swrite", group := 0xF, fn := 5, args := [.sreg, va .a] },
   { name := "launch", group := 0xF, fn := 6, count := some .load, args := [di .d, di .a, vi .b] },
   { name := "nopre", group := 0xF, fn := 7, sufs := [⟨true, [("end", {})]⟩] },
   { name := "nopre", group := 0xF, fn := 7, imm := 1 },
   { name := "bkpt", group := 0xF, fn := 8, args := [.num (.imm 0) 0 255] }]

/-- Every form. -/
def forms : List Form :=
  formsInt ++ formsMul ++ formsPred ++ formsCtl ++ formsMem ++ formsSync ++ formsFloat ++ formsCvt ++
    formsCrew ++ formsCopy ++ formsMatrix ++ formsRay ++ formsClosure ++ formsWait ++ formsSys

/-- Special registers by number (R309). -/
def sregNames : List String :=
  ["%tid", "%cidx", "%cthr", "%ccount", "%cthreads", "%core", "%die", "%slice", "%crew", "%crank",
   "%csize", "%gts", "%clock", "%fflags", "%fctl", "%trapmask", "%trappc", "%trapfpc", "%trapinfo",
   "%caps", "%hmap", "%ltp", "%prio", "%ctx"]

end Sys2Proof.Machine
end

