-- ==== Sys2Proof/Machine/Line.lean ====
section
/-! DEFINITION. Line.lean: an instruction line of the assembler: its parts (R33), its operands (R34 to
R37), and the word it makes or the diagnostic that refuses it (R356). -/

namespace Sys2Proof.Machine

/-! ## The parts of a line (R33) -/

structure Parts where
  label : Option Chars
  /-- Negated, predicate. -/
  guard : Option (Bool × Nat)
  body : Chars
  caret : Bool

/-- Up to a comment. -/
def cutComment : Chars → Chars
  | [] => []
  | ';' :: _ => []
  | '/' :: '/' :: _ => []
  | c :: r => c :: cutComment r

def takeLabel (c : Chars) : Option Chars × Chars :=
  let (n, r) := spanOf nameChar c
  match r with
  | ':' :: r => if n.head?.any nameStart then (some n, trim r) else (none, c)
  | _ => (none, c)

def takeGuard (c : Chars) : Option (Bool × Nat) × Chars :=
  let at_ (neg : Bool) (n : Char) (r : Chars) : Option (Bool × Nat) × Chars :=
    if decide ('0' ≤ n) && decide (n ≤ '7') then (some (neg, n.toNat - 48), trim r) else (none, c)
  match c with
  | '(' :: 'p' :: n :: ')' :: r => at_ false n r
  | '(' :: '!' :: 'p' :: n :: ')' :: r => at_ true n r
  | _ => (none, c)

def parseLine (text : Chars) : Parts :=
  let c := trim (cutComment text)
  let (caret, c) := match c.reverse with
    | '^' :: r => (true, trim r.reverse)
    | _ => (false, c)
  let (label, c) := takeLabel c
  let (guard, c) := takeGuard c
  ⟨label, guard, c, caret⟩

/-! ## A word in the making -/

/-- Registers of a source with the tag they must carry, by operand number. -/
structure SrcTag where
  arg : Nat
  regs : List Nat
  tg : Tg

/-- Fields a and b when they name v registers: a pair, how many registers are read, and the
encoding (R44). -/
abbrev RegField := Option (Bool × Nat × Nat)

structure Draft where
  d : Nat := 0xFF
  a : Nat := 0xFF
  b : Nat := 0xFF
  c : Nat := 0xFF
  m : Nat := 0
  imm : Nat := 0
  wideD : Bool := false
  wide : Bool := false
  quad : Bool := false
  tag : Tag := 0
  /-- Relocation types with their symbols (R37). -/
  relocs : List (Nat × Chars) := []
  target : Option Chars := none
  limits : List Nat := []
  fa : RegField := none
  fb : RegField := none
  srcs : List SrcTag := []
  dst : Option (List Nat × Tg) := none
  /-- SREAD's register, and whether its destination was written as a pair. -/
  sreg : Nat := 0
  dPair : Bool := false
  binImm : Option Nat := none

/-- What the line's surroundings give it. -/
structure LineEnv where
  pc : Nat
  look : Chars → SymVal
  /-- PC of a label of `.text`. -/
  textPc : Chars → Option Nat

/-- An operand as it is written. -/
inductive Written where
  | reg (cls : Char) (n : Nat)
  | zero
  | other

def written (c : Chars) : Written :=
  match regName c with
  | some (l, n) => .reg l n
  | none => if c == "zero".toList then .zero else .other

/-- Encoding of a register (R34). -/
def regCode (cls : Char) (n : Nat) : Nat :=
  match cls with
  | 'd' => 2 * n
  | 'k' => 0xC0 + n
  | 't' => 0xD0 + n
  | 'b' => 0xE0 + n
  | _ => n

def classErr {α : Type} (name : String) (n : Nat) (what : String) : Except Diag α :=
  diag "A104" ("operand " ++ toString n ++ " of '" ++ name ++ "' may not be " ++ what)

def fitErr {α : Type} (v : String) (f : String) : Except Diag α :=
  diag "A105" ("value " ++ v ++ " does not fit " ++ f)

/-- The position allows a register of the class. -/
def Draft.allows (x : Draft) (cs : List Cls) (cls : Char) (n : Nat) : Bool :=
  cs.any fun q => match q with
    | .v => cls == 'v'
    | .d => cls == 'd'
    | .w => cls == (if x.wide then 'd' else 'v')
    | .wd => cls == (if x.wideD then 'd' else 'v')
    | .ev => cls == 'v' && n % 2 == 0
    | .k => cls == 'k'
    | .t => cls == 't'
    | .b => cls == 'b'
    | .p => cls == 'p'
    | _ => false

/-- Put an encoding in its place. -/
def Draft.put (x : Draft) (p : Place) (e : Nat) : Draft :=
  match p with
  | .d => { x with d := e }
  | .a => { x with a := e }
  | .b => { x with b := e }
  | .c => { x with c := e }
  | .mLow => { x with m := x.m ||| e }
  | .immPred => { x with imm := x.imm ||| e * 256 }
  | .imm k => { x with imm := x.imm ||| e * 2 ^ k }
  | .m => { x with m := x.m ||| e }

/-- The tags of a type resolved. -/
def Draft.tgOf (x : Draft) : Tg → Tg
  | .ty => .is x.tag
  | .store => if tagClass x.tag == 0 then .any else .is x.tag
  | t => t

/-- Note a v register or pair for the checks of tags and reuse. -/
def Draft.note (x : Draft) (p : Place) (n : Nat) (tg : Tg) (cls : Char) (e k : Nat) : Draft :=
  if cls != 'v' && cls != 'd' then x
  else
    let pair := cls == 'd'
    let from_ (i m : Nat) : List Nat := (List.range m).map (e + i + ·)
    let parts : List (List Nat × Tg) := match tg with
      | .segs l => (l.foldl (fun a s => (a.1 ++ [(from_ a.2 s.1, Tg.is s.2)], a.2 + s.1)) (([] : List (List Nat × Tg)), 0)).1
      | tg => [(from_ 0 (k * (if pair then 2 else 1)), x.tgOf tg)]
    let width := (parts.map fun q => q.1.length).sum
    let x := match p with
      | .a => { x with fa := some (pair, width, e) }
      | .b => { x with fb := some (pair, width, e) }
      | _ => x
    if p == .d then { x with dst := parts.head?, dPair := pair }
    else { x with srcs := x.srcs ++ parts.map fun q => ⟨n, q.1, q.2⟩ }

/-- Relocation operators: their type, and whether they may stand in imm20 of H, in an offset of M, in
imm32 of I (R37). -/
def relocOp (c : Chars) : Option (Nat × Chars × Bool × Bool × Bool) :=
  match c with
  | '%' :: r =>
    let (op, rest) := spanOf isLetter r
    match rest with
    | '(' :: t =>
      match t.reverse with
      | ')' :: s =>
        let sym := trim s.reverse
        if !symName sym then none
        else match str op with
          | "pchi" => some (2, sym, true, false, false)
          | "pclo" => some (3, sym, false, true, true)
          | "gothi" => some (4, sym, true, false, false)
          | "gotlo" => some (5, sym, false, true, false)
          | _ => none
      | _ => none
    | _ => none
  | _ => none

inductive RelocPlace where
  | h | m | i | no
  deriving DecidableEq

/-- A value, or a relocation operator where it may stand; the field is then 0. -/
def Draft.value (x : Draft) (env : LineEnv) (at_ : RelocPlace) (c : Chars) : Except Diag (Int × Draft) :=
  match relocOp c with
  | some (t, sym, h, m, i) =>
    if (h && at_ == .h) || (m && at_ == .m) || (i && at_ == .i) then
      .ok (0, { x with relocs := x.relocs ++ [(t, sym)] })
    else wrongField
  | none => do
    let v ← evalText env.look false c
    .ok (v.k, x)

/-- A value fits a field, signed or unsigned (R34). -/
def fitsBits (v : Int) (n : Nat) : Bool :=
  decide (-(2 ^ (n - 1) : Nat) ≤ v) && decide (v < (2 ^ n : Nat))

/-- An immediate in operand b (R34, R50, R354). -/
def Draft.immB (x : Draft) (env : LineEnv) (cs : List Cls) (c : Chars) : Except Diag Draft :=
  let x : Draft := { x with m := x.m ||| 0x80, b := 0xFF }
  match floatLit c, intLit c with
  | some f, none =>
    if !cs.contains .flt then fitErr (str c) "imm32"
    else
      let v := if x.tag == 0x20 then f.round .f32
        else 65537 * f.round (if x.tag == 0x60 then .bf16 else .f16)
      .ok { x with imm := v }
  | _, _ => do
    let (v, x) ← x.value env .i c
    if cs.contains .imm6 && (decide (v < 0) || decide (63 < v)) then fitErr (toString v) "crew id"
    else if !fitsBits v 32 then fitErr (toString v) "imm32"
    else .ok { x with imm := lowBits 32 v, binImm := some (lowBits 32 v) }

/-- What refuses an operand that is no register and stands where an immediate may not (R34, R37). -/
def strayOpd {α : Type} (name : String) (n : Nat) (c : Chars) : Except Diag α :=
  if isOperator c then wrongField
  else if (floatLit c).isSome || (tokens (c.length + 1) c).isSome || holdsFloat c then
    classErr name n "an immediate"
  else nearErr c

/-- A memory operand (R36, R84). Of `[dN-e]` the negated value is held to the range: DESIGN CHOICE, the
value of e itself is another reading (log entry 76). -/
def Draft.memOpd (x : Draft) (env : LineEnv) (name : String) (n : Nat) (pair : Bool) (c : Chars) :
    Except Diag Draft :=
  match c with
  | '[' :: r =>
    match r.reverse with
    | ']' :: s =>
      let (reg, rest) := spanOf nameChar (trim s.reverse)
      match written reg with
      | .reg cls k =>
        if cls != (if pair then 'd' else 'v') then classErr name n ("a " ++ str [cls] ++ " register")
        else
          let x := ({ x with a := regCode cls k }).note .a n (.is 0) cls (regCode cls k) 1
          let rest := trim rest
          let offset (neg : Bool) (e : Chars) : Except Diag Draft := do
            let e := trim e
            if neg && (relocOp e).isSome then wrongField
            let (v, x) ← x.value env .m e
            let v := if neg then -v else v
            if decide (v < -2048) || decide (2047 < v) then
              diag "A106" ("memory offset " ++ toString v ++ " out of range")
            .ok { x with imm := x.imm ||| lowBits 12 v }
          match rest with
          | [] => .ok x
          | '+' :: e => offset false e
          | '-' :: e => offset true e
          | _ => nearErr c
      | .zero => classErr name n "a zero register"
      | .other => nearErr c
    | _ => nearErr c
  | _ =>
    match written c with
    | .reg cls _ => classErr name n ("a " ++ str [cls] ++ " register")
    | .zero => classErr name n "a zero register"
    | .other => strayOpd name n c

/-- A register or immediate operand. -/
def Draft.opdArg (x : Draft) (env : LineEnv) (name : String) (n : Nat) (p : Place) (cs : List Cls)
    (tg : Tg) (k : Nat) (c : Chars) : Except Diag Draft :=
  match written c with
  | .reg cls r =>
    let quadBad := x.quad && cs.any (fun q => q == .w || q == .wd) && r % 4 != 0
    if x.allows cs cls r && !quadBad then
      .ok ((x.put p (regCode cls r)).note p n tg cls (regCode cls r) (if x.quad && p != .a then 4 else k))
    else classErr name n ("a " ++ str [cls] ++ " register")
  | .zero =>
    if cs.contains .zero && !x.quad then .ok (x.put p 0xFF) else classErr name n "a zero register"
  | .other =>
    if cs.contains .crew then
      if c == "cur".toList then .ok (x.put p 0x40)
      else do
        let v ← evalText env.look false c
        if decide (v.k < 0) || decide (63 < v.k) then fitErr (toString v.k) "crew"
        else .ok (x.put p v.k.toNat)
    else if cs.any fun q => q == .imm || q == .flt || q == .imm6 then x.immB env cs c
    else strayOpd name n c

/-- A target is a label (R38). -/
def labelOnly (c : Chars) : Except Diag Unit :=
  if symName c then .ok ()
  else if isOperator c then wrongField
  else if holdsFloat c then floatErr c "a branch target"
  else nearErr c

/-- One operand. -/
def Draft.arg (x : Draft) (env : LineEnv) (name : String) (n : Nat) (g : Arg) (c : Chars) :
    Except Diag Draft :=
  let notReg (k : Except Diag Draft) : Except Diag Draft := match written c with
    | .reg cls _ => classErr name n ("a " ++ str [cls] ++ " register")
    | .zero => classErr name n "a zero register"
    | .other => k
  match g with
  | .opd p cs tg k => x.opdArg env name n p cs tg k c
  | .mem pair => x.memOpd env name n pair c
  | .num p lo hi => notReg do
    let (v, x) ← x.value env .no c
    let w := if p == .c then 8 else Nat.log2 hi + 1
    let u := lowBits w v
    if !fitsBits v w || decide (u < lo) || decide (hi < u) then fitErr (toString v) ("operand " ++ toString n)
    .ok (x.put p u)
  | .word => notReg do
    let (v, x) ← x.value env .i c
    if !fitsBits v 32 then fitErr (toString v) "imm32"
    .ok { x with imm := lowBits 32 v }
  | .hi => notReg do
    let (v, x) ← x.value env .h c
    if !fitsBits v 20 then fitErr (toString v) "imm20"
    .ok { x with imm := lowBits 20 v }
  | .target => notReg do
    labelOnly c
    match env.textPc c with
    | some t => .ok { x with target := some c, imm := lowBits 32 ((t : Int) - env.pc) }
    | none =>
      .ok { x with target := some c, relocs := if name == "call" then [(6, c)] else [] }
  | .back => notReg do
    labelOnly c
    match env.textPc c with
    | some t => .ok { x with target := some c, imm := 4 * lowBits 30 ((t : Int) - env.pc) + 2 }
    | none => .ok { x with target := some c }
  | .lit s => if c == s.toList then .ok x else nearErr c
  | .sreg =>
    match sregNames.findIdx? fun s => s.toList == c with
    | some k => .ok { x with imm := x.imm ||| k, sreg := k }
    | none => nearErr c
  | .idx =>
    match written c with
    | .reg 'v' k => .ok ({ x with a := k }.note .a n (.is 0) 'v' k 1)
    | .reg cls _ => classErr name n ("a " ++ str [cls] ++ " register")
    | .zero => classErr name n "a zero register"
    | .other => do
      let (v, x) ← x.value env .no c
      if !fitsBits v 10 then fitErr (toString v) "index"
      .ok { x with imm := x.imm ||| lowBits 10 v * 256 }
  | .limits => notReg do
    let (v, x) ← x.value env .no c
    if decide (63 < v) then diag "A601" ("wait limit " ++ toString v ++ " above 63")
    if !fitsBits v 6 then fitErr (toString v) "wait limit"
    .ok { x with imm := x.imm ||| lowBits 6 v * 64 ^ x.limits.length, limits := x.limits ++ [lowBits 6 v] }
  | .kmask =>
    match written c with
    | .reg 'k' k => .ok { x with imm := x.imm ||| 2 ^ k }
    | .reg cls _ => classErr name n ("a " ++ str [cls] ++ " register")
    | .zero => classErr name n "a zero register"
    | .other => classErr name n "an immediate"

/-! ## Suffixes -/

/-- Effects of the words in the places of a form; `none` when a word has no place or a required one is
missing. -/
def matchSufs : List Suf → List String → Option (List Eff)
  | [], [] => some []
  | [], _ :: _ => none
  | s :: r, ws =>
    match ws with
    | w :: t =>
      match s.words.find? fun p => p.1 == w with
      | some p => (matchSufs r t).map (p.2 :: ·)
      | none => if s.req then none else matchSufs r ws
    | [] => if s.req then none else matchSufs r []

/-- Words that find no place, for the diagnostic. -/
def unmatched : List Suf → List String → List String
  | [], ws => ws
  | _ :: _, [] => []
  | s :: r, w :: t => if s.words.any fun p => p.1 == w then unmatched r t else unmatched r (w :: t)

/-- Tag of a form without a type suffix. -/
def Form.defaultTag (f : Form) : Tag :=
  if f.group == 6 || (f.group == 8 && decide (5 ≤ f.fn) && decide (f.fn ≤ 0xD)) then 0x20
  else if f.group == 7 then 0x40 else 0

/-- The draft that the suffixes give (R84 for memory forms, R10 for `.x32`). -/
def Form.start (f : Form) (es : List Eff) : Draft :=
  let quad := es.any (·.quad)
  let ty := es.foldl (fun t e => match e.tag with
    | some t => t
    | none => t) f.defaultTag
  let em := es.foldl (fun m e => m ||| e.m) 0
  let em := match f.memory with
    | some load => if quad then 0x40 else if load then em else em &&& 0x70
    | none => em
  let x32 := es.any (·.x32)
  let ec := es.foldl (fun c e => c + e.c) f.c + (if x32 then 0x20 else 0)
  { m := f.m ||| em ||| (if f.fmtI then 0x80 else 0), c := if f.memory.isSome then ty.toNat else ec,
    imm := es.foldl (fun i e => i ||| e.imm) f.imm, wideD := es.any (·.wideD) && !quad,
    wide := es.any (·.wide) && !quad, quad := quad,
    tag := if x32 then ty + 0x20 else ty }

/-! ## A line -/

/-- An instruction that a line makes. -/
structure Enc where
  form : Form
  raw : Raw
  instr : Instr
  draft : Draft

/-- Which of several reasons is reported (R356). -/
def Diag.rank (d : Diag) : Nat :=
  match d.code with
  | "A102" => 0
  | "A104" => 1
  | "A105" => 2
  | "A107" => 4
  | _ => 3

/-- Operands in order, each judged; those refused leave the draft as it was. -/
def Draft.args (x : Draft) (env : LineEnv) (name : String) : Nat → List Arg → List Chars →
    Draft × List Diag
  | _, _, [] => (x, [])
  | n, gs, c :: cs =>
    match gs with
    | [] => (x, [])
    | g :: rest =>
      let next := if g = .kmask then gs else rest
      match x.arg env name n g c with
      | .ok y => y.args env name (n + 1) next cs
      | .error e =>
        let (y, es) := x.args env name (n + 1) next cs
        (y, e :: es)

/-- SREAD takes `dN` or an even `vN` for a 64-bit register, and no pair for another (R309). -/
def Draft.sreadOk (x : Draft) (f : Form) : Bool :=
  f.name != "sread" || x.d == 0xFF || (if sregWide x.sreg then x.d % 2 == 0 else !x.dPair)

def Draft.raw (x : Draft) (f : Form) (guard : Nat) : Raw :=
  let hint : Nat := if f.bnd then 0x80 else 0
  { group := BitVec.ofNat 4 f.group, fn := BitVec.ofNat 8 f.fn, d := BitVec.ofNat 8 x.d,
    a := BitVec.ofNat 8 x.a, b := BitVec.ofNat 8 x.b, guard := BitVec.ofNat 4 guard,
    hint := BitVec.ofNat 8 hint, c := BitVec.ofNat 8 x.c, m := BitVec.ofNat 8 x.m,
    imm := BitVec.ofNat 32 x.imm }

/-- Mnemonics on which no guard may stand (R35). -/
def noGuard : List String := ["shfl", "vote", "cred", "cscan", "bwait", "bsync"]

/-- An operand that its field allows, whatever the line. -/
def Draft.sample (x : Draft) (g : Arg) : Draft :=
  match g with
  | .opd p cs _ _ =>
    x.put p (if cs.any fun q => q == .v || q == .d || q == .w || q == .wd || q == .ev then 0
      else if cs.contains .t then 0xD0 else if cs.contains .k then 0xC0
      else if cs.contains .b then 0xE0 else 0)
  | .mem _ => { x with a := 0 }
  | .num p lo _ => x.put p lo
  | .back => { x with imm := x.imm ||| 2 }
  | .kmask => { x with imm := 1 }
  | _ => x

/-- The suffixes make a word that the entry lists, with operands that their fields allow (R356). -/
def Form.listed (f : Form) (es : List Eff) (n : Nat) : Bool :=
  match decode (((f.args.take n).foldl Draft.sample (f.start es)).raw f 7).toWord with
  | .ok _ => true
  | .error _ => false

/-- The operands fit the form's literal words. -/
def Form.litsFit (f : Form) (ops : List Chars) : Bool :=
  (f.args.zip ops).all fun p => match p.1 with
    | .lit s => p.2 == s.toList
    | _ => true

/-- Assemble a mnemonic with its operands. -/
def assembleLine (env : LineEnv) (mn : Chars) (ops : List Chars) (guard : Nat) : Except Diag Enc :=
  let words := (splitOn '.' mn).map str
  let base := words.headD ""
  let sw := words.drop 1
  let all := forms.filter fun f => f.name == base
  if all.isEmpty then diag "A101" ("unknown mnemonic '" ++ base ++ "'")
  else if noGuard.contains base && guard != 7 then
    diag "A801" ("guard on '" ++ base ++ "' not allowed")
  else
    let fits := all.filterMap fun f => (matchSufs f.sufs sw).map fun es => (f, es)
    match fits.find? fun p => p.1.litsFit ops, fits with
    | none, [] =>
      let w := (leastBy (fun (a b : List String) => decide (a.length < b.length))
        (all.map fun f => unmatched f.sufs sw)).getD []
      diag "A102" ("unknown type suffix '." ++ w.headD "" ++ "'")
    | none, _ => nearErr mn
    | some (f, es), _ =>
      let need := f.args.length - f.opt
      let many := f.args.contains .kmask
      if (!many && (decide (ops.length < need) || decide (f.args.length < ops.length))) ||
          (many && (ops.isEmpty || decide (16 < ops.length))) then
        diag "A103" ("'" ++ base ++ "' takes " ++ toString need ++ " operands")
      else if !sw.isEmpty && !f.listed es ops.length then
        diag "A102" ("unknown type suffix '." ++ sw.getLastD "" ++ "'")
      else
        let (x, errs) := (f.start es).args env base 1 f.args ops
        match leastBy (fun (a b : Diag) => decide (a.rank < b.rank)) errs with
        | some e => .error e
        | none =>
          if !x.sreadOk f then classErr base 1 (if x.dPair then "a d register" else "a v register")
          else
            let raw := x.raw f guard
            match decode raw.toWord with
            | .ok i => .ok ⟨f, raw, i, x⟩
            | .error _ =>
              if base == "tagset" && x.d != x.a && decide (0xC0 ≤ x.d) then classErr base 2 "another register"
              else fitErr (str mn) "its field"

end Sys2Proof.Machine
end

