-- ==== Sys2Proof/Machine/Expand.lean ====
section
/-! DEFINITION. Expand.lean: macros and repetitions of the assembler (R42), and where a diagnostic
stands (R46). -/

namespace Sys2Proof.Machine

/-- A line of the source or of an expansion: its number, and the lines of the invocations around it, the
innermost first. -/
structure SrcLine where
  text : Chars
  no : Nat
  org : List Nat
  /-- Macros whose bodies it stands in. -/
  inside : List Chars

/-- A diagnostic with its place: the number of the expanded line, and what R46 prints. -/
structure Report where
  idx : Nat
  no : Nat
  org : List Nat
  warn : Bool
  d : Diag

/-- A macro: its parameters and body (R42). -/
structure MacroDef where
  params : List Chars
  body : List SrcLine

/-- What expansion has gathered: expanded lines and diagnostics, newest first. -/
structure Expansion where
  macros : Table Chars MacroDef
  sets : Table Chars Int
  /-- Names that are labels or `.extern`. -/
  rels : List Chars
  out : List SrcLine
  n : Nat
  reports : List Report

def Expansion.emit (x : Expansion) (l : SrcLine) : Expansion :=
  { x with out := l :: x.out, n := x.n + 1 }

def Expansion.err (x : Expansion) (l : SrcLine) (d : Diag) : Expansion :=
  { x with reports := ⟨x.n, l.no, l.org, false, d⟩ :: x.reports }

def Expansion.look (x : Expansion) (s : Chars) : SymVal :=
  match tget x.sets s with
  | some v => .abs v
  | none => if s ∈ x.rels then .rel else .unknown

/-- The first word of a line's body. -/
def lineWord (c : Chars) : String := str (firstWord (parseLine c).body).1

/-- The lines up to the end that matches, and those after it; `none` when the file ends first. -/
def takeBody (open_ close : String) : Nat → List SrcLine → Option (List SrcLine × List SrcLine)
  | _, [] => none
  | k, l :: r =>
    let w := lineWord l.text
    if w == close && k == 0 then some ([], r)
    else
      let k := if w == open_ then k + 1 else if w == close then k - 1 else k
      (takeBody open_ close k r).map fun p => (l :: p.1, p.2)

/-- Put arguments in the place of `$` names, the longest parameter first. -/
def substitute (ps : List (Chars × Chars)) : Nat → Chars → Chars
  | 0, c => c
  | _, [] => []
  | n + 1, c :: r =>
    if c == '$' then
      match ps.find? fun p => isPrefix p.1 r with
      | some p => p.2 ++ substitute ps n (r.drop p.1.length)
      | none => c :: substitute ps n r
    else c :: substitute ps n r

/-- One `.set` as expansion sees it; what is wrong with it is reported where the line is read. -/
def Expansion.noteSet (x : Expansion) (rest : Chars) : Expansion :=
  match splitArgs rest with
  | [n, e] =>
    match evalText x.look false e with
    | .ok v => { x with sets := tput x.sets n v.k }
    | .error _ => x
  | _ => x

def tooDeep : Diag := ⟨"A407", "expansion too deep"⟩

/-- Read lines, at most `n` of them; `sub` expands the lines of a body one level deeper. A guard or caret
on the line of a macro, a `.macro` or a `.rept` has no effect, and operands of `.rept` beyond two are
not read: DESIGN CHOICE, R42 does not say (log entry 76). -/
def scanLines (sub : Option (List SrcLine → Expansion → Expansion)) :
    Nat → List SrcLine → Expansion → Expansion
  | 0, _, x => x
  | _, [], x => x
  | n + 1, l :: rest, x =>
    let p := parseLine l.text
    let (w, args) := firstWord p.body
    let ws := str w
    let labelOf (x : Expansion) : Expansion := match p.label with
      | some s => x.emit { l with text := s ++ [':'] }
      | none => x
    let unterminated : Diag := ⟨"A408", "unterminated '" ++ ws ++ "' begun at line " ++ toString l.no⟩
    if ws == ".macro" then
      match takeBody ".macro" ".endm" 0 rest with
      | none => (labelOf x).err l unterminated
      | some (body, after) =>
        let (name, ps) := firstWord args
        let x := labelOf x
        let x := if symName name then
            { x with macros := tput x.macros name ⟨splitArgs ps, body⟩ }
          else x.err l ⟨"A107", "syntax error near '.macro'"⟩
        scanLines sub n after x
    else if ws == ".rept" then
      match takeBody ".rept" ".endr" 0 rest with
      | none => (labelOf x).err l unterminated
      | some (body, after) =>
        let x := labelOf x
        let as_ := splitArgs args
        let x := match as_, evalText x.look false (as_.headD []) with
          | [], _ => x.err l ⟨"A103", "'.rept' takes 1 operands"⟩
          | _, .error d => x.err l d
          | _, .ok v =>
            if decide (v.k < 0) || decide (65536 < v.k) then
              x.err l ⟨"A403", "value " ++ toString v.k ++ " out of range for '.rept'"⟩
            else match sub with
              | none => x.err l tooDeep
              | some f =>
                let inner := body.map fun b => { b with org := l.no :: l.org, inside := l.inside }
                (List.range v.k.toNat).foldl (fun x k =>
                  let x := match as_ with
                    | _ :: s :: _ =>
                      ({ x with sets := tput x.sets s (k : Int) }).emit
                        { l with text := ".set ".toList ++ s ++ ", ".toList ++ (toString k).toList }
                    | _ => x
                  f inner x) x
        scanLines sub n after x
    else if ws == ".endm" || ws == ".endr" then
      scanLines sub n rest ((labelOf x).err l ⟨"A107", "syntax error near '" ++ ws ++ "'"⟩)
    else
      match tget x.macros w with
      | some m =>
        let as_ := splitArgs args
        let x := labelOf x
        let x := match sub with
          | none => x.err l tooDeep
          | some f =>
            if w ∈ l.inside then x.err l tooDeep
            else if as_.length != m.params.length then
              x.err l ⟨"A103", "'" ++ ws ++ "' takes " ++ toString m.params.length ++ " operands"⟩
            else
              let ps := sortBy (fun (a b : Chars × Chars) => decide (b.1.length < a.1.length))
                (m.params.zip as_)
              f (m.body.map fun b =>
                { text := substitute ps b.text.length b.text, no := b.no, org := l.no :: l.org,
                  inside := w :: l.inside }) x
        scanLines sub n rest x
      | none =>
        let x := x.emit l
        scanLines sub n rest (if ws == ".set" then x.noteSet args else x)

/-- Expansion to a depth. -/
def expandTo : Nat → List SrcLine → Expansion → Expansion
  | 0, ls, x => scanLines none ls.length ls x
  | d + 1, ls, x => scanLines (some (expandTo d)) ls.length ls x

/-- Expand a source; expansions nest to a depth of 16 (R42). -/
def expandSource (defs : Table Chars Int) (lines : List Chars) : Expansion :=
  let ls := lines.zipIdx.map fun p => (SrcLine.mk p.1 (p.2 + 1) [] [])
  let rels := ls.flatMap fun l =>
    let p := parseLine l.text
    let (w, args) := firstWord p.body
    p.label.toList ++ (if str w == ".extern" || str w == ".kernel" then splitArgs args else [])
  expandTo 16 ls { macros := [], sets := defs, rels := rels, out := [], n := 0, reports := [] }

/-- A diagnostic line (R42, R46). -/
def Report.text (r : Report) (file : String) (werror : Bool) : String :=
  let sev := if r.warn && !werror then "warning" else "error"
  let tail := match r.org with
    | [] => ""
    | [n] => " (expanded at line " ++ toString n ++ ")"
    | ns => " (expanded at lines " ++ ", ".intercalate (ns.map toString) ++ ")"
  file ++ ":" ++ toString r.no ++ ": " ++ sev ++ " " ++ r.d.code ++ ": " ++ r.d.text ++ tail

end Sys2Proof.Machine
end

