-- ==== Sys2Proof/Machine/Fjas.lean ====
section
/-! DEFINITION. Fjas.lean: the assembler's pass over expanded lines: sections, symbols, data, kernels
(R37 to R41), runs and reuse (R43, R44), and the checks of R35, R38 and R45. The pass is made twice: the
first finds the labels, the second judges with them. -/

namespace Sys2Proof.Machine

/-! ## What a pass knows and gathers -/

/-- Sections that a source emits into (R41). -/
inductive Sec where
  | text | const | data | bss
  deriving DecidableEq, Repr

def Sec.name : Sec → String
  | .text => ".text"
  | .const => ".const"
  | .data => ".data"
  | .bss => ".bss"

def secNamed (w : String) : Option Sec :=
  match w with
  | ".text" => some .text
  | ".const" => some .const
  | ".data" => some .data
  | ".bss" => some .bss
  | _ => none

/-- Where a label stands: in `.text`, its PC and kernel; elsewhere its offset. -/
structure LabelAt where
  sec : Sec
  off : Nat
  kern : Option Nat

/-- A kernel: its instructions and what its directives say (R39). -/
structure Kern where
  name : Chars
  entry : Nat
  len : Nat := 0
  seen : List String := []
  vals : Table String Nat := []
  trapvec : Option Chars := none
  no : Nat := 0

def Kern.val (k : Kern) (w : String) (dflt : Nat) : Nat := (tget k.vals w).getD dflt

/-- An instruction of `.text`. -/
structure Ins where
  pc : Nat
  idx : Nat
  line : SrcLine
  enc : Enc
  hint : Nat
  run : Nat
  pos : Nat

/-- A relocation to write: the section and offset of its site, its type, symbol and addend. -/
structure RelocAt where
  sec : Sec
  off : Nat
  type : Nat
  sym : Chars
  add : Int

/-- What the first pass tells the second. -/
structure Layout where
  labels : Table Chars LabelAt := []
  externs : List Chars := []
  globals : List Chars := []
  kerns : List Kern := []
  /-- Labels that branches, calls and trap vectors name. -/
  targets : List Chars := []
  /-- PCs of high sites with the type of their entry. -/
  highs : List (Nat × Nat) := []
  sets : Table Chars Int := []

/-- What is known at a point of straight-line code (R45): tags, an unlisted register's being 0x00 where
`base` holds, and the upper bounds of the counters. -/
structure Known where
  base : Bool
  tags : Table Nat (Option Tag)
  counts : List (Option Nat)

def Known.entry : Known := ⟨true, [], [some 0, some 0, some 0, some 0]⟩

def Known.nothing : Known := ⟨false, [], [none, none, none, none]⟩

def Known.tag (k : Known) (r : Nat) : Option Tag :=
  match tget k.tags r with
  | some t => t
  | none => if k.base then some 0 else none

/-- The state of a pass; lists are newest first. -/
structure Asm where
  sets : Table Chars Int
  labels : Table Chars LabelAt := []
  externs : List Chars := []
  globals : List Chars := []
  sec : Sec := .text
  /-- Bytes of `.const` and `.data`, reversed, and the size of `.bss`. -/
  const : List Byte := []
  data : List Byte := []
  bss : Nat := 0
  ins : List Ins := []
  npc : Nat := 0
  relocs : List RelocAt := []
  kerns : List Kern := []
  cur : Option Kern := none
  targets : List Chars := []
  highs : List (Nat × Nat) := []
  /-- The next instruction begins a run. -/
  fresh : Bool := true
  known : Known := .nothing
  /-- The kernel's last instruction so far, written or refused, may end it (R38). -/
  ended : Bool := false
  reports : List Report := []
  /-- Bytes that data lines emit, for the listing: the line, section, offset. -/
  items : List (Nat × Sec × Nat × List Byte) := []

def Asm.report (x : Asm) (i : Nat) (l : SrcLine) (warn : Bool) (d : Diag) : Asm :=
  { x with reports := ⟨i, l.no, l.org, warn, d⟩ :: x.reports }

def Asm.error (x : Asm) (i : Nat) (l : SrcLine) (code text : String) : Asm :=
  x.report i l false ⟨code, text⟩

/-- The size of the current section so far. -/
def Asm.size (x : Asm) : Nat :=
  match x.sec with
  | .text => 12 * x.npc
  | .const => x.const.length
  | .data => x.data.length
  | .bss => x.bss

/-- The kernel that the current line stands in, by its number. -/
def Asm.kern (x : Asm) : Option Nat := x.cur.map fun _ => x.kerns.length

def Asm.look (L : Layout) (x : Asm) (s : Chars) : SymVal :=
  match tget x.sets s with
  | some v => .abs v
  | none => if (tget L.labels s).isSome || s ∈ L.externs then .rel else .unknown

def Asm.env (L : Layout) (x : Asm) : LineEnv :=
  { pc := x.npc, look := x.look L,
    textPc := fun s => match tget L.labels s with
      | some ⟨.text, pc, _⟩ => some pc
      | _ => none }

/-! ## Labels, data -/

/-- Give a label its place (R33, R46). -/
def Asm.label (L : Layout) (x : Asm) (i : Nat) (l : SrcLine) (s : Chars) : Asm :=
  if !symName s then x.error i l "A107" ("syntax error near '" ++ str s ++ "'")
  else if (tget x.labels s).isSome || (tget x.sets s).isSome || s ∈ x.externs then
    x.error i l "A202" ("symbol '" ++ str s ++ "' defined twice")
  else
    let off := if x.sec = .text then x.npc else x.size
    let x := { x with labels := tput x.labels s ⟨x.sec, off, x.kern⟩ }
    if x.sec = .text then
      { x with known := .nothing, fresh := x.fresh || s ∈ L.targets }
    else x

/-- Add bytes to the current section. -/
def Asm.bytes (x : Asm) (i : Nat) (bs : List Byte) : Asm :=
  let x : Asm := { x with items := (i, x.sec, x.size, bs) :: x.items }
  match x.sec with
  | .text => x
  | .const => { x with const := bs.reverse ++ x.const }
  | .data => { x with data := bs.reverse ++ x.data }
  | .bss => { x with bss := x.bss + bs.length }

/-- A directive's number of bytes, and whether it holds floats. -/
def dataWidth (w : String) : Option (Nat × Option Fmt) :=
  match w with
  | ".byte" => some (1, none)
  | ".half" => some (2, none)
  | ".word" => some (4, none)
  | ".dword" => some (8, none)
  | ".f32" => some (4, some .f32)
  | ".f64" => some (8, some .f64)
  | _ => none

/-- The value of one data operand with the symbol it is counted from (R37, R41, R354). -/
def dataValue (L : Layout) (x : Asm) (w : String) (n : Nat) (fmt : Option Fmt) (c : Chars) :
    Except Diag (Nat × Option (Chars × Int)) :=
  match fmt, floatLit c with
  | some f, some v => .ok (v.round f, none)
  | _, _ => do
    let v ← evalText (x.look L) (w == ".dword") c
    match v.rel, fmt with
    | some s, _ => .ok (0, some (s, v.k))
    | none, some f => .ok ((Exact.mk (decide (v.k < 0)) v.k.natAbs 1).round f, none)
    | none, none =>
      if n < 8 && !fitsBits v.k (8 * n) then fitErr (toString v.k) w
      else .ok (lowBits (8 * n) v.k, none)

/-- A data directive (R41). -/
def Asm.dataLine (L : Layout) (x : Asm) (i : Nat) (l : SrcLine) (w : String) (n : Nat)
    (fmt : Option Fmt) (ops : List Chars) : Asm :=
  if x.sec = .text then x.error i l "A110" ("data directive '" ++ w ++ "' in .text")
  else if ops.isEmpty then x.error i l "A103" ("'" ++ w ++ "' takes 1 operands")
  else
    let x := match (ops.map (dataValue L x w n fmt)).findSome? fun r => match r with
        | .error d => some d
        | .ok _ => none with
      | some d => x.report i l false d
      | none => x
    ops.foldl (fun (x : Asm) c =>
      match dataValue L x w n fmt c with
      | .ok (v, rel) =>
        let x := match rel with
          | some (s, k) =>
            if x.sec = Sec.bss then x else { x with relocs := ⟨x.sec, x.size, 1, s, k⟩ :: x.relocs }
          | none => x
        x.bytes i (toLE (if x.sec = Sec.bss then 0 else v) n)
      | .error _ => x.bytes i (toLE 0 n)) x

/-! ## Kernel directives (R39, R40) -/

/-- Least and greatest value and step of a directive of one number. -/
def kernRange (w : String) : Option (Nat × Nat × Nat) :=
  match w with
  | ".regs" => some (1, 192, 1)
  | ".threads" => some (1, 1024, 1)
  | ".courses" => some (1, 2 ^ 32 - 1, 1)
  | ".scratch" => some (0, 2 ^ 32 - 1, 16)
  | ".tiles" => some (0, 8, 1)
  | ".bins" => some (0, 16, 1)
  | ".kspill" => some (0, 255, 1)
  | ".stack" => some (0, 2 ^ 32 - 1, 16)
  | ".prio" => some (0, 7, 1)
  | _ => none

def kernDirectives : List String :=
  [".regs", ".threads", ".courses", ".scratch", ".tiles", ".bins", ".kspill", ".stack", ".prio", ".fctl",
   ".compat", ".determ", ".twin", ".trapvec"]

def outOfRange {α : Type} (v w : String) : Except Diag α :=
  diag "A403" ("value " ++ v ++ " out of range for '" ++ w ++ "'")

/-- A float literal or a relocation operator, which no directive but those of data takes (R354, R37). -/
def argFault (rest : Chars) : Option Diag :=
  if holdsFloat rest then some ⟨"A105", "value " ++ str (trim rest) ++ " does not fit a directive"⟩
  else if rest.contains '%' then some ⟨"A204", "relocation operator in wrong field"⟩
  else none

/-- What a kernel directive sets. -/
def Kern.directive (L : Layout) (x : Asm) (k : Kern) (w : String) (rest : Chars) : Except Diag Kern := do
  let ops := splitArgs rest
  let num (c : Chars) : Except Diag Int := (evalText (x.look L) false c).map (·.k)
  let count (n : Nat) : Except Diag Unit :=
    if ops.length == n then .ok () else diag "A103" ("'" ++ w ++ "' takes " ++ toString n ++ " operands")
  let set (k : Kern) (f : String) (v : Nat) : Kern := { k with vals := tput k.vals f v }
  if w ∈ k.seen then outOfRange (str rest) w
  else match argFault rest with
  | some d => .error d
  | none =>
  match kernRange w with
  | some (lo, hi, step) =>
    let two := w == ".tiles" || w == ".bins"
    if !(two && ops.length == 2) then count 1
    let v ← num (ops.headD [])
    if decide (v < lo) || decide ((hi : Int) < v) || v.toNat % step != 0 then outOfRange (toString v) w
    let k := set k w v.toNat
    match ops with
    | [_, c] =>
      let r ← num c
      let ok := if w == ".tiles" then
          decide (0 < v) && decide (8 ≤ r) && decide (r ≤ 128) && r.toNat % 8 == 0
        else decide (0 ≤ r) && decide (r ≤ 255)
      if ok then .ok (set k (w ++ "2") r.toNat) else outOfRange (toString r) w
    | _ => .ok k
  | none =>
    match w with
    | ".fctl" =>
      count 1
      let v ← num (ops.headD [])
      if decide (v < 0) || decide (1023 < v) || !fctlOk v.toNat then
        diag "A405" ("invalid .fctl value " ++ toString v)
      .ok (set k w v.toNat)
    | ".twin" =>
      let (a, b) := firstWord rest
      match str a with
      | "off" => if b.isEmpty then .ok (set k w 0) else outOfRange (str rest) w
      | "full" => if b.isEmpty then .ok (set k w 2) else outOfRange (str rest) w
      | "sampled" =>
        let v ← num b
        if decide (v < 0) || decide (15 < v) then outOfRange (toString v) w
        .ok (set (set k w 1) ".twin2" v.toNat)
      | _ => outOfRange (str rest) w
    | ".trapvec" =>
      count 1
      let c := ops.headD []
      let k : Kern := { k with trapvec := some c }
      match tget L.labels c with
      | some ⟨.text, _, q⟩ =>
        if q.isSome && q == x.kern then .ok k
        else diag "A406" (".trapvec '" ++ str c ++ "' outside kernel '" ++ str k.name ++ "'")
      | _ => diag "A406" (".trapvec '" ++ str c ++ "' outside kernel '" ++ str k.name ++ "'")
    | _ =>
      count 0
      .ok (set k w 1)

/-- Fields of the descriptor that R40 derives. -/
def Kern.tileRows (k : Kern) : Nat := if k.val ".tiles" 0 == 0 then 0 else k.val ".tiles2" 128

def Kern.thatchTiles (k : Kern) : Nat := k.val ".bins2" (k.val ".bins" 0)

def Kern.privateBytes (k : Kern) : Nat := k.val ".stack" 0 + 512 * k.val ".kspill" 0

def Kern.rfQ (k : Kern) : Nat := max 2 (ceilDiv (k.val ".regs" 0 * k.val ".threads" 0 * 4) 65536)

def Kern.spQ (k : Kern) : Nat :=
  ceilDiv (k.val ".scratch" 0 + k.val ".tiles" 0 * k.tileRows * 512 + k.thatchTiles * 4096) 65536

/-- A mnemonic and guard that may end a kernel (R38). -/
def endsKernel (mn : Chars) (guard : Nat) : Bool :=
  guard == 7 && ["bra", "brx", "ret", "exit", "tret.to"].contains (str mn)

/-- What is wrong with a whole kernel, in the order of the codes but for A501, which comes first. -/
def Kern.faults (k : Kern) (ends : Bool) : List Diag :=
  let name := "kernel '" ++ str k.name ++ "'"
  let lack (w : String) : List Diag :=
    if w ∈ k.seen then [] else [⟨"A402", name ++ " lacks " ++ w⟩]
  let range (bad : Bool) (v : Nat) (w : String) : List Diag :=
    if bad then [⟨"A403", "value " ++ toString v ++ " out of range for '" ++ w ++ "'"⟩] else []
  (if ends then [] else [⟨"A501", name ++ " falls through .endk"⟩]) ++
  lack ".regs" ++ lack ".threads" ++
  range (decide (2 ^ 32 ≤ k.privateBytes)) k.privateBytes ".stack" ++
  range (decide (2 ^ 32 < k.val ".courses" 1 * k.val ".threads" 1)) (k.val ".courses" 1) ".courses" ++
  range (decide (10 < k.rfQ)) k.rfQ "rf_q" ++ range (decide (8 < k.spQ)) k.spQ "sp_q" ++
  (if decide (14 < k.rfQ + k.spQ) then
    [⟨"A404", name ++ " needs " ++ toString (k.rfQ + k.spQ) ++ " quanta, 14 available"⟩] else [])

/-- Close a kernel: its last instruction ends a run (R43). -/
def Asm.endKernel (x : Asm) (i : Nat) (l : SrcLine) (k : Kern) : Asm :=
  let k : Kern := { k with len := x.npc - k.entry }
  let x : Asm := { x with cur := none, kerns := k :: x.kerns, fresh := true, known := .nothing }
  let x := match x.ins with
    | n :: r => if k.len == 0 then x else { x with ins := { n with hint := n.hint ||| 0x80 } :: r }
    | [] => x
  (k.faults x.ended).foldl (fun x d => x.report i l false d) x

/-! ## Instructions -/

/-- Names of a kernel in A203 and A205. -/
def Layout.kernName (L : Layout) : Option Nat → String
  | none => ""
  | some k => ((L.kerns[k]?).map fun x => str x.name).getD ""

/-- The file defines or declares the symbol, here or further on (R41, A201). -/
def Asm.exists_ (L : Layout) (x : Asm) (s : Chars) : Bool :=
  (tget L.labels s).isSome || s ∈ L.externs || (tget x.sets s).isSome || (tget L.sets s).isSome

/-- Symbols and targets of a line (R37, R38). A `.L` name as the argument of `%gothi` gives A206: DESIGN
CHOICE, the rules name no code for it (log entry 76). -/
def Asm.targetFaults (L : Layout) (x : Asm) (e : Enc) : List Diag :=
  let kern := x.kern
  let place (s : Chars) : Option (Nat × Option Nat) := match tget L.labels s with
    | some ⟨.text, pc, k⟩ => some (pc, k)
    | _ => none
  (match e.draft.target with
    | some s =>
      if e.form.name == "call" then
        if (place s).isSome || x.exists_ L s then []
        else [⟨"A201", "undefined symbol '" ++ str s ++ "'"⟩]
      else if (place s).any fun p => p.2 == kern then []
      else [⟨"A203", "branch target '" ++ str s ++ "' outside kernel '" ++ L.kernName kern ++ "'"⟩]
    | none => []) ++
  e.draft.relocs.flatMap fun p =>
    let s := p.2
    if p.1 == 3 || p.1 == 5 then
      if !localName s && s ∉ L.globals && (place s).any (fun q =>
          q.2 == kern && (L.highs.contains (q.1, p.1 - 1))) then []
      else match kern with
        | some _ => [⟨"A205", "'" ++ str s ++ "' is not a high site of kernel '" ++ L.kernName kern ++ "'"⟩]
        | none => [⟨"A205", "'" ++ str s ++ "' is not a high site outside kernels"⟩]
    else if p.1 == 6 then []
    else if !x.exists_ L s then [⟨"A201", "undefined symbol '" ++ str s ++ "'"⟩]
    else if p.1 == 4 && localName s then [⟨"A206", "symbol '" ++ str s ++ "' is not absolute"⟩]
    else []

def hex2 (n : Nat) : String := "0x" ++ str (hexDigits n 2)

/-- The tag is one that the operand accepts. -/
def Tg.accepts (tg : Tg) (t : Tag) : Bool :=
  match tg with
  | .is u => t == u
  | .b8 => tagClass t == 5 || tagClass t == 6
  | .float => tagClass t != 0
  | _ => true

/-- v registers that a word names, CVT's spans where the source's tag is known (R45, R166). -/
def Enc.regs (e : Enc) (k : Known) : List Nat :=
  (Instr.vRegs e.instr).map (·.1) ++
  (match e.instr with
    | .cvt c => match c.a with
      | .v n => match k.tag n.val with
        | some t => cvtRegsOf t c
        | none => []
      | _ => []
    | _ => [])

/-- CVT's source span where the tag of its first register is known: all must carry it (R166). -/
def Enc.spanSource (e : Enc) (k : Known) : List SrcTag :=
  match e.instr with
  | .cvt c => match c.a with
    | .v n => match k.tag n.val with
      | some t => [⟨2, (cvtSpans t c).1, .is t⟩]
      | none => []
    | _ => []
  | _ => []

/-- What R45 refuses in a line. A kernel without `.regs`, and a line outside kernels, is held to v191. -/
def Asm.lineFaults (L : Layout) (x : Asm) (e : Enc) : List Diag :=
  let k := x.kern.bind fun n => L.kerns[n]?
  let regs := ((k.bind fun k => tget k.vals ".regs").getD 192)
  let beyond (o : Option Nat) (rs : List Nat) (code : String) (text : Nat → Nat → String) : List Diag :=
    match o with
    | some m => match rs.find? fun r => decide (m ≤ r) with
      | some r => [⟨code, text r m⟩]
      | none => []
    | none => []
  beyond (some regs)
      (if Instr.implicitRegs e.instr then [] else e.regs x.known) "A301"
      (fun r m => "register v" ++ toString r ++ " exceeds .regs " ++ toString m) ++
    beyond (k.map fun k => k.val ".tiles" 0) ((Instr.tRegs e.instr).map (·.1.val)) "A302"
      (fun r m => "tile register t" ++ toString r ++ " exceeds .tiles " ++ toString m) ++
    beyond (k.map fun k => k.val ".bins" 0) (if e.form.bin then e.draft.binImm.toList else []) "A303"
      (fun r m => "bin " ++ toString r ++ " exceeds .bins " ++ toString m) ++
    (e.draft.srcs ++ e.spanSource x.known).flatMap fun s =>
      match s.regs.findSome? fun r => (x.known.tag r).filter fun t => !s.tg.accepts t with
      | some t => [⟨"A701", "operand " ++ toString s.arg ++ " of '" ++ e.form.name ++ "' has tag " ++
          hex2 t.toNat ++ ", not accepted"⟩]
      | none => []

/-- Position of a counter class among WAIT's limits. -/
def Counts.index : Counts → Nat
  | .load => 0
  | .store => 1
  | .copy => 2
  | .tile => 3

/-- The wait cannot wait (R45). -/
def Known.idleWait (k : Known) (limits : List Nat) : Bool :=
  (k.counts.zip limits).all fun p => match p.1 with
    | some n => decide (n ≤ p.2)
    | none => false

/-- What is known after a word. -/
def Known.after (k : Known) (e : Enc) : Known :=
  if ["call", "callx", "trap", "bkpt"].contains e.form.name then .nothing
  else
    let sure := e.raw.guard == 7
    let forget (k : Known) (rs : List Nat) : Known :=
      rs.foldl (fun k r => { k with tags := tput k.tags r none }) k
    let old := k
    let cvtDest : List Nat × Bool := match e.instr with
      | .cvt c => match c.a, c.d with
        | .v n, .v m => match k.tag n.val with
          | some t => ((cvtSpans t c).2, true)
          | none => ((List.range 8).map (m.val + ·), false)
        | _, _ => ([], false)
      | _ => ([], false)
    let dests := Instr.destRegs e.instr ++ cvtDest.1
    let k := forget k dests
    let k := match e.draft.dst with
      | some (rs, tg) =>
        let t : Option Tag := match tg with
          | .is t => if e.form.name == "tagset" && e.draft.b != 0xFF then none else some t
          | .same => (e.draft.srcs.head?.bind fun s => s.regs.head?).bind old.tag
          | _ => none
        let rs := if e.form.name == "cvt" then (if cvtDest.2 then cvtDest.1 else []) else rs
        rs.foldl (fun k r =>
          let t := if sure || old.tag r == t then t else none
          { k with tags := tput k.tags r t }) k
      | none => k
    let k := match e.form.count with
      | some c => { k with counts := setAt k.counts c.index (((k.counts.getD c.index none)).map (· + 1)) }
      | none => k
    if e.form.name == "wait" && sure then
      { k with counts := (k.counts.zip e.draft.limits).map fun p => some (match p.1 with
          | some n => min n p.2
          | none => p.2) }
    else k

/-- The bits of reuse (R44): fields a and b against those of the word before in the run. -/
def reuseBits (prev : Option Ins) (e : Enc) : Nat :=
  match prev with
  | some p =>
    (if e.draft.fa.isSome && e.draft.fa == p.enc.draft.fa then 0x40 else 0) +
    (if e.draft.fb.isSome && e.draft.fb == p.enc.draft.fb then 0x20 else 0)
  | none => 0

/-- Words after which a run begins (R43). -/
def Enc.endsRun (e : Enc) : Bool := e.form.bnd || ["tret", "trap", "bkpt"].contains e.form.name

/-- Number the word within its run; before the 25th, the 24th gets a boundary (R43). -/
def Asm.place (x : Asm) (i : Nat) (l : SrcLine) (e : Enc) (caret reuse : Bool) : Asm :=
  let (long, x) : Bool × Asm := match x.ins with
    | n :: r =>
      if !x.fresh && decide (24 ≤ n.pos) then
        (true, ({ x with ins := { n with hint := n.hint ||| 0x80 } :: r } : Asm).report n.idx n.line true
          ⟨"W501", "run exceeds 24 instructions; boundary set at line " ++ toString n.line.no⟩)
      else (false, x)
    | [] => (false, x)
  let fresh := x.fresh || long
  let (run, pos) := match x.ins with
    | n :: _ => if fresh then (n.run + 1, 1) else (n.run, n.pos + 1)
    | [] => (1, 1)
  let bnd := if caret || e.form.bnd then 0x80 else 0
  let bits := if reuse && !fresh then reuseBits x.ins.head? e else 0
  { x with ins := ⟨x.npc, i, l, e, bnd + bits, run, pos⟩ :: x.ins, npc := x.npc + 1,
           fresh := caret || e.endsRun }

/-- An instruction line. -/
def Asm.instruction (L : Layout) (reuse : Bool) (x : Asm) (i : Nat) (l : SrcLine) (p : Parts) : Asm :=
  let (mn, rest) := firstWord p.body
  if x.sec ≠ .text || !(mn.head?.any nameStart && mn.all nameChar) then
    x.error i l "A107" ("syntax error near '" ++ str mn ++ "'")
  else
    let guard := match p.guard with
      | some (neg, n) => (if neg then 8 else 0) + n
      | none => 7
    let x := { x with ended := endsKernel mn guard }
    match assembleLine (x.env L) mn (splitArgs rest) guard with
    | .error d => { x.report i l false d with known := .nothing }
    | .ok e =>
      let x := match x.targetFaults L e ++ x.lineFaults L e with
        | d :: _ => x.report i l false d
        | [] => x
      let x := if guard == 15 then x.report i l true ⟨"W801", "guard !p7 never executes"⟩ else x
      let x := if e.form.name == "wait" && x.known.idleWait e.draft.limits then
          x.report i l true ⟨"W601", "wait cannot wait"⟩
        else x
      let site := x.npc
      let x : Asm := { x with
        known := x.known.after e, targets := e.draft.target.toList ++ x.targets,
        highs := (e.draft.relocs.filterMap fun r => if r.1 == 2 || r.1 == 4 then some (site, r.1) else none) ++ x.highs,
        relocs := (e.draft.relocs.map fun r => ⟨.text, 12 * site, r.1, r.2, 0⟩) ++ x.relocs }
      x.place i l e p.caret reuse

/-! ## Directives (R41) -/

/-- Names that a `.global` or `.extern` line lists. -/
def Asm.names (x : Asm) (i : Nat) (l : SrcLine) (w : String) (ops : List Chars) (f : Asm → Chars → Asm) :
    Asm :=
  if ops.isEmpty then x.error i l "A103" ("'" ++ w ++ "' takes 1 operands")
  else match ops.find? fun s => !symName s || localName s with
    | some s => x.error i l "A107" ("syntax error near '" ++ str s ++ "'")
    | none => ops.foldl f x

def Asm.directive (L : Layout) (x : Asm) (i : Nat) (l : SrcLine) (w : String) (rest : Chars) : Asm :=
  let ops := splitArgs rest
  let one (f : Chars → Asm) : Asm := match ops with
    | [c] => f c
    | _ => x.error i l "A103" ("'" ++ w ++ "' takes 1 operands")
  let near (c : Chars) : Asm := x.error i l "A107" ("syntax error near '" ++ str c ++ "'")
  match secNamed w, dataWidth w with
  | some s, _ => if ops.isEmpty then { x with sec := s } else near rest
  | none, some (n, fmt) => x.dataLine L i l w n fmt ops
  | none, none =>
    if kernDirectives.contains w then
      match x.cur with
      | none => x.error i l "A401" ("directive '" ++ w ++ "' outside kernel")
      | some k =>
        let note (k : Kern) : Kern := { k with seen := w :: k.seen }
        match k.directive L x w rest with
        | .ok k =>
          { x with cur := some (note k),
                   targets := if w == ".trapvec" then k.trapvec.toList ++ x.targets else x.targets }
        | .error d =>
          let k : Kern := if w == ".trapvec" then { k with trapvec := some rest } else k
          ({ x with cur := some (note k),
                    targets := if w == ".trapvec" then rest :: x.targets else x.targets } : Asm).report i l false d
    else match argFault rest with
    | some d => x.report i l false d
    | none => match w with
    | ".section" => one fun c =>
        match secNamed (str c) with
        | some s => { x with sec := s }
        | none =>
          if [".kdesc", ".got", ".rela"].contains (str c) then
            x.error i l "A109" ("section '" ++ str c ++ "' is written by fjas")
          else near c
    | ".kernel" => one fun c =>
        if x.cur.isSome then x.error i l "A401" "kernel inside kernel"
        else if x.sec ≠ .text then x.error i l "A401" ".kernel outside .text"
        else if !symName c || localName c then near c
        else
          let x : Asm := { x with cur := some { name := c, entry := x.npc, no := l.no }, ended := false }
          let x := x.label L i l c
          { x with globals := c :: x.globals, known := .entry, fresh := true }
    | ".endk" =>
        match x.cur with
        | none => x.error i l "A401" "directive '.endk' outside kernel"
        | some k => if ops.isEmpty then x.endKernel i l k else near rest
    | ".global" => x.names i l w ops fun x s =>
        let x := if x.exists_ L s then x
          else x.error i l "A201" ("undefined symbol '" ++ str s ++ "'")
        { x with globals := s :: x.globals }
    | ".extern" => x.names i l w ops fun x s =>
        if (tget x.labels s).isSome || (tget x.sets s).isSome then
          x.error i l "A202" ("symbol '" ++ str s ++ "' defined twice")
        else { x with externs := s :: x.externs }
    | ".align" => one fun c =>
        match evalText (x.look L) false c with
        | .error d => x.report i l false d
        | .ok v =>
          if !((List.range 13).any fun k => v.k == ((2 ^ k : Nat) : Int)) then
            x.error i l "A403" ("value " ++ toString v.k ++ " out of range for '.align'")
          else if x.sec = .text then x
          else x.bytes i (toLE 0 (roundUp x.size v.k.toNat - x.size))
    | ".set" =>
        match ops with
        | [s, e] =>
          if !symName s then near s
          else if (tget x.labels s).isSome || s ∈ x.externs then
            x.error i l "A202" ("symbol '" ++ str s ++ "' defined twice")
          else match evalText (x.look L) false e with
            | .ok v => { x with sets := tput x.sets s v.k }
            | .error d => x.report i l false d
        | _ => x.error i l "A103" "'.set' takes 2 operands"
    | _ => near w.toList

/-- A line; every part of it may be absent (R33). -/
def Asm.line (L : Layout) (reuse : Bool) (x : Asm) (l : SrcLine) (i : Nat) : Asm :=
  let p := parseLine l.text
  let x := match p.label with
    | some s => x.label L i l s
    | none => x
  let (w, rest) := firstWord p.body
  match w with
  | [] => x
  | '.' :: _ => x.directive L i l (str w) rest
  | _ => x.instruction L reuse i l p

/-- One pass. -/
def asmPass (L : Layout) (reuse : Bool) (defs : Table Chars Int) (ls : List SrcLine) : Asm :=
  let x := ls.zipIdx.foldl (fun x p => x.line L reuse p.1 p.2) ({ sets := defs } : Asm)
  match x.cur with
  | some k =>
    { x with cur := none }.error ls.length ⟨[], k.no, [], []⟩ "A501"
      ("kernel '" ++ str k.name ++ "' falls through .endk")
  | none => x

def Asm.layout (x : Asm) : Layout :=
  { labels := x.labels, externs := x.externs, globals := x.globals,
    kerns := x.kerns.reverse ++ x.cur.toList, targets := x.targets, highs := x.highs, sets := x.sets }

/-- Both passes. -/
def assemble (reuse : Bool) (defs : Table Chars Int) (ls : List SrcLine) : Asm :=
  let L := (asmPass {} reuse defs ls).layout
  asmPass L reuse defs ls

end Sys2Proof.Machine
end

