-- ==== Sys2Proof/Machine/Elf.lean ====
section
/-! DEFINITION. Elf.lean: code objects as ELF64 files (R20, R21, R24, R27), written and read. -/

namespace Sys2Proof.Machine

/-! ## An object without its file -/

/-- A section that is placed. -/
structure ObjSec where
  name : String
  align : Nat
  addr : Nat
  bytes : List Byte
  size : Nat

/-- A symbol: the number of its section, 0 when undefined, 0xFFF1 when absolute. -/
structure ObjSym where
  name : Chars
  glob : Bool
  isSec : Bool
  shndx : Nat
  value : Nat

/-- An entry of `.rela`. -/
structure ObjRela where
  off : Nat
  type : Nat
  sym : Nat
  add : Int

structure Obj where
  base : Nat
  secs : List ObjSec
  syms : List ObjSym
  relas : List ObjRela

def absIndex : Nat := 0xFFF1

/-- The preferred base that `fjas` records (R23). -/
def preferredBase : Nat := 2 ^ 32

/-- Sections of R21 in their order: the alignment, and whether writable. -/
def secTable : List (String × Nat × Bool) :=
  [(".text", 4096, false), (".kdesc", 128, false), (".const", 64, false), (".got", 8, false),
   (".data", 64, true), (".bss", 64, true)]

/-- Addresses of sections laid out in the order of R21 from a base; `size` answers `none` for a section that
is absent. The first writable one opens a 64 KiB page. -/
def layoutFrom (size : String → Option Nat) : List (String × Nat × Bool) → Nat → Bool → List (String × Nat × Nat)
  | [], _, _ => []
  | (n, al, w) :: r, a, opened =>
    match size n with
    | none => layoutFrom size r a opened
    | some k =>
      let al := if w && !opened then 65536 else al
      let a := roundUp a al
      (n, al, a) :: layoutFrom size r (a + k) (opened || w)

/-! ## From the assembler -/

/-- Bytes of one instruction (R22). -/
def Ins.bytes (n : Ins) : List Byte :=
  toLE ({ n.enc.raw with hint := BitVec.ofNat 8 n.hint }).toWord.toNat 12

/-- A descriptor (R24, R40). -/
def Kern.bytes (k : Kern) (nameOff trap : Nat) : List Byte :=
  let f (v at_ : Nat) : Nat := v * 2 ^ at_
  let fctl := k.val ".fctl" 0 ||| (if k.val ".compat" 0 == 1 then 512 else 0)
  toLE (f k.len 416 + f nameOff 384 + f k.privateBytes 320 + f (k.val ".kspill" 0) 312 + f k.spQ 308 +
    f k.rfQ 304 + f k.thatchTiles 296 + f (k.val ".bins" 0) 288 + f (k.val ".scratch" 0) 256 +
    f (k.val ".courses" 1) 224 + f k.tileRows 216 + f (k.val ".tiles" 0) 208 + f (k.val ".threads" 0) 192 +
    f (k.val ".prio" 0) 184 + f (k.val ".regs" 0) 176 + f fctl 160 + f trap 128 + f k.entry 32 +
    f (k.val ".twin2" 0) 27 + f (k.val ".twin" 0) 25 + f (k.val ".determ" 0) 24 + f 1 16 + 0xD35C) 128

/-- Names one after another, each ended by a zero byte. -/
def strTable (names : List Chars) : List Byte :=
  0 :: names.flatMap fun n => n.map (fun c => BitVec.ofNat 8 c.toNat) ++ [0]

/-- Offset of a name. -/
def strOffset (n : Chars) : List Chars → Nat → Nat
  | [], _ => 0
  | m :: r, k => if m == n then k else strOffset n r (k + m.length + 1)

def Asm.symbolNames (x : Asm) : List Chars × List Chars :=
  let locals := (x.labels.map (·.1)).filter fun s => !localName s && s ∉ x.globals
  let named := x.relocs.map (·.sym)
  let absLocal := (x.sets.map (·.1)).filter fun s => s ∈ named && s ∉ x.globals && !localName s
  (locals ++ absLocal, (x.globals ++ x.externs).eraseDups)

/-- Names of `.strtab`: symbols, kernels among them. -/
def Asm.strNames (x : Asm) : List Chars := x.symbolNames.1 ++ x.symbolNames.2

/-- Symbols that GOTHI20 entries reach, in the order of the entries. -/
def Asm.gotSyms (x : Asm) : List Chars :=
  ((x.relocs.reverse.filter fun r => r.type == 4).map (·.sym)).eraseDups

/-- Bytes of each section; a section without bytes is absent, but for `.got`. -/
def Asm.secBytes (x : Asm) : String → List Byte
  | ".text" => x.ins.reverse.flatMap Ins.bytes
  | ".kdesc" => x.kerns.reverse.flatMap fun k =>
      k.bytes (strOffset k.name x.strNames 1) (match k.trapvec.bind fun s => tget x.labels s with
        | some p => p.off
        | none => 0xFFFFFFFF)
  | ".const" => x.const.reverse
  | ".data" => x.data.reverse
  | ".got" => List.replicate (8 * x.gotSyms.length) 0
  | _ => []

def Asm.obj (x : Asm) : Obj :=
  let size (n : String) : Option Nat :=
    let k := if n == ".bss" then x.bss else (x.secBytes n).length
    if k == 0 && n != ".got" then none else some k
  let lay := layoutFrom size secTable preferredBase false
  let secs := lay.map fun p =>
    ObjSec.mk p.1 p.2.1 p.2.2 (x.secBytes p.1) ((size p.1).getD 0)
  let index (n : String) : Nat := ((lay.findIdx? fun p => p.1 == n).map (· + 1)).getD 0
  let addr (n : String) : Nat := ((lay.find? fun p => p.1 == n).map (·.2.2)).getD preferredBase
  let sym (glob : Bool) (s : Chars) : ObjSym := match tget x.labels s, tget x.sets s with
    | some p, _ =>
      let off := if p.sec = .text then 12 * p.off else p.off
      ⟨s, glob, false, index p.sec.name, addr p.sec.name + off⟩
    | none, some v => ⟨s, glob, false, absIndex, lowBits 64 v⟩
    | none, none => ⟨s, true, false, 0, 0⟩
  let (ls, gs) := x.symbolNames
  let sections := secs.zipIdx.map fun p => ObjSym.mk [] false true (p.2 + 1) p.1.addr
  let syms := ⟨[], false, false, 0, 0⟩ :: sections ++ ls.map (sym false) ++ gs.map (sym true)
  let symIndex (s : Chars) : Nat × Int := match localName s, tget x.labels s with
    | true, some p => (index p.sec.name, ((if p.sec = .text then 12 * p.off else p.off) : Nat))
    | _, _ => (((syms.findIdx? fun y => !y.isSec && y.name == s)).getD 0, 0)
  { base := preferredBase, secs := secs, syms := syms,
    relas := x.relocs.reverse.map fun r =>
      let (i, k) := symIndex r.sym
      { off := addr r.sec.name + r.off, type := r.type, sym := i, add := r.add + k } }

/-! ## The file -/

/-- A section header with its bytes. -/
structure ElfSec where
  name : String
  type : Nat
  flags : Nat := 0
  addr : Nat := 0
  link : Nat := 0
  info : Nat := 0
  align : Nat := 1
  ent : Nat := 0
  bytes : List Byte := []
  size : Nat

def elfFlags (n : String) : Nat :=
  2 + (if n == ".text" then 4 else 0) + (if n == ".data" || n == ".bss" then 1 else 0)

/-- The sections of an object, `.rela`, the symbols and the names after those placed. -/
def Obj.elfSecs (o : Obj) : List ElfSec :=
  let names := ((o.syms.filter fun s => !s.isSec).drop 1).map (·.name)
  let placed := o.secs.map fun s =>
    ElfSec.mk s.name (if s.name == ".bss" then 8 else 1) (elfFlags s.name) s.addr 0 0 s.align 0 s.bytes s.size
  let n := placed.length
  let firstGlobal := (o.syms.findIdx? (·.glob)).getD o.syms.length
  let sym := o.syms.flatMap fun s =>
    toLE (if s.isSec || s.name.isEmpty then 0 else strOffset s.name names 1) 4 ++
      [BitVec.ofNat 8 ((if s.glob then 16 else 0) + (if s.isSec then 3 else 0)), 0] ++ toLE s.shndx 2 ++
      toLE s.value 8 ++ toLE 0 8
  let rela := o.relas.flatMap fun r =>
    toLE r.off 8 ++ toLE (r.sym * 2 ^ 32 + r.type) 8 ++ toLE (lowBits 64 r.add) 8
  let strs := strTable names
  let mk (name : String) (type link info align ent : Nat) (bs : List Byte) : ElfSec :=
    { name := name, type := type, link := link, info := info, align := align, ent := ent, bytes := bs,
      size := bs.length }
  let tail := [mk ".rela" 4 (n + 2) 0 8 24 rela, mk ".symtab" 2 (n + 3) firstGlobal 8 24 sym,
    mk ".strtab" 3 0 0 1 0 strs]
  let all := placed ++ tail
  all ++ [mk ".shstrtab" 3 0 0 1 0 (strTable ((all.map (·.name.toList)) ++ [".shstrtab".toList]))]

/-- Where the image lies in the file. -/
def imageOffset : Nat := 65536

/-- Lay bytes at an offset after those before, zeros between. -/
def putAt (acc : List Byte) (off : Nat) (bs : List Byte) : List Byte :=
  acc ++ List.replicate (off - acc.length) 0 ++ bs

/-- Place the sections in the file: the bytes after the ELF and program headers, and the offset of each. -/
def placeElf (base : Nat) : List ElfSec → List Byte → List Byte × List Nat
  | [], acc => (acc, [])
  | s :: r, acc =>
    let off := if s.flags == 0 then roundUp acc.length (max 1 s.align)
      else imageOffset + (s.addr - base)
    let acc := if s.type == 8 then acc else putAt acc off s.bytes
    let (b, os) := placeElf base r acc
    (b, off :: os)

/-- The file (R20). -/
def Obj.file (o : Obj) : List Byte :=
  let secs := o.elfSecs
  let fileEnd := (o.secs.filter fun s => s.name != ".bss").foldl (fun m s => max m (s.addr + s.size)) o.base
  let memEnd := o.secs.foldl (fun m s => max m (s.addr + s.size)) o.base
  let phdr := toLE 1 4 ++ toLE 7 4 ++ toLE imageOffset 8 ++ toLE o.base 8 ++ toLE o.base 8 ++
    toLE (fileEnd - o.base) 8 ++ toLE (memEnd - o.base) 8 ++ toLE 65536 8
  let (body, offs) := placeElf o.base secs (toLE 0 64 ++ phdr)
  let shoff := roundUp body.length 8
  let names := secs.map (·.name.toList)
  let shdrs := toLE 0 64 ++ (secs.zip offs).flatMap fun p =>
    let s := p.1
    toLE (strOffset s.name.toList names 1) 4 ++ toLE s.type 4 ++ toLE s.flags 8 ++ toLE s.addr 8 ++
      toLE p.2 8 ++ toLE s.size 8 ++ toLE s.link 4 ++ toLE s.info 4 ++ toLE s.align 8 ++ toLE s.ent 8
  let ehdr := [0x7F, 0x45, 0x4C, 0x46, 2, 1, 1] ++ List.replicate 9 (0 : Byte) ++ toLE 3 2 ++ toLE 0x0F3D 2 ++
    toLE 1 4 ++ toLE 0 8 ++ toLE 64 8 ++ toLE shoff 8 ++ toLE 1 4 ++ toLE 64 2 ++ toLE 56 2 ++ toLE 1 2 ++
    toLE 64 2 ++ toLE (secs.length + 1) 2 ++ toLE secs.length 2
  ehdr ++ putAt (body.drop 64) (shoff - 64) shdrs

/-! ## Reading a file -/

def nAt (bs : List Byte) (off n : Nat) : Nat := leNat ((bs.drop off).take n)

/-- A name that a zero byte ends. -/
def nameAt (bs : List Byte) (off : Nat) : Chars :=
  ((bs.drop off).takeWhile (· != 0)).map fun b => Char.ofNat b.toNat

/-- The conditions of R20. -/
def elfOk (bs : List Byte) : Bool :=
  decide (64 ≤ bs.length) && bs.take 6 == [0x7F, 0x45, 0x4C, 0x46, 2, 1] && nAt bs 16 2 == 3 &&
    nAt bs 18 2 == 0x0F3D && nAt bs 48 4 == 1

def readSec (bs : List Byte) (strs : Nat) (off : Nat) : ElfSec × Nat :=
  let h := (bs.drop off).take 64
  let type := nAt h 4 4
  let pos := nAt h 24 8
  let size := nAt h 32 8
  ({ name := str (nameAt bs (strs + nAt h 0 4)), type := type, flags := nAt h 8 8, addr := nAt h 16 8,
     link := nAt h 40 4, info := nAt h 44 4, align := nAt h 48 8, ent := nAt h 56 8,
     bytes := if type == 8 then [] else (bs.drop pos).take size, size := size }, pos)

/-- The alignments that a section may state (R21). -/
def alignOk (writableBefore : Bool) (s : ElfSec) : Bool :=
  match secTable.find? fun p => p.1 == s.name with
  | some (_, al, w) => s.align == (if w && !writableBefore then 65536 else al)
  | none => s.name == ".rela" && s.align == 8

/-- Read an object, or say with which code it is rejected (R20, R21); `order` keeps each section's number in
the file for its symbols. -/
def readObj (bs : List Byte) : Except Diag (Obj × List String) :=
  if !elfOk bs then diag "L101" "not a Zarca code object"
  else
    let shoff := nAt bs 40 8
    let n := nAt bs 60 2
    let strs := (nAt bs (shoff + 64 * nAt bs 62 2 + 24) 8)
    let secs := (List.range n).map fun i => (readSec bs strs (shoff + 64 * i)).1
    let hasData := secs.any fun s => s.name == ".data" && nbit s.flags 1
    let bad := secs.find? fun s =>
      (nbit s.flags 1 && !(secTable.any fun p => p.1 == s.name)) ||
      (nbit s.flags 1 && !alignOk (s.name == ".bss" && hasData) s) ||
      (s.name == ".rela" && s.align != 8)
    match bad with
    | some s => diag "L102" ("section '" ++ s.name ++ "' is not recognised or has the wrong alignment")
    | none =>
      let symtab := (secs.find? fun s => s.type == 2).getD { name := "", type := 0, size := 0 }
      let strtab := (secs[symtab.link]?).getD { name := "", type := 0, size := 0 }
      let syms := (List.range (symtab.size / 24)).map fun i =>
        let e := (symtab.bytes.drop (24 * i)).take 24
        let info := nAt e 4 1
        ObjSym.mk (nameAt strtab.bytes (nAt e 0 4)) (info / 16 != 0) (info % 16 == 3) (nAt e 6 2) (nAt e 8 8)
      let rela := (secs.find? fun s => s.name == ".rela").getD { name := "", type := 0, size := 0 }
      let relas := (List.range (rela.size / 24)).map fun i =>
        let e := (rela.bytes.drop (24 * i)).take 24
        ObjRela.mk (nAt e 0 8) (nAt e 8 4) (nAt e 12 4) (signedOf 64 (nAt e 16 8))
      let placed := secTable.filterMap fun p => (secs.find? fun s => s.name == p.1 && nbit s.flags 1).map fun s =>
        ObjSec.mk s.name s.align s.addr (if s.type == 8 then List.replicate s.size 0 else s.bytes) s.size
      .ok ({ base := nAt bs (nAt bs 32 8 + 16) 8, secs := placed, syms := syms, relas := relas },
        secs.map (·.name))

/-- The names of an object's symbols and kernels: the string table of its symbols. -/
def objStrings (bs : List Byte) : List Byte :=
  let shoff := nAt bs 40 8
  let secs := (List.range (nAt bs 60 2)).map fun i => (readSec bs 0 (shoff + 64 * i)).1
  match secs.find? fun s => s.type == 2 with
  | some t => ((secs[t.link]?).map (·.bytes)).getD []
  | none => []

end Sys2Proof.Machine
end

