-- ==== Sys2Proof/Machine/Tools.lean ====
section
/-! DEFINITION. Tools.lean: an invocation of the assembler: its options (R32), its diagnostics (R46) and its
listing (R47). -/

namespace Sys2Proof.Machine

/-! ## Files and the command line -/

/-- The characters of a file, one for each byte. -/
def charsOf (bs : List Byte) : Chars := bs.map fun b => Char.ofNat b.toNat

def bytesOf (c : Chars) : List Byte := c.map fun x => BitVec.ofNat 8 x.toNat

/-- Lines, without an empty one after the last line's end. -/
def linesOf (bs : List Byte) : List Chars :=
  let ls := splitOn '\n' (charsOf bs)
  if ls.getLast? == some [] then ls.dropLast else ls

def joinLines (ls : List String) : String := String.join (ls.map fun l => l ++ "\n")

/-- Names that no file can be written under. -/
def unwritable (f : String) : Bool := f.isEmpty || f.toList.getLast? == some '/'

structure FjasOpts where
  src : Option String := none
  out : Option String := none
  list : Option String := none
  defs : List String := []
  werror : Bool := false
  reuse : Bool := true

/-- The options of R32 and no others. -/
def fjasOpts : List String → FjasOpts → Option FjasOpts
  | [], o => some o
  | "-o" :: f :: r, o => fjasOpts r { o with out := some f }
  | "-l" :: f :: r, o => fjasOpts r { o with list := some f }
  | "-D" :: d :: r, o => fjasOpts r { o with defs := o.defs ++ [d] }
  | "-Werror" :: r, o => fjasOpts r { o with werror := true }
  | "--no-reuse" :: r, o => fjasOpts r { o with reuse := false }
  | f :: r, o =>
    if f.toList.head? == some '-' || o.src.isSome then none else fjasOpts r { o with src := some f }

/-- Symbols that `-D` defines. A malformed definition ends the invocation with status 2, like an unknown
option: DESIGN CHOICE, R32 names no outcome for it (log entry 76). -/
def fjasDefs : List String → Table Chars Int → Option (Table Chars Int)
  | [], t => some t
  | d :: r, t =>
    let (n, v) := spanOf (· != '=') d.toList
    match evalText (fun s => match tget t s with
        | some v => .abs v
        | none => .unknown) false (v.drop 1) with
    | .ok x => if symName n && v.head? == some '=' then fjasDefs r (tput t n x.k) else none
    | .error _ => none

/-- The object's default name. -/
def defaultOut (src : String) : String :=
  let c := src.toList
  let n := c.length
  if n ≥ 4 && c.drop (n - 4) == ".fjs".toList then str (c.take (n - 4) ++ ".o".toList)
  else src ++ ".o"

/-! ## Diagnostics -/

/-- Reports in the order of the lines. -/
def inOrder (rs : List Report) : List Report :=
  sortBy (fun (a b : Report) => decide (a.idx < b.idx)) rs

/-- Lines on standard error: 200 reports at most. -/
def reportLines (src : String) (werror : Bool) (rs : List Report) : List String :=
  (rs.take 200).map (·.text src werror) ++ (if decide (200 < rs.length) then ["too many errors"] else [])

/-- An error is among the diagnostics, those past the 200th too; warnings do not change the status unless
`-Werror` is given (R32). -/
def isError (werror : Bool) (rs : List Report) : Bool := rs.any fun r => werror || !r.warn

/-! ## The listing (R47) -/

/-- The columns of a word. -/
def Ins.columns (n : Ins) : Chars :=
  let w := leNat n.bytes
  let pos := (toString n.run ++ "." ++ toString n.pos ++ (if nbit n.hint 7 then "^" else "")).toList
  padLeft 6 (toString n.pc).toList ++ "  0x".toList ++ hexDigits (12 * n.pc) (max 3 (hexLen (12 * n.pc))) ++
    "  ".toList ++ (hexWord (w / 2 ^ 64) ++ " " ++ hexWord (w / 2 ^ 32 % 2 ^ 32) ++ " " ++ hexWord (w % 2 ^ 32)).toList ++
    "   ".toList ++ padRight 7 pos

/-- The columns of data: the offset and up to 16 bytes. -/
def dataColumns (off : Nat) (bs : List Byte) : Chars :=
  padLeft 8 [] ++ "0x".toList ++ hexDigits off (max 3 (hexLen off)) ++ "  ".toList ++
    ((bs.take 16).map fun b => hexDigits b.toNat 2 ++ [' ']).flatten

/-- Width of the columns between line number and text. -/
def columnWidth : Nat := 60

/-- One line of the listing. -/
def listLine (x : Asm) (no : Nat) (idxs : List Nat) (text : Chars) : String :=
  let cols := match x.ins.find? (fun n => idxs.contains n.idx), x.items.reverse.filter (fun p => idxs.contains p.1) with
    | some n, _ => n.columns
    | none, (_, _, off, bs) :: r => dataColumns off (bs ++ (r.flatMap fun p => p.2.2.2))
    | none, [] => []
  str (padLeft 4 (toString no).toList ++ padRight columnWidth cols ++ trim text)

/-- The listing: each source line, and after the line of an expansion the lines it made. -/
def listing (src : String) (werror : Bool) (lines : List Chars) (x : Asm) (exp : List SrcLine) (rs : List Report) :
    List String :=
  let ls := exp.zipIdx
  lines.zipIdx.flatMap fun p =>
    let no := p.2 + 1
    let own := ls.filter fun q => q.1.org.isEmpty && q.1.no == no
    let made := ls.filter fun q => q.1.org.getLast? == some no
    let mine := rs.filter fun r => (r.org.isEmpty && r.no == no) || r.org.getLast? == some no
    let of_ (l : SrcLine) (i : Nat) (r : Report) : Bool := r.idx == i && r.no == l.no && r.org == l.org
    let top := mine.filter fun r => r.org.isEmpty
    let rest := mine.filter fun r => !r.org.isEmpty && !(made.any fun q => of_ q.1 q.2 r)
    listLine x no (own.map (·.2)) p.1 :: (top.map (·.text src werror) ++
      (made.flatMap fun q => listLine x q.1.no [q.2] q.1.text :: ((mine.filter (of_ q.1 q.2)).map (·.text src werror))) ++
      rest.map (·.text src werror))

/-! ## FJAS_RUN -/

/-- What an invocation leaves. -/
def Tools.end_ (t : Tools) (status : Nat) (err : String) : Tools := { t with status := status, err := err }

/-- One invocation of `fjas` (R32). -/
def Tools.fjas (t : Tools) (args : List String) : Tools :=
  let usage := t.end_ 2 "fjas: invalid invocation\n"
  match fjasOpts args {} with
  | none => usage
  | some o =>
    match o.src, fjasDefs o.defs [] with
    | some src, some defs =>
      let out := o.out.getD (defaultOut src)
      match tget t.files src with
      | none => usage
      | some bs =>
        if unwritable out || o.list.any unwritable then usage
        else
          let lines := linesOf bs
          let e := expandSource defs lines
          let exp := e.out.reverse
          let x := assemble o.reuse defs exp
          let rs := inOrder (e.reports.reverse ++ x.reports.reverse)
          let shown := rs.take 200
          let t := match o.list with
            | some f =>
              let text := joinLines (listing src o.werror lines x exp shown)
              { t with files := tput t.files f (bytesOf text.toList) }
            | none => t
          let err := joinLines (reportLines src o.werror rs)
          if isError o.werror rs then t.end_ 1 err
          else ({ t with files := tput t.files out x.obj.file }).end_ 0 err
    | _, _ => usage

/-- FJAS_RUN (R32). -/
def execFjasRun (args : List String) (s : State) : Host.Outcome State Fault Refusal :=
  .next { s with tools := s.tools.fjas args }

end Sys2Proof.Machine
end

