-- ==== Sys2Proof/Machine/Fjld.lean ====
section
/-! DEFINITION. Fjld.lean: the loader: options and bindings (R94), layout (R21, R23), symbols and the GOT
(R26), relocations (R27 to R29), rejection (R25, R30), and placing an image into a context (R21, R31). -/

namespace Sys2Proof.Machine

/-! ## Options -/

structure FjldOpts where
  out : Option String := none
  base : Option Nat := none
  binds : List (Chars × Nat) := []
  objs : List String := []

/-- An address, written as an integer of the assembler; it fits 64 bits, signed or unsigned (R34). -/
def addrOf (c : Chars) : Option Nat := ((intLit c).filter fun v => fitsBits v 64).map (lowBits 64)

def fjldOpts : List String → FjldOpts → Option FjldOpts
  | [], o => if o.objs.isEmpty then none else some o
  | "-o" :: f :: r, o => fjldOpts r { o with out := some f }
  | "--base" :: a :: r, o =>
    match addrOf a.toList with
    | some a => fjldOpts r { o with base := some a }
    | none => none
  | "--bind" :: b :: r, o =>
    let (n, v) := spanOf (· != '=') b.toList
    match addrOf (v.drop 1) with
    | some a => if symName n then fjldOpts r { o with binds := o.binds ++ [(n, a)] } else none
    | none => none
  | f :: r, o =>
    if f.toList.head? == some '-' then none else fjldOpts r { o with objs := o.objs ++ [f] }

/-- A name that occurs twice. -/
def firstTwice : List Chars → Option Chars
  | [] => none
  | a :: r => if a ∈ r then some a else firstTwice r

/-! ## The image -/

/-- An object as it was read: the names of its sections by number, and `.strtab`. -/
structure Linked where
  obj : Obj
  secNames : List String
  strtab : List Byte

/-- A piece of the image: which object's which section, its place, and its bytes. -/
structure Piece where
  obj : Nat
  sec : String
  /-- The address of the section in the object. -/
  orig : Nat
  addr : Nat
  bytes : List Byte

/-- Sections of one name, one after another: their offsets, and the size of all. -/
def joinSecs (name : String) (al : Nat) : List (Nat × Obj) → Nat → List (Nat × ObjSec × Nat) × Nat
  | [], k => ([], k)
  | (i, o) :: r, k =>
    match o.secs.find? fun s => s.name == name with
    | none => joinSecs name al r k
    | some s =>
      let off := roundUp k (if name == ".text" then 12 else al)
      let (ps, n) := joinSecs name al r (off + s.size)
      ((i, s, off) :: ps, n)

/-- Pieces of the image placed at a base (R21), with the sections' addresses and sizes. -/
def placeImage (objs : List Linked) (base : Nat) : List Piece × List (String × Nat × Nat) :=
  let os := objs.zipIdx.map fun p => (p.2, p.1.obj)
  let joined := secTable.map fun t => (t.1, joinSecs t.1 t.2.1 os 0)
  let size (n : String) : Option Nat := match joined.find? fun j => j.1 == n with
    | some (_, [], _) => none
    | some (_, _, k) => some k
    | none => none
  let lay := layoutFrom size secTable base false
  let at_ (n : String) : Nat := ((lay.find? fun p => p.1 == n).map (·.2.2)).getD base
  (joined.flatMap fun j => j.2.1.map fun p => Piece.mk p.1 j.1 p.2.1.addr (at_ j.1 + p.2.2) p.2.1.bytes,
    lay.map fun p => (p.1, p.2.2, (size p.1).getD 0))

/-- The end of an image. -/
def imageEnd (base : Nat) (secs : List (String × Nat × Nat)) : Nat :=
  secs.foldl (fun m s => max m (s.2.1 + s.2.2)) base

/-- Bytes at an address of the image. -/
def readImage (ps : List Piece) (a n : Nat) : List Byte :=
  match ps.find? fun p => decide (p.addr ≤ a) && decide (a < p.addr + p.bytes.length) with
  | some p => (p.bytes.drop (a - p.addr)).take n
  | none => []

/-- Write bytes at an address of the image. -/
def patchImage (ps : List Piece) (a : Nat) (bs : List Byte) : List Piece :=
  ps.map fun p =>
    if decide (p.addr ≤ a) && decide (a + bs.length ≤ p.addr + p.bytes.length) then
      { p with bytes := p.bytes.take (a - p.addr) ++ bs ++ p.bytes.drop (a - p.addr + bs.length) }
    else p

/-- What relocation needs to know of an image. -/
structure Image where
  objs : List Linked
  pieces : List Piece
  secs : List (String × Nat × Nat)
  binds : List (Chars × Nat)

def Image.secAddr (im : Image) (n : String) : Nat := ((im.secs.find? fun s => s.1 == n).map (·.2.1)).getD 0

def Image.secSize (im : Image) (n : String) : Nat := ((im.secs.find? fun s => s.1 == n).map (·.2.2)).getD 0

def Image.codeBase (im : Image) : Nat := im.secAddr ".text"

/-- Where a section of an object lies in the image: its address there and in the object. -/
def Image.piece (im : Image) (obj : Nat) (sec : String) : Option Piece :=
  im.pieces.find? fun p => p.obj == obj && p.sec == sec

def Image.sym (im : Image) (obj i : Nat) : Option ObjSym := (im.objs[obj]?).bind fun o => o.obj.syms[i]?

/-- The address of a symbol that its object defines. -/
def Image.defined (im : Image) (obj : Nat) (s : ObjSym) : Option Nat :=
  if s.shndx == 0 then none
  else if s.shndx == absIndex then some s.value
  else match (im.objs[obj]?).bind fun o => o.secNames[s.shndx]? with
    | some n => (im.piece obj n).map fun p => lowBits 64 ((p.addr : Int) + s.value - p.orig)
    | none => none

/-- The definition of a global name in the image. -/
def Image.global (im : Image) (n : Chars) : Option Nat :=
  im.objs.zipIdx.findSome? fun o => o.1.obj.syms.findSome? fun s =>
    if s.glob && s.name == n then im.defined o.2 s else none

/-- The address of a symbol; `none` when nothing binds it (R26). -/
def Image.address (im : Image) (obj i : Nat) : Option Nat :=
  match im.sym obj i with
  | none => none
  | some s =>
    match im.defined obj s with
    | some a => some a
    | none => match im.global s.name with
      | some a => some a
      | none => (im.binds.find? fun b => b.1 == s.name).map (·.2)

/-- Symbols of an object that GOTHI20 entries reach, in their order; a global one is the same in every
object. -/
def gotOf (o : Obj) : List Nat := ((o.relas.filter fun r => r.type == 4).map (·.sym)).eraseDups

/-- The address of a symbol's GOT entry. -/
def Image.gotEntry (im : Image) (obj i : Nat) : Option Nat :=
  let name := (im.sym obj i).bind fun s => if s.glob then some s.name else none
  let slot (k : Nat) : Option Nat := (im.objs[k]?).bind fun o =>
    ((gotOf o.obj).findIdx? fun j => match name with
      | some n => (o.obj.syms[j]?).any fun s => s.glob && s.name == n
      | none => k == obj && j == i).bind fun e => (im.piece k ".got").map fun p => p.addr + 8 * e
  (List.range im.objs.length).findSome? slot

/-! ## Kernels (R24, R25) -/

/-- A descriptor of the image: its address and its name. -/
structure KernAt where
  addr : Nat
  name : String
  kd : KDesc

def Image.kernels (im : Image) : List KernAt :=
  (im.pieces.filter fun p => p.sec == ".kdesc").flatMap fun p =>
    (List.range (p.bytes.length / 128)).map fun i =>
      let kd := KDesc.read ((p.bytes.drop (128 * i)).take 128)
      { addr := p.addr + 128 * i, kd := kd,
        name := match im.objs[p.obj]? with
          | some o => str (nameAt o.strtab kd.nameOff)
          | none => "" }

/-- The kernels whose range holds a PC. -/
def kernelsAt (ks : List KernAt) (pc : Nat) : List Nat :=
  (ks.zipIdx.filter fun k => decide (k.1.kd.entryPc.toNat ≤ pc) &&
    decide (pc < k.1.kd.entryPc.toNat + k.1.kd.textLen)).map (·.2)

/-- The first condition of R25 that a descriptor fails, with its code. -/
def KDesc.fault (k : KDesc) (count : Nat) : Option (String × String) :=
  let n (x : Nat) : String := toString x
  let l301 : List (Bool × String) :=
    [(k.badField.isSome, match k.badField with
        | some (f, v) => "field " ++ f ++ " = " ++ n v ++ " out of range"
        | .none => ""),
     (k.reserved.isSome, match k.reserved with
        | some (f, v) => "zero field " ++ f ++ " = " ++ hexStr v ++ " is nonzero"
        | .none => ""),
     (!fctlOk k.fctlInit, "fctl_init = " ++ n k.fctlInit ++ " not allowed by R16"),
     (decide (count < k.entryPc.toNat + k.textLen),
       "entry_pc + text_len = " ++ n (k.entryPc.toNat + k.textLen) ++ " exceeds " ++ n count),
     (!k.trapvecOk, "trapvec = " ++ n k.trapvec.toNat ++ " outside " ++ n k.entryPc.toNat ++ " to " ++
       n (k.entryPc.toNat + k.textLen - 1)),
     (decide (2 ^ 32 < k.courses * k.threads),
       "courses x threads = " ++ n (k.courses * k.threads) ++ " exceeds " ++ n (2 ^ 32)),
     (k.magic != 0xD35C, "magic = " ++ hexStr k.magic ++ " is not 0xD35C"),
     (k.version != 1, "version = " ++ hexStr k.version ++ " is not 0x1")]
  let l302 : List (Bool × String) :=
    [(decide (k.rfQ * 65536 < k.regs * k.threads * 4),
       "regs x threads x 4 = " ++ n (k.regs * k.threads * 4) ++ " exceeds rf_q x 65536 = " ++ n (k.rfQ * 65536)),
     (decide (k.spQ * 65536 < k.spFootprint),
       "scratch + tiles x tile_rows x 512 + thatch_tiles x 4096 = " ++ n k.spFootprint ++
         " exceeds sp_q x 65536 = " ++ n (k.spQ * 65536)),
     (decide (14 < k.rfQ + k.spQ), "rf_q + sp_q = " ++ n (k.rfQ + k.spQ) ++ " exceeds 14")]
  match l301.find? (·.1), l302.find? (·.1) with
  | some p, _ => some ("L301", p.2)
  | .none, some p => some ("L302", p.2)
  | .none, .none => .none

/-! ## Relocations (R27 to R29) -/

def kindName (t : Nat) : String :=
  match t with
  | 1 => "ABS64"
  | 2 => "PCHI20"
  | 3 => "PCLO12"
  | 4 => "GOTHI20"
  | 5 => "GOTLO12"
  | 6 => "CALL"
  | _ => "type " ++ toString t

/-- Words that the opcode map lists in format I (R57). -/
def fnsI (group : Nat) : List Nat :=
  match group with
  | 0x0 => [0, 1, 2, 3, 5, 6, 7, 9, 0xA, 0xB, 0xC, 0xD, 0xE, 0xF, 0x10, 0x12]
  | 0x1 => [0, 1, 2, 3, 4, 5]
  | 0x2 => [0, 1, 2, 4]
  | 0x6 => [0, 1, 2, 3, 4, 5, 6, 8]
  | 0x9 => [0, 1, 2, 3, 7]
  | 0xB => [0, 1, 5]
  | 0xE => [0, 1, 7]
  | _ => []

/-- Words that it lists in format M. -/
def fnsM (group : Nat) : List Nat :=
  match group with
  | 0x0 => [0x15]
  | 0x4 => [0, 1, 2, 3, 4, 5, 6, 7]
  | 0x5 => [3, 4, 5]
  | 0xE => [6, 8, 9]
  | _ => []

inductive SiteKind where
  | h | m | i | call | other
  deriving DecidableEq

/-- The format of a word at a site. A word of an A/I entry counts as I only with m[7] = 1, since its
register form has no imm32 to write; m is not looked at elsewhere: DESIGN CHOICE (log entry 76). -/
def siteKind (w : Nat) : SiteKind :=
  let g := bits w 95 92
  let f := bits w 91 84
  if g == 0 && (f == 0x13 || f == 0x14) then .h
  else if (fnsM g).contains f then .m
  else if (fnsI g).contains f && nbit w 39 then .i
  else if g == 3 && f == 2 then .call
  else .other

/-- hi(x) of R27. -/
def hi20 (x : Int) : Int := Int.fdiv (x + 0x800) 4096

/-- A site: the section, the address, and for `.text` the PC. -/
structure Site where
  sec : String
  addr : Nat
  pc : Option Nat

def Image.site (im : Image) (obj : Nat) (r : ObjRela) : Option Site :=
  (im.pieces.find? fun p => p.obj == obj && decide (p.orig ≤ r.off) &&
    decide (r.off < p.orig + p.bytes.length)).map fun p =>
    let a := p.addr + (r.off - p.orig)
    ⟨p.sec, a, if p.sec == ".text" then some ((a - im.codeBase) / 12) else none⟩

/-- A site meets R29 for its type. -/
def Image.siteOk (im : Image) (s : Site) (t : Nat) : Bool :=
  if t == 1 then
    [".const", ".data", ".got"].contains s.sec && s.addr % 8 == 0 && (readImage im.pieces s.addr 8).length == 8
  else
    let k := siteKind (leNat (readImage im.pieces s.addr 12))
    s.sec == ".text" && (s.addr - im.codeBase) % 12 == 0 &&
      (match t with
        | 2 => k == .h
        | 4 => k == .h
        | 3 => k == .m || k == .i
        | 5 => k == .m
        | _ => k == .call)

/-- S + A − P or G + A − P of a high site; `none` when its symbol is unbound. Addresses have 64 bits, and
the difference is reduced to 64 bits and read as signed: DESIGN CHOICE (log entry 76). -/
def Image.highValue (im : Image) (obj : Nat) (r : ObjRela) (p : Nat) : Option Int :=
  let v := if r.type == 4 then (im.address obj r.sym).bind fun _ => im.gotEntry obj r.sym
    else im.address obj r.sym
  v.map fun a => signedOf 64 (lowBits 64 ((a : Int) + r.add - p))

/-- The high entry that a low one names: a local symbol at a high site, in the same kernel or outside every
one as the low site is (R28). -/
def Image.pair (im : Image) (ks : List KernAt) (obj : Nat) (r : ObjRela) (s : Site) : Option (ObjRela × Site) :=
  match im.sym obj r.sym, im.address obj r.sym with
  | some y, some a =>
    if y.glob then none
    else ((im.objs[obj]?).map fun o => o.obj.relas).getD [] |>.findSome? fun q =>
      if q.type + 1 != r.type then none
      else match im.site obj q with
        | some hs =>
          let same := match hs.pc, s.pc with
            | some h, some l => kernelsAt ks h == kernelsAt ks l
            | _, _ => false
          if hs.addr == a && same then some (q, hs) else none
        | none => none
  | _, _ => none

/-- Replace bits [k-1:0] of imm32, the first four bytes of a word. -/
def patchImm (w k : Nat) (v : Int) : List Byte := toLE (w / 2 ^ k * 2 ^ k + lowBits k v) 4

/-- Apply an entry: the bytes to write, or the code and text of its failure. A low entry that names an
unbound symbol has no pair either: that it is reported as L205 and not as L203 is a DESIGN CHOICE (log
entry 76). -/
def Image.relocate (im : Image) (ks : List KernAt) (obj : Nat) (r : ObjRela) (s : Site) :
    Except (String × String) (List Byte) :=
  let name := match im.sym obj r.sym with
    | some y => str y.name
    | none => ""
  let what := kindName r.type ++ " to '" ++ name ++ "' "
  let imm := leNat (readImage im.pieces s.addr 4)
  let unbound : Except (String × String) (List Byte) := .error ("L203", what ++ "unbound: P = " ++ hexStr s.addr)
  let high (f : Int → Except (String × String) (List Byte)) : Except (String × String) (List Byte) :=
    match im.highValue obj r s.addr with
    | some v => f v
    | none => unbound
  if r.type == 0 || decide (6 < r.type) then .error ("L201", what ++ "unknown: P = " ++ hexStr s.addr)
  else if !im.siteOk s r.type then .error ("L202", what ++ "at a site of the wrong form: P = " ++ hexStr s.addr)
  else match r.type with
  | 1 => match im.address obj r.sym with
    | some a => .ok (toLE (lowBits 64 ((a : Int) + r.add)) 8)
    | none => unbound
  | 3 => low imm what
  | 5 => low imm what
  | 6 => high fun v =>
    let a := v + s.addr
    let inText := decide ((im.codeBase : Int) ≤ a - r.add) &&
      decide (a - r.add < ((im.codeBase + im.secSize ".text" : Nat) : Int))
    let q := Int.fdiv v 12
    if inText && v % 12 == 0 && decide (-(2 ^ 31 : Int) ≤ q) && decide (q < 2 ^ 31) then .ok (toLE (lowBits 32 q) 4)
    else .error ("L206", what ++ "out of range: S+A-P = " ++ hexInt v)
  | t => high fun v =>
    if decide (-524288 ≤ hi20 v) && decide (hi20 v ≤ 524287) then .ok (patchImm imm 20 (hi20 v))
    else .error ("L204", what ++ "out of range: " ++ (if t == 4 then "G" else "S") ++ "+A-P = " ++ hexInt v)
where
  low (imm : Nat) (what : String) : Except (String × String) (List Byte) :=
    match im.pair ks obj r s with
    | none => .error ("L205", what ++ "has no pair: P = " ++ hexStr s.addr)
    | some (q, hs) =>
      match im.highValue obj q hs.addr with
      | none => .ok (toLE imm 4)
      | some y =>
        let l := y - 4096 * hi20 y
        .ok (if siteKind (leNat (readImage im.pieces s.addr 12)) = .i then toLE (lowBits 32 l) 4
          else patchImm imm 12 l)

/-! ## Rejection and its extent (R30) -/

/-- What relocation has done: the pieces, the kernels rejected, and the lines on standard error, newest first. -/
structure Loading where
  pieces : List Piece
  rejected : List Nat
  err : List String

def errLine (code : String) (kern : Option String) (text : String) : String :=
  "fjld: error " ++ code ++ ": " ++ (match kern with
    | some k => "kernel '" ++ k ++ "': "
    | none => "") ++ text

/-- Apply the entries in order; the whole object fails at the first failure that no one kernel owns. A site
outside the image gives L202 whatever the entry's type, since it lies in no kernel that could own an
L201: DESIGN CHOICE (log entry 76). -/
def Image.relocateAll (im : Image) (ks : List KernAt) :
    List (Nat × ObjRela) → Loading → Except (List String) Loading
  | [], x => .ok x
  | (obj, r) :: rest, x =>
    match im.site obj r with
    | none =>
      .error (errLine "L202" none (kindName r.type ++ " at a site outside the image: P = " ++ hexStr r.off) :: x.err)
    | some s =>
      match im.relocate ks obj r s with
      | .ok bs => im.relocateAll ks rest { x with pieces := patchImage x.pieces s.addr bs }
      | .error (code, text) =>
        match s.pc.map (kernelsAt ks) with
        | some [k] =>
          let name := ((ks[k]?).map (·.name)).getD ""
          im.relocateAll ks rest { x with rejected := k :: x.rejected, err := errLine code (some name) text :: x.err }
        | _ => .error (errLine code none text :: x.err)

/-- Everything that `fjld` writes into an image: the GOT, the relocations, code_base, and the version of a
rejected kernel. A `.text` whose size is no multiple of 12 is accepted, and its last bytes are no
instruction: DESIGN CHOICE, R21 names no diagnostic (log entry 76). -/
def Image.load (im : Image) : Except (List String) Loading :=
  let ks := im.kernels
  let count := im.secSize ".text" / 12
  let faults := ks.zipIdx.filterMap fun k => (k.1.kd.fault count).map fun f => (k.2, k.1.name, f)
  let got := im.objs.zipIdx.flatMap fun o => (gotOf o.1.obj).filterMap fun i =>
    match im.gotEntry o.2 i, im.address o.2 i with
    | some e, some a => some (e, toLE a 8)
    | _, _ => none
  let pieces := got.foldl (fun ps p => patchImage ps p.1 p.2) im.pieces
  let entries := im.objs.zipIdx.flatMap fun o => o.1.obj.relas.map fun r => (o.2, r)
  match im.relocateAll ks entries
      { pieces := pieces, rejected := faults.map (·.1),
        err := (faults.map fun f => errLine f.2.2.1 (some f.2.1) f.2.2.2).reverse } with
  | .error e => .error e
  | .ok x =>
    let ps := ks.zipIdx.foldl (fun ps k =>
      let ps := patchImage ps (k.1.addr + 8) (toLE im.codeBase 8)
      if x.rejected.contains k.2 then patchImage ps (k.1.addr + 2) [0] else ps) x.pieces
    .ok { x with pieces := ps }

/-! ## Placing into a context (R21, R31, R94) -/

/-- Every page of a range lies in the canonical halves and is unmapped in the context, and no image that was
placed for the context lies in it (R94). -/
def State.rangeFree (s : State) (ctx base len : Nat) : Bool :=
  !((s.ctx ctx).any fun x => x.images.any fun p => decide (p.1 < base + len) && decide (base < p.1 + p.2)) &&
  (decide (base + len ≤ 2 ^ 47) || (decide (2 ^ 64 - 2 ^ 47 ≤ base) && decide (base + len ≤ 2 ^ 64))) &&
    (List.range (ceilDiv len 65536)).all fun i =>
      match s.leafAddr ctx (base + 65536 * i) with
      | .error (hv, _) => !hv
      | .ok _ => false

/-- The page of a number, in the lower half of the address space and then the upper. -/
def canonicalPage (k : Nat) : Nat :=
  let k := k % 2 ^ 32
  65536 * (if decide (k < 2 ^ 31) then k else 2 ^ 48 - 2 ^ 32 + k)

/-- The first free range from a page number on, round the canonical addresses. -/
def State.findFree (s : State) (ctx len start : Nat) : Nat → Option Nat
  | 0 => none
  | n + 1 =>
    let base := canonicalPage start
    if s.rangeFree ctx base len then some base else s.findFree ctx len (start + 1) n

/-- Write at an intermediate address of a context. -/
def State.writeInter (s : State) (x : Context) (ia : Nat) (bs : List Byte) : Option State :=
  (s.stage2 x ia).map fun p => s.writeKeyed (leafKey x p.2) p.1 bs

/-- Map one 64 KiB page: write its entry, with tables taken from spare pages where none stand (R187). -/
def State.mapLeaf (s : State) (x : Context) (table va entry : Nat) : Nat → List Nat → Option (State × List Nat)
  | 0, _ => none
  | n + 1, spare =>
    let level := 3 - n
    let slot := table + 8 * levelIndex level va
    if level == 3 then (s.writeInter x slot (toLE entry 8)).map fun s => (s, spare)
    else match s.stage2 x slot with
    | none => none
    | some (pa, l) =>
      match pageEntry false level (leNat (s.readKeyed (leafKey x l) pa 8)), spare with
      | .table t, _ => s.mapLeaf x t va entry n spare
      | .invalid, t :: rest =>
        match s.writeInter x t (toLE 0 4096) with
        | none => none
        | some s => match s.writeInter x slot (toLE (t + 1) 8) with
          | none => none
          | some s => s.mapLeaf x t va entry n rest
      | _, _ => none

/-- A leaf of stage 1 for a 64 KiB page. -/
def leafEntry (frame : Nat) (w x : Bool) : Nat :=
  frame + 1024 + 1 + 2 + (if w then 4 else 0) + (if x then 8 else 0)

/-- Bytes of the image from its base to its end, the gaps zero. -/
def imageBytes (base len : Nat) (ps : List Piece) : List Byte :=
  let bs := ps.foldl (fun acc p => if p.bytes.isEmpty then acc else putAt acc (p.addr - base) p.bytes) []
  bs ++ List.replicate (len - bs.length) 0

/-- Pages that may back an image: 64 KiB pages, each another, that stage 2 maps to read and write. -/
def State.pagesOk (s : State) (x : Context) (pages : List Nat) : Bool :=
  decide pages.Nodup && pages.all fun p => p % 65536 == 0 &&
    (match s.stage2 x p with
      | some (_, l) => l.r && l.w
      | none => false)

/-- Store the image and map its pages (R21). -/
def State.placeInto (s : State) (x : Context) (base len textEnd roEnd : Nat) (bs : List Byte) (pages : List Nat) :
    Option State :=
  let n := ceilDiv len 65536
  if !s.pagesOk x pages || decide (pages.length < n) then none
  else
    ((List.range n).foldl (fun acc i =>
      match acc, pages[i]? with
      | some (s, spare), some p =>
        let va := base + 65536 * i
        let entry := leafEntry p (decide (roEnd ≤ va)) (decide (va < textEnd))
        match s.writeInter x p ((bs.drop (65536 * i)).take 65536) with
        | some s => s.mapLeaf x (x.s1Root.toNat / 4096 * 4096) (va % 2 ^ 48) entry 4 spare
        | none => none
      | _, _ => none) (some (s, pages.drop n))).map (·.1)

/-! ## FJLD_RUN -/

/-- The load map (R94). -/
def Image.map (im : Image) (base : Nat) (rejected : List Nat) : List String :=
  ("base " ++ hexStr base) ::
  (im.secs.map fun s => "section " ++ s.1 ++ " " ++ hexStr s.2.1 ++ " " ++ hexStr s.2.2) ++
  (im.kernels.zipIdx.map fun k => "kernel " ++ k.1.name ++ " " ++ hexStr k.1.addr ++
    (if rejected.contains k.2 then " rejected" else " loaded")) ++
  (im.objs.zipIdx.flatMap fun o => (o.1.obj.syms.filter (·.glob)).filterMap fun y =>
    (im.defined o.2 y).map fun a => "symbol " ++ str y.name ++ " " ++ hexStr a)

def State.toolEnd (s : State) (status : Nat) (err : List String) : State :=
  { s with tools := s.tools.end_ status (joinLines err) }

/-- Read the objects, or the first that is rejected or missing. -/
def readAll (files : Table String (List Byte)) : List String → Except Diag (List Linked)
  | [] => .ok []
  | f :: r => do
    match tget files f with
    | none => diag "" "no such object"
    | some bs =>
      let (o, names) ← readObj bs
      let rest ← readAll files r
      .ok ({ obj := o, secNames := names, strtab := objStrings bs } :: rest)

/-- Options that reject the objects whatever the place (R94). -/
def optionFault (o : FjldOpts) (objs : List Linked) : Option Diag :=
  let defined (n : Chars) : Bool := objs.any fun x => x.obj.syms.any fun y => !y.isSec && y.shndx != 0 && y.name == n
  match o.base.filter fun b => b % 65536 != 0, firstTwice (o.binds.map (·.1)), (o.binds.map (·.1)).find? defined with
  | some b, _, _ => some ⟨"L103", "base " ++ hexStr b ++ " not a multiple of 65536"⟩
  | none, some n, _ => some ⟨"L104", "symbol '" ++ str n ++ "' bound twice"⟩
  | none, none, some n => some ⟨"L106", "symbol '" ++ str n ++ "' defined in image"⟩
  | none, none, none => none

/-- Where the image goes: `--base`, the preferred base, or a free choice among the free ranges. -/
def State.chooseBase (s : State) (ctx : Option Nat) (o : FjldOpts) (objs : List Linked) : Option Nat :=
  let preferred := match objs with
    | x :: _ => x.obj.base
    | [] => preferredBase
  let len := imageEnd 0 (placeImage objs 0).2
  let free (b : Nat) : Bool := match ctx with
    | some c => s.rangeFree c b len
    | none => true
  match o.base with
  | some b => if free b then some b else none
  | none =>
    if preferred % 65536 == 0 && free preferred then some preferred
    else match ctx with
      | some c => s.findFree c len (Config.freeChoice s.free) (2 ^ 32)
      | none => some (canonicalPage (Config.freeChoice s.free))

/-- Where the loader places an image: the context, and the pages that the host hands it for the image and for
tables. -/
def State.fjld (s : State) (place : Option (Nat × List Nat)) (args : List String) : State :=
  match fjldOpts args {} with
  | none => s.toolEnd 2 ["fjld: invalid invocation"]
  | some o =>
    if o.out.any unwritable then s.toolEnd 2 ["fjld: invalid invocation"]
    else match readAll s.tools.files o.objs with
    | .error d => s.toolEnd 2 [if d.code.isEmpty then "fjld: " ++ d.text else errLine d.code none d.text]
    | .ok objs =>
      match optionFault o objs, s.chooseBase (place.map (·.1)) o objs with
      | some d, _ => s.toolEnd 2 [errLine d.code none d.text]
      | none, none => s.toolEnd 2 [errLine "L105" none "no free range for image"]
      | none, some base =>
        let s := { s with free := s.free + 1 }
        let (pieces, secs) := placeImage objs base
        let im : Image := { objs := objs, pieces := pieces, secs := secs, binds := o.binds }
        match im.load with
        | .error e => s.toolEnd 2 e.reverse
        | .ok x =>
          let len := imageEnd base secs - base
          let bs := imageBytes base len x.pieces
          let group (f : String → Bool) : Nat :=
            imageEnd base (secs.filter fun t => f t.1)
          let placed : Option State := match place with
            | none => some s
            | some (c, pages) => (s.ctx c).bind fun ctx =>
                s.placeInto ctx base len (group (· == ".text"))
                  (roundUp (group fun n => n != ".data" && n != ".bss") 65536) bs pages |>.map fun s =>
                  match s.ctx c with
                  | some ctx => s.setCtx c { ctx with images := (base, len) :: ctx.images }
                  | none => s
          match placed with
          | none => s.toolEnd 2 ["fjld: no memory for image"]
          | some s =>
            let s := match o.out with
              | some f =>
                let file := bs ++ bytesOf (joinLines (im.map base x.rejected)).toList
                { s with tools := { s.tools with files := tput s.tools.files f file } }
              | none => s
            s.toolEnd (if x.rejected.isEmpty then 0 else 1) x.err.reverse

/-- FJLD_RUN (R94). -/
def execFjldRun (place : Option (Nat × List Nat)) (args : List String) (s : State) :
    Host.Outcome State Fault Refusal :=
  .next (s.fjld place args)

end Sys2Proof.Machine
end

