-- ==== Sys2Proof/Machine/Relia.lean ====
section
/-! DEFINITION. Relia.lean: rollback requests, uncorrectable errors, and the in-field test of a cluster
(R115, R217, R337, R338, R340). -/

namespace Sys2Proof.Machine

/-! ## Requests and errors (R217, R337, R338) -/

/-- The launch holds a course that has not retired. -/
def State.holdsUnretired (s : State) (n : Nat) (l : Launch) (course : Nat) : Bool :=
  (s.course ⟨n, course⟩).isSome ||
    (decide (course < l.kd.courses) && (decide (l.next ≤ course) || l.redo.any fun p => p.1 == course))

/-- The PC and thread that an event about a course carries where no one thread is concerned: those of
one of its threads, a free choice. -/
def State.somePc (s : State) (co : CourseId) : (Word × Nat) × State :=
  let ts := s.threadsOf co
  let (k, s) := s.drawBelow ts.length
  match ts[k]? with
  | some p => ((p.2.pc, p.1.cthr), s)
  | none => ((0, 0), s)

/-- ROLLBACK_REQ: the course in the context's oldest launch that holds it unretired. -/
def execRollbackReq (part : Nat) (w : DWord) (s : State) : Host.Outcome State Fault Refusal :=
  let n := w.toNat
  let ctx := bits n 9 0
  let course := bits n 41 10
  if n / 2 ^ 42 != 0 || !(s.ctx ctx).any (fun x => x.part == part) then .next s
  else
    let ls := s.launches.filter fun p => p.2.ctx == ctx && s.holdsUnretired p.1 p.2 course
    match leastBy (fun a b => decide (a.1 < b.1)) ls with
    | none => .next s
    | some (l, _) =>
      let (pc, s) := s.somePc ⟨l, course⟩
      .next (s.courseFailure ⟨l, course⟩ 0x05 pc.1 pc.2)

/-- The row of a register lies with a lender or in L2: leased rows hold the course's highest-numbered
registers (R113, R114). -/
def Course.leasedReg (c : Course) (k : KDesc) (reg : Nat) : Bool :=
  decide (c.leased ≠ 0) && decide (c.regBytes < 4 * k.threads * (reg + 1) + c.leased)

/-- UNCORRECTABLE_REGISTER_READ: repaired from a usable mirror, else cause 0x01. -/
def execUncorrectableRegisterRead (th : ThreadId) (reg : Fin 192) (mirrorUsable : Bool) (s : State) :
    Host.Outcome State Fault Refusal :=
  match s.thread th, s.course (courseOf th), s.kdesc th.launch with
  | some t, some c, some k =>
    if (s.core c.core).mirror && mirrorUsable && !c.leasedReg k reg.val then
      .next (s.modCtx c.ctx fun x => { x with repairs := x.repairs + 1 })
    else .next (s.courseFailure (courseOf th) 0x01 t.pc th.cthr)
  | _, _, _ => .next s

/-- ENGINE_UNCORRECTABLE_ERROR: the course's entries go, and cause 0x02 follows (R217). -/
def execEngineUncorrectableError (co : CourseId) (s : State) : Host.Outcome State Fault Refusal :=
  match s.course co with
  | none => .next s
  | some c =>
    let s := s.modCluster (coreCluster c.core) fun cl =>
      { cl with entries := cl.entries.filter fun e => courseOf e.th != co }
    let (pc, s) := s.somePc co
    .next (s.courseFailure co 0x02 pc.1 pc.2)

/-! ## The in-field test (R340) -/

/-- The `%gts` at which a cluster is tested; it starts at 0, and reaches a time only by counting up. -/
def testDue (cluster now : Nat) : Bool :=
  decide (0 < now) && now % 14400000000000 == 69000000000 * cluster

/-- Threads on a cluster. -/
def State.threadsOnCluster (s : State) (cluster : Nat) : Table ThreadId Thread :=
  s.threads.filter fun p => coreCluster (s.coreOf p.1) == cluster

/-- Some resident thread has a window open. -/
def State.windowOn (s : State) (cluster : Nat) : Bool :=
  (s.threadsOnCluster cluster).any fun p => p.2.nopre.isSome

/-- Some resident thread holds an object that has a waiter. -/
def State.heldOn (s : State) (cluster : Nat) : Bool :=
  (s.threadsOnCluster cluster).any fun p => !(s.waitersOn [p.1]).isEmpty

/-- The move of a cluster's courses waits: for a held object until the deadline, 100 ms after the test's
time, and for a window until 50,000 ns after it. -/
def State.moveDeferred (s : State) (cluster deadline : Nat) : Bool :=
  (s.heldOn cluster && decide (s.gts < deadline)) ||
    (s.windowOn cluster && decide (s.gts + 99950000 < deadline))

/-- The test begins when no course is resident; else the resident contexts are moved off. -/
def State.proceedTest (s : State) (cluster deadline : Nat) : State :=
  let ctxs := s.ctxsOn cluster
  if ctxs.isEmpty then
    s.modCluster cluster fun c => { c with test := some (.testing (s.gts + 2000000)) }
  else if s.moveDeferred cluster deadline then s
  else ctxs.foldl (fun s c => s.moveContext cluster c) s

/-- INFIELD_TEST_START: the cluster takes no more placements. -/
def execInfieldTestStart (cluster : Nat) (s : State) : Host.Outcome State Fault Refusal :=
  let c := s.cluster cluster
  if !s.enabledCluster cluster || !c.inService || c.test.isSome || !testDue cluster s.gts then .next s
  else
    let deadline := s.gts + 100000000
    let s := s.setCluster cluster { c with test := some (.moving deadline) }
    .next (s.proceedTest cluster deadline)

/-- INFIELD_MOVE_DEFER_EXPIRY: nothing defers the move any more, or no course is left to move. -/
def execInfieldMoveDeferExpiry (cluster : Nat) (s : State) : Host.Outcome State Fault Refusal :=
  match (s.cluster cluster).test with
  | some (.moving deadline) => .next (s.proceedTest cluster deadline)
  | _ => .next s

/-- INFIELD_TEST_COMPLETE: back to service, one position fused, or retired. -/
def execInfieldTestComplete (cluster : Nat) (failing : List Nat) (sharedPass : Bool) (s : State) :
    Host.Outcome State Fault Refusal :=
  let c := s.cluster cluster
  match c.test with
  | some (.testing done) =>
    if s.gts < done then .next s
    else
      let bad := (List.range 4).filter fun p => p ∈ failing
      match bad, sharedPass, c.fused with
      | [], true, _ => .next (s.setCluster cluster { c with test := none })
      | [p], true, none =>
        if h : p < 4 then
          .next ((s.setCluster cluster { c with test := none, fused := some ⟨p, h⟩ }).clusterEvent cluster
            (coreNumber cluster p) 0x08)
        else .next s
      | _, _, _ =>
        .next ((s.setCluster cluster { c with test := none, inService := false }).clusterEvent cluster
          (coreNumber cluster 0) 0x07)
  | _ => .next s

end Sys2Proof.Machine
end

