-- ==== Sys2Proof/Machine/Meter.lean ====
section
/-! DEFINITION. Meter.lean: Saffron meters, tokens and settlements (R321 to R326). -/

namespace Sys2Proof.Machine

/-! ## Charges (R321, R322, R325) -/

/-- Picojoules of a token. -/
def tokenPj : Nat := 1000000000

/-- Spend tokens: at zero the partition is throttled, and what it spends beyond becomes debt (R325).
Debt is kept in picojoules. -/
def Partition.spend (p : Partition) (pj : Nat) : Partition :=
  let left := p.tokens * tokenPj - p.spent
  if pj == 0 then p
  else if pj < left then
    let t := ceilDiv (left - pj) tokenPj
    { p with tokens := t, spent := t * tokenPj - (left - pj) }
  else
    { p with tokens := 0, spent := 0, debt := p.debt + (pj - left), throttled := true, hungry := true }

/-- Charge the hypervisor's own account. -/
def State.chargeHv (s : State) (pj : Nat) : State :=
  { s with mgmt := { s.mgmt with pj := s.mgmt.pj + pj } }

/-- Charge a context, and spend its partition's tokens. -/
def State.chargeCtx (s : State) (ctx pj : Nat) : State :=
  match s.ctx ctx with
  | some x => (s.setCtx ctx { x with pj := x.pj + pj }).modPart x.part fun p => p.spend pj
  | none => s.chargeHv pj

/-- Charge work of a course; work that a rollback redoes after a hardware error is the hypervisor's
(R322, R336). -/
def State.chargeCourse (s : State) (co : CourseId) (pj : Nat) : State :=
  match s.course co with
  | some c =>
    let r := min c.redo pj
    ((s.setCourse co { c with charged := c.charged + pj, redo := c.redo - r }).chargeHv r).chargeCtx
      c.ctx (pj - r)
  | none => s

/-- The coefficient of a kind of event in force (R321). -/
def State.coefficient (s : State) (kind : Nat) : Nat := Config.energy kind s.mgmt.calOk

/-- What an instruction charges when it issues: a base and one for each active thread, twice in a
twinned run; a word issued again after a mismatch goes to the hypervisor (R322). `s` is the state before
it acted. -/
def State.meterIssue (s t : State) (g : Issue) (i : Instr) : State :=
  if t.issue.isNone then t
  else
    let run := ((s.core g.core).slot g.slot).run
    let times := if run.any (·.twin) then 2 else 1
    let again := run.any (·.mismatched)
    let act : List ThreadId := match Instr.ctl i with
      | some c => (s.active c).map (·.1)
      | none => []
    let one := times * s.coefficient 1
    let line := Config.lineEnergy t.free
    let t := { t with free := t.free + 1 }
    if again then t.chargeHv (times * s.coefficient 0 + one * act.length + line)
    else
      let t := match g.gang with
        | id :: _ => t.chargeCourse (courseOf id) (times * s.coefficient 0 + line)
        | [] => t
      act.foldl (fun t id => t.chargeCourse (courseOf id) one) t

/-- What an operation charges when it ends (R322). -/
def State.opEnergy (s : State) (o : Op) : Nat :=
  match o.kind with
  | .copy c => s.coefficient 2 * ceilDiv c.bytes 128
  | .traverse .. => s.coefficient 3
  | .closure .. => s.coefficient 4
  | .row .. => s.coefficient 5
  | .mlds .. => s.coefficient 6
  | _ => 0

/-- What an engine entry charges at its write cycle: a pass by its processed blocks. -/
def State.entryEnergy (s : State) (c : Cluster) (e : EngineEntry) : Nat :=
  match e.kind with
  | .pass b _ =>
    let sb := c.slotOf (courseOf e.th) (bits b.toNat 9 5)
    s.coefficient 7 * processed b.toNat (sb.tag == 0x20) sb.summary
  | .macc .. => s.coefficient 8
  | .mzero _ => s.coefficient 9

/-- The course whose access or work an event is. -/
def State.actor (s : State) : Instr → Option CourseId
  | .loadReturn th _ => some (courseOf th)
  | .atomicReturn th _ => some (courseOf th)
  | .privateStorePerformed th _ => some (courseOf th)
  | .traversalComplete th _ => some (courseOf th)
  | .closureOpComplete th _ => some (courseOf th)
  | .commitRegister co _ => some co
  | .atomdDrain co => some co
  | .copyRetire co _ => some co
  | .publFlip co _ => some co
  | .binSortComplete co _ => some co
  | .binAutoResume co => some co
  | .courseRetire co => some co
  | .mldsComplete _ op => (s.op op).map fun o => courseOf o.th
  | _ => none

/-- The context for which the mapper, the dispatcher, the collective engine or a context's save and
restore make the accesses of an event. -/
def State.actorCtx (s : State) : Instr → Option Nat
  | .packetHeadCheck p q => (s.queue p q).map (·.ctx)
  | .packetBegin p q => (s.queue p q).map (·.ctx)
  | .dependencePoll p q => (s.queue p q).map (·.ctx)
  | .launchEnd n => (s.launch n).map (·.ctx)
  | .collDoorbell _ ctx _ => some ctx
  | .collectiveComplete op _ => (tget s.collectives op).map (·.ctx)
  | .softRequest ctx => some ctx
  | .haltComplete ctx => some ctx
  | .contextRestore ctx => some ctx
  | _ => none

/-- Contexts of the calls that an answer passes: what each call has made the kernel do, a packet sent
or an NVMe command, is theirs (R322). -/
def State.answeredCtxs (s : State) (part : Nat) (head : DWord) : List Nat :=
  match s.part part with
  | none => []
  | some p =>
    let mine (i : Nat) (id : ThreadId) (t : Thread) : Bool :=
      t.await == .call i && s.partOf (s.ctxOf id) == part
    (List.range (min head.toNat p.callQ.tail - p.callQ.head)).filterMap fun j =>
      let i := p.callQ.head + j
      match s.caller part i with
      | some id => some (s.ctxOf id)
      | none => (s.ctxs.find? fun c => c.2.saved.any fun sv => sv.courses.any fun x =>
          x.threads.any fun t => mine i t.1 t.2).map (·.1)

/-- The lowest-numbered valid context of a partition. -/
def State.lowestCtx (s : State) (part : Nat) : Option Nat :=
  leastBy (fun a b => decide (a < b)) ((s.ctxsOf part).map (·.1))

/-- Charge a partition's lowest-numbered valid context, the hypervisor where it has none. -/
def State.chargeLowest (s : State) (part pj : Nat) : State :=
  match s.lowestCtx part with
  | some c => s.chargeCtx c pj
  | none => s.chargeHv pj

/-- Charge accesses, flits or packets of a context, whose energy is free (log entry 6). -/
def State.chargeLines (s : State) (ctx : Nat) : State :=
  { s with free := s.free + 1 }.chargeCtx ctx (Config.lineEnergy s.free)

/-- Packets that a partition, any of them, receives meanwhile (R322). -/
def State.receivePackets (s : State) : State :=
  let (n, s) := s.drawBelow 40
  if (s.part n).isSome then
    { s with free := s.free + 1 }.chargeLowest n (Config.lineEnergy s.free)
  else s

/-- What an event charges: the operations and entries that it ended, and its line accesses. -/
def State.meterEvent (s t : State) (i : Instr) : State :=
  let ended := s.ops.filter fun p => (t.op p.1).isNone
  let t := ended.foldl (fun t p => t.chargeCourse (courseOf p.2.th) (s.opEnergy p.2)) t
  let t := match i with
    | .engineEntryWriteCycle cl n =>
      let c := s.cluster cl
      (c.entries.filter fun e => e.id == n && (t.cluster cl).entries.all fun x => x.id != n).foldl
        (fun t e => t.chargeCourse (courseOf e.th) (s.entryEnergy c e)) t
    | _ => t
  let t := match s.actor i with
    | some co => { t with free := t.free + 1 }.chargeCourse co (Config.lineEnergy t.free)
    | none => match s.actorCtx i with
      | some ctx => t.chargeLines ctx
      | none => t
  match i with
  | .syscAnswer part head => (s.answeredCtxs part head).foldl State.chargeLines t
  | .infieldTestComplete .. => t.chargeHv (t.coefficient 11)
  | _ => t

/-! ## Settlement (R321 to R326) -/

/-- 64 KiB pages that the stage-2 leaves under a table map; `n` levels are left (R187, R323, R327). -/
def State.pages2 (s : State) (part table : Nat) : Nat → List Nat
  | 0 => []
  | n + 1 =>
    let level := 3 - n
    (List.range (if level == 3 then 32 else 512)).flatMap fun i =>
      match pageEntry true level (leNat (s.readPhys (table + 8 * i) 8)) with
      | .invalid => []
      | .table t => s.pages2 part t n
      | .leaf l =>
        if s.frameOk part l.frame && decide (l.key < 512) then
          (List.range (l.size / 65536)).map (l.frame / 65536 + ·)
        else []

/-- Pages that a context maps. -/
def State.pagesOf (s : State) (x : Context) : List Nat :=
  s.pages2 x.part (x.s2Root.toNat / 4096 * 4096) 4

/-- Settle one account: whole nanojoules move, the remainder stays (R321). -/
def State.settleAccounts (s : State) : State :=
  let onCtx (x : Context) : Context := { x with joule := x.joule + x.pj / 1000, pj := x.pj % 1000 }
  { s with ctxs := s.ctxs.map fun (p : Nat × Context) => (p.1, onCtx p.2),
           mgmt := { s.mgmt with joule := s.mgmt.joule + s.mgmt.pj / 1000, pj := s.mgmt.pj % 1000 } }

/-- Nanojoules charged and not settled. -/
def State.unsettled (s : State) : Nat :=
  sumNat (s.ctxs.map fun p => p.2.pj / 1000) + s.mgmt.pj / 1000

/-- Split a stack's refresh energy over the contexts by the bytes of it that they map, rounded down to
whole nanojoules; the remainder goes to the lowest-numbered one, and the share of the bytes that no
context maps to the hypervisor (R323). -/
def State.splitRefresh (s : State) (stack : Nat) : State :=
  let share := ((sortBy (fun (a b : Nat × Context) => decide (a.1 < b.1)) s.ctxs).map fun p =>
    (p.1, ((s.pagesOf p.2).filter fun g => g / 1048576 == stack).eraseDups)).filter fun p => !p.2.isEmpty
  let e := Config.refreshEnergy stack
  let whole := e * (share.flatMap (·.2)).eraseDups.length / 1048576
  let parts := sumNat (share.map (·.2.length))
  let given := share.map fun p => (p.1, whole * p.2.length / parts)
  let rest := whole - sumNat (given.map (·.2))
  let s := given.foldl (fun s p => s.chargeCtx p.1 (1000 * p.2)) s
  let s := match given with
    | p :: _ => s.chargeCtx p.1 (1000 * rest)
    | [] => s
  s.chargeHv (1000 * (e - whole))

/-- Static energy of a slice: to its partition's lowest-numbered valid context (R323). -/
def State.splitStatic (s : State) (slice : Nat) : State :=
  let e := Config.staticEnergy slice
  match s.parts.find? fun p => p.2.slices.getLsbD slice with
  | some (n, _) => s.chargeLowest n e
  | none => s.chargeHv e

/-- The first settlement that finds a context's quota reached asks for its soft pre-emption (R324). -/
def State.checkQuota (s : State) (ctx : Nat) : State :=
  match s.ctx ctx with
  | none => s
  | some x =>
    if x.quota.toNat ≠ 2 ^ 64 - 1 ∧ x.quota.toNat ≤ x.joule ∧ !x.quotaHit then
      (s.setCtx ctx { x with quotaHit := true }).softRequest ctx
    else s

/-- Whole tokens that a partition leaves unspent (R326). -/
def Partition.unspent (p : Partition) : Nat := (p.tokens * tokenPj - p.spent) / tokenPj

/-- A partition at the start of an interval (R325, R326): alloc, its draw, less its debt, floored at
zero; what is short stays as debt. -/
def Partition.deal (p : Partition) (draw : Nat) : Partition :=
  let got := (p.nextAlloc + draw) * tokenPj
  let left := got - p.debt
  let t := ceilDiv left tokenPj
  { p with alloc := p.nextAlloc, weight := p.nextWeight, drawn := draw, tokens := t,
           spent := t * tokenPj - left, debt := p.debt - got, throttled := t == 0, hungry := t == 0 }

/-- The Gutter pool and the next interval's tokens (R326). -/
def State.dealTokens (s : State) : State :=
  let pool := sumNat (s.parts.map fun p => p.2.unspent)
  let weight (p : Partition) : Nat := if p.hungry then p.nextWeight else 0
  let total := sumNat (s.parts.map fun p => weight p.2)
  { s with parts := s.parts.map fun (p : Nat × Partition) =>
      (p.1, p.2.deal (if total == 0 then 0 else pool * weight p.2 / total)) }

/-- SETTLEMENT, at each multiple of 1,000,000 ns: costs that no event causes are split, charges settle,
what was measured and not attributed goes to the hypervisor, quotas are checked, and tokens dealt.
`measured` is what the rail sensors measured, in nanojoules. -/
def execSettlement (measured : Nat) (s : State) : Host.Outcome State Fault Refusal :=
  if s.gts % 1000000 != 0 || s.gts == s.settled then .next s
  else
    let hbms := (List.range 12).filter fun i => s.caps.getLsbD (8 + i)
    let slices := (List.range 48).filter fun i => s.diePresent (i / 12)
    let s := hbms.foldl State.splitRefresh { s with settled := s.gts }
    let s := slices.foldl State.splitStatic s
    let s := s.chargeHv (1000 * (measured - s.unsettled))
    let s := s.settleAccounts
    let s := (s.ctxs.map (·.1)).foldl State.checkQuota s
    .next s.dealTokens

end Sys2Proof.Machine
end

