-- ==== Sys2Proof/Machine/Hyper.lean ====
section
/-! DEFINITION. Hyper.lean: the hypervisor's commands (R315 to R320, R326 to R330, R349, R351, R352) and
the pages of a migration. -/

namespace Sys2Proof.Machine

/-! ## A command (R315) -/

def hvBad : BitVec 8 := 0x01
def hvInUse : BitVec 8 := 0x02
def hvSliceTaken : BitVec 8 := 0x03
def hvPortTaken : BitVec 8 := 0x04
def hvNamespace : BitVec 8 := 0x05
def hvAbsent : BitVec 8 := 0x06
def hvTokens : BitVec 8 := 0x07
def hvImage : BitVec 8 := 0x08
def hvContexts : BitVec 8 := 0x09
def hvKeyRecord : BitVec 8 := 0x0A
def hvPeer : BitVec 8 := 0x0B

/-- Run a command: a command that fails changes nothing and leaves its code; while busy a write of
HV_CMD is ignored; before the hypervisor has started there is none to write it. -/
def State.command (s : State) (f : State → Except (BitVec 8) State) : State :=
  if s.mgmt.busy || !s.started then s
  else
    match f s with
    | .ok s' => { s' with mgmt := { s'.mgmt with code := 0 } }
    | .error c => { s with mgmt := { s.mgmt with code := c } }

/-- The command's target, when HV_ARG's zero field is clear and the number is below `n`. -/
def State.target (s : State) (n : Nat) : Except (BitVec 8) Nat :=
  if s.mgmt.arg.toNat < n then .ok s.mgmt.arg.toNat else .error hvBad

/-- The command's block. -/
def State.block (s : State) (n : Nat) : List Byte := s.readPhys (s.mgmt.addr.toNat / 64 * 64) n

/-- A check of the order of the codes. -/
def ensure (ok : Bool) (c : BitVec 8) : Except (BitVec 8) Unit := if ok then .ok () else .error c

/-! ## Partitions (R106, R317, R318) -/

/-- Clusters of some slices, in partition order (R106). -/
def State.clustersOf (s : State) (slices : BitVec 48) : List Nat :=
  allClusters.filter fun c =>
    s.enabledCluster c && slices.getLsbD (s.clusterSlice c) && (s.cluster c).inService

/-- Logical cores of some clusters: positions ascending, holes skipped (R106). -/
def State.coresOf (s : State) (clusters : List Nat) : List Nat :=
  clusters.flatMap fun c =>
    ((List.range 4).filter fun p => (s.cluster c).fused.all fun f => f.val != p).map (coreNumber c)

/-- A partition as op 1 builds it, its registers at reset (R96, R189, R290, R305). It has no tokens
until the next interval begins. -/
def State.newPartition (s : State) (n : Nat) (measurement : List Byte) : Partition :=
  let slices := BitVec.ofNat 48 (bits n 47 0)
  let clusters := s.clustersOf slices
  { slices := slices, port := bits n 53 48, nsid := BitVec.ofNat 32 (bits n 95 64),
    alloc := bits n 127 112, weight := bits n 143 136, nextAlloc := bits n 127 112,
    nextWeight := bits n 143 136, imageLen := bits n 287 256, measurement := measurement,
    clusters := clusters, ltp := s.coresOf clusters, queueTable := 0, resplitTime := 50,
    faultQ := Ring.reset, deadlockQ := Ring.reset, ovfTrap := false, callQ := Ring.reset,
    eventQ := Ring.reset, lost := 0, purlinSel := 0, grace := 200, kill := 10000, tokens := 0,
    debt := 0, drawn := 0, spent := 0, throttled := true, hungry := true, snapshot := none,
    lastSnapshot := none, migration := none, groups := [], collStat := 0, resplits := [] }

/-- Tokens per interval that the partitions have, but for one (R315 code 0x07). -/
def State.allocSum (s : State) (but : Nat) : Nat :=
  sumNat ((s.parts.filter fun p => p.1 != but).map fun p => p.2.nextAlloc)

/-- Layout of a partition descriptor; `image` asks for its image fields too (R317, R330). -/
def State.descriptorOk (s : State) (n : Nat) (image : Bool) : Bool :=
  bits n 511 288 == 0 && bits n 191 144 == 0 && bits n 135 128 == 0 && bits n 111 98 == 0 &&
    bits n 63 54 == 0 && decide (bits n 53 48 < 40) && decide (1 ≤ bits n 95 64) &&
    decide (bits n 95 64 ≤ 0xFFFFFFFE) && decide (bits n 127 112 ≤ 3000) &&
    (!image || (decide (4096 ≤ bits n 287 256) && decide (bits n 287 256 ≤ 268435456) &&
      decide (bits n 97 96 < 2))) &&
    bits n 47 0 != 0 && ((List.range 48).all fun i => !nbit n i || s.diePresent (i / 12))

/-- The checks of op 1, in the order of the codes; the image follows (R317). -/
def State.checkPartition (s : State) (part n : Nat) (image : Bool) : Except (BitVec 8) Unit := do
  ensure (s.descriptorOk n image) hvBad
  ensure (s.part part).isNone hvInUse
  ensure (s.parts.all fun p => p.2.slices &&& BitVec.ofNat 48 (bits n 47 0) == 0) hvSliceTaken
  ensure (s.parts.all fun p => p.2.port != bits n 53 48) hvPortTaken
  ensure (Config.namespacePresent (bits n 95 64) &&
    s.parts.all fun p => p.2.nsid.toNat != bits n 95 64) hvNamespace
  ensure (decide (s.allocSum part + bits n 127 112 ≤ s.mgmt.pkgTokens)) hvTokens

/-- The image of a descriptor: from the host's memory, or from the namespace (R318). -/
def State.bootImage (s : State) (n : Nat) : List Byte :=
  let len := bits n 287 256
  let loc := bits n 255 192
  if bits n 97 96 == 1 then s.readPhys (2 ^ 40 + loc) len
  else (List.range len).map fun i => Config.nvmeByte s.free (bits n 95 64) (4096 * loc + i)

/-- The partition that a physical address of the slices' memory belongs to. -/
def sliceOfAddr (a : Nat) : Nat := a / (192 * 2 ^ 30) * 12 + a % (192 * 2 ^ 30) / (16 * 2 ^ 30)

/-- Write zero into every byte of some slices' memory (R317). -/
def State.zeroSlices (s : State) (slices : BitVec 48) : State :=
  let mine (a : Nat) : Bool := decide (a < gib768) && slices.getLsbD (sliceOfAddr a)
  { s with mem := s.mem.filter fun c => !mine c.1, units := s.units.filter fun u => !mine (64 * u.1) }

/-- Cores as they start when their partition boots: at the split of R109, holding no line. -/
def State.bootCores (s : State) (cores : List Nat) : State :=
  cores.foldl (fun s n => (s.modCore n fun c =>
    { c with rf := Core.reset.rf, sp := Core.reset.sp, resplit := none, l1 := [] }).updateMirror n) s

/-- CREATE_PARTITION, op 1. The image must verify; after a cold start the slices' memory is zeroed. -/
def execCreatePartition (s : State) : Host.Outcome State Fault Refusal :=
  .next (s.command fun s => do
    let part ← s.target 40
    let n := leNat (s.block 64)
    s.checkPartition part n true
    let img := s.bootImage n
    let s := { s with free := s.free + 1 }
    let digest := sha512 (img.take (img.length - 64))
    ensure (edVerify (toLE (Config.partitionKey part).toNat 32) digest (img.drop (img.length - 64))) hvImage
    let p := s.newPartition n digest
    .ok (((if s.warm then s else s.zeroSlices p.slices).bootCores p.ltp).setPart part p))

/-- DESTROY_PARTITION, op 2. -/
def execDestroyPartition (s : State) : Host.Outcome State Fault Refusal :=
  .next (s.command fun s => do
    let part ← s.target 40
    match s.part part with
    | none => .error hvAbsent
    | some p =>
      ensure (s.ctxsOf part).isEmpty hvContexts
      let s := s.zeroSlices p.slices
      .ok { s with parts := tdel s.parts part, queues := s.queues.filter fun q => q.1.1 != part })

/-- SET_TOKENS, op 8: from the next interval (R326). -/
def execSetTokens (s : State) : Host.Outcome State Fault Refusal :=
  .next (s.command fun s => do
    let part ← s.target 40
    let n := leNat (s.block 64)
    ensure (decide (bits n 127 112 ≤ 3000)) hvBad
    match s.part part with
    | none => .error hvAbsent
    | some p =>
      ensure (decide (s.allocSum part + bits n 127 112 ≤ s.mgmt.pkgTokens)) hvTokens
      .ok (s.setPart part { p with nextAlloc := bits n 127 112, nextWeight := bits n 143 136 }))

/-! ## Contexts and keys (R319, R320, R352) -/

/-- A key slot that is loaded and not revoked. -/
def State.keyLoaded (s : State) (k : Nat) : Bool :=
  match tget s.keys k with
  | some x => !x.revoked
  | none => false

/-- Layout of a context entry (R319). -/
def contextOk (n : Nat) : Bool :=
  bits n 459 448 == 0 && bits n 331 320 == 0 && bits n 319 40 == 0 && decide (bits n 39 34 < 40) &&
    decide (bits n 33 24 < 512) && bits n 20 1 == 0

/-- A context as op 3 makes it valid (R16, R319). -/
def newContext (n : Nat) (saved : Option Saved) : Context :=
  { part := bits n 39 34, keySlot := bits n 33 24, twinOk := BitVec.ofNat 3 (bits n 23 21),
    quota := BitVec.ofNat 64 (bits n 447 384), imageAddr := BitVec.ofNat 64 (bits n 511 448),
    s2Root := BitVec.ofNat 64 (bits n 383 320), s1Root := 0, ceiling := 7, rung := .running,
    softAt := none, haltAt := none, step := false, brk := false, saved := saved, moveOff := none,
    quotaHit := false, joule := 0, pj := 0, purlinOverflow := 0, purlinLost := 0, repairs := 0,
    rollbacks := 0, images := [] }

/-- SET_CONTEXT, op 3: it writes valid into the entry. A context that was freed when it was saved may
be restored from its image. -/
def execSetContext (s : State) : Host.Outcome State Fault Refusal :=
  .next (s.command fun s => do
    let ctx ← s.target 512
    let n := leNat (s.block 64)
    ensure (contextOk n) hvBad
    ensure (s.ctx ctx).isNone hvInUse
    ensure ((s.part (bits n 39 34)).isSome && s.keyLoaded (bits n 33 24)) hvAbsent
    let a := s.mgmt.addr.toNat / 64 * 64
    let s := s.writePhys a [BitVec.ofNat 8 (n / 2 * 2 + 1)]
    .ok { s.setCtx ctx (newContext n (tget s.freed ctx)) with freed := tdel s.freed ctx })

/-- Free a context: its translations and queues go; its image keeps what it holds. -/
def State.freeCtx (s : State) (ctx : Nat) : State :=
  match s.ctx ctx with
  | none => s
  | some x =>
    let mine := s.courses.filter fun p => p.2.ctx == ctx
    let ls := s.launches.filter fun p => p.2.ctx == ctx
    let s := s.dropTranslations fun e => e.ctx == ctx
    let freed := match x.saved with
      | some sv => tput s.freed ctx { sv with records := mine, launches := ls }
      | none => s.freed
    { s with ctxs := tdel s.ctxs ctx, queues := s.queues.filter fun q => q.2.ctx != ctx,
             courses := s.courses.filter fun p => p.2.ctx != ctx,
             launches := s.launches.filter fun p => p.2.ctx != ctx, freed := freed }

/-- FREE_CONTEXT, op 4. -/
def execFreeContext (s : State) : Host.Outcome State Fault Refusal :=
  .next (s.command fun s => do
    let ctx ← s.target 512
    match s.ctx ctx with
    | none => .error hvAbsent
    | some x =>
      ensure (x.rung == .saved || x.rung == .reset) hvContexts
      .ok (s.freeCtx ctx))

/-- The private half of the transport key pair. -/
def State.transportSecret (s : State) : List Byte := toLE (Config.transportKey s.transports).toNat 32

/-- Unwrap a key record for a slot (R352): the key pair, when its tag and zero bytes hold. -/
def State.unwrapKey (s : State) (slot : Nat) (r : List Byte) : Option (BitVec 512) :=
  let pub := r.take 32
  let cipher := (r.drop 32).take 64
  let secret := x25519 s.transportSecret pub
  let key := (hkdf512 secret (0x5A :: toLE slot 2)).take 32
  let nonce := List.replicate 12 0
  if gcmTag key nonce pub cipher = (r.drop 96).take 16 ∧ (r.drop 112).all (· == 0) then
    some (BitVec.ofNat 512 (leNat (gcmStream key nonce cipher)))
  else none

/-- LOAD_KEY, op 5. -/
def execLoadKey (s : State) : Host.Outcome State Fault Refusal :=
  .next (s.command fun s => do
    let slot ← s.target 512
    ensure (!s.keyLoaded slot) hvInUse
    match s.unwrapKey slot (s.block 128) with
    | some k => .ok { s with keys := tput s.keys slot { key := k, revoked := false } }
    | none => .error hvKeyRecord)

/-- REVOKE_KEY, op 6. -/
def execRevokeKey (s : State) : Host.Outcome State Fault Refusal :=
  .next (s.command fun s => do
    let slot ← s.target 512
    match tget s.keys slot with
    | some k =>
      ensure (!k.revoked) hvAbsent
      .ok { s with keys := tput s.keys slot { k with revoked := true } }
    | none => .error hvAbsent)

/-! ## Snapshots (R327) -/

/-- Pages that a partition's contexts map. -/
def State.partPages (s : State) (part : Nat) : List Nat :=
  (s.ctxsOf part).foldl (fun l p => (s.pagesOf p.2).foldl addNew l) []

/-- The latest complete snapshot: every page of it is in storage. -/
def Partition.latest (p : Partition) : Option Snapshot :=
  match p.snapshot with
  | some n => if n.guarded.isEmpty then some n else p.lastSnapshot
  | none => p.lastSnapshot

/-- SNAPSHOT, op 7: every mapped page is write-protected in one event, and a new dirty bitmap starts. -/
def execSnapshot (s : State) : Host.Outcome State Fault Refusal :=
  .next (s.command fun s => do
    let part ← s.target 40
    match s.part part with
    | none => .error hvAbsent
    | some p =>
      .ok (s.setPart part
        { p with snapshot := some { guarded := s.partPages part, stored := [], dirty := [] },
                 lastSnapshot := p.latest }))

/-- The hypervisor copies pages that are still protected, one by one, and lifts their protection: which
page of which partition comes now, if any, is free (R327, log entry 82). -/
def State.copyProtected (s : State) : State :=
  let (n, s) := s.drawBelow 40
  match (s.part n).bind (·.snapshot) with
  | some sn =>
    let (k, s) := s.drawBelow (sn.guarded.length + 1)
    match sn.guarded[k]? with
    | some page => s.liftPage n page
    | none => s
  | none => s

/-! ## Migration (R328 to R330) -/

/-- Layout of a migration block (R330). -/
def migrationOk (n : Nat) : Bool :=
  bits n 511 330 == 0 && bits n 191 70 == 0 && decide (bits n 69 64 < 40) && bits n 63 2 == 0 &&
    decide (bits n 329 320 < 512) &&
    (match bits n 1 0 with
      | 0 => bits n 255 192 / 2 ^ 13 == 0
      | 1 => bits n 255 192 % 4096 == 0
      | _ => false)

/-- A migration of a block. -/
def newMigration (n : Nat) (out : Bool) (absent ctxs : List Nat) : Migration :=
  { outgoing := out, path := bits n 1 0, peer := BitVec.ofNat 64 (bits n 255 192),
    peerPart := bits n 69 64, session := bits n 329 320, dirtyMax := bits n 319 256, absent := absent,
    ctxs := ctxs }

def State.setMig (s : State) (state reason : BitVec 8) : State :=
  { s with mgmt := { s.mgmt with migState := state, migReason := reason } }

/-- Pages that differ from the latest complete snapshot; without one, every page. -/
def State.dirtyPages (s : State) (part : Nat) (p : Partition) : List Nat :=
  match p.latest with
  | some n => n.dirty
  | none => s.partPages part

/-- A peer that refuses fails the command, and MIG_STAT says so (R330). -/
def State.refusedByPeer (s : State) : State :=
  if s.mgmt.busy || !s.started then s
  else { s.setMig 0x08 0x01 with mgmt := { (s.setMig 0x08 0x01).mgmt with code := hvPeer } }

/-- The checks of op 9. -/
def State.checkMigrateOut (s : State) : Except (BitVec 8) (Nat × Nat × Partition) := do
  let part ← s.target 40
  let n := leNat (s.block 64)
  ensure (migrationOk n) hvBad
  match s.part part with
  | none => .error hvAbsent
  | some p => .ok (part, n, p)

/-- MIGRATE_OUT, op 9: once the block is accepted the snapshot is sent. -/
def execMigrateOut (peerAccepts : Bool) (s : State) : Host.Outcome State Fault Refusal :=
  match s.checkMigrateOut with
  | .error c => .next (s.command fun _ => .error c)
  | .ok (part, n, p) =>
    if !peerAccepts then .next s.refusedByPeer
    else
      .next (s.command fun s =>
        if !s.keyLoaded (bits n 329 320) then .ok (s.setMig 0x08 0x04)
        else
          let m := newMigration n true [] ((s.ctxsOf part).map (·.1))
          .ok ((s.setPart part { p with migration := some m }).setMig 0x01 0))

/-- The source of a migration goes on (R328, R330): the snapshot is sent and the contexts are halted; they
are all saved or reset, and what is sent then is decided, the dirty pages beyond dirty_max staying to be
pulled; that is sent, and the source switches. With no page absent it frees the contexts. -/
def State.migrateOn (s : State) : State :=
  match s.parts.find? fun p => p.2.migration.any (·.outgoing) with
  | none => s
  | some (part, p) =>
    match p.migration with
    | none => s
    | some m =>
      match s.mgmt.migState.toNat with
      | 1 => (m.ctxs.foldl State.hardHalt s).setMig 0x02 0
      | 2 =>
        if m.ctxs.all fun c => (s.ctx c).all fun x => x.rung == .saved || x.rung == .reset then
          let m := { m with absent := (s.dirtyPages part p).drop m.dirtyMax }
          (s.setPart part { p with migration := some m }).setMig 0x03 0
        else s
      | 3 =>
        if m.absent.isEmpty then
          m.ctxs.foldl State.freeCtx ((s.setPart part { p with migration := none }).setMig 0x07 0)
        else s.setMig 0x04 0
      | _ => s

/-- What goes on beside the instructions: packets arrive, protected pages are copied, a migration goes on
(R322, R327, R328). When is free (log entry 82). -/
def State.background (s : State) : State :=
  let s := s.receivePackets.copyProtected
  let (b, s) := s.drawBit
  if b then s.migrateOn else s

/-- The checks of op 10: the block, then the descriptor as op 1 checks it, but for its image. -/
def State.checkMigrateIn (s : State) : Except (BitVec 8) (Nat × Nat × Nat) := do
  let part ← s.target 40
  let n := leNat (s.block 64)
  let d := leNat ((s.block 128).drop 64)
  ensure (migrationOk n) hvBad
  s.checkPartition part d false
  .ok (part, n, d)

/-- MIGRATE_IN, op 10: the partition exists, its cores at the split of R109, and receives. -/
def execMigrateIn (peerAccepts : Bool) (s : State) : Host.Outcome State Fault Refusal :=
  match s.checkMigrateIn with
  | .error c => .next (s.command fun _ => .error c)
  | .ok (part, n, d) =>
    if !peerAccepts then .next s.refusedByPeer
    else
      .next (s.command fun s =>
        if !s.keyLoaded (bits n 329 320) then .ok (s.setMig 0x08 0x04)
        else
          let p := s.newPartition d []
          .ok (((s.bootCores p.ltp).setPart part
            { p with migration := some (newMigration n false [] []) }).setMig 0x05 0))

/-- The key slot of the leaf under a table that maps a page; `n` levels are left. -/
def State.keyUnder (s : State) (x : Context) (table page : Nat) : Nat → Option Nat
  | 0 => none
  | n + 1 =>
    let level := 3 - n
    (List.range (if level == 3 then 32 else 512)).findSome? fun i =>
      match pageEntry true level (leNat (s.readPhys (table + 8 * i) 8)) with
      | .invalid => none
      | .table t => s.keyUnder x t page n
      | .leaf l =>
        if l.frame / 65536 ≤ page ∧ page < (l.frame + l.size) / 65536 then some (leafKey x l)
        else none

/-- The key slot under which a partition's contexts map a page. -/
def State.pageKey (s : State) (part page : Nat) : Option Nat :=
  (s.ctxsOf part).findSome? fun c => s.keyUnder c.2 (c.2.s2Root.toNat / 4096 * 4096) page 4

/-- Store a page that a migration brings, under the slot that its leaf names. -/
def State.storePage (s : State) (part page : Nat) (data : List Byte) : State :=
  match s.pageKey part page with
  | some k => s.writeKeyed k (65536 * page) (data.take 65536)
  | none => s.writePhys (65536 * page) (data.take 65536)

/-- What a migration brings for a context of the destination: its image, with the records, the staging
buffers and the launches, its JOULE_USED and its quota. The peer is outside the part, so it is free, drawn
with the counter of the state; `none` brings no image (R328, log entry 7). -/
opaque arrival : Nat → Nat → Option (Saved × Nat × DWord)

/-- The context's share of what arrives: its image is stored under its key slot, and its meter and quota
are those of the source. Launch numbers are the model's own, and new here. -/
def State.takeArrival (s : State) (ctx : Nat) : State :=
  match s.ctx ctx, arrival s.free ctx with
  | some x, some (sv, joule, quota) =>
    if sv.launches.all fun l => decide (s.nextId ≤ l.1) then
      let x := { x with saved := some sv, joule := joule, pj := 0, quota := quota }
      let s := s.writeKeyed x.keySlot x.imageAddr.toNat (s.imageOf ctx sv.courses)
      { s.setCtx ctx x with
        free := s.free + 1, nextId := (sv.launches.map (·.1)).foldl (fun m n => max m (n + 1)) s.nextId }
    else { s with free := s.free + 1 }
  | _, _ => { s with free := s.free + 1 }

/-- MIGRATION_DATA_RECEIVED: the destination stores the pages that were sent, marks the others absent,
keeps the dirty bitmap, and restores the contexts (R328). -/
def execMigrationDataReceived (part : Nat) (absent dirty : List Nat) (s : State) :
    Host.Outcome State Fault Refusal :=
  match s.part part with
  | none => .next s
  | some p =>
    match p.migration with
    | none => .next s
    | some m =>
      if m.outgoing || s.mgmt.migState != 0x05 then .next s
      else
        let sn : Snapshot := { guarded := [], stored := [], dirty := dirty }
        let s := s.setPart part { p with migration := some { m with absent := absent }, snapshot := some sn }
        let s := s.setMig (if absent.isEmpty then 0x07 else 0x06) 0
        let s := ((s.partPages part).filter fun g => g ∉ absent).foldl (fun s g => s.storePage part g
          ((List.range 65536).map fun i => Config.peerByte s.free g i)) s
        let s := ((s.ctxsOf part).map (·.1)).foldl State.takeArrival { s with free := s.free + 1 }
        let back := ((s.ctxsOf part).filter fun c => c.2.saved.isSome).map fun c =>
          Instr.contextRestore c.1
        .next { s with inputs := back ++ s.inputs }

/-- MIGRATION_PULL_REQUEST: the source sends a page; when none is left it frees the contexts (R329,
R330). -/
def execMigrationPullRequest (part page : Nat) (s : State) : Host.Outcome State Fault Refusal :=
  match s.part part with
  | none => .next s
  | some p =>
    match p.migration with
    | none => .next s
    | some m =>
      if !m.outgoing || s.mgmt.migState != 0x04 then .next s
      else
        let left := m.absent.filter (· != page)
        if left.isEmpty then
          .next (m.ctxs.foldl State.freeCtx ((s.setPart part { p with migration := none }).setMig 0x07 0))
        else .next (s.setPart part { p with migration := some { m with absent := left } })

/-- MIGRATION_PATH_FAILURE: before the switch the source restores its halted contexts and the partition
goes on in place (R330); after it the pulls decide (R329). -/
def execMigrationPathFailure (part : Nat) (s : State) : Host.Outcome State Fault Refusal :=
  match s.part part with
  | none => .next s
  | some p =>
    match p.migration with
    | none => .next s
    | some m =>
      if !m.outgoing || decide (s.mgmt.migState.toNat ≥ 4) then .next s
      else
        let s := (s.setPart part { p with migration := none }).setMig 0x08 0x02
        let s := m.ctxs.foldl (fun s c => s.modCtx c fun x =>
          if x.rung == .halting || x.rung == .saved then { x with moveOff := some [], haltAt := none }
          else x) s
        let back := (m.ctxs.filter fun c => match s.ctx c with
          | some x => x.rung == .saved
          | none => false).map Instr.contextRestore
        .next { s with inputs := back ++ s.inputs }

/-! ## Absent pages (R329) -/

/-- The ticket is a stage-2 fault on a page. -/
def State.onPage (s : State) (page : Nat) (tk : Ticket) : Bool :=
  tk.hv && s.pageOf (bits tk.entry.toNat 63 54) (bits tk.entry.toNat 255 192) == some page

/-- When the pull of a page began: at the first fault on it. -/
def State.pullBegan (s : State) (page : Nat) : Option Nat :=
  leastBy (fun a b => decide (a < b)) (((s.tickets.map (·.1)).filter (s.onPage page)).map Ticket.gts)

/-- A page's bytes arrive: it is absent no more, and the faults on it are retried. -/
def State.pageArrives (s : State) (part page : Nat) (data : List Byte) : State :=
  let s := s.storePage part page data
  let waiting := s.onPage page
  let s := s.modPart part fun p => { p with migration := p.migration.map fun m =>
    { m with absent := m.absent.filter (· != page) } }
  let s := s.mapTickets fun tk => if waiting tk then none else some tk
  match (s.part part).bind (·.migration) with
  | some m => if m.absent.isEmpty && s.mgmt.migState == 0x06 then s.setMig 0x07 0 else s
  | none => s

/-- The page is absent at this destination. -/
def State.pageAbsent (s : State) (part page : Nat) : Bool :=
  match (s.part part).bind (·.migration) with
  | some m => !m.outgoing && decide (page ∈ m.absent)
  | none => false

/-- ABSENT_PAGE_PULL. -/
def execAbsentPagePull (part page : Nat) (data : List Byte) (s : State) :
    Host.Outcome State Fault Refusal :=
  if s.pageAbsent part page then .next (s.pageArrives part page data) else .next s

/-- Migration data is not available: every context that maps the page is reset, and MIG_STAT records
the lowest (R329). -/
def State.pageLost (s : State) (part page : Nat) : State :=
  let cs := sortBy (fun a b => decide (a < b)) <|
    ((s.ctxsOf part).filter fun c => page ∈ s.pagesOf c.2).map (·.1)
  let s := cs.foldl State.resetCtx (s.setMig 0x08 0x03)
  { s with mgmt := { s.mgmt with migCtx := cs.headD 0 } }

/-- PULL_TIMEOUT: 10 ms after the pull began a clean page is read from the snapshot; a dirty one, or a
failing read, is lost. -/
def execPullTimeout (part page : Nat) (s : State) : Host.Outcome State Fault Refusal :=
  match s.part part, s.pullBegan page with
  | some p, some t =>
    if !s.pageAbsent part page || decide (s.gts < t + 10000000) then .next s
    else
      let dirty := match p.snapshot with
        | some n => decide (page ∈ n.dirty)
        | none => true
      let (fails, s) := s.drawBit
      if dirty || fails then .next (s.pageLost part page)
      else
        let data := (List.range 65536).map fun i => Config.nvmeByte s.free p.nsid.toNat (65536 * page + i)
        .next ({ s with free := s.free + 1 }.pageArrives part page data)
  | _, _ => .next s

/-! ## Groups, attestation, transport key (R349, R351, R352) -/

/-- SET_COLLECTIVE_GROUP, op 11. -/
def execSetCollectiveGroup (s : State) : Host.Outcome State Fault Refusal :=
  .next (s.command fun s => do
    let part ← s.target 40
    let n := leNat (s.block 64)
    let list := bits n 511 448
    let count := bits n 447 416
    let rank := bits n 415 384
    let members := (List.range (min count 6144)).map fun i => leNat (s.readPhys (list + 8 * i) 8)
    ensure (bits n 383 16 == 0 && bits n 7 0 == 0 && decide (count ≤ 6144) && (count == 0 ||
      (list % 8 == 0 && decide (rank < count) && members.getD rank 0 == Config.deviceNumber &&
        members.all fun m => m / 2 ^ 13 == 0))) hvBad
    match s.part part with
    | none => .error hvAbsent
    | some p =>
      let g := bits n 15 8
      let x : Group := { members := members, rank := rank, listAddr := BitVec.ofNat 64 list }
      .ok (s.setPart part
        { p with groups := if count == 0 then tdel p.groups g else tput p.groups g x }))

/-- The attestation report of a partition (R351, R352). -/
def State.report (s : State) (nonce : List Byte) (part : Nat) (p : Partition) : List Byte :=
  let body := nonce ++ toLE Config.firmwareMeasurement.toNat 64 ++
    toLE Config.hypervisorMeasurement.toNat 64 ++ toLE Config.calibrationMeasurement.toNat 64 ++
    p.measurement ++
    List.replicate (64 - p.measurement.length) 0 ++ toLE s.caps.toNat 4 ++ toLE part 1 ++
    List.replicate 27 0
  body ++ edSign (toLE Config.identityKey.toNat 32) body

/-- ATTEST, op 12. -/
def execAttest (s : State) : Host.Outcome State Fault Refusal :=
  .next (s.command fun s => do
    let part ← s.target 40
    let r := s.block 64
    let buf := leNat ((r.drop 32).take 8)
    ensure (((r.drop 40).all (· == 0)) && buf % 64 == 0) hvBad
    match s.part part with
    | none => .error hvAbsent
    | some p => .ok (s.writePhys buf (s.report (r.take 32) part p)))

/-- EXPORT_TRANSPORT_KEY, op 13. -/
def execExportTransportKey (s : State) : Host.Outcome State Fault Refusal :=
  .next (s.command fun s =>
    let pub := x25519 s.transportSecret x25519Base
    .ok (s.writePhys (s.mgmt.addr.toNat / 64 * 64)
      (pub ++ edSign (toLE Config.identityKey.toNat 32) pub ++ List.replicate 32 0)))

/-- HV_CMD_BAD_OP: ops 0, 14 and 15. -/
def execHvCmdBadOp (s : State) : Host.Outcome State Fault Refusal :=
  .next (s.command fun _ => .error hvBad)

end Sys2Proof.Machine
end

