-- ==== Sys2Proof/Machine/Link.lean ====
section
/-! DEFINITION. Link.lean: the register window, the host, the Triater link, the collective engine and
the starts (R96, R305, R315, R343 to R350). -/

namespace Sys2Proof.Machine

/-! ## Writes of window registers (R345) -/

/-- The base of a ring: bits [11:0] ignored. -/
def Ring.withBase (r : Ring) (w : DWord) : Ring := { r with base := BitVec.ofNat 64 (w.toNat / 4096 * 4096), srcs := [] }

def Ring.withLog2 (r : Ring) (w : DWord) : Ring := { r with log2 := bits w.toNat 3 0, srcs := [] }

/-- HV_CMD's commands (R315); what a peer of a migration says is free. -/
def State.hvCommand (s : State) (n : Nat) : Instr :=
  if n / 16 != 0 then .hvCmdBadOp
  else match n with
    | 1 => .createPartition
    | 2 => .destroyPartition
    | 3 => .setContext
    | 4 => .freeContext
    | 5 => .loadKey
    | 6 => .revokeKey
    | 7 => .snapshot
    | 8 => .setTokens
    | 9 => .migrateOut (Config.freeBit s.free)
    | 10 => .migrateIn (Config.freeBit s.free)
    | 11 => .setCollectiveGroup
    | 12 => .attest
    | 13 => .exportTransportKey
    | _ => .hvCmdBadOp

/-- The steps that a write of a management register starts (R315, R316). -/
def State.managementEvents (s : State) (offset : Nat) (w : DWord) : List Instr :=
  let n := w.toNat
  match offset with
  | 0x10 => [s.hvCommand n]
  | 0x58 => [.hvFaultQueueAnswer w]
  | 0x60 =>
    if bits n 5 2 != 0 then []
    else match bits n 1 0 with
      | 0 => [.hvTlbInvalPage (bits n 15 6) (BitVec.ofNat 64 (n / 65536 * 65536))]
      | 1 => [.hvTlbInvalContext (bits n 15 6)]
      | 2 => [.hvTlbInvalPartition (bits n 15 6)]
      | _ => [.hvTlbInvalPart]
  | _ => []

/-- A management register that holds what is written (R315). -/
def State.storeManagement (s : State) (offset : Nat) (w : DWord) : State :=
  let m := s.mgmt
  match offset with
  | 0x00 => { s with mgmt := { m with arg := w } }
  | 0x08 => { s with mgmt := { m with addr := w } }
  | 0x20 =>
    if w.toNat ≤ 3000 then { s with mgmt := { m with pkgTokens := w.toNat } } else s
  | 0x40 => { s with mgmt := { m with faultQ := m.faultQ.withBase w } }
  | 0x48 => { s with mgmt := { m with faultQ := m.faultQ.withLog2 w } }
  | _ => s

/-- PREEMPT_REQ (R305, R310). -/
def State.preemptEvents (s : State) (part n : Nat) : List Instr :=
  let ctx := bits n 9 0
  if n / 2 ^ 12 != 0 || s.partOf ctx != part then []
  else match bits n 11 10 with
    | 1 => [.softRequest ctx]
    | 2 => [.hardHalt ctx]
    | 3 => [.contextReset ctx]
    | _ => []

/-- DEBUG_CTL (R305, R313). -/
def State.debugEvents (s : State) (part n : Nat) : List Instr :=
  let ctx := bits n 9 0
  if n / 2 ^ 13 != 0 || s.partOf ctx != part then []
  else [.debugStep ctx (nbit n 10), .debugBreak ctx (nbit n 11)] ++
    (if nbit n 12 then [.debugContinue ctx] else [])

/-- The steps that a write of a register of a partition's control block starts (R96, R111, R188 to R190,
R305, R308, R319, R337). -/
def State.controlEvents (s : State) (part offset : Nat) (w : DWord) : List Instr :=
  let n := w.toNat
  match offset with
  | 0x008 =>
    if n / 2 ^ 13 != 0 then []
    else match bits n 12 10 with
      | 1 => [.queueEnable part (bits n 9 0)]
      | 2 => [.queueDisable part (bits n 9 0)]
      | 3 => [.queueClearRefusal part (bits n 9 0)]
      | _ => [.queueCtlBadOp part (bits n 9 0)]
  | 0x038 => [.faultQueueAnswer part w]
  | 0x040 =>
    if bits n 5 2 != 0 then []
    else match bits n 1 0 with
      | 0 => [.tlbInvalPage part (bits n 15 6) (BitVec.ofNat 64 (n / 65536 * 65536))]
      | 1 => [.tlbInvalContext part (bits n 15 6)]
      | 2 => [.tlbInvalPartition part]
      | _ => []
  | 0x0A0 => [.syscAnswer part w]
  | 0x0C8 => s.preemptEvents part n
  | 0x0D0 => [.preemptTimeWrite part w]
  | 0x0E0 => s.debugEvents part n
  | 0x0E8 => [.rollbackReq part w]
  | 0x180 => [.ctxS1RootWrite part w]
  | 0x188 => [.ctxCeilWrite part w]
  | 0x1C0 => [.resplitTimeWrite part w]
  | _ => []

/-- A register of a partition's control block that holds what is written (R96, R189, R290, R305). -/
def Partition.store (p : Partition) (offset : Nat) (w : DWord) : Partition :=
  let n := w.toNat
  match offset with
  | 0x000 => { p with queueTable := w }
  | 0x020 => { p with faultQ := p.faultQ.withBase w }
  | 0x028 => { p with faultQ := p.faultQ.withLog2 w }
  | 0x060 => { p with deadlockQ := p.deadlockQ.withBase w }
  | 0x068 => { p with deadlockQ := p.deadlockQ.withLog2 w, ovfTrap := nbit n 4 }
  | 0x078 => { p with purlinSel := bits n 9 0 }
  | 0x088 => { p with callQ := p.callQ.withBase w }
  | 0x090 => { p with callQ := p.callQ.withLog2 w }
  | 0x0A8 => { p with eventQ := p.eventQ.withBase w }
  | 0x0B0 => { p with eventQ := p.eventQ.withLog2 w }
  | 0x0C0 => { p with eventQ := { p.eventQ with head := min n p.eventQ.tail } }
  | _ => p

/-- The context for which a party without one rings COLL_DOORBELL: the partition's lowest. -/
def State.bellCtx (s : State) (part : Nat) : Nat := (s.lowestCtx part).getD 0

/-- REGISTER_WRITE: a register with a behaviour of its own starts it next; another stores its value; a
write of any other offset is dropped. -/
def execRegisterWrite (page : WindowPage) (offset : Nat) (w : DWord) (s : State) :
    Host.Outcome State Fault Refusal :=
  match page with
  | .management =>
    let s' := { s with free := s.free + 1 }.storeManagement offset w
    .next { s' with inputs := s.managementEvents offset w ++ s'.inputs }
  | .control part =>
    match s.part part with
    | none => .next s
    | some p =>
      let s' := s.setPart part (p.store offset w)
      .next { s' with inputs := s.controlEvents part offset w ++ s'.inputs }
  | .user part =>
    if offset == 0 && (s.part part).isSome then
      .next { s with inputs := .collDoorbell part (s.bellCtx part) w :: s.inputs }
    else .next s

/-! ## Reads of window registers -/

/-- Fused-core bits of HARVEST_MAP_n (R105). -/
def State.harvestMap (s : State) (n : Nat) : Nat :=
  (List.range 64).foldl (fun m j =>
    let i := 64 * (n % 4) + j
    let c := 52 * (n / 4) + i / 4
    m + (if i < 208 ∧ ((!s.enabledCluster c) ∨ (s.cluster c).fused.any fun f => f.val == i % 4) then 2 ^ j
      else 0)) 0

/-- What PREEMPT_STAT reads for a rung (R305). -/
def Rung.code : Rung → Nat
  | .running => 0
  | .soft => 1
  | .halting => 2
  | .saved => 3
  | .reset => 4

/-- The context that PURLIN_SEL selects, when it is the partition's. -/
def State.selected (s : State) (part : Nat) (p : Partition) : Option Context :=
  (s.ctx p.purlinSel).filter fun x => x.part == part

/-- A register of a partition's control block as its control cores read it; write-only and unassigned
offsets read as ones (R96, R111, R189, R290, R305, R319, R337). -/
def State.controlRead (s : State) (part offset : Nat) (p : Partition) : Nat :=
  let sel (f : Context → Nat) : Nat := match s.selected part p with
    | some x => f x
    | none => 0
  if decide (0x100 ≤ offset) && decide (offset < 0x180) && offset % 8 == 0 then
    s.harvestMap ((offset - 0x100) / 8)
  else match offset with
    | 0x000 => p.queueTable.toNat
    | 0x010 => 256 - (s.launches.filter fun l => l.2.part == part).length
    | 0x020 => p.faultQ.base.toNat
    | 0x028 => p.faultQ.log2
    | 0x030 => p.faultQ.tail
    | 0x038 => p.faultQ.head
    | 0x060 => p.deadlockQ.base.toNat
    | 0x068 => p.deadlockQ.log2 + 16 * b2n p.ovfTrap
    | 0x070 => p.deadlockQ.tail
    | 0x080 => sel fun x => x.purlinLost % 2 ^ 32 * 2 ^ 32 + x.purlinOverflow % 2 ^ 32
    | 0x088 => p.callQ.base.toNat
    | 0x090 => p.callQ.log2
    | 0x098 => p.callQ.tail
    | 0x0A0 => p.callQ.head
    | 0x0A8 => p.eventQ.base.toNat
    | 0x0B0 => p.eventQ.log2 + p.lost % 2 ^ 32 * 2 ^ 32
    | 0x0B8 => p.eventQ.tail
    | 0x0C0 => p.eventQ.head
    | 0x0D0 => p.grace + p.kill * 2 ^ 32
    | 0x0D8 => sel fun x => x.rung.code
    | 0x0F0 => sel fun x => x.repairs % 2 ^ 32 + x.rollbacks % 2 ^ 32 * 2 ^ 32
    | 0x190 => sel fun x => x.joule
    | 0x198 => sel fun x => x.quota.toNat
    | 0x1A0 => p.unspent % 2 ^ 32 + p.drawn % 2 ^ 32 * 2 ^ 32
    | 0x1C0 => p.resplitTime
    | _ => 2 ^ 64 - 1

/-- A register of the management block as the management cores read it (R315). -/
def State.managementRead (s : State) (offset : Nat) : Nat :=
  let m := s.mgmt
  match offset with
  | 0x00 => m.arg.toNat
  | 0x08 => m.addr.toNat
  | 0x18 => m.code.toNat + 256 * b2n m.busy
  | 0x20 => m.pkgTokens
  | 0x28 => b2n m.calOk
  | 0x30 => m.joule
  | 0x38 => m.migState.toNat + 256 * m.migReason.toNat + 65536 * (m.migCtx % 1024)
  | 0x40 => m.faultQ.base.toNat
  | 0x48 => m.faultQ.log2
  | 0x50 => m.faultQ.tail
  | 0x58 => m.faultQ.head
  | _ => 2 ^ 64 - 1

/-- A register of a page, as a party that the table names reads it (R345). -/
def State.registerRead (s : State) (page : WindowPage) (offset : Nat) : DWord :=
  BitVec.ofNat 64 (match page with
    | .management => s.managementRead offset
    | .control part => match s.part part with
      | some p => s.controlRead part offset p
      | none => 2 ^ 64 - 1
    | .user part => match s.part part with
      | some p => if offset == 8 then p.collStat.toNat else 2 ^ 64 - 1
      | none => 2 ^ 64 - 1)

/-! ## The host and other devices (R343, R344, R346) -/

/-- Bytes that register at home from outside: memory and watches. Those of an uncorrectable line are
dropped. -/
def State.outsideWrite (s : State) (a : Nat) (bs : List Byte) : State :=
  if s.isPoisoned a bs.length then s
  else
    (List.range (ceilDiv (a % 128 + bs.length) 128)).foldl (fun s i => s.fireWatches (a / 128 + i))
      (s.writePhys a bs)

/-- What a host write to the register window starts: user pages and doorbells of partitions that
exist (R345). -/
def State.hostWindow (s : State) (o : Nat) (data : List Byte) : List Instr :=
  if data.length != 8 || o % 8 != 0 then []
  else
    s.parts.flatMap fun p => windowEvent p.1 (s.bellCtx p.1) o true (BitVec.ofNat 64 (leNat data))

/-- What a read of the register window returns to the host: the registers of user pages, ones elsewhere
and at any other width (R345). -/
def State.hostRead (s : State) (o n : Nat) : List Byte :=
  let user := o - 0x08000000
  if n = 8 ∧ o % 8 = 0 ∧ 0x08000000 ≤ o ∧ user < 40 * 0x10000 then
    toLE (s.registerRead (.user (user / 0x10000)) (user % 0x10000)).toNat 8
  else List.replicate n 0xFF

/-- A read from outside returns bytes, and changes nothing else. -/
def State.answered (s : State) (bs : List Byte) : State := { s with answer := bs }

/-- HOST_ACCESS: an access of a thread of no course (R343); a read returns registered bytes. An address
that does not exist faults. -/
def execHostAccess (addr bytes : Nat) (write : Option (List Byte)) (s : State) :
    Host.Outcome State Fault Refusal :=
  match s.physClass addr with
  | .absent => .fault .noSuchAddress
  | .link _ => .next s
  | .window =>
    match write with
    | some d => .next { s with inputs := s.hostWindow (addr - 2 ^ 50) d ++ s.inputs }
    | none => .next (s.answered (s.hostRead (addr - 2 ^ 50) bytes))
  | .hbm =>
    match write with
    | some d => .next (s.outsideWrite addr (d.take bytes))
    | none => .next (s.answered (s.readPhys addr bytes))
  | .host =>
    match write with
    | some d => .next (s.outsideWrite addr (d.take bytes))
    | none => .next (s.answered (s.readPhys addr bytes))

/-- An atomic that another device asks for, at home; the old value returns. -/
def State.outsideAtomic (s : State) (ty : AtomTy) (kind : AtomKind) (a : Nat) : State :=
  let n := AtomTy.width ty / 8
  (s.outsideWrite a (toLE (kind.apply ty (leNat (s.readPhys a n))).1 n)).answered (s.readPhys a n)

/-- LINK_REMOTE_ACCESS: another device's access at this device's home L2 (R346). -/
def execLinkRemoteAccess (device addr : Nat) (req : LinkRequest) (s : State) :
    Host.Outcome State Fault Refusal :=
  if device ≥ 6144 || !s.linkUp then .next s
  else
    match s.physClass addr with
    | .hbm =>
      match req with
      | .read n => .next (s.answered (s.readPhys addr n))
      | .write d => .next (s.outsideWrite addr d)
      | .atom ty fn b => .next (s.outsideAtomic ty (.op fn b) addr)
      | .cas ty e n => .next (s.outsideAtomic ty (.cas e n) addr)
    | _ => .fault .noSuchAddress

/-- A port of the link. -/
def State.port (s : State) (n : Nat) : Option Port := s.ports.toList[n]?

def State.setPort (s : State) (n : Nat) (p : Port) : State :=
  if h : n < 18 then { s with ports := s.ports.set n p } else s

/-- Pause bits that a returning flit carries: a paused channel starts no new flit from the 8th flit time
on (R346). A flit time passes for the channels that count down. -/
def Port.returned (p : Port) (pause : BitVec 4) : Port :=
  { p with
    retries := 0,
    paused := Vector.ofFn fun (i : Fin 4) =>
      if pause.getLsbD i.val then
        match p.paused[i] with
        | some k => some (k - 1)
        | none => some 8
      else none }

/-- TRIATER_FLIT_RECEIVED: pause bits, or one more failed try. The seventeenth, which is the sixteenth
failed retry in a row, takes the port out of service. -/
def execTriaterFlitReceived (port : Nat) (ok : Bool) (pause : BitVec 4) (s : State) :
    Host.Outcome State Fault Refusal :=
  match s.port port with
  | none => .next s
  | some p =>
    if !p.inService then .next s
    else if ok then .next (s.setPort port (p.returned pause))
    else
      let s := s.setPort port { p with retries := p.retries + 1 }
      if p.retries < 16 then .next s
      else .next { s with inputs := .triaterPortOutOfService port :: s.inputs }

/-- TRIATER_PORT_OUT_OF_SERVICE: after 16 failed retries in a row. Every collective forms again (R348). -/
def execTriaterPortOutOfService (port : Nat) (s : State) : Host.Outcome State Fault Refusal :=
  match s.port port with
  | some p =>
    if p.inService && decide (16 < p.retries) then
      let s := s.setPort port { p with inService := false }
      .next { s with inputs := (s.collectives.map fun c => .collectiveReform c.1) ++ s.inputs }
    else .next s
  | none => .next s

/-! ## The collective engine (R347 to R349) -/

/-- Bytes of an element: FP32, BF16, n64. -/
def collBytes (type : Nat) : Nat := if type == 0 then 4 else if type == 1 then 2 else 8

/-- The number of an element in units of 2^-149. -/
def collUnits : FloatVal → Int
  | .fin neg m e =>
    let v : Int := m * 2 ^ (e + 149).toNat
    if neg then -v else v
  | _ => 0

/-- The sum of one element over the members, exact and rounded once (R347). -/
def collSum (type : Nat) (xs : List Nat) : Nat :=
  if type == 2 then sumNat xs % 2 ^ 64
  else
    let f : Fmt := if type == 0 then .f32 else .bf16
    let ns := xs.map f.read
    let pos := ns.any fun n => n == .inf false
    let neg := ns.any fun n => n == .inf true
    if (ns.any FloatVal.isNan) || (pos && neg) then f.nan
    else if pos || neg then f.infCode neg
    else
      let v := sumNat' ns
      if v == 0 then 0 else f.rne (.fin (decide (v < 0)) v.natAbs (-149))
where
  sumNat' (ns : List FloatVal) : Int := ns.foldl (fun a n => a + collUnits n) 0

/-- Elements of a contribution. -/
def collElems (type count : Nat) (bs : List Byte) : List Nat :=
  (List.range count).map fun i => leNat ((bs.drop (collBytes type * i)).take (collBytes type))

/-- What a member receives: the sum, its part of the sum, every contribution, or that of rank 0. -/
def collResult (op type count rank : Nat) (all : List (List Byte)) : List Byte :=
  let sums := (List.range count).map fun i =>
    collSum type (all.map fun b => (collElems type count b).getD i 0)
  let enc (l : List Nat) : List Byte := l.flatMap fun v => toLE v (collBytes type)
  match op with
  | 0 => enc sums
  | 1 =>
    let k := ceilDiv count all.length
    enc ((sums.drop (k * rank)).take k)
  | 2 => all.flatten
  | _ => all.headD []

/-- Read a virtual range of a context at home. -/
def State.ctxReadAll (s : State) (ctx va n : Nat) : Option (List Byte) :=
  (cutPages va (List.replicate n 0)).foldl (fun acc p => acc.bind fun bs =>
    if p.2.isEmpty then some bs else (s.ctxRead ctx p.1 p.2.length).map (bs ++ ·)) (some [])

/-- Write a virtual range of a context at home. -/
def State.ctxWriteAll (s : State) (ctx va : Nat) (bs : List Byte) : State :=
  (cutPages va bs).foldl (fun s p => if p.2.isEmpty then s else s.ctxWrite ctx p.1 p.2) s

/-- A collective fails: COLL_STAT takes the code, and the context receives event 0x01 of class 0
(R348). -/
def State.collFails (s : State) (part ctx : Nat) (code : BitVec 8) : State :=
  (s.modPart part fun p => { p with collStat := code }).pushEvent part
    { src := collectiveSrc, gts := s.gts, ctx := ctx, type := 0x01 }

/-- Layout of a collective descriptor (R347). -/
def collOk (n : Nat) : Bool :=
  bits n 223 16 == 0 && bits n 7 4 ≤ 2 && bits n 3 0 ≤ 3 && decide (1 ≤ bits n 255 224) &&
    decide (bits n 255 224 ≤ 2 ^ 30) && bits n 511 448 % 16 == 0

/-- Start a collective: its group and its contribution are taken now (R281, R349). -/
def State.startCollective (s : State) (part ctx n : Nat) : State :=
  match (s.part part).bind fun p => tget p.groups (bits n 15 8) with
  | none => s.collFails part ctx 1
  | some g =>
    let count := bits n 255 224
    match s.ctxReadAll ctx (bits n 319 256) (count * collBytes (bits n 7 4)) with
    | none => s.collFails part ctx 1
    | some mine =>
      if (g.members.any fun m => decide (m ≥ 6144)) || (!s.linkUp && decide (g.members.length > 1)) then
        s.collFails part ctx 2
      else
        let (id, s) := s.fresh
        let c : Collective :=
          { id := id, part := part, ctx := ctx, desc := BitVec.ofNat 512 n, members := g.members,
            rank := g.rank, mine := mine, acked := 0 }
        { s with collectives := tput s.collectives id c }

/-- COLL_DOORBELL: the engine takes the descriptor that the write names (R347). -/
def execCollDoorbell (part ctx : Nat) (w : DWord) (s : State) : Host.Outcome State Fault Refusal :=
  if (s.part part).isNone || w.toNat % 64 != 0 then .next s
  else
    match s.ctxReadAll ctx w.toNat 64 with
    | none => .next (s.collFails part ctx 1)
    | some bs =>
      if collOk (leNat bs) then .next (s.startCollective part ctx (leNat bs))
      else .next (s.collFails part ctx 1)

/-- COLLECTIVE_REFORM: the ring or tree forms again over the ports in service and goes on from the chunk
after the last that every member has acknowledged; with no route left the operation fails (R348). -/
def execCollectiveReform (op : Nat) (s : State) : Host.Outcome State Fault Refusal :=
  match tget s.collectives op with
  | none => .next s
  | some c =>
    if s.linkUp || decide (c.members.length ≤ 1) then
      let (k, s) := s.drawBelow (ceilDiv c.mine.length 65536 + 1 - c.acked)
      .next { s with collectives := tput s.collectives op { c with acked := c.acked + k } }
    else .next ({ s with collectives := tdel s.collectives op }.collFails c.part c.ctx 2)

/-- Every member's contribution in rank order. -/
def Collective.all (c : Collective) (others : List (List Byte)) : List (List Byte) :=
  others.take c.rank ++ [c.mine] ++ others.drop c.rank

/-- COLLECTIVE_COMPLETE: results at home, then the timestamp and the signal word. `others` are the other
members' contributions in rank order; when they do not answer the group's list, its members' lists
disagree (R281, R347, R349). With no port left there is no route (R348); while the collective channel is
paused the operation goes on. -/
def execCollectiveComplete (op : Nat) (others : List (List Byte)) (s : State) :
    Host.Outcome State Fault Refusal :=
  match tget s.collectives op with
  | none => .next s
  | some c =>
    if s.linkHeld 2 && decide (c.members.length > 1) then .next s
    else
    let s := { s with collectives := tdel s.collectives op }
    if !s.linkUp && decide (c.members.length > 1) then .next (s.collFails c.part c.ctx 2)
    else if others.length + 1 != c.members.length ||
        others.any (fun b => b.length != c.mine.length) then
      .next (s.collFails c.part c.ctx 2)
    else
      let n := c.desc.toNat
      let r := collResult (bits n 3 0) (bits n 7 4) (bits n 255 224) c.rank (c.all others)
      let s := if bits n 3 0 == 3 && c.rank != 0 then s
        else s.chargeCtx c.ctx (s.coefficient 10 * ceilDiv c.mine.length 65536)
      let s := s.ctxWriteAll c.ctx (bits n 383 320) r
      let s := s.ctxWrite c.ctx (bits n 511 448 + 8) (toLE s.gts 8)
      let s := s.ctxWrite c.ctx (bits n 511 448) (toLE (bits n 447 384) 8)
      .next (s.modPart c.part fun p => { p with collStat := 0 })

/-! ## Starts (R350) -/

/-- Step 1 of a start: no partition and no context, registers at reset, the link down. Fuses, harvest
maps, in-field results, the count of `%gts`, memory and the key store stay. -/
def State.powerUp (s : State) (warm : Bool) : State :=
  let keep (c : Cluster) : Cluster :=
    { Cluster.reset with inService := c.inService, fused := c.fused }
  { State.reset with
    caps := s.caps, cycle := s.cycle, free := s.free, nextId := s.nextId, tools := s.tools,
    inputs := s.inputs, settled := s.settled, warm := warm, spares := s.spares,
    clusters := s.clusters.map fun (p : Nat × Cluster) => (p.1, keep p.2),
    mem := s.mem, units := s.units, poisoned := s.poisoned, keys := s.keys, transports := s.transports,
    ports := Vector.replicate 18 { Port.reset with inService := false } }

/-- Steps 3 to 5 of a cold start: the part's own memory is trained and holds nothing, and a new transport
key pair is generated in an empty key store. -/
def State.trainMemory (s : State) : State :=
  { s with
    mem := s.mem.filter fun c => decide (gib768 ≤ c.1),
    units := s.units.filter fun u => decide (gib768 ≤ 64 * u.1),
    poisoned := s.poisoned.filter fun l => decide (gib768 ≤ 128 * l),
    keys := [], transports := s.transports + 1 }

/-- A start, step by step: a signature that fails at step 2 or 8 stops it there and is reported (R350). -/
def State.start (s : State) (warm : Bool) : State :=
  let s := s.powerUp warm
  if !Config.firmwareValid then { s with startFailed := some 2 }
  else
    let s := if warm then s else s.trainMemory
    let s := { s with mgmt := { s.mgmt with calOk := Config.calibrationValid },
                      ports := Vector.replicate 18 Port.reset }
    if !Config.hypervisorValid then { s with startFailed := some 8 } else { s with started := true }

/-- COLD_START. -/
def execColdStart (s : State) : Host.Outcome State Fault Refusal := .next (s.start false)

/-- WARM_START. -/
def execWarmStart (s : State) : Host.Outcome State Fault Refusal := .next (s.start true)

end Sys2Proof.Machine
end

