-- ==== Sys2Proof/Machine/Predicate.lean ====
section
/-! DEFINITION. Predicate.lean: the meanings of group 0x2 (R74 to R77). -/

namespace Sys2Proof.Machine

/-- A condition on integers (R55); `.ord` and `.uno` are illegal here (R74). -/
def condInt (c : Cond) (x y : Int) : Bool :=
  match c with
  | .eq => x == y
  | .ne => x != y
  | .lt => decide (x < y)
  | .le => decide (x ≤ y)
  | .gt => decide (y < x)
  | .ge => decide (y ≤ x)
  | .ord => true
  | .uno => false

/-- ICMP (R74). -/
def execIcmp (x : IcmpOp) (s : State) : Host.Outcome State Fault Refusal :=
  .next (s.runLocal x.ctl fun t => do
    t.need x.ty.wide x.a 0
    t.needSrc x.ty.wide x.b 0
    .ok (t.setPred x.pd (condInt x.cond (t.srcOpd x.ty x.a) (t.src x.ty x.b))).advance)

/-- SEL (R75): the chosen source's tags are copied; an immediate has tag 0x00. -/
def execSel (x : SelOp) (s : State) : Host.Outcome State Fault Refusal :=
  .next (s.runLocal x.ctl fun t =>
    let copy (o : Opd) : Thread :=
      if x.ty.wide then
        (t.setReg x.d (t.reg o)).setReg (Opd.plus x.d 1) (t.reg (Opd.plus o 1))
      else t.setReg x.d (t.reg o)
    .ok (match t.predAt x.pc, x.b with
      | true, _ => copy x.a
      | false, .reg o => copy o
      | false, .imm i => t.put x.ty x.d (immValue x.ty i : Nat)).advance)

/-- PLOP (R76). -/
def execPlop (x : PlopOp) (s : State) : Host.Outcome State Fault Refusal :=
  .next (s.runLocal x.ctl fun t =>
    let i := 4 * b2n (t.predAt x.pa) + 2 * b2n (t.predAt x.pc) + b2n (t.predAt x.pz)
    .ok (t.setPred x.pd (x.table.getLsbD i)).advance)

/-- The predicates that a mask names take the bits of a value (R77). -/
def Thread.maskPreds (t : Thread) (mask vals : BitVec 7) : Thread :=
  { t with preds := (t.preds &&& ~~~mask) ||| (vals &&& mask) }

/-- PMOV (R77). -/
def execPmov (x : PmovOp) (s : State) : Host.Outcome State Fault Refusal :=
  .next (s.runLocal x.ctl fun t =>
    match x.dir with
    | .toReg d => .ok (t.setReg d ⟨0x80 ||| t.preds.setWidth 32, 0⟩).advance
    | .fromReg a mask => .ok (t.maskPreds mask ((t.reg a).bits.setWidth 7)).advance)

/-- PSET (R77). -/
def execPset (x : PsetOp) (s : State) : Host.Outcome State Fault Refusal :=
  .next (s.runLocal x.ctl fun t => .ok (t.maskPreds x.mask x.vals).advance)

end Sys2Proof.Machine
end

