-- ==== Sys2Proof/Machine/Row.lean ====
section
/-! DEFINITION. Row.lean: the row unit (R174 to R180). -/

namespace Sys2Proof.Machine

/-! ## Row words (R174) -/

/-- A row word's fields. -/
structure RowWord where
  len : Nat
  rows : Nat
  first : Nat

/-- Decode a row word for a tile of `tileRows` rows; one row only for SMAX and ROWSUM. -/
def rowWord (w : Nat) (tileRows : Nat) (single : Bool) : Option RowWord :=
  let r : RowWord := ⟨bits w 22 16 + 1, bits w 14 8 + 1, bits w 6 0⟩
  if bits w 31 23 != 0 || nbit w 15 || nbit w 7 || decide (r.first + r.rows > tileRows) ||
      (single && r.rows != 1) then none
  else some r

/-- FP32 elements of a row of a tile. -/
def Tile.row (t : Tile) (r len : Nat) : List Nat :=
  (List.range len).map fun i => leNat (memReadN t.data (512 * r + 4 * i) 4)

/-- Write the words of columns 0 upward of a row. -/
def Tile.setRow (t : Tile) (r : Nat) (ws : List Nat) : Tile :=
  { t with data := memWriteN t.data (512 * r) (ws.flatMap fun w => toLE w 4) }

/-- Write one column of a row. -/
def Tile.setCol (t : Tile) (r c w : Nat) : Tile :=
  { t with data := memWriteN t.data (512 * r + 4 * c) (toLE w 4) }

/-! ## Row order (R176) -/

/-- One level of the tree: neighbours added, a lone child passed up. -/
def treeLevel (v : FEnv) : List Nat → List Nat × FEnv
  | a :: b :: r =>
    let (s, v) := v.addC .f32 a b
    let (l, v) := treeLevel v r
    (s :: l, v)
  | l => (l, v)

/-- The root of a block's tree: five levels of 32 leaves. -/
def treeRoot (v : FEnv) (xs : List Nat) : Nat → List Nat × FEnv
  | 0 => (xs, v)
  | n + 1 =>
    let (l, v) := treeLevel v xs
    treeRoot v l n

/-- A value read and written, with no operation between. -/
def FEnv.pass (v : FEnv) (f : Fmt) (c : Nat) : Nat × FEnv :=
  let (x, v) := v.get f c
  v.out f x

/-- Sum of a row in row order: the blocks' roots added in index order. A lone element is read and written
(R145, R146). -/
def rowSum (v : FEnv) (xs : List Nat) : Nat × FEnv :=
  let rec go : Nat → FEnv → List Nat → Option Nat → Nat × FEnv
    | 0, v, _, acc => (acc.getD 0, v)
    | n + 1, v, xs, acc =>
      if xs.isEmpty then (acc.getD 0, v)
      else
        let (r, v) := treeRoot v (xs.take 32) 5
        let s := r.headD 0
        match acc with
        | none => go n v (xs.drop 32) (some s)
        | some a =>
          let (a, v) := v.addC .f32 a s
          go n v (xs.drop 32) (some a)
  match xs with
  | [x] => v.pass .f32 x
  | _ => go 4 v xs none

/-- Map a list through an environment. -/
def mapEnv {α β : Type} (v : FEnv) (f : FEnv → α → β × FEnv) : List α → List β × FEnv
  | [] => ([], v)
  | x :: r =>
    let (y, v) := f v x
    let (ys, v) := mapEnv v f r
    (y :: ys, v)

/-! ## Statistics (R177, R178) -/

/-- log₂ e rounded to FP32. -/
def rowL : Nat := 0x3FB8AA3B

/-- e_i of R177. -/
def rowExp (compat : Bool) (mx : Nat) (v : FEnv) (x : Nat) : Nat × FEnv :=
  let (a, v) := v.subC .f32 x mx
  let (b, v) := v.mulC .f32 a rowL
  v.special .exp2 compat b

/-- The FMAX of a row in index order. -/
def rowMax (v : FEnv) : List Nat → Nat × FEnv
  | [] => (0, v)
  | x :: r => r.foldl (fun acc y => acc.2.minMaxC .f32 true acc.1 y) (v.minMaxC .f32 true x x)

/-- 1/√x, correctly rounded, with the special results of FRSQ (R178). -/
def FEnv.recipSqrt (v : FEnv) (c : Nat) : Nat × FEnv :=
  let (x, v) := v.get .f32 c
  match x with
  | .nan _ => v.out .f32 x
  | .inf n => if n then (v.raise fNv).out .f32 (.nan false) else v.out .f32 .zero
  | .fin n m e =>
    if m == 0 then (v.raise fDz).out .f32 (.inf false)
    else if n then (v.raise fNv).out .f32 (.nan false)
    else
      let m := if e % 2 == 0 then m else 2 * m
      let e := if e % 2 == 0 then e else e - 1
      let r := isqrt (2 ^ 240 / m)
      v.out .f32 (.fin false r (-120 - e / 2)) (r * r * m != 2 ^ 240)

/-- One row of RMSN. -/
def rmsRow (eps : Nat) (v : FEnv) (xs : List Nat) : List Nat × FEnv :=
  let (qs, v) := mapEnv v (fun v x => v.mulC .f32 x x) xs
  let (sum, v) := rowSum v qs
  let (x, v) := v.get .f32 sum
  let d := x.div (.fin false xs.length 0)
  let (ms, v) := (v.raise d.flags).out .f32 d.x d.more
  let (tot, v) := v.addC .f32 ms eps
  let (k, v) := v.recipSqrt tot
  mapEnv v (fun v x => v.mulC .f32 x k) xs

/-! ## Rescaling and quantising (R179, R180) -/

/-- One element of ROWSCALE: `rne` is the environment's mode for the steps of e_i, `rm` that of the
result. -/
def scaleElem (exp compat : Bool) (fmt : Fmt) (rm : Rnd) (al be : Nat) (v : FEnv) (x : Nat) :
    Nat × FEnv :=
  if exp then
    let (e, v) := rowExp compat be { v with mode := .rne } x
    let (a, v) := v.get .f32 al
    let (b, v) := v.get .f32 e
    let (r, fl) := a.mul b
    { v.raise fl with mode := rm }.out fmt r
  else
    let v := { v with mode := rm }
    let (a, v) := v.get .f32 x
    let (b, v) := v.get .f32 al
    let (c, v) := v.get .f32 be
    let (r, fl) := a.fma b c rm
    (v.raise fl).out fmt r

/-- Words of a row from its elements: `per` elements of `w` bits in each word, zero above the last. -/
def packRow (w per : Nat) : Nat → List Nat → List Nat
  | 0, _ => []
  | n + 1, es =>
    if es.isEmpty then []
    else ((es.take per).zipIdx.foldl (fun acc p => acc + p.1 * 2 ^ (w * p.2)) 0) ::
      packRow w per n (es.drop per)

/-- The scale of a block (R153): E is the exponent of the element format's top binade. -/
def blockScale (f : Fmt) (xs : List FloatVal) : Nat :=
  let tops := xs.filterMap fun x => match x with
    | .fin _ m e => if m == 0 then none else some (topExp m e)
    | _ => none
  match tops with
  | [] => 127
  | t :: r =>
    let top := r.foldl max t
    (max 0 (min 254 (top - ((f.bias : Int) - 1) + 127))).toNat

/-- Quantise one block: its scale and codes. -/
def quantBlock (f : Fmt) (v : FEnv) (xs : List Nat) : (Nat × List Nat) × FEnv :=
  let (ys, v) := mapEnv v (fun v x => v.get .f32 x) xs
  let s := blockScale f ys
  let (cs, v) := mapEnv v (fun v y => v.out f (y.scale (127 - (s : Int)))) ys
  ((s, cs), v)

/-- Blocks of 32 elements. -/
def blocksOf {α : Type} : Nat → List α → List (List α)
  | 0, _ => []
  | n + 1, xs => if xs.isEmpty then [] else xs.take 32 :: blocksOf n (xs.drop 32)

/-! ## Operations (R175) -/

/-- The row unit's operations on a core, oldest first. -/
def State.rowOps (s : State) (core : Nat) : Table Nat Op :=
  sortBy (fun a b => decide (a.1 < b.1)) (s.ops.filter fun p =>
    (match p.2.kind with | .row _ _ _ => true | _ => false) && s.coreOf p.2.th == core)

/-- The unit has no room for the gang, or a tile counter is full. -/
def rowHeld (c : Ctl) : State → ThreadId → Thread → Bool := fun s id t =>
  countFull .tile s id t ||
    decide ((s.rowOps (s.coreOf id)).length + (s.active c).length > 32)
where
  countFull (k : CountClass) : State → ThreadId → Thread → Bool := fun _ _ t => decide (t.count k ≥ 63)

/-- The cycles from an operation's start within which its write cycle comes (R175). -/
def rowBound (vals : List VReg) : Nat :=
  match rowWord (vals.headD ⟨0, 0⟩).bits.toNat 128 false with
  | some r => 12 + r.rows * ceilDiv r.len 32 * 2
  | none => 12

/-- n steps of the generator. -/
def stepGens (g : Word) : Nat → Word
  | 0 => g
  | n + 1 => stepGens (stepGen g) n

/-- Accept an operation at issue: the tile counter rises and the draws are taken (R151, R175). Its write
cycle comes at any time until its bound, which counts from here unless an earlier operation ends later. -/
def State.acceptRow (s : State) (id : ThreadId) (t : Thread) (i : Instr) (d : Opd) (vals : List VReg)
    (draws : Nat) : State :=
  let t' := { t.countUp .tile with gen := stepGens t.gen draws }
  (s.addOp { th := id, pc := t.pc, field := d.enc, issued := s.cycle, due := s.cycle + rowBound vals,
             stop := none, fctl := t.fctl, armed := t.armed, kind := .row i vals t.gen }).setThread id t'.advance

/-- A source tile must carry FP32's tag (R174). -/
def State.needTile (s : State) (id : ThreadId) (o : Opd) : Except Trap Unit :=
  match o with
  | .t n => if (s.readTile id n).tag == 0x20 then .ok () else .error (.tag o)
  | o => .error (.tag o)

/-- The checks of a row instruction: tags, then the row word (R174). -/
def State.rowCheck (s : State) (id : ThreadId) (t : Thread) (d a b : Opd) (more : List Opd)
    (single : Bool) : Except Trap RowWord := do
  s.needTile id a
  t.need false b 0
  t.needAll 0x20 (more.headD b) more
  let rows := match s.kdesc id.launch with
    | some k => k.tileRows
    | none => 0
  match rowWord (t.reg b).bits.toNat rows single with
  | some r => .ok r
  | none => .error (.illegal d.enc)

/-- RMSN (R178). -/
def execRmsn (x : RowOp) (s : State) : Host.Outcome State Fault Refusal :=
  .next (s.runUnless x.ctl (rowHeld x.ctl) fun s id t => do
    let _ ← s.rowCheck id t x.d x.a x.b [x.c] false
    .ok (s.acceptRow id t (.rmsn x) x.d [t.reg x.b, t.reg x.c] 0))

/-- SMAX (R177). -/
def execSmax (x : RowOp) (s : State) : Host.Outcome State Fault Refusal :=
  .next (s.runUnless x.ctl (rowHeld x.ctl) fun s id t => do
    let _ ← s.rowCheck id t x.d x.a x.b [] true
    .ok (s.acceptRow id t (.smax x) x.d [t.reg x.b] 0))

/-- ROWSUM (R176). -/
def execRowsum (x : RowOp) (s : State) : Host.Outcome State Fault Refusal :=
  .next (s.runUnless x.ctl (rowHeld x.ctl) fun s id t => do
    let _ ← s.rowCheck id t x.d x.a x.b [] true
    .ok (s.acceptRow id t (.rowsum x) x.d [t.reg x.b] 0))

/-- ROWSCALE (R179). -/
def execRowscale (x : RowscaleOp) (s : State) : Host.Outcome State Fault Refusal :=
  .next (s.runUnless x.ctl (rowHeld x.ctl) fun s id t => do
    let r ← s.rowCheck id t x.d x.a x.b [x.c, Opd.plus x.c 1] false
    .ok (s.acceptRow id t (.rowscale x) x.d [t.reg x.b, t.reg x.c, t.reg (Opd.plus x.c 1)]
      (if t.rnd x.rnd == .sr then r.rows * r.len else 0)))

/-- CVTS (R180). -/
def execCvts (x : CvtOp) (s : State) : Host.Outcome State Fault Refusal :=
  .next (s.runUnless x.ctl (rowHeld x.ctl) fun s id t => do
    let r ← s.rowCheck id t x.d x.a x.b [] false
    .ok (s.acceptRow id t (.cvts x) x.d [t.reg x.b]
      (if t.rnd x.rnd == .sr then r.rows * r.len else 0)))

/-! ## Write cycles -/

/-- What an operation writes: registers, the destination tile, and flags. -/
structure RowResult where
  regs : List (Nat × VReg)
  tile : Option (Fin 8 × Tile)
  flags : BitVec 5

/-- Transform the rows of a tile in ascending order. -/
def eachRow (v : FEnv) (src : Tile) (r : RowWord) (f : FEnv → Nat → List Nat → Tile → Tile × FEnv) :
    Nat → Tile → Tile × FEnv
  | 0, t => (t, v)
  | n + 1, t =>
    let k := r.first + (r.rows - (n + 1))
    let (t, v) := f v k (src.row k r.len) t
    eachRow v src r f n t

/-- The tile that a field names. -/
def tileOf : Opd → Fin 8
  | .t n => n
  | _ => 0

def regWrite (d : Opd) (c : Nat) : List (Nat × VReg) :=
  match d with
  | .v n => [(n.val, ⟨BitVec.ofNat 32 c, 0x20⟩)]
  | _ => []

/-- Codes and scales of one row of CVTS, as words of the tile (R174, R180). -/
def quantRow (f : Fmt) (v : FEnv) (k : Nat) (xs : List Nat) (t : Tile) : Tile × FEnv :=
  let (bs, v) := mapEnv v (quantBlock f) (blocksOf 4 xs)
  let t := t.setRow k (packRow 8 4 32 (bs.flatMap (·.2)))
  (t.setCol k 32 (leNat (bs.map fun b => BitVec.ofNat 8 b.1)), v)

/-- The computation of a row operation on the newest contents of its source tile (R175). -/
def rowCompute (i : Instr) (vals : List VReg) (fctl : BitVec 10) (gen : Word) (tile : Fin 8 → Tile) :
    RowResult :=
  let t0 : Thread := { Thread.fresh with fctl := fctl, gen := gen }
  let compat := t0.compat
  let val (k : Nat) : Nat := (vals.getD k ⟨0, 0⟩).bits.toNat
  match rowWord (val 0) 128 false with
  | none => ⟨[], none, 0⟩
  | some r =>
    match i with
    | .rowsum x =>
      let (c, v) := rowSum t0.fenvRne ((tile (tileOf x.a)).row r.first r.len)
      ⟨regWrite x.d c, none, v.flags⟩
    | .smax x =>
      let xs := (tile (tileOf x.a)).row r.first r.len
      let (mx, v) := rowMax t0.fenvRne xs
      let (es, v) := mapEnv v (rowExp compat mx) xs
      let (sum, v) := rowSum v es
      ⟨regWrite x.d mx ++ regWrite (Opd.plus x.d 1) sum, none, v.flags⟩
    | .rmsn x =>
      let (t, v) := eachRow t0.fenvRne (tile (tileOf x.a)) r (fun v k xs t =>
        let (ys, v) := rmsRow (val 1) v xs
        (t.setRow k ys, v)) r.rows (tile (tileOf x.d))
      ⟨[], some ((tileOf x.d), { t with tag := 0x20 }), v.flags⟩
    | .rowscale x =>
      let rm := t0.rnd x.rnd
      let f := FloatTy.fmt x.fmt
      let per := 32 / f.width
      let (t, v) := eachRow t0.fenvRne (tile (tileOf x.a)) r (fun v k xs t =>
        let (ys, v) := mapEnv v (scaleElem x.exp compat f rm (val 1) (val 2)) xs
        (t.setRow k (packRow f.width per 128 ys), v)) r.rows (tile (tileOf x.d))
      ⟨[], some ((tileOf x.d), { t with tag := FloatTy.tag x.fmt }), v.flags⟩
    | .cvts x =>
      match tagFmt x.fmt with
      | some f =>
        let (t, v) := eachRow (t0.fenv x.rnd) (tile (tileOf x.a)) r (quantRow f) r.rows (tile (tileOf x.d))
        ⟨[], some ((tileOf x.d), { t with tag := x.fmt }), v.flags⟩
      | none => ⟨[], none, 0⟩
    | _ => ⟨[], none, 0⟩

/-- The next operation of a core's row unit starts: its bound counts from now (R175). -/
def State.startNextRow (s : State) (core : Nat) : State :=
  match s.rowOps core with
  | (n, o) :: _ => match o.kind with
    | .row _ vals _ => s.setOp n { o with due := s.cycle + rowBound vals }
    | _ => s
  | [] => s

/-- ROW_OP_WRITE_CYCLE: the core's oldest row operation writes (R175). -/
def execRowOpWriteCycle (core : Nat) (s : State) : Host.Outcome State Fault Refusal :=
  match s.rowOps core with
  | (n, o) :: _ =>
    match o.kind with
    | .row i vals gen =>
      let tile (k : Fin 8) : Tile := match s.tileReg o.th k with
        | some r => r.latest
        | none => ⟨0, []⟩
      let r := rowCompute i vals o.fctl gen tile
      let s := (s.delOp n).startNextRow core
      let s := match r.tile with
        | some (k, t) => s.writeTile o.th k t true true
        | none => s
      let s := s.modThread o.th fun t =>
        (t.writeRegs r.regs).raiseLate r.flags (o.fctl.extractLsb' 0 5) o.pc o.field o.armed n
      .next (s.countDown o.th .tile)
    | _ => .next s
  | [] => .next s

end Sys2Proof.Machine
end

