-- ==== Sys2Proof/Machine/Dispatch.lean ====
section
/-! DEFINITION. Dispatch.lean: one arm for each constructor of Instr. -/

namespace Sys2Proof.Machine

def exec (i : Instr) (s : State) : Host.Outcome State Fault Refusal :=
  match i with
  | .iadd x => Sys2Proof.Machine.execIadd x s
  | .isub x => Sys2Proof.Machine.execIsub x s
  | .imin x => Sys2Proof.Machine.execImin x s
  | .imax x => Sys2Proof.Machine.execImax x s
  | .iabs x => Sys2Proof.Machine.execIabs x s
  | .and x => Sys2Proof.Machine.execAnd x s
  | .or x => Sys2Proof.Machine.execOr x s
  | .xor x => Sys2Proof.Machine.execXor x s
  | .not x => Sys2Proof.Machine.execNot x s
  | .andn x => Sys2Proof.Machine.execAndn x s
  | .shl x => Sys2Proof.Machine.execShl x s
  | .shr x => Sys2Proof.Machine.execShr x s
  | .sar x => Sys2Proof.Machine.execSar x s
  | .rol x => Sys2Proof.Machine.execRol x s
  | .bfx x => Sys2Proof.Machine.execBfx x s
  | .bfi x => Sys2Proof.Machine.execBfi x s
  | .prmt x => Sys2Proof.Machine.execPrmt x s
  | .mov x => Sys2Proof.Machine.execMov x s
  | .movi x => Sys2Proof.Machine.execMovi x s
  | .movhi x => Sys2Proof.Machine.execMovhi x s
  | .addpchi x => Sys2Proof.Machine.execAddpchi x s
  | .lea x => Sys2Proof.Machine.execLea x s
  | .imul x => Sys2Proof.Machine.execImul x s
  | .imulh x => Sys2Proof.Machine.execImulh x s
  | .imad x => Sys2Proof.Machine.execImad x s
  | .imadw x => Sys2Proof.Machine.execImadw x s
  | .idiv x => Sys2Proof.Machine.execIdiv x s
  | .irem x => Sys2Proof.Machine.execIrem x s
  | .dividerComplete th op => Sys2Proof.Machine.execDividerComplete th op s
  | .popc x => Sys2Proof.Machine.execPopc x s
  | .clz x => Sys2Proof.Machine.execClz x s
  | .ctz x => Sys2Proof.Machine.execCtz x s
  | .brev x => Sys2Proof.Machine.execBrev x s
  | .icmp x => Sys2Proof.Machine.execIcmp x s
  | .sel x => Sys2Proof.Machine.execSel x s
  | .plop x => Sys2Proof.Machine.execPlop x s
  | .pmov x => Sys2Proof.Machine.execPmov x s
  | .pset x => Sys2Proof.Machine.execPset x s
  | .bra x => Sys2Proof.Machine.execBra x s
  | .brx x => Sys2Proof.Machine.execBrx x s
  | .call x => Sys2Proof.Machine.execCall x s
  | .callx x => Sys2Proof.Machine.execCallx x s
  | .ret x => Sys2Proof.Machine.execRet x s
  | .exit x => Sys2Proof.Machine.execExit x s
  | .nop x => Sys2Proof.Machine.execNop x s
  | .ld x => Sys2Proof.Machine.execLd x s
  | .st x => Sys2Proof.Machine.execSt x s
  | .lds x => Sys2Proof.Machine.execLds x s
  | .sts x => Sys2Proof.Machine.execSts x s
  | .ldc x => Sys2Proof.Machine.execLdc x s
  | .ldp x => Sys2Proof.Machine.execLdp x s
  | .stp x => Sys2Proof.Machine.execStp x s
  | .pref x => Sys2Proof.Machine.execPref x s
  | .loadReturn th op => Sys2Proof.Machine.execLoadReturn th op s
  | .acq x => Sys2Proof.Machine.execAcq x s
  | .rel x => Sys2Proof.Machine.execRel x s
  | .fence x => Sys2Proof.Machine.execFence x s
  | .commitRegister co commit => Sys2Proof.Machine.execCommitRegister co commit s
  | .atom x => Sys2Proof.Machine.execAtom x s
  | .cas x => Sys2Proof.Machine.execCas x s
  | .atomicReturn th op => Sys2Proof.Machine.execAtomicReturn th op s
  | .atomd x => Sys2Proof.Machine.execAtomd x s
  | .dflush x => Sys2Proof.Machine.execDflush x s
  | .atomdDrain co => Sys2Proof.Machine.execAtomdDrain co s
  | .fadd x => Sys2Proof.Machine.execFadd x s
  | .fsub x => Sys2Proof.Machine.execFsub x s
  | .fmul x => Sys2Proof.Machine.execFmul x s
  | .ffma x => Sys2Proof.Machine.execFfma x s
  | .fmin x => Sys2Proof.Machine.execFmin x s
  | .fmax x => Sys2Proof.Machine.execFmax x s
  | .fcmp x => Sys2Proof.Machine.execFcmp x s
  | .fclass x => Sys2Proof.Machine.execFclass x s
  | .fdiv x => Sys2Proof.Machine.execFdiv x s
  | .fsqrt x => Sys2Proof.Machine.execFsqrt x s
  | .fdot4 x => Sys2Proof.Machine.execFdot4 x s
  | .dadd x => Sys2Proof.Machine.execDadd x s
  | .dsub x => Sys2Proof.Machine.execDsub x s
  | .dmul x => Sys2Proof.Machine.execDmul x s
  | .dfma x => Sys2Proof.Machine.execDfma x s
  | .dmin x => Sys2Proof.Machine.execDmin x s
  | .dmax x => Sys2Proof.Machine.execDmax x s
  | .dcmp x => Sys2Proof.Machine.execDcmp x s
  | .ddiv x => Sys2Proof.Machine.execDdiv x s
  | .dsqrt x => Sys2Proof.Machine.execDsqrt x s
  | .dclass x => Sys2Proof.Machine.execDclass x s
  | .cvt x => Sys2Proof.Machine.execCvt x s
  | .cvts x => Sys2Proof.Machine.execCvts x s
  | .cvti x => Sys2Proof.Machine.execCvti x s
  | .tagset x => Sys2Proof.Machine.execTagset x s
  | .tagget x => Sys2Proof.Machine.execTagget x s
  | .fexp2 x => Sys2Proof.Machine.execFexp2 x s
  | .flog2 x => Sys2Proof.Machine.execFlog2 x s
  | .frcp x => Sys2Proof.Machine.execFrcp x s
  | .frsq x => Sys2Proof.Machine.execFrsq x s
  | .fsin x => Sys2Proof.Machine.execFsin x s
  | .fcos x => Sys2Proof.Machine.execFcos x s
  | .ftanh x => Sys2Proof.Machine.execFtanh x s
  | .fsigm x => Sys2Proof.Machine.execFsigm x s
  | .fgelu x => Sys2Proof.Machine.execFgelu x s
  | .rmsn x => Sys2Proof.Machine.execRmsn x s
  | .smax x => Sys2Proof.Machine.execSmax x s
  | .rowsum x => Sys2Proof.Machine.execRowsum x s
  | .rowscale x => Sys2Proof.Machine.execRowscale x s
  | .rowOpWriteCycle core => Sys2Proof.Machine.execRowOpWriteCycle core s
  | .join x => Sys2Proof.Machine.execJoin x s
  | .leave x => Sys2Proof.Machine.execLeave x s
  | .crew x => Sys2Proof.Machine.execCrew x s
  | .shfl x => Sys2Proof.Machine.execShfl x s
  | .vote x => Sys2Proof.Machine.execVote x s
  | .cred x => Sys2Proof.Machine.execCred x s
  | .cscan x => Sys2Proof.Machine.execCscan x s
  | .crewGather co crew => Sys2Proof.Machine.execCrewGather co crew s
  | .binit x => Sys2Proof.Machine.execBinit x s
  | .barv x => Sys2Proof.Machine.execBarv x s
  | .bwait x => Sys2Proof.Machine.execBwait x s
  | .bsync x => Sys2Proof.Machine.execBsync x s
  | .cpy x => Sys2Proof.Machine.execCpy x s
  | .cpyx x => Sys2Proof.Machine.execCpyx x s
  | .cpyo x => Sys2Proof.Machine.execCpyo x s
  | .publ x => Sys2Proof.Machine.execPubl x s
  | .publFlip co op => Sys2Proof.Machine.execPublFlip co op s
  | .cpq x => Sys2Proof.Machine.execCpq x s
  | .copyRetire co op => Sys2Proof.Machine.execCopyRetire co op s
  | .wait x => Sys2Proof.Machine.execWait x s
  | .mclm x => Sys2Proof.Machine.execMclm x s
  | .mrel x => Sys2Proof.Machine.execMrel x s
  | .mlds x => Sys2Proof.Machine.execMlds x s
  | .mldsComplete cluster op => Sys2Proof.Machine.execMldsComplete cluster op s
  | .mpost x => Sys2Proof.Machine.execMpost x s
  | .macc x => Sys2Proof.Machine.execMacc x s
  | .mzero x => Sys2Proof.Machine.execMzero x s
  | .engineGrant cluster => Sys2Proof.Machine.execEngineGrant cluster s
  | .engineEntryWriteCycle cluster op => Sys2Proof.Machine.execEngineEntryWriteCycle cluster op s
  | .trace x => Sys2Proof.Machine.execTrace x s
  | .tracec x => Sys2Proof.Machine.execTracec x s
  | .replay x => Sys2Proof.Machine.execReplay x s
  | .hitq x => Sys2Proof.Machine.execHitq x s
  | .asph x => Sys2Proof.Machine.execAsph x s
  | .trix x => Sys2Proof.Machine.execTrix x s
  | .boxx x => Sys2Proof.Machine.execBoxx x s
  | .traversalComplete th op => Sys2Proof.Machine.execTraversalComplete th op s
  | .kclr x => Sys2Proof.Machine.execKclr x s
  | .klobe x => Sys2Proof.Machine.execKlobe x s
  | .knet x => Sys2Proof.Machine.execKnet x s
  | .kadd x => Sys2Proof.Machine.execKadd x s
  | .kmix x => Sys2Proof.Machine.execKmix x s
  | .kcoat x => Sys2Proof.Machine.execKcoat x s
  | .kscl x => Sys2Proof.Machine.execKscl x s
  | .ksample x => Sys2Proof.Machine.execKsample x s
  | .keval x => Sys2Proof.Machine.execKeval x s
  | .kpdf x => Sys2Proof.Machine.execKpdf x s
  | .closureOpComplete th op => Sys2Proof.Machine.execClosureOpComplete th op s
  | .kspill x => Sys2Proof.Machine.execKspill x s
  | .kfill x => Sys2Proof.Machine.execKfill x s
  | .kinfo x => Sys2Proof.Machine.execKinfo x s
  | .yieldb x => Sys2Proof.Machine.execYieldb x s
  | .resume x => Sys2Proof.Machine.execResume x s
  | .binAutoResume co => Sys2Proof.Machine.execBinAutoResume co s
  | .wake x => Sys2Proof.Machine.execWake x s
  | .binq x => Sys2Proof.Machine.execBinq x s
  | .tsort x => Sys2Proof.Machine.execTsort x s
  | .tcomp x => Sys2Proof.Machine.execTcomp x s
  | .binSortComplete co op => Sys2Proof.Machine.execBinSortComplete co op s
  | .monitor x => Sys2Proof.Machine.execMonitor x s
  | .mwait x => Sys2Proof.Machine.execMwait x s
  | .mwaitWake th => Sys2Proof.Machine.execMwaitWake th s
  | .mwaitTimeout th => Sys2Proof.Machine.execMwaitTimeout th s
  | .hold x => Sys2Proof.Machine.execHold x s
  | .unhold x => Sys2Proof.Machine.execUnhold x s
  | .wreg x => Sys2Proof.Machine.execWreg x s
  | .wdrop x => Sys2Proof.Machine.execWdrop x s
  | .purlinEntryExpiry die => Sys2Proof.Machine.execPurlinEntryExpiry die s
  | .sysc x => Sys2Proof.Machine.execSysc x s
  | .tfence x => Sys2Proof.Machine.execTfence x s
  | .tret x => Sys2Proof.Machine.execTret x s
  | .trap x => Sys2Proof.Machine.execTrap x s
  | .sread x => Sys2Proof.Machine.execSread x s
  | .swrite x => Sys2Proof.Machine.execSwrite x s
  | .launch x => Sys2Proof.Machine.execLaunch x s
  | .nopre x => Sys2Proof.Machine.execNopre x s
  | .nopreExpiry th => Sys2Proof.Machine.execNopreExpiry th s
  | .bkpt x => Sys2Proof.Machine.execBkpt x s
  | .slotTurn core => Sys2Proof.Machine.execSlotTurn core s
  | .threadOverdue th => Sys2Proof.Machine.execThreadOverdue th s
  | .pullTimeout part page => Sys2Proof.Machine.execPullTimeout part page s
  | .queueEnable part q => Sys2Proof.Machine.execQueueEnable part q s
  | .queueDisable part q => Sys2Proof.Machine.execQueueDisable part q s
  | .queueClearRefusal part q => Sys2Proof.Machine.execQueueClearRefusal part q s
  | .queueCtlBadOp part q => Sys2Proof.Machine.execQueueCtlBadOp part q s
  | .doorbellWrite part q w => Sys2Proof.Machine.execDoorbellWrite part q w s
  | .queueSlotAssign part => Sys2Proof.Machine.execQueueSlotAssign part s
  | .queueAgeOverdue part q => Sys2Proof.Machine.execQueueAgeOverdue part q s
  | .packetHeadCheck part q => Sys2Proof.Machine.execPacketHeadCheck part q s
  | .packetBegin part q => Sys2Proof.Machine.execPacketBegin part q s
  | .dependencePoll part q => Sys2Proof.Machine.execDependencePoll part q s
  | .courseDispatch part => Sys2Proof.Machine.execCourseDispatch part s
  | .resplitTimerExpiry part launch => Sys2Proof.Machine.execResplitTimerExpiry part launch s
  | .coreResplit core => Sys2Proof.Machine.execCoreResplit core s
  | .resplitTimeWrite part w => Sys2Proof.Machine.execResplitTimeWrite part w s
  | .courseRetire co => Sys2Proof.Machine.execCourseRetire co s
  | .launchEnd launch => Sys2Proof.Machine.execLaunchEnd launch s
  | .faultQueueAnswer part head => Sys2Proof.Machine.execFaultQueueAnswer part head s
  | .tlbInvalPage part ctx va => Sys2Proof.Machine.execTlbInvalPage part ctx va s
  | .tlbInvalContext part ctx => Sys2Proof.Machine.execTlbInvalContext part ctx s
  | .tlbInvalPartition part => Sys2Proof.Machine.execTlbInvalPartition part s
  | .syscAnswer part head => Sys2Proof.Machine.execSyscAnswer part head s
  | .softRequest ctx => Sys2Proof.Machine.execSoftRequest ctx s
  | .hardHalt ctx => Sys2Proof.Machine.execHardHalt ctx s
  | .contextReset ctx => Sys2Proof.Machine.execContextReset ctx s
  | .preemptGraceExpiry ctx => Sys2Proof.Machine.execPreemptGraceExpiry ctx s
  | .preemptKillExpiry ctx => Sys2Proof.Machine.execPreemptKillExpiry ctx s
  | .haltComplete ctx => Sys2Proof.Machine.execHaltComplete ctx s
  | .contextRestore ctx => Sys2Proof.Machine.execContextRestore ctx s
  | .preemptTimeWrite part w => Sys2Proof.Machine.execPreemptTimeWrite part w s
  | .debugStep ctx on => Sys2Proof.Machine.execDebugStep ctx on s
  | .debugBreak ctx on => Sys2Proof.Machine.execDebugBreak ctx on s
  | .debugContinue ctx => Sys2Proof.Machine.execDebugContinue ctx s
  | .ctxS1RootWrite part w => Sys2Proof.Machine.execCtxS1RootWrite part w s
  | .ctxCeilWrite part w => Sys2Proof.Machine.execCtxCeilWrite part w s
  | .rollbackReq part w => Sys2Proof.Machine.execRollbackReq part w s
  | .infieldTestStart cluster => Sys2Proof.Machine.execInfieldTestStart cluster s
  | .infieldMoveDeferExpiry cluster => Sys2Proof.Machine.execInfieldMoveDeferExpiry cluster s
  | .infieldTestComplete cluster failing sharedPass => Sys2Proof.Machine.execInfieldTestComplete cluster failing sharedPass s
  | .hvFaultQueueAnswer head => Sys2Proof.Machine.execHvFaultQueueAnswer head s
  | .hvTlbInvalPage ctx ia => Sys2Proof.Machine.execHvTlbInvalPage ctx ia s
  | .hvTlbInvalContext ctx => Sys2Proof.Machine.execHvTlbInvalContext ctx s
  | .hvTlbInvalPartition ctx => Sys2Proof.Machine.execHvTlbInvalPartition ctx s
  | .settlement measured => Sys2Proof.Machine.execSettlement measured s
  | .collDoorbell part ctx w => Sys2Proof.Machine.execCollDoorbell part ctx w s
  | .privateStorePerformed th op => Sys2Proof.Machine.execPrivateStorePerformed th op s
  | .createPartition => Sys2Proof.Machine.execCreatePartition s
  | .destroyPartition => Sys2Proof.Machine.execDestroyPartition s
  | .setContext => Sys2Proof.Machine.execSetContext s
  | .freeContext => Sys2Proof.Machine.execFreeContext s
  | .loadKey => Sys2Proof.Machine.execLoadKey s
  | .revokeKey => Sys2Proof.Machine.execRevokeKey s
  | .snapshot => Sys2Proof.Machine.execSnapshot s
  | .setTokens => Sys2Proof.Machine.execSetTokens s
  | .migrateOut peerAccepts => Sys2Proof.Machine.execMigrateOut peerAccepts s
  | .migrateIn peerAccepts => Sys2Proof.Machine.execMigrateIn peerAccepts s
  | .setCollectiveGroup => Sys2Proof.Machine.execSetCollectiveGroup s
  | .attest => Sys2Proof.Machine.execAttest s
  | .exportTransportKey => Sys2Proof.Machine.execExportTransportKey s
  | .hvCmdBadOp => Sys2Proof.Machine.execHvCmdBadOp s
  | .hvTlbInvalPart => Sys2Proof.Machine.execHvTlbInvalPart s
  | .fjasRun args => Sys2Proof.Machine.execFjasRun args s
  | .fjldRun place args => Sys2Proof.Machine.execFjldRun place args s
  | .uncorrectableRegisterRead th reg mirrorUsable => Sys2Proof.Machine.execUncorrectableRegisterRead th reg mirrorUsable s
  | .engineUncorrectableError co => Sys2Proof.Machine.execEngineUncorrectableError co s
  | .hostAccess addr bytes write => Sys2Proof.Machine.execHostAccess addr bytes write s
  | .triaterPortOutOfService port => Sys2Proof.Machine.execTriaterPortOutOfService port s
  | .collectiveReform op => Sys2Proof.Machine.execCollectiveReform op s
  | .collectiveComplete op others => Sys2Proof.Machine.execCollectiveComplete op others s
  | .registerWrite page offset w => Sys2Proof.Machine.execRegisterWrite page offset w s
  | .absentPagePull part page data => Sys2Proof.Machine.execAbsentPagePull part page data s
  | .migrationPathFailure part => Sys2Proof.Machine.execMigrationPathFailure part s
  | .coldStart => Sys2Proof.Machine.execColdStart s
  | .warmStart => Sys2Proof.Machine.execWarmStart s
  | .linkRemoteAccess device addr req => Sys2Proof.Machine.execLinkRemoteAccess device addr req s
  | .triaterFlitReceived port ok pause => Sys2Proof.Machine.execTriaterFlitReceived port ok pause s
  | .migrationPullRequest part page => Sys2Proof.Machine.execMigrationPullRequest part page s
  | .migrationDataReceived part absent dirty => Sys2Proof.Machine.execMigrationDataReceived part absent dirty s
  | .twinMismatch core slot => Sys2Proof.Machine.execTwinMismatch core slot s
  | .pageWalk core ctx va => Sys2Proof.Machine.execPageWalk core ctx va s

end Sys2Proof.Machine
end

