-- ==== Sys2Proof/Machine/Sched.lean ====
section
/-! DEFINITION. Sched.lean: what a step does around an instruction: fetch and the outcomes of R59
before it acts, and which event comes next when nothing issues (log entry 1). -/

namespace Sys2Proof.Machine

/-- What the machine does with the gang that issues. -/
inductive Front where
  /-- The word does not reach its meaning: a fault, a trap or a lost turn. -/
  | done (s : State)
  /-- The word is this instruction, at this PC. -/
  | run (i : Instr) (pc : Word) (s : State)

/-- Fetch, decode and check the word of the gang that issues (R58 to R60), and hold it in the
collector (R86). -/
def State.front (s : State) (g : Issue) : Front :=
  match g.gang with
  | [] => .done s.loseTurn
  | id :: _ =>
    match s.thread id with
    | none => .done s.loseTurn
    | some t =>
      match s.fetch id t.pc with
      | (.fault tr, s) => .done ((s.trapGang g tr).afterIssue g t.pc true)
      | (.poisoned, s) => .done (s.readFailure id).loseTurn
      | (.word w, s) =>
        match s.legal id.launch w with
        | none => .done ((s.trapGang g (.illegal (dField w))).afterIssue g t.pc true)
        | some i =>
          if s.unitAbsent w then .done ((s.trapGang g (.unitAbsent (dField w))).afterIssue g t.pc true)
          else if s.heldAtIssue i then .done s.loseTurn
          else .run i t.pc s

/-! ## Events that must come now -/

/-- Ends of operations whose time the spec fixes, or bounds (R65, R175, R205, R295). -/
def State.dueOps (s : State) : List Instr :=
  s.ops.filterMap fun (n, o) =>
    if s.cycle < o.due || o.stop.isSome || s.coreOf o.th == noCore then none
    else match o.kind with
      | .divide .. => some (.dividerComplete o.th n)
      | .row .. => if ((s.rowOps (s.coreOf o.th)).head?.map (·.1)) == some n then
          some (.rowOpWriteCycle (s.coreOf o.th)) else none
      | .mlds .. => some (.mldsComplete (s.clusterOf o.th) n)
      | .binSort .. => some (.binSortComplete (courseOf o.th) n)
      | _ => none

/-- Engine entries at their write cycle, then the grant of this cycle (R208, R209). -/
def State.dueEngines (s : State) : List Instr :=
  s.clusters.flatMap fun (n, c) =>
    (c.entries.filterMap fun e => match e.write with
      | some w => if w ≤ s.cycle then some (.engineEntryWriteCycle n e.id) else none
      | none => none) ++
    (if (s.nextGrant n).isSome then [.engineGrant n] else [])

/-- Timers of threads: an MWAIT's limit, a NOPRE window (R284, R311), and a candidate's age (R120). -/
def State.dueThreads (s : State) : List Instr :=
  s.threads.filterMap fun (id, t) =>
    if s.coreOf id == noCore then none
    else if t.nopre.any fun w => decide (w + 50000 ≤ s.gts) then some (.nopreExpiry id)
    else match t.await, t.monitor with
      | .monitor _ (some lim), some m =>
        if decide (lim ≤ s.gts) && !m.fired && !m.lost then some (.mwaitTimeout id) else none
      | .ready, _ =>
        if decide ((s.core (s.coreOf id)).picks - t.since ≥ 4096) && !t.overdue then
          some (.threadOverdue id) else none
      | _, _ => none

/-- Timers of contexts: grace and kill, and a halt that is complete (R310, R312). -/
def State.dueCtxs (s : State) : List Instr :=
  s.ctxs.flatMap fun (n, x) =>
    let ended (t : Option Nat) (us : Nat) : Bool := t.any fun t => decide (t + 1000 * us ≤ s.gts)
    match s.part x.part with
    | none => []
    | some p =>
      (if s.haltDone n then [.haltComplete n] else []) ++
      (if x.rung == .soft && ended x.softAt p.grace then [.preemptGraceExpiry n] else []) ++
      (if x.rung == .halting && ended x.haltAt p.kill then [.preemptKillExpiry n] else [])

/-- A test that starts, moves on or ends (R340). -/
def State.dueTests (s : State) : List Instr :=
  (if s.started then List.range 208 else []).filterMap fun n =>
    let c := s.cluster n
    match c.test with
    | none =>
      if s.enabledCluster n && c.inService && testDue n s.gts then some (.infieldTestStart n) else none
    | some (.moving deadline) =>
      let cs := s.ctxsOn n
      if cs.isEmpty || (!s.moveDeferred n deadline && cs.any fun x => match s.ctx x with
          | some x => x.moveOff.isNone && (x.rung == .running || x.rung == .soft)
          | none => false) then some (.infieldMoveDeferExpiry n) else none
    | some (.testing done) =>
      if done ≤ s.gts then
        -- the results are free
        some (.infieldTestComplete n ((List.range 4).filter fun i => Config.freeBit (s.free + i))
          (Config.freeBit (s.free + 4)))
      else none

/-- Timers of partitions, dies and queues (R101, R110, R286). -/
def State.dueTimers (s : State) : List Instr :=
  (s.parts.flatMap fun (n, p) => p.resplits.filterMap fun (l, due) =>
    if due ≤ s.gts then some (.resplitTimerExpiry n l) else none) ++
  (s.queues.filterMap fun ((p, q), x) =>
    if x.pending && !x.overdue && decide (x.since + 1048576 ≤ s.gts) then some (.queueAgeOverdue p q)
    else none) ++
  (s.dies.filterMap fun (n, d) =>
    if decide (7680 < d.purlin.length) && d.purlin.any (·.expired s.gts) then
      some (.purlinEntryExpiry n) else none)

/-- Pulls that have waited 10 ms (R329). -/
def State.duePulls (s : State) : List Instr :=
  s.parts.flatMap fun (n, p) => match p.migration with
    | some m => m.absent.filterMap fun g =>
      if (s.pageAbsent n g) && ((s.pullBegan g).any fun t => decide (t + 10000000 ≤ s.gts)) then
        some (.pullTimeout n g) else none
    | none => []

/-- Waiting heads with a dependence word that has just come to satisfy (R103): it is read again each time its
line is written. -/
def State.duePolls (s : State) : List Instr :=
  s.queues.filterMap fun ((p, n), q) => match q.head with
    | some h =>
      if q.waiting && decide (s.pollHead q h ≠ h) then some (.dependencePoll p n) else none
    | none => none

/-- Everything that must come before time goes on, the settlement last (R321). -/
def State.dueEvents (s : State) : List Instr :=
  s.duePolls ++ s.dueEngines ++ s.dueOps ++ s.dueThreads ++ s.dueCtxs ++ s.dueTests ++ s.dueTimers ++ s.duePulls ++
    (if s.started && s.gts % 1000000 == 0 && s.gts != s.settled then
      [.settlement (Config.freeChoice s.free)] else [])

/-! ## Events that may come -/

/-- Operations that can end (R86, R175, R197, R202, R228, R259, R278). -/
def State.readyOps (s : State) : List Instr :=
  s.ops.filterMap fun (n, o) =>
    if o.stop.isSome || s.coreOf o.th == noCore then none
    else match o.kind with
      | .load _ => some (.loadReturn o.th n)
      | .priv .. =>
        if (s.opsOfThread o.th).any fun p => decide (p.1 < n) && (match p.2.kind with
          | .priv .. => true
          | _ => false) then none else some (.privateStorePerformed o.th n)
      | .atomic _ _ _ _ _ _ acq =>
        if s.atomicReady n o acq then some (.atomicReturn o.th n) else none
      | .traverse .. => some (.traversalComplete o.th n)
      | .closure .. => some (.closureOpComplete o.th n)
      | .row .. => if ((s.rowOps (s.coreOf o.th)).head?.map (·.1)) == some n then
          some (.rowOpWriteCycle (s.coreOf o.th)) else none
      | .copy c =>
        if c.seen.isNone then none
        else if c.kind == .publ && !c.flipped then
          if s.mayRegister (courseOf o.th) && !s.cpyoBefore (courseOf o.th) n c then
            some (.publFlip (courseOf o.th) n) else none
        else some (.copyRetire (courseOf o.th) n)
      | _ => none

/-- The drain of a course's ATOMD entries has something to do (R280). -/
def State.drainReady (s : State) (co : CourseId) (c : Course) : Bool :=
  let es := (s.core c.core).atomd.filter fun e => courseOf e.th == co && e.taken.isSome
  s.mayRegister co && (es.all fun e => e.stop.isNone) &&
    (!es.isEmpty || (s.opsOf co).any fun p => match p.2.kind with
      | .dflush _ => true
      | _ => false)

/-- A course's retirement can begin or go on (R331). -/
def State.retireReady (s : State) (co : CourseId) (c : Course) : Bool :=
  let es := (s.core c.core).atomd.filter fun e => courseOf e.th == co
  s.courseDone co c &&
    (if es.isEmpty then
      (c.staging.any fun e => e.taken.isNone) ||
        (c.staging.isEmpty && c.commits.isEmpty && s.mayRegister co)
    else es.any fun e => e.taken.isNone)

/-- What a resident course can do (R267, R280, R294, R331). -/
def State.readyCourses (s : State) : List Instr :=
  s.courses.flatMap fun (co, c) =>
    if c.core == noCore then []
    else
      let halted := match s.ctx c.ctx with
        | some x => x.rung == .halting
        | none => false
      (c.commits.filterMap fun m => if s.commitReady co m then some (.commitRegister co m.id) else none) ++
      (if s.drainReady co c then [.atomdDrain co] else []) ++
      (if !halted && !c.stranded && (s.threadsOf co).isEmpty && c.binStop.isNone && s.anyLive co &&
          !s.autoHeld co then
        [.binAutoResume co] else []) ++
      (if s.retireReady co c then [.courseRetire co] else [])

/-- Sleepers whose watch has fired or is lost (R284). -/
def State.readyThreads (s : State) : List Instr :=
  s.threads.filterMap fun (id, t) => match t.await, t.monitor with
    | .monitor .., some m =>
      if s.coreOf id != noCore && (m.fired || m.lost) then some (.mwaitWake id) else none
    | _, _ => none

/-- Some queue would gain or give up an active slot (R101). -/
def State.slotsChange (s : State) (part : Nat) : Bool :=
  let qs := s.queuesOf part
  let idle (e : Nat × Queue) : Bool := e.2.active && !e.2.pending && !s.dispatching part e.1
  qs.any idle || (match leastBy (queueAbove s.gts) (qs.filter fun e => e.2.pending && !e.2.active) with
    | none => false
    | some best =>
      let occ := qs.filter fun e => e.2.active
      decide (occ.length < 32) || (match leastBy (fun a b => queueAbove s.gts b a) occ with
        | some low => queueAbove s.gts best low && !s.dispatching part low.1
        | none => false))

/-- Steps of the mapper (R99 to R103). -/
def State.readyQueues (s : State) : List Instr :=
  (s.parts.filterMap fun (n, _) => if s.slotsChange n then some (.queueSlotAssign n) else none) ++
  s.queues.filterMap fun ((p, n), q) => match q.head with
    | none =>
      if q.active && q.pending && !q.disabling then some (.packetHeadCheck p n) else none
    | some h =>
      if s.mayBegin p n q h then some (.packetBegin p n)
      else if h.dep0 && h.dep1 then none
      else if !q.waiting then some (.dependencePoll p n) else none

/-- Steps of the dispatcher (R107 to R111, R116). -/
def State.readyLaunches (s : State) : List Instr :=
  (s.parts.filterMap fun (n, p) =>
    let ls := s.dispatchOrder n
    if (s.dispatchFirst ls).isSome ||
        (ls.any fun l => (tget p.resplits l.1).isNone && s.wantsSplit l.1 l.2) then some (.courseDispatch n)
    else none) ++
  (s.cores.filterMap fun (n, c) => match c.resplit with
    | some l =>
      if (match s.launch l with
        | some l => (s.newSplit l.kd n).isSome
        | none => true) then some (.coreResplit n) else none
    | none => none) ++
  s.launches.filterMap fun (n, l) => if l.kd.courses ≤ l.retired && !s.endWaits l then some (.launchEnd n) else none

/-- Contexts whose halt belonged to a move and that have room elsewhere (R339, R340). -/
def State.readyMoves (s : State) : List Instr :=
  s.ctxs.filterMap fun (n, x) => match x.saved, x.moveOff with
    | some sv, some off =>
      let s0 := { s with courses := s.courses ++ sv.records, launches := s.launches ++ sv.launches }
      if x.rung == .saved && (!s.imageValid n x || (s0.restoreAll off sv.courses).isSome) then
        some (.contextRestore n) else none
    | _, _ => none

def State.readyEvents (s : State) : List Instr :=
  s.readyOps ++ s.readyCourses ++ s.readyThreads ++ s.readyQueues ++ s.readyLaunches ++ s.readyMoves

/-! ## The next event -/

/-- The next core's turn in this cycle, if some core has one. -/
def State.nextTurn (s : State) : Option Nat :=
  let ready (c : Nat) : Bool :=
    ((s.core c).slot (s.cycle % 4)).run.isSome || (s.pick c).isSome
  leastBy (fun a b => decide (a < b))
    ((s.courses.map fun p => p.2.core).filter fun c =>
      decide (s.turn ≤ c) && decide (c < noCore) && ready c)

/-- The event that comes next when no input waits and no gang issues (log entry 1): one that must come
now; else, by a free choice, one of those that may come or the next core's turn or cycle. -/
def State.nextEvent (s : State) : Option Instr × State :=
  match s.dueEvents with
  | e :: _ => (some e, { s with free := s.free + 5 })
  | [] =>
    let es := s.readyEvents
    let k := Config.freeChoice s.free % (es.length + 1)
    let s := { s with free := s.free + 1 }
    match es[k]? with
    | some e => (some e, s)
    | none =>
      match s.nextTurn with
      | some c => (some (.slotTurn c), { s with turn := c + 1 })
      | none => (none, { s with cycle := s.cycle + 1, turn := 0 })

/-! ## A program placed from outside (log entry 13) -/

/-- A kernel descriptor that names code at address 0, with every register and tile (log entry 13). -/
def KDesc.placed : KDesc :=
  { textLen := 12, nameOff := 0, privateBytes := 0, kspill := 0, spQ := 0, rfQ := 0,
    thatchTiles := 0, bins := 0, scratch := 0, courses := 1, tileRows := 16, tiles := 8,
    threads := 1, prio := 0, regs := 192, fctlInit := 0, trapvec := 0xFFFFFFFF, codeBase := 0,
    entryPc := 0, twinN := 0, twin := 0, determ := false, version := 1, magic := 0xD35C,
    reserved := Option.none }

/-- Page tables of a placed program: stage 2 at 0x100000 and stage 1 at 0x120000, each of one leaf that maps
the first gigabyte onto itself (R187). -/
def placedTables : Memory :=
  [(0x100000, 0x110001), (0x110000, 0xC0F), (0x120000, 0x130001), (0x130000, 0xC0F)].foldl
    (fun m (p : Nat × Nat) => memWriteN m p.1 (toLE p.2 8)) []

/-- A launch, a course and a thread resident on core 0 with the bytes of one instruction as the
launch's code, a context whose page tables map address 0, and the gang of that thread at issue. -/
def State.withProgram (s : State) (bs : List Byte) : State :=
  let n := s.nextId
  let id : ThreadId := ⟨n, 0, 0⟩
  let l : Launch :=
    { part := 0, queue := 0, index := 0, ctx := 0, packet := 0, kd := KDesc.placed,
      code := memWriteN [] 0 bs, codeKeys := [], next := 1, redo := [], retired := 0, turn := 0,
      rollbacks := [], redoPj := [] }
  let x : Context := { newContext 0 none with s2Root := 0x100000, s1Root := 0x120000 }
  let s := { s with nextId := n + 1, inputs := [], issue := some ⟨0, 0, [id], false⟩, mem := placedTables }
  ((s.setLaunch n l).setCourse ⟨n, 0⟩ (Course.fresh 0 0 8)).setCtx 0 x |>.setThread id Thread.fresh

end Sys2Proof.Machine
end

