-- ==== Sys2Proof/Machine/Step.lean ====
section
/-! DEFINITION. Step.lean: one step of the machine (log entry 1): the next input, else the gang that
issues, else the next event. -/

namespace Sys2Proof.Machine

/-- An event, with what it charges (R322) and what goes on beside it. -/
def runEvent (i : Instr) (s : State) : Host.Outcome State Fault Refusal :=
  match exec i s with
  | .next t => .next (s.meterEvent t i).background
  | .fault f => .fault f
  | .refused r => .refused r

/-- One step. -/
def step (s : State) : Host.Outcome State Fault Refusal :=
  match s.inputs with
  | i :: rest => runEvent i { s with inputs := rest }
  | [] =>
    match s.issue with
    | some g =>
      match s.front g with
      | .done s' => .next s'
      | .run i pc s' =>
        match exec i s' with
        | .next t => .next ((s'.meterIssue t g i).afterIssue g pc (s'.runEnds t g i))
        | .fault f => .fault f
        | .refused r => .refused r
    | none =>
      match s.nextEvent with
      | (some e, s') => runEvent e s'
      | (none, s') => .next s'

/-- The state with an instruction placed where the next step fetches: a launch, a course and a
thread resident on core 0, a context whose page tables map address 0, and the gang of that thread at
issue. -/
def State.withFetchWord (s : State) (nbits w : Nat) : State := s.withProgram (bytesOfWord (BitVec.ofNat 96 (w % 2 ^ nbits)))

end Sys2Proof.Machine
end

