-- ==== Sys2Proof/Safety.lean ====
section
/-! DEFINITION. Safety.lean: what the machine keeps at every step, and the terms in which claims
about one instruction are stated. -/

namespace Sys2Proof.Safety

open Sys2Proof.Machine

/-- Memory keeps its canonical form (log entry 2). -/
def MemoryCanonical (s : State) : Prop := memWf s.mem = true

/-- A run of steps that neither faults nor is refused. -/
def Runs : Nat → State → State → Prop
  | 0, s, t => s = t
  | n + 1, s, t => ∃ u, step s = .next u ∧ Runs n u t

/-! ## A gang and its threads -/

/-- The gang that issues, each thread in it once (R120). -/
def Issuing (s : State) (gang : List ThreadId) : Prop :=
  (∃ g, s.issue = some g ∧ g.gang = gang) ∧ gang.Nodup

/-- One thread issues a word with these guard bits, and its guard is true (R52). -/
def Alone (s : State) (id : ThreadId) (t : Thread) (c : Ctl) : Prop :=
  Issuing s [id] ∧ s.thread id = some t ∧ t.guard c = true

/-- What an instruction does to a gang when its effect is on its threads' own state: a thread whose
guard is true changes by `R`, one whose guard is false stands at PC + 1 (R52); other threads and
everything else in the machine, memory included, are unchanged. -/
structure GangDoes (s s' : State) (c : Ctl) (gang : List ThreadId) (R : Thread → Thread → Prop) :
    Prop where
  each : ∀ id ∈ gang, ∀ t, s.thread id = some t →
    ∃ t', s'.thread id = some t' ∧
      if t.guard c = true then R t t' else t' = { t with pc := t.pc + 1 }
  others : ∀ id, id ∉ gang → s'.thread id = s.thread id
  frame : { s' with threads := s.threads } = s

/-- The instruction completes for every gang whose acting threads meet `ok`, and does `R`. -/
def Completes (i : Instr) (c : Ctl) (ok : Thread → Prop) (R : Thread → Thread → Prop) : Prop :=
  ∀ s gang, Issuing s gang →
    (∀ id ∈ gang, ∀ t, s.thread id = some t → t.guard c = true → ok t) →
    ∃ s', exec i s = .next s' ∧ GangDoes s s' c gang R

/-- The numbers of `n` registers from the one a field names; 0xFF names none (R9). -/
def regsFrom (d : Opd) (n : Nat) : List Nat :=
  match d with
  | .v k => (List.range n).map (k.val + ·)
  | _ => []

/-- `t'` is `t` at the next PC with new contents in no register but those of the list: predicates,
flags, special registers, k registers, private memory and counters are as before. -/
structure WritesOnly (t t' : Thread) (ds : List Nat) : Prop where
  rest : t' = { t with regs := t'.regs, pc := t.pc + 1 }
  regs : ∀ n : Fin 192, n.val ∉ ds → t'.regs[n] = t.regs[n]

/-- The same, and the flags `fl` are ORed into `%fflags` with R300's capture. -/
structure WritesFlags (t t' : Thread) (ds : List Nat) (fl : BitVec 5) (d : BitVec 8) : Prop where
  rest : t' = { t.raiseFlags fl t.enables t.pc d with regs := t'.regs, pc := t.pc + 1 }
  regs : ∀ n : Fin 192, n.val ∉ ds → t'.regs[n] = t.regs[n]

/-! ## Values of the integer types (R63) -/

/-- The number of a type that an integer wraps to. -/
def wrap (ty : IntTy) (v : Int) : Int :=
  if ty.signed then v.bmod (2 ^ IntTy.width ty) else v % (2 ^ IntTy.width ty : Nat)

/-- A destination holds the value that an integer wraps to at a type, sign- or zero-extended to its
register or pair, with tag 0x00; a destination of 0xFF holds nothing (R9, R63). -/
def Holds (t : Thread) (ty : IntTy) (d : Opd) (v : Int) : Prop :=
  d = .zero ∨
    if ty.wide then
      t.reg d = ⟨BitVec.ofInt 32 v, 0⟩ ∧ t.reg (Opd.plus d 1) = ⟨BitVec.ofInt 32 (v / 2 ^ 32), 0⟩
    else t.reg d = ⟨BitVec.ofInt 32 (wrap ty v), 0⟩

/-- A source field carries tag 0x00 or is 0xFF, both halves for a pair (R9, R10). -/
def Untyped (t : Thread) (wide : Bool) (o : Opd) : Prop :=
  o = .zero ∨ ((t.reg o).tag = 0 ∧ (wide = true → (t.reg (Opd.plus o 1)).tag = 0))

/-- Operand b does, or is an immediate (R50). -/
def UntypedSrc (t : Thread) (wide : Bool) : Src → Prop
  | .reg o => Untyped t wide o
  | .imm _ => True

/-- The low w bits of an operand field, and of operand b (R63). -/
def fieldBits (t : Thread) (ty : IntTy) (o : Opd) : BitVec (IntTy.width ty) := BitVec.ofInt _ (t.srcOpd ty o)

/-- See `fieldBits`. -/
def srcBits (t : Thread) (ty : IntTy) (b : Src) : BitVec (IntTy.width ty) := BitVec.ofInt _ (t.src ty b)

/-- A register instruction writes this number at its type, and nothing else but the PC. -/
def GivesInt (t t' : Thread) (ty : IntTy) (d : Opd) (v : Int) : Prop :=
  Holds t' ty d v ∧ WritesOnly t t' (regsFrom d (wideN ty.wide))

/-- It writes this 32-bit word, untyped. -/
def GivesWord (t t' : Thread) (d : Opd) (w : Word) : Prop :=
  (d = .zero ∨ t'.reg d = ⟨w, 0⟩) ∧ WritesOnly t t' (regsFrom d 1)

/-- It writes this pair, untyped. -/
def GivesPair (t t' : Thread) (d : Opd) (w : DWord) : Prop :=
  (d = .zero ∨ (t'.reg d = ⟨w.setWidth 32, 0⟩ ∧ t'.reg (Opd.plus d 1) = ⟨(w >>> 32).setWidth 32, 0⟩)) ∧
    WritesOnly t t' (regsFrom d 2)

/-- It copies one register or pair, each half with its tag (R64). -/
def Copies (t t' : Thread) (wide : Bool) (d a : Opd) : Prop :=
  (d = .zero ∨ (t'.reg d = t.reg a ∧ (wide = true → t'.reg (Opd.plus d 1) = t.reg (Opd.plus a 1)))) ∧
    WritesOnly t t' (regsFrom d (wideN wide))

/-- It changes no predicate but those the list names, and nothing else but the PC. -/
structure WritesPreds (t t' : Thread) (ps : List Nat) : Prop where
  rest : t' = { t with preds := t'.preds, pc := t.pc + 1 }
  preds : ∀ n, n ∉ ps → t'.preds.getLsbD n = t.preds.getLsbD n

/-- It writes one predicate; a write to p7 is discarded (R8, R53). -/
def GivesPred (t t' : Thread) (p : Fin 8) (v : Bool) : Prop :=
  (p.val = 7 ∨ t'.preds.getLsbD p.val = v) ∧ WritesPreds t t' (if p.val = 7 then [] else [p.val])

/-! ## Floating-point results (R142 to R150, R157) -/

/-- The value of a number that is neither a NaN nor an infinity. -/
def valueOf : FloatVal → Option Rat
  | .fin n m e => some ((if n then -1 else 1) * m * (2 : Rat) ^ e)
  | _ => none

/-- The magnitude that an IEEE format gives a magnitude code. -/
def magnitude (f : Fmt) (code : Nat) : Rat :=
  let e : Nat := code / 2 ^ f.frac
  let fr : Nat := code % 2 ^ f.frac
  (if e = 0 then fr else 2 ^ f.frac + fr : Nat) * (2 : Rat) ^ (max (e : Int) 1 - f.bias - f.frac)

/-- A source carries the tag, in both halves of a pair, or is 0xFF (R10, R156). -/
def Tagged (t : Thread) (tag : Tag) (wide : Bool) (o : Opd) : Prop :=
  o = .zero ∨ ((t.reg o).tag = tag ∧ (wide = true → (t.reg (Opd.plus o 1)).tag = tag))

/-- Operand b does, or is an immediate (R50). -/
def TaggedSrc (t : Thread) (tag : Tag) : Src → Prop
  | .reg o => Tagged t tag false o
  | .imm _ => True

/-- `t'` is `t` at the next PC with the flags of an environment ORed in under R300's capture, its
generator, and new contents in no register but those of the list. -/
structure WritesEnv (t t' : Thread) (ds : List Nat) (v : FEnv) (d : BitVec 8) : Prop where
  rest : t' = { t.raiseFlags v.flags t.enables t.pc d with regs := t'.regs, pc := t.pc + 1, gen := v.gen }
  regs : ∀ n : Fin 192, n.val ∉ ds → t'.regs[n] = t.regs[n]

/-- A code in one register with a tag, and the environment it leaves. -/
def GivesCode (t t' : Thread) (d : Opd) (tag : Tag) (r : Nat × FEnv) : Prop :=
  (d = .zero ∨ t'.reg d = ⟨BitVec.ofNat 32 r.1, tag⟩) ∧ WritesEnv t t' (regsFrom d 1) r.2 d.enc

/-- A code of FP64 in a pair, each half tagged 0x40. -/
def GivesDouble (t t' : Thread) (d : Opd) (r : Nat × FEnv) : Prop :=
  (d = .zero ∨ (t'.reg d = ⟨BitVec.ofNat 32 r.1, 0x40⟩ ∧
    t'.reg (Opd.plus d 1) = ⟨BitVec.ofNat 32 (r.1 / 2 ^ 32), 0x40⟩)) ∧ WritesEnv t t' (regsFrom d 2) r.2 d.enc

/-- A predicate and flags; its d field is the predicate's number. -/
def GivesTest (t t' : Thread) (p : Fin 8) (v : Bool) (fl : BitVec 5) : Prop :=
  (p.val = 7 ∨ t'.preds.getLsbD p.val = v) ∧ (∀ n, n ≠ p.val → t'.preds.getLsbD n = t.preds.getLsbD n) ∧
    t' = { t.raiseFlags fl t.enables t.pc (BitVec.ofNat 8 p.val) with preds := t'.preds, pc := t.pc + 1 }

/-- The elements of a packed operation: element 0, and element 1 of a 16-bit type after it. -/
def eachElement (ty : FloatTy) (v : FEnv) (f : FEnv → Nat → Nat × FEnv) : Nat × FEnv :=
  let r := f v 0
  if ty = .f32 then r
  else
    let q := f r.2 1
    (r.1 + 2 ^ 16 * q.1, q.2)

/-- An element of a source b. -/
def elemOf (t : Thread) (ty : FloatTy) (b : Src) (e : Nat) : Nat := FloatTy.el ty (Thread.srcBits t b) e

/-- Three sources read in order, combined exactly, and the result rounded once (R157, R159). -/
def onceRounded (v : FEnv) (f : Fmt) (op : FloatVal → FloatVal → FloatVal → FloatVal × BitVec 5) (a b c : Nat) : Nat × FEnv :=
  let (x, v) := v.get f a
  let (y, v) := v.get f b
  let (z, v) := v.get f c
  let (r, fl) := op x y z
  (v.raise fl).out f r

/-- The mask bit of a value's class (R162). -/
def classBit (f : Fmt) (x : FloatVal) : Nat :=
  match x with
  | .inf true => 0
  | .inf false => 7
  | .nan true => 8
  | .nan false => 9
  | .fin n m e =>
    if m = 0 then (if n then 3 else 4)
    else if (m : Rat) * 2 ^ e < 2 ^ (1 - (f.bias : Int)) then (if n then 2 else 5)
    else if n then 1 else 6

/-- The format of a binary8×4 source, 0xFF reading as zeros (R156, R164). -/
def byteFmt (t : Thread) (o : Opd) : Fmt := (tagFmt (t.reg o).tag).getD (.b8 4 true false)

/-- The finite value of element e of a binary8×4 source. -/
def byteValue (t : Thread) (o : Opd) (e : Nat) : Option Rat :=
  valueOf ((byteFmt t o).read ((t.reg o).bits.toNat / 256 ^ e % 256))

/-- An integer result with the flags and generator of an environment (R167). -/
def GivesIntEnv (t t' : Thread) (ty : IntTy) (d : Opd) (r : Int) (v : FEnv) : Prop :=
  Holds t' ty d r ∧ WritesEnv t t' (regsFrom d (wideN ty.wide)) v d.enc

/-- A value rounded to an integer in a mode (R155). -/
def rounded (mode : Rnd) (draw : Nat) (q : Rat) : Int :=
  match mode with
  | .rtz => if q < 0 then q.ceil else q.floor
  | .rdn => q.floor
  | .rup => q.ceil
  | .rne =>
    if q - q.floor < 1 / 2 then q.floor
    else if 1 / 2 < q - q.floor then q.floor + 1
    else if q.floor % 2 = 0 then q.floor else q.floor + 1
  | .sr => if (draw : Rat) < (q - q.floor) * 2 ^ 32 then q.floor + 1 else q.floor

/-! ## Rows (R174 to R180) -/

/-- A rounded FP32 sum with its flags. -/
def addRne (ftz : Bool) (a b : Nat) : Nat × BitVec 5 :=
  let r := FEnv.addC ⟨.rne, ftz, 0, 0⟩ .f32 a b
  (r.1, r.2.flags)

/-- Node k of a level of a block's tree, absent where no leaf lies below it, with the flags below it. -/
def rowNode (ftz : Bool) (xs : List Nat) : Nat → Nat → Option (Nat × BitVec 5)
  | 0, k => xs[k]?.map fun x => (x, 0)
  | n + 1, k =>
    match rowNode ftz xs n (2 * k), rowNode ftz xs n (2 * k + 1) with
    | some a, some b =>
      let r := addRne ftz a.1 b.1
      some (r.1, a.2 ||| b.2 ||| r.2)
    | some a, none => some a
    | none, _ => none

/-- The sum of the first n blocks of a row in row order, none for an empty row. -/
def rowOrder (ftz : Bool) (xs : List Nat) : Nat → Option (Nat × BitVec 5)
  | 0 => none
  | n + 1 =>
    match rowOrder ftz xs n, rowNode ftz ((xs.drop (32 * n)).take 32) 5 0 with
    | some a, some b =>
      let r := addRne ftz a.1 b.1
      some (r.1, a.2 ||| b.2 ||| r.2)
    | some a, none => some a
    | none, r => r

/-- The sum of a row in row order; a lone element is read and written (R145, R146). -/
def rowSumOf (ftz : Bool) (xs : List Nat) : Option (Nat × BitVec 5) :=
  match xs with
  | [x] =>
    let v : FEnv := ⟨.rne, ftz, 0, 0⟩
    let r := (v.raise (flagIf (v.peek .f32 x).isSnan fNv)).out .f32 (v.peek .f32 x)
    some (r.1, r.2.flags)
  | _ => rowOrder ftz xs 4

/-- A step's code and flags. -/
def coded (r : Nat × FEnv) : Nat × BitVec 5 := (r.1, r.2.flags)

/-- The flags of all steps. -/
def allFlags (fs : List (BitVec 5)) : BitVec 5 := fs.foldl (· ||| ·) 0

/-- A row word as its fields (R174). -/
def rowWordOf (r : RowWord) : Nat := (r.len - 1) * 2 ^ 16 + (r.rows - 1) * 2 ^ 8 + r.first

/-- A row word that a kernel of this many tile rows accepts. -/
def RowFits (r : RowWord) (tileRows : Nat) (single : Bool) : Prop :=
  0 < r.len ∧ r.len ≤ 128 ∧ 0 < r.rows ∧ r.rows ≤ 128 ∧ r.first < 128 ∧ r.first + r.rows ≤ tileRows ∧
    (single = true → r.rows = 1)

/-- Outside the columns below `n` of the rows of a row word, a tile keeps its words. -/
def KeepsOutside (old new : Tile) (r : RowWord) (n : Nat) : Prop :=
  ∀ k c, c < 128 → (k < r.first ∨ r.first + r.rows ≤ k ∨ n ≤ c) →
    memReadN new.data (512 * k + 4 * c) 4 = memReadN old.data (512 * k + 4 * c) 4

/-- A division or root that the slot's divider starts: it ends `cycles` after the slot's earlier one, and
its register writes and flags are in flight; the thread goes on, with a new generator value. -/
def StartsDivision (s s' : State) (id : ThreadId) (t : Thread) (g : Issue) (cycles : Nat) (gen : Word)
    (ws : List (Nat × VReg)) (fl : BitVec 5) : Prop :=
  s'.thread id = some { t with pc := t.pc + 1, gen := gen } ∧ (∀ j, j ≠ id → s'.thread j = s.thread j) ∧
  (∃ o, s'.ops = tput s.ops s.nextId o ∧ o.th = id ∧ o.pc = t.pc ∧ o.stop = none ∧ o.fctl = t.fctl ∧
    o.kind = .divide ws fl ∧
    o.due = max ((s.core g.core).slot g.slot).divFree s.cycle + cycles ∧
    ((s'.core g.core).slot g.slot).divFree = o.due) ∧
  { s' with threads := s.threads, ops := s.ops, nextId := s.nextId, cores := s.cores } = s

/-! ## Crews (R127 to R134) -/

/-- What a collective does to the crew that issues it: each member goes on as `R` says, waiting no more;
nothing else changes but the Purlin table, where the members' waits end, and the record of crew order (R270). -/
structure CrewDoes (s s' : State) (ms : List Member) (R : Member → Thread → Thread → Prop) : Prop where
  each : ∀ m ∈ ms, ∃ t', s'.thread m.2.1 = some t' ∧ R m { m.2.2 with await := .ready } t'
  others : ∀ j, j ∉ ms.map (·.2.1) → s'.thread j = s.thread j
  frame : { s' with threads := s.threads, dies := s.dies, order := s.order } = s

/-- The crew that issues: the members of a gathered gang by rank, each thread and each rank once. -/
def CrewIssues (s : State) (code : CrewCode) (ms : List Member) : Prop :=
  (∃ g, s.issue = some g ∧ g.gathered = true) ∧ s.members code = ms ∧ (ms.map (·.2.1)).Nodup ∧
    (ms.map (·.1)).Nodup

/-- Node k of a level of CRED's tree by rank, with the flags below it (R133). -/
def redNode (ty : RedTy) (fn : RedFn) (ftz : Bool) (leaf : Nat → Option Nat) : Nat → Nat → Option (Nat × BitVec 5)
  | 0, k => (leaf k).map fun x => (x, 0)
  | n + 1, k =>
    match redNode ty fn ftz leaf n (2 * k), redNode ty fn ftz leaf n (2 * k + 1) with
    | some a, some b =>
      let r := redOp ty fn ⟨.rne, ftz, 0, 0⟩ a.1 b.1
      some (r.1, a.2 ||| b.2 ||| r.2.flags)
    | some a, none => some a
    | none, r => r

/-- A member's result: a value of the type with its tag, a NaN canonical, and flags. -/
def GivesRed (t t' : Thread) (ty : RedTy) (d : Opd) (r : Nat) (fl : BitVec 5) : Prop :=
  (d = .zero ∨
    if ty.wide then
      t'.reg d = ⟨BitVec.ofNat 32 r, 0⟩ ∧ t'.reg (Opd.plus d 1) = ⟨BitVec.ofNat 32 (r / 2 ^ 32), 0⟩
    else t'.reg d = ⟨BitVec.ofNat 32 (if RedTy.isFloat ty && (Fmt.f32.read r).isNan then Fmt.f32.nan else r),
      RedTy.tag ty⟩) ∧
    WritesFlags t t' (regsFrom d (wideN ty.wide)) fl d.enc

/-- One arrival at a barrier (R135). -/
def arrivedBar (b : Barrier) : Barrier :=
  if b.arrived + 1 = b.expected then { b with phase := b.phase + 1, arrived := 0 }
  else { b with arrived := b.arrived + 1 }

/-! ## Copies and the matrix engine -/

/-- Linear index of a multi-index in a box, dimension 0 fastest (R193). -/
def linearIndex : List Nat → List Nat → Nat
  | b :: bs, k :: ks => k + b * linearIndex bs ks
  | _, _ => 0

/-- A thread that a full range scoreboard or copy counter does not hold (R197). -/
def CopyRoom (s : State) (id : ThreadId) (t : Thread) : Prop :=
  s.rangeEntries (s.coreOf id) < 32 ∧ t.copies < 63

/-- A posted entry enters its cluster's reservation table and the thread goes on with one more tile
operation; nothing else changes (R207). -/
def Posts (s s' : State) (id : ThreadId) (t : Thread) (kind : EntryKind) : Prop :=
  s'.thread id = some { t with pc := t.pc + 1, tileOps := t.tileOps + 1 } ∧
  (∀ j, j ≠ id → s'.thread j = s.thread j) ∧
  (∃ e, s'.cluster (s.clusterOf id) = { s.cluster (s.clusterOf id) with
        entries := (s.cluster (s.clusterOf id)).entries ++ [e] } ∧
    e.th = id ∧ e.pc = t.pc ∧ e.kind = kind ∧ e.stamp = s.gts ∧ e.write = none ∧ e.passedOver = 0 ∧
    e.prio = BitVec.ofNat 3 (s.effPrio id) ∧ e.fctl = t.fctl) ∧
  { s' with threads := s.threads, clusters := s.clusters, nextId := s.nextId } = s

/-- Element k of row i of the A slot, +0 in a skipped block (R206, R209). -/
def elemA (block : Nat) (sa : EngineSlot) (i k : Nat) : FloatVal :=
  if block.testBit (384 + 8 * (i / 8) + 8 * k / (shapeOf sa.tag).kp) then .fin false 0 0
  else (slotFmt sa.tag).read (leNat (memReadN sa.elems
    ((shapeOf sa.tag).bytes * ((shapeOf sa.tag).kp * i + k)) (shapeOf sa.tag).bytes))

/-- Element n of row k of the B slot. -/
def elemB (sa sb : EngineSlot) (k n : Nat) : FloatVal :=
  (slotFmt sb.tag).read (leNat (memReadN sb.elems ((shapeOf sa.tag).bytes * (128 * k + n)) (shapeOf sa.tag).bytes))

/-- The scale at an index of a slot; 0x7F for the classes without scales (R205). -/
def scaleOf (e : EngineSlot) (i : Nat) : Nat := if tagClass e.tag = 6 then (memRead e.scales i).toNat else 0x7F

/-! ## Closures (R242 to R263) -/

/-- `t'` is `t` at the next PC with new contents in k registers and at most one predicate (R257). -/
structure WritesK (t t' : Thread) (pd : Fin 8) (v : Bool) : Prop where
  rest : t' = { t with kregs := t'.kregs, preds := t'.preds, pc := t.pc + 1 }
  pred : pd.val = 7 ∨ t'.preds.getLsbD pd.val = v
  preds : ∀ n, n ≠ pd.val → t'.preds.getLsbD n = t.preds.getLsbD n

/-- A builder (R244, R257): where the destination is free it takes the node, the node's children become
owned, and the predicate is 1; where it is not, nothing is built and the predicate is 0. -/
def Builds (t t' : Thread) (pd : Fin 8) (d : Fin 16) (node : KReg) : Prop :=
  if kFree t.kl d.val = true then
    WritesK t t' pd true ∧ ∀ n : Fin 16, t'.kregs[n] =
      if n = d then node else if n.val ∈ kChildren node then kSetOwned t.kregs[n] true else t.kregs[n]
  else WritesK t t' pd false ∧ t'.kregs = t.kregs

/-- A resident node that no combinator owns (R244). -/
def Unowned (t : Thread) (o : Opd) : Prop := t.kreg o ≠ 0 ∧ kOwned (t.kreg o) = false

/-- Two registers that may become children of a third. -/
def MayOwn (t : Thread) (d a b : Opd) : Prop := Unowned t a ∧ Unowned t b ∧ a ≠ b ∧ a ≠ d ∧ b ≠ d

/-- The fields of a node (R242): its weights, kind, owned bit and children. -/
def NodeIs (k : KReg) (kind : Nat) (ws : List Nat) (children : List Nat) : Prop :=
  kKind k = kind ∧ kWeights k = ws ∧ kOwned k = false ∧ kChildren k = children

/-- The words of four consecutive registers. -/
def fourWords (t : Thread) (o : Opd) : List Nat := (List.range 4).map fun i => (t.reg (Opd.plus o i)).bits.toNat

/-- Some consecutive registers carry a tag. -/
def TaggedSpan (t : Thread) (tag : Tag) (o : Opd) (n : Nat) : Prop := ∀ i < n, Tagged t tag false (Opd.plus o i)

/-- A ray span's tags (R224). -/
def RayTags (t : Thread) (f64 : Bool) (b : Opd) : Prop :=
  TaggedSpan t (if f64 then 0x40 else 0x20) b (if f64 then 16 else 8) ∧
    Tagged t 0 false (Opd.plus b (if f64 then 16 else 8))

/-- The answer words of a hit span (R225). -/
def AnswerTags (t : Thread) (f64 : Bool) (b : Opd) : Prop :=
  TaggedSpan t (if f64 then 0x40 else 0x20) b (if f64 then 6 else 3)

/-! ## Results of the traversal unit (R225, R240) -/

/-- The hit span of one test of a triangle (kind 0) or an asphere against a ray (R225, R226). -/
def oneTest (f64 : Bool) (d : Opd) (r : Ray) (kind j n : Nat) : List (Nat × VReg) :=
  let miss (result why : Nat) : List (Nat × VReg) :=
    missWrites f64 d (statusWord result why r.wave false false 0)
  match if kind = 0 then triangle r n else asphere r n with
  | .badRecord => miss 15 2
  | .miss why => miss 0 why.toNat
  | .hit h =>
    if Arith.le r.fmt r.tmin h.t = true ∧ Arith.le r.fmt h.t r.tmax = true then
      hitWrites f64 d h.t h.u h.w (BitVec.ofNat 32 (primId kind j)) (statusWord (kind + 1) 0 r.wave false false 0)
    else miss 0 0

/-- What HITQ writes of a record at an address; a point or normal is that of a triangle or an asphere
(R240). -/
def hitAnswer (x : HitqOp) (h : HitSpan) (addr n : Nat) : List (Nat × VReg) :=
  let f := modeFmt x.f64
  let g := Fmt.f64
  let one (w : Nat) : List (Nat × VReg) := regsOf x.d [w]
  -- component i of a triangle's vertex k
  let v (k i : Nat) : Nat := Arith.conv .f32 f (n / 2 ^ (96 * k + 32 * i) % 2 ^ 32)
  let side (k i : Nat) : Nat := Arith.sub f (v k i) (v 0 i)
  let at_ (i : Nat) : Nat := Arith.fma f h.w (side 2 i) (Arith.fma f h.u (side 1 i) (v 0 i))
  let cross (i j : Nat) : Nat := Arith.diffProd f (side 1 i) (side 2 j) (side 1 j) (side 2 i)
  -- an asphere's local point
  let a := Asphere.read n
  let u := Arith.conv f g h.u
  let w := Arith.conv f g h.w
  let sag := (a.sag (Arith.fma g w w (Arith.mul g u u))).getD (g.nan, g.nan)
  let slope (c : Nat) : Nat := Arith.mul g (Arith.mul g (Arith.neg g (Arith.two g)) c) sag.2
  let local_ := axisMap a.axis (u, w, sag.1)
  let out (o c : Nat) : Nat := Arith.conv g f (Arith.add g o c)
  match x.query with
  | .pos => vecWrites x.f64 x.d
      (if h.kind = 0 then (at_ 0, at_ 1, at_ 2)
      else (out a.origin.1 local_.1, out a.origin.2.1 local_.2.1, out a.origin.2.2 local_.2.2))
  | .nrm => vecWrites x.f64 x.d
      (if h.kind = 0 then unitVec f (cross 1 2, cross 2 0, cross 0 1)
      else
        let m := axisMap a.axis (unitVec g (slope u, slope w, Arith.one g))
        (Arith.conv g f m.1, Arith.conv g f m.2.1, Arith.conv g f m.2.2))
  | .record => regsOf x.d [addr, addr / 2 ^ 32]
  | .user => one (n / 2 ^ (if h.kind = 0 then 288 else if h.kind = 1 then 992 else 192) % 2 ^ 32)
where
  /-- Untyped words in consecutive registers. -/
  regsOf (d : Opd) (ws : List Nat) : List (Nat × VReg) :=
    match d with
    | .v k => ws.zipIdx.map fun w => (k.val + w.2, ⟨BitVec.ofNat 32 w.1, 0⟩)
    | _ => []

/-! ## Operations that an instruction starts -/

/-- The thread goes to PC + 1 with one more operation of the class outstanding and its registers,
predicates, flags and special registers as before; the operation is in flight under a new number; no
other thread, no other operation and no byte of memory changes. -/
structure Starts (s s' : State) (id : ThreadId) (t : Thread) (c : CountClass) (k : OpKind) : Prop where
  thread : s'.thread id = some (t.countUp c).advance
  op : ∃ n o, s'.ops = tput s.ops n o ∧ s.nextId ≤ n ∧ n < s'.nextId ∧ o.th = id ∧ o.pc = t.pc ∧
    o.issued = s.cycle ∧ o.stop = none ∧ o.fctl = t.fctl ∧ o.kind = k
  others : ∀ j, j ≠ id → s'.thread j = s.thread j
  mem : s'.mem = s.mem

/-- A copy command is issued (R197): the thread goes to PC + 1 with one more copy outstanding; a release
takes the stores that its thread has staged and changes no other; the command is in flight, accepted, where
it is, with memory as it stands, and at once where no commit of the course and no operation of the thread
precedes it. No other thread, no byte of memory and no operation that is no copy changes. -/
structure Commands (s s' : State) (id : ThreadId) (t : Thread) (r : CopyReq) : Prop where
  thread : s'.thread id = some (t.countUp .copy).advance
  others : ∀ j, j ≠ id → s'.thread j = s.thread j
  mem : s'.mem = s.mem
  op : ∃ n o seen, s'.op n = some o ∧ s.nextId ≤ n ∧ n < s'.nextId ∧ o.th = id ∧ o.pc = t.pc ∧
    o.issued = s.cycle ∧ o.stop = none ∧ o.kind = .copy { r with seen := seen } ∧
    (∀ k m, seen = some (k, m) → s.nextId ≤ k ∧ m = s.mem) ∧
    ((∀ c, s.course (courseOf id) = some c → c.commits = [] ∧ ∀ e ∈ c.staging, e.th ≠ id) →
      (∀ p ∈ s.ops, p.2.th ≠ id) → seen.isSome = true) ∧
    ((∀ p ∈ s.ops, ∀ c, courseOf p.2.th = courseOf id → p.2.kind = .copy c → c.seen.isSome = true) →
      s'.ops = tput s.ops n o) ∧
    ∀ k, k ≠ n → (∀ p ∈ s.ops, p.1 = k → ∀ c, p.2.kind ≠ .copy c) → s'.op k = s.op k
  staged : ∀ c, s.course (courseOf id) = some c → ∃ c', s'.course (courseOf id) = some c' ∧
    { c' with staging := c.staging, commits := c.commits } = c ∧
    c'.staging.map (fun e => { e with taken := none }) = c.staging.map (fun e => { e with taken := none }) ∧
    (∀ e ∈ c'.staging, e.th = id → e.taken.isSome) ∧ ∀ e ∈ c'.staging, e.th ≠ id → e ∈ c.staging

/-- Nothing but one thread, operations in flight and their numbers changes. -/
def OnlyThreadAndOps (s s' : State) : Prop :=
  { s' with threads := s.threads, ops := s.ops, nextId := s.nextId } = s

/-- Nothing changes but what a translation leaves: cached translations, the counter of free numbers, and
dirty bits of snapshots (R188, R327). -/
structure OnlyTranslates (s s' : State) : Prop where
  rest : { s' with cores := s.cores, clusters := s.clusters, dies := s.dies, parts := s.parts,
                   free := s.free } = s
  cores : ∀ n, { s'.core n with tlb := (s.core n).tlb } = s.core n
  clusters : ∀ n, { s'.cluster n with tlb := (s.cluster n).tlb } = s.cluster n
  dies : ∀ n, { s'.die n with tlb := (s.die n).tlb } = s.die n
  parts : ∀ n p, s.part n = some p → ∃ p', s'.part n = some p' ∧
    { p' with snapshot := p.snapshot, lastSnapshot := p.lastSnapshot } = p

/-- The bytes that a value of a register span holds land in registers of one tag (R83, R87). -/
def loadedReg (w : Width) (sext : Bool) (fmt : Tag) (bs : List Byte) (i : Nat) : VReg :=
  match w with
  | .b1 =>
    let b := BitVec.ofNat 8 (leNat bs)
    ⟨if sext then b.signExtend 32 else b.setWidth 32, fmt⟩
  | .b2 =>
    let b := BitVec.ofNat 16 (leNat bs)
    ⟨if sext then b.signExtend 32 else b.setWidth 32, fmt⟩
  | _ => ⟨BitVec.ofNat 32 (leNat ((bs.drop (4 * i)).take 4)), fmt⟩

/-! ## Bytes at home -/

/-- The 64-byte unit was last written under the key that a slot holds, or the slot holds none (R191):
writing a byte of it under the slot changes that byte alone. -/
def OwnUnit (s : State) (slot unit : Nat) : Prop :=
  match s.keyOf slot with
  | some k => tget s.units unit = some k
  | none => True

/-- The byte that the last of some staged entries to cover an address holds for it (R88, R266). -/
def lastStaged (es : List StageEntry) (a : Nat) : Option Byte :=
  (es.reverse.find? fun e => e.phys == a / 8 * 8 && e.mask.getLsbD (a % 8)).map fun e =>
    e.data.extractLsb' (8 * (a % 8)) 8

end Sys2Proof.Safety
end

