-- ==== Sys2Proof/Certificates/Slice0/Obligations.lean ====
section
/-! DEFINITION. Certificates/Slice0/Obligations.lean: the statements for the provers, from the
numbered rules of spec/. -/

open Sys2Proof Sys2Proof.Machine Sys2Proof.Safety

/-! ## Integer instructions -/

/-- R66: the arithmetic and logical instructions of group 0x0 complete for every gang whose acting
threads hold untyped sources where R64 asks for them, and write x + y, x − y, the smaller or larger,
|x|, x ∧ y, x ∨ y, x ⊕ y, x ∧ ¬y and ¬x, wrapped to the type; an IABS of an unsigned type is illegal; no
other register, no predicate, flag or special register, no other thread and no byte of memory changes. -/
def Obligations.IntegerArithmeticAndLogic : Prop :=
  (∀ x : IntOp, x.wfArith = true →
    Completes (.iadd x) x.ctl (fun t => Untyped t x.ty.wide x.a ∧ UntypedSrc t x.ty.wide x.b)
      (fun t t' => GivesInt t t' x.ty x.d (t.srcOpd x.ty x.a + t.src x.ty x.b)) ∧
    Completes (.isub x) x.ctl (fun t => Untyped t x.ty.wide x.a ∧ UntypedSrc t x.ty.wide x.b)
      (fun t t' => GivesInt t t' x.ty x.d (t.srcOpd x.ty x.a - t.src x.ty x.b)) ∧
    Completes (.imin x) x.ctl (fun t => Untyped t x.ty.wide x.a ∧ UntypedSrc t x.ty.wide x.b)
      (fun t t' => GivesInt t t' x.ty x.d (min (t.srcOpd x.ty x.a) (t.src x.ty x.b))) ∧
    Completes (.imax x) x.ctl (fun t => Untyped t x.ty.wide x.a ∧ UntypedSrc t x.ty.wide x.b)
      (fun t t' => GivesInt t t' x.ty x.d (max (t.srcOpd x.ty x.a) (t.src x.ty x.b))) ∧
    Completes (.and x) x.ctl (fun _ => True)
      (fun t t' => GivesInt t t' x.ty x.d (fieldBits t x.ty x.a &&& srcBits t x.ty x.b).toNat) ∧
    Completes (.or x) x.ctl (fun _ => True)
      (fun t t' => GivesInt t t' x.ty x.d (fieldBits t x.ty x.a ||| srcBits t x.ty x.b).toNat) ∧
    Completes (.xor x) x.ctl (fun _ => True)
      (fun t t' => GivesInt t t' x.ty x.d (fieldBits t x.ty x.a ^^^ srcBits t x.ty x.b).toNat) ∧
    Completes (.andn x) x.ctl (fun _ => True)
      (fun t t' => GivesInt t t' x.ty x.d (fieldBits t x.ty x.a &&& ~~~ srcBits t x.ty x.b).toNat)) ∧
  (∀ x : IntUn, x.ty.signed = false → (Instr.iabs x).wf = false) ∧
  ∀ x : IntUn, x.wfSame = true →
    Completes (.iabs x) x.ctl (fun t => Untyped t x.ty.wide x.a)
      (fun t t' => GivesInt t t' x.ty x.d (t.srcOpd x.ty x.a).natAbs) ∧
    Completes (.not x) x.ctl (fun _ => True)
      (fun t t' => GivesInt t t' x.ty x.d (~~~ fieldBits t x.ty x.a).toNat)

/-- R67: shifts and the rotate take the count src(b, 32, 0) mod w. R68 and R69: BFX takes l bits of a from
pos, sign- or zero-extended; BFI puts the low l bits of a into c at pos; where the length is 0 or pos ≥ w,
BFX writes 0 and BFI writes c; l clips the length to the width. PRMT chooses each result byte from the eight
of a and c, or fills it with that byte's sign. -/
def Obligations.ShiftsAndBitFields : Prop :=
  (
  ∀ x : IntOp, x.wfShift = true →
    Completes (.shl x) x.ctl (fun _ => True) (fun t t' =>
      GivesInt t t' x.ty x.d (fieldBits t x.ty x.a <<< (t.word x.b % IntTy.width x.ty)).toNat) ∧
    Completes (.shr x) x.ctl (fun _ => True) (fun t t' =>
      GivesInt t t' x.ty x.d (fieldBits t x.ty x.a >>> (t.word x.b % IntTy.width x.ty)).toNat) ∧
    Completes (.sar x) x.ctl (fun _ => True) (fun t t' =>
      GivesInt t t' x.ty x.d ((fieldBits t x.ty x.a).sshiftRight (t.word x.b % IntTy.width x.ty)).toInt) ∧
    Completes (.rol x) x.ctl (fun _ => True) (fun t t' =>
      GivesInt t t' x.ty x.d ((fieldBits t x.ty x.a).rotateLeft (t.word x.b % IntTy.width x.ty)).toNat)) ∧
  (
  (∀ x : IntOp, x.wfShift = true →
    Completes (.bfx x) x.ctl (fun _ => True) (fun t t' =>
      let w := IntTy.width x.ty
      let pos := t.word x.b % 256
      let len := t.word x.b / 256 % 256
      let f := (fieldBits t x.ty x.a).extractLsb' pos (min len (w - pos))
      GivesInt t t' x.ty x.d
        (if len = 0 ∨ w ≤ pos then 0 else if x.ty.signed then f.toInt else f.toNat))) ∧
  (∀ x : IntOp3, x.wfInsert = true →
    Completes (.bfi x) x.ctl (fun _ => True) (fun t t' =>
      let w := IntTy.width x.ty
      let pos := t.word x.b % 256
      let len := t.word x.b / 256 % 256
      ∃ r : BitVec w,
        (∀ i, i < w → r.getLsbD i =
          if pos ≤ i ∧ i < pos + min len (w - pos) then (fieldBits t x.ty x.a).getLsbD (i - pos)
          else (fieldBits t x.ty x.c).getLsbD i) ∧
        GivesInt t t' x.ty x.d r.toNat)) ∧
  ∀ x : IntOp3, x.wfPrmt = true →
    Completes (.prmt x) x.ctl (fun _ => True) (fun t t' =>
      ∃ r : Word,
        (∀ i, i < 4 →
          let sel := t.word x.b / 16 ^ i % 16
          let byte := ((t.reg x.c).bits ++ (t.reg x.a).bits).extractLsb' (8 * (sel % 8)) 8
          r.extractLsb' (8 * i) 8 = if sel / 8 = 1 then (if byte.msb then 0xFF else 0) else byte) ∧
        GivesWord t t' x.d r))

/-- R70: MOV copies a with the tags of its halves; MOVI and MOVHI write their constants, extended by
the type code; ADDPCHI writes code_base + 12 × PC + sext64(imm[19:0] << 12); LEA writes
a + sext64(imm[11:0]). R73: POPC, CLZ, CTZ and BREV. -/
def Obligations.MovesAndBitCounts : Prop :=
  (∀ x : IntUn, x.wfSame = true →
    Completes (.mov x) x.ctl (fun _ => True) (fun t t' => Copies t t' x.ty.wide x.d x.a)) ∧
  (∀ x : MovI, x.wf = true →
    Completes (.movi x) x.ctl (fun _ => True) (fun t t' =>
      GivesInt t t' x.ty x.d (if x.ty = .s64 then x.imm.toInt else x.imm.toNat))) ∧
  (∀ x : MovH, x.wf = true →
    Completes (.movhi x) x.ctl (fun _ => True) (fun t t' =>
      GivesInt t t' x.ty x.d
        (if x.ty = .s64 then (x.hi ++ (0 : BitVec 12)).toInt else (x.hi ++ (0 : BitVec 12)).toNat))) ∧
  (∀ (x : MovH) (s : State) (id : ThreadId) (t : Thread) (k : KDesc), x.d.isPair = true →
    Alone s id t x.ctl → s.kdesc id.launch = some k →
    ∃ s' t', exec (.addpchi x) s = .next s' ∧ s' = s.setThread id t' ∧
      GivesPair t t' x.d (k.codeBase + 12 * t.pc.setWidth 64 + (x.hi ++ (0 : BitVec 12)).signExtend 64)) ∧
  (∀ x : LeaOp, x.d.isPair = true → x.a.isPair = true →
    Completes (.lea x) x.ctl (fun t => Untyped t true x.a) (fun t t' =>
      GivesPair t t' x.d (t.pair x.a + x.off.signExtend 64))) ∧
  ∀ x : IntUn,
    (x.wfCount = true →
      Completes (.popc x) x.ctl (fun _ => True) (fun t t' =>
        GivesWord t t' x.d (BitVec.ofNat 32 ((List.range (IntTy.width x.ty)).countP fun i =>
          (fieldBits t x.ty x.a).getLsbD i))) ∧
      Completes (.clz x) x.ctl (fun _ => True) (fun t t' => ∃ n ≤ IntTy.width x.ty,
        GivesWord t t' x.d (BitVec.ofNat 32 n) ∧
        (∀ i, IntTy.width x.ty - n ≤ i → (fieldBits t x.ty x.a).getLsbD i = false) ∧
        (n < IntTy.width x.ty → (fieldBits t x.ty x.a).getLsbD (IntTy.width x.ty - 1 - n) = true)) ∧
      Completes (.ctz x) x.ctl (fun _ => True) (fun t t' => ∃ n ≤ IntTy.width x.ty,
        GivesWord t t' x.d (BitVec.ofNat 32 n) ∧
        (∀ i, i < n → (fieldBits t x.ty x.a).getLsbD i = false) ∧
        (n < IntTy.width x.ty → (fieldBits t x.ty x.a).getLsbD n = true))) ∧
    (x.wfSame = true → x.ty.signed = false →
      Completes (.brev x) x.ctl (fun _ => True) (fun t t' => ∃ r : BitVec (IntTy.width x.ty),
        (∀ i, i < IntTy.width x.ty →
          r.getLsbD i = (fieldBits t x.ty x.a).getLsbD (IntTy.width x.ty - 1 - i)) ∧
        GivesInt t t' x.ty x.d r.toNat))

/-- R71: IMUL writes x × y, IMULH the high w bits of the exact product, IMAD x × y + c, and IMADW
x × y + c at 64 bits from 32-bit factors. -/
def Obligations.Multiplies : Prop :=
  (∀ x : IntOp, x.wfArith = true →
    Completes (.imul x) x.ctl (fun t => Untyped t x.ty.wide x.a ∧ UntypedSrc t x.ty.wide x.b)
      (fun t t' => GivesInt t t' x.ty x.d (t.srcOpd x.ty x.a * t.src x.ty x.b)) ∧
    Completes (.imulh x) x.ctl (fun t => Untyped t x.ty.wide x.a ∧ UntypedSrc t x.ty.wide x.b)
      (fun t t' => GivesInt t t' x.ty x.d
        (t.srcOpd x.ty x.a * t.src x.ty x.b / (2 ^ IntTy.width x.ty : Nat)))) ∧
  (∀ x : IntOp3, x.wfArith = true →
    Completes (.imad x) x.ctl (fun t => Untyped t x.ty.wide x.a ∧ UntypedSrc t x.ty.wide x.b ∧
        Untyped t x.ty.wide x.c)
      (fun t t' => GivesInt t t' x.ty x.d
        (t.srcOpd x.ty x.a * t.src x.ty x.b + t.srcOpd x.ty x.c))) ∧
  ∀ x : IntOp3, x.wfWide = true →
    Completes (.imadw x) x.ctl (fun t => Untyped t false x.a ∧ UntypedSrc t false x.b ∧ Untyped t true x.c)
      (fun t t' => GivesPair t t' x.d (BitVec.ofInt 64 (t.srcOpd x.ty x.a * t.src x.ty x.b +
        (if x.ty.signed then (t.pair x.c).toInt else (t.pair x.c).toNat))))

/-- R65 and R72: IDIV and IREM start a division of the slot's divider, which ends 20 or 36 cycles after
the slot's earlier one, and go on; DIVIDER_COMPLETE writes the quotient toward zero or the matching
remainder, with the fixed results of y = 0 and of the most negative number over −1, and no flag. -/
def Obligations.DivisionsAndTheDivider : Prop :=
  (∀ (x : IntOp) (s : State) (id : ThreadId) (t : Thread) (g : Issue), x.wfArith = true →
    Alone s id t x.ctl → s.issue = some g → g.core < noCore → g.slot < 4 →
    Untyped t x.ty.wide x.a → UntypedSrc t x.ty.wide x.b →
    (∀ p ∈ s.ops, p.2.issued ≠ s.cycle) →
    let a := t.srcOpd x.ty x.a
    let b := t.src x.ty x.b
    ∀ rem : Bool, ∃ s' ws, exec (if rem then .irem x else .idiv x) s = .next s' ∧
      s'.thread id = some t.advance ∧ (∀ j, j ≠ id → s'.thread j = s.thread j) ∧
      (∃ o, s'.ops = tput s.ops s.nextId o ∧ o.th = id ∧ o.pc = t.pc ∧ o.stop = none ∧
        o.kind = .divide ws 0 ∧
        o.due = max ((s.core g.core).slot g.slot).divFree s.cycle + (if x.ty.wide then 36 else 20) ∧
        ((s'.core g.core).slot g.slot).divFree = o.due) ∧
      { s' with threads := s.threads, ops := s.ops, nextId := s.nextId, cores := s.cores } = s ∧
      ∀ u : Thread,
        Holds (u.writeRegs ws) x.ty x.d
          (if rem then (if b = 0 then a else a - b * Int.tdiv a b)
            else if b = 0 then -1 else Int.tdiv a b) ∧
        (∀ n : Fin 192, n.val ∉ regsFrom x.d (wideN x.ty.wide) → (u.writeRegs ws).regs[n] = u.regs[n]) ∧
        u.writeRegs ws = { u with regs := (u.writeRegs ws).regs }) ∧
  ∀ (s : State) (id : ThreadId) (t : Thread) (n : Nat) (o : Op) (ws : List (Nat × VReg)) (fl : BitVec 5),
    s.op n = some o → o.th = id → o.kind = .divide ws fl → o.due ≤ s.cycle → s.thread id = some t →
    exec (.dividerComplete id n) s = .next ((s.delOp n).setThread id
      ((t.writeRegs ws).raiseLate fl (o.fctl.extractLsb' 0 5) o.pc o.field o.armed n))

/-! ## Predicates and control -/

/-- R74 to R77: ICMP writes the condition of two sources read at the type; SEL copies a or b with its
tags; PLOP writes the table's bit of three predicates; PMOV moves the predicates to a register, p7
reading 1, or sets those its mask names from a register; PSET sets those its mask names. -/
def Obligations.ComparesAndPredicates : Prop :=
  (∀ x : IcmpOp, (Instr.icmp x).wf = true →
    Completes (.icmp x) x.ctl (fun t => Untyped t x.ty.wide x.a ∧ UntypedSrc t x.ty.wide x.b) (fun t t' =>
      let a := t.srcOpd x.ty x.a
      let b := t.src x.ty x.b
      ∃ v : Bool, GivesPred t t' x.pd v ∧ match x.cond with
        | .eq => v = decide (a = b)
        | .ne => v = decide (a ≠ b)
        | .lt => v = decide (a < b)
        | .le => v = decide (a ≤ b)
        | .gt => v = decide (a > b)
        | .ge => v = decide (a ≥ b)
        | .ord => False
        | .uno => False)) ∧
  (∀ x : IcmpOp, x.cond = .ord ∨ x.cond = .uno → (Instr.icmp x).wf = false) ∧
  (∀ x : SelOp, (Instr.sel x).wf = true →
    Completes (.sel x) x.ctl (fun _ => True) (fun t t' =>
      if t.predAt x.pc then Copies t t' x.ty.wide x.d x.a
      else match x.b with
        | .reg o => Copies t t' x.ty.wide x.d o
        | .imm w => GivesInt t t' x.ty x.d w.toNat)) ∧
  (∀ x : PlopOp, Completes (.plop x) x.ctl (fun _ => True) (fun t t' =>
    GivesPred t t' x.pd (x.table.getLsbD
      (4 * (t.predAt x.pa).toNat + 2 * (t.predAt x.pc).toNat + (t.predAt x.pz).toNat)))) ∧
  (∀ (x : PmovOp) (d : Opd), x.dir = .toReg d → d.isV = true →
    Completes (.pmov x) x.ctl (fun _ => True) (fun t t' =>
      GivesWord t t' d (0x80 ||| t.preds.setWidth 32))) ∧
  (∀ (x : PmovOp) (a : Opd) (mask : BitVec 7), x.dir = .fromReg a mask →
    Completes (.pmov x) x.ctl (fun _ => True) (fun t t' =>
      (∀ i, i < 7 → t'.preds.getLsbD i =
        if mask.getLsbD i then (t.reg a).bits.getLsbD i else t.preds.getLsbD i) ∧
      t' = { t with preds := t'.preds, pc := t.pc + 1 })) ∧
  ∀ x : PsetOp, Completes (.pset x) x.ctl (fun _ => True) (fun t t' =>
    (∀ i, i < 7 → t'.preds.getLsbD i =
      if x.mask.getLsbD i then x.vals.getLsbD i else t.preds.getLsbD i) ∧
    t' = { t with preds := t'.preds, pc := t.pc + 1 })

/-- R79, R80 and R82: BRA adds its offset to the PC; BRX goes to the index of the byte address in its pair,
and where the address is below code_base, no multiple of 12 from it or beyond 2³² words it takes the bad-
target fault; CALL and CALLX push PC + 1 at the call-stack offset and add 4, or take the overflow fault; RET
takes 4 off and goes to the index there, or takes the underflow fault; NOP only goes on. A call or return
translates the stack's page as global memory is translated, and takes the trap of a translation that fails
(R182, R187; where the private area lies is the model's choice, log entry 20). Only the thread
changes: of its state, the PC, and for calls the offset and the four pushed bytes; beside it only what a
translation leaves. R80: a RET that follows a
CALL in the called routine goes on after the CALL with the call-stack offset as it was, whatever other
registers the routine has changed. R81: EXIT ends the thread: it leaves its crews, drops its holds, its WREG
wait and its watch, and its slot is free once its outstanding loads have landed, whatever divisions and
private stores it still has outstanding (log entry 29); staged stores, scratchpad, tiles and memory stay. -/
def Obligations.BranchesCallsAndReturns : Prop :=
  (
  (∀ x : BrOp, Completes (.bra x) x.ctl (fun _ => True) (fun t t' => t' = { t with pc := t.pc + x.off })) ∧
  (∀ x : NoOp, Completes (.nop x) x.ctl (fun _ => True) (fun t t' => t' = { t with pc := t.pc + 1 })) ∧
  (∀ (x : AOp) (s : State) (id : ThreadId) (t : Thread) (k : KDesc), Alone s id t x.ctl →
    s.kdesc id.launch = some k → Untyped t true x.a →
    let a := (t.pair x.a).toNat
    let c := k.codeBase.toNat
    let good := c ≤ a ∧ (a - c) % 12 = 0 ∧ (a - c) / 12 < 2 ^ 32
    (good → exec (.brx x) s = .next (s.setThread id { t with pc := BitVec.ofNat 32 ((a - c) / 12) })) ∧
    (¬ good → exec (.brx x) s = .next (s.deliver id (.fault causeBadTarget 0xFF) 1)) ∧
    (s.privPending id = false → good → t.cso.toNat + 4 ≤ s.stackBytes id →
      (∀ r s1, s.privAccess id t t.cso.toNat 4 .write = .ok (r, s1) →
        exec (.callx x) s = .next (s1.setThread id
          { t with pc := BitVec.ofNat 32 ((a - c) / 12), cso := t.cso + 4,
                   priv := memWriteN t.priv t.cso.toNat (toLE (t.pc + 1).toNat 4) })) ∧
      (∀ tr, s.privAccess id t t.cso.toNat 4 .write = .error tr →
        exec (.callx x) s = .next (s.deliver id tr 1))) ∧
    (s.privPending id = false → ¬ good →
      exec (.callx x) s = .next (s.deliver id (.fault causeBadTarget 0xFF) 1)) ∧
    (s.privPending id = false → good → s.stackBytes id < t.cso.toNat + 4 →
      exec (.callx x) s = .next (s.deliver id (.fault causeOverflow 0xFF) 1))) ∧
  (∀ (x : BrOp) (s : State) (id : ThreadId) (t : Thread), Alone s id t x.ctl → s.privPending id = false →
    (t.cso.toNat + 4 ≤ s.stackBytes id →
      (∀ r s1, s.privAccess id t t.cso.toNat 4 .write = .ok (r, s1) →
        exec (.call x) s = .next (s1.setThread id
          { t with pc := t.pc + x.off, cso := t.cso + 4,
                   priv := memWriteN t.priv t.cso.toNat (toLE (t.pc + 1).toNat 4) })) ∧
      (∀ tr, s.privAccess id t t.cso.toNat 4 .write = .error tr →
        exec (.call x) s = .next (s.deliver id tr 1))) ∧
    (s.stackBytes id < t.cso.toNat + 4 →
      exec (.call x) s = .next (s.deliver id (.fault causeOverflow 0xFF) 1))) ∧
  (∀ (x : NoOp) (s : State) (id : ThreadId) (t : Thread), Alone s id t x.ctl → s.privPending id = false →
    (t.cso ≠ 0 →
      (∀ s1, s.privAccess id t (t.cso - 4).toNat 4 .read = .ok (true, s1) →
        exec (.ret x) s = .next (s1.setThread id
          { t with cso := t.cso - 4, pc := BitVec.ofNat 32 (leNat (memReadN t.priv (t.cso - 4).toNat 4)) })) ∧
      (∀ tr, s.privAccess id t (t.cso - 4).toNat 4 .read = .error tr →
        exec (.ret x) s = .next (s.deliver id tr 1))) ∧
    (t.cso = 0 → exec (.ret x) s = .next (s.deliver id (.fault causeUnderflow 0xFF) 1))) ∧
  ∀ (s s1 : State) (id : ThreadId) (t : Thread) (off n : Nat) (acc : Access) (r : Bool),
    s.privAccess id t off n acc = .ok (r, s1) → OnlyTranslates s s1) ∧
  (
  ∀ (x : BrOp) (y : NoOp) (s s' s1 u u1 : State) (id : ThreadId) (t t' : Thread) (r : Bool), Alone s id t x.ctl →
    s.privPending id = false → t.cso.toNat + 4 ≤ s.stackBytes id → s.stackBytes id < 2 ^ 32 →
    memWf t.priv = true → s.privAccess id t t.cso.toNat 4 .write = .ok (r, s1) → exec (.call x) s = .next s' →
    Alone u id t' y.ctl → u.privPending id = false →
    (∀ c, s'.thread id = some c → t'.priv = c.priv ∧ t'.cso = c.cso) →
    u.privAccess id t' t.cso.toNat 4 .read = .ok (true, u1) →
    exec (.ret y) u = .next (u1.setThread id { t' with cso := t.cso, pc := t.pc + 1 })) ∧
  (
  ∀ (x : NoOp) (s : State) (id : ThreadId) (t : Thread), Alone s id t x.ctl →
    ∃ s', exec (.exit x) s = .next s' ∧
      (t.loads = 0 → s'.thread id = none) ∧
      (t.loads ≠ 0 → ∃ t', s'.thread id = some t' ∧ t'.await = .exited ∧ t'.crews = [] ∧ t'.holds = [] ∧
        t'.wreg = none ∧ t'.monitor = none ∧ t'.loads = t.loads) ∧
      (∀ p ∈ s'.dies, id ∉ p.2.watches) ∧
      (∀ j, j ≠ id → s'.thread j = s.thread j) ∧
      s'.courses = s.courses ∧ s'.ops = s.ops ∧ s'.mem = s.mem)

/-! ## Memory instructions -/

/-- R85, R87, R90 and R92: an LDS or LDP whose address is untyped, aligned and in range starts a load of the
scratchpad's or the thread's own bytes; STS writes its bytes to the scratchpad at once and STP starts a
private store, which PRIVATE_STORE_PERFORMED makes. LDP and STP translate the pages of the private area,
whose place is the model's choice (log entry 20), and take the trap of a translation that fails (R85, R182);
LDP reads the thread's pending private stores, the choice of log entry 30. LOAD_RETURN writes the loaded registers with the format
byte as tag and takes one off the load counter. No byte of memory changes. R83 and R87: a loaded value fills
the registers of its width, a 1- or 2-byte one sign-extended when m[3] = 1 and zero-extended otherwise, each
with the format byte as its tag; a load to 0xFF writes nothing; a store's bytes are the low bytes of its
registers. -/
def Obligations.ScratchpadAndPrivateAccesses : Prop :=
  (
  (∀ (x : LoadOp) (s : State) (id : ThreadId) (t : Thread) (k : KDesc) (c : Course),
    Alone s id t x.ctl → t.loads < 63 → s.kdesc id.launch = some k → s.course (courseOf id) = some c →
    Untyped t false x.a →
    let a := ((t.reg x.a).bits + x.off.signExtend 32).toNat
    let n := Width.bytes x.width
    a % n = 0 →
    (a + n ≤ k.scratch → s.rangeHeld (courseOf id) a n false = false →
      ∃ s', exec (.lds x) s = .next s' ∧ OnlyThreadAndOps s s' ∧
        Starts s s' id t .load (.load (loadWrites x.width x.sext x.fmt x.d (memReadN c.scratch a n)))) ∧
    (a + n ≤ k.privateBytes - 512 * k.kspill →
      (∀ s1, s.privAccess id t a n .read = .ok (true, s1) →
        ∃ s', exec (.ldp x) s = .next s' ∧ OnlyThreadAndOps s1 s' ∧
          Starts s s' id t .load
            (.load (loadWrites x.width x.sext x.fmt x.d (memReadN (s.privView id t) a n)))) ∧
      (∀ tr, s.privAccess id t a n .read = .error tr → exec (.ldp x) s = .next (s.deliver id tr 1)))) ∧
  (∀ (x : StoreOp) (s : State) (id : ThreadId) (t : Thread) (k : KDesc) (c : Course),
    Alone s id t x.ctl → t.stores < 63 → s.kdesc id.launch = some k → s.course (courseOf id) = some c →
    Untyped t false x.a → t.needData x.width x.fmt x.b = .ok () →
    let a := ((t.reg x.a).bits + x.off.signExtend 32).toNat
    let n := Width.bytes x.width
    a % n = 0 →
    (a + n ≤ k.scratch → s.rangeHeld (courseOf id) a n true = false →
      exec (.sts x) s = .next ((s.setCourse (courseOf id)
        { c with scratch := memWriteN c.scratch a (t.storeBytes x.width x.b) }).setThread id
          { t with pc := t.pc + 1 })) ∧
    (a + n ≤ k.privateBytes - 512 * k.kspill →
      (∀ r s1, s.privAccess id t a n .write = .ok (r, s1) →
        ∃ s', exec (.stp x) s = .next s' ∧ OnlyThreadAndOps s1 s' ∧
          Starts s s' id t .store (.priv a (t.storeBytes x.width x.b))) ∧
      (∀ tr, s.privAccess id t a n .write = .error tr → exec (.stp x) s = .next (s.deliver id tr 1)))) ∧
  (∀ (s : State) (id : ThreadId) (t : Thread) (n : Nat) (o : Op) (a : Nat) (bs : List Byte),
    s.op n = some o → o.th = id → o.kind = .priv a bs → s.thread id = some t → t.await = .ready →
    (∀ p ∈ s.ops, p.2.th = id → (∃ b cs, p.2.kind = .priv b cs) → n ≤ p.1) →
    exec (.privateStorePerformed id n) s = .next ((s.delOp n).setThread id
      { t with priv := memWriteN t.priv a bs, stores := t.stores - 1 })) ∧
  ∀ (s : State) (id : ThreadId) (t : Thread) (n : Nat) (o : Op) (ws : List (Nat × VReg)),
    s.op n = some o → o.th = id → o.stop = none → o.kind = .load ws → s.thread id = some t →
    t.await = .ready →
    exec (.loadReturn id n) s = .next ((s.delOp n).setThread id
      { t with regs := (t.writeRegs ws).regs, loads := t.loads - 1 })) ∧
  (
  ∀ (w : Width) (sext : Bool) (fmt : Tag) (d : Opd) (bs : List Byte) (t : Thread), w.dataOk d = true →
    t.writeRegs (loadWrites w sext fmt .zero bs) = t ∧
    (∀ n : Fin 192, d = .v n → ∀ i, i < Width.regs w →
      (t.writeRegs (loadWrites w sext fmt d bs)).reg (Opd.plus d i) = loadedReg w sext fmt bs i) ∧
    (∀ n : Fin 192, n.val ∉ regsFrom d (Width.regs w) →
      (t.writeRegs (loadWrites w sext fmt d bs)).regs[n] = t.regs[n]) ∧
    t.storeBytes w d = toLE ((t.reg d).bits.toNat + (t.reg (Opd.plus d 1)).bits.toNat * 2 ^ 32 +
      (t.reg (Opd.plus d 2)).bits.toNat * 2 ^ 64 + (t.reg (Opd.plus d 3)).bits.toNat * 2 ^ 96)
      (Width.bytes w))

/-- R85, R86, R91 and R93: an LD whose pair is untyped and aligned and whose page translates starts a load
of the bytes that its course reads there; that they are fixed at issue is the model's choice (log entry 14).
LDC starts one of bytes that each 8-byte word held when the launch began or after some write since; which is
free, word by word (log entry 5). PREF goes on whatever its address holds, waits for nothing and counts nowhere. No byte of memory, no other
thread and no staged store changes. R89: a load of HBM or host memory returns, for each byte that its thread
has a staged store to, the value of the latest such store in program order. -/
def Obligations.GlobalLoadsAndPrefetch : Prop :=
  (
  (∀ (x : LoadOp) (s s1 s2 : State) (id : ThreadId) (t : Thread) (pa key : Nat) (bs : List Byte),
    Alone s id t x.ctl → t.loads < 63 → Untyped t true x.a →
    (t.pair x.a + x.off.signExtend 64).toNat % Width.bytes x.width = 0 →
    s.translateFor id (t.pair x.a + x.off.signExtend 64) .read = .ok (pa, key, s1) →
    s1.loadGlobal id t.acqTs pa key (Width.bytes x.width) x.pol.val s.free = (some bs, s2) →
    ∃ s', exec (.ld x) s = .next s' ∧
      Starts s s' id t .load (.load (loadWrites x.width x.sext x.fmt x.d bs)) ∧
      s'.courses = s.courses ∧ s'.units = s.units) ∧
  (∀ (x : LoadOp) (s s1 : State) (id : ThreadId) (t : Thread) (l : Launch) (pa key : Nat),
    Alone s id t x.ctl → t.loads < 63 → Untyped t true x.a → s.launch id.launch = some l →
    (t.pair x.a + x.off.signExtend 64).toNat % Width.bytes x.width = 0 →
    s.translateFor id (t.pair x.a + x.off.signExtend 64) .read = .ok (pa, key, s1) →
    s.physClass pa = .hbm → s.isPoisoned pa (Width.bytes x.width) = false →
    let n := Width.bytes x.width
    let since := s.past.filter fun w => decide (id.launch < w.no)
    ∃ s' bs, exec (.ldc x) s = .next s' ∧
      (∀ j, 8 * j < n → ∃ k ≤ since.length, (bs.drop (8 * j)).take 8 =
        ({ s1 with mem := l.code, units := l.codeKeys }.replay (since.take k)).readKeyed key (pa + 8 * j)
          (min 8 (n - 8 * j))) ∧
      Starts s s' id t .load (.load (loadWrites x.width x.sext x.fmt x.d bs)) ∧
      s'.courses = s.courses ∧ s'.units = s.units) ∧
  ∀ (x : PrefOp) (s : State) (id : ThreadId) (t : Thread), Alone s id t x.ctl →
    ∃ s', exec (.pref x) s = .next s' ∧ s'.thread id = some { t with pc := t.pc + 1 } ∧
      (∀ j, j ≠ id → s'.thread j = s.thread j) ∧ s'.mem = s.mem ∧ s'.ops = s.ops ∧
      s'.courses = s.courses) ∧
  (
  ∀ (s s2 : State) (id : ThreadId) (c : Course) (acq pa key n pol draw : Nat) (bs : List Byte),
    s.course (courseOf id) = some c → (s.physClass pa = .hbm ∨ s.physClass pa = .host) →
    s.loadGlobal id acq pa key n pol draw = (some bs, s2) →
    bs.length = n ∧ ∀ i b, i < n → stagedByte c.staging id (pa + i) = some b → bs[i]? = some b)

/-- R85, R89, R266 and R267: an ST whose page is writable enters its words in its course's staging buffer
and changes no byte of memory; when a commit registers, each byte that its entries cover takes the value
of the last of them in staging order, every other byte of memory stays, and the entries and the commit
leave the buffer. -/
def Obligations.StoresAreStagedThenRegistered : Prop :=
  (∀ (x : StoreOp) (s s1 : State) (id : ThreadId) (t : Thread) (c : Course) (pa key : Nat),
    Alone s id t x.ctl → t.stores < 63 → Untyped t true x.a → t.needData x.width x.fmt x.b = .ok () →
    (t.pair x.a + x.off.signExtend 64).toNat % Width.bytes x.width = 0 →
    s.translateFor id (t.pair x.a + x.off.signExtend 64) .write = .ok (pa, key, s1) →
    s.course (courseOf id) = some c →
    let es := (storeWords id t.pc x.colour (t.pair x.a + x.off.signExtend 64) pa key
      (t.storeBytes x.width x.b) x.pol s1.cycle).foldl stageWord c.staging
    es.length ≤ 4096 →
    ∃ s', exec (.st x) s = .next s' ∧ s'.thread id = some { t with pc := t.pc + 1 } ∧
      (∀ j, j ≠ id → s'.thread j = s.thread j) ∧ s'.mem = s.mem ∧ s'.ops = s.ops ∧
      s'.courses = tput s.courses (courseOf id) { c with staging := es }) ∧
  ∀ (s : State) (co : CourseId) (c : Course) (m : Commit), s.course co = some c →
    c.commits.find? (fun x => x.id == m.id) = some m → s.commitReady co m = true → memWf s.mem = true →
    let es := c.staging.filter (c.commits_ m)
    s.guardedEntry c.ctx es = none →
    (∀ e ∈ es, s.physClass e.phys = .hbm ∧ s.keyRevoked e.key = false ∧ s.isPoisoned e.phys 8 = false ∧
      e.phys % 8 = 0 ∧ OwnUnit s e.key (e.phys / 64)) →
    (m.fence = false ∨ m.th = none) →
    ∃ s', exec (.commitRegister co m.id) s = .next s' ∧
      (∀ a, memRead s'.mem a = (lastStaged es a).getD (memRead s.mem a)) ∧
      s'.courses = tput s.courses co { c with
        staging := c.staging.filter fun e => !c.commits_ m e,
        commits := c.commits.filter fun x => x.id != m.id,
        committed := c.committed || es.any fun e => e.mask != 0 } ∧
      ∀ n o, s.op n = some o → (∀ k, o.kind ≠ .copy k) → s'.op n = some o

/-- R274 to R276: ACQ, with no load outstanding, records the time from which later loads read fresh
lines; REL takes every staged store of its thread into a commit; FENCE takes those of its colours, with
the earlier ones of the thread for the same words (R267), into a commit and counts until it has registered,
or goes on at once when there is nothing to wait for. No byte of memory and no other thread's store changes,
and of a store that is taken nothing but the commit that takes it. -/
def Obligations.AcquireReleaseAndFence : Prop :=
  (∀ (x : NoOp) (s : State) (id : ThreadId) (t : Thread), Alone s id t x.ctl → t.loads = 0 →
    exec (.acq x) s = .next (s.setThread id { t with pc := t.pc + 1, acqTs := s.gts })) ∧
  (∀ (x : NoOp) (s : State) (id : ThreadId) (t : Thread) (c : Course), Alone s id t x.ctl →
    s.course (courseOf id) = some c →
    ∃ s' c', exec (.rel x) s = .next s' ∧ s'.thread id = some { t with pc := t.pc + 1 } ∧
      (∀ j, j ≠ id → s'.thread j = s.thread j) ∧ s'.mem = s.mem ∧ s'.course (courseOf id) = some c' ∧
      c'.staging.map (fun e => { e with taken := none }) = c.staging.map (fun e => { e with taken := none }) ∧
      (∀ e ∈ c'.staging, e.th = id → e.taken.isSome) ∧
      (∀ e ∈ c'.staging, e.th ≠ id → e ∈ c.staging)) ∧
  ∀ (x : FenceOp) (s : State) (id : ThreadId) (t : Thread) (c : Course), Alone s id t x.ctl →
    t.stores < 63 → s.course (courseOf id) = some c →
    ((x.mask = 0 ∨ (s.commitsOpen id = false ∧
        ∀ e ∈ c.staging, e.th = id → e.taken = none → x.mask.getLsbD e.colour.val = false)) →
      exec (.fence x) s = .next (s.setThread id { t with pc := t.pc + 1 })) ∧
    (x.mask ≠ 0 → ((∃ e ∈ c.staging, e.th = id ∧ e.taken = none ∧ x.mask.getLsbD e.colour.val = true) ∨
        s.commitsOpen id = true) →
      ∃ es : List StageEntry, es.length = c.staging.length ∧
        (∀ (i : Nat) (e e' : StageEntry), c.staging[i]? = some e → es[i]? = some e' →
          ((e.th = id ∧ e.taken = none ∧ ∃ (j : Nat) (f : StageEntry), i ≤ j ∧ c.staging[j]? = some f ∧ f.th = id ∧ f.taken = none ∧
              f.phys = e.phys ∧ x.mask.getLsbD f.colour.val = true) → e' = { e with taken := some s.nextId }) ∧
          (¬ (e.th = id ∧ e.taken = none ∧ ∃ (j : Nat) (f : StageEntry), i ≤ j ∧ c.staging[j]? = some f ∧ f.th = id ∧ f.taken = none ∧
              f.phys = e.phys ∧ x.mask.getLsbD f.colour.val = true) → e' = e)) ∧
        exec (.fence x) s = .next (({ s with nextId := s.nextId + 1 }.setCourse (courseOf id)
          { c with staging := es, commits := c.commits ++ [(⟨s.nextId, some id, true, none⟩ : Commit)] }).setThread id
          { t with pc := t.pc + 1, stores := t.stores + 1 }))

/-- R277 to R280: ATOM, CAS and, outside a deterministic kernel, ATOMD whose word is readable, writable and
aligned start an atomic; in a deterministic kernel ATOMD enters an entry in its core's buffer, or combines
an integer operand into the thread's latest entry of the same word, type and operation; DFLUSH starts a drain of its course's ATOMD entries. -/
def Obligations.AtomicsStart : Prop :=
  (∀ (x : AtomOp) (s s1 s2 : State) (id : ThreadId) (t : Thread) (pa pa' key key' : Nat),
    Alone s id t x.ctl → t.loads < 63 → s.mayRegister (courseOf id) = true →
    Untyped t true x.a → t.need x.ty.wide x.b (AtomTy.tag x.ty) = .ok () →
    (t.pair x.a + x.off.signExtend 64).toNat % (AtomTy.width x.ty / 8) = 0 →
    s.translateFor id (t.pair x.a + x.off.signExtend 64) .read = .ok (pa', key', s1) →
    s1.translateFor id (t.pair x.a + x.off.signExtend 64) .write = .ok (pa, key, s2) →
    let kind (d : Opd) : OpKind := .atomic x.ty (.op x.fn (t.atomOperand x.ty x.b)) d
      (t.pair x.a + x.off.signExtend 64) pa key x.acq
    (∃ s', exec (.atom x) s = .next s' ∧ Starts s s' id t .load (kind x.d)) ∧
    (s.determ id.launch = false →
      ∃ s', exec (.atomd x) s = .next s' ∧ Starts s s' id t .load (kind .zero))) ∧
  (∀ (x : AtomOp) (s s1 s2 : State) (g : Issue) (id : ThreadId) (t : Thread) (pa pa' key key' : Nat),
    Alone s id t x.ctl → t.stores < 63 → s.determ id.launch = true → s.issue = some g →
    g.core = s.coreOf id → g.core < noCore → Untyped t true x.a →
    t.need x.ty.wide x.b (AtomTy.tag x.ty) = .ok () →
    let va := t.pair x.a + x.off.signExtend 64
    va.toNat % (AtomTy.width x.ty / 8) = 0 →
    s.translateFor id va .read = .ok (pa', key', s1) → s1.translateFor id va .write = .ok (pa, key, s2) →
    let old := (s.core g.core).atomd
    old.length < 1024 →
    let b := t.atomOperand x.ty x.b
    ∃ s' n, exec (.atomd x) s = .next s' ∧ s'.thread id = some { t with pc := t.pc + 1 } ∧
      (∀ j, j ≠ id → s'.thread j = s.thread j) ∧ s'.mem = s.mem ∧ s'.ops = s.ops ∧ s.nextId ≤ n ∧ n < s'.nextId ∧
      ((∀ es e es', old = es ++ e :: es' → e.th = id → e.addr.toNat / 8 = va.toNat / 8 →
          (∀ y ∈ es', y.th = id → y.addr.toNat / 8 ≠ va.toNat / 8) →
          e.addr ≠ va ∨ e.ty ≠ x.ty ∨ e.fn ≠ x.fn ∨ x.ty.float = true ∨ e.taken ≠ none) →
        (s'.core g.core).atomd = old ++
          [{ seq := n, th := id, pc := t.pc, addr := va, ty := x.ty, fn := x.fn, operand := b, taken := none,
             stop := none }]) ∧
      (∀ es e es', old = es ++ e :: es' → e.th = id → e.addr = va → e.ty = x.ty → e.fn = x.fn →
        x.ty.float = false → e.taken = none → (∀ y ∈ es ++ es', y.seq ≠ e.seq) →
        (∀ y ∈ es', y.th = id → y.addr.toNat / 8 ≠ va.toNat / 8) →
        (s'.core g.core).atomd = es ++ { e with operand := combineOperand e b } :: es')) ∧
  (∀ (x : CasOp) (s s1 s2 : State) (id : ThreadId) (t : Thread) (pa pa' key key' : Nat),
    Alone s id t x.ctl → t.loads < 63 → s.mayRegister (courseOf id) = true →
    Untyped t true x.a → t.need x.ty.wide x.b (AtomTy.tag x.ty) = .ok () →
    t.need x.ty.wide x.c (AtomTy.tag x.ty) = .ok () →
    (t.pair x.a + x.off.signExtend 64).toNat % (AtomTy.width x.ty / 8) = 0 →
    s.translateFor id (t.pair x.a + x.off.signExtend 64) .read = .ok (pa', key', s1) →
    s1.translateFor id (t.pair x.a + x.off.signExtend 64) .write = .ok (pa, key, s2) →
    ∃ s', exec (.cas x) s = .next s' ∧ Starts s s' id t .load
      (.atomic x.ty (.cas (t.atomOperand x.ty x.b) (t.atomOperand x.ty x.c)) x.d
        (t.pair x.a + x.off.signExtend 64) pa key x.acq)) ∧
  ∀ (x : NoOp) (s : State) (id : ThreadId) (t : Thread) (c : Course), Alone s id t x.ctl →
    t.stores < 63 → s.course (courseOf id) = some c → c.core < noCore →
    ∃ s', exec (.dflush x) s = .next s' ∧ Starts s s' id t .store (.dflush s.nextId) ∧
      ∀ e ∈ (s'.core c.core).atomd, courseOf e.th = courseOf id → e.taken.isSome = true

/-- R278 to R280: when an atomic returns, the word at home takes the new value, every other byte of memory
stays, the destination takes the old one and the load counter falls; ATOMD_DRAIN performs the update of
an entry that a drain has taken, and the entry leaves the buffer. Integer updates are old + b modulo the
width, the smaller, the larger, ∧, ∨, ⊕ and b; CAS stores its new value only where old is the one it
expects. -/
def Obligations.AtomicsAreIndivisible : Prop :=
  (∀ (s : State) (id : ThreadId) (t : Thread) (n : Nat) (o : Op) (ty : AtomTy) (kind : AtomKind) (d : Opd)
      (va : DWord) (pa key : Nat) (acq : Bool),
    s.op n = some o → o.th = id → o.stop = none → o.kind = .atomic ty kind d va pa key acq →
    s.thread id = some t → t.await = .ready → s.mayRegister (courseOf id) = true →
    s.atomicReady n o acq = true →
    s.guarded (s.partOf (s.ctxOf id)) pa = false → s.absentPage (s.partOf (s.ctxOf id)) pa = false →
    s.physClass pa = .hbm →
    let w := AtomTy.width ty / 8
    s.isPoisoned pa w = false → pa % w = 0 → OwnUnit s key (pa / 64) → memWf s.mem = true →
    let old := leNat (memReadN s.mem pa w)
    let new := (kind.apply ty old).1
    ∃ s' t', exec (.atomicReturn id n) s = .next s' ∧
      (∀ a, memRead s'.mem a =
        if pa ≤ a ∧ a < pa + w then BitVec.ofNat 8 (new / 256 ^ (a - pa)) else memRead s.mem a) ∧
      s'.thread id = some t' ∧ t'.regs = (t.writeRegs (atomWrites ty d old)).regs ∧ t'.pc = t.pc ∧
      t'.loads = t.loads - 1 ∧ t'.preds = t.preds ∧ s'.op n = none) ∧
  (∀ (ty : AtomTy) (old : Nat) (b e : DWord), ty.float = false → old < 2 ^ AtomTy.width ty →
    let w := AtomTy.width ty
    let v : Nat := b.toNat % 2 ^ w
    let val (k : Nat) : Int := if AtomTy.signed ty then (BitVec.ofNat w k).toInt else k
    (AtomKind.op .add b).apply ty old = ((old + v) % 2 ^ w, 0) ∧
    (AtomKind.op .min b).apply ty old = (if val old ≤ val v then old else v, 0) ∧
    (AtomKind.op .max b).apply ty old = (if val old ≤ val v then v else old, 0) ∧
    (AtomKind.op .and b).apply ty old = (old &&& v, 0) ∧
    (AtomKind.op .or b).apply ty old = (old ||| v, 0) ∧
    (AtomKind.op .xor b).apply ty old = (old ^^^ v, 0) ∧
    (AtomKind.op .exch b).apply ty old = (v, 0) ∧
    (AtomKind.cas e b).apply ty old = (if old = e.toNat % 2 ^ w then v else old, 0)) ∧
  ∀ (s s1 s2 s3 : State) (co : CourseId) (c : Course) (e : AtomdEntry) (pa key pa' key' old : Nat)
      (fl : BitVec 5),
    s.course co = some c → c.core < noCore → s.mayRegister co = true →
    (s.core c.core).atomd = [e] → courseOf e.th = co → e.taken.isSome = true → e.stop = none →
    s.commitBefore e.th e.seq = false → s.atomicBefore e.th e.seq = false →
    s.translate c.core (s.ctxOf e.th) e.addr .write = (.ok (pa, key), s1) →
    s1.keyRevoked key = false →
    s1.translate c.core (s.ctxOf e.th) e.addr .read = (.ok (pa', key'), s2) →
    s2.performAtomic e.th e.ty (.op e.fn e.operand) pa key = some (old, fl, s3) →
    (∀ p ∈ s.ops, ∀ k, p.2.kind ≠ .dflush k) →
    ∃ s' c', exec (.atomdDrain co) s = .next s' ∧ s'.mem = s3.mem ∧ (s'.core c.core).atomd = [] ∧
      s'.course co = some c' ∧ c'.committed = true

/-! ## Floating point -/

/-- R147 and R150, for FP64, FP32, BF16 and FP16: a magnitude no larger than the largest finite one M lies
at a code or between two neighbours; at a code the result is that code without a flag; between two, the
result is one of them by the mode, nearest with ties to the even code under rne, with nx, and uf when it
lies below the smallest normal magnitude. A larger one rounds to M with nx, or as if to the value a last
place above M, and overflows: with of and nx it gives ∞, or M where the mode does not round away. -/
def Obligations.RoundingGoesToANeighbour : Prop :=
  ∀ (f : Fmt) (mode : Rnd) (draw : Nat) (n : Bool) (m : Nat) (e : Int), f.isB8 = false → 0 < m →
    let x : Rat := m * 2 ^ e
    -- the choice of the upper of two neighbours that x lies between
    let picks (lo : Nat) (up : Bool) : Prop :=
      let below := x - magnitude f lo
      let above := magnitude f (lo + 1) - x
      (mode = .rtz → up = false) ∧ (mode = .rdn → up = n) ∧ (mode = .rup → up = !n) ∧
      (mode = .rne → up = decide (above < below ∨ (above = below ∧ lo % 2 = 1))) ∧
      (mode = .sr → n = false → up = decide ((draw : Rat) < below / (below + above) * 2 ^ 32)) ∧
      (mode = .sr → n = true → up = !decide ((draw : Rat) < above / (below + above) * 2 ^ 32))
    (x ≤ magnitude f f.maxCode → ∃ lo ≤ f.maxCode, magnitude f lo ≤ x ∧
      (magnitude f lo = x → f.round mode draw (.fin n m e) = (f.code n lo, 0)) ∧
      (magnitude f lo ≠ x → lo < f.maxCode ∧ x < magnitude f (lo + 1) ∧ ∃ up : Bool, picks lo up ∧
        f.round mode draw (.fin n m e) = (f.code n (lo + up.toNat),
          fNx ||| (if x < 2 ^ (1 - (f.bias : Int)) then fUf else 0)))) ∧
    (magnitude f f.maxCode < x → ∃ beyond : Bool, (magnitude f (f.maxCode + 1) ≤ x → beyond = true) ∧
      (x < magnitude f (f.maxCode + 1) → picks f.maxCode beyond) ∧
      let away : Prop := mode = .rne ∨ mode = .sr ∨ (mode = .rdn ∧ n = true) ∨ (mode = .rup ∧ n = false)
      (beyond = false → f.round mode draw (.fin n m e) = (f.code n f.maxCode, fNx)) ∧
      (beyond = true → away → f.round mode draw (.fin n m e) = (f.infCode n, fOf ||| fNx)) ∧
      (beyond = true → ¬ away → f.round mode draw (.fin n m e) = (f.code n f.maxCode, fOf ||| fNx)))

/-- R159 and R163: sums, products and fused products are exact before they are rounded; a quotient and a
root are cut below every format's last place, and known to be cut; ∞ − ∞, 0 × ∞, 0 / 0, ∞ / ∞ and the
root of a value below zero are NaNs with nv, and a finite nonzero value over zero is ∞ with dz. -/
def Obligations.ArithmeticIsExact : Prop :=
  (∀ (x y z : FloatVal) (p q r : Rat) (mode : Rnd), valueOf x = some p → valueOf y = some q →
    valueOf z = some r →
    valueOf (x.add y mode).1 = some (p + q) ∧ (x.add y mode).2 = 0 ∧
    valueOf (x.mul y).1 = some (p * q) ∧ (x.mul y).2 = 0 ∧
    valueOf (x.fma y z mode).1 = some (p * q + r) ∧ (x.fma y z mode).2 = 0 ∧
    (q ≠ 0 → ∃ n m e, (x.div y).x = .fin n m e ∧ n = (x.neg != y.neg) ∧ (x.div y).flags = 0 ∧
      (p ≠ 0 → 2 ^ 99 ≤ m) ∧ (m : Rat) * 2 ^ e ≤ (p / q).abs ∧ (p / q).abs < (m + 1 : Nat) * (2 : Rat) ^ e ∧
      ((x.div y).more = true ↔ (m : Rat) * 2 ^ e ≠ (p / q).abs)) ∧
    (q = 0 → p ≠ 0 → x.div y = ⟨.inf (x.neg != y.neg), false, fDz⟩) ∧
    (q = 0 → p = 0 → x.div y = ⟨.nan false, false, fNv⟩) ∧
    (0 < p → ∃ m e, x.sqrt.x = .fin false m e ∧ x.sqrt.flags = 0 ∧ 2 ^ 99 ≤ m ∧
      ((m : Rat) * 2 ^ e) ^ 2 ≤ p ∧ p < ((m + 1 : Nat) * (2 : Rat) ^ e) ^ 2 ∧
      (x.sqrt.more = true ↔ ((m : Rat) * 2 ^ e) ^ 2 ≠ p)) ∧
    (p < 0 → x.sqrt = ⟨.nan false, false, fNv⟩) ∧
    (p = 0 → ∃ e, x.sqrt = ⟨.fin x.neg 0 e, false, 0⟩)) ∧
  (∀ (n : Bool) (x : FloatVal) (p : Rat) (mode : Rnd), valueOf x = some p →
    (FloatVal.inf n).add (.inf n) mode = (.inf n, 0) ∧
    (FloatVal.inf n).add (.inf !n) mode = (.nan false, fNv) ∧
    (FloatVal.inf n).add x mode = (.inf n, 0) ∧ x.add (.inf n) mode = (.inf n, 0) ∧
    (p = 0 → (FloatVal.inf n).mul x = (.nan false, fNv) ∧ x.mul (.inf n) = (.nan false, fNv)) ∧
    (p ≠ 0 → (FloatVal.inf n).mul x = (.inf (n != x.neg), 0) ∧ x.mul (.inf n) = (.inf (x.neg != n), 0)) ∧
    (∀ k, (FloatVal.inf n).div (.inf k) = ⟨.nan false, false, fNv⟩) ∧
    (FloatVal.inf n).div x = ⟨.inf (n != x.neg), false, 0⟩ ∧
    (FloatVal.inf true).sqrt = ⟨.nan false, false, fNv⟩ ∧ (FloatVal.inf false).sqrt = ⟨.inf false, false, 0⟩) ∧
  ∀ (m : Nat) (e : Int) (mode : Rnd), m ≠ 0 →
    ((FloatVal.fin false m e).add (.fin true m e) mode).1 = .fin (mode == .rdn) 0 e

/-- R157 and R159: FADD, FSUB, FMUL and FFMA complete for every gang whose acting threads hold sources of
the type's tag; element by element they read the sources, combine them exactly, round once in the mode
selected and OR the flags of all elements; nothing else but the PC and the generator changes. -/
def Obligations.FloatArithmetic : Prop :=
  (∀ x : FOp, x.wfRegs = true →
    let ok (t : Thread) := Tagged t (FloatTy.tag x.ty) false x.a ∧ TaggedSrc t (FloatTy.tag x.ty) x.b
    let gives (op : Rnd → FloatVal → FloatVal → FloatVal × BitVec 5) (t t' : Thread) : Prop :=
      GivesCode t t' x.d (FloatTy.tag x.ty) (eachElement x.ty (t.fenv x.rnd) fun v e =>
        onceRounded v (FloatTy.fmt x.ty) (fun a b _ => op v.mode a b) (FloatTy.el x.ty (t.reg x.a).bits e)
          (elemOf t x.ty x.b e) 0)
    Completes (.fadd x) x.ctl ok (gives fun m a b => a.add b m) ∧
    Completes (.fsub x) x.ctl ok (gives fun m a b => a.add b.negate m) ∧
    Completes (.fmul x) x.ctl ok (gives fun _ a b => a.mul b)) ∧
  ∀ x : FOp3, x.wf = true →
    Completes (.ffma x) x.ctl
      (fun t => Tagged t (FloatTy.tag x.ty) false x.a ∧ TaggedSrc t (FloatTy.tag x.ty) x.b ∧
        Tagged t (FloatTy.tag x.ty) false x.c)
      (fun t t' => GivesCode t t' x.d (FloatTy.tag x.ty) (eachElement x.ty (t.fenv x.rnd) fun v e =>
        onceRounded v (FloatTy.fmt x.ty) (fun a b c => a.fma b c v.mode) (FloatTy.el x.ty (t.reg x.a).bits e)
          (elemOf t x.ty x.b e) (FloatTy.el x.ty (t.reg x.c).bits e)))

/-- R160 to R162: FMIN and FMAX give the smaller or larger source element unchanged, −0 below +0, and the
other one of a NaN; FCMP writes its condition to a predicate; FCLASS writes a mask with the one bit of the
source's class. A signalling NaN, and for the ordered conditions any NaN, sets nv. -/
def Obligations.FloatSelectionAndComparison : Prop :=
  (∀ x : FOp, x.wfRegs = true →
    let ok (t : Thread) := Tagged t (FloatTy.tag x.ty) false x.a ∧ TaggedSrc t (FloatTy.tag x.ty) x.b
    let f := FloatTy.fmt x.ty
    let gives (first : FloatVal → FloatVal → Bool) (t t' : Thread) : Prop :=
      ∃ r : Nat → Nat,
        (∀ e, e < FloatTy.lanes x.ty →
          let flush (c : Nat) : Nat :=
            if x.ty = .f32 ∧ t.ftz = true ∧ f32Subnormal c = true then c / 2 ^ 31 * 2 ^ 31 else c
          let a := flush (FloatTy.el x.ty (t.reg x.a).bits e)
          let b := flush (elemOf t x.ty x.b e)
          let p := f.read a
          let q := f.read b
          r e = if p.isNan && q.isNan then f.nan else if p.isNan then b else if q.isNan then a
            else if first p q then a else b) ∧
        GivesCode t t' x.d (FloatTy.tag x.ty)
          (if x.ty = .f32 then r 0 else r 0 + 2 ^ 16 * r 1,
            { t.fenvRne with flags := flagIf ((List.range (FloatTy.lanes x.ty)).any fun e =>
              (f.read (FloatTy.el x.ty (t.reg x.a).bits e)).isSnan ||
                (f.read (elemOf t x.ty x.b e)).isSnan) fNv })
    Completes (.fmin x) x.ctl ok (gives fun p q => !q.below p) ∧
    Completes (.fmax x) x.ctl ok (gives fun p q => !p.below q)) ∧
  (∀ (x y : FloatVal) (p q : Rat), valueOf x = some p → valueOf y = some q →
    x.below y = decide (p < q ∨ (p = 0 ∧ q = 0 ∧ x.neg = true ∧ y.neg = false))) ∧
  (∀ x : FcmpOp, (Instr.fcmp x).wf = true →
    Completes (.fcmp x) x.ctl (fun t => Tagged t 0x20 false x.a ∧ TaggedSrc t 0x20 x.b) (fun t t' =>
      let p := t.fenvRne.peek .f32 (t.reg x.a).bits.toNat
      let q := t.fenvRne.peek .f32 (Thread.srcBits t x.b).toNat
      GivesTest t t' x.pd (condOf x.cond p q)
        (flagIf (p.isSnan || q.isSnan || (Cond.ordered x.cond && (p.isNan || q.isNan))) fNv))) ∧
  (∀ (c : Cond) (x y : FloatVal) (p q : Rat), valueOf x = some p → valueOf y = some q →
    condOf c x y = match c with
      | .eq => decide (p = q)
      | .ne => decide (p ≠ q)
      | .lt => decide (p < q)
      | .le => decide (p ≤ q)
      | .gt => decide (q < p)
      | .ge => decide (q ≤ p)
      | .ord => true
      | .uno => false) ∧
  ∀ x : FUn, (Instr.fclass x).wf = true →
    Completes (.fclass x) x.ctl (fun t => Tagged t 0x20 false x.a) (fun t t' =>
      GivesWord t t' x.d (BitVec.ofNat 32 (2 ^ classBit .f32 (t.fenvRne.peek .f32 (t.reg x.a).bits.toNat))))

/-- R165: DADD, DSUB, DMUL, DFMA, DMIN, DMAX, DCMP and DCLASS are their counterparts on FP64 pairs, where
ftz never applies. -/
def Obligations.DoubleArithmetic : Prop :=
  (∀ x : DOp, x.wfPairs = true →
    let ok (t : Thread) := Tagged t 0x40 true x.a ∧ Tagged t 0x40 true x.b
    let gives (op : Rnd → FloatVal → FloatVal → FloatVal × BitVec 5) (t t' : Thread) : Prop :=
      GivesDouble t t' x.d (onceRounded (t.fenv x.rnd) .f64 (fun a b _ => op (t.rnd x.rnd) a b)
        (t.pair x.a).toNat (t.pair x.b).toNat 0)
    Completes (.dadd x) x.ctl ok (gives fun m a b => a.add b m) ∧
    Completes (.dsub x) x.ctl ok (gives fun m a b => a.add b.negate m) ∧
    Completes (.dmul x) x.ctl ok (gives fun _ a b => a.mul b) ∧
    (let least (first : FloatVal → FloatVal → Bool) (t t' : Thread) : Prop :=
      let a := (t.pair x.a).toNat
      let b := (t.pair x.b).toNat
      let p := Fmt.f64.read a
      let q := Fmt.f64.read b
      GivesDouble t t' x.d
        (if p.isNan && q.isNan then Fmt.f64.nan else if p.isNan then b else if q.isNan then a
          else if first p q then a else b,
        { t.fenv x.rnd with flags := flagIf (p.isSnan || q.isSnan) fNv })
    Completes (.dmin x) x.ctl ok (least fun p q => !q.below p) ∧
    Completes (.dmax x) x.ctl ok (least fun p q => !p.below q))) ∧
  (∀ x : DOp3, (Instr.dfma x).wf = true →
    Completes (.dfma x) x.ctl
      (fun t => Tagged t 0x40 true x.a ∧ Tagged t 0x40 true x.b ∧ Tagged t 0x40 true x.c)
      (fun t t' => GivesDouble t t' x.d (onceRounded (t.fenv x.rnd) .f64
        (fun a b c => a.fma b c (t.rnd x.rnd)) (t.pair x.a).toNat (t.pair x.b).toNat (t.pair x.c).toNat))) ∧
  (∀ x : DcmpOp, (Instr.dcmp x).wf = true →
    Completes (.dcmp x) x.ctl (fun t => Tagged t 0x40 true x.a ∧ Tagged t 0x40 true x.b) (fun t t' =>
      let p := Fmt.f64.read (t.pair x.a).toNat
      let q := Fmt.f64.read (t.pair x.b).toNat
      GivesTest t t' x.pd (condOf x.cond p q)
        (flagIf (p.isSnan || q.isSnan || (Cond.ordered x.cond && (p.isNan || q.isNan))) fNv))) ∧
  ∀ x : FUn, (Instr.dclass x).wf = true →
    Completes (.dclass x) x.ctl (fun t => Tagged t 0x40 true x.a) (fun t t' =>
      GivesWord t t' x.d (BitVec.ofNat 32 (2 ^ classBit .f64 (Fmt.f64.read (t.pair x.a).toNat))))

/-- R158 and R163: FDIV, FSQRT, DDIV and DSQRT start a division of 16, 18, 30 or 32 cycles on the slot's
divider and go on; the register writes and flags in flight are those of the quotient or root rounded in
the mode selected. Only the thread, the operations in flight and the divider's time change. -/
def Obligations.FloatDivisionsAndRoots : Prop :=
  ∀ (s : State) (id : ThreadId) (t : Thread) (g : Issue) (c : Ctl), Alone s id t c → s.issue = some g →
    g.core < noCore → g.slot < 4 → (∀ p ∈ s.ops, p.2.issued ≠ s.cycle) →
    (∀ x : FOp, x.ctl = c → (Instr.fdiv x).wf = true → Tagged t 0x20 false x.a → TaggedSrc t 0x20 x.b →
      let r := (t.fenv x.rnd).divC .f32 (t.reg x.a).bits.toNat (Thread.srcBits t x.b).toNat
      ∃ s' ws, exec (.fdiv x) s = .next s' ∧ StartsDivision s s' id t g 16 r.2.gen ws r.2.flags ∧
        ws = match x.d with
          | .v n => [(n.val, ⟨BitVec.ofNat 32 r.1, 0x20⟩)]
          | _ => []) ∧
    (∀ x : FUn, x.ctl = c → (Instr.fsqrt x).wf = true → Tagged t 0x20 false x.a →
      let r := (t.fenv x.rnd).sqrtC .f32 (t.reg x.a).bits.toNat
      ∃ s' ws, exec (.fsqrt x) s = .next s' ∧ StartsDivision s s' id t g 18 r.2.gen ws r.2.flags ∧
        ws = match x.d with
          | .v n => [(n.val, ⟨BitVec.ofNat 32 r.1, 0x20⟩)]
          | _ => []) ∧
    (∀ x : DOp, x.ctl = c → (Instr.ddiv x).wf = true → Tagged t 0x40 true x.a → Tagged t 0x40 true x.b →
      let r := (t.fenv x.rnd).divC .f64 (t.pair x.a).toNat (t.pair x.b).toNat
      ∃ s' ws, exec (.ddiv x) s = .next s' ∧ StartsDivision s s' id t g 30 r.2.gen ws r.2.flags ∧
        ws = match x.d with
          | .v n => [(n.val, ⟨BitVec.ofNat 32 r.1, 0x40⟩), (n.val + 1, ⟨BitVec.ofNat 32 (r.1 / 2 ^ 32), 0x40⟩)]
          | _ => []) ∧
    ∀ x : FUn, x.ctl = c → (Instr.dsqrt x).wf = true → Tagged t 0x40 true x.a →
      let r := (t.fenv x.rnd).sqrtC .f64 (t.pair x.a).toNat
      ∃ s' ws, exec (.dsqrt x) s = .next s' ∧ StartsDivision s s' id t g 32 r.2.gen ws r.2.flags ∧
        ws = match x.d with
          | .v n => [(n.val, ⟨BitVec.ofNat 32 r.1, 0x40⟩), (n.val + 1, ⟨BitVec.ofNat 32 (r.1 / 2 ^ 32), 0x40⟩)]
          | _ => []

/-- R164: FDOT4 adds four exact products of binary8 elements to its FP32 addend and rounds once; an exact
zero is +0, or −0 under rdn; a NaN term, ∞ × 0 and infinite terms of opposite sign give a NaN, the latter
two with nv. -/
def Obligations.Dot4 : Prop :=
  ∀ x : DOp3, (Instr.fdot4 x).wf = true →
    Completes (.fdot4 x) x.ctl
      (fun t => (x.a = .zero ∨ tagClass (t.reg x.a).tag = 5) ∧ (x.b = .zero ∨ tagClass (t.reg x.b).tag = 5) ∧
        Tagged t 0x20 false x.c)
      (fun t t' =>
        let c := (t.fenv x.rnd).peek .f32 (t.reg x.c).bits.toNat
        let el (o : Opd) (e : Nat) : FloatVal := (byteFmt t o).read ((t.reg o).bits.toNat / 256 ^ e % 256)
        ∃ (z : FloatVal) (fl : BitVec 5),
          GivesCode t t' x.d 0x20
            (({ t.fenv x.rnd with flags := flagIf c.isSnan fNv ||| fl } : FEnv).out .f32 z) ∧
          (∀ a b : Fin 4 → Rat, ∀ p : Rat, (∀ e, byteValue t x.a e.val = some (a e)) →
            (∀ e, byteValue t x.b e.val = some (b e)) → valueOf c = some p →
            let sum := a 0 * b 0 + a 1 * b 1 + a 2 * b 2 + a 3 * b 3 + p
            fl = 0 ∧ valueOf z = some sum ∧ (sum = 0 → z.neg = (t.rnd x.rnd == .rdn))) ∧
          ((c.isNan = true ∨ ∃ e < 4, (el x.a e).isNan = true ∨ (el x.b e).isNan = true) → z.isNan = true) ∧
          (∀ e < 4, ∀ n, (el x.a e = .inf n ∧ (el x.b e).isZero = true) ∨
              (el x.b e = .inf n ∧ (el x.a e).isZero = true) → z.isNan = true ∧ fl = fNv) ∧
          (∀ e < 4, ∀ n, ((el x.a e).mul (el x.b e)).1 = .inf n →
            ((∃ k < 4, ((el x.a k).mul (el x.b k)).1 = .inf !n) ∨ c = .inf !n) → z.isNan = true ∧ fl = fNv))

/-- R155, R166 and R167: CVT reads the elements of its source span in order, scales those of an `.x32`
source, and rounds each into the destination format; CVTI rounds an integer into FP32 or FP64, or a value
to an integer, 0 for a NaN and the nearest end of the range beyond it, with nv, and nx where it is not
exact. -/
def Obligations.Conversions : Prop :=
  (∀ (x : CvtOp) (s : State) (id : ThreadId) (t : Thread) (src dst : Fmt) (n : Fin 192),
    (Instr.cvt x).wf = true → Alone s id t x.ctl → x.a = .v n →
    tagFmt (t.reg x.a).tag = some src → tagFmt x.fmt = some dst →
    let k := max src.unit.1 dst.unit.1
    let ls := src.spanRegs k
    let ld := dst.spanRegs k
    spanOk x.a ls (s.regCount id) = true → spanOk x.d ld (s.regCount id) = true →
    (∀ i < ls, (t.reg (Opd.plus x.a i)).tag = (t.reg x.a).tag) →
    let e8 := tagClass (t.reg x.a).tag = 6
    (e8 → Untyped t false x.b) →
    let bitsOf := (List.range ls).foldl (fun acc i => acc + (t.reg (Opd.plus x.a i)).bits.toNat * 2 ^ (32 * i)) 0
    let sc := (t.reg x.b).bits.toNat % 256
    let r := (List.range k).foldl (fun (acc : Nat × FEnv) e =>
      let (y, v) := acc.2.get src (bitsOf / 2 ^ (src.width * e) % 2 ^ src.width)
      let y := if e8 then (if sc = 255 then .nan false else y.scale ((sc : Int) - 127)) else y
      let (c, v) := v.out dst y
      (acc.1 + c * 2 ^ (dst.width * e), v)) (0, t.fenv x.rnd)
    ∃ t', exec (.cvt x) s = .next (s.setThread id t') ∧
      (∀ i < ld, t'.reg (Opd.plus x.d i) = ⟨BitVec.ofNat 32 (r.1 / 2 ^ (32 * i)), x.fmt⟩) ∧
      WritesEnv t t' (regsFrom x.d ld) r.2 x.d.enc) ∧
  ∀ x : CvtiOp, (Instr.cvti x).wf = true →
    let wide := x.fmt == 0x40
    let f : Fmt := if wide then .f64 else .f32
    (x.toFloat = true →
      Completes (.cvti x) x.ctl (fun t => Untyped t x.ty.wide x.a) (fun t t' =>
        ∃ z : FloatVal, valueOf z = some (t.srcOpd x.ty x.a : Int) ∧ z.neg = decide (t.srcOpd x.ty x.a < 0) ∧
          if wide then GivesDouble t t' x.d ((t.fenv x.rnd).out f z)
          else GivesCode t t' x.d x.fmt ((t.fenv x.rnd).out f z))) ∧
    (x.toFloat = false →
      Completes (.cvti x) x.ctl (fun t => Tagged t x.fmt wide x.a) (fun t t' =>
        let code := if wide then (t.pair x.a).toNat else (t.reg x.a).bits.toNat
        let y := (t.fenv x.rnd).peek f code
        let draw := (t.fenv x.rnd).draw
        let lo := (IntTy.range x.ty).1
        let hi := (IntTy.range x.ty).2
        ∃ (r : Int) (fl : BitVec 5),
          GivesIntEnv t t' x.ty x.d r { t.fenv x.rnd with flags := fl, gen := draw.2.gen } ∧
          (y.isNan = true → r = 0 ∧ fl = fNv) ∧
          (y = .inf false → r = hi ∧ fl = fNv) ∧ (y = .inf true → r = lo ∧ fl = fNv) ∧
          ∀ q : Rat, valueOf y = some q →
            let v := rounded (t.rnd x.rnd) draw.1 q
            if hi < v then r = hi ∧ fl = fNv
            else if v < lo then r = lo ∧ fl = fNv
            else r = v ∧ fl = if (v : Rat) = q then 0 else fNx))

/-- R168 and R169: TAGSET gives d the bits of a and the tag that c or, in the dynamic form, b names; a
pair for FP64; on a tile it changes the one tag and no element. TAGGET writes the tag byte, untyped. -/
def Obligations.TagsAreSetAndRead : Prop :=
  (∀ (x : TagsetOp) (s : State) (id : ThreadId) (t : Thread) (tag : Tag), (Instr.tagset x).wf = true →
    Alone s id t x.ctl →
    ((x.b = .zero ∧ tag = x.fmt) ∨ (∃ n, x.b = .v n ∧ (t.reg x.b).tag = 0 ∧
      tag = (t.reg x.b).bits.setWidth 8 ∧ tagValid tag = true)) →
    (∀ n : Fin 192, x.d = .v n → tag ≠ 0x40 →
      ∃ t', exec (.tagset x) s = .next (s.setThread id t') ∧ t'.reg x.d = ⟨(t.reg x.a).bits, tag⟩ ∧
        WritesOnly t t' (regsFrom x.d 1)) ∧
    (x.d = .zero → tag ≠ 0x40 → exec (.tagset x) s = .next (s.setThread id { t with pc := t.pc + 1 })) ∧
    (pairBelow x.d (s.regCount id) = true → pairBelow x.a (s.regCount id) = true → tag = 0x40 →
      ∃ t', exec (.tagset x) s = .next (s.setThread id t') ∧
        (x.d = .zero ∨ (t'.reg x.d = ⟨(t.reg x.a).bits, tag⟩ ∧
          t'.reg (Opd.plus x.d 1) = ⟨(t.reg (Opd.plus x.a 1)).bits, tag⟩)) ∧
        WritesOnly t t' (regsFrom x.d 2)) ∧
    (∀ (n : Fin 8) (r : TileReg), x.d = .t n → tag ≠ 0x40 → s.tileReg id n = some r →
      ∃ s' r', exec (.tagset x) s = .next s' ∧ s'.tileReg id n = some r' ∧
        r'.latest = ⟨tag, r.latest.data⟩ ∧ r'.seen s.cycle = r.seen s.cycle ∧
        s'.thread id = some { t with pc := t.pc + 1 } ∧ (∀ j, j ≠ id → s'.thread j = s.thread j) ∧
        { s' with threads := s.threads, courses := s.courses } = s)) ∧
  ∀ (x : DaOp) (s : State) (id : ThreadId) (t : Thread), (Instr.tagget x).wf = true → Alone s id t x.ctl →
    ∃ t', exec (.tagget x) s = .next (s.setThread id t') ∧
      GivesWord t t' x.d (match x.a with
        | .t n => ((s.readTile id n).tag).setWidth 32
        | o => ((t.reg o).tag).setWidth 32)

/-- R170 and R171: each special function completes for every gang whose acting threads hold a source of
FP32's tag, writes an FP32 code, and gives the sources that R171 lists the results and flags it lists: zeros,
infinities, NaNs and what FLOG2 and FRSQ find negative; under ftz a subnormal source gives what a zero of its
sign gives. -/
def Obligations.SpecialFunctions : Prop :=
  (∀ x : FUn, x.wfV = true →
    let ok (t : Thread) := Tagged t 0x20 false x.a
    let gives (f : Special) (t t' : Thread) : Prop :=
      GivesCode t t' x.d 0x20 (t.fenvRne.special f t.compat (t.reg x.a).bits.toNat)
    Completes (.fexp2 x) x.ctl ok (gives .exp2) ∧
    Completes (.flog2 x) x.ctl ok (gives .log2) ∧
    Completes (.frcp x) x.ctl ok (gives .rcp) ∧
    Completes (.frsq x) x.ctl ok (gives .rsq) ∧
    Completes (.fsin x) x.ctl ok (gives .sin) ∧
    Completes (.fcos x) x.ctl ok (gives .cos) ∧
    Completes (.ftanh x) x.ctl ok (gives .tanh) ∧
    Completes (.fsigm x) x.ctl ok (gives .sigm) ∧
    Completes (.fgelu x) x.ctl ok (gives .gelu)) ∧
  ∀ (v : FEnv) (compat : Bool), v.mode = .rne →
    let gives (f : Special) (c r : Nat) (fl : BitVec 5) : Prop :=
      v.special f compat c = (r, { v with flags := v.flags ||| fl })
    -- ±0
    (gives .exp2 0 0x3F800000 0 ∧ gives .exp2 0x80000000 0x3F800000 0 ∧
      gives .tanh 0 0 0 ∧ gives .tanh 0x80000000 0x80000000 0 ∧
      gives .sigm 0 0x3F000000 0 ∧ gives .sigm 0x80000000 0x3F000000 0 ∧
      gives .gelu 0 0 0 ∧ gives .gelu 0x80000000 0 0 ∧
      gives .log2 0 0xFF800000 fDz ∧ gives .log2 0x80000000 0xFF800000 fDz ∧
      gives .rcp 0 0x7F800000 fDz ∧ gives .rcp 0x80000000 0xFF800000 fDz ∧
      gives .rsq 0 0x7F800000 fDz ∧ gives .rsq 0x80000000 0xFF800000 fDz) ∧
    -- +∞ and −∞
    (gives .exp2 0x7F800000 0x7F800000 0 ∧ gives .exp2 0xFF800000 0 0 ∧
      gives .log2 0x7F800000 0x7F800000 0 ∧ gives .log2 0xFF800000 0x7FC00000 fNv ∧
      gives .rcp 0x7F800000 0 0 ∧ gives .rcp 0xFF800000 0x80000000 0 ∧
      gives .rsq 0x7F800000 0 0 ∧ gives .rsq 0xFF800000 0x7FC00000 fNv ∧
      gives .sin 0x7F800000 0x7FC00000 fNv ∧ gives .sin 0xFF800000 0x7FC00000 fNv ∧
      gives .cos 0x7F800000 0x7FC00000 fNv ∧ gives .cos 0xFF800000 0x7FC00000 fNv ∧
      (let y := interp .tanh compat 1 0
      gives .tanh 0x7F800000 y fNx ∧ gives .tanh 0xFF800000 (2 ^ 31 + y) fNx) ∧
      (let y := interp .sigm compat 1 0
      gives .sigm 0x7F800000 y fNx ∧
        gives .sigm 0xFF800000 (FEnv.subC ⟨.rne, false, 0, 0⟩ .f32 0x3F800000 y).1 fNx) ∧
      gives .gelu 0x7F800000 0x7F800000 0 ∧ gives .gelu 0xFF800000 0xFF800000 0) ∧
    -- NaNs
    (∀ f c, c < 2 ^ 32 → (Fmt.f32.read c).isNan = true →
      gives f c 0x7FC00000 (if (Fmt.f32.read c).isSnan then fNv else 0)) ∧
    -- negative finite values, and subnormals under ftz
    (∀ c, 0x80000000 < c → c < 0xFF800000 → (f32Subnormal c = true → v.ftz = false) →
      gives .log2 c 0x7FC00000 fNv ∧ gives .rsq c 0x7FC00000 fNv) ∧
    ∀ f c, c < 2 ^ 32 → f32Subnormal c = true → v.ftz = true →
      v.special f compat c = v.special f compat (c / 2 ^ 31 * 2 ^ 31)

/-- R175: a row instruction whose tile is tagged FP32, whose row word is legal and untyped, and for which
the row unit has room starts an operation with the registers it read, and its generator goes one step for
every element that it will round stochastically. R175: in a row operation's write cycle, which is that of
the core's oldest one, its registers, its tile and its flags are written, its thread's tile counter falls
and the operation ends; an instruction of the core that issues in that cycle does not see the tile's new
contents, and one that issues four cycles later or after sees them (R124). That the draws are taken at issue and
the tile is read in the write cycle are the model's choices (log entry 47). -/
def Obligations.RowOperations : Prop :=
  (
  ∀ (s : State) (id : ThreadId) (t : Thread) (c : Ctl) (k : KDesc) (a : Fin 8) (b : Opd) (r : RowWord),
    Alone s id t c → t.tileOps < 63 → (s.rowOps (s.coreOf id)).length < 32 → s.kdesc id.launch = some k →
    (s.readTile id a).tag = 0x20 → Untyped t false b → (t.reg b).bits.toNat = rowWordOf r →
    let accepts (i : Instr) (vals : List VReg) (draws : Nat) : Prop :=
      ∃ s', exec i s = .next s' ∧
        s'.thread id = some { (t.countUp .tile) with pc := t.pc + 1, gen := stepGens t.gen draws } ∧
        (∃ o, s'.ops = tput s.ops s.nextId o ∧ o.th = id ∧ o.pc = t.pc ∧ o.stop = none ∧ o.fctl = t.fctl ∧
          o.kind = .row i vals t.gen) ∧
        (∀ j, j ≠ id → s'.thread j = s.thread j) ∧ OnlyThreadAndOps s s'
    (∀ x : RowOp, x.ctl = c → x.a = .t a → x.b = b → RowFits r k.tileRows false → Tagged t 0x20 false x.c →
      accepts (.rmsn x) [t.reg b, t.reg x.c] 0) ∧
    (∀ x : RowOp, x.ctl = c → x.a = .t a → x.b = b → RowFits r k.tileRows true →
      accepts (.smax x) [t.reg b] 0 ∧ accepts (.rowsum x) [t.reg b] 0) ∧
    (∀ x : RowscaleOp, x.ctl = c → x.a = .t a → x.b = b → RowFits r k.tileRows false →
      Tagged t 0x20 false x.c → Tagged t 0x20 false (Opd.plus x.c 1) →
      accepts (.rowscale x) [t.reg b, t.reg x.c, t.reg (Opd.plus x.c 1)]
        (if t.rnd x.rnd = .sr then r.rows * r.len else 0)) ∧
    ∀ x : CvtOp, x.ctl = c → x.a = .t a → x.b = b → RowFits r k.tileRows false →
      accepts (.cvts x) [t.reg b] (if t.rnd x.rnd = .sr then r.rows * r.len else 0)) ∧
  (
  ∀ (s : State) (core n : Nat) (o : Op) (rest : Table Nat Op) (i : Instr) (vals : List VReg) (gen : Word)
      (t : Thread),
    s.rowOps core = (n, o) :: rest → o.kind = .row i vals gen → s.thread o.th = some t → t.await = .ready →
    let r := rowCompute i vals o.fctl gen fun k => match s.tileReg o.th k with
      | some q => q.latest
      | none => ⟨0, []⟩
    ∃ s', exec (.rowOpWriteCycle core) s = .next s' ∧
      s'.thread o.th = some { (t.writeRegs r.regs).raiseLate r.flags (o.fctl.extractLsb' 0 5) o.pc o.field o.armed n
        with tileOps := t.tileOps - 1 } ∧
      (∀ j, j ≠ o.th → s'.thread j = s.thread j) ∧ s'.ops = tdel s.ops n ∧ s'.mem = s.mem ∧
      (r.tile = none → s'.courses = s.courses) ∧
      (∀ k new q, r.tile = some (k, new) → s.tileReg o.th k = some q →
        ∃ q', s'.tileReg o.th k = some q' ∧ q'.latest = new ∧ q'.seen s.cycle = q.seen s.cycle ∧
          ∀ c, s.cycle + 4 ≤ c → q'.seen c = new))

/-- R176 to R180: ROWSUM is the sum of its row in row order; SMAX its maximum and the sum, in row order, of
the exponentials; RMSN multiplies each element by its row's reciprocal root mean square, a correctly rounded
root; ROWSCALE forms x × α + β, or α × e; CVTS gives each block of 32 the scale of R153, each element the code
of its scaled value, and column 32 the scales; a written tile takes the result's tag, zeros past the last
element of its row, and keeps every word outside the columns of its rows. The flags are those of all steps.
That element i of a row draws by the generator's step of its number is the model's choice (log entry 47). -/
def Obligations.RowResults : Prop :=
  (∀ (r : RowWord) (w v1 v2 : VReg) (fctl : BitVec 10) (gen : Word) (tile : Fin 8 → Tile) (a : Fin 8),
    RowFits r 128 false → w.bits.toNat = rowWordOf r → (∀ k, memWf (tile k).data = true) →
    let t : Thread := { Thread.fresh with fctl := fctl, gen := gen }
    let v := t.fenvRne
    let xs (k : Nat) := (tile a).row k r.len
    let word (T : Tile) (k c : Nat) : Nat := leNat (memReadN T.data (512 * k + 4 * c) 4)
    let rowFlags (fl : Nat → BitVec 5) : BitVec 5 := allFlags ((List.range r.rows).map fun j => fl (r.first + j))
    let snan (c : Nat) : BitVec 5 := flagIf (v.peek .f32 c).isSnan fNv
    -- e_i of R177
    let exps (mx y : Nat) : Nat × BitVec 5 :=
      let p := coded (v.subC .f32 y mx)
      let q := coded (v.mulC .f32 p.1 rowL)
      let e := coded (v.special .exp2 t.compat q.1)
      (e.1, p.2 ||| q.2 ||| e.2)
    (∀ x : RowOp, x.a = .t a →
      ∃ sum, rowSumOf t.ftz (xs r.first) = some sum ∧
        rowCompute (.rowsum x) [w] fctl gen tile = ⟨regWrite x.d sum.1, none, sum.2⟩) ∧
    (∀ x : RowOp, x.a = .t a →
      ∃ (mx sum : Nat × BitVec 5),
        mx = (xs r.first).tail.foldl
          (fun m y => ((v.minMaxC .f32 true m.1 y).1, m.2 ||| (v.minMaxC .f32 true m.1 y).2.flags))
          (coded (v.minMaxC .f32 true ((xs r.first).headD 0) ((xs r.first).headD 0))) ∧
        rowSumOf t.ftz ((xs r.first).map fun y => (exps mx.1 y).1) = some sum ∧
        rowCompute (.smax x) [w] fctl gen tile =
          ⟨regWrite x.d mx.1 ++ regWrite (Opd.plus x.d 1) sum.1, none,
            mx.2 ||| allFlags ((xs r.first).map fun y => (exps mx.1 y).2) ||| sum.2⟩) ∧
    (∀ (x : RowOp) (d : Fin 8), x.a = .t a → x.d = .t d →
      ∃ (new : Tile) (fl : Nat → BitVec 5),
        rowCompute (.rmsn x) [w, v1] fctl gen tile = ⟨[], some (d, new), rowFlags fl⟩ ∧ new.tag = 0x20 ∧
        KeepsOutside (tile d) new r r.len ∧
        ∀ k, r.first ≤ k → k < r.first + r.rows →
          ∃ sum, rowSumOf t.ftz ((xs k).map fun y => (v.mulC .f32 y y).1) = some sum ∧
            let mean := (v.peek .f32 sum.1).div (.fin false r.len 0)
            let ms := coded ((v.raise mean.flags).out .f32 mean.x mean.more)
            let total := coded (v.addC .f32 ms.1 v1.bits.toNat)
            let scale := coded (v.recipSqrt total.1)
            new.row k r.len = (xs k).map (fun y => (v.mulC .f32 y scale.1).1) ∧
            fl k = allFlags ((xs k).map fun y => (v.mulC .f32 y y).2.flags) ||| sum.2 ||| ms.2 ||| total.2 |||
              scale.2 ||| allFlags ((xs k).map fun y => (v.mulC .f32 y scale.1).2.flags)) ∧
    (∀ (x : RowscaleOp) (d : Fin 8), x.a = .t a → x.d = .t d →
      let lanes := FloatTy.lanes x.fmt
      let cols := (r.len + lanes - 1) / lanes
      -- element i of row k
      let elem (k i : Nat) : Nat × BitVec 5 :=
        let u : FEnv := { v with mode := t.rnd x.rnd, gen := stepGens gen ((k - r.first) * r.len + i) }
        let y := (xs k).getD i 0
        let al := v1.bits.toNat
        let be := v2.bits.toNat
        if x.exp then
          let e := exps be y
          let p := (v.peek .f32 al).mul (v.peek .f32 e.1)
          let z := coded (u.out (FloatTy.fmt x.fmt) p.1)
          (z.1, e.2 ||| snan al ||| p.2 ||| z.2)
        else
          let p := (v.peek .f32 y).fma (v.peek .f32 al) (v.peek .f32 be) u.mode
          let z := coded (u.out (FloatTy.fmt x.fmt) p.1)
          (z.1, snan y ||| snan al ||| snan be ||| p.2 ||| z.2)
      ∃ new, rowCompute (.rowscale x) [w, v1, v2] fctl gen tile =
          ⟨[], some (d, new), rowFlags fun k => allFlags ((List.range r.len).map fun i => (elem k i).2)⟩ ∧
        new.tag = FloatTy.tag x.fmt ∧ KeepsOutside (tile d) new r cols ∧
        ∀ k i, r.first ≤ k → k < r.first + r.rows → i < cols * lanes →
          FloatTy.el x.fmt (BitVec.ofNat 32 (word new k (i / lanes))) (i % lanes) =
            if i < r.len then (elem k i).1 else 0) ∧
    ∀ (x : CvtOp) (d : Fin 8) (f : Fmt), x.a = .t a → x.d = .t d → tagClass x.fmt = 6 → tagFmt x.fmt = some f →
      -- the values of block j of row k, and its scale
      let block (k j : Nat) : List FloatVal := (((xs k).drop (32 * j)).take 32).map fun c => v.peek .f32 c
      ∃ (new : Tile) (scale : Nat → Nat → Nat),
        let elem (k i : Nat) : Nat × BitVec 5 :=
          let u : FEnv := { t.fenv x.rnd with gen := stepGens gen ((k - r.first) * r.len + i) }
          let c := (xs k).getD i 0
          let z := coded (u.out f ((v.peek .f32 c).scale (127 - (scale k (i / 32) : Int))))
          (z.1, snan c ||| z.2)
        rowCompute (.cvts x) [w] fctl gen tile =
          ⟨[], some (d, new), rowFlags fun k => allFlags ((List.range r.len).map fun i => (elem k i).2)⟩ ∧
        new.tag = x.fmt ∧ KeepsOutside (tile d) new r 33 ∧
        (∀ k j, 32 * j < r.len → r.first ≤ k → k < r.first + r.rows →
          ((∀ y ∈ block k j, ∀ q, valueOf y = some q → q = 0) → scale k j = 127) ∧
          ∀ (y : FloatVal) (q : Rat) (top : Int), y ∈ block k j → valueOf y = some q → 2 ^ top ≤ q.abs →
            (∀ z ∈ block k j, ∀ p, valueOf z = some p → p.abs < 2 ^ (top + 1)) →
            (scale k j : Int) = max 0 (min 254 (top - ((f.bias : Int) - 1) + 127))) ∧
        ∀ k, r.first ≤ k → k < r.first + r.rows →
          (∀ i, i < (r.len + 3) / 4 * 4 →
            (memRead new.data (512 * k + i)).toNat = if i < r.len then (elem k i).1 else 0) ∧
          (∀ c, (r.len + 3) / 4 ≤ c → c < 32 → word new k c = word (tile d) k c) ∧
          ∀ j < 4, (memRead new.data (512 * k + 128 + j)).toNat = if 32 * j < r.len then scale k j else 0) ∧
  ∀ (u : FEnv) (c : Nat) (p : Rat), valueOf (u.peek .f32 c) = some p →
    (0 < p → ∃ (m : Nat) (e : Int) (more : Bool), 2 ^ 99 ≤ m ∧ ((m : Rat) * 2 ^ e) ^ 2 * p ≤ 1 ∧
      1 < ((m + 1 : Nat) * (2 : Rat) ^ e) ^ 2 * p ∧ (more = true ↔ ((m : Rat) * 2 ^ e) ^ 2 * p ≠ 1) ∧
      u.recipSqrt c = u.out .f32 (.fin false m e) more) ∧
    (p < 0 → u.recipSqrt c = (u.raise fNv).out .f32 (.nan false)) ∧
    (p = 0 → u.recipSqrt c = (u.raise fDz).out .f32 (.inf false))

/-! ## Crews and barriers -/

/-- R127 and R128: JOIN gives a new member the lowest rank that no member holds, a member its own rank, and
0xFFFF_FFFF where all 32 are held; LEAVE ends membership and frees the rank; CREW writes the mask of the
ranks held. A crew id above 63 is the illegal-instruction trap. R129: a crew has gathered when every current
member waits for it at one PC, and CREW_GATHER then issues its members, and no other thread, in the slot
whose turn it is; a thread that names a crew of which it is no member takes the illegal-instruction trap and
does not wait. -/
def Obligations.CrewMembershipAndGathering : Prop :=
  (
  (∀ (x : JoinOp) (s : State) (id : ThreadId) (t : Thread), (Instr.join x).wf = true → Alone s id t x.ctl →
    UntypedSrc t false x.b →
    (∀ crew : Fin 64, t.word x.b = crew.val →
      let held := s.ranksHeld (courseOf id) crew
      ∃ t', exec (.join x) s = .next (s.setThread id t') ∧
        ∃ (w : Word) (p : Bool),
          (x.d = .zero ∨ t'.reg x.d = ⟨w, 0⟩) ∧
          (x.pc.val = 7 ∨ t'.preds.getLsbD x.pc.val = p) ∧
          (∀ n, n ≠ x.pc.val → t'.preds.getLsbD n = t.preds.getLsbD n) ∧
          (∀ n : Fin 192, n.val ∉ regsFrom x.d 1 → t'.regs[n] = t.regs[n]) ∧
          t' = { t with regs := t'.regs, preds := t'.preds, crews := t'.crews, pc := t.pc + 1 } ∧
          match t.rankIn crew with
          | some r => w = BitVec.ofNat 32 r.val ∧ p = true ∧ t'.crews = t.crews
          | none =>
            ((∀ r, r ∈ held) ∧ w = 0xFFFFFFFF ∧ p = false ∧ t'.crews = t.crews) ∨
            (∃ r, r ∉ held ∧ (∀ q, q < r → q ∈ held) ∧ w = BitVec.ofNat 32 r.val ∧ p = true ∧
              t'.crews = t.crews ++ [(crew, r)])) ∧
    (64 ≤ t.word x.b → exec (.join x) s = .next (s.deliver id (.illegal x.d.enc) 1))) ∧
  (∀ x : BOp, (Instr.leave x).wf = true →
    Completes (.leave x) x.ctl (fun t => UntypedSrc t false x.b ∧ t.word x.b < 64) (fun t t' =>
      t' = { t with pc := t.pc + 1, crews := t.crews.filter fun c => c.1.val != t.word x.b })) ∧
  ∀ (x : DbOp) (s : State) (id : ThreadId) (t : Thread) (crew : Fin 64), (Instr.crew x).wf = true →
    Alone s id t x.ctl → UntypedSrc t false x.b → t.word x.b = crew.val →
    (s.ranksHeld (courseOf id) crew).Nodup →
    ∃ t' w, exec (.crew x) s = .next (s.setThread id t') ∧ GivesWord t t' x.d w ∧
      ∀ j : Fin 32, w.getLsbD j.val = decide (j ∈ s.ranksHeld (courseOf id) crew)) ∧
  (
  (∀ (s : State) (co : CourseId) (crew : Fin 64) (ms : List Member),
    s.gathered co crew = some ms ↔
      (ms = s.crewMembers co crew ∧ ms ≠ [] ∧
        ∃ pc, ∀ m ∈ ms, m.2.2.await = .crew crew ∧ m.2.2.pc = pc)) ∧
  (∀ (s : State) (co : CourseId) (crew : Fin 64) (c : Course) (ms : List Member),
    s.course co = some c → s.gathered co crew = some ms → c.core < noCore → s.issue = none →
    let sl := (s.core c.core).slot (s.cycle % 4)
    sl.run = none → (∀ m ∈ ms, s.mayPick m.2.1 m.2.2 = true) →
    (∀ m ∈ ms, s.twinned m.2.1 sl.started = false) →
    ∃ s' g r, exec (.crewGather co crew) s = .next s' ∧ s'.issue = some g ∧ g.core = c.core ∧
      g.slot = s.cycle % 4 ∧ g.gathered = true ∧ (∀ id, id ∈ g.gang ↔ id ∈ ms.map (·.2.1)) ∧
      ((s'.core c.core).slot (s.cycle % 4)).run = some r ∧ r.gang = g.gang ∧ r.count = 0 ∧
      s'.mem = s.mem ∧ s'.ops = s.ops ∧ s'.courses = s.courses) ∧
  ∀ (s : State) (id : ThreadId) (t : Thread) (c : Ctl), Alone s id t c →
    (∃ g, s.issue = some g ∧ g.gathered = false) →
    (∀ x : ShflOp, x.ctl = c → t.crewNamed x.crew = none →
      exec (.shfl x) s = .next (s.deliver id (.illegal x.d.enc) 1)) ∧
    (∀ x : VoteOp, x.ctl = c → t.crewNamed x.crew = none →
      exec (.vote x) s = .next (s.deliver id (.illegal (VoteDst.enc x.dst)) 1)) ∧
    (∀ x : CredOp, x.ctl = c → t.crewNamed x.crew = none →
      exec (.cred x) s = .next (s.deliver id (.illegal x.d.enc) 1)) ∧
    ∀ x : CscanOp, x.ctl = c → t.crewNamed x.crew = none →
      exec (.cscan x) s = .next (s.deliver id (.illegal x.d.enc) 1))

/-- R131 and R132: SHFL gives each member the value, with its tags, of the member whose rank its selector
names, or its own where none holds the rank; VOTE gives any, all, the lowest-ranked leader or the ballot
of a predicate. -/
def Obligations.ShufflesAndVotes : Prop :=
  (∀ (x : ShflOp) (s : State) (ms : List Member), (Instr.shfl x).wf = true → CrewIssues s x.crew ms →
    (∀ m ∈ ms, UntypedSrc m.2.2 false x.b) →
    ∃ s', exec (.shfl x) s = .next s' ∧ CrewDoes s s' ms fun m t t' =>
      let k : Int := m.1.val
      let sel : Nat := t.word x.b
      let j : Int := match x.mode with
        | .idx => sel
        | .up => k - sel
        | .down => k + sel
        | .xor => (m.1.val ^^^ (sel % 32) : Nat)
      ∃ src : Thread, (∀ o ∈ ms, (o.1.val : Int) = j → src = o.2.2) ∧
        ((∀ o ∈ ms, (o.1.val : Int) ≠ j) → src = m.2.2) ∧
        (x.d = .zero ∨ (t'.reg x.d = src.reg x.a ∧
          (x.wide = true → t'.reg (Opd.plus x.d 1) = src.reg (Opd.plus x.a 1)))) ∧
        WritesOnly t t' (regsFrom x.d (wideN x.wide))) ∧
  ∀ (x : VoteOp) (s : State) (ms : List Member), (Instr.vote x).wf = true → CrewIssues s x.crew ms →
    let yes (m : Member) : Prop := m.2.2.predAt x.pa = true
    ∃ s', exec (.vote x) s = .next s' ∧ CrewDoes s s' ms fun m t t' =>
      match x.dst with
      | .any p => ∃ v, GivesPred t t' p v ∧ (v = true ↔ ∃ o ∈ ms, yes o)
      | .all p => ∃ v, GivesPred t t' p v ∧ (v = true ↔ ∀ o ∈ ms, yes o)
      | .leader p => ∃ v, GivesPred t t' p v ∧ (v = true ↔ yes m ∧ ∀ o ∈ ms, yes o → m.1 ≤ o.1)
      | .ballot d => ∃ w, GivesWord t t' d w ∧ ∀ j < 32, w.getLsbD j = true ↔ ∃ o ∈ ms, o.1.val = j ∧ yes o

/-- R133: CRED combines the members' values along a pairwise tree by rank, the lower rank on the left;
CSCAN gives each member the combination, in rank order, of the members of its rank or less, or below it,
and the identity where there is none. Integer addition wraps. -/
def Obligations.ReductionsAndScans : Prop :=
  (∀ (x : CredOp) (s : State) (ms : List Member), (Instr.cred x).wf = true → CrewIssues s x.crew ms →
    ms ≠ [] → (∀ m ∈ ms, Tagged m.2.2 (RedTy.tag x.ty) x.ty.wide x.a) →
    ∃ s', exec (.cred x) s = .next s' ∧ CrewDoes s s' ms fun _ t t' =>
      ∃ r, redNode x.ty x.fn t.ftz (fun k => (ms.find? fun o => o.1.val == k).map fun o =>
          redSource x.ty x.a t.ftz o.2.2) 5 0 = some r ∧ GivesRed t t' x.ty x.d r.1 r.2) ∧
  (∀ (x : CscanOp) (s : State) (ms : List Member), (Instr.cscan x).wf = true → CrewIssues s x.crew ms →
    (∀ m ∈ ms, Tagged m.2.2 (RedTy.tag x.ty) x.ty.wide x.a) →
    ∃ s', exec (.cscan x) s = .next s' ∧ CrewDoes s s' ms fun m t t' =>
      let src (o : Member) : Nat := redSource x.ty x.a t.ftz o.2.2
      let step (acc : Nat × BitVec 5) (o : Member) : Nat × BitVec 5 :=
        let r := redOp x.ty x.fn ⟨.rne, t.ftz, 0, 0⟩ acc.1 (src o)
        (r.1, acc.2 ||| r.2.flags)
      match ms.filter fun o => if x.excl then o.1 < m.1 else o.1 ≤ m.1 with
      | [] => GivesRed t t' x.ty x.d (redIdentity x.ty x.fn) 0
      | o :: rest => GivesRed t t' x.ty x.d (rest.foldl step (src o, 0)).1 (rest.foldl step (src o, 0)).2) ∧
  ∀ (ty : RedTy) (v : FEnv) (a b : Nat), RedTy.isFloat ty = false →
    let w := RedTy.width ty
    a < 2 ^ w → b < 2 ^ w →
    let val (n : Nat) : Int := if RedTy.signed ty then (BitVec.ofNat w n).toInt else n
    redOp ty .add v a b = ((a + b) % 2 ^ w, v) ∧
    redOp ty .min v a b = (if val a ≤ val b then a else b, v) ∧
    redOp ty .max v a b = (if val a ≤ val b then b else a, v) ∧
    redOp ty .and v a b = (a &&& b, v) ∧ redOp ty .or v a b = (a ||| b, v) ∧
    redOp ty .xor v a b = (a ^^^ b, v)

/-- R135 and R136: BINIT sets the count of a barrier that nothing uses; BARV and BSYNC arrive, and the
arrival that reaches the count completes the phase and releases every thread that waits on the old one;
BWAIT goes on when the phase has moved from its token's, and otherwise waits, as BSYNC does after an arrival
that is not the last; a thread that goes on after a phase comes, in barrier order, after the commits of its
arrivals (R270). R126: WAIT goes on when all four counters are within its limits, and otherwise holds
the thread at the instruction until they are. -/
def Obligations.CountersAndBarriers : Prop :=
  (
  ∀ (s : State) (id : ThreadId) (t : Thread) (c : Ctl) (co : Course) (n : Fin 16),
    Alone s id t c → t.await = .ready → s.course (courseOf id) = some co → (s.threads.map (·.1)).Nodup →
    (∀ j, s.stepping j = false) →
    let b := co.bars[n]
    let bars (b' : Barrier) : Course := { co with bars := co.bars.set n b' }
    let last : Prop := b.arrived + 1 = b.expected
    let arrived (s' : State) : Prop :=
      (¬ last → s'.courses = tput s.courses (courseOf id) (bars { b with arrived := b.arrived + 1 }) ∧
        ∀ j, j ≠ id → s'.thread j = s.thread j) ∧
      (last → s'.courses = tput s.courses (courseOf id) (bars { b with phase := b.phase + 1, arrived := 0 }) ∧
        ∀ j u, j ≠ id → s.thread j = some u →
          s'.thread j =
            if courseOf j = courseOf id ∧ ∃ ph, u.await = .barrier n ph then
              some { u with await := .ready, pc := u.pc + 1, since := (s.core (s.coreOf j)).picks,
                            overdue := false }
            else some u)
    let room := (s.die (coreDie (s.coreOf id))).purlin.length < 8192
    (∀ x : BinitOp, x.ctl = c → x.bar = n → UntypedSrc t false x.b → 0 < t.word x.b → t.word x.b < 4096 →
      b.arrived = 0 → s.barrierWaiters (courseOf id) n = [] → s.barrierBusy (courseOf id) n = false →
      exec (.binit x) s = .next ((s.setCourse (courseOf id)
        (bars { b with expected := BitVec.ofNat 12 (t.word x.b) })).setThread id { t with pc := t.pc + 1 })) ∧
    (∀ x : BarvOp, x.ctl = c → x.bar = n → (Instr.barv x).wf = true → b.expected ≠ 0 →
      ∃ s' t', exec (.barv x) s = .next s' ∧ s'.thread id = some t' ∧
        GivesWord t t' x.d (b.phase ++ (b.arrived + 1) ++ b.expected) ∧ arrived s' ∧ s'.mem = s.mem) ∧
    (∀ x : BwaitOp, x.ctl = c → x.bar = n → Untyped t false x.b →
      (b.phase ≠ (t.reg x.b).bits.extractLsb' 24 8 →
        exec (.bwait x) s = .next ((s.setThread id { t with pc := t.pc + 1 }).learn id
          (s.phaseBrought (courseOf id) n))) ∧
      (b.phase = (t.reg x.b).bits.extractLsb' 24 8 → room →
        ∃ s', exec (.bwait x) s = .next s' ∧ s'.thread id = some { t with await := .barrier n b.phase } ∧
          (∀ j, j ≠ id → s'.thread j = s.thread j) ∧ s'.courses = s.courses ∧ s'.mem = s.mem)) ∧
    (∀ x : BsyncOp, x.ctl = c → x.bar = n → b.expected ≠ 0 → room →
      ∃ s', exec (.bsync x) s = .next s' ∧ arrived s' ∧ s'.mem = s.mem ∧
        (last → s'.thread id = some { t with pc := t.pc + 1 }) ∧
        (¬ last → s'.thread id = some { t with await := .barrier n b.phase }))) ∧
  (
  ∀ x : WaitOp, Completes (.wait x) x.ctl (fun _ => True) (fun t t' =>
    let within : Prop := t.loads ≤ x.l.toNat ∧ t.stores ≤ x.s.toNat ∧ t.copies ≤ x.c.toNat ∧
      t.tileOps ≤ x.t.toNat
    (within → t' = { t with pc := t.pc + 1 }) ∧
    (¬ within → t' = { t with await := .counters x.l.toNat x.s.toNat x.c.toNat x.t.toNat })))

/-! ## Copies -/

/-- R193: element (k₀, …) of a box lies at base + x₀ × 2^esize + Σ xᵢ × strideᵢ with xᵢ = cᵢ + kᵢ, and is
out of bounds when some xᵢ is negative or at or above its extent; the scale of a block of 32 lies at its
place of the scale plane. R195 to R197 and R202: a CPY, CPYX or CPYO whose command passes R195, over no
range in flight, and a PUBL of whole pages complete: the copy counter rises and the thread goes on, and
a release of its stores goes before; they are accepted once the commits and atomics before them have
registered, with memory as it stands then. R195's checks trap in their order: the tags of the operands, an
uninitialised barrier, a misaligned record.
-/
def Obligations.CopiesAreAccepted : Prop :=
  (
  ∀ (w : BitVec 512) (co : List Int) (ks : List Nat),
    let r := Tlr.read w
    0 < r.ndims → r.ndims ≤ 5 → co.length = r.ndims → ks.length = r.ndims →
    (∀ i < r.ndims, ks.getD i 0 < r.box.getD i 0) →
    let x (i : Nat) : Int := co.getD i 0 + ks.getD i 0
    let n := linearIndex r.box ks
    let inside : Prop := ∀ i < r.ndims, 0 ≤ x i ∧ x i < r.ext.getD i 0
    (¬ inside → r.elemAddr co n = none ∧ (n % 32 = 0 → r.scaleAddr co (n / 32) = none)) ∧
    (inside →
      r.elemAddr co n = some (((List.range r.ndims).foldl (fun a i =>
        a + (x i).toNat * (if i = 0 then 2 ^ r.esize else r.stride.getD i 0)) r.base) % 2 ^ 64) ∧
      (n % 32 = 0 → r.scaleAddr co (n / 32) = some ((r.scaleBase + (x 0).toNat / 32 +
        (r.ext.getD 0 0 + 31) / 32 * (List.range (r.ndims - 1)).foldr (fun i a =>
          (x (i + 1)).toNat + r.ext.getD (i + 1) 0 * a) 0) % 2 ^ 64)))) ∧
  (
  (∀ (s : State) (id : ThreadId) (t : Thread) (c : Ctl) (x : Command) (i : Instr),
    Alone s id t c → CopyRoom s id t →
    ((∃ y : CopyOp, y.ctl = c ∧ ((i = .cpy y ∧ x = CopyOp.command y .cpy) ∨
        (i = .cpyo y ∧ x = CopyOp.command y .cpyo))) ∨
      ∃ y : CopyxOp, y.ctl = c ∧ i = .cpyx y ∧ x = CopyxOp.command y) →
    (∀ r s1, s.checkCopy id t x = .ok (.ok r s1) →
      (∀ a, r.side = .scratch a → s.rangeHeld (courseOf id) a r.bytes (r.kind != .cpyo) = false) →
      (∀ n, r.side = .tile n → s.tileBusy (courseOf id) n (r.kind != .cpyo) = false) →
      ∃ s', exec i s = .next s' ∧ Commands s s' id t r) ∧
    (¬ Tagged t 0 true x.a → exec i s = .next (s.deliver id (.tag x.a) 1)) ∧
    (Tagged t 0 true x.a → (∃ n, x.c = .v n) → ¬ Tagged t 0 false x.c →
      exec i s = .next (s.deliver id (.tag x.c) 1)) ∧
    (Tagged t 0 true x.a → ((∃ n, x.c = .t n) ∨ Tagged t 0 false x.c) → ¬ Tagged t 0 false x.b →
      exec i s = .next (s.deliver id (.tag x.b) 1)) ∧
    (Tagged t 0 true x.a → ((∃ n, x.c = .t n) ∨ Tagged t 0 false x.c) → Tagged t 0 false x.b →
      (∀ n, x.bar = some n → (s.barrier (courseOf id) n).expected = 0 →
        exec i s = .next (s.deliver id (.illegal x.d.enc) 1)) ∧
      ((∀ n, x.bar = some n → (s.barrier (courseOf id) n).expected ≠ 0) → (t.pair x.a).toNat % 64 ≠ 0 →
        exec i s = .next (s.deliver id (.fault causeMisaligned x.d.enc) 1)))) ∧
  (∀ (x : PublOp) (s : State) (id : ThreadId) (t : Thread), Alone s id t x.ctl → t.copies < 63 →
    Tagged t 0 true x.a → Tagged t 0 false x.b →
    (∀ n, x.bar = some n → (s.barrier (courseOf id) n).expected ≠ 0) →
    let base := (t.pair x.a).toNat
    let len := (t.reg x.b).bits.toNat
    base % 65536 = 0 → len % 65536 = 0 → len ≠ 0 →
    ∃ s' r, exec (.publ x) s = .next s' ∧ Commands s s' id t r ∧ r.kind = .publ ∧ r.base = base ∧
      r.len = len ∧ r.keep = x.keep ∧ r.bar = x.bar ∧ r.flipped = false) ∧
  ∀ (x : CpqOp) (s : State) (id : ThreadId) (t : Thread) (c : Course), (Instr.cpq x).wf = true →
    Alone s id t x.ctl → s.course (courseOf id) = some c → s.inflight (courseOf id) < 64 →
    ∃ s' t', exec (.cpq x) s = .next s' ∧ s'.thread id = some t' ∧
      GivesWord t t' x.d ((if c.poison then 1#1 else 0#1) ++ (if c.noshadow then 1#1 else 0#1) ++ (0 : BitVec 4) ++
        c.firstThr ++ (0 : BitVec 10) ++ BitVec.ofNat 6 (s.inflight (courseOf id))) ∧
      s'.course (courseOf id) = some (if x.clr then { c with poison := false, noshadow := false, firstThr := 0 }
        else c) ∧
      (∀ j, j ≠ id → s'.thread j = s.thread j) ∧ s'.mem = s.mem ∧ s'.ops = s.ops)

/-- R194, R197, R198, R200 and R202: when a CPY retires, its elements, fill where out of bounds or
poisoned, stand at their places of scratchpad, the copy counter of its thread falls, and the barrier it
names receives one arrival; a byte at home that nothing has written since the copy's acceptance reads as it
stood then; a CPYO whose pages are not shadowed writes no byte and sets noshadow;
PUBL_FLIP flips the front bit of its leaf and drops the region's translations, or, where a page is no
shadowed leaf, swaps nothing; a flipped PUBL without keep retires. -/
def Obligations.CopiesRetire : Prop :=
  ∀ (s : State) (n : Nat) (o : Op) (c : CopyReq) (t : Thread) (co : Course),
    s.op n = some o → o.stop = none → o.kind = .copy c → s.thread o.th = some t → t.await = .ready →
    s.course (courseOf o.th) = some co → (∀ j, s.stepping j = false) → c.seen.isSome = true →
    let cs := c.coords.map fun w => w.toInt
    let ctx := s.ctxOf o.th
    let ends (s' : State) (co' : Course) : Prop :=
      s'.op n = none ∧ s'.thread o.th = some { t with copies := t.copies - 1 } ∧
      s'.course (courseOf o.th) = some co' ∧ (∀ b, c.bar = some b → co'.bars[b] = arrivedBar co.bars[b]) ∧
      (∀ b, c.bar ≠ some b → co'.bars[b] = co.bars[b])
    (∀ r a ets sts vs ks p q s1 s2 s3 s4, c.kind = .cpy → c.recs.map Tlr.read = [r] → c.side = .scratch a →
      s.copyTargets (fun s va => s.copySource (s.coreOf o.th) ctx (pagePieces va (2 ^ r.esize))) (r.addrs cs).1 =
        (.ok ets, s1) →
      s1.copyTargets (fun s va => s.copySource (s.coreOf o.th) ctx [(va, 1)]) (r.addrs cs).2 = (.ok sts, s2) →
      s2.copyValues (s.partOf ctx) c (2 ^ r.esize) (r.fill % 2 ^ (8 * 2 ^ r.esize)) ets = (vs, p, s3) →
      s3.copyValues (s.partOf ctx) c 1 (r.fill / 256 % 256) sts = (ks, q, s4) →
      ∃ s' co', exec (.copyRetire (courseOf o.th) n) s = .next s' ∧ ends s' co' ∧ s'.mem = s.mem ∧
        co'.poison = (co.poison || p || q) ∧ co'.noshadow = co.noshadow ∧ co'.tiles = co.tiles ∧
        co'.scratch = ks.zipIdx.foldl (fun m v =>
          memWriteN m (a + roundUp (r.elems * 2 ^ r.esize) 16 + v.2) v.1)
          (vs.zipIdx.foldl (fun m v => memWriteN m (a + r.scratchOff v.2) v.1) co.scratch)) ∧
    (∀ k m pa key n, c.seen = some (k, m) → s.physClass pa ≠ .window →
      (∀ w ∈ s.past, k < w.no → w.addr < pa + n → ¬ pa < w.addr + w.bytes.length) →
      s.copyBytes (s.partOf ctx) c pa key n = (({ s with mem := m }).readKeyed key pa n, s)) ∧
    (∀ r es ss s1 s2, c.kind = .cpyo → c.recs.map Tlr.read = [r] →
      s.copyTargets (fun s va => s.copyDest ctx (pagePieces va (2 ^ r.esize))) (r.addrs cs).1 = (.ok es, s1) →
      s1.copyTargets (fun s va => s.copyDest ctx (pagePieces va 1)) (r.addrs cs).2 = (.ok ss, s2) →
      (∀ x ∈ es ++ ss, x = none ∨ x = some .noshadow) → some .noshadow ∈ es ++ ss →
      ∃ s' co', exec (.copyRetire (courseOf o.th) n) s = .next s' ∧ ends s' co' ∧ s'.mem = s.mem ∧
        co'.poison = co.poison ∧ co'.noshadow = true ∧ co'.scratch = co.scratch ∧ co'.tiles = co.tiles) ∧
    (c.kind = .publ → c.flipped = true → c.keep = false →
      ∃ s' co', exec (.copyRetire (courseOf o.th) n) s = .next s' ∧ ends s' co' ∧ s'.mem = s.mem) ∧
    (c.kind = .publ → c.flipped = false → s.mayRegister (courseOf o.th) = true →
      s.cpyoBefore (courseOf o.th) n c = false →
      (s.shadowLeaves ctx c c.pages [] = .ok none →
        ∃ s' co', exec (.publFlip (courseOf o.th) n) s = .next s' ∧ ends s' co' ∧ s'.mem = s.mem ∧
          co'.noshadow = true) ∧
      (∀ pa key, s.shadowLeaves ctx c c.pages [] = .ok (some [(pa, key)]) → OwnUnit s key ((pa + 1) / 64) →
        memWf s.mem = true →
        ∃ s', exec (.publFlip (courseOf o.th) n) s = .next s' ∧
          (∀ a, memRead s'.mem a = if a = pa + 1 then memRead s.mem a ^^^ 0x10 else memRead s.mem a) ∧
          s'.op n = some { o with kind := .copy { c with flipped := true } } ∧
          ∀ k, ∀ e ∈ (s'.core k).tlb ++ (s'.cluster k).tlb ++ (s'.die k).tlb, e.ctx = ctx →
            c.base + c.len ≤ e.page ∨ e.page + e.size ≤ c.base))

/-! ## The matrix engine -/

/-- R203 and R204: MCLM claims the lowest free slots or banks under the lowest free course ids, all or
nothing, and finds them fresh; without room it gives 0, or with wait = 1 stays at the instruction and waits
on the cluster's slots or banks in the Purlin table; a count of 0, above the capacity, or that
a waiting claim could never have is illegal. MREL gives up what the course holds and discards it. -/
def Obligations.EngineClaims : Prop :=
  (∀ (c : Cluster) (co : CourseId) (n : Nat), n ≤ (c.freeOf false).length →
    ∃ c' ids, c.claim co false n = some ((ids.map fun i => 2 ^ i).sum, c') ∧ ids.length = n ∧
      ids = ((List.range 32).filter fun i => i ∉ (c.held co false).map (·.1)).take n ∧
      (∀ j p, j < n → (c.freeOf false)[j]? = some p →
        c'.slots[p]? = some { owner := some (co, ids.getD j 0), elems := [], scales := [], tag := 0,
                              roleB := false, summary := 0 }) ∧
      (∀ p, p ∉ (c.freeOf false).take n → c'.slots[p]? = c.slots[p]?) ∧ c'.banks = c.banks) ∧
  (∀ (c : Cluster) (co : CourseId) (n : Nat), n ≤ (c.freeOf true).length →
    ∃ c' ids, c.claim co true n = some ((ids.map fun i => 2 ^ i).sum, c') ∧ ids.length = n ∧
      ids = ((List.range 4).filter fun i => i ∉ (c.held co true).map (·.1)).take n ∧
      (∀ j p, j < n → (c.freeOf true)[j]? = some p →
        c'.banks[p]? = some { owner := some (co, ids.getD j 0), acc := [], flags := 0 }) ∧
      (∀ p, p ∉ (c.freeOf true).take n → c'.banks[p]? = c.banks[p]?) ∧ c'.slots = c.slots) ∧
  (∀ (x : MclmOp) (s : State) (id : ThreadId) (t : Thread), (Instr.mclm x).wf = true → Alone s id t x.ctl →
    UntypedSrc t false x.b →
    let n := t.word x.b
    let cl := s.clusterOf id
    let held := ((s.cluster cl).held (courseOf id) x.acc).length
    let free := ((s.cluster cl).freeOf x.acc).length
    (n = 0 ∨ capOf x.acc < n ∨ (x.wait = true ∧ capOf x.acc - held < n) →
      exec (.mclm x) s = .next (s.deliver id (.illegal x.d.enc) 1)) ∧
    (0 < n → n ≤ capOf x.acc → (x.wait = false ∨ n ≤ capOf x.acc - held) →
      (∀ mask c', (s.cluster cl).claim (courseOf id) x.acc n = some (mask, c') →
        ∃ t', exec (.mclm x) s = .next ((s.setCluster cl c').setThread id t') ∧
          GivesWord t t' x.d (BitVec.ofNat 32 mask)) ∧
      (free < n → x.wait = false →
        ∃ t', exec (.mclm x) s = .next (s.setThread id t') ∧ GivesWord t t' x.d 0) ∧
      (free < n → x.wait = true → ∀ s1, s.enterWait id (.engine cl x.acc) = .entered s1 →
        let waits : Thread := { t with await := .claim x.acc n x.d s.gts }
        (s1.setThread id waits).closesCycle id (.engine cl x.acc) = none →
        s1.mem = s.mem ∧ s1.clusters = s.clusters ∧ s1.threads = s.threads ∧
          exec (.mclm x) s = .next (s1.setThread id waits)))) ∧
  ∀ (x : MrelOp) (s : State) (id : ThreadId) (t : Thread), Alone s id t x.ctl → UntypedSrc t false x.b →
    let cl := s.clusterOf id
    let asked (i : Nat) : Bool := i < 32 && (t.word x.b).testBit i
    (∀ i, asked i = true → s.idBusy cl (courseOf id) x.acc i = false) →
    ((∃ i, asked i = true ∧ ∀ p, (i, p) ∉ (s.cluster cl).held (courseOf id) x.acc) →
      exec (.mrel x) s = .next (s.deliver id (.illegal 0xFF) 1)) ∧
    ((∀ i, asked i = true → ∃ p, (i, p) ∈ (s.cluster cl).held (courseOf id) x.acc) →
      s.claimWaits cl x.acc = [] → cl < 208 →
      ∃ s', exec (.mrel x) s = .next s' ∧ s'.thread id = some { t with pc := t.pc + 1 } ∧
        (∀ j, j ≠ id → s'.thread j = s.thread j) ∧ s'.mem = s.mem ∧
        (x.acc = false → (s'.cluster cl).banks = (s.cluster cl).banks ∧
          ∀ p : Fin 32, (s'.cluster cl).slots[p] = match (s.cluster cl).slots[p].owner with
            | some (o, i) => if o = courseOf id ∧ asked i = true then EngineSlot.reset
                else (s.cluster cl).slots[p]
            | none => (s.cluster cl).slots[p]) ∧
        (x.acc = true → (s'.cluster cl).slots = (s.cluster cl).slots ∧
          ∀ p : Fin 4, (s'.cluster cl).banks[p] = match (s.cluster cl).banks[p].owner with
            | some (o, i) => if o = courseOf id ∧ asked i = true then Bank.reset
                else (s.cluster cl).banks[p]
            | none => (s.cluster cl).banks[p]))

/-- R205: an MLDS into a slot that its course holds reads 64 bytes of each of 128 tile rows, or 8,192 bytes
of scratchpad, and the scales of an `.x32` source; 40 cycles later the slot takes them with tag and role,
and the tile counter falls. -/
def Obligations.SlotsAreLoaded : Prop :=
  (∀ (x : MldsOp) (s : State) (id : ThreadId) (t : Thread) (k : KDesc) (co : Course),
    Alone s id t x.ctl → s.rangeEntries (s.coreOf id) < 32 → t.tileOps < 63 →
    s.kdesc id.launch = some k → s.course (courseOf id) = some co → Untyped t false x.d →
    let n := (t.reg x.d).bits.toNat
    n < 32 → ((s.cluster (s.clusterOf id)).physOf (courseOf id) false n).isSome = true →
    (∀ e ∈ (s.cluster (s.clusterOf id)).entries, courseOf e.th = courseOf id → n ∉ e.kind.slotIds) →
    let starts (elems scales : Memory) (src : CopySide) : Prop :=
      ∃ s', exec (.mlds x) s = .next s' ∧ OnlyThreadAndOps s s' ∧
        Starts s s' id t .tile (.mlds n x.roleB x.fmt elems scales src) ∧
        ∀ o, s'.op s.nextId = some o → o.due = s.cycle + 40
    (∀ i : Fin 8, x.a = .t i → (s.readTile id i).tag = x.fmt →
      ∃ elems scales, starts elems scales (.tile i) ∧
        (∀ r j, r < 128 → j < 64 → memRead elems (64 * r + j) =
          if r < k.tileRows then memRead (s.readTile id i).data (512 * r + j) else 0) ∧
        ∀ r g, r < 128 → g < 2 → memRead scales (2 * r + g) =
          if tagClass x.fmt = 6 ∧ r < k.tileRows then memRead (s.readTile id i).data (512 * r + 128 + g)
          else 0x7F) ∧
    (∀ i : Fin 192, x.a = .v i → Untyped t false x.a →
      let p := (t.reg x.a).bits.toNat
      let bytes := 8192 + (if tagClass x.fmt = 6 then 256 else 0)
      p % 16 = 0 → p + bytes ≤ s.scratchBytes id → s.rangeHeld (courseOf id) p bytes false = false →
      ∃ elems scales, starts elems scales (.scratch p) ∧
        (∀ j < 8192, memRead elems j = memRead co.scratch (p + j)) ∧
        ∀ j < 256, memRead scales j =
          if tagClass x.fmt = 6 then memRead co.scratch (p + 8192 + j) else 0x7F)) ∧
  ∀ (s : State) (n slot : Nat) (o : Op) (roleB : Bool) (fmt : Tag) (elems scales : Memory) (src : CopySide)
      (t : Thread) (p : Fin 32),
    s.op n = some o → o.kind = .mlds slot roleB fmt elems scales src → o.due ≤ s.cycle →
    s.thread o.th = some t → t.await = .ready → s.clusterOf o.th < 208 →
    (s.cluster (s.clusterOf o.th)).physOf (courseOf o.th) false slot = some p.val →
    let c := s.cluster (s.clusterOf o.th)
    ∃ s', exec (.mldsComplete (s.clusterOf o.th) n) s = .next s' ∧
      s'.thread o.th = some { t with tileOps := t.tileOps - 1 } ∧ s'.op n = none ∧ s'.mem = s.mem ∧
      ∃ e : EngineSlot, s'.cluster (s.clusterOf o.th) = { c with slots := c.slots.set p e } ∧
        e.owner = c.slots[p].owner ∧ e.elems = elems ∧ e.scales = scales ∧ e.tag = fmt ∧ e.roleB = roleB

/-- R206, R207, R213 and R214: an MPOST whose block names slots and a bank of the course with the roles and
tags it states, and MACC and MZERO of banks the course holds, enter the reservation table; a slot or bank
that the course does not hold is the privilege trap. -/
def Obligations.EntriesArePosted : Prop :=
  ∀ (s : State) (id : ThreadId) (t : Thread) (c : Ctl) (k : KDesc) (co : Course),
    Alone s id t c → t.tileOps < 63 → s.kdesc id.launch = some k →
    s.course (courseOf id) = some co → s.clusterOf id < 208 →
    (s.cluster (s.clusterOf id)).entries.length < 32 →
    let e := s.cluster (s.clusterOf id)
    let holds (banks : Bool) (i : Nat) : Prop := (e.physOf (courseOf id) banks i).isSome = true
    (∀ x : MpostOp, x.ctl = c → Untyped t false x.a →
      (∀ n, x.bar = some n → (s.barrier (courseOf id) n).expected ≠ 0) →
      let p := (t.reg x.a).bits.toNat
      p % 64 = 0 → p + 64 ≤ s.scratchBytes id → s.rangeHeld (courseOf id) p 64 false = false →
      let b := leNat (memReadN co.scratch p 64)
      let ia := b % 32
      let ib := b / 32 % 32
      let ic := b / 4096 % 4
      let sa := e.slotOf (courseOf id) ia
      let sb := e.slotOf (courseOf id) ib
      ((¬ holds false ia ∨ ¬ holds false ib ∨ ¬ holds true ic) →
        exec (.mpost x) s = .next (s.deliver id
          (.privilege (match x.bar with | some n => (Opd.b n).enc | none => 0xFF)) 1)) ∧
      (holds false ia → holds false ib → holds true ic → sa.roleB = false → sb.roleB = true →
        sa.tag.toNat = b / 2 ^ 48 % 256 → sb.tag.toNat = b / 2 ^ 56 % 256 →
        ((sa.tag = 0x60 ∧ sb.tag = 0x60) ∨ (sa.tag = 0x20 ∧ sb.tag = 0x20) ∨
          ((tagClass sa.tag = 5 ∨ tagClass sa.tag = 6) ∧ (tagClass sb.tag = 5 ∨ tagClass sb.tag = 6))) →
        b / 2 ^ 64 % 2 ^ 320 = 0 → b / 2 ^ 16 % 2 ^ 32 = 0 → b / 2 ^ 10 % 4 = 0 →
        (sa.tag = 0x20 ∨ b / 2 ^ 14 % 4 = 0) →
        ∃ s', exec (.mpost x) s = .next s' ∧ Posts s s' id t (.pass (BitVec.ofNat 512 b) x.bar))) ∧
    (∀ (x : MaccOp) (n : Fin 8), x.ctl = c → x.d = .t n → Untyped t false x.a → Untyped t false x.b →
      let r0 := (t.reg x.b).bits.toNat
      let bank := (t.reg x.a).bits.toNat
      (r0 > 127 ∨ r0 % 8 ≠ 0 → exec (.macc x) s = .next (s.deliver id (.illegal x.d.enc) 1)) ∧
      (r0 ≤ 127 → r0 % 8 = 0 → ¬ holds true bank →
        exec (.macc x) s = .next (s.deliver id (.privilege x.d.enc) 1)) ∧
      (r0 ≤ 127 → r0 % 8 = 0 → holds true bank →
        ∃ s', exec (.macc x) s = .next s' ∧
          Posts s s' id t (.macc n bank r0 (min k.tileRows (128 - r0)) x.clr))) ∧
    ∀ x : BOp, x.ctl = c → UntypedSrc t false x.b →
      let m := t.word x.b
      (16 ≤ m → exec (.mzero x) s = .next (s.deliver id (.illegal 0xFF) 1)) ∧
      (m < 16 → (∀ i < 4, m.testBit i = true → holds true i) →
        ∃ s', exec (.mzero x) s = .next s' ∧ Posts s s' id t (.mzero (BitVec.ofNat 4 m)))

/-- R208 and R212: a grant takes, of the eligible entries, one that none ranks before, sets its write cycle
to 20 + ⌈n/4⌉, 8 + ⌈rows/4⌉ or 4 cycles later, and counts every other eligible entry as passed over; a pass
holds the next pass off for max(32, ⌈n/2⌉) cycles. -/
def Obligations.EngineGrants : Prop :=
  ∀ (s : State) (cl : Nat), cl < 208 → (s.cluster cl).grantFrom ≤ s.cycle →
    let c := s.cluster cl
    ∀ e, leastBy s.grantBefore (c.entries.filter (s.eligible cl)) = some e →
    (c.entries.map (·.id)).Nodup →
    e ∈ c.entries ∧ s.eligible cl e = true ∧
    (∀ x ∈ c.entries, s.eligible cl x = true → s.grantBefore x e = false) ∧
    ∃ s' n, exec (.engineGrant cl) s = .next s' ∧
      (∀ b bar, e.kind = .pass b bar →
        n = processed b.toNat ((c.slotOf (courseOf e.th) (b.toNat / 32 % 32)).tag == 0x20)
          (c.slotOf (courseOf e.th) (b.toNat / 32 % 32)).summary) ∧
      s' = s.setCluster cl { c with
        entries := c.entries.map fun x =>
          if x.id = e.id then
            { x with write := some (s.cycle + match e.kind with
                | .pass _ _ => 20 + (n + 3) / 4
                | .macc _ _ _ rows _ => 8 + (rows + 3) / 4
                | .mzero _ => 4) }
          else if s.eligible cl x = true then { x with passedOver := x.passedOver + 1 }
          else x,
        grantFrom := s.cycle + 1,
        passFrom := match e.kind with
          | .pass _ _ => s.cycle + max 32 ((n + 1) / 2)
          | _ => c.passFrom }

/-- R209, R211, R213 and R214: in its write cycle a pass adds to each output element, group by group, the
rounded exact sum of its products under the scales; MACC writes rows of a bank to a tile as FP32, ORs the
bank's flags into the thread's and clears them; MZERO clears banks; the entry leaves the table and its
thread's tile counter falls. -/
def Obligations.EngineEntriesWrite : Prop :=
  (∀ (b : Nat) (sa sb : EngineSlot) (bank : Bank) (i n : Nat), i < 128 → n < 128 →
    let sh := shapeOf sa.tag
    let new := ((tget (applyPass b sa sb bank).acc (128 * i + n)).getD 0).toNat
    let old := ((tget bank.acc (128 * i + n)).getD 0).toNat
    (sa.tag = 0x20 → n / 32 ≠ b / 2 ^ 14 % 4 → new = old) ∧
    ((sa.tag ≠ 0x20 ∨ n / 32 = b / 2 ^ 14 % 4) →
      ∃ z : Nat → FloatVal,
        new = (List.range (sh.kp / sh.group)).foldl
          (fun acc g => (plainRne.addC .f32 acc (Fmt.f32.round .rne 0 (z g)).1).1) old ∧
        ∀ g < sh.kp / sh.group,
          let ka := scaleOf sa (2 * i + g)
          let kb := scaleOf sb (128 * g + n)
          (ka = 255 ∨ kb = 255 → (z g).isNan = true) ∧
          (∀ x y : Nat → Rat, ka ≠ 255 → kb ≠ 255 →
            (∀ k < sh.group, valueOf (elemA b sa i (sh.group * g + k)) = some (x k) ∧
              valueOf (elemB sa sb (sh.group * g + k) n) = some (y k)) →
            valueOf (z g) = some ((List.range sh.group).foldl (fun a k => a + x k * y k) 0 *
              2 ^ ((ka : Int) + kb - 254))))) ∧
  ∀ (s : State) (cl : Nat) (e : EngineEntry) (w : Nat) (t : Thread) (co : Course),
    (s.cluster cl).entries.find? (fun x => x.id == e.id) = some e → e.write = some w → w ≤ s.cycle → cl < 208 →
    s.thread e.th = some t → t.await = .ready → s.course (courseOf e.th) = some co →
    (∀ j, s.stepping j = false) →
    let c := s.cluster cl
    ∃ s', exec (.engineEntryWriteCycle cl e.id) s = .next s' ∧ s'.mem = s.mem ∧
      (s'.cluster cl).entries = c.entries.filter (fun x => x.id != e.id) ∧
      (s'.cluster cl).slots = c.slots ∧
      (∀ (b : BitVec 512) (bar : Option (Fin 16)) (p : Fin 4), e.kind = .pass b bar →
        c.physOf (courseOf e.th) true (b.toNat / 4096 % 4) = some p.val →
        s'.thread e.th = some { t with tileOps := t.tileOps - 1 } ∧
        (s'.cluster cl).banks = c.banks.set p { applyPass b.toNat (c.slotOf (courseOf e.th) (b.toNat % 32))
          (c.slotOf (courseOf e.th) (b.toNat / 32 % 32)) c.banks[p] with wrote := some s.cycle } ∧
        ∀ n, bar = some n → s'.barrier (courseOf e.th) n = arrivedBar co.bars[n]) ∧
      (∀ (d : Fin 8) (bank r0 rows : Nat) (clr : Bool) (p : Fin 4) (r : TileReg),
        e.kind = .macc d bank r0 rows clr → c.physOf (courseOf e.th) true bank = some p.val →
        s.tileReg e.th d = some r → memWf r.latest.data = true →
        (∃ r', s'.tileReg e.th d = some r' ∧ r'.latest.tag = 0x20 ∧
          ∀ j k, j < rows → k < 128 → leNat (memReadN r'.latest.data (512 * j + 4 * k) 4) =
            ((tget c.banks[p].acc (128 * (r0 + j) + k)).getD 0).toNat) ∧
        s'.thread e.th = some { (t.raiseLate (flagsOfBank c.banks[p].flags) (e.fctl.extractLsb' 0 5) e.pc e.field e.armed e.id) with
          tileOps := t.tileOps - 1 } ∧
        (s'.cluster cl).banks[p].flags = 0 ∧
        ∀ i, tget (s'.cluster cl).banks[p].acc i =
          if clr = true ∧ 128 * r0 ≤ i ∧ i < 128 * (r0 + rows) then none else tget c.banks[p].acc i) ∧
      (∀ m : BitVec 4, e.kind = .mzero m →
        s'.thread e.th = some { t with tileOps := t.tileOps - 1 } ∧
        ∀ (i : Fin 4) (p : Fin 4), m.getLsbD i.val = true → c.physOf (courseOf e.th) true i.val = some p.val →
          (s'.cluster cl).banks[p].acc = [] ∧ (s'.cluster cl).banks[p].flags = 0)

/-! ## Traversal and closures -/

/-- R224, R225, R228, R238 and R241: a traversal instruction whose spans carry their tags, whose header or
record is aligned and readable, and whose work area, where it has one, is aligned and writable, starts an
operation of the load class with the span and the bytes it read; a misaligned header, record or work area is
the misaligned fault. -/
def Obligations.TraversalsAreAccepted : Prop :=
  ∀ (s : State) (id : ThreadId) (t : Thread) (c : Ctl), Alone s id t c → t.loads < 63 →
    let starts (i : Instr) (a b : DWord) (span : List Word) (bytes : List Byte) : Prop :=
      ∃ s', exec i s = .next s' ∧ Starts s s' id t .load (.traverse i a b span bytes)
    (∀ (x : TraceOp) (hdr : List Byte) (s1 s2 : State), x.ctl = c → Tagged t 0 true x.a → RayTags t x.f64 x.b →
      Tagged t 0 true x.c → s.recordAt id t (t.pair x.a) 64 4 x.d = .ok (hdr, s1) →
      (if x.c = .zero then s2 = s1 else s1.checkArea id (t.pair x.c) x.d = .ok s2) →
      starts (.trace x) (t.pair x.a) (t.pair x.c) (t.spanWords x.b (if x.f64 then 17 else 9)) hdr) ∧
    (∀ x : TraceOp, x.ctl = c → Tagged t 0 true x.a → RayTags t x.f64 x.b → Tagged t 0 true x.c →
      ((t.pair x.a).toNat % 64 ≠ 0 →
        exec (.trace x) s = .next (s.deliver id (.fault causeMisaligned x.d.enc) 1)) ∧
      ∀ hdr s1, s.recordAt id t (t.pair x.a) 64 4 x.d = .ok (hdr, s1) → x.c ≠ .zero →
        (t.pair x.c).toNat % 64 ≠ 0 →
        exec (.trace x) s = .next (s.deliver id (.fault causeMisaligned x.d.enc) 1)) ∧
    (∀ (x : TracecOp) (s1 : State), x.ctl = c → AnswerTags t x.f64 x.d → Tagged t 0 true x.c →
      s.checkArea id (t.pair x.c) x.d = .ok s1 →
      starts (.tracec x) 0 (t.pair x.c) (t.spanWords x.d (if x.f64 then 8 else 5)) []) ∧
    (∀ x : TracecOp, x.ctl = c → AnswerTags t x.f64 x.d → Tagged t 0 true x.c →
      (t.pair x.c).toNat % 64 ≠ 0 →
      exec (.tracec x) s = .next (s.deliver id (.fault causeMisaligned x.d.enc) 1)) ∧
    (∀ (x : ReplayOp) (hdr : List Byte) (s1 s2 : State), x.ctl = c → Tagged t 0 true x.a →
      RayTags t x.f64 x.b → Tagged t 0 true x.c → s.recordAt id t (t.pair x.a) 64 4 x.d = .ok (hdr, s1) →
      s1.checkArea id (t.pair x.c) x.d = .ok s2 →
      starts (.replay x) (t.pair x.a) (t.pair x.c) (t.spanWords x.b (if x.f64 then 17 else 9)) hdr) ∧
    (∀ x : ReplayOp, x.ctl = c → Tagged t 0 true x.a → RayTags t x.f64 x.b → Tagged t 0 true x.c →
      ((t.pair x.a).toNat % 64 ≠ 0 →
        exec (.replay x) s = .next (s.deliver id (.fault causeMisaligned x.d.enc) 1)) ∧
      ∀ hdr s1, s.recordAt id t (t.pair x.a) 64 4 x.d = .ok (hdr, s1) → (t.pair x.c).toNat % 64 ≠ 0 →
        exec (.replay x) s = .next (s.deliver id (.fault causeMisaligned x.d.enc) 1)) ∧
    (∀ x : HitqOp, x.ctl = c → Tagged t 0 true x.a → AnswerTags t x.f64 x.b →
      TaggedSpan t 0 (Opd.plus x.b (if x.f64 then 6 else 3)) 2 →
      let span := t.spanWords x.b (if x.f64 then 8 else 5)
      let kind := (HitSpan.read x.f64 span).kind
      let align := if x.direct = true ∧ kind ≠ 1 then 16 else 64
      (∀ rec s1, s.recordAt id t (t.pair x.a) align
          (if x.direct = false then 4 else if kind = 0 then 3 else if kind = 1 then 8 else 2) x.d =
          .ok (rec, s1) → starts (.hitq x) (t.pair x.a) 0 span rec) ∧
      ((t.pair x.a).toNat % align ≠ 0 →
        exec (.hitq x) s = .next (s.deliver id (.fault causeMisaligned x.d.enc) 1))) ∧
    ∀ (x : DirectOp) (rec : List Byte) (s1 : State), x.ctl = c → Tagged t 0 true x.a → RayTags t x.f64 x.b →
      let span := t.spanWords x.b (if x.f64 then 17 else 9)
      let fault : Host.Outcome State Fault Refusal := .next (s.deliver id (.fault causeMisaligned x.d.enc) 1)
      ((t.pair x.a).toNat % 64 ≠ 0 → exec (.asph x) s = fault ∧ exec (.boxx x) s = fault) ∧
      ((t.pair x.a).toNat % 16 ≠ 0 → exec (.trix x) s = fault) ∧
      (s.recordAt id t (t.pair x.a) 64 8 x.d = .ok (rec, s1) → starts (.asph x) (t.pair x.a) 0 span rec) ∧
      (s.recordAt id t (t.pair x.a) 16 3 x.d = .ok (rec, s1) → starts (.trix x) (t.pair x.a) 0 span rec) ∧
      (s.recordAt id t (t.pair x.a) 64 4 x.d = .ok (rec, s1) → starts (.boxx x) (t.pair x.a) 0 span rec)

/-- R228 and R255: when a traversal or closure operation completes, its registers are written, its load
counter falls and the operation ends; a byte that cannot be translated stops it on a fault-queue entry
instead, with its progress, and nothing is written. What it writes: R225: the hit span of a miss, an error or a
hit. R226: a bad ray, a poisoned or bad header and an empty ray of TRACE; the least (t, identity) of the valid
tests; TRACE over a leaf of one primitive. R230 and R232: the tests of a triangle that no edge function meets at
zero, and of an asphere. R234 and R235: TRACEC with bad state, and with the answer to a walk's last candidate.
R237: REPLAY of a log that is too long, that holds a node visit, or that holds one test. R240: HITQ. R227 and
R241: BOXX, where the smaller bound of a slab is rounded down and the larger up (log entry 80), and what ASPH and
TRIX report of a bad ray and an unreadable record. -/
def Obligations.UnitOperationsComplete : Prop :=
  (
  ∀ (s : State) (id : ThreadId) (n : Nat) (o : Op) (t : Thread), s.op n = some o → o.th = id → o.stop = none →
    s.thread id = some t → t.await = .ready →
    let lands (e : Instr) (r : Completion) : Prop :=
      ∃ s', exec e s = .next s' ∧ s'.op n = none ∧ s'.mem = r.s.mem ∧
        s'.thread id = some { t with regs := (t.writeRegs r.writes).regs, loads := t.loads - 1 }
    let stops (e : Instr) (o' : Op) : Prop :=
      ∃ s' tk, exec e s = .next s' ∧ s'.op n = some { o' with stop := some tk } ∧ s'.thread id = some t
    (∀ i a c span bytes, o.kind = .traverse i a c span bytes →
      (∀ r, s.traverseDone o t.acqTs i a c span bytes = .ok r → r.s.overflowed [id] = [] →
        r.s.thread id = some t → lands (.traversalComplete id n) r) ∧
      (∀ hv cause va w s1, s.traverseDone o t.acqTs i a c span bytes = .error (.fault hv cause va, w, s1) →
        s1.op n = some o → s1.thread id = some t → stops (.traversalComplete id n) { o with walk := w })) ∧
    (∀ i ks span, o.kind = .closure i ks span →
      (∀ r, s.closureDone ⟨id, t.acqTs, n⟩ i ks span = .ok r → r.s.thread id = some t →
        lands (.closureOpComplete id n) r) ∧
      (∀ hv cause va s1 o', s.closureDone ⟨id, t.acqTs, n⟩ i ks span = .error (.fault hv cause va, s1) →
        s1.op n = some o' → s1.thread id = some t → stops (.closureOpComplete id n) o') ∧
      (∀ st s1 o', s.closureDone ⟨id, t.acqTs, n⟩ i ks span = .error (.poison st, s1) →
        s1.op n = some o' → s1.thread id = some t →
        lands (.closureOpComplete id n) ⟨poisonWrites i st s1.free, s1⟩))) ∧
  -- hit spans (R225)
  (∀ (n : Fin 192) (t u w : Nat) (prim status : Word),
    hitWrites false (.v n) t u w prim status =
      [(n.val, ⟨BitVec.ofNat 32 t, 0x20⟩), (n.val + 1, ⟨BitVec.ofNat 32 u, 0x20⟩),
       (n.val + 2, ⟨BitVec.ofNat 32 w, 0x20⟩), (n.val + 3, ⟨prim, 0⟩), (n.val + 4, ⟨status, 0⟩)] ∧
    hitWrites true (.v n) t u w prim status =
      [(n.val, ⟨BitVec.ofNat 32 t, 0x40⟩), (n.val + 1, ⟨BitVec.ofNat 32 (t / 2 ^ 32), 0x40⟩),
       (n.val + 2, ⟨BitVec.ofNat 32 u, 0x40⟩), (n.val + 3, ⟨BitVec.ofNat 32 (u / 2 ^ 32), 0x40⟩),
       (n.val + 4, ⟨BitVec.ofNat 32 w, 0x40⟩), (n.val + 5, ⟨BitVec.ofNat 32 (w / 2 ^ 32), 0x40⟩),
       (n.val + 6, ⟨prim, 0⟩), (n.val + 7, ⟨status, 0⟩)] ∧
    missWrites false (.v n) status = hitWrites false (.v n) 0x7F800000 0 0 0xFFFFFFFF status ∧
    missWrites true (.v n) status = hitWrites true (.v n) 0x7FF0000000000000 0 0 0xFFFFFFFF status) ∧
  -- the closest of many tests (R226)
  (∀ (w : Walk) (tests : List (Nat × Nat × Hit)), w.best = none → w.theRay.anyhit = false →
    (∀ x ∈ tests, x.1 < 3 ∧ x.2.1 < 2 ^ 26) →
    let valid (x : Nat × Nat × Hit) : Prop := Arith.le w.theRay.fmt w.theRay.tmin x.2.2.t = true ∧
      Arith.le w.theRay.fmt x.2.2.t w.theRay.tmax = true
    let w' := tests.foldl (fun w x => w.offer x.1 x.2.1 (some x.2.2) 0) w
    (w'.best = none → ∀ x ∈ tests, ¬ valid x) ∧
    ∀ b, w'.best = some b →
      (∃ x ∈ tests, valid x ∧ b.t = x.2.2.t ∧ b.u = x.2.2.u ∧ b.w = x.2.2.w ∧ b.id = primId x.1 x.2.1) ∧
      ∀ x ∈ tests, valid x → Arith.lt w.theRay.fmt b.t x.2.2.t = true ∨
        (Arith.le w.theRay.fmt b.t x.2.2.t = true ∧ b.id ≤ primId x.1 x.2.1)) ∧
  -- TRACE without a work area
  (∀ (x : TraceOp) (s : State) (o : Op) (acq : Nat) (span : List Word) (hdr : List Byte), x.c = .zero →
    x.log = false → o.walk = none →
    let r := Ray.ofList x.f64 (rayValues x.f64 span)
    let h := Header.read hdr
    let answers (ws : List (Nat × VReg)) (s' : State) : Prop :=
      s.traverseDone o acq (.trace x) 0 0 span hdr = .ok ⟨ws, s'⟩
    let miss (result why : Nat) : List (Nat × VReg) :=
      missWrites x.f64 x.d (statusWord result why r.wave false false 0)
    (r.bad = true → answers (miss 15 4) s) ∧
    (r.bad = false → hdr = [] → answers (miss 15 3) s) ∧
    (r.bad = false → hdr ≠ [] → h.ok = false → answers (miss 15 2) s) ∧
    (r.bad = false → hdr ≠ [] → h.ok = true → r.empty = true → answers (miss 0 0) s) ∧
    ∀ bs bs' rec s1 s2 s3, r.bad = false → hdr ≠ [] → h.ok = true → r.empty = false →
      s.unitRead o.th acq h.nodeBase 4 = .ok (bs, s1) →
      (((Node.read bs).box.test r (r.far none) = none ∨ (Node.read bs).mask &&& r.mask = 0) →
        answers (miss 0 0) s1) ∧
      ((Node.read bs).box.test r (r.far none) ≠ none → (Node.read bs).mask &&& r.mask ≠ 0 →
        s1.unitRead o.th acq h.nodeBase 4 = .ok (bs', s2) →
        let leaf := Node.read bs'
        leaf.ok h = true → leaf.kind = 1 → leaf.count = 1 → leaf.pkind < 2 →
        s2.unitRead o.th acq (h.addr leaf.pkind leaf.first) (if leaf.pkind = 0 then 3 else 8) = .ok (rec, s3) →
        answers (oneTest x.f64 x.d r leaf.pkind leaf.first (leNat rec)) s3)) ∧
  -- REPLAY
  (∀ (x : ReplayOp) (s s1 s2 : State) (o : Op) (acq phys : Nat) (c : DWord) (span : List Word) (hdr bs : List Byte),
    o.walk = none →
    let r := Ray.ofList x.f64 (rayValues x.f64 span)
    let h := Header.read hdr
    let answers (ws : List (Nat × VReg)) (s' : State) : Prop :=
      s.traverseDone o acq (.replay x) 0 c span hdr = .ok ⟨ws, s'⟩
    let miss (result why : Nat) : List (Nat × VReg) :=
      missWrites x.f64 x.d (statusWord result why r.wave false false 0)
    r.bad = false → hdr ≠ [] → h.ok = true → s.areaPhys o.th c true = .ok (phys, s1) →
    s1.unitRead o.th acq (c + 0x2F0).toNat 65 = .ok (bs, s2) →
    let count := leNat ((bs.drop 12).take 4) % 512
    let e := leNat ((bs.drop 16).take 4) % 2 ^ 32
    let kind := e / 2 ^ 26 % 4
    let j := e % 2 ^ 26
    (256 < count → answers (miss 15 2) s2) ∧
    (count ≤ 256 → r.empty = true → answers (miss 0 0) s2) ∧
    (count = 1 → r.empty = false → e / 2 ^ 30 = 0 → answers (miss 0 0) s2) ∧
    (count = 1 → r.empty = false → (2 ≤ e / 2 ^ 30 ∨ (e / 2 ^ 30 = 1 ∧ (kind = 3 ∨ (h.kind kind).1 ≤ j))) →
      answers (miss 15 2) s2) ∧
    ∀ rec s3, count = 1 → r.empty = false → e / 2 ^ 30 = 1 → kind < 2 → j < (h.kind kind).1 →
      s2.unitRead o.th acq (h.addr kind j) (if kind = 0 then 3 else 8) = .ok (rec, s3) →
      answers (oneTest x.f64 x.d r kind j (leNat rec)) s3) ∧
  -- TRACEC
  (∀ (x : TracecOp) (s s1 s2 : State) (o : Op) (acq phys : Nat) (c : DWord) (span : List Word) (bs : List Byte),
    o.walk = none → s.areaPhys o.th c true = .ok (phys, s1) → s1.unitRead o.th acq c.toNat 48 = .ok (bs, s2) →
    let found := s2.suspended.find? fun e => e.ctx == s2.ctxOf o.th && e.phys == phys
    let answers (ws : List (Nat × VReg)) (s' : State) : Prop :=
      s.traverseDone o acq (.tracec x) 0 c span [] = .ok ⟨ws, s'⟩
    ((found = none ∨ ∃ e, found = some e ∧ (e.image ≠ bs.take 764 ∨ e.walk.f64 ≠ x.f64)) →
      answers (missWrites x.f64 x.d (statusWord 15 5 0 false false 0)) s2) ∧
    ∀ e s3, found = some e → e.image = bs.take 764 → e.walk.f64 = x.f64 → e.walk.log = false → e.walk.stack = [] →
      e.walk.leaf = some (2, e.walk.cand, e.walk.cand + 1) → e.walk.failed = none → e.walk.best = none →
      e.walk.pending = [] → e.walk.cand < 2 ^ 26 →
      s2.areaWrites o.th o.pc c [(0x200, freeBytes s2.free 252)] = .ok s3 →
      let w := e.walk
      let vals := rayValues x.f64 (span ++ List.replicate 17 0)
      let t := vals.getD 0 0
      let status (result : Nat) : Word :=
        statusWord result w.why.toNat w.theRay.wave w.uskip w.ovf w.count
      let s4 : State := { s3 with free := s3.free + 1,
                                  suspended := s3.suspended.filter fun y => !(y.ctx == e.ctx && y.phys == phys) }
      answers (if x.accept = true ∧ Arith.le w.theRay.fmt w.theRay.tmin t = true ∧
            Arith.le w.theRay.fmt t w.theRay.tmax = true then
          hitWrites x.f64 x.d t (vals.getD 1 0) (vals.getD 2 0) (BitVec.ofNat 32 (primId 2 w.cand)) (status 3)
        else missWrites x.f64 x.d (status 0)) s4) ∧
  -- HITQ
  (∀ (x : HitqOp) (s : State) (o : Op) (acq : Nat) (a : DWord) (span : List Word) (bytes : List Byte),
    let h := HitSpan.read x.f64 span
    let answers (ws : List (Nat × VReg)) (s' : State) : Prop :=
      s.traverseDone o acq (.hitq x) a 0 span bytes = .ok ⟨ws, s'⟩
    let geo : Prop := x.query = .pos ∨ x.query = .nrm
    let some_ : Prop := h.result ≠ 0 ∧ h.result ≠ 15 ∧ (h.result = 4 → ¬ geo) ∧ h.kind < 3
    let hd := Header.read bytes
    (¬ some_ → answers (hitqZeros x) s) ∧
    (some_ → bytes ≠ [] → (geo → h.kind < 2) → x.direct = true →
      answers (hitAnswer x h a.toNat (leNat bytes)) { s with free := s.free + 6 }) ∧
    (some_ → bytes ≠ [] → x.direct = false → (hd.kind h.kind).1 ≤ h.index → answers (hitqZeros x) s) ∧
    ∀ rec s1, some_ → bytes ≠ [] → (geo → h.kind < 2) → x.direct = false → h.index < (hd.kind h.kind).1 →
      s.unitRead o.th acq (hd.addr h.kind h.index) ((hd.kind h.kind).2.2 / 16) = .ok (rec, s1) →
      answers (hitAnswer x h (hd.addr h.kind h.index) (leNat rec)) { s1 with free := s1.free + 6 }) ∧
  (∀ (x : HitqOp) (d : Fin 192), x.d = .v d →
    hitqZeros x = match x.query with
      | .record => [(d.val, ⟨0, 0⟩), (d.val + 1, ⟨0, 0⟩)]
      | .user => [(d.val, ⟨0, 0⟩)]
      | _ => vecWrites x.f64 x.d (0, 0, 0)) ∧
  -- triangles and aspheres
  (∀ (r : Ray) (n : Nat), r.bad = false →
    (n / 2 ^ 323 % 2 ^ 61 ≠ 0 → triangle r n = .badRecord) ∧
    (n / 2 ^ 323 % 2 ^ 61 = 0 → ∃ kz < 3,
      let f := Fmt.f32
      let d (i : Nat) : Nat := r.d32.getD i 0
      (∀ i < 3, Arith.le f (Arith.abs f (d i)) (Arith.abs f (d kz)) = true) ∧
      (∀ i < kz, Arith.lt f (Arith.abs f (d i)) (Arith.abs f (d kz)) = true) ∧
      let swap := Arith.isNeg f (d kz)
      let kx := if swap = true then (kz + 2) % 3 else (kz + 1) % 3
      let ky := if swap = true then (kz + 1) % 3 else (kz + 2) % 3
      let sx := Arith.div f (d kx) (d kz)
      let sy := Arith.div f (d ky) (d kz)
      let sz := Arith.div f (Arith.one f) (d kz)
      -- component i of vertex k
      let e (k i : Nat) : Nat := Arith.sub f (n / 2 ^ (96 * k + 32 * i) % 2 ^ 32) (r.o32.getD i 0)
      let px (k : Nat) : Nat := Arith.fnma f sx (e k kz) (e k kx)
      let py (k : Nat) : Nat := Arith.fnma f sy (e k kz) (e k ky)
      let pz (k : Nat) : Nat := Arith.mul f sz (e k kz)
      let edge (p q : Nat) : Nat := Arith.sub f (Arith.mul f (px p) (py q)) (Arith.mul f (py p) (px q))
      let u := edge 2 1
      let v := edge 0 2
      let w := edge 1 0
      let det := Arith.add f (Arith.add f u v) w
      let out (c : Nat) : Nat := Arith.conv f r.fmt (Arith.div f c det)
      Arith.isZero f u = false → Arith.isZero f v = false → Arith.isZero f w = false →
      triangle r n =
        if ([u, v, w].any (Arith.isNeg f) = true ∧ [u, v, w].any (Arith.isPos f) = true) ∨
            Arith.isZero f det = true ∨ (r.cullback = true ∧ Arith.isNeg f det = true) then .miss 0
        else .hit ⟨out (Arith.fma f w (pz 2) (Arith.fma f v (pz 1) (Arith.mul f u (pz 0)))), out v, out w⟩)) ∧
  (∀ (r : Ray) (n : Nat),
    let f := Fmt.f64
    let a := Asphere.read n
    let wide (i : Nat) (l : List Nat) : Nat := Arith.conv r.fmt f (l.getD i 0)
    let from_ (i : Nat) (c : Nat) : Nat := Arith.sub f (wide i r.o) c
    let p := axisInv a.axis (from_ 0 a.origin.1, from_ 1 a.origin.2.1, from_ 2 a.origin.2.2)
    let d := axisInv a.axis (wide 0 r.d, wide 1 r.d, wide 2 r.d)
    let lo := Arith.conv r.fmt f r.tmin
    let hi := Arith.conv r.fmt f r.tmax
    r.o.length = 3 → r.d.length = 3 →
    (a.ok = false → asphere r n = .badRecord) ∧
    (a.ok = true → a.start p d lo = none → asphere r n = .miss 8) ∧
    ∀ t0, a.ok = true → a.start p d lo = some t0 →
      (∀ why, a.newton p d 8 t0 = .error why → asphere r n = .miss why) ∧
      ∀ t, a.newton p d 8 t0 = .ok t →
        let x := Arith.fma f t d.1 p.1
        let y := Arith.fma f t d.2.1 p.2.1
        asphere r n =
          if Arith.lt f (Arith.mul f a.aper a.aper) (Arith.fma f y y (Arith.mul f x x)) = true then .miss 2
          else if Arith.lt f t lo = true ∨ Arith.lt f hi t = true then .miss 0
          else .hit ⟨Arith.conv f r.fmt t, Arith.conv f r.fmt x, Arith.conv f r.fmt y⟩) ∧
  -- boxes and the direct tests
  (∀ lo hi o d : Nat,
    let f := Fmt.f32
    let dn : FEnv := ⟨.rdn, false, 0, 0⟩
    let up : FEnv := ⟨.rup, false, 0, 0⟩
    let all := (0xFF800000, 0x7F800000)
    let near := if Arith.isNeg f d = true then (dn.divC f (up.subC f hi o).1 d).1
      else (dn.divC f (dn.subC f lo o).1 d).1
    let far := if Arith.isNeg f d = true then (up.divC f (dn.subC f lo o).1 d).1
      else (up.divC f (up.subC f hi o).1 d).1
    ((Arith.isNan f lo = true ∨ Arith.isNan f hi = true) → slab lo hi o d = some all) ∧
    (Arith.lt f hi lo = true → slab lo hi o d = none) ∧
    (Arith.le f lo hi = true → Arith.isZero f d = true →
      slab lo hi o d = if Arith.le f lo o = true ∧ Arith.le f o hi = true then some all else none) ∧
    (Arith.le f lo hi = true → Arith.isZero f d = false → Arith.isNan f near = false → Arith.isNan f far = false →
      slab lo hi o d = some (near, far))) ∧
  ∀ (x : DirectOp) (span : List Word) (rec : List Byte),
    let r := Ray.ofList x.f64 (rayValues x.f64 span)
    let word (status : Word) : List (Nat × VReg) := missWrites x.f64 x.d status
    (r.bad = true → directDone x 0 span rec = word (statusWord 15 4 r.wave false false 0) ∧
      directDone x 1 span rec = word (statusWord 15 4 r.wave false false 0)) ∧
    (r.bad = false → rec = [] → directDone x 0 span rec = word (statusWord 15 3 r.wave false false 0) ∧
      directDone x 1 span rec = word (statusWord 15 3 r.wave false false 0)) ∧
    (r.bad = false → rec ≠ [] → r.empty = false → ∀ kind < 2,
      directDone x kind span rec = oneTest x.f64 x.d r kind 0 (leNat rec)) ∧
    ∀ d : Fin 192, x.d = .v d →
      let ss : List (Option (Nat × Nat)) := (Node.read rec).box.slabs r
      let a := ss.foldl (fun m p => (plainRne.minMaxC .f32 true m (p.getD (0, 0)).1).1) (toF32 r.fmt .rdn r.tmin)
      let b := ss.foldl (fun m p => (plainRne.minMaxC .f32 false m (p.getD (0, 0)).2).1) (toF32 r.fmt .rup r.tmax)
      let hit : Prop := r.bad = false ∧ rec ≠ [] ∧ r.empty = false ∧ none ∉ ss ∧ Arith.le .f32 a b = true
      (hit → boxDone x span rec =
        [(d.val, ⟨BitVec.ofNat 32 a, 0x20⟩), (d.val + 1, ⟨BitVec.ofNat 32 b, 0x20⟩)]) ∧
      (¬ hit → boxDone x span rec = [(d.val, ⟨0x7F800000, 0x20⟩), (d.val + 1, ⟨0xFF800000, 0x20⟩)])

/-- R242, R244, R256 to R258 and R263: KCLR empties the registers of its mask and frees their children; a
builder whose parameters and children are legal puts its node into a free destination, owns its children
and sets its predicate, or clears it where the destination is not free; KSCL multiplies the four weights;
KINFO writes its inquiry's word. A combinator's child that is empty, owned, repeated or the destination is
illegal. -/
def Obligations.ClosureBuilders : Prop :=
  (∀ x : KclrOp, Completes (.kclr x) x.ctl (fun _ => True) (fun t t' =>
    t' = { t with kregs := t'.kregs, pc := t.pc + 1 } ∧
    ∀ n : Fin 16, t'.kregs[n] =
      if x.mask.getLsbD n.val = true then 0
      else if ∃ m : Fin 16, x.mask.getLsbD m.val = true ∧ n.val ∈ kChildren t.kregs[m] then
        kSetOwned t.kregs[n] false
      else t.kregs[n])) ∧
  (∀ (x : KlobeOp) (d : Fin 16), x.d = .k d →
    let w (t : Thread) := fourWords t x.a
    let word (t : Thread) (i : Nat) : Nat := (t.reg (Opd.plus x.b i)).bits.toNat
    (x.lobe = .diff → Completes (.klobe x) x.ctl (fun t => TaggedSpan t 0x20 x.a 4) (fun t t' =>
      ∃ k, Builds t t' x.pd d k ∧ NodeIs k 1 (w t) [])) ∧
    (x.lobe = .sheen → Completes (.klobe x) x.ctl (fun t => TaggedSpan t 0x20 x.a 4) (fun t t' =>
      ∃ k, Builds t t' x.pd d k ∧ NodeIs k 4 (w t) [])) ∧
    (x.lobe = .diel →
      Completes (.klobe x) x.ctl (fun t => TaggedSpan t 0x20 x.a 4 ∧ TaggedSpan t 0x20 x.b 2) (fun t t' =>
        ∃ k, Builds t t' x.pd d k ∧ NodeIs k 3 (w t) [] ∧ kField k 91 32 = clampAlpha (t.reg x.b).bits.toNat ∧
          kField k 59 32 = fixEta (word t 1))) ∧
    (x.lobe = .cond →
      Completes (.klobe x) x.ctl
        (fun t => TaggedSpan t 0x20 x.a 4 ∧ Tagged t 0x20 false x.b ∧ Tagged t 0 false (Opd.plus x.b 1) ∧
          Tagged t 0 true (Opd.plus x.b 2) ∧ word t 1 < 64 ∧ (t.pair (Opd.plus x.b 2)).toNat % 2048 = 0)
        (fun t t' => ∃ k, Builds t t' x.pd d k ∧ NodeIs k 2 (w t) [] ∧
          kField k 91 32 = clampAlpha (t.reg x.b).bits.toNat ∧ kField k 85 6 = word t 1 ∧
          kField k 48 37 = (t.pair (Opd.plus x.b 2)).toNat / 2048 % 2 ^ 37))) ∧
  (∀ (x : KabOp) (d : Fin 16), x.d = .k d →
    Completes (.knet x) x.ctl
      (fun t => TaggedSpan t 0x20 x.a 4 ∧ Tagged t 0 true x.b ∧ (t.pair x.b).toNat % 64 = 0)
      (fun t t' => ∃ k, Builds t t' x.pd d k ∧ NodeIs k 5 (fourWords t x.a) [] ∧
        kField k 81 42 = (t.pair x.b).toNat / 64 % 2 ^ 42)) ∧
  (∀ (x : KabOp) (d a b : Fin 16), x.d = .k d → x.a = .k a → x.b = .k b →
    Completes (.kadd x) x.ctl (fun t => MayOwn t x.d x.a x.b) (fun t t' =>
      ∃ k, Builds t t' x.pd d k ∧ NodeIs k 8 weightOne [a.val, b.val])) ∧
  (∀ (x : KabOp) (s : State) (id : ThreadId) (t : Thread), Alone s id t x.ctl → ¬ MayOwn t x.d x.a x.b →
    exec (.kadd x) s = .next (s.deliver id (.illegal x.d.enc) 1)) ∧
  (∀ (x : KabcOp) (d a b : Fin 16), x.d = .k d → x.a = .k a → x.b = .k b →
    Completes (.kmix x) x.ctl (fun t => Tagged t 0x20 false x.c ∧ MayOwn t x.d x.a x.b) (fun t t' =>
      ∃ k, Builds t t' x.pd d k ∧ NodeIs k 9 weightOne [a.val, b.val] ∧
        kField k 83 32 = clampUnit (t.reg x.c).bits.toNat) ∧
    Completes (.kcoat x) x.ctl
      (fun t => TaggedSpan t 0x20 x.c 3 ∧ MayOwn t x.d x.a x.b ∧ 1 ≤ kKind (t.kreg x.a) ∧ kKind (t.kreg x.a) ≤ 5)
      (fun t t' => ∃ k, Builds t t' x.pd d k ∧ NodeIs k 10 weightOne [a.val, b.val] ∧
        kField k 83 32 = clampUnit (t.reg x.c).bits.toNat)) ∧
  (∀ (x : DaOp) (d : Fin 16), x.d = .k d →
    Completes (.kscl x) x.ctl (fun t => TaggedSpan t 0x20 x.a 4 ∧ t.kreg x.d ≠ 0) (fun t t' =>
      t' = { t with kregs := t'.kregs, pc := t.pc + 1 } ∧ (∀ n : Fin 16, n ≠ d → t'.kregs[n] = t.kregs[n]) ∧
      t'.kregs[d].extractLsb' 0 128 = t.kregs[d].extractLsb' 0 128 ∧
      kWeights t'.kregs[d] = List.zipWith Clo.mul (kWeights t.kregs[d]) (fourWords t x.a))) ∧
  ∀ x : KinfoOp, (Instr.kinfo x).wf = true →
    Completes (.kinfo x) x.ctl (fun _ => True) (fun t t' => ∃ w, GivesWord t t' x.d w ∧
      (x.query = .free → ∀ r : Fin 16, w.getLsbD r.val = kFree t.kl r.val) ∧
      (x.query = .size → w = BitVec.ofNat 32 (kNodes t.kl (kNum x.a)).length) ∧
      (x.query = .node → w.extractLsb' 28 4 = BitVec.ofNat 4 (kKind (t.kreg x.a)) ∧
        w.getLsbD 27 = kOwned (t.kreg x.a) ∧
        (∀ p q, kChildren (t.kreg x.a) = [p, q] → w.extractLsb' 23 4 = BitVec.ofNat 4 p ∧
          w.extractLsb' 19 4 = BitVec.ofNat 4 q)))

/-- R259, R261 and R262: KSAMPLE, KEVAL and KPDF of a subtree that is wholly resident start an evaluation of
the k registers and the span as they stand; KSPILL clears the subtree, leaves a reference in its root and
starts the private store of its 16 slots; KFILL of a legal set puts its nodes back, the root's weights
multiplied by the reference's, or changes nothing where too few registers are free; the set's private
addresses are translated first, and a failure is the precise memory fault (R85). -/
def Obligations.ClosureEvaluationsSpillsAndFills : Prop :=
  (∀ (x : KevalOp) (s : State) (id : ThreadId) (t : Thread) (ls : List LobeHit), Alone s id t x.ctl →
    t.loads < 63 → TaggedSpan t 0x20 x.b 6 → kLobes t.kl (kNum x.a) Clo.one Clo.one = .ok ls →
    let starts (i : Instr) : Prop :=
      ∃ s', exec i s = .next s' ∧ OnlyThreadAndOps s s' ∧
        Starts s s' id t .load (.closure i t.kl (t.spanWords x.b 6))
    starts (.ksample x) ∧ starts (.keval x) ∧ starts (.kpdf x)) ∧
  (∀ (x : KspillOp) (s : State) (id : ThreadId) (t : Thread) (k : KDesc) (a : Fin 16), Alone s id t x.ctl →
    t.stores < 63 → s.kdesc id.launch = some k → x.a = .k a → Tagged t 0 false x.b → t.kreg x.a ≠ 0 →
    let set := (t.reg x.b).bits.toNat
    let sub := kNodes t.kl a.val
    set < k.kspill → set < 256 →
    (∀ tr, s.privAccess id t (s.stackBytes id + 512 * set) 512 .write = .error tr →
      exec (.kspill x) s = .next (s.deliver id tr 1)) ∧
    ∀ r s1, s.privAccess id t (s.stackBytes id + 512 * set) 512 .write = .ok (r, s1) →
    ∃ s' t' root, exec (.kspill x) s = .next s' ∧ s'.thread id = some t' ∧
      (∀ j, j ≠ id → s'.thread j = s.thread j) ∧ s'.mem = s.mem ∧
      t' = { t with kregs := t'.kregs, stores := t.stores + 1, pc := t.pc + 1 } ∧
      (∀ n : Fin 16, t'.kregs[n] = if n = a then root else if n.val ∈ sub then 0 else t.kregs[n]) ∧
      kKind root = 15 ∧ kWeights root = weightOne ∧ kOwned root = kOwned (t.kreg x.a) ∧
      kField root 115 8 = set ∧ kField root 111 4 = a.val ∧
      ∃ o bs, s'.ops = tput s.ops s.nextId o ∧ o.th = id ∧ o.kind = .priv (s.stackBytes id + 512 * set) bs ∧
        bs.length = 512 ∧ ∀ n : Fin 16, leNat ((bs.drop (32 * n.val)).take 32) =
          if n.val ∈ sub then t.kregs[n].toNat else 0) ∧
  ∀ (x : KfillOp) (s : State) (id : ThreadId) (t : Thread) (a : Fin 16), Alone s id t x.ctl → x.a = .k a →
    let k := t.kreg x.a
    let a := s.stackBytes id + 512 * kField k 115 8
    let ns := setNodes (memReadN (s.privView id t) a 512)
    let root := kField k 111 4
    (kKind k ≠ 15 → exec (.kfill x) s = .next (s.deliver id (.illegal 0xFF) 1)) ∧
    (∀ tr, kKind k = 15 → s.privAccess id t a 512 .read = .error tr →
      exec (.kfill x) s = .next (s.deliver id tr 1)) ∧
    ∀ s1, kKind k = 15 → s.privAccess id t a 512 .read = .ok (true, s1) →
     (setOk ns root = false → exec (.kfill x) s = .next (s.deliver id (.illegal 0xFF) 1)) ∧
     (setOk ns root = true →
      let others := ((List.range 16).filter fun r => kAt ns r != 0 && r != root).length
      let free := ((List.range 16).filter fun r => kFree t.kl r).length
      ∃ t', exec (.kfill x) s = .next (s1.setThread id t') ∧
        (free < others → WritesK t t' x.pd false ∧ t'.kregs = t.kregs) ∧
        (others ≤ free → WritesK t t' x.pd true ∧ kKind (t'.kreg x.a) = kKind (kAt ns root) ∧
          kOwned (t'.kreg x.a) = kOwned k ∧
          kWeights (t'.kreg x.a) = List.zipWith Clo.mul (kWeights (kAt ns root)) (kWeights k) ∧
          ∀ n : Fin 16, n ≠ a → kFree t.kl n.val = false → t'.kregs[n] = t.kregs[n]))

/-! ## Bins, monitors and waits -/

/-- R291 and R293 to R295: YIELDB puts the thread's first n registers and its header into the next row of
the bin's chain, a new tile where the last is full, and the thread leaves its slot; without a tile its
predicate is 0. RESUME starts a thread for each awake row of the head tile and gives their number; WAKE
sets wake bits in the rows it selects, and its predicate says whether a row changed; BINQ counts rows or sets the global area; TSORT and TCOMP start a
stable sort that ends 20 + 4 × rows cycles later; the core resumes by itself a bin that no sort holds, or
reports a stranded course. -/
def Obligations.BinsYieldAndResume : Prop :=
  (∀ (s : State) (id : ThreadId) (t : Thread) (c : Ctl), Alone s id t c →
    let co := courseOf id
    (∀ (x : YieldbOp) (b : Bin), x.ctl = c → UntypedSrc t false x.bin → x.n.toNat ≤ s.regCount id →
      t.word x.bin < s.binCount co → s.bin co (t.word x.bin) = b → t.holds = [] → t.wreg = none →
      s.binBusy co (t.word x.bin) = false → s.yieldHeld id t x.n.toNat = false →
      let room : Prop := b.tiles ≠ [] ∧ b.nextRow < 32
      let h := (s.yieldRow id t x).1
      let ws := (s.yieldRow id t x).2
      (¬ room → (s.course co).bind Course.freeTile = none →
        exec (.yieldb x) s = .next (s.setThread id (t.setPred x.pd false).advance)) ∧
      ∀ (ref : TileRef) (r : Nat) (b' : Bin),
        (b.tiles.getLast? = some ref ∧ b.nextRow < 32 ∧ r = b.nextRow ∧ b' = { b with nextRow := r + 1 }) ∨
          (¬ room ∧ (s.course co).bind Course.freeTile = some ref ∧ r = 0 ∧ b' = ⟨b.tiles ++ [ref], 1⟩) →
        (∀ s1 s2, s.tileWrite co ref (128 * r) (rowBytes ws) = .ok s1 →
          s1.tileWrite co ref (4096 + 64 * r) h.bytes = .ok s2 →
          exec (.yieldb x) s = .next ((s2.setBin co (t.word x.bin) b').leaveSlot id t)) ∧
        ∀ i k, ref = .pool i → s.course co = some k → i < k.pool.length → memWf (k.pool.getD i []) = true →
          ∃ s' k', exec (.yieldb x) s = .next s' ∧ s'.thread id = none ∧
            (∀ j, j ≠ id → s'.thread j = s.thread j) ∧ s'.mem = s.mem ∧ s'.course co = some k' ∧
            k'.bins = setAt k.bins (t.word x.bin) b' ∧ tget k'.rowPriv id.cthr = some t.priv ∧
            memReadN (k'.pool.getD i []) (128 * r) 128 = rowBytes ws ∧
            memReadN (k'.pool.getD i []) (4096 + 64 * r) 64 = h.bytes ∧
            h.pc = t.pc + 1 ∧ h.cthr = id.cthr ∧ h.n = x.n.toNat ∧ h.preds = t.preds ∧ h.cso = t.cso ∧
            h.fctl = t.fctl ∧ h.fflags = t.fflags ∧ h.gen = t.gen ∧ h.need = x.need ∧ h.have_ = 0 ∧
            h.live = true ∧
            ∀ j : Fin 192, j.val < 32 → ws[j.val]? = some (if j.val < x.n.toNat then t.regs[j].bits else 0)) ∧
    (∀ (x : DbOp) (b : Bin), x.ctl = c → UntypedSrc t false x.b → t.word x.b < s.binCount co →
      s.bin co (t.word x.b) = b → s.binBusy co (t.word x.b) = false →
      (∀ n s1, s.resumeBin co (t.word x.b) = .ok (n, s1) →
        exec (.resume x) s = .next (s1.setThread id (t.setReg x.d ⟨BitVec.ofNat 32 n, 0⟩).advance)) ∧
      ∀ i k, b.tiles.head? = some (.pool i) → b.nextRow ≤ 32 → s.course co = some k → i < k.pool.length →
        memWf (k.pool.getD i []) = true →
        let hdr (r : Nat) : RowHeader := RowHeader.read (memReadN (k.pool.getD i []) (4096 + 64 * r) 64)
        let awake := (List.range (if b.tiles.length = 1 then b.nextRow else 32)).filter fun r => (hdr r).awake
        (awake.map fun r => (hdr r).cthr).Nodup → (∀ r ∈ awake, (hdr r).cthr ≠ id.cthr) →
        (∀ r ∈ awake, ∀ g ∈ (hdr r).tags, tagValid g = true) →
        ∃ s', exec (.resume x) s = .next s' ∧
          s'.thread id = some (t.setReg x.d ⟨BitVec.ofNat 32 awake.length, 0⟩).advance ∧
          ∀ r ∈ awake, ∃ u, s'.thread ⟨co.launch, co.course, (hdr r).cthr⟩ = some u ∧ u.pc = (hdr r).pc ∧
            u.preds = (hdr r).preds ∧ u.cso = (hdr r).cso ∧ u.gen = (hdr r).gen ∧ u.fctl = (hdr r).fctl ∧
            u.fflags = (hdr r).fflags ∧ u.prio = capPrio (hdr r).prio (s.ceilingOf k.ctx) ∧ u.crews = [] ∧
            u.monitor = none ∧ u.await = .starting (s.cycle + 40)) ∧
    (∀ (x : WakeOp) (rows : List RowAt) (s1 s2 : State), x.ctl = c → Untyped t false x.a →
      Untyped t false x.b → (t.reg x.b).bits.toNat < s.binCount co →
      s.binBusy co (t.reg x.b).bits.toNat = false → s.liveRows co (t.reg x.b).bits.toNat = .ok (rows, s1) →
      let sel := rows.filter fun r => (x.all || r.hdr.cthr == (t.reg x.a).bits.toNat) &&
        r.hdr.have_ ||| x.mask != r.hdr.have_
      s1.wakeRows co x.mask sel = .ok s2 →
      exec (.wake x) s = .next (s2.setThread id (t.setPred x.pd (!sel.isEmpty)).advance)) ∧
    (∀ (x : BinqOp) (rows : List RowAt) (s1 : State), x.ctl = c → x.area = false → Untyped t false x.b →
      (t.reg x.b).bits.toNat < s.binCount co → s.binBusy co (t.reg x.b).bits.toNat = false →
      s.liveRows co (t.reg x.b).bits.toNat = .ok (rows, s1) →
      exec (.binq x) s = .next (s1.setThread id (t.setReg x.d
        ⟨BitVec.ofNat 32 ((rows.filter fun r => r.hdr.awake).length * 2 ^ 16 + rows.length), 0⟩).advance)) ∧
    (∀ (x : BinqOp) (k : Course), x.ctl = c → x.area = true → Untyped t true x.a → Untyped t false x.b →
      s.course co = some k →
      let inUse : Prop := ∃ i, TileRef.area i ∈ k.usedTiles
      let n := (t.reg x.b).bits.toNat
      let ok : Prop := (t.pair x.a).toNat % 64 = 0 ∧ 1 ≤ n ∧ n ≤ 65535
      (¬ inUse → ok → exec (.binq x) s =
        .next ((s.setCourse co { k with area := some (t.pair x.a, n) }).setThread id t.advance)) ∧
      (inUse → exec (.binq x) s = .next (s.deliver id (.illegal 0xFF) 1)) ∧
      (¬ inUse → ¬ ok → exec (.binq x) s = .next (s.deliver id (.fault causeBadRecord 0xFF) 1))) ∧
    ∀ (b : Opd) (rows : List RowAt) (s1 : State), Untyped t false b →
      (t.reg b).bits.toNat < s.binCount co → t.tileOps < 63 → s.binBusy co (t.reg b).bits.toNat = false →
      s.liveRows co (t.reg b).bits.toNat = .ok (rows, s1) → (∀ r ∈ rows, r.hdr.pend = 0) →
      let starts (i : Instr) (key : Option (Nat × Bool)) : Prop :=
        ∃ s' o, exec i s = .next s' ∧ s'.thread id = some (t.countUp .tile).advance ∧
          s'.ops = tput s1.ops s1.nextId o ∧ o.th = id ∧ o.kind = .binSort (t.reg b).bits.toNat key ∧
          o.stop = none ∧ o.due = s1.cycle + 20 + 4 * rows.length
      (∀ x : TsortOp, x.ctl = c → x.b = b → starts (.tsort x) (some (x.col.toNat, x.desc))) ∧
      ∀ x : AOp, x.ctl = c → x.a = b → starts (.tcomp x) none) ∧
  (∀ (s s1 : State) (co : CourseId) (n bin : Nat) (o : Op) (key : Option (Nat × Bool)), s.op n = some o →
    o.kind = .binSort bin key → courseOf o.th = co → o.stop = none → o.due ≤ s.cycle →
    s.sortBin co bin key = .ok s1 →
    exec (.binSortComplete co n) s = .next ((s1.delOp n).countDown o.th .tile)) ∧
  (∀ (col : Nat) (desc : Bool) (rows : List (RowHeader × List Word)),
    let k (x : RowHeader × List Word) : Nat := (x.2.getD col 0).toNat
    (orderRows (some (col, desc)) rows).Perm rows ∧
    (orderRows (some (col, desc)) rows).Pairwise (fun a b => if desc then k b ≤ k a else k a ≤ k b) ∧
    ∀ v, (orderRows (some (col, desc)) rows).filter (fun x => k x == v) = rows.filter fun x => k x == v) ∧
  ∀ (s : State) (co : CourseId) (c : Course), s.course co = some c → c.core ≠ noCore →
    (∀ x, s.ctx c.ctx = some x → x.rung ≠ .halting) → s.threadsOf co = [] → c.binStop = none →
    s.anyLive co = true →
    (∀ n can s1, s.autoBin co (List.range c.bins.length) = .ok (some n, can, s1) →
      s.binBusy co n = true → exec (.binAutoResume co) s = .next s1) ∧
    (∀ n can s1 k s2, s.autoBin co (List.range c.bins.length) = .ok (some n, can, s1) →
      s.binBusy co n = false → s1.resumeBin co n = .ok (k, s2) → exec (.binAutoResume co) s = .next s2) ∧
    ∀ s1, s.autoBin co (List.range c.bins.length) = .ok (none, false, s1) → c.stranded = false →
      exec (.binAutoResume co) s = .next ((s1.modCourse co fun c => { c with stranded := true }).pushEvent
        (s1.partOf c.ctx) { src := coreCluster c.core, gts := s1.gts, course := co.course, ctx := c.ctx, type := 0x06 })

/-- R283 to R288: MONITOR arms its thread's watch at the line's home; MWAIT ends at once with its reason or
sleeps, with its timeout, until the watch fires or is lost or the timeout passes; HOLD and UNHOLD add and
take a line of at most four; WREG and WDROP set and clear the declared wait; a wait that closes a cycle
takes the deadlock trap instead; in a deterministic kernel MWAIT, HOLD and WREG take the privilege trap;
an entry that has had no waiter for 1 ms goes when more than 7,680 are in use. -/
def Obligations.MonitorsHoldsAndWaits : Prop :=
  (∀ (s : State) (id : ThreadId) (t : Thread) (c : Ctl), Alone s id t c → t.await = .ready →
    let va (a : Opd) (off : BitVec 12) : DWord := t.pair a + off.signExtend 64
    (∀ (x : LineOp) (pa key : Nat) (s1 : State), x.ctl = c → Untyped t true x.a →
      s.translateFor id (va x.a x.off) .read = .ok (pa, key, s1) →
      ∃ s', exec (.monitor x) s = .next s' ∧ s'.mem = s1.mem ∧
        s'.thread id = some { t.advance with monitor := some ⟨(va x.a x.off).toNat / 128, pa / 128, s1.gts, false, false⟩ } ∧
        ∀ h, homeOf pa = some h → id ∈ (s'.die h).watches) ∧
    (∀ x : DbOp, x.ctl = c → UntypedSrc t false x.b → s.determ id.launch = false →
      let lim := t.word x.b
      let ends (reason : Nat) : Prop := ∃ s', exec (.mwait x) s = .next s' ∧ s'.mem = s.mem ∧
        s'.thread id = some { (t.setReg x.d ⟨BitVec.ofNat 32 reason, 0⟩).advance with monitor := none }
      (t.monitor = none → ends 2) ∧
      ∀ m, t.monitor = some m →
        let obj := PurlinObj.line (s.ctxOf id) m.line
        let u : Thread := { t with await := .monitor x.d (if lim = 0xFFFFFFFF then none else some (s.gts + lim)) }
        (m.fired = true → ends 0) ∧ (m.fired = false → m.lost = true → ends 1) ∧
        (m.fired = false → m.lost = false → lim = 0 → ends 3) ∧
        (m.fired = false → m.lost = false → lim ≠ 0 →
          (∀ s1, s.enterWait id obj = .untracked s1 → exec (.mwait x) s = .next (s1.setThread id u)) ∧
          (∀ s1, s.enterWait id obj = .entered s1 → (s1.setThread id u).closesCycle id obj = none →
            exec (.mwait x) s = .next (s1.setThread id u)) ∧
          ∀ s1 path vec, s.enterWait id obj = .entered s1 →
            (s1.setThread id u).closesCycle id obj = some path → s.handler id t = some vec →
            ∃ s', exec (.mwait x) s = .next s' ∧ s'.thread id = some
              (t.enterHandler vec t.pc t.pc ((0x08 : BitVec 8) ++ (0 : BitVec 8) ++ x.d.enc ++ (0 : BitVec 8)) 1))) ∧
    (∀ (x : HoldOp), x.ctl = c → Untyped t true x.a → s.determ id.launch = false →
      let line := (va x.a x.off).toNat / 128
      ∃ s', exec (.hold x) s = .next s' ∧ s'.mem = s.mem ∧ s'.thread id = some
        (if line ∈ t.holds then (t.setPred x.pd true).advance
        else if t.holds.length < 4 then
          (Thread.setPred { t with holds := t.holds ++ [line] } x.pd true).advance
        else (t.setPred x.pd false).advance)) ∧
    (∀ (x : LineOp), x.ctl = c → Untyped t true x.a → ∃ s', exec (.unhold x) s = .next s' ∧ s'.mem = s.mem ∧
      s'.thread id = some { t.advance with holds := t.holds.filter (· != (va x.a x.off).toNat / 128) }) ∧
    (∀ x : AOp, x.ctl = c → Untyped t true x.a → s.determ id.launch = false →
      let line := (t.pair x.a).toNat / 128
      let obj := PurlinObj.line (s.ctxOf id) line
      let u : Thread := { t.advance with wreg := some line }
      (∀ s1, (s.dropWreg id).enterWait id obj = .untracked s1 →
        exec (.wreg x) s = .next (s1.setThread id u)) ∧
      ∀ s1, (s.dropWreg id).enterWait id obj = .entered s1 → (s1.setThread id u).closesCycle id obj = none →
        exec (.wreg x) s = .next (s1.setThread id u)) ∧
    (∀ x : NoOp, x.ctl = c → ∃ s', exec (.wdrop x) s = .next s' ∧ s'.mem = s.mem ∧
      s'.thread id = some { t.advance with wreg := none }) ∧
    (s.determ id.launch = true →
      (∀ x : DbOp, x.ctl = c → UntypedSrc t false x.b →
        exec (.mwait x) s = .next (s.deliver id (.privilege x.d.enc) 1)) ∧
      (∀ x : HoldOp, x.ctl = c → Untyped t true x.a →
        exec (.hold x) s = .next (s.deliver id (.privilege (BitVec.ofNat 8 x.pd.val)) 1)) ∧
      ∀ x : AOp, x.ctl = c → Untyped t true x.a →
        exec (.wreg x) s = .next (s.deliver id (.privilege 0xFF) 1))) ∧
  (∀ (s : State) (id : ThreadId) (t : Thread) (m : Monitor) (d : Opd) (lim : Option Nat),
    s.thread id = some t → t.await = .monitor d lim → s.stepping id = false →
    let wakes (i : Instr) (reason : Nat) : Prop := ∃ s', exec i s = .next s' ∧ s'.mem = s.mem ∧
      let u := (t.setReg d ⟨BitVec.ofNat 32 reason, 0⟩).advance
      s'.thread id = some { u with monitor := none, await := .ready, since := (s.core (s.coreOf id)).picks, overdue := false }
    (t.monitor = some m → m.fired = true → wakes (.mwaitWake id) 0) ∧
    (t.monitor = some m → m.fired = false → m.lost = true → wakes (.mwaitWake id) 1) ∧
    ∀ n, lim = some n → n ≤ s.gts → wakes (.mwaitTimeout id) 3) ∧
  ∀ (s : State) (die : Nat), die < 4 →
    let es := (s.die die).purlin
    (es.length ≤ 7680 → exec (.purlinEntryExpiry die) s = .next s) ∧
    ∀ e, 7680 < es.length → es.find? (·.expired s.gts) = some e →
      e.waiters = [] ∧ e.idleFrom + 1000000 ≤ s.gts ∧
      ∃ s', exec (.purlinEntryExpiry die) s = .next s' ∧ (∀ f ∈ (s'.die die).purlin, f ∈ es ∧ f.obj ≠ e.obj) ∧
        (∀ f ∈ es, f.obj ≠ e.obj → f.holders ≠ [] ∨ f.waiters ≠ [] → f ∈ (s'.die die).purlin) ∧
        { s' with dies := s.dies } = s

/-! ## Traps, special registers, calls -/

/-- R297 to R302, R311 and R313: a trap whose handler is available saves the PC, the resume point, its
information and mask, sets the in-handler bit and goes to the handler, and nothing else changes; without a
handler the thread stops at the instruction with event 0x01, or 0x02 inside its handler. TRAP, TFENCE with
an enabled flag and BKPT resume after themselves; TRET leaves the handler in its three modes and is illegal
outside; a tag fault names the operand that failed; NOPRE opens and closes its window, which 50,000 ns
close with event 0x09. -/
def Obligations.TrapsAreTakenAndLeft : Prop :=
  (∀ (s : State) (id : ThreadId) (t : Thread) (k : KDesc) (cls cause field detail : BitVec 8) (after : Bool)
    (mask : Word), s.thread id = some t → s.kdesc id.launch = some k →
    let resume := if after then t.pc + 1 else t.pc
    let info : Word := cls ++ cause ++ field ++ detail
    (k.trapvec ≠ 0xFFFFFFFF → t.inHandler = false →
      s.deliver id (.take cls cause field detail after) mask = s.setThread id
        { t with trappc := t.pc, trapinfo := info, trapmask := mask, resume := resume, inHandler := true, pc := k.trapvec }) ∧
    (k.trapvec = 0xFFFFFFFF ∨ t.inHandler = true →
      s.deliver id (.take cls cause field detail after) mask =
        (s.setThread id { t with await := .stopped }).threadEvent id t.pc (if t.inHandler then 0x02 else 0x01)
          cls.toNat)) ∧
  (∀ (s : State) (id : ThreadId) (t : Thread) (k : KDesc) (c : Ctl), Alone s id t c →
    s.kdesc id.launch = some k →
    let handled : Prop := k.trapvec ≠ 0xFFFFFFFF ∧ t.inHandler = false
    let enters (i : Instr) (resume : Word) (cls field detail : BitVec 8) : Prop :=
      let info : Word := cls ++ (0 : BitVec 8) ++ field ++ detail
      exec i s = .next (s.setThread id
        { t with trappc := t.pc, trapinfo := info, trapmask := 1, resume := resume, inHandler := true, pc := k.trapvec })
    (∀ x : CodeOp, x.ctl = c →
      (handled → enters (.trap x) (t.pc + 1) 0x09 0xFF x.code) ∧
      (¬ handled → exec (.trap x) s = .next ((s.setThread id { t with await := .stopped }).threadEvent id t.pc
        (if t.inHandler then 0x02 else 0x01) 0x09)) ∧
      (s.breaking id = true → exec (.bkpt x) s =
        .next ((s.setThread id { t.advance with await := .debug }).threadEvent id t.pc 0x08 0)) ∧
      (s.breaking id = false → handled → enters (.bkpt x) (t.pc + 1) 0x0A 0xFF x.code) ∧
      (s.breaking id = false → ¬ handled → exec (.bkpt x) s = .next (s.setThread id t.advance))) ∧
    (∀ x : NoOp, x.ctl = c →
      let fl := t.fflags &&& t.enables
      (t.inHandler = true ∨ fl = 0 → exec (.tfence x) s = .next (s.setThread id t.advance)) ∧
      (fl ≠ 0 → handled → enters (.tfence x) (t.pc + 1) 0x07 t.field (fl.setWidth 8))) ∧
    (∀ x : TretOp, x.ctl = c →
      let pc : Word := match x.mode with
        | .resume => t.resume
        | .skip => t.trappc + 1
        | .jump off => t.pc + off.signExtend 32
      (t.inHandler = true → exec (.tret x) s = .next (s.setThread id { t with inHandler := false, pc := pc })) ∧
      (t.inHandler = false → exec (.tret x) s = .next (s.deliver id (.illegal 0xFF) 1))) ∧
    (∀ x : IntOp, x.ctl = c → handled →
      (¬ Untyped t x.ty.wide x.a → enters (.iadd x) t.pc 0x04 x.a.enc 0) ∧
      ∀ o, x.b = .reg o → Untyped t x.ty.wide x.a → ¬ Untyped t x.ty.wide o →
        enters (.iadd x) t.pc 0x04 o.enc 0) ∧
    ∀ x : NopreOp, x.ctl = c →
      let w := if x.begin = false then none else if t.nopre.isSome = true ∨ s.halting id = true then t.nopre else some s.gts
      exec (.nopre x) s = .next (s.setThread id { t.advance with nopre := w })) ∧
  ∀ (s : State) (id : ThreadId) (t : Thread) (w : Nat), s.thread id = some t → t.nopre = some w →
    w + 50000 ≤ s.gts →
    exec (.nopreExpiry id) s = .next ((s.setThread id { t with nopre := none }).threadEvent id t.pc 0x09 0)

/-- R15, R16, R300 and R309: SREAD writes the special register its number and index name, to a pair where
it is 64 bits wide, and an index out of range, or on a register without one, is illegal; SWRITE of `%fflags`,
`%fctl`, `%trapfpc` and `%prio` stores its bits, a priority up to the context's ceiling; a value of `%fctl`
or `%prio` that R16 forbids is illegal, and every other register is a privilege trap. -/
def Obligations.SpecialRegisters : Prop :=
  (∀ (s : State) (id : ThreadId) (t : Thread) (x : SreadOp), (Instr.sread x).wf = true → Alone s id t x.ctl →
    Untyped t false x.a →
    let r := x.reg.toNat
    let i := if x.a = .zero then x.idx.toNat else (t.reg x.a).bits.toNat
    let ok : Prop := i < (if r = 0x14 then 4 else if r = 0x15 then 1024 else 1) ∧
      (x.a = .zero ∨ r = 0x14 ∨ r = 0x15)
    (ok → ∃ t', exec (.sread x) s = .next (s.setThread id t') ∧
      if r = 0x0B ∨ r = 0x0C ∨ r = 0x14 then GivesPair t t' x.d (BitVec.ofNat 64 (s.special id t r i))
      else GivesWord t t' x.d (BitVec.ofNat 32 (s.special id t r i))) ∧
    (¬ ok → exec (.sread x) s = .next (s.deliver id (.illegal x.d.enc) 1))) ∧
  (∀ (s : State) (id : ThreadId) (t : Thread) (k : KDesc) (p : Partition) (i : Nat),
    s.kdesc id.launch = some k → s.part (s.partOf (s.ctxOf id)) = some p →
    let v (r : Nat) : Nat := s.special id t r i
    v 0x00 = id.course * k.threads + id.cthr ∧ v 0x01 = id.course ∧ v 0x02 = id.cthr ∧ v 0x03 = k.courses ∧
    v 0x04 = k.threads ∧ v 0x06 = coreDie (s.coreOf id) ∧ v 0x07 = s.clusterSlice (coreCluster (s.coreOf id)) ∧
    (t.crews = [] → v 0x08 = 0xFFFFFFFF ∧ v 0x09 = 0 ∧ v 0x0A = 0) ∧ v 0x0B = s.gts ∧
    v 0x0C = Config.clockBase (s.coreOf id) + s.cycle ∧ v 0x0D = t.fflags.toNat ∧ v 0x0E = t.fctl.toNat ∧
    v 0x0F = t.trapmask.toNat ∧ v 0x10 = t.trappc.toNat ∧ v 0x11 = t.trapfpc.toNat ∧
    v 0x12 = t.trapinfo.toNat ∧ v 0x13 = s.caps.toNat ∧ v 0x15 = p.ltp.getD i 0xFFFFFFFF ∧
    v 0x16 = t.prio.toNat ∧ v 0x17 = s.ctxOf id ∧ (∀ n, p.ltp[v 0x05]? = some n → s.coreOf id ∈ p.ltp → n = s.coreOf id) ∧
    ∀ j, j < 52 → (v 0x14).testBit j =
      (s.enabledCluster (52 * i + j) && (s.cluster (52 * i + j)).fused.isSome)) ∧
  ∀ (s : State) (id : ThreadId) (t : Thread) (x : SwriteOp), Alone s id t x.ctl →
    let r := x.reg.toNat
    let w := (t.reg x.a).bits
    let n := w.toNat
    let gives (u : Thread) : Prop := exec (.swrite x) s = .next (s.setThread id u.advance)
    let illegal : Prop := exec (.swrite x) s = .next (s.deliver id (.illegal 0xFF) 1)
    (r = 0x0D → gives { t with fflags := w.setWidth 5 }) ∧
    (r = 0x0E → n < 1024 → n / 32 % 8 ≤ 4 → gives { t with fctl := w.setWidth 10 }) ∧
    (r = 0x0E → 1024 ≤ n ∨ 4 < n / 32 % 8 → illegal) ∧
    (r = 0x11 → gives { t with trapfpc := w, armed := w == 0, field := 0xFF }) ∧
    (r = 0x16 → n ≤ 7 →
      gives { t with prio := BitVec.ofNat 3 (min n (s.ceilingOf (s.ctxOf id)).toNat) }) ∧
    (r = 0x16 → 7 < n → illegal) ∧
    (r ≠ 0x0D → r ≠ 0x0E → r ≠ 0x11 → r ≠ 0x16 →
      exec (.swrite x) s = .next (s.deliver id (.privilege 0xFF) 1))

/-- R104, R307 and R308: SYSC, with no load outstanding, its stores registered and room in the ring, writes
its call entry at the ring's tail, or before entries of the same `%gts` and higher sources (R341), and the
thread waits at the instruction; where the ring is full nothing happens yet. The
answer writes v0 and v1, makes later loads fresh, and the thread goes on after the instruction. LAUNCH
writes its packet into the next entry of its queue's ring and gives its index; where the queue is full it
gives all ones; a queue that is absent, disabled, another context's or not for devices is a privilege
trap. -/
def Obligations.SystemCallsAndLaunches : Prop :=
  (∀ (s : State) (id : ThreadId) (t : Thread) (x : SyscOp) (p : Partition), Alone s id t x.ctl →
    t.loads = 0 → s.mayRegister (courseOf id) = true → (s.release id).commitsOpen id = false →
    s.part (s.partOf (s.ctxOf id)) = some p →
    let r := p.callQ
    let e := s.callEntry id t x.num
    let place := r.place s.gts (s.srcOf id)
    let s1 := (s.putCall id t x.num).modCourse (courseOf id) fun c => { c with committed := true }
    let u : Thread := { t with await := .call place }
    (r.full = true → t.await = .ready → ∃ s', exec (.sysc x) s = .next s' ∧ s'.thread id = some t ∧ s'.mem = s.mem) ∧
    (r.full = false → ∀ s2, s1.enterWait id (.syscall id) = .untracked s2 →
      exec (.sysc x) s = .next (s2.setThread id u)) ∧
    (r.full = false → ∀ s2, s1.enterWait id (.syscall id) = .entered s2 →
      (s2.setThread id u).closesCycle id (.syscall id) = none →
      exec (.sysc x) s = .next (s2.setThread id u)) ∧
    (∃ p', s1.part (s.partOf (s.ctxOf id)) = some p' ∧ p'.callQ.tail = r.tail + 1 ∧ p'.callQ.head = r.head) ∧
    (r.stamp ≠ s.gts → place = r.tail) ∧
    (r.set = true → memWf s.mem = true → memReadN s1.mem (r.slot place 64) 64 = toLE e 64) ∧
    ∀ i : Fin 192, i.val < 8 → i.val < s.regCount id → e / 2 ^ (192 + 32 * i.val) % 2 ^ 32 = t.regs[i].bits.toNat) ∧
  (∀ (s : State) (part : Nat) (p : Partition) (id : ThreadId) (t : Thread), s.part part = some p →
    p.callQ.head < p.callQ.tail → p.callQ.head + 1 < 2 ^ 64 → s.caller part p.callQ.head = some id →
    s.thread id = some t → s.stepping id = false →
    let e := leNat (s.readPhys (p.callQ.slot p.callQ.head 64) 64)
    let ret := if e.testBit 27 then e / 2 ^ 448 else 0xFFFFFFFF
    let u := (t.writeRegs ([(0, (⟨BitVec.ofNat 32 ret, 0⟩ : VReg)), (1, ⟨BitVec.ofNat 32 (ret / 2 ^ 32), 0⟩)].filter
      fun w => decide (w.1 < s.regCount id))).advance
    ∃ s', exec (.syscAnswer part (BitVec.ofNat 64 (p.callQ.head + 1))) s = .next s' ∧ s'.mem = s.mem ∧
      s'.thread id = some { u with acqTs := s.gts, await := .ready, since := (s.core (s.coreOf id)).picks, overdue := false } ∧
      ∃ p', s'.part part = some p' ∧ p'.callQ = { p.callQ with head := p.callQ.head + 1 }) ∧
  ∀ (s : State) (id : ThreadId) (t : Thread) (x : DOp) (bs : List Byte) (s1 : State), Alone s id t x.ctl →
    Untyped t true x.a → Untyped t false x.b → t.loads < 63 → s.mayRegister (courseOf id) = true →
    s.recordAt id t (t.pair x.a) 64 4 x.d = .ok (bs, s1) →
    let q := (t.reg x.b).bits.toNat
    let part := s.partOf (s.ctxOf id)
    ((∀ k, s1.queue part q = some k → 1023 < q ∨ k.enabled = false ∨ k.dev = false ∨ k.ctx ≠ s.ctxOf id) →
      exec (.launch x) s = .next (s.deliver id (.privilege x.d.enc) 1)) ∧
    ∀ k, s1.queue part q = some k → q ≤ 1023 → k.enabled = true → k.dev = true → k.ctx = s.ctxOf id →
      (s.release id).commitsOpen id = false → bs ≠ [] →
      (2 ^ k.log2 ≤ k.write - k.rd → exec (.launch x) s = .next (s1.giveIndex id t x.d (2 ^ 64 - 1))) ∧
      ∀ pa key s2, k.write - k.rd < 2 ^ k.log2 →
        s1.translateFor id (k.ringBase + BitVec.ofNat 64 (64 * (k.write % 2 ^ k.log2))) .write = .ok (pa, key, s2) →
        s.stepping id = false → ∃ s' t' n o, exec (.launch x) s = .next s' ∧ s'.thread id = some t' ∧
          t'.pc = t.pc + 1 ∧ t'.loads = t.loads + 1 ∧ t'.regs = t.regs ∧
          s'.mem = (s2.writeKeyed key pa bs).mem ∧ s'.op n = some o ∧ o.th = id ∧
          (∀ d : Fin 192, x.d = .v d → o.kind = .load [(d.val, ⟨BitVec.ofNat 32 k.write, 0⟩),
            (d.val + 1, ⟨BitVec.ofNat 32 (k.write % 2 ^ 64 / 2 ^ 32), 0⟩)]) ∧
          ∃ k', s'.queue part q = some k' ∧ k'.write = k.write + 1 ∧ k'.rd = k.rd

/-! ## Turns, queues and the dispatcher -/

/-- R118 to R120 and R137 to R139: in its turn a slot issues its run's next instruction, twice in a twinned
run, without those of its threads that have issued it already; a slot without a run takes a gang of one
context, descriptor and PC around a candidate that none ranks above, and
the core's pick count rises; a candidate of age 4,096 becomes overdue; the first mismatch at an instruction
sends a twinned run back to it with event 0x04, the second retires the cluster. -/
def Obligations.TurnsPicksAndTwins : Prop :=
  (∀ (s : State) (core : Nat), s.issue = none → core < noCore →
    let slot := s.cycle % 4
    let c := s.core core
    (∀ r, (c.slot slot).run = some r → r.twin = false ∨ r.second = true →
      let left := r.gang.filter fun id => id ∉ r.done
      exec (.slotTurn core) s = .next { s with issue := some ⟨core, slot, left, r.gathered⟩ }) ∧
    (∀ r, (c.slot slot).run = some r → r.twin = true → r.second = false →
      ∃ s', exec (.slotTurn core) s = .next s' ∧ s'.issue = none ∧ s'.threads = s.threads ∧
        ((s'.core core).slot slot).run = some { r with second := true }) ∧
    ((c.slot slot).run = none → s.pick core = none → exec (.slotTurn core) s = .next s) ∧
    ∀ id ids g, (c.slot slot).run = none → s.pick core = some (id :: ids, g) →
      ∃ s' r, exec (.slotTurn core) s = .next s' ∧ ((s'.core core).slot slot).run = some r ∧
        r.gang.Perm (id :: ids) ∧ r.count = 0 ∧ r.second = r.twin ∧ r.gathered = g ∧
        (s'.core core).picks = c.picks + 1 ∧
        s'.issue = if r.twin then none else some ⟨core, slot, r.gang, g⟩) ∧
  (∀ (s : State) (core : Nat) (ids : List ThreadId), s.pick core = some (ids, false) →
    ∃ h ∈ s.candidates core, (∀ c ∈ s.candidates core, c.2.2.above h.2.2 = false) ∧
      (h.2.1.cohort = none → ids.length ≤ 32 ∧ ∀ i ∈ ids, ∃ c ∈ s.candidates core, c.1 = i ∧
        c.2.1.pc = h.2.1.pc ∧ (c.1.launch = h.1.launch ∨ ∃ x y, s.launch c.1.launch = some x ∧
          s.launch h.1.launch = some y ∧ x.ctx = y.ctx ∧ x.kd = y.kd))) ∧
  (∀ (s : State) (id : ThreadId) (t : Thread), s.thread id = some t → t.await = .ready →
    exec (.threadOverdue id) s = .next
      (if 4096 ≤ (s.core (s.coreOf id)).picks - t.since then s.setThread id { t with overdue := true } else s)) ∧
  ∀ (s : State) (core slot : Nat) (r : Run) (id : ThreadId) (t : Thread),
    ((s.core core).slot slot).run = some r → r.twin = true → r.second = true →
    r.gang[Config.freeChoice s.free % max r.gang.length 1]? = some id → s.thread id = some t →
    (r.mismatched = false → core < noCore → slot < 4 → ∃ s', exec (.twinMismatch core slot) s = .next s' ∧
      s'.threads = s.threads ∧ ((s'.core core).slot slot).run = some { r with second := false, mismatched := true } ∧
      ∃ s1 : State, s1.parts = s.parts ∧ s1.mem = s.mem ∧ s' = s1.threadEvent id t.pc 0x04 0) ∧
    (r.mismatched = true → exec (.twinMismatch core slot) s = .next (State.retireCluster
      { s with free := s.free + 1 } (coreCluster core) (courseOf id) t.pc id.cthr))

/-- R95 to R97 and R99 to R103: QUEUE_CTL latches an entry whose layout is right, disables a queue, after its
packet where one is being dispatched, clears a refusal, and refuses any other op with code 0x09; a doorbell
raises the write index within the ring and is refused with 0x07 beyond it; the highest-ranked pending queue
takes an active slot; a head packet is checked, refused with the first code that applies or held; it begins
when its dependences are met, and takes an entry of the launch table. -/
def Obligations.QueuesAndPackets : Prop :=
  (∀ (s : State) (part q : Nat) (p : Partition), s.part part = some p → q ≤ 1023 →
    let e := s.queueEntry part q
    let n := leNat e
    (entryOk e = true → ∃ s' k, exec (.queueEnable part q) s = .next s' ∧ s'.queue part q = some k ∧
      k.enabled = true ∧ k.disabling = false ∧ k.code = 0 ∧ k.write = 0 ∧ k.rd = 0 ∧ k.active = false ∧
      k.waiting = false ∧ k.head = none ∧ k.clusterMask = BitVec.ofNat 192 (n / 2 ^ 320) ∧
      k.statusAddr = BitVec.ofNat 64 (n / 2 ^ 256) ∧ k.ringBase = BitVec.ofNat 64 (n / 2 ^ 192) ∧
      k.ctx = n / 2 ^ 160 % 1024 ∧ k.log2 = n / 2 ^ 152 % 256 ∧ k.prio = n / 2 ^ 148 % 8 ∧
      k.dev = n.testBit 147) ∧
    (entryOk e = false → exec (.queueEnable part q) s = .next (s.badQueueOp part q)) ∧
    exec (.queueCtlBadOp part q) s = .next (s.badQueueOp part q)) ∧
  (∀ (s : State) (part q : Nat) (k : Queue), s.queue part q = some k →
    (∃ k', (s.badQueueOp part q).queue part q = some k' ∧ k'.code = 0x09 ∧ k'.active = false ∧ k'.rd = k.rd) ∧
    (k.enabled = true → s.dispatching part q = false → ∃ s' k', exec (.queueDisable part q) s = .next s' ∧
      s'.queue part q = some k' ∧ k'.enabled = false ∧ k'.active = false ∧ k'.rd = k.rd ∧ k'.write = k.write) ∧
    (k.enabled = true → s.dispatching part q = true → ∃ s' k', exec (.queueDisable part q) s = .next s' ∧
      s'.queue part q = some k' ∧ k'.enabled = true ∧ k'.disabling = true ∧ k'.active = k.active) ∧
    (∃ s' k', exec (.queueClearRefusal part q) s = .next s' ∧ s'.queue part q = some k' ∧ k'.code = 0 ∧
      k'.head = (if k.code = 0 then k.head else none) ∧ k'.rd = k.rd ∧ k'.write = k.write ∧
      k'.enabled = k.enabled) ∧
    (∀ w : DWord, k.enabled = false ∨ k.dev = true ∨ w.toNat ≤ k.write →
      exec (.doorbellWrite part q w) s = .next s) ∧
    (∀ w : DWord, k.enabled = true → k.dev = false → k.write < w.toNat →
      ∃ s' k', exec (.doorbellWrite part q w) s = .next s' ∧ s'.queue part q = some k' ∧ k'.rd = k.rd ∧
        if w.toNat - k.rd ≤ 2 ^ k.log2 then k'.write = w.toNat ∧ k'.code = k.code ∧ s'.mem = s.mem
        else k'.write = k.write ∧ k'.code = 0x07 ∧ k'.active = false) ∧
    (k.pending = true → k.since + 1048576 ≤ s.gts →
      exec (.queueAgeOverdue part q) s = .next (s.setQueue part q { k with overdue := true }))) ∧
  (∀ (s : State) (part : Nat) (best : Nat × Queue),
    (∀ e ∈ s.queuesOf part, e.2.active = true → e.2.pending = true ∨ s.dispatching part e.1 = true) →
    leastBy (queueAbove s.gts) ((s.queuesOf part).filter fun e => e.2.pending && !e.2.active) = some best →
    let occ := (s.queuesOf part).filter fun e => e.2.active
    let take (s : State) : State := s.modQueue part best.1 fun q => { q with active := true }
    (occ.length < 32 → exec (.queueSlotAssign part) s = .next (take s)) ∧
    ∀ low, 32 ≤ occ.length → leastBy (fun a b => queueAbove s.gts b a) occ = some low →
      exec (.queueSlotAssign part) s = .next
        (if queueAbove s.gts best low = true ∧ s.dispatching part low.1 = false then
          take (s.modQueue part low.1 fun q => { q with active := false })
        else s)) ∧
  (∀ (s : State) (part q : Nat) (k : Queue), s.queue part q = some k → k.active = true → k.pending = true →
    k.head = none → k.disabling = false →
    let read := s.ctxRead k.ctx (k.ringBase.toNat + 64 * (k.rd % 2 ^ k.log2)) 64
    (read = none → exec (.packetHeadCheck part q) s = .next (s.refuseQueue part q 0x0A)) ∧
    ∀ bs, read = some bs →
      let pkt := BitVec.ofNat 512 (leNat bs)
      (∀ code, s.checkPacket part k pkt = .error code →
        exec (.packetHeadCheck part q) s = .next (s.refuseQueue part q code) ∧
        ∃ k', (s.refuseQueue part q code).queue part q = some k' ∧ k'.code = code ∧ k'.active = false ∧
          k'.rd = k.rd) ∧
      ∀ kd, s.checkPacket part k pkt = .ok kd → exec (.packetHeadCheck part q) s = .next (s.setQueue part q
        { k with head := some ⟨pkt, kd, !pkt.getLsbD 13, !pkt.getLsbD 14⟩ })) ∧
  (∀ (s : State) (part : Nat) (k : Queue) (pkt : BitVec 512),
    let n := pkt.toNat
    let type := n % 256
    let va := n / 2 ^ 64 % 2 ^ 64
    let form : Prop := (type = 1 ∨ type = 2 ∧ va = 0) ∧ n / 2 ^ 16 % 2 ^ 48 = 0 ∧ n / 2 ^ 8 % 8 = 0
    let kd (bs : List Byte) : KDesc := KDesc.read bs
    (¬ form → s.checkPacket part k pkt = .error 0x01) ∧
    (form → type = 1 → va % 128 ≠ 0 ∨ s.ctxRead k.ctx va 128 = none → s.checkPacket part k pkt = .error 0x02) ∧
    ∀ bs, form → type = 1 → va % 128 = 0 → s.ctxRead k.ctx va 128 = some bs →
      ((kd bs).magic ≠ 0xD35C ∨ (kd bs).version ≠ 1 → s.checkPacket part k pkt = .error 0x03) ∧
      ((kd bs).magic = 0xD35C → (kd bs).version = 1 → (kd bs).ok = false →
        s.checkPacket part k pkt = .error 0x04) ∧
      (∀ r, s.checkPacket part k pkt = .ok r → r = some (kd bs) ∧ (kd bs).ok = true)) ∧
  ∀ (s : State) (part q : Nat) (k : Queue) (h : Head), s.queue part q = some k → k.head = some h →
    (s.mayBegin part q k h = true → ∃ s' l k', exec (.packetBegin part q) s = .next s' ∧
      s'.launch s.nextId = some l ∧ l.part = part ∧ l.queue = q ∧ l.index = k.rd ∧ l.ctx = k.ctx ∧
      l.packet = h.packet ∧ l.kd = h.kd.getD KDesc.none ∧ l.code = s.mem ∧ l.next = 0 ∧ l.retired = 0 ∧
      s'.queue part q = some k' ∧ k'.rd = k.rd + 1 ∧ k'.head = none) ∧
    let h' := s.pollHead k h
    (h'.dep0 = true → h'.dep1 = true → exec (.dependencePoll part q) s =
      .next (s.setQueue part q { k with head := some h', waiting := false })) ∧
    (h'.dep0 = false ∨ h'.dep1 = false → exec (.dependencePoll part q) s = .next (s.setQueue part q
      { k with head := some h', waiting := true, active := false,
               since := if k.waiting then k.since else s.gts, overdue := k.waiting && k.overdue }))

/-- R105 to R111, R113, R116, R331 and R332: the first launch that can be placed gets its next course on an
eligible core, of those with room one with fewest courses of the launch, with a fresh thread for each
`%cthr`; a re-split timer marks the core with fewest courses, and a marked core re-splits when its courses
allow; the timer's register keeps 1 to 10,000; a finished course drains, commits and goes, its launch
retires one more and a deterministic one passes the turn; the end of a launch writes its timestamp and
signal, then its event, and frees its entry. -/
def Obligations.CoursesAreDispatchedAndRetired : Prop :=
  (∀ (s s1 : State) (part n idx core : Nat) (l : Launch) (rest : List (Nat × Launch)) (avoid : Option Nat)
    (f : Fit), s.dispatchOrder part = (n, l) :: rest → l.nextCourse = some (idx, avoid) →
    s.findPlace n l avoid = some (core, f, s1) → (∀ i, s.thread ⟨n, idx, i⟩ = none) →
    core ∈ s.eligibleCores l ∧
    ∃ s' c, exec (.courseDispatch part) s = .next s' ∧ s'.course ⟨n, idx⟩ = some c ∧ c.core = core ∧
      c.ctx = l.ctx ∧ c.regBytes = l.kd.regFootprint ∧ c.slots.length = l.kd.threads ∧ c.slots.Nodup ∧
      c.tiles = List.replicate l.kd.tiles ⟨⟨0, []⟩, []⟩ ∧ c.bars = Vector.replicate 16 ⟨0, 0, 0⟩ ∧
      c.scratch = [] ∧ c.staging = [] ∧ c.commits = [] ∧ c.committed = false ∧
      (∃ l', s'.launch n = some l' ∧ l' = l.dispatched) ∧
      ∀ i, i < l.kd.threads → ∃ t, s'.thread ⟨n, idx, i⟩ = some t ∧ t.pc = l.kd.entryPc ∧
        t.regs = Vector.replicate 192 ⟨0, 0⟩ ∧ t.preds = 0 ∧ t.cso = 0 ∧ t.fflags = 0 ∧
        t.fctl = BitVec.ofNat 10 l.kd.fctlInit ∧
        t.gen = seedGen (BitVec.ofNat 32 (idx * l.kd.threads + i)) ∧
        t.prio = capPrio (BitVec.ofNat 3 l.kd.prio) (s.ceilingOf l.ctx) ∧ t.acqTs = s.gts ∧ t.await = .ready) ∧
  (∀ (s : State) (ltp cores : List Nat) (n core : Nat) (k : KDesc) (f : Fit),
    s.bestCore ltp n k cores = some (core, f) → core ∈ cores ∧ s.fit ltp n k core = some f ∧
      ∀ c ∈ cores, s.fit ltp n k c ≠ none → s.sameLaunch n core ≤ s.sameLaunch n c) ∧
  (∀ (s : State) (part n due core : Nat) (p : Partition) (l : Launch), s.part part = some p →
    s.launch n = some l → tget p.resplits n = some due →
    (s.gts < due → exec (.resplitTimerExpiry part n) s = .next s) ∧
    (due ≤ s.gts → core < noCore →
      leastBy (fun a b => decide ((s.coursesOn a).length < (s.coursesOn b).length))
        ((s.eligibleCores l).filter fun c => (s.core c).resplit.isNone) = some core →
      ∃ s' p', exec (.resplitTimerExpiry part n) s = .next s' ∧ (s'.core core).resplit = some n ∧
        s'.part part = some p' ∧ tget p'.resplits n = none)) ∧
  (∀ (s : State) (core n rf sp : Nat) (l : Launch), (s.core core).resplit = some n → s.launch n = some l →
    core < noCore →
    (s.newSplit l.kd core = none → exec (.coreResplit core) s = .next s) ∧
    (s.newSplit l.kd core = some (rf, sp) → l.kd.rfQ ≤ rf ∧ l.kd.spQ ≤ sp ∧ rf + sp ≤ 14 ∧
      ∃ s', exec (.coreResplit core) s = .next s' ∧ (s'.core core).rf = rf ∧ (s'.core core).sp = sp ∧
        (s'.core core).resplit = none ∧ (s'.core core).slots = (s.core core).slots)) ∧
  (∀ (s : State) (part : Nat) (p : Partition) (w : DWord), s.part part = some p →
    exec (.resplitTimeWrite part w) s = .next
      (s.setPart part { p with resplitTime := max 1 (min 10000 (w.toNat % 2 ^ 24)) })) ∧
  (∀ (s : State) (co : CourseId) (c : Course), s.course co = some c → s.courseDone co c = true →
    let waits := (s.core c.core).atomd.any fun e => courseOf e.th == co
    (waits = true → exec (.courseRetire co) s = .next (s.takeAtomd co)) ∧
    (waits = false → c.staging ≠ [] ∨ c.commits ≠ [] → exec (.courseRetire co) s = .next (s.commitCourse co)) ∧
    (waits = false → c.staging = [] → c.commits = [] → s.mayRegister co = false →
      exec (.courseRetire co) s = .next s) ∧
    ∀ l, waits = false → c.staging = [] → c.commits = [] → s.mayRegister co = true → s.launch co.launch = some l →
      (∀ j, s.stepping j = false) →
      ∃ s' l', exec (.courseRetire co) s = .next s' ∧ s'.course co = none ∧ s'.mem = s.mem ∧
        (∀ n, n ≠ co → (s'.course n).isSome = (s.course n).isSome) ∧ s'.launch co.launch = some l' ∧
        l'.retired = l.retired + 1 ∧
        l'.turn = if l.kd.determ = true ∧ l.turn = co.course then co.course + 1 else l.turn) ∧
  ∀ (s : State) (n : Nat) (l : Launch), s.launch n = some l →
    (l.retired < l.kd.courses ∨ s.endWaits l = true → exec (.launchEnd n) s = .next s) ∧
    (l.kd.courses ≤ l.retired → s.endWaits l = false →
      let w := l.packet.toNat
      let addr := w / 2 ^ 448 % 2 ^ 64
      let s1 := if l.packet.getLsbD 12 then
          (s.ctxWrite l.ctx (addr + 8) (toLE s.gts 8)).ctxWrite l.ctx addr (toLE (w / 2 ^ 384 % 2 ^ 64) 8)
        else s
      let s2 := if l.packet.getLsbD 15 then
          s1.pushEvent l.part { src := s1.mapperSrc l.part, va := l.index, gts := s.gts, course := l.queue, ctx := l.ctx, type := 0x0F }
        else s1
      ∃ s', exec (.launchEnd n) s = .next s' ∧ s'.launch n = none ∧ s'.mem = s2.mem ∧
        s'.threads = s2.threads ∧ ∀ m, m ≠ n → s'.launch m = s.launch m)

/-! ## Translations, pre-emption and errors -/

/-- R188, R190, R304 and R316: an invalidation drops the cached translations it names from every core, cluster
and die, and nothing else; a walk that succeeds is cached, within the core's 64 entries; an answer of retry to the oldest unanswered entry of a fault
queue advances its head and makes the thread that waits on it a candidate at its instruction. -/
def Obligations.TranslationsAndFaultAnswers : Prop :=
  (∀ (s : State) (i : Instr) (drops : TlbEntry → Prop),
    let only : Prop := ∃ s', exec i s = .next s' ∧
      { s' with cores := s.cores, clusters := s.clusters, dies := s.dies } = s ∧
      (∀ n, { s'.core n with tlb := (s.core n).tlb } = s.core n ∧
        { s'.cluster n with tlb := (s.cluster n).tlb } = s.cluster n ∧
        { s'.die n with tlb := (s.die n).tlb } = s.die n) ∧
      ∀ n e, (e ∈ (s'.core n).tlb ↔ e ∈ (s.core n).tlb ∧ ¬ drops e) ∧
        (e ∈ (s'.cluster n).tlb ↔ e ∈ (s.cluster n).tlb ∧ ¬ drops e) ∧
        (e ∈ (s'.die n).tlb ↔ e ∈ (s.die n).tlb ∧ ¬ drops e)
    (∀ part ctx x va, s.ctx ctx = some x → x.part = part → i = .tlbInvalPage part ctx va →
      (∀ e, drops e ↔ e.ctx = ctx ∧ e.page / 65536 ≤ va.toNat / 65536 ∧
        va.toNat / 65536 ≤ (e.page + e.size - 1) / 65536) → only) ∧
    (∀ part ctx x, s.ctx ctx = some x → x.part = part → i = .tlbInvalContext part ctx →
      (∀ e, drops e ↔ e.ctx = ctx) → only) ∧
    (∀ part, i = .tlbInvalPartition part →
      (∀ e, drops e ↔ ∃ x, s.ctx e.ctx = some x ∧ x.part = part) → only) ∧
    (∀ ctx x ia, s.ctx ctx = some x → (∀ p, s.part x.part = some p → p.snapshot = none) →
      i = .hvTlbInvalPage ctx ia →
      (∀ e, drops e ↔ e.ctx = ctx ∧ e.inter / 65536 ≤ ia.toNat / 65536 ∧
        ia.toNat / 65536 ≤ (e.inter + e.size - 1) / 65536) → only) ∧
    (∀ ctx, i = .hvTlbInvalContext ctx → (∀ e, drops e ↔ e.ctx = ctx) → only) ∧
    (∀ ctx x, s.ctx ctx = some x → i = .hvTlbInvalPartition ctx →
      (∀ e, drops e ↔ ∃ y, s.ctx e.ctx = some y ∧ y.part = x.part) → only) ∧
    (i = .hvTlbInvalPart → (∀ e, drops e) → only)) ∧
  (∀ (s : State) (core ctx : Nat) (va : DWord),
    (∀ e, s.walk ctx va = .ok e → core < noCore → ∃ s', exec (.pageWalk core ctx va) s = .next s' ∧
      e ∈ (s'.core core).tlb ∧ (s'.core core).tlb.length ≤ max 64 (s.core core).tlb.length ∧
      { s' with cores := s.cores, clusters := s.clusters, dies := s.dies, free := s.free } = s) ∧
    (∀ f, s.walk ctx va = .error f → exec (.pageWalk core ctx va) s = .next s)) ∧
  ∀ (s : State) (hv : Bool) (part : Nat) (p : Partition) (id : ThreadId) (t : Thread) (tk : Ticket),
    s.part part = some p → (∀ n q, s.part n = some q → q.snapshot = none) →
    let r := s.faultRing hv part
    r.head < r.tail → r.head + 1 < 2 ^ 64 → s.thread id = some t → t.await = .fault tk → tk.hv = hv →
    tk.part = part → tk.index = some r.head → (∀ k ∈ s.tickets, k.1.index ≠ none) →
    leNat (s.readPhys (r.slot r.head 32) 32) / 2 ^ 35 % 4 = 0 →
    ∃ s', exec (if hv then .hvFaultQueueAnswer (BitVec.ofNat 64 (r.head + 1))
        else .faultQueueAnswer part (BitVec.ofNat 64 (r.head + 1))) s = .next s' ∧
      s'.faultRing hv part = { r with head := r.head + 1 } ∧ s'.mem = s.mem ∧
      s'.thread id = some { t with await := .ready, since := (s.core (s.coreOf id)).picks, overdue := false }

/-- R304, R305, R310 to R313, R318 and R319: a soft request lets no packet begin, and saves at once a
context without resident courses; a hard halt stops it; a reset discards its courses and launches; the
grace and kill times pass the context on; a complete halt leaves every course of the context on no core and
the context saved; a restore of an image that holds puts the context back, one that does not resets it; the
time register keeps each field's range; the debugger's bits are set and its continue releases stopped
threads; stage-1 root and ceiling are written for a context of the partition. -/
def Obligations.ContextsAreHaltedSavedAndRestored : Prop :=
  (∀ (s : State) (n : Nat) (x : Context), s.ctx n = some x →
    (x.rung = .running → s.residentOf n ≠ [] →
      exec (.softRequest n) s = .next (s.setCtx n { x with rung := .soft, softAt := some s.gts })) ∧
    (x.rung = .running → x.moveOff = none → s.residentOf n = [] → ∃ s' y, exec (.softRequest n) s = .next s' ∧
      s'.ctx n = some y ∧ y.rung = .saved ∧ y.saved = some ⟨[], [], [], []⟩) ∧
    (x.rung = .running ∨ x.rung = .soft →
      exec (.hardHalt n) s = .next (s.setCtx n { x with rung := .halting, haltAt := some s.gts })) ∧
    (x.rung = .halting → x.moveOff = none → exec (.hardHalt n) s = .next s) ∧
    (x.rung ≠ .reset → ∃ s' y, exec (.contextReset n) s = .next s' ∧ s'.ctx n = some y ∧ y.rung = .reset ∧
      y.saved = none ∧ (∀ c ∈ s'.courses, c.2.ctx ≠ n) ∧ (∀ l ∈ s'.launches, l.2.ctx ≠ n) ∧
      ∀ l ∈ s.launches, l.2.ctx ≠ n → l ∈ s'.launches) ∧
    (∀ p t, s.part x.part = some p → x.softAt = some t → x.rung = .soft →
      exec (.preemptGraceExpiry n) s = .next
        (if t + 1000 * p.grace ≤ s.gts then s.setCtx n { x with rung := .halting, haltAt := some s.gts } else s)) ∧
    (∀ p t, s.part x.part = some p → x.haltAt = some t → x.rung = .halting →
      exec (.preemptKillExpiry n) s = .next (if t + 1000 * p.kill ≤ s.gts then s.resetCtx n else s)) ∧
    (s.haltDone n = true → x.moveOff = none → ∃ s' y sv, exec (.haltComplete n) s = .next s' ∧
      s'.ctx n = some y ∧ y.rung = .saved ∧ y.haltAt = none ∧ y.saved = some sv ∧ sv.answers = [] ∧
      (∀ c ∈ s'.courses, c.2.ctx = n → c.2.core = noCore) ∧
      sv.courses.map (·.id) = (s.residentOf n).map (·.1)) ∧
    (s.haltDone n = false → exec (.haltComplete n) s = .next s) ∧
    (∀ sv, x.saved = some sv → x.rung = .saved →
      (s.imageValid n x = false → exec (.contextRestore n) s = .next (s.resetCtx n)) ∧
      (s.imageValid n x = true → sv.answers = [] → x.moveOff = none →
        let s0 := { s with courses := s.courses ++ sv.records, launches := s.launches ++ sv.launches }
        (s0.restoreAll [] sv.courses = none → exec (.contextRestore n) s = .next s) ∧
        ∀ s1, s0.restoreAll [] sv.courses = some s1 → ∃ s' y, exec (.contextRestore n) s = .next s' ∧
          s'.ctx n = some y ∧ y.rung = .running ∧ y.saved = none ∧ y.softAt = none ∧
          ∀ co, (s'.course co).map (·.core) = (s1.course co).map (·.core))) ∧
    (∀ on, exec (.debugStep n on) s = .next (s.setCtx n { x with step := on })) ∧
    (∀ on, exec (.debugBreak n on) s = .next (s.setCtx n { x with brk := on })) ∧
    (∃ s', exec (.debugContinue n) s = .next s' ∧ s'.mem = s.mem ∧
      ∀ id t, s.thread id = some t → s.ctxOf id = n → t.await = .debug ∨ t.await = .stopped →
        s'.thread id = some { t with await := .ready, since := (s.core (s.coreOf id)).picks, overdue := false }) ∧
    (∀ part (w : DWord), w.toNat % 1024 = n → x.part = part →
      (w.toNat / 1024 % 4 = 0 → exec (.ctxS1RootWrite part w) s = .next
        (s.setCtx n { x with s1Root := BitVec.ofNat 64 (w.toNat / 4096 * 4096) })) ∧
      (w.toNat / 2 ^ 13 = 0 → exec (.ctxCeilWrite part w) s = .next
        (s.setCtx n { x with ceiling := BitVec.ofNat 3 (w.toNat / 1024) })))) ∧
  ∀ (s : State) (part : Nat) (p : Partition) (w : DWord), s.part part = some p →
    exec (.preemptTimeWrite part w) s = .next (s.setPart part
      { p with grace := max 10 (min 100000 (w.toNat % 2 ^ 24)), kill := max 1000 (min 1000000 (w.toNat / 2 ^ 32 % 2 ^ 24)) })

/-- R112, R217, R336 to R338 and R340: a failure of an eligible course rolls it back: it is removed, its
launch dispatches it again, its count and its context's rise; of a course that is committed, or has been
rolled back three times, the context is reset; a rollback request, an uncorrectable register outside a
usable mirror and an uncorrectable engine error are such failures, a usable mirror repairs; an in-field
test takes its cluster from placement, begins when no course is resident, and ends in service, with one
core fused, or with the cluster retired. -/
def Obligations.ErrorsRollbacksAndTests : Prop :=
  (∀ (s : State) (co : CourseId) (c : Course) (l : Launch) (x : Context) (cause cthr : Nat) (pc : Word),
    s.course co = some c → s.launch co.launch = some l → s.ctx c.ctx = some x →
    let times := (tget l.rollbacks co.course).getD 0
    let s' := s.courseFailure co cause pc cthr
    (c.committed = false → times < 3 → s'.course co = none ∧ s'.threadsOf co = [] ∧
      (∃ l', s'.launch co.launch = some l' ∧ (co.course, if cause = 5 then 208 else coreCluster c.core) ∈ l'.redo ∧
        tget l'.rollbacks co.course = some (times + 1) ∧ l'.retired = l.retired) ∧
      ∃ y, s'.ctx c.ctx = some y ∧ y.rollbacks = x.rollbacks + 1 ∧ y.rung = x.rung) ∧
    (c.committed = true ∨ 3 ≤ times → ∃ y, s'.ctx c.ctx = some y ∧ y.rung = .reset)) ∧
  (∀ (s : State) (part n : Nat) (w : DWord) (x : Context) (l : Nat) (la : Launch), w.toNat / 2 ^ 42 = 0 →
    w.toNat % 1024 = n → s.ctx n = some x → x.part = part →
    leastBy (fun a b => decide (a.1 < b.1)) (s.launches.filter fun p =>
      p.2.ctx == n && s.holdsUnretired p.1 p.2 (w.toNat / 1024)) = some (l, la) →
    ∃ s1 pc cthr, exec (.rollbackReq part w) s = .next (State.courseFailure s1 ⟨l, w.toNat / 1024⟩ 0x05 pc cthr) ∧
      { s1 with free := s.free } = s) ∧
  (∀ (s : State) (th : ThreadId) (t : Thread) (c : Course) (k : KDesc) (x : Context) (reg : Fin 192) (usable : Bool),
    s.thread th = some t → s.course (courseOf th) = some c → s.kdesc th.launch = some k → s.ctx c.ctx = some x →
    exec (.uncorrectableRegisterRead th reg usable) s = .next
      (if (s.core c.core).mirror = true ∧ usable = true ∧ c.leasedReg k reg.val = false then
        s.setCtx c.ctx { x with repairs := x.repairs + 1 }
      else s.courseFailure (courseOf th) 0x01 t.pc th.cthr)) ∧
  (∀ (s : State) (co : CourseId) (c : Course), s.course co = some c → coreCluster c.core < 208 →
    ∃ s1 pc cthr, exec (.engineUncorrectableError co) s = .next (State.courseFailure s1 co 0x02 pc cthr) ∧
      { s1 with free := s.free, clusters := s.clusters } = s ∧
      ∀ e, e ∈ (s1.cluster (coreCluster c.core)).entries ↔
        e ∈ (s.cluster (coreCluster c.core)).entries ∧ courseOf e.th ≠ co) ∧
  ∀ (s : State) (n : Nat), n < 208 →
    let c := s.cluster n
    let tested (t : Option TestState) : State := s.setCluster n { c with test := t }
    (s.enabledCluster n = true → c.inService = true → c.test = none → 0 < s.gts →
      s.gts % 14400000000000 = 69000000000 * n →
      (s.ctxsOn n = [] → exec (.infieldTestStart n) s = .next (tested (some (.testing (s.gts + 2000000))))) ∧
      (s.ctxsOn n ≠ [] → ∃ s', exec (.infieldTestStart n) s = .next s' ∧
        (s'.cluster n).test = some (.moving (s.gts + 100000000)) ∧
        (s.windowOn n = false → s.heldOn n = false → ∀ k ∈ s.ctxsOn n, ∀ x, s.ctx k = some x →
          x.rung = .running → ∃ y, s'.ctx k = some y ∧ y.rung = .halting ∧ y.moveOff = some [n]))) ∧
    (∀ deadline, c.test = some (.moving deadline) → s.ctxsOn n = [] →
      exec (.infieldMoveDeferExpiry n) s = .next (tested (some (.testing (s.gts + 2000000))))) ∧
    ∀ done, c.test = some (.testing done) → done ≤ s.gts →
      exec (.infieldTestComplete n [] true) s = .next (tested none) ∧
      (∀ p : Fin 4, c.fused = none → ∃ s', exec (.infieldTestComplete n [p.val] true) s = .next s' ∧
        (s'.cluster n).fused = some p ∧ (s'.cluster n).test = none ∧ (s'.cluster n).inService = c.inService) ∧
      ∀ failing shared, shared = false ∨ (∃ p q : Fin 4, p ≠ q ∧ p.val ∈ failing ∧ q.val ∈ failing) ∨
          ((∃ p : Fin 4, p.val ∈ failing) ∧ c.fused ≠ none) →
        ∃ s', exec (.infieldTestComplete n failing shared) s = .next s' ∧ (s'.cluster n).inService = false ∧
          (s'.cluster n).test = none

/-! ## The hypervisor, migration and the outside -/

/-- R315 and R317 to R320, R326, R327, R349, R351 and R352: a command that fails changes nothing but its
code, and one that succeeds leaves code 0. Op 1 makes the partition that its descriptor describes when its
checks hold and its image verifies, its cores at the split of R109 and its slices' memory zeroed after a cold
start; op 2 removes one without
contexts; op 3 makes a context valid and op 4 frees one that is saved or reset; op 5 loads a slot from a
record that unwraps and op 6 revokes it; op 7 protects every mapped page, the latest complete snapshot
staying until the new one is; op 8 sets the next interval's tokens; op 11 sets a group, its members read from
the list in the order of their ranks, or deletes it; op 12 and op 13 write a report and the transport key with its signature; other
ops have code 0x01. A settlement moves whole nanojoules to the accounts and deals each partition its
tokens. -/
def Obligations.HypervisorCommands : Prop :=
  (∀ s : State, s.started = true → s.mgmt.busy = false →
    let arg := s.mgmt.arg.toNat
    let a := s.mgmt.addr.toNat / 64 * 64
    let n := leNat (s.readPhys a 64)
    let fails (i : Instr) (c : BitVec 8) : Prop := exec i s = .next { s with mgmt := { s.mgmt with code := c } }
    let gives (i : Instr) (s' : State) : Prop := exec i s = .next { s' with mgmt := { s'.mgmt with code := 0 } }
    fails .hvCmdBadOp 0x01 ∧
    (40 ≤ arg → fails .createPartition 0x01 ∧ fails .destroyPartition 0x01 ∧ fails .snapshot 0x01 ∧
      fails .setTokens 0x01 ∧ fails .setCollectiveGroup 0x01 ∧ fails .attest 0x01) ∧
    (512 ≤ arg → fails .setContext 0x01 ∧ fails .freeContext 0x01 ∧ fails .loadKey 0x01 ∧ fails .revokeKey 0x01) ∧
    (∀ c, arg < 40 → s.checkPartition arg n true = .error c → fails .createPartition c) ∧
    (arg < 40 → s.checkPartition arg n true = .ok () →
      let img := s.bootImage n
      let digest := sha512 (img.take (img.length - 64))
      let s1 := { s with free := s.free + 1 }
      let p := s1.newPartition n digest
      if edVerify (toLE (Config.partitionKey arg).toNat 32) digest (img.drop (img.length - 64)) = true then
        let s2 := (if s.warm then s1 else s1.zeroSlices p.slices).bootCores p.ltp
        gives .createPartition (s2.setPart arg p) ∧
        (∀ core ∈ p.ltp, core < noCore → (s2.core core).rf = 4 ∧ (s2.core core).sp = 6 ∧
          (s2.core core).resplit = none) ∧
        (∀ j, j < gib768 → p.slices.getLsbD (sliceOfAddr j) = true →
          memRead (s1.zeroSlices p.slices).mem j = 0)
      else fails .createPartition 0x08) ∧
    (arg < 40 → s.part arg = none → fails .destroyPartition 0x06 ∧ fails .snapshot 0x06 ∧
      (n / 2 ^ 112 % 2 ^ 16 ≤ 3000 → fails .setTokens 0x06)) ∧
    (∀ p, arg < 40 → s.part arg = some p →
      (s.ctxsOf arg ≠ [] → fails .destroyPartition 0x09) ∧
      (s.ctxsOf arg = [] → ∃ s', exec .destroyPartition s = .next s' ∧ s'.part arg = none ∧
        s'.mgmt = { s.mgmt with code := 0 } ∧ ∀ q, s'.queue arg q = none) ∧
      gives .snapshot (s.setPart arg
        { p with snapshot := some ⟨s.partPages arg, [], []⟩, lastSnapshot := p.latest }) ∧
      (let tokens := n / 2 ^ 112 % 2 ^ 16
       (3000 < tokens → fails .setTokens 0x01) ∧
       (tokens ≤ 3000 → s.mgmt.pkgTokens < s.allocSum arg + tokens → fails .setTokens 0x07) ∧
       (tokens ≤ 3000 → s.allocSum arg + tokens ≤ s.mgmt.pkgTokens →
         gives .setTokens (s.setPart arg { p with nextAlloc := tokens, nextWeight := n / 2 ^ 136 % 2 ^ 8 }))) ∧
      (n / 2 ^ 16 % 2 ^ 368 = 0 → n % 2 ^ 8 = 0 → n / 2 ^ 416 % 2 ^ 32 = 0 →
        gives .setCollectiveGroup (s.setPart arg { p with groups := tdel p.groups (n / 2 ^ 8 % 2 ^ 8) })) ∧
      (let count := n / 2 ^ 416 % 2 ^ 32
       let rank := n / 2 ^ 384 % 2 ^ 32
       let list := n / 2 ^ 448 % 2 ^ 64
       -- the device numbers of the members, in rank order, which is the order of the ring
       let members := (List.range count).map fun i => leNat (s.readPhys (list + 8 * i) 8)
       n / 2 ^ 16 % 2 ^ 368 = 0 → n % 2 ^ 8 = 0 → 1 ≤ count → count ≤ 6144 → list % 8 = 0 → rank < count →
        members.getD rank 0 = Config.deviceNumber → (∀ m ∈ members, m < 2 ^ 13) →
        gives .setCollectiveGroup (s.setPart arg
          { p with groups := tput p.groups (n / 2 ^ 8 % 2 ^ 8) ⟨members, rank, BitVec.ofNat 64 list⟩ })) ∧
      (let r := s.readPhys a 64
       let buf := leNat ((r.drop 32).take 8)
       (r.drop 40).all (· == 0) = true → buf % 64 = 0 →
         gives .attest (s.writePhys buf (s.report (r.take 32) arg p)))) ∧
    (arg < 512 →
      (contextOk n = false → fails .setContext 0x01) ∧
      (contextOk n = true → (s.ctx arg).isSome = true → fails .setContext 0x02) ∧
      (contextOk n = true → s.ctx arg = none → (s.part (n / 2 ^ 34 % 2 ^ 6)).isSome = true →
        s.keyLoaded (n / 2 ^ 24 % 2 ^ 10) = true → ∃ s' x, exec .setContext s = .next s' ∧ s'.mgmt.code = 0 ∧
          s'.ctx arg = some x ∧ x.part = n / 2 ^ 34 % 2 ^ 6 ∧ x.keySlot = n / 2 ^ 24 % 2 ^ 10 ∧
          x.twinOk = BitVec.ofNat 3 (n / 2 ^ 21) ∧ x.quota = BitVec.ofNat 64 (n / 2 ^ 384) ∧
          x.imageAddr = BitVec.ofNat 64 (n / 2 ^ 448) ∧ x.s2Root = BitVec.ofNat 64 (n / 2 ^ 320) ∧
          x.ceiling = 7 ∧ x.rung = .running ∧ x.joule = 0 ∧ x.saved = tget s.freed arg) ∧
      (s.ctx arg = none → fails .freeContext 0x06) ∧
      (∀ x, s.ctx arg = some x → x.rung ≠ .saved → x.rung ≠ .reset → fails .freeContext 0x09) ∧
      (∀ x, s.ctx arg = some x → x.rung = .saved ∨ x.rung = .reset → ∃ s', exec .freeContext s = .next s' ∧
        s'.mgmt.code = 0 ∧ s'.ctx arg = none ∧ (∀ d e, e ∈ (s'.die d).tlb → e.ctx ≠ arg) ∧
        (∀ d e, e ∈ (s'.cluster d).tlb → e.ctx ≠ arg) ∧ (∀ d e, e ∈ (s'.core d).tlb → e.ctx ≠ arg) ∧
        ∀ q ∈ s'.queues, q.2.ctx ≠ arg) ∧
      (s.keyLoaded arg = true → fails .loadKey 0x02) ∧
      (s.keyLoaded arg = false → match s.unwrapKey arg (s.readPhys a 128) with
        | some k => gives .loadKey { s with keys := tput s.keys arg ⟨k, false⟩ }
        | none => fails .loadKey 0x0A) ∧
      (s.keyLoaded arg = false → fails .revokeKey 0x06) ∧
      ∀ k, tget s.keys arg = some k → k.revoked = false →
        gives .revokeKey { s with keys := tput s.keys arg { k with revoked := true } }) ∧
    let pub := x25519 s.transportSecret x25519Base
    gives .exportTransportKey (s.writePhys a (pub ++ edSign (toLE Config.identityKey.toNat 32) pub ++ List.replicate 32 0))) ∧
  (∀ (s : State) (measured : Nat), s.gts % 1000000 = 0 → s.gts ≠ s.settled →
    ∃ s', exec (.settlement measured) s = .next s' ∧ s'.settled = s.gts ∧ s'.cycle = s.cycle ∧
      (∀ c ∈ s'.ctxs, c.2.pj < 1000) ∧ s'.mgmt.pj < 1000 ∧
      ∀ n p, s.part n = some p → ∃ p', s'.part n = some p' ∧ p'.alloc = p.nextAlloc ∧
        (p'.throttled = true ↔ p'.tokens = 0) ∧ p'.tokens * tokenPj ≤ (p.nextAlloc + p'.drawn) * tokenPj) ∧
  ∀ (s : State) (m : Nat), s.gts % 1000000 ≠ 0 ∨ s.gts = s.settled → exec (.settlement m) s = .next s

/-- R328 to R330: op 9 whose block, partition, peer and session key hold sends the snapshot, then halts the
partition's contexts, and when they are saved or reset decides what is sent at once, the dirty pages beyond its
limit staying to be pulled, sends it and switches over (when it goes on is free, log entry 82); op 10 makes a partition that receives; a refusing peer
leaves code 0x0B; the destination marks what was not sent absent and restores its contexts; a pull sends a
page, and the last one frees the source's contexts; a path that fails before the switch lets the source go
on; an absent page that arrives is present, and one that is lost resets the contexts that map it. -/
def Obligations.MigrationsAndPulls : Prop :=
  (∀ s : State, s.started = true → s.mgmt.busy = false →
    let code (s : State) (c : BitVec 8) : State := { s with mgmt := { s.mgmt with code := c } }
    (∀ c ok, s.checkMigrateOut = .error c → exec (.migrateOut ok) s = .next (code s c)) ∧
    (∀ c ok, s.checkMigrateIn = .error c → exec (.migrateIn ok) s = .next (code s c)) ∧
    (∀ part n p, s.checkMigrateOut = .ok (part, n, p) →
      (exec (.migrateOut false) s = .next (code (s.setMig 0x08 0x01) 0x0B)) ∧
      (s.keyLoaded (n / 2 ^ 320 % 2 ^ 10) = false →
        exec (.migrateOut true) s = .next (code (s.setMig 0x08 0x04) 0)) ∧
      (s.keyLoaded (n / 2 ^ 320 % 2 ^ 10) = true → ∃ s' p' m, exec (.migrateOut true) s = .next s' ∧
        s'.mgmt.code = 0 ∧ s'.mgmt.migState = 0x01 ∧ s'.part part = some p' ∧
        p' = { p with migration := some m } ∧ m.outgoing = true ∧ m.absent = [] ∧
        m.dirtyMax = n / 2 ^ 256 % 2 ^ 64 ∧ m.session = n / 2 ^ 320 % 2 ^ 10 ∧
        ∀ c x, s.ctx c = some x → x.part = part → c ∈ m.ctxs)) ∧
    ∀ part n d, s.checkMigrateIn = .ok (part, n, d) →
      (exec (.migrateIn false) s = .next (code (s.setMig 0x08 0x01) 0x0B)) ∧
      (s.keyLoaded (n / 2 ^ 320 % 2 ^ 10) = true → ∃ s' p, exec (.migrateIn true) s = .next s' ∧
        s'.mgmt.code = 0 ∧ s'.mgmt.migState = 0x05 ∧ s'.part part = some p ∧
        p.slices = BitVec.ofNat 48 d ∧ p.nsid = BitVec.ofNat 32 (d / 2 ^ 64) ∧
        ∃ m, p.migration = some m ∧ m.outgoing = false ∧ m.absent = [])) ∧
  -- the source goes on
  (∀ (s : State) (part : Nat) (p : Partition) (m : Migration), s.part part = some p → p.migration = some m →
    s.parts.find? (fun q => q.2.migration.any (·.outgoing)) = some (part, p) →
    (s.mgmt.migState = 0x01 → s.migrateOn.mgmt.migState = 0x02 ∧ ∀ c ∈ m.ctxs, ∀ x, s.ctx c = some x →
      x.rung = .running → ∃ y, s.migrateOn.ctx c = some y ∧ y.rung = .halting) ∧
    (s.mgmt.migState = 0x02 →
      let halted : Prop := ∀ c ∈ m.ctxs, ∀ x, s.ctx c = some x → x.rung = .saved ∨ x.rung = .reset
      (¬ halted → s.migrateOn = s) ∧
      (halted → s.migrateOn.mgmt.migState = 0x03 ∧ s.migrateOn.part part = some
        { p with migration := some { m with absent := (s.dirtyPages part p).drop m.dirtyMax } })) ∧
    (s.mgmt.migState = 0x03 → m.absent ≠ [] → s.migrateOn.mgmt.migState = 0x04) ∧
    (s.mgmt.migState = 0x03 → m.absent = [] → s.migrateOn.mgmt.migState = 0x07 ∧
      ∀ c ∈ m.ctxs, s.migrateOn.ctx c = none)) ∧
  (∀ (s : State) (part : Nat) (p : Partition) (m : Migration), s.part part = some p → p.migration = some m →
    (m.outgoing = false → s.mgmt.migState = 0x05 → ∀ absent dirty, ∃ s' p' m' q,
      exec (.migrationDataReceived part absent dirty) s = .next s' ∧ s'.part part = some p' ∧
      p'.migration = some m' ∧ m'.absent = absent ∧ p'.snapshot = some q ∧ q.dirty = dirty ∧ q.guarded = [] ∧
      s'.mgmt.migState = (if absent = [] then 0x07 else 0x06) ∧
      ∀ c x, s.ctx c = some x → x.part = part → x.saved.isSome = true → Instr.contextRestore c ∈ s'.inputs) ∧
    (m.outgoing = true → s.mgmt.migState = 0x04 → ∀ page,
      (m.absent.filter (· ≠ page) ≠ [] → exec (.migrationPullRequest part page) s = .next
        (s.setPart part { p with migration := some { m with absent := m.absent.filter (· ≠ page) } })) ∧
      (m.absent.filter (· ≠ page) = [] → ∃ s', exec (.migrationPullRequest part page) s = .next s' ∧
        s'.mgmt.migState = 0x07 ∧ (∃ p', s'.part part = some p' ∧ p'.migration = none) ∧
        ∀ c ∈ m.ctxs, s'.ctx c = none)) ∧
    (m.outgoing = true → s.mgmt.migState.toNat < 4 → ∃ s' p', exec (.migrationPathFailure part) s = .next s' ∧
      s'.part part = some p' ∧ p'.migration = none ∧ s'.mgmt.migState = 0x08 ∧ s'.mgmt.migReason = 0x02 ∧
      ∀ c ∈ m.ctxs, ∀ x, s.ctx c = some x → x.rung = .saved → Instr.contextRestore c ∈ s'.inputs) ∧
    ∀ page, m.outgoing = false → page ∈ m.absent →
      (∀ data : List Byte, data.length = 65536 → memWf s.mem = true → ∃ s' p' m',
        exec (.absentPagePull part page data) s = .next s' ∧ s'.part part = some p' ∧ p'.migration = some m' ∧
        page ∉ m'.absent ∧ memReadN s'.mem (65536 * page) 65536 = data) ∧
      (∀ t, s.pullBegan page = some t → s.gts < t + 10000000 → exec (.pullTimeout part page) s = .next s) ∧
      ∀ t q, s.pullBegan page = some t → t + 10000000 ≤ s.gts → p.snapshot = some q → page ∈ q.dirty →
        ∃ s', exec (.pullTimeout part page) s = .next s' ∧ s'.mgmt.migState = 0x08 ∧ s'.mgmt.migReason = 0x03 ∧
          ∀ c x, s.ctx c = some x → x.part = part → page ∈ s.pagesOf x → ∃ y, s'.ctx c = some y ∧ y.rung = .reset)

/-- R282, R343 to R349: a write of the host or of another device registers at home, byte for byte, and fires
the watches on its line; a read answers the bytes at home and changes nothing else; an address that does not exist stops; a write of a window
register stores its value or starts the step that the register names; a link port counts failed tries, goes
out of service after 16 failed retries, when every collective forms again, and takes the pause bits of a
returned flit; a collective starts from a legal descriptor, goes on while a port is in service, fails with code
2 when none is, and completes with its results, timestamp and signal at home; on finite FP32 values its sum is the exact sum rounded once, ties to even, and on n64 the sum modulo
2⁶⁴, whatever the order of the members. -/
def Obligations.HostLinkAndCollectives : Prop :=
  (∀ (s : State) (addr : Nat) (d : List Byte),
    let line := addr / 128
    let lands (i : Instr) : Prop := s.isPoisoned addr d.length = false → memWf s.mem = true →
      ∃ s', exec i s = .next s' ∧
        (∀ a, memRead s'.mem a = if addr ≤ a ∧ a < addr + d.length then d.getD (a - addr) 0 else memRead s.mem a) ∧
        (∀ id t m, s.thread id = some t → t.monitor = some m → m.phys = line → m.lost = false → d ≠ [] →
          ∃ t', s'.thread id = some t' ∧ t'.monitor = some { m with fired := true }) ∧
        { s' with mem := s.mem, units := s.units, past := s.past, threads := s.threads } = s
    (s.physClass addr = .hbm ∨ s.physClass addr = .host →
      lands (.hostAccess addr d.length (some d)) ∧
      ∀ n, exec (.hostAccess addr n none) s = .next { s with answer := memReadN s.mem addr n }) ∧
    (s.physClass addr = .window → exec (.hostAccess addr d.length (some d)) s =
      .next { s with inputs := s.hostWindow (addr - 2 ^ 50) d ++ s.inputs }) ∧
    (∀ n w, s.physClass addr = .absent → exec (.hostAccess addr n w) s = .fault .noSuchAddress) ∧
    ∀ dev, dev < 6144 → s.linkUp = true →
      (s.physClass addr = .hbm → lands (.linkRemoteAccess dev addr (.write d)) ∧
        (∀ n, exec (.linkRemoteAccess dev addr (.read n)) s = .next { s with answer := memReadN s.mem addr n }) ∧
        ∀ ty fn b, let n := AtomTy.width ty / 8
          s.isPoisoned addr n = false → memWf s.mem = true →
          ∃ s', exec (.linkRemoteAccess dev addr (.atom ty fn b)) s = .next s' ∧
            s'.answer = memReadN s.mem addr n ∧
            memReadN s'.mem addr n = toLE ((AtomKind.op fn b).apply ty (leNat (memReadN s.mem addr n))).1 n) ∧
      ∀ q, s.physClass addr = .absent → exec (.linkRemoteAccess dev addr q) s = .fault .noSuchAddress) ∧
  (∀ (s : State) (off : Nat) (w : DWord),
    (∃ s', exec (.registerWrite .management off w) s = .next s' ∧
      (off = 0x00 → s'.mgmt = { s.mgmt with arg := w }) ∧ (off = 0x08 → s'.mgmt = { s.mgmt with addr := w }) ∧
      (off = 0x10 → s'.mgmt = s.mgmt ∧ s'.inputs = s.hvCommand w.toNat :: s.inputs) ∧
      (off = 0x20 → s'.mgmt = if w.toNat ≤ 3000 then { s.mgmt with pkgTokens := w.toNat } else s.mgmt) ∧
      (off = 0x58 → s'.inputs = .hvFaultQueueAnswer w :: s.inputs)) ∧
    ∀ part p, s.part part = some p → ∃ s' p', exec (.registerWrite (.control part) off w) s = .next s' ∧
      s'.part part = some p' ∧ s'.mem = s.mem ∧
      (off = 0x000 → p' = { p with queueTable := w }) ∧
      (off = 0x020 → p'.faultQ.base = BitVec.ofNat 64 (w.toNat / 4096 * 4096)) ∧
      (off = 0x068 → p'.ovfTrap = w.getLsbD 4) ∧
      (off = 0x0C0 → p'.eventQ.head = min w.toNat p.eventQ.tail) ∧
      (off = 0x038 → p' = p ∧ s'.inputs = .faultQueueAnswer part w :: s.inputs) ∧
      (off = 0x0A0 → p' = p ∧ s'.inputs = .syscAnswer part w :: s.inputs) ∧
      (off = 0x008 → w.toNat / 1024 = 1 →
        p' = p ∧ s'.inputs = .queueEnable part (w.toNat % 1024) :: s.inputs) ∧
      (off = 0x0D0 → p' = p ∧ s'.inputs = .preemptTimeWrite part w :: s.inputs)) ∧
  (∀ (s : State) (n : Fin 18), s.ports[n].inService = true →
    let p := s.ports[n]
    let gives (i : Instr) (q : Port) : Prop := exec i s = .next { s with ports := s.ports.set n q }
    (∀ pause, p.retries < 16 → gives (.triaterFlitReceived n.val false pause) { p with retries := p.retries + 1 }) ∧
    (∀ pause, 16 ≤ p.retries → exec (.triaterFlitReceived n.val false pause) s = .next
      { s with ports := s.ports.set n { p with retries := p.retries + 1 }, inputs := .triaterPortOutOfService n.val :: s.inputs }) ∧
    (∀ pause, ∃ q, gives (.triaterFlitReceived n.val true pause) q ∧ q.inService = true ∧ q.retries = 0 ∧
      ∀ i : Fin 4, q.paused[i] = if pause.getLsbD i.val = true then
        some (match p.paused[i] with
          | some k => k - 1
          | none => 8) else none) ∧
    (16 < p.retries → exec (.triaterPortOutOfService n.val) s = .next
      { s with ports := s.ports.set n { p with inService := false }, inputs := (s.collectives.map fun c => .collectiveReform c.1) ++ s.inputs }) ∧
    (p.retries ≤ 16 → exec (.triaterPortOutOfService n.val) s = .next s)) ∧
  (∀ (s : State) (part ctx : Nat) (w : DWord) (p : Partition), s.part part = some p → w.toNat % 64 = 0 →
    let fails (c : BitVec 8) : Prop := exec (.collDoorbell part ctx w) s = .next (s.collFails part ctx c)
    (s.ctxReadAll ctx w.toNat 64 = none → fails 1) ∧
    ∀ bs, s.ctxReadAll ctx w.toNat 64 = some bs →
      let n := leNat bs
      let group := tget p.groups (n / 2 ^ 8 % 2 ^ 8)
      let bytes := n / 2 ^ 224 % 2 ^ 32 * collBytes (n / 2 ^ 4 % 2 ^ 4)
      (collOk n = false → fails 1) ∧ (collOk n = true → group = none → fails 1) ∧
      ∀ g mine, collOk n = true → group = some g → s.ctxReadAll ctx (n / 2 ^ 256 % 2 ^ 64) bytes = some mine →
        s.linkUp = true → (∀ m ∈ g.members, m < 6144) → ∃ s' c, exec (.collDoorbell part ctx w) s = .next s' ∧
          tget s'.collectives s.nextId = some c ∧ c.part = part ∧ c.ctx = ctx ∧ c.desc = BitVec.ofNat 512 n ∧
          c.members = g.members ∧ c.rank = g.rank ∧ c.mine = mine ∧ c.acked = 0 ∧ s'.mem = s.mem) ∧
  (∀ (s : State) (op : Nat) (c : Collective), tget s.collectives op = some c →
    (s.linkUp = true ∨ c.members.length ≤ 1 → ∃ s' c', exec (.collectiveReform op) s = .next s' ∧ tget s'.collectives op = some c' ∧
      c.acked ≤ c'.acked ∧ c' = { c with acked := c'.acked } ∧ s'.mem = s.mem) ∧
    (s.linkUp = false → 1 < c.members.length →
      let gone := State.collFails { s with collectives := tdel s.collectives op } c.part c.ctx 2
      exec (.collectiveReform op) s = .next gone ∧ ∀ others, exec (.collectiveComplete op others) s = .next gone) ∧
    ∀ others : List (List Byte), others.length + 1 = c.members.length →
      (s.linkUp = true ∧ s.linkHeld 2 = false) ∨ c.members.length = 1 →
      (∀ b ∈ others, b.length = c.mine.length) →
      let n := c.desc.toNat
      let r := collResult (n % 2 ^ 4) (n / 2 ^ 4 % 2 ^ 4) (n / 2 ^ 224 % 2 ^ 32) c.rank (c.all others)
      ∃ s1 s' : State, s1.mem = s.mem ∧ s1.units = s.units ∧ s1.gts = s.gts ∧ exec (.collectiveComplete op others) s = .next s' ∧
        tget s'.collectives op = none ∧
        s'.mem = (((s1.ctxWriteAll c.ctx (n / 2 ^ 320 % 2 ^ 64) r).ctxWrite c.ctx (n / 2 ^ 448 + 8)
          (toLE s.gts 8)).ctxWrite c.ctx (n / 2 ^ 448) (toLE (n / 2 ^ 384 % 2 ^ 64) 8)).mem ∧
        ∀ p, s.part c.part = some p → ∃ p', s'.part c.part = some p' ∧ p'.collStat = 0) ∧
  (∀ xs ys : List Nat, xs.Perm ys → ∀ type, collSum type xs = collSum type ys) ∧
  (∀ xs : List Nat, collSum 2 xs = xs.foldr (· + ·) 0 % 2 ^ 64) ∧
  ∀ (xs : List Nat) (vs : List Rat), xs ≠ [] → (xs.map fun x => valueOf (Fmt.f32.read x)) = vs.map some →
    ∀ v, v = vs.foldr (· + ·) 0 → v ≠ 0 → ∃ m : Int, (m : Rat) * (2 : Rat) ^ (-149 : Int) = v ∧
      collSum 0 xs = Fmt.f32.rne (.fin (decide (m < 0)) m.natAbs (-149))

/-! ## Starts, reset and the tools -/

/-- R350: after either start no partition or context exists, and nothing that ran under one; fuses, in-field
results, capabilities and the cycle count stay; a warm start keeps memory, keys and the transport key pair,
and a cold one makes a new key pair and (log entry 2) finds the part's own memory and keys empty; a signature
that fails stops the start at step 2, before memory, keys and ports are touched, or at step 8. R32 and R94: an invocation of fjas or fjld changes the tools' files, standard
error and exit status as its options say: status 2 where the invocation or the objects are rejected, 1 where
the source has an error or a kernel is rejected, 0 otherwise. -/
def Obligations.StartsAndToolRuns : Prop :=
  (∀ (s : State) (warm : Bool), ∃ s', exec (if warm then .warmStart else .coldStart) s = .next s' ∧
    s'.parts = [] ∧ s'.ctxs = [] ∧ s'.threads = [] ∧ s'.courses = [] ∧ s'.launches = [] ∧ s'.queues = [] ∧
    s'.ops = [] ∧ s'.collectives = [] ∧ s'.caps = s.caps ∧ s'.cycle = s.cycle ∧ s'.warm = warm ∧
    (∀ n, (s'.cluster n).inService = (s.cluster n).inService ∧ (s'.cluster n).fused = (s.cluster n).fused) ∧
    (if warm = true ∨ Config.firmwareValid = false then s'.mem = s.mem ∧ s'.units = s.units ∧
        s'.poisoned = s.poisoned ∧ s'.keys = s.keys ∧ s'.transports = s.transports
      else s'.keys = [] ∧ s'.transports = s.transports + 1 ∧
        s'.mem = s.mem.filter fun c => decide (gib768 ≤ c.1)) ∧
    s'.linkUp = Config.firmwareValid ∧
    (s'.started, s'.startFailed) = if !Config.firmwareValid then (false, some 2)
      else if !Config.hypervisorValid then (false, some 8) else (true, none)) ∧
  (∀ (s : State) (args : List String),
    let ends (files : Table String (List Byte)) (status : Nat) : Prop :=
      ∃ err, exec (.fjasRun args) s = .next { s with tools := ⟨files, err, status⟩ }
    (fjasOpts args {} = none → ends s.tools.files 2) ∧
    ∀ o, fjasOpts args {} = some o →
      (o.src = none → ends s.tools.files 2) ∧
      ∀ src, o.src = some src →
        (tget s.tools.files src = none → ends s.tools.files 2) ∧
        ∀ bs defs, tget s.tools.files src = some bs → fjasDefs o.defs [] = some defs →
          unwritable (o.out.getD (defaultOut src)) = false → o.list = none →
          let e := expandSource defs (linesOf bs)
          let x := assemble o.reuse defs e.out.reverse
          let rs := e.reports ++ x.reports
          let wrong := ∃ r ∈ rs, o.werror = true ∨ r.warn = false
          (wrong → ends s.tools.files 1) ∧
          (¬ wrong → ends (tput s.tools.files (o.out.getD (defaultOut src)) x.obj.file) 0)) ∧
  ∀ (s : State) (args : List String),
    let ends (files : Table String (List Byte)) (free status : Nat) : Prop :=
      ∃ err, exec (.fjldRun none args) s = .next
        { s with tools := ⟨files, err, status⟩, free := free }
    (fjldOpts args {} = none → ends s.tools.files s.free 2) ∧
    ∀ o, fjldOpts args {} = some o → o.out = none →
      ((∃ f ∈ o.objs, tget s.tools.files f = none) → ends s.tools.files s.free 2) ∧
      ∀ objs, readAll s.tools.files o.objs = .ok objs →
        ((∃ b, o.base = some b ∧ b % 65536 ≠ 0) → ends s.tools.files s.free 2) ∧
        ∀ base, s.chooseBase none o objs = some base → optionFault o objs = none →
          let im : Image := ⟨objs, (placeImage objs base).1, (placeImage objs base).2, o.binds⟩
          (∀ e, im.load = .error e → ends s.tools.files (s.free + 1) 2) ∧
          ∀ x, im.load = .ok x → ends s.tools.files (s.free + 1) (if x.rejected = [] then 0 else 1)

/-- R350, R105, R109, R203: right after reset no partition, context, launch, course or thread exists, memory lists nothing, every
core is at the split of R109 and every cluster in service with an idle engine; log entry 3 names the values
that the spec does not give (`%caps`, the management block). The state meets the invariant of memory. -/
def Obligations.ResetState : Prop :=
  let s := State.reset
  MemoryCanonical s ∧ s.mem = [] ∧ s.parts = [] ∧ s.ctxs = [] ∧ s.launches = [] ∧ s.courses = [] ∧ s.threads = [] ∧
  s.cycle = 0 ∧ s.started = false ∧ s.caps = 0x000FFFF7 ∧
  ∀ n, (s.cluster n).inService = true ∧ (s.cluster n).entries = [] ∧ (∀ i : Fin 32, ((s.cluster n).slots[i]).owner = none) ∧
    (s.core n).rf = 4 ∧ (s.core n).sp = 6

/-! ## Words and steps -/

/-- Decoding and encoding agree: the word of every well-formed instruction, guard and hints included, decodes
to that instruction, and a word that decodes is the word of its instruction (R48 to R58): no bit of either is
dropped. -/
def Obligations.EncodeDecode : Prop :=
  (∀ (i : Instr) (w : IWord), i.wf = true → encode i = some w → decode w = .ok i) ∧
  ∀ (w : IWord) (i : Instr), decode w = .ok i → i.wf = true ∧ encode i = some w

/-- What a few words stand for, bit by bit from R48, R55, R57 and the entries: `iadd.n32 v4, v1, v2`,
`imadw.s32 d4, v1, v2, d6`, `icmp.s32.lt p1, v2, 100`, `@p2 bra +3`, `sts.f32 [v10+64], v3`,
`ffma.f32 v4, v1, v2, v3`, `shfl.xor v4, v3, 1, 5`, `cpy b1, d4, v8, v12` and `sysc 9`; a word with a reserved
bit set and a word of an unassigned pair do not decode. -/
def Obligations.WordsDecode : Prop :=
  let c : Ctl := ⟨false, 7, false, false, false⟩
  decode 0x000040102700FF0000000000 = .ok (.iadd ⟨c, .n32, .v 4, .v 1, .reg (.v 2)⟩) ∧
  decode 0x1030801027000C1000000000 = .ok (.imadw ⟨c, .s32, .v 8, .v 1, .reg (.v 2), .v 12⟩) ∧
  decode 0x2000102FF700FF9200000064 = .ok (.icmp ⟨c, .s32, .lt, 1, .v 2, .imm 100⟩) ∧
  decode 0x300FFFFFF200FF0000000003 = .ok (.bra ⟨⟨false, 2, false, false, false⟩, 3⟩) ∧
  decode 0x403FF0A03700202000000040 = .ok (.sts ⟨c, .b4, 0x20, 0, 0, .v 10, .v 3, 64⟩) ∧
  decode 0x603040102700030000000000 = .ok (.ffma ⟨c, .f32, .dyn, .v 4, .v 1, .reg (.v 2), .v 3⟩) ∧
  decode 0x9030403FF780058300000001 = .ok (.shfl ⟨{ c with bnd := true }, false, .xor, .v 4, .v 3, .imm 1, .id 5⟩) ∧
  decode 0xA00E108087000C0000000000 = .ok (.cpy ⟨c, some 1, .v 8, .v 8, .v 12⟩) ∧
  decode 0xF00FFFFFF700FF0000000009 = .ok (.sysc ⟨c, 9⟩) ∧
  decode 0x000040102701FF0000000000 = .error .illegal ∧
  decode 0x016040102700FF0000000000 = .error .unassigned

/-- A step with no input waiting and a gang at issue fetches the word at the first thread's PC (R31, R60): a
word that is an instruction its kernel may hold, of a unit that is present, and that nothing holds in the
collector, is executed as that instruction, and the step is `exec` of it with what it charges (R322) and the
end of the run where R62 says so; an illegal word takes R58's trap, for every thread of the gang; an input that
waits is performed first (log entry 1), and what goes on beside it follows (R322, R327, R328; log entry 82). -/
def Obligations.StepRunsTheDecodedInstruction : Prop :=
  (∀ (s s1 : State) (g : Issue) (id : ThreadId) (rest : List ThreadId) (t : Thread) (w : IWord),
    s.inputs = [] → s.issue = some g → g.gang = id :: rest → s.thread id = some t →
    s.fetch id t.pc = (.word w, s1) →
    (∀ (i : Instr) (k : KDesc), decode w = .ok i → s1.kdesc id.launch = some k → Instr.fits k i = true →
      s1.unitAbsent w = false → s1.heldAtIssue i = false →
      step s = match exec i s1 with
        | .next t' => .next ((s1.meterIssue t' g i).afterIssue g t.pc (s1.runEnds t' g i))
        | .fault f => .fault f
        | .refused r => .refused r) ∧
    ((∀ i, decode w ≠ .ok i) →
      step s = .next ((s1.trapGang g (.illegal (w.extractLsb' 76 8))).afterIssue g t.pc true))) ∧
  ∀ (s : State) (i : Instr) (rest : List Instr), s.inputs = i :: rest →
    step s = match exec i { s with inputs := rest } with
      | .next t => .next (State.meterEvent { s with inputs := rest } t i).background
      | .fault f => .fault f
      | .refused r => .refused r

/-- Every step of the machine, whatever the state, input, gang or event, leaves memory in its canonical form:
addresses rise strictly and no entry equals what an unlisted address reads as (log entry 2). -/
def Obligations.MemoryStaysCanonical : Prop :=
  ∀ s s' : State, MemoryCanonical s → step s = .next s' → MemoryCanonical s'
end

