-- ==== Sys2Proof/Laws/Memory.lean ====
section
/-! SUPPORT. Laws/Memory.lean: the laws of memory: reading after writing, the canonical form, and
values as bytes. -/

namespace Sys2Proof.Machine

/-! ## Reading after writing -/

@[simp] theorem memRead_nil (a : Nat) : memRead [] a = unlisted := rfl

/-- An address below every listed one reads as an unlisted byte. -/
theorem memRead_below {lo : Nat} {m : Memory} (h : memAbove (some lo) m = true) {a : Nat} (ha : a ≤ lo) :
    memRead m a = unlisted := by
  induction m generalizing lo with
  | nil => rfl
  | cons p r ih =>
    obtain ⟨k, b⟩ := p
    simp [memAbove] at h
    have : a ≠ k := by omega
    simp [memRead, this]
    exact ih h.2 (by omega)

theorem memAbove_weaken {lo lo' : Nat} {m : Memory} (h : memAbove (some lo) m = true) (hl : lo' ≤ lo) :
    memAbove (some lo') m = true := by
  cases m with
  | nil => rfl
  | cons p r => simp [memAbove] at h ⊢; exact ⟨⟨by omega, h.1.2⟩, h.2⟩

theorem memAbove_none {lo : Nat} {m : Memory} (h : memAbove (some lo) m = true) :
    memAbove none m = true := by
  cases m with
  | nil => rfl
  | cons p r => simp [memAbove] at h ⊢; exact ⟨h.1.2, h.2⟩

theorem memRead_memWrite_above {lo : Option Nat} {m : Memory} (h : memAbove lo m = true) (a j : Nat)
    (b : Byte) : memRead (memWrite m a b) j = if j = a then b else memRead m j := by
  induction m generalizing lo with
  | nil =>
    by_cases hb : b = unlisted <;> by_cases hj : j = a <;> simp [memWrite, memRead, hb, hj]
  | cons p r ih =>
    obtain ⟨k, c⟩ := p
    simp [memAbove] at h
    by_cases h1 : a < k
    · by_cases hb : b = unlisted
      · by_cases hj : j = a
        · subst hj
          have hk : j ≠ k := by omega
          simp [memWrite, memRead, h1, hb, hk]
          exact memRead_below h.2 (by omega)
        · simp [memWrite, h1, hb, hj]
      · by_cases hj : j = a <;> simp [memWrite, memRead, h1, hb, hj]
    · by_cases h2 : a = k
      · subst h2
        by_cases hb : b = unlisted
        · by_cases hj : j = a
          · subst hj
            simp [memWrite, hb]
            exact memRead_below h.2 (by omega)
          · simp [memWrite, memRead, hb, hj]
        · by_cases hj : j = a <;> simp [memWrite, memRead, hb, hj]
      · by_cases hj : j = k
        · subst hj
          have : j ≠ a := fun e => h2 e.symm
          simp [memWrite, memRead, h1, h2, this]
        · simp [memWrite, memRead, h1, h2, hj, ih h.2]

/-- A byte written is read back, and every other byte reads as before. -/
theorem memRead_memWrite {m : Memory} (h : memWf m = true) (a j : Nat) (b : Byte) :
    memRead (memWrite m a b) j = if j = a then b else memRead m j :=
  memRead_memWrite_above h a j b

/-! ## The canonical form -/

theorem memAbove_memWrite {lo : Option Nat} {m : Memory} {a : Nat} {b : Byte}
    (h : memAbove lo m = true) (ha : ∀ l, lo = some l → l < a) : memAbove lo (memWrite m a b) = true := by
  induction m generalizing lo with
  | nil =>
    by_cases hb : b = unlisted
    · simp [memWrite, hb, memAbove]
    · cases lo with
      | none => simp [memWrite, hb, memAbove]
      | some l => simp [memWrite, hb, memAbove, ha l rfl]
  | cons p r ih =>
    obtain ⟨k, c⟩ := p
    simp [memAbove] at h
    by_cases h1 : a < k
    · by_cases hb : b = unlisted
      · simp [memWrite, h1, hb, memAbove, h]
      · cases lo with
        | none => simp [memWrite, h1, hb, memAbove, h]
        | some l => simp [memWrite, h1, hb, memAbove, h, ha l rfl]
    · by_cases h2 : a = k
      · subst h2
        by_cases hb : b = unlisted
        · cases lo with
          | none => simp [memWrite, hb]; exact memAbove_none h.2
          | some l => simp [memWrite, hb]; exact memAbove_weaken h.2 (by have := ha l rfl; omega)
        · cases lo with
          | none => simp [memWrite, hb, memAbove, h]
          | some l => simp [memWrite, hb, memAbove, h, ha l rfl]
      · have : ∀ l, some k = some l → l < a := by intro l e; cases e; omega
        cases lo with
        | none => simp [memWrite, h1, h2, memAbove, h.1, ih h.2 this]
        | some l => simp [memWrite, h1, h2, memAbove, h.1.1, h.1.2, ih h.2 this]

/-- Writing a byte keeps the canonical form. -/
theorem memWf_memWrite {m : Memory} (h : memWf m = true) (a : Nat) (b : Byte) :
    memWf (memWrite m a b) = true :=
  memAbove_memWrite h (by intro l e; cases e)

/-- Writing bytes keeps the canonical form. -/
theorem memWf_memWriteN {m : Memory} (h : memWf m = true) (a : Nat) (bs : List Byte) :
    memWf (memWriteN m a bs) = true := by
  induction bs generalizing m a with
  | nil => exact h
  | cons b r ih => exact ih (memWf_memWrite h a b) (a + 1)

theorem memAbove_filter {lo : Option Nat} {m : Memory} (h : memAbove lo m = true) (p : Host.Cell → Bool) :
    memAbove lo (m.filter p) = true := by
  induction m generalizing lo with
  | nil => rfl
  | cons q r ih =>
    obtain ⟨k, c⟩ := q
    simp [memAbove] at h
    have hk := ih h.2
    by_cases hp : p (k, c) = true
    · cases lo with
      | none => simp [hp, memAbove, h.1, hk]
      | some l => simp [hp, memAbove, h.1.1, h.1.2, hk]
    · cases lo with
      | none => simp [hp]; exact memAbove_none hk
      | some l => simp [hp]; exact memAbove_weaken hk (Nat.le_of_lt (by simpa using h.1.1))

/-- Clearing bytes keeps the canonical form. -/
theorem memWf_filter {m : Memory} (h : memWf m = true) (p : Host.Cell → Bool) :
    memWf (m.filter p) = true := memAbove_filter h p

@[simp] theorem memWf_nil : memWf [] = true := rfl

/-! ## Ranges -/

/-- A byte outside the range reads as before; one inside reads as written. -/
theorem memRead_memWriteN {m : Memory} (h : memWf m = true) (a : Nat) (bs : List Byte) (j : Nat) :
    memRead (memWriteN m a bs) j =
      if a ≤ j ∧ j < a + bs.length then bs.getD (j - a) unlisted else memRead m j := by
  induction bs generalizing m a with
  | nil =>
    have : ¬ (a ≤ j ∧ j < a + 0) := by omega
    simp only [memWriteN, List.length_nil, this, if_false]
  | cons b r ih =>
    rw [memWriteN, ih (memWf_memWrite h a b), memRead_memWrite h]
    simp only [List.length_cons]
    by_cases h0 : j = a
    · subst h0
      have h1 : ¬ (j + 1 ≤ j ∧ j < j + 1 + r.length) := by omega
      have h2 : j ≤ j ∧ j < j + (r.length + 1) := by omega
      rw [if_neg h1, if_pos rfl, if_pos h2, Nat.sub_self]
      rfl
    · by_cases h1 : a + 1 ≤ j ∧ j < a + 1 + r.length
      · have h2 : a ≤ j ∧ j < a + (r.length + 1) := by omega
        have h3 : j - a = (j - (a + 1)) + 1 := by omega
        rw [if_pos h1, if_pos h2, h3]
        rfl
      · have h2 : ¬ (a ≤ j ∧ j < a + (r.length + 1)) := by omega
        rw [if_neg h1, if_neg h2, if_neg h0]

@[simp] theorem memReadN_length (m : Memory) (a n : Nat) : (memReadN m a n).length = n := by
  induction n generalizing a with
  | zero => rfl
  | succ n ih => simp [memReadN, ih]

/-- Bytes written are read back. -/
theorem memReadN_memWriteN {m : Memory} (h : memWf m = true) (a : Nat) (bs : List Byte) :
    memReadN (memWriteN m a bs) a bs.length = bs := by
  suffices g : ∀ (pre : List Byte) (m : Memory), memWf m = true → ∀ a,
      memReadN (memWriteN m a bs) a bs.length = bs from g [] m h a
  intro _
  induction bs with
  | nil => intros; rfl
  | cons b r ih =>
    intro m h a
    rw [memWriteN, List.length_cons, memReadN, ih (memWrite m a b) (memWf_memWrite h a b) (a + 1),
      memRead_memWriteN (memWf_memWrite h a b), memRead_memWrite h, if_neg (by omega), if_pos rfl]

/-! ## Values as bytes -/

@[simp] theorem toLE_length (n k : Nat) : (toLE n k).length = k := by
  induction k generalizing n with
  | zero => rfl
  | succ k ih => simp [toLE, ih]

/-- The number that the bytes of a value hold is the value modulo their range. -/
theorem leNat_toLE (n k : Nat) : leNat (toLE n k) = n % 256 ^ k := by
  induction k generalizing n with
  | zero => simp [toLE, leNat, Nat.mod_one]
  | succ k ih =>
    rw [toLE, leNat, ih, BitVec.toNat_ofNat, show 256 ^ (k + 1) = 256 * 256 ^ k by
      rw [Nat.pow_succ, Nat.mul_comm], Nat.mod_mul]

end Sys2Proof.Machine
end

