-- ==== Sys2Proof/Laws/Canonical.lean ====
section
/-! SUPPORT. Laws/Canonical.lean: every operation that writes physical memory keeps its canonical form,
and what such an operation leaves of the rest of the machine. -/

namespace Sys2Proof.Machine

/-- Claiming units for a key keeps the canonical form. -/
theorem memWf_claimUnits (key : Nat × BitVec 512) (us : List Nat) (s : State) (h : memWf s.mem = true) :
    memWf (s.claimUnits key us).mem = true := by
  induction us generalizing s with
  | nil => exact h
  | cons u r ih =>
    unfold State.claimUnits
    dsimp only
    split
    · exact ih s h
    · exact ih _ (memWf_memWriteN h _ _)

/-- Claiming units changes memory and the units' keys only. -/
theorem claimUnits_frame (key : Nat × BitVec 512) (us : List Nat) (s : State) :
    { s.claimUnits key us with mem := s.mem, units := s.units } = s := by
  induction us generalizing s with
  | nil => rfl
  | cons u r ih =>
    unfold State.claimUnits
    dsimp only
    split
    · exact ih s
    · have := ih { s with mem := memWriteN s.mem (64 * u) (s.viewUnit u (some key)),
                          units := tput s.units u key }
      simpa using congrArg (fun t : State => { t with mem := s.mem, units := s.units }) this

/-- A write under a key slot keeps the canonical form. -/
theorem memWf_writeKeyed (s : State) (slot a : Nat) (bs : List Byte) (h : memWf s.mem = true) :
    memWf (s.writeKeyed slot a bs).mem = true := by
  unfold State.writeKeyed
  dsimp only
  split
  · exact memWf_memWriteN (memWf_claimUnits _ _ (s.remember _ _ _) h) _ _
  · exact memWf_memWriteN h _ _

/-- A write under a key slot changes memory, the units' keys and the remembered writes only. -/
theorem writeKeyed_frame (s : State) (slot a : Nat) (bs : List Byte) :
    { s.writeKeyed slot a bs with mem := s.mem, units := s.units, past := s.past } = s := by
  unfold State.writeKeyed
  dsimp only
  split
  · next k _ =>
    have := claimUnits_frame k ((List.range (ceilDiv (a % 64 + bs.length) 64)).map (a / 64 + ·))
      (s.remember (some slot) a bs)
    exact congrArg (fun t : State => { t with past := s.past }) this
  · rfl

/-- Nor does a write that no key covers. -/
theorem writePhys_frame (s : State) (a : Nat) (bs : List Byte) :
    { s.writePhys a bs with mem := s.mem, units := s.units, past := s.past } = s := rfl

/-- A write that no key covers keeps the canonical form. -/
theorem memWf_writePhys (s : State) (a : Nat) (bs : List Byte) (h : memWf s.mem = true) :
    memWf (s.writePhys a bs).mem = true := memWf_memWriteN h a bs

/-- A byte outside the written range reads as before, one inside as written. -/
theorem memRead_writePhys (s : State) (a j : Nat) (bs : List Byte) (h : memWf s.mem = true) :
    memRead (s.writePhys a bs).mem j =
      if a ≤ j ∧ j < a + bs.length then bs.getD (j - a) unlisted else memRead s.mem j :=
  memRead_memWriteN h a bs j

/-- A ring's entry keeps the canonical form. -/
theorem memWf_ringWrite (s : State) (r : Ring) (i n v : Nat) (h : memWf s.mem = true) :
    memWf (s.ringWrite r i n v).mem = true := by
  unfold State.ringWrite
  split
  · exact memWf_writePhys s _ _ h
  · exact h

/-- Nor does putting an entry at its place. -/
theorem memWf_ringPut (s : State) (r : Ring) (g src n v : Nat) (h : memWf s.mem = true) :
    memWf (s.ringPut r g src n v).mem = true := by
  unfold State.ringPut
  apply memWf_ringWrite
  induction List.range (r.behind g src) generalizing s with
  | nil => exact h
  | cons i l ih => exact ih _ (memWf_ringWrite s r _ n _ h)

/-- Zeroing the memory of slices keeps the canonical form. -/
theorem memWf_zeroSlices (s : State) (slices : BitVec 48) (h : memWf s.mem = true) :
    memWf (s.zeroSlices slices).mem = true := memWf_filter h _

/-- A start keeps the canonical form. -/
theorem memWf_start (s : State) (warm : Bool) (h : memWf s.mem = true) : memWf (s.start warm).mem = true := by
  unfold State.start
  cases warm <;> dsimp only <;> repeat' split
  all_goals first
    | exact h
    | exact memWf_filter h _

end Sys2Proof.Machine
end

