-- ==== Sys2Proof/Laws/Encoding.lean ====
section
/-! SUPPORT. Laws/Encoding.lean: every field of R48 and every shape of operands is read back as it
was written. -/

namespace Sys2Proof

/-! ## Fields of a word -/

theorem extract_lo {m n : Nat} (x : BitVec m) (y : BitVec n) (s k : Nat) (h : s + k ≤ n) :
    (x ++ y).extractLsb' s k = y.extractLsb' s k := by
  ext i hi
  have : s + i < n := by omega
  simp [BitVec.getLsbD_append, this]

theorem extract_hi {m n : Nat} (x : BitVec m) (y : BitVec n) (s k : Nat) (h : n ≤ s) :
    (x ++ y).extractLsb' s k = x.extractLsb' (s - n) k := by
  ext i hi
  have h1 : ¬ s + i < n := by omega
  have h2 : s + i - n = s - n + i := by omega
  simp [BitVec.getLsbD_append, h1, h2]

theorem Raw.ofWord_toWord (r : Raw) : Raw.ofWord r.toWord = r := by
  obtain ⟨⟩ := r
  simp only [Raw.ofWord, Raw.toWord, Raw.mk.injEq]
  refine ⟨?_, ?_, ?_, ?_, ?_, ?_, ?_, ?_, ?_, ?_⟩ <;>
    (repeat rw [extract_hi _ _ _ _ (by decide)]) <;> (try rw [extract_lo _ _ _ _ (by decide)]) <;>
    exact BitVec.extractLsb'_eq_self

theorem Opd.dec_v (n : Fin 192) : Opd.dec (Opd.v n).enc = some (.v n) := by
  have h := n.isLt
  have : (BitVec.ofNat 8 n.val).toNat = n.val := by simp; omega
  simp [Opd.dec, Opd.enc, this, h]

theorem Raw.ctl_blank (x : Ctl) (g : BitVec 4) (f : BitVec 8) : (Raw.blank x g f).ctl = x := by
  obtain ⟨a, p, b, c, d⟩ := x
  have h : ∀ (a : Bool) (p : Fin 8), let g := bit a ++ BitVec.ofNat 3 p.val
    g.getLsbD 3 = a ∧ g.toNat % 8 = p.val := by decide
  have h2 : ∀ b c d : Bool, let g := bit b ++ bit c ++ bit d ++ (0 : BitVec 5)
    g.getLsbD 7 = b ∧ g.getLsbD 6 = c ∧ g.getLsbD 5 = d := by decide
  have h := h a p
  have h2 := h2 b c d
  simp only [Raw.ctl, Raw.blank, h.1, h.2, h2.1, h2.2.1, h2.2.2]

theorem immM_off (p : Fin 4) (c : Fin 8) (o : BitVec 12) : (immM p c o).extractLsb' 0 12 = o := by
  unfold immM; rw [extract_lo _ _ _ _ (by decide)]; exact BitVec.extractLsb'_eq_self
theorem immM_colour (p : Fin 4) (c : Fin 8) (o : BitVec 12) :
    (⟨((immM p c o).extractLsb' 12 3).toNat, ((immM p c o).extractLsb' 12 3).isLt⟩ : Fin 8) = c := by
  have : (immM p c o).extractLsb' 12 3 = BitVec.ofNat 3 c.val := by
    unfold immM; rw [extract_hi _ _ _ _ (by decide), extract_lo _ _ _ _ (by decide)]; exact BitVec.extractLsb'_eq_self
  simp [this]
theorem immM_pol (p : Fin 4) (c : Fin 8) (o : BitVec 12) :
    (⟨((immM p c o).extractLsb' 15 2).toNat, ((immM p c o).extractLsb' 15 2).isLt⟩ : Fin 4) = p := by
  have : (immM p c o).extractLsb' 15 2 = BitVec.ofNat 2 p.val := by
    unfold immM; rw [extract_hi _ _ _ _ (by decide), extract_hi _ _ _ _ (by decide), extract_lo _ _ _ _ (by decide)]; exact BitVec.extractLsb'_eq_self
  simp [this]


theorem Raw.ctl_mk (x : Ctl) (g : BitVec 4) (f d a b c m : BitVec 8) (imm : BitVec 32) :
    Raw.ctl ⟨g, f, d, a, b, bit x.neg ++ BitVec.ofNat 3 x.pred.val,
      bit x.bnd ++ bit x.reuseA ++ bit x.reuseB ++ 0#5, c, m, imm⟩ = x := Raw.ctl_blank x g f

theorem Opd.dec_enc (o : Opd) : Opd.dec o.enc = some o := by
  cases o with
  | v n => exact Opd.dec_v n
  | k n => revert n; decide
  | t n => revert n; decide
  | b n => revert n; decide
  | zero => decide

theorem predDec_enc (p : Fin 8) : predDec (predEnc p) = some p := by revert p; decide
theorem barDec_enc (n : Fin 16) : barDec (barEnc n) = some n := by revert n; decide
theorem barOptDec_enc (o : Option (Fin 16)) : barOptDec (barOptEnc o) = some o := by
  cases o with
  | none => decide
  | some n => revert n; decide
theorem CrewCode.dec_enc (c : CrewCode) : CrewCode.dec c.enc = some c := by
  cases c with
  | id n => revert n; decide
  | cur => decide

theorem IntTy.ofCode_code (t : IntTy) : IntTy.ofCode t.code = t := by cases t <;> rfl
theorem Width.ofCode_code (t : Width) : Width.ofCode t.code = some t := by cases t <;> rfl
theorem AtomTy.ofCode_code (t : AtomTy) : AtomTy.ofCode t.code = some t := by cases t <;> rfl
theorem AtomFn.ofCode_code (t : AtomFn) : AtomFn.ofCode t.code = some t := by cases t <;> rfl
theorem RedTy.ofCode_code (t : RedTy) : RedTy.ofCode t.code = some t := by cases t <;> rfl
theorem RedFn.ofCode_code (t : RedFn) : RedFn.ofCode t.code = some t := by cases t <;> rfl
theorem FloatTy.ofCode_code (t : FloatTy) : FloatTy.ofCode t.code = some t := by cases t <;> rfl
theorem RndSel.ofCode_code (t : RndSel) : RndSel.ofCode t.code = some t := by cases t <;> rfl
theorem Cond.ofCode_code (t : Cond) : Cond.ofCode t.code = some t := by cases t <;> rfl
theorem ShflMode.ofCode_code (t : ShflMode) : ShflMode.ofCode t.code = some t := by cases t <;> rfl
theorem HitQuery.ofCode_code (t : HitQuery) : HitQuery.ofCode t.code = t := by cases t <;> rfl
theorem LobeKind.ofCode_code (t : LobeKind) : LobeKind.ofCode t.code = some t := by cases t <;> rfl
theorem KQuery.ofCode_code (t : KQuery) : KQuery.ofCode t.code = some t := by cases t <;> rfl
theorem RedFn.code_scan (t : RedFn) (e : Bool) :
    RedFn.ofCode ((t.code ||| (if e = true then 8#4 else 0#4)) &&& 7#4) = some t := by cases t <;> cases e <;> rfl

theorem mBits_ty (ty : BitVec 3) (low : BitVec 4) : (mBits ty low).extractLsb' 4 3 = ty := by
  revert ty low; decide
theorem mBits_low (ty : BitVec 3) (low : BitVec 4) : (mBits ty low).extractLsb' 0 4 = low := by
  revert ty low; decide
theorem or_high (m : BitVec 8) : (m ||| 128#8).getLsbD 7 = true := by revert m; decide
theorem mBits_high (ty : BitVec 3) (low : BitVec 4) : (mBits ty low).getLsbD 7 = false := by
  revert ty low; decide

theorem zero_high : (0#8).getLsbD 7 = false := by decide
theorem mBits_0 (ty : BitVec 3) (low : BitVec 4) : (mBits ty low).getLsbD 0 = low.getLsbD 0 := by revert ty low; decide
theorem mBits_1 (ty : BitVec 3) (low : BitVec 4) : (mBits ty low).getLsbD 1 = low.getLsbD 1 := by revert ty low; decide
theorem mBits_2 (ty : BitVec 3) (low : BitVec 4) : (mBits ty low).getLsbD 2 = low.getLsbD 2 := by revert ty low; decide
theorem mBits_3 (ty : BitVec 3) (low : BitVec 4) : (mBits ty low).getLsbD 3 = low.getLsbD 3 := by revert ty low; decide
theorem mBits_4 (ty : BitVec 3) (low : BitVec 4) : (mBits ty low).getLsbD 4 = ty.getLsbD 0 := by revert ty low; decide
theorem mBits_5 (ty : BitVec 3) (low : BitVec 4) : (mBits ty low).getLsbD 5 = ty.getLsbD 1 := by revert ty low; decide
theorem mBits_lo2 (ty : BitVec 3) (low : BitVec 4) : (mBits ty low).extractLsb' 0 2 = low.extractLsb' 0 2 := by revert ty low; decide
theorem mBits_lo3 (ty : BitVec 3) (low : BitVec 4) : (mBits ty low).extractLsb' 0 3 = low.extractLsb' 0 3 := by revert ty low; decide
theorem bit_top3 (b : Bool) : (bit b ++ 0#3).getLsbD 3 = b := by revert b; decide
theorem bit_low3 (b : Bool) : (0#3 ++ bit b).getLsbD 0 = b := by revert b; decide
theorem bit_low2 (b : Bool) : (0#2 ++ bit b).getLsbD 0 = b := by revert b; decide
theorem bit_low31 (b : Bool) : (0#31 ++ bit b).getLsbD 0 = b := by revert b; decide
theorem order_acq (a r : Bool) : (orderBits a r).getLsbD 2 = a := by revert a r; decide
theorem order_rel (a r : Bool) : (orderBits a r).getLsbD 3 = r := by revert a r; decide
theorem wide_bit (b : Bool) : (if b = true then 2#3 else 0#3).getLsbD 1 = b := by revert b; decide
theorem mclm_acc (a w : Bool) : (0#2 ++ bit a ++ bit w).getLsbD 1 = a := by revert a w; decide
theorem mclm_wait (a w : Bool) : (0#2 ++ bit a ++ bit w).getLsbD 0 = w := by revert a w; decide
theorem mrel_acc (a : Bool) : (0#2 ++ bit a ++ 0#1).getLsbD 1 = a := by revert a; decide
theorem hitq_direct (d : Bool) (q : BitVec 2) : (bit d ++ 0#1 ++ q).getLsbD 3 = d := by revert d q; decide
theorem hitq_query (d : Bool) (q : BitVec 2) : (bit d ++ 0#1 ++ q).extractLsb' 0 2 = q := by revert d q; decide
theorem kinfo_query (q : BitVec 2) : (0#2 ++ q).extractLsb' 0 2 = q := by revert q; decide
theorem mPred_low (p : Fin 8) : (⟨((mPredBits p).extractLsb' 0 3).toNat, ((mPredBits p).extractLsb' 0 3).isLt⟩ : Fin 8) = p := by
  revert p; decide
theorem pred_dim (p : Fin 8) : predDec (0#5 ++ (predEnc p).extractLsb' 0 3) = some p := by revert p; decide
theorem scan_excl (t : RedFn) (e : Bool) : (t.code ||| (if e = true then 8#4 else 0#4)).getLsbD 3 = e := by
  cases t <;> cases e <;> rfl
theorem cvti_float (b : Bool) (c : BitVec 3) : BitVec.getLsbD (w := 32) (0#28 ++ bit b ++ c) 3 = b := by revert b c; decide
theorem cvti_ty (b : Bool) (c : BitVec 3) : BitVec.extractLsb' (n := 32) 0 3 (0#28 ++ bit b ++ c) = c := by revert b c; decide
theorem scale_fmt (b : Bool) (c : BitVec 3) : BitVec.extractLsb' (n := 32) 2 3 (0#27 ++ c ++ 0#1 ++ bit b) = c := by revert b c; decide
theorem scale_exp (b : Bool) (c : BitVec 3) : BitVec.getLsbD (w := 32) (0#27 ++ c ++ 0#1 ++ bit b) 0 = b := by revert b c; decide
theorem imm_20 (y : BitVec 20) : BitVec.extractLsb' (n := 32) 0 20 (0#12 ++ y) = y := by
  rw [extract_lo _ _ _ _ (by decide)]; exact BitVec.extractLsb'_eq_self
theorem imm_8 (y : BitVec 8) : BitVec.extractLsb' (n := 32) 0 8 (0#24 ++ y) = y := by
  rw [extract_lo _ _ _ _ (by decide)]; exact BitVec.extractLsb'_eq_self
theorem imm_16 (y : BitVec 16) : BitVec.extractLsb' (n := 32) 0 16 (0#16 ++ y) = y := by
  rw [extract_lo _ _ _ _ (by decide)]; exact BitVec.extractLsb'_eq_self
theorem imm_7 (y : BitVec 7) : BitVec.extractLsb' (n := 32) 0 7 (0#25 ++ y) = y := by
  rw [extract_lo _ _ _ _ (by decide)]; exact BitVec.extractLsb'_eq_self
theorem plop_table (z : BitVec 3) (y : BitVec 8) : BitVec.extractLsb' (n := 32) 0 8 (0#21 ++ z ++ y) = y := by
  rw [extract_lo _ _ _ _ (by decide)]; exact BitVec.extractLsb'_eq_self
theorem plop_z (z : Fin 8) (y : BitVec 8) :
    (⟨(BitVec.extractLsb' (n := 32) 8 3 (0#21 ++ BitVec.ofNat 3 z.val ++ y)).toNat,
      (BitVec.extractLsb' (n := 32) 8 3 (0#21 ++ BitVec.ofNat 3 z.val ++ y)).isLt⟩ : Fin 8) = z := by
  have : BitVec.extractLsb' (n := 32) 8 3 (0#21 ++ BitVec.ofNat 3 z.val ++ y) = BitVec.ofNat 3 z.val := by
    rw [extract_hi _ _ _ _ (by decide), extract_lo _ _ _ _ (by decide)]; exact BitVec.extractLsb'_eq_self
  rw [Fin.ext_iff]; simp only [this, BitVec.toNat_ofNat]; omega
theorem pset_vals (m v : BitVec 7) : BitVec.extractLsb' (n := 32) 0 7 (0#17 ++ m ++ 0#1 ++ v) = v := by
  rw [extract_lo _ _ _ _ (by decide)]; exact BitVec.extractLsb'_eq_self
theorem pset_mask (m v : BitVec 7) : BitVec.extractLsb' (n := 32) 8 7 (0#17 ++ m ++ 0#1 ++ v) = m := by
  rw [extract_hi _ _ _ _ (by decide), extract_hi _ _ _ _ (by decide), extract_lo _ _ _ _ (by decide)]
  exact BitVec.extractLsb'_eq_self
theorem wait_l (t c s l : BitVec 6) : BitVec.extractLsb' (n := 32) 0 6 (0#8 ++ t ++ c ++ s ++ l) = l := by
  rw [extract_lo _ _ _ _ (by decide)]; exact BitVec.extractLsb'_eq_self
theorem wait_s (t c s l : BitVec 6) : BitVec.extractLsb' (n := 32) 6 6 (0#8 ++ t ++ c ++ s ++ l) = s := by
  rw [extract_hi _ _ _ _ (by decide), extract_lo _ _ _ _ (by decide)]; exact BitVec.extractLsb'_eq_self
theorem wait_c (t c s l : BitVec 6) : BitVec.extractLsb' (n := 32) 12 6 (0#8 ++ t ++ c ++ s ++ l) = c := by
  rw [extract_hi _ _ _ _ (by decide), extract_hi _ _ _ _ (by decide), extract_lo _ _ _ _ (by decide)]
  exact BitVec.extractLsb'_eq_self
theorem wait_t (t c s l : BitVec 6) : BitVec.extractLsb' (n := 32) 18 6 (0#8 ++ t ++ c ++ s ++ l) = t := by
  rw [extract_hi _ _ _ _ (by decide), extract_hi _ _ _ _ (by decide), extract_hi _ _ _ _ (by decide),
    extract_lo _ _ _ _ (by decide)]
  exact BitVec.extractLsb'_eq_self
theorem sread_reg (i : BitVec 10) (r : BitVec 8) : BitVec.extractLsb' (n := 32) 0 8 (0#14 ++ i ++ r) = r := by
  rw [extract_lo _ _ _ _ (by decide)]; exact BitVec.extractLsb'_eq_self
theorem sread_idx (i : BitVec 10) (r : BitVec 8) : BitVec.extractLsb' (n := 32) 8 10 (0#14 ++ i ++ r) = i := by
  rw [extract_hi _ _ _ _ (by decide), extract_lo _ _ _ _ (by decide)]; exact BitVec.extractLsb'_eq_self


/-! ## Operand b (R49) -/

theorem or_0 (m : BitVec 8) : (m ||| 128#8).getLsbD 0 = m.getLsbD 0 := by revert m; decide
theorem or_1 (m : BitVec 8) : (m ||| 128#8).getLsbD 1 = m.getLsbD 1 := by revert m; decide
theorem or_5 (m : BitVec 8) : (m ||| 128#8).getLsbD 5 = m.getLsbD 5 := by revert m; decide
theorem or_ty (m : BitVec 8) : (m ||| 128#8).extractLsb' 4 3 = m.extractLsb' 4 3 := by revert m; decide
theorem or_lo4 (m : BitVec 8) : (m ||| 128#8).extractLsb' 0 4 = m.extractLsb' 0 4 := by revert m; decide

theorem withSrc_d (r : Raw) (b : Src) : (r.withSrc b).d = r.d := by
  cases b <;> rfl
theorem withSrc_a (r : Raw) (b : Src) : (r.withSrc b).a = r.a := by
  cases b <;> rfl
theorem withSrc_c (r : Raw) (b : Src) : (r.withSrc b).c = r.c := by
  cases b <;> rfl
theorem withSrc_ctl (r : Raw) (b : Src) : (r.withSrc b).ctl = r.ctl := by
  cases b <;> rfl
theorem withSrc_ty (r : Raw) (b : Src) : (r.withSrc b).m.extractLsb' 4 3 = r.m.extractLsb' 4 3 := by
  cases b with
  | reg o => rfl
  | imm w => exact or_ty r.m
theorem withSrc_low (r : Raw) (b : Src) : (r.withSrc b).m.extractLsb' 0 4 = r.m.extractLsb' 0 4 := by
  cases b with
  | reg o => rfl
  | imm w => exact or_lo4 r.m
theorem withSrc_m0 (r : Raw) (b : Src) : (r.withSrc b).m.getLsbD 0 = r.m.getLsbD 0 := by
  cases b with
  | reg o => rfl
  | imm w => exact or_0 r.m
theorem withSrc_m1 (r : Raw) (b : Src) : (r.withSrc b).m.getLsbD 1 = r.m.getLsbD 1 := by
  cases b with
  | reg o => rfl
  | imm w => exact or_1 r.m
theorem withSrc_m5 (r : Raw) (b : Src) : (r.withSrc b).m.getLsbD 5 = r.m.getLsbD 5 := by
  cases b with
  | reg o => rfl
  | imm w => exact or_5 r.m
theorem src_withSrc (r : Raw) (b : Src) (h : r.m.getLsbD 7 = false) : (r.withSrc b).src = some b := by
  cases b with
  | reg o => simp only [Raw.src, Raw.withSrc, h, Opd.dec_enc, Bool.false_eq_true, if_false, Option.map_some]
  | imm w => simp only [Raw.src, Raw.withSrc, BitVec.ofNat_eq_ofNat, or_high, if_true]
theorem src_blank (x : Ctl) (g : BitVec 4) (f d a b c m : BitVec 8) (s : Src)
    (h : m.getLsbD 7 = false) : (Raw.withSrc ⟨g, f, d, a, b, bit x.neg ++ BitVec.ofNat 3 x.pred.val,
      bit x.bnd ++ bit x.reuseA ++ bit x.reuseB ++ 0#5, c, m, 0#32⟩ s).src = some s := src_withSrc _ s h

/-! ## Shapes -/

/-- Every shape is read back from the fields that it was written to. -/
structure ShapesRead : Prop where
  intOp : ∀ (x : IntOp) (g : BitVec 4) (f : BitVec 8), IntOp.parse (IntOp.raw x g f) = some x
  intOp3 : ∀ (x : IntOp3) (g : BitVec 4) (f : BitVec 8), IntOp3.parse (IntOp3.raw x g f) = some x
  intUn : ∀ (x : IntUn) (g : BitVec 4) (f : BitVec 8), IntUn.parse (IntUn.raw x g f) = some x
  movI : ∀ (x : MovI) (g : BitVec 4) (f : BitVec 8), MovI.parse (MovI.raw x g f) = some x
  movH : ∀ (x : MovH) (g : BitVec 4) (f : BitVec 8), MovH.parse (MovH.raw x g f) = some x
  leaOp : ∀ (x : LeaOp) (g : BitVec 4) (f : BitVec 8), LeaOp.parse (LeaOp.raw x g f) = some x
  icmpOp : ∀ (x : IcmpOp) (g : BitVec 4) (f : BitVec 8), IcmpOp.parse (IcmpOp.raw x g f) = some x
  selOp : ∀ (x : SelOp) (g : BitVec 4) (f : BitVec 8), SelOp.parse (SelOp.raw x g f) = some x
  plopOp : ∀ (x : PlopOp) (g : BitVec 4) (f : BitVec 8), PlopOp.parse (PlopOp.raw x g f) = some x
  psetOp : ∀ (x : PsetOp) (g : BitVec 4) (f : BitVec 8), PsetOp.parse (PsetOp.raw x g f) = some x
  brOp : ∀ (x : BrOp) (g : BitVec 4) (f : BitVec 8), BrOp.parse (BrOp.raw x g f) = some x
  aOp : ∀ (x : AOp) (g : BitVec 4) (f : BitVec 8), AOp.parse (AOp.raw x g f) = some x
  tcompOp : ∀ (x : AOp) (g : BitVec 4) (f : BitVec 8), TcompOp.parse (TcompOp.raw x g f) = some x
  noOp : ∀ (x : NoOp) (g : BitVec 4) (f : BitVec 8), NoOp.parse (NoOp.raw x g f) = some x
  loadOp : ∀ (x : LoadOp) (g : BitVec 4) (f : BitVec 8), LoadOp.parse (LoadOp.raw x g f) = some x
  storeOp : ∀ (x : StoreOp) (g : BitVec 4) (f : BitVec 8), StoreOp.parse (StoreOp.raw x g f) = some x
  prefOp : ∀ (x : PrefOp) (g : BitVec 4) (f : BitVec 8), PrefOp.parse (PrefOp.raw x g f) = some x
  fenceOp : ∀ (x : FenceOp) (g : BitVec 4) (f : BitVec 8), FenceOp.parse (FenceOp.raw x g f) = some x
  atomOp : ∀ (x : AtomOp) (g : BitVec 4) (f : BitVec 8), AtomOp.parse (AtomOp.raw x g f) = some x
  casOp : ∀ (x : CasOp) (g : BitVec 4) (f : BitVec 8), CasOp.parse (CasOp.raw x g f) = some x
  fOp : ∀ (x : FOp) (g : BitVec 4) (f : BitVec 8), FOp.parse (FOp.raw x g f) = some x
  fOp3 : ∀ (x : FOp3) (g : BitVec 4) (f : BitVec 8), FOp3.parse (FOp3.raw x g f) = some x
  fcmpOp : ∀ (x : FcmpOp) (g : BitVec 4) (f : BitVec 8), FcmpOp.parse (FcmpOp.raw x g f) = some x
  fUn : ∀ (x : FUn) (g : BitVec 4) (f : BitVec 8), FUn.parse (FUn.raw x g f) = some x
  dOp : ∀ (x : DOp) (g : BitVec 4) (f : BitVec 8), DOp.parse (DOp.raw x g f) = some x
  dfmaOp : ∀ (x : DOp3) (g : BitVec 4) (f : BitVec 8), DfmaOp.parse (DfmaOp.raw x g f) = some x
  dcmpOp : ∀ (x : DcmpOp) (g : BitVec 4) (f : BitVec 8), DcmpOp.parse (DcmpOp.raw x g f) = some x
  cvtOp : ∀ (x : CvtOp) (g : BitVec 4) (f : BitVec 8), CvtOp.parse (CvtOp.raw x g f) = some x
  cvtiOp : ∀ (x : CvtiOp) (g : BitVec 4) (f : BitVec 8), CvtiOp.parse (CvtiOp.raw x g f) = some x
  tagsetOp : ∀ (x : TagsetOp) (g : BitVec 4) (f : BitVec 8), TagsetOp.parse (TagsetOp.raw x g f) = some x
  daOp : ∀ (x : DaOp) (g : BitVec 4) (f : BitVec 8), DaOp.parse (DaOp.raw x g f) = some x
  rowOp : ∀ (x : RowOp) (g : BitVec 4) (f : BitVec 8), RowOp.parse (RowOp.raw x g f) = some x
  rowscaleOp : ∀ (x : RowscaleOp) (g : BitVec 4) (f : BitVec 8), RowscaleOp.parse (RowscaleOp.raw x g f) = some x
  joinOp : ∀ (x : JoinOp) (g : BitVec 4) (f : BitVec 8), JoinOp.parse (JoinOp.raw x g f) = some x
  bOp : ∀ (x : BOp) (g : BitVec 4) (f : BitVec 8), BOp.parse (BOp.raw x g f) = some x
  dbOp : ∀ (x : DbOp) (g : BitVec 4) (f : BitVec 8), DbOp.parse (DbOp.raw x g f) = some x
  shflOp : ∀ (x : ShflOp) (g : BitVec 4) (f : BitVec 8), ShflOp.parse (ShflOp.raw x g f) = some x
  credOp : ∀ (x : CredOp) (g : BitVec 4) (f : BitVec 8), CredOp.parse (CredOp.raw x g f) = some x
  cscanOp : ∀ (x : CscanOp) (g : BitVec 4) (f : BitVec 8), CscanOp.parse (CscanOp.raw x g f) = some x
  binitOp : ∀ (x : BinitOp) (g : BitVec 4) (f : BitVec 8), BinitOp.parse (BinitOp.raw x g f) = some x
  barvOp : ∀ (x : BarvOp) (g : BitVec 4) (f : BitVec 8), BarvOp.parse (BarvOp.raw x g f) = some x
  bwaitOp : ∀ (x : BwaitOp) (g : BitVec 4) (f : BitVec 8), BwaitOp.parse (BwaitOp.raw x g f) = some x
  bsyncOp : ∀ (x : BsyncOp) (g : BitVec 4) (f : BitVec 8), BsyncOp.parse (BsyncOp.raw x g f) = some x
  copyOp : ∀ (x : CopyOp) (g : BitVec 4) (f : BitVec 8), CopyOp.parse (CopyOp.raw x g f) = some x
  copyxOp : ∀ (x : CopyxOp) (g : BitVec 4) (f : BitVec 8), CopyxOp.parse (CopyxOp.raw x g f) = some x
  publOp : ∀ (x : PublOp) (g : BitVec 4) (f : BitVec 8), PublOp.parse (PublOp.raw x g f) = some x
  cpqOp : ∀ (x : CpqOp) (g : BitVec 4) (f : BitVec 8), CpqOp.parse (CpqOp.raw x g f) = some x
  waitOp : ∀ (x : WaitOp) (g : BitVec 4) (f : BitVec 8), WaitOp.parse (WaitOp.raw x g f) = some x
  mclmOp : ∀ (x : MclmOp) (g : BitVec 4) (f : BitVec 8), MclmOp.parse (MclmOp.raw x g f) = some x
  mrelOp : ∀ (x : MrelOp) (g : BitVec 4) (f : BitVec 8), MrelOp.parse (MrelOp.raw x g f) = some x
  mldsOp : ∀ (x : MldsOp) (g : BitVec 4) (f : BitVec 8), MldsOp.parse (MldsOp.raw x g f) = some x
  mpostOp : ∀ (x : MpostOp) (g : BitVec 4) (f : BitVec 8), MpostOp.parse (MpostOp.raw x g f) = some x
  maccOp : ∀ (x : MaccOp) (g : BitVec 4) (f : BitVec 8), MaccOp.parse (MaccOp.raw x g f) = some x
  traceOp : ∀ (x : TraceOp) (g : BitVec 4) (f : BitVec 8), TraceOp.parse (TraceOp.raw x g f) = some x
  tracecOp : ∀ (x : TracecOp) (g : BitVec 4) (f : BitVec 8), TracecOp.parse (TracecOp.raw x g f) = some x
  replayOp : ∀ (x : ReplayOp) (g : BitVec 4) (f : BitVec 8), ReplayOp.parse (ReplayOp.raw x g f) = some x
  hitqOp : ∀ (x : HitqOp) (g : BitVec 4) (f : BitVec 8), HitqOp.parse (HitqOp.raw x g f) = some x
  directOp : ∀ (x : DirectOp) (g : BitVec 4) (f : BitVec 8), DirectOp.parse (DirectOp.raw x g f) = some x
  kclrOp : ∀ (x : KclrOp) (g : BitVec 4) (f : BitVec 8), KclrOp.parse (KclrOp.raw x g f) = some x
  klobeOp : ∀ (x : KlobeOp) (g : BitVec 4) (f : BitVec 8), KlobeOp.parse (KlobeOp.raw x g f) = some x
  kabOp : ∀ (x : KabOp) (g : BitVec 4) (f : BitVec 8), KabOp.parse (KabOp.raw x g f) = some x
  kabcOp : ∀ (x : KabcOp) (g : BitVec 4) (f : BitVec 8), KabcOp.parse (KabcOp.raw x g f) = some x
  kevalOp : ∀ (x : KevalOp) (g : BitVec 4) (f : BitVec 8), KevalOp.parse (KevalOp.raw x g f) = some x
  kspillOp : ∀ (x : KspillOp) (g : BitVec 4) (f : BitVec 8), KspillOp.parse (KspillOp.raw x g f) = some x
  kfillOp : ∀ (x : KfillOp) (g : BitVec 4) (f : BitVec 8), KfillOp.parse (KfillOp.raw x g f) = some x
  kinfoOp : ∀ (x : KinfoOp) (g : BitVec 4) (f : BitVec 8), KinfoOp.parse (KinfoOp.raw x g f) = some x
  yieldbOp : ∀ (x : YieldbOp) (g : BitVec 4) (f : BitVec 8), YieldbOp.parse (YieldbOp.raw x g f) = some x
  wakeOp : ∀ (x : WakeOp) (g : BitVec 4) (f : BitVec 8), WakeOp.parse (WakeOp.raw x g f) = some x
  binqOp : ∀ (x : BinqOp) (g : BitVec 4) (f : BitVec 8), BinqOp.parse (BinqOp.raw x g f) = some x
  tsortOp : ∀ (x : TsortOp) (g : BitVec 4) (f : BitVec 8), TsortOp.parse (TsortOp.raw x g f) = some x
  lineOp : ∀ (x : LineOp) (g : BitVec 4) (f : BitVec 8), LineOp.parse (LineOp.raw x g f) = some x
  holdOp : ∀ (x : HoldOp) (g : BitVec 4) (f : BitVec 8), HoldOp.parse (HoldOp.raw x g f) = some x
  syscOp : ∀ (x : SyscOp) (g : BitVec 4) (f : BitVec 8), SyscOp.parse (SyscOp.raw x g f) = some x
  codeOp : ∀ (x : CodeOp) (g : BitVec 4) (f : BitVec 8), CodeOp.parse (CodeOp.raw x g f) = some x
  sreadOp : ∀ (x : SreadOp) (g : BitVec 4) (f : BitVec 8), SreadOp.parse (SreadOp.raw x g f) = some x
  swriteOp : ∀ (x : SwriteOp) (g : BitVec 4) (f : BitVec 8), SwriteOp.parse (SwriteOp.raw x g f) = some x
  nopreOp : ∀ (x : NopreOp) (g : BitVec 4) (f : BitVec 8), NopreOp.parse (NopreOp.raw x g f) = some x

theorem shapes_read : ShapesRead := by
  constructor <;> intro x g f <;>
    simp (disch := first | exact mBits_high _ _ | decide) only [
      IntOp.parse, IntOp.raw, IntOp3.parse, IntOp3.raw, IntUn.parse, IntUn.raw, MovI.parse, MovI.raw,
      MovH.parse, MovH.raw, LeaOp.parse, LeaOp.raw, IcmpOp.parse, IcmpOp.raw, SelOp.parse, SelOp.raw,
      PlopOp.parse, PlopOp.raw, PsetOp.parse, PsetOp.raw, BrOp.parse, BrOp.raw, AOp.parse, AOp.raw,
      TcompOp.parse, TcompOp.raw, NoOp.parse, NoOp.raw, LoadOp.parse, LoadOp.raw, StoreOp.parse,
      StoreOp.raw, PrefOp.parse, PrefOp.raw, FenceOp.parse, FenceOp.raw, AtomOp.parse, AtomOp.raw,
      CasOp.parse, CasOp.raw, FOp.parse, FOp.raw, FOp3.parse, FOp3.raw, FcmpOp.parse, FcmpOp.raw,
      FUn.parse, FUn.raw, DOp.parse, DOp.raw, DfmaOp.parse, DfmaOp.raw, DcmpOp.parse, DcmpOp.raw,
      CvtOp.parse, CvtOp.raw, CvtiOp.parse, CvtiOp.raw, TagsetOp.parse, TagsetOp.raw, DaOp.parse,
      DaOp.raw, RowOp.parse, RowOp.raw, RowscaleOp.parse, RowscaleOp.raw, JoinOp.parse, JoinOp.raw,
      BOp.parse, BOp.raw, DbOp.parse, DbOp.raw, ShflOp.parse, ShflOp.raw, CredOp.parse, CredOp.raw,
      CscanOp.parse, CscanOp.raw, BinitOp.parse, BinitOp.raw, BarvOp.parse, BarvOp.raw, BwaitOp.parse,
      BwaitOp.raw, BsyncOp.parse, BsyncOp.raw, CopyOp.parse, CopyOp.raw, CopyxOp.parse, CopyxOp.raw,
      PublOp.parse, PublOp.raw, CpqOp.parse, CpqOp.raw, WaitOp.parse, WaitOp.raw, MclmOp.parse,
      MclmOp.raw, MrelOp.parse, MrelOp.raw, MldsOp.parse, MldsOp.raw, MpostOp.parse, MpostOp.raw,
      MaccOp.parse, MaccOp.raw, TraceOp.parse, TraceOp.raw, TracecOp.parse, TracecOp.raw,
      ReplayOp.parse, ReplayOp.raw, HitqOp.parse, HitqOp.raw, DirectOp.parse, DirectOp.raw,
      KclrOp.parse, KclrOp.raw, KlobeOp.parse, KlobeOp.raw, KabOp.parse, KabOp.raw, KabcOp.parse,
      KabcOp.raw, KevalOp.parse, KevalOp.raw, KspillOp.parse, KspillOp.raw, KfillOp.parse, KfillOp.raw,
      KinfoOp.parse, KinfoOp.raw, YieldbOp.parse, YieldbOp.raw, WakeOp.parse, WakeOp.raw, BinqOp.parse,
      BinqOp.raw, TsortOp.parse, TsortOp.raw, LineOp.parse, LineOp.raw, HoldOp.parse, HoldOp.raw,
      SyscOp.parse, SyscOp.raw, CodeOp.parse, CodeOp.raw, SreadOp.parse, SreadOp.raw, SwriteOp.parse,
      SwriteOp.raw, NopreOp.parse, NopreOp.raw, Raw.ty, Raw.low, Raw.off, Raw.colour, Raw.pol,
      Raw.blank, IntTy.ofCode_code, Width.ofCode_code, AtomTy.ofCode_code, AtomFn.ofCode_code,
      RedTy.ofCode_code, RedFn.ofCode_code, FloatTy.ofCode_code, RndSel.ofCode_code, Cond.ofCode_code,
      ShflMode.ofCode_code, HitQuery.ofCode_code, LobeKind.ofCode_code, KQuery.ofCode_code, mBits_0,
      mBits_1, mBits_2, mBits_3, mBits_4, mBits_5, mBits_lo2, mBits_lo3, bit_top3, bit_low3, bit_low2,
      bit_low31, order_acq, order_rel, wide_bit, mclm_acc, mclm_wait, mrel_acc, hitq_direct,
      hitq_query, kinfo_query, mPred_low, pred_dim, scan_excl, cvti_float, cvti_ty, scale_fmt,
      scale_exp, imm_20, imm_8, imm_16, plop_table, plop_z, pset_vals, pset_mask, wait_l, wait_s,
      wait_c, wait_t, sread_reg, sread_idx, travM, Raw.f64, Raw.mPred, Raw.ctl_mk, Opd.dec_enc,
      predDec_enc, barDec_enc, barOptDec_enc, CrewCode.dec_enc, mBits_ty, mBits_low, immM_off,
      immM_colour, immM_pol, RedFn.code_scan, withSrc_d, withSrc_a, withSrc_c, withSrc_ctl, withSrc_ty,
      withSrc_low, withSrc_m0, withSrc_m1, withSrc_m5, src_blank, BitVec.ofNat_eq_ofNat,
      Option.bind_eq_bind, Option.bind_some, Option.pure_def, or_ty]

theorem DotOp.parse_raw (x : DOp3) (g : BitVec 4) (f : BitVec 8) : DotOp.parse (DotOp.raw x g f) = some x := by
  simp only [DotOp.parse, DotOp.raw, DfmaOp.parse, DfmaOp.raw, Raw.blank, Raw.low,
    Raw.ctl_mk, Opd.dec_enc, mBits_low, RndSel.ofCode_code, BitVec.ofNat_eq_ofNat, Option.bind_eq_bind, Option.bind_some, Option.pure_def]

theorem PmovOp.parse_raw (x : PmovOp) (g : BitVec 4) (f : BitVec 8) : PmovOp.parse (PmovOp.raw x g f) = some x := by
  obtain ⟨c, d⟩ := x
  cases d with
  | toReg d =>
    simp only [PmovOp.parse, PmovOp.raw, Raw.blank, Raw.ctl_mk, Opd.dec_enc, BitVec.ofNat_eq_ofNat, Option.bind_eq_bind,
      Option.bind_some, Option.pure_def, ite_true]
  | fromReg a m =>
    simp only [PmovOp.parse, PmovOp.raw, Raw.blank, Raw.ctl_mk, Opd.dec_enc, imm_7, BitVec.ofNat_eq_ofNat,
      Option.bind_eq_bind, Option.bind_some, Option.pure_def, ite_true]
    rfl

theorem PmovOp.raw_group (x : PmovOp) (g : BitVec 4) (f : BitVec 8) : (PmovOp.raw x g f).group = g := by
  obtain ⟨_, d⟩ := x; cases d <;> rfl
theorem PmovOp.raw_fn (x : PmovOp) (g : BitVec 4) (f : BitVec 8) : (PmovOp.raw x g f).fn = f := by
  obtain ⟨_, d⟩ := x; cases d <;> rfl

theorem VoteDst.parse_field (v : VoteDst) (r : Raw) (hd : r.d = v.field) (hm : r.low = v.mode) :
    VoteDst.parse r = some v := by
  cases v <;> simp [VoteDst.parse, VoteDst.field, VoteDst.mode] at hd hm ⊢ <;> simp [hd, hm, predDec_enc, Opd.dec_enc]

theorem VoteOp.parse_raw (x : VoteOp) (g : BitVec 4) (f : BitVec 8) : VoteOp.parse (VoteOp.raw x g f) = some x := by
  have h := VoteDst.parse_field x.dst (VoteOp.raw x g f) rfl (mBits_low _ _)
  unfold VoteOp.parse
  rw [h]
  simp only [VoteOp.raw, Raw.blank, Raw.ctl_mk, predDec_enc, CrewCode.dec_enc, BitVec.ofNat_eq_ofNat,
    Option.bind_eq_bind, Option.bind_some, Option.pure_def]

theorem TretMode.parse_imm (m : TretMode) : TretMode.parse m.imm = some m := by
  cases m with
  | resume => rfl
  | skip => rfl
  | jump o =>
    have h : BitVec.extractLsb' (n := 32) 0 2 (o ++ (2 : BitVec 2)) = 2 := by
      rw [extract_lo _ _ _ _ (by decide)]; decide
    have h2 : BitVec.extractLsb' (n := 32) 2 30 (o ++ (2 : BitVec 2)) = o := by
      rw [extract_hi _ _ _ _ (by decide)]; exact BitVec.extractLsb'_eq_self
    unfold TretMode.parse TretMode.imm
    rw [h, h2]
    rfl

theorem TretOp.parse_raw (x : TretOp) (g : BitVec 4) (f : BitVec 8) : TretOp.parse (TretOp.raw x g f) = some x := by
  simp only [TretOp.parse, TretOp.raw, Raw.blank, Raw.ctl_mk, TretMode.parse_imm, BitVec.ofNat_eq_ofNat,
    Option.bind_eq_bind, Option.bind_some, Option.pure_def]

/-! ## From the fields to the instruction -/

theorem withSrc_group (r : Raw) (b : Src) : (r.withSrc b).group = r.group := by cases b <;> rfl
theorem withSrc_fn (r : Raw) (b : Src) : (r.withSrc b).fn = r.fn := by cases b <;> rfl

/-- A word of a pair (group, fn) is the instruction of that pair, with the operands its shape reads. -/
theorem parseRaw_shape {X : Type} {r : Raw} {g : BitVec 4} {f : BitVec 8} {p : Raw → Option X}
    {k : X → Instr} {x : X} (hg : r.group = g) (hf : r.fn = f)
    (sel : ∀ d a b gd hi c m im, parseRaw ⟨g, f, d, a, b, gd, hi, c, m, im⟩ =
      (p ⟨g, f, d, a, b, gd, hi, c, m, im⟩).map k)
    (hp : p r = some x) : parseRaw r = some (k x) := by
  cases r
  cases hg
  cases hf
  rw [sel, hp]
  rfl

/-- The word of a well-formed instruction whose fields are read back decodes to it. -/
theorem decode_of_parse {i : Instr} {r : Raw} (he : encodeRaw i = some r) (hp : parseRaw r = some i) :
    ∀ w, encode i = some w → i.wf = true → decode w = .ok i := by
  intro w hw hi
  have : w = r.toWord := by simpa [encode, he] using hw.symm
  subst this
  simp [decode, Raw.ofWord_toWord, hp, hi, hw]

end Sys2Proof
end

