-- ==== Sys2Proof/Laws/Table.lean ====
section
/-! SUPPORT. Laws/Table.lean: reading a table after a write, an addition or a removal. -/

namespace Sys2Proof.Machine

variable {κ α : Type} [DecidableEq κ]

@[simp] theorem tget_nil (k : κ) : tget ([] : Table κ α) k = none := rfl

/-- A key reads as what was put there. -/
@[simp] theorem tget_tput_self (m : Table κ α) (k : κ) (v : α) : tget (tput m k v) k = some v := by
  induction m with
  | nil => simp [tput, tget]
  | cons p r ih =>
    obtain ⟨k', v'⟩ := p
    by_cases h : k = k' <;> simp [tput, tget, h, ih]

/-- Every other key reads as before. -/
theorem tget_tput_ne (m : Table κ α) {k j : κ} (v : α) (h : j ≠ k) : tget (tput m k v) j = tget m j := by
  induction m with
  | nil => simp [tput, tget, h]
  | cons p r ih =>
    obtain ⟨k', v'⟩ := p
    by_cases hk : k = k'
    · subst hk; simp [tput, tget, h]
    · by_cases hj : j = k' <;> simp [tput, tget, hk, hj, ih]

/-- A put decides every read. -/
theorem tget_tput (m : Table κ α) (k j : κ) (v : α) :
    tget (tput m k v) j = if j = k then some v else tget m j := by
  split
  · next h => subst h; simp
  · next h => exact tget_tput_ne m v h

/-- A removed key reads as absent. -/
@[simp] theorem tget_tdel_self (m : Table κ α) (k : κ) : tget (tdel m k) k = none := by
  induction m with
  | nil => rfl
  | cons p r ih =>
    obtain ⟨k', v'⟩ := p
    by_cases h : k = k' <;> simp [tdel, tget, h]
    · subst h; exact ih
    · exact ih

/-- Every other key reads as before. -/
theorem tget_tdel_ne (m : Table κ α) {k j : κ} (h : j ≠ k) : tget (tdel m k) j = tget m j := by
  induction m with
  | nil => rfl
  | cons p r ih =>
    obtain ⟨k', v'⟩ := p
    by_cases hk : k = k'
    · subst hk; simp [tdel, tget, h, ih]
    · by_cases hj : j = k' <;> simp [tdel, tget, hk, hj, ih]

/-- What a key holds is an entry of the table. -/
theorem tget_mem {m : Table κ α} {k : κ} {v : α} (h : tget m k = some v) : (k, v) ∈ m := by
  induction m with
  | nil => simp at h
  | cons p r ih =>
    obtain ⟨k', v'⟩ := p
    by_cases hk : k = k'
    · subst hk; simp [tget] at h; simp [h]
    · simp [tget, hk] at h; simp [ih h]

/-- Putting back what a key holds changes nothing. -/
theorem tput_tget (m : Table κ α) (k : κ) (v : α) (h : tget m k = some v) : tput m k v = m := by
  induction m with
  | nil => simp at h
  | cons p r ih =>
    obtain ⟨k', v'⟩ := p
    by_cases hk : k = k'
    · subst hk; simp [tget] at h; simp [tput, h]
    · simp [tget, hk] at h; simp [tput, hk, ih h]

/-- The last of two puts at a key stays. -/
@[simp] theorem tput_tput_self (m : Table κ α) (k : κ) (v w : α) : tput (tput m k v) k w = tput m k w := by
  induction m with
  | nil => simp [tput]
  | cons p r ih =>
    obtain ⟨k', v'⟩ := p
    by_cases h : k = k' <;> simp [tput, h, ih]

end Sys2Proof.Machine
end

