-- ==== Sys2Proof/Laws/State.lean ====
section
/-! SUPPORT. Laws/State.lean: what each named update of the state, and of a thread, leaves in every
field: one lemma for each field of each update. -/

namespace Sys2Proof.Machine

/-! ## Updates of the state -/

section setThread
variable (s : State) (id : ThreadId) (t : Thread)

@[simp] theorem State.setThread_threads : (s.setThread id t).threads = tput s.threads id t := rfl
@[simp] theorem State.setThread_courses : (s.setThread id t).courses = s.courses := rfl
@[simp] theorem State.setThread_launches : (s.setThread id t).launches = s.launches := rfl
@[simp] theorem State.setThread_queues : (s.setThread id t).queues = s.queues := rfl
@[simp] theorem State.setThread_parts : (s.setThread id t).parts = s.parts := rfl
@[simp] theorem State.setThread_ctxs : (s.setThread id t).ctxs = s.ctxs := rfl
@[simp] theorem State.setThread_ops : (s.setThread id t).ops = s.ops := rfl
@[simp] theorem State.setThread_cores : (s.setThread id t).cores = s.cores := rfl
@[simp] theorem State.setThread_clusters : (s.setThread id t).clusters = s.clusters := rfl
@[simp] theorem State.setThread_dies : (s.setThread id t).dies = s.dies := rfl
@[simp] theorem State.setThread_mem : (s.setThread id t).mem = s.mem := rfl
@[simp] theorem State.setThread_units : (s.setThread id t).units = s.units := rfl
@[simp] theorem State.setThread_poisoned : (s.setThread id t).poisoned = s.poisoned := rfl
@[simp] theorem State.setThread_caps : (s.setThread id t).caps = s.caps := rfl
@[simp] theorem State.setThread_cycle : (s.setThread id t).cycle = s.cycle := rfl
@[simp] theorem State.setThread_mgmt : (s.setThread id t).mgmt = s.mgmt := rfl
@[simp] theorem State.setThread_keys : (s.setThread id t).keys = s.keys := rfl
@[simp] theorem State.setThread_transports : (s.setThread id t).transports = s.transports := rfl
@[simp] theorem State.setThread_ports : (s.setThread id t).ports = s.ports := rfl
@[simp] theorem State.setThread_collectives : (s.setThread id t).collectives = s.collectives := rfl
@[simp] theorem State.setThread_suspended : (s.setThread id t).suspended = s.suspended := rfl
@[simp] theorem State.setThread_started : (s.setThread id t).started = s.started := rfl
@[simp] theorem State.setThread_startFailed : (s.setThread id t).startFailed = s.startFailed := rfl
@[simp] theorem State.setThread_tools : (s.setThread id t).tools = s.tools := rfl
@[simp] theorem State.setThread_inputs : (s.setThread id t).inputs = s.inputs := rfl
@[simp] theorem State.setThread_issue : (s.setThread id t).issue = s.issue := rfl
@[simp] theorem State.setThread_turn : (s.setThread id t).turn = s.turn := rfl
@[simp] theorem State.setThread_free : (s.setThread id t).free = s.free := rfl
@[simp] theorem State.setThread_nextId : (s.setThread id t).nextId = s.nextId := rfl
@[simp] theorem State.setThread_freed : (s.setThread id t).freed = s.freed := rfl
@[simp] theorem State.setThread_warm : (s.setThread id t).warm = s.warm := rfl
@[simp] theorem State.setThread_settled : (s.setThread id t).settled = s.settled := rfl
@[simp] theorem State.setThread_order : (s.setThread id t).order = s.order := rfl
@[simp] theorem State.setThread_spares : (s.setThread id t).spares = s.spares := rfl
@[simp] theorem State.setThread_past : (s.setThread id t).past = s.past := rfl
@[simp] theorem State.setThread_answer : (s.setThread id t).answer = s.answer := rfl

end setThread

section setCourse
variable (s : State) (id : CourseId) (c : Course)

@[simp] theorem State.setCourse_threads : (s.setCourse id c).threads = s.threads := rfl
@[simp] theorem State.setCourse_courses : (s.setCourse id c).courses = tput s.courses id c := rfl
@[simp] theorem State.setCourse_launches : (s.setCourse id c).launches = s.launches := rfl
@[simp] theorem State.setCourse_queues : (s.setCourse id c).queues = s.queues := rfl
@[simp] theorem State.setCourse_parts : (s.setCourse id c).parts = s.parts := rfl
@[simp] theorem State.setCourse_ctxs : (s.setCourse id c).ctxs = s.ctxs := rfl
@[simp] theorem State.setCourse_ops : (s.setCourse id c).ops = s.ops := rfl
@[simp] theorem State.setCourse_cores : (s.setCourse id c).cores = s.cores := rfl
@[simp] theorem State.setCourse_clusters : (s.setCourse id c).clusters = s.clusters := rfl
@[simp] theorem State.setCourse_dies : (s.setCourse id c).dies = s.dies := rfl
@[simp] theorem State.setCourse_mem : (s.setCourse id c).mem = s.mem := rfl
@[simp] theorem State.setCourse_units : (s.setCourse id c).units = s.units := rfl
@[simp] theorem State.setCourse_poisoned : (s.setCourse id c).poisoned = s.poisoned := rfl
@[simp] theorem State.setCourse_caps : (s.setCourse id c).caps = s.caps := rfl
@[simp] theorem State.setCourse_cycle : (s.setCourse id c).cycle = s.cycle := rfl
@[simp] theorem State.setCourse_mgmt : (s.setCourse id c).mgmt = s.mgmt := rfl
@[simp] theorem State.setCourse_keys : (s.setCourse id c).keys = s.keys := rfl
@[simp] theorem State.setCourse_transports : (s.setCourse id c).transports = s.transports := rfl
@[simp] theorem State.setCourse_ports : (s.setCourse id c).ports = s.ports := rfl
@[simp] theorem State.setCourse_collectives : (s.setCourse id c).collectives = s.collectives := rfl
@[simp] theorem State.setCourse_suspended : (s.setCourse id c).suspended = s.suspended := rfl
@[simp] theorem State.setCourse_started : (s.setCourse id c).started = s.started := rfl
@[simp] theorem State.setCourse_startFailed : (s.setCourse id c).startFailed = s.startFailed := rfl
@[simp] theorem State.setCourse_tools : (s.setCourse id c).tools = s.tools := rfl
@[simp] theorem State.setCourse_inputs : (s.setCourse id c).inputs = s.inputs := rfl
@[simp] theorem State.setCourse_issue : (s.setCourse id c).issue = s.issue := rfl
@[simp] theorem State.setCourse_turn : (s.setCourse id c).turn = s.turn := rfl
@[simp] theorem State.setCourse_free : (s.setCourse id c).free = s.free := rfl
@[simp] theorem State.setCourse_nextId : (s.setCourse id c).nextId = s.nextId := rfl
@[simp] theorem State.setCourse_freed : (s.setCourse id c).freed = s.freed := rfl
@[simp] theorem State.setCourse_warm : (s.setCourse id c).warm = s.warm := rfl
@[simp] theorem State.setCourse_settled : (s.setCourse id c).settled = s.settled := rfl
@[simp] theorem State.setCourse_order : (s.setCourse id c).order = s.order := rfl
@[simp] theorem State.setCourse_spares : (s.setCourse id c).spares = s.spares := rfl
@[simp] theorem State.setCourse_past : (s.setCourse id c).past = s.past := rfl
@[simp] theorem State.setCourse_answer : (s.setCourse id c).answer = s.answer := rfl

end setCourse

section setLaunch
variable (s : State) (l : Nat) (x : Launch)

@[simp] theorem State.setLaunch_threads : (s.setLaunch l x).threads = s.threads := rfl
@[simp] theorem State.setLaunch_courses : (s.setLaunch l x).courses = s.courses := rfl
@[simp] theorem State.setLaunch_launches : (s.setLaunch l x).launches = tput s.launches l x := rfl
@[simp] theorem State.setLaunch_queues : (s.setLaunch l x).queues = s.queues := rfl
@[simp] theorem State.setLaunch_parts : (s.setLaunch l x).parts = s.parts := rfl
@[simp] theorem State.setLaunch_ctxs : (s.setLaunch l x).ctxs = s.ctxs := rfl
@[simp] theorem State.setLaunch_ops : (s.setLaunch l x).ops = s.ops := rfl
@[simp] theorem State.setLaunch_cores : (s.setLaunch l x).cores = s.cores := rfl
@[simp] theorem State.setLaunch_clusters : (s.setLaunch l x).clusters = s.clusters := rfl
@[simp] theorem State.setLaunch_dies : (s.setLaunch l x).dies = s.dies := rfl
@[simp] theorem State.setLaunch_mem : (s.setLaunch l x).mem = s.mem := rfl
@[simp] theorem State.setLaunch_units : (s.setLaunch l x).units = s.units := rfl
@[simp] theorem State.setLaunch_poisoned : (s.setLaunch l x).poisoned = s.poisoned := rfl
@[simp] theorem State.setLaunch_caps : (s.setLaunch l x).caps = s.caps := rfl
@[simp] theorem State.setLaunch_cycle : (s.setLaunch l x).cycle = s.cycle := rfl
@[simp] theorem State.setLaunch_mgmt : (s.setLaunch l x).mgmt = s.mgmt := rfl
@[simp] theorem State.setLaunch_keys : (s.setLaunch l x).keys = s.keys := rfl
@[simp] theorem State.setLaunch_transports : (s.setLaunch l x).transports = s.transports := rfl
@[simp] theorem State.setLaunch_ports : (s.setLaunch l x).ports = s.ports := rfl
@[simp] theorem State.setLaunch_collectives : (s.setLaunch l x).collectives = s.collectives := rfl
@[simp] theorem State.setLaunch_suspended : (s.setLaunch l x).suspended = s.suspended := rfl
@[simp] theorem State.setLaunch_started : (s.setLaunch l x).started = s.started := rfl
@[simp] theorem State.setLaunch_startFailed : (s.setLaunch l x).startFailed = s.startFailed := rfl
@[simp] theorem State.setLaunch_tools : (s.setLaunch l x).tools = s.tools := rfl
@[simp] theorem State.setLaunch_inputs : (s.setLaunch l x).inputs = s.inputs := rfl
@[simp] theorem State.setLaunch_issue : (s.setLaunch l x).issue = s.issue := rfl
@[simp] theorem State.setLaunch_turn : (s.setLaunch l x).turn = s.turn := rfl
@[simp] theorem State.setLaunch_free : (s.setLaunch l x).free = s.free := rfl
@[simp] theorem State.setLaunch_nextId : (s.setLaunch l x).nextId = s.nextId := rfl
@[simp] theorem State.setLaunch_freed : (s.setLaunch l x).freed = s.freed := rfl
@[simp] theorem State.setLaunch_warm : (s.setLaunch l x).warm = s.warm := rfl
@[simp] theorem State.setLaunch_settled : (s.setLaunch l x).settled = s.settled := rfl
@[simp] theorem State.setLaunch_order : (s.setLaunch l x).order = s.order := rfl
@[simp] theorem State.setLaunch_spares : (s.setLaunch l x).spares = s.spares := rfl
@[simp] theorem State.setLaunch_past : (s.setLaunch l x).past = s.past := rfl
@[simp] theorem State.setLaunch_answer : (s.setLaunch l x).answer = s.answer := rfl

end setLaunch

section setQueue
variable (s : State) (p q : Nat) (x : Queue)

@[simp] theorem State.setQueue_threads : (s.setQueue p q x).threads = s.threads := rfl
@[simp] theorem State.setQueue_courses : (s.setQueue p q x).courses = s.courses := rfl
@[simp] theorem State.setQueue_launches : (s.setQueue p q x).launches = s.launches := rfl
@[simp] theorem State.setQueue_queues : (s.setQueue p q x).queues = tput s.queues (p, q) x := rfl
@[simp] theorem State.setQueue_parts : (s.setQueue p q x).parts = s.parts := rfl
@[simp] theorem State.setQueue_ctxs : (s.setQueue p q x).ctxs = s.ctxs := rfl
@[simp] theorem State.setQueue_ops : (s.setQueue p q x).ops = s.ops := rfl
@[simp] theorem State.setQueue_cores : (s.setQueue p q x).cores = s.cores := rfl
@[simp] theorem State.setQueue_clusters : (s.setQueue p q x).clusters = s.clusters := rfl
@[simp] theorem State.setQueue_dies : (s.setQueue p q x).dies = s.dies := rfl
@[simp] theorem State.setQueue_mem : (s.setQueue p q x).mem = s.mem := rfl
@[simp] theorem State.setQueue_units : (s.setQueue p q x).units = s.units := rfl
@[simp] theorem State.setQueue_poisoned : (s.setQueue p q x).poisoned = s.poisoned := rfl
@[simp] theorem State.setQueue_caps : (s.setQueue p q x).caps = s.caps := rfl
@[simp] theorem State.setQueue_cycle : (s.setQueue p q x).cycle = s.cycle := rfl
@[simp] theorem State.setQueue_mgmt : (s.setQueue p q x).mgmt = s.mgmt := rfl
@[simp] theorem State.setQueue_keys : (s.setQueue p q x).keys = s.keys := rfl
@[simp] theorem State.setQueue_transports : (s.setQueue p q x).transports = s.transports := rfl
@[simp] theorem State.setQueue_ports : (s.setQueue p q x).ports = s.ports := rfl
@[simp] theorem State.setQueue_collectives : (s.setQueue p q x).collectives = s.collectives := rfl
@[simp] theorem State.setQueue_suspended : (s.setQueue p q x).suspended = s.suspended := rfl
@[simp] theorem State.setQueue_started : (s.setQueue p q x).started = s.started := rfl
@[simp] theorem State.setQueue_startFailed : (s.setQueue p q x).startFailed = s.startFailed := rfl
@[simp] theorem State.setQueue_tools : (s.setQueue p q x).tools = s.tools := rfl
@[simp] theorem State.setQueue_inputs : (s.setQueue p q x).inputs = s.inputs := rfl
@[simp] theorem State.setQueue_issue : (s.setQueue p q x).issue = s.issue := rfl
@[simp] theorem State.setQueue_turn : (s.setQueue p q x).turn = s.turn := rfl
@[simp] theorem State.setQueue_free : (s.setQueue p q x).free = s.free := rfl
@[simp] theorem State.setQueue_nextId : (s.setQueue p q x).nextId = s.nextId := rfl
@[simp] theorem State.setQueue_freed : (s.setQueue p q x).freed = s.freed := rfl
@[simp] theorem State.setQueue_warm : (s.setQueue p q x).warm = s.warm := rfl
@[simp] theorem State.setQueue_settled : (s.setQueue p q x).settled = s.settled := rfl
@[simp] theorem State.setQueue_order : (s.setQueue p q x).order = s.order := rfl
@[simp] theorem State.setQueue_spares : (s.setQueue p q x).spares = s.spares := rfl
@[simp] theorem State.setQueue_past : (s.setQueue p q x).past = s.past := rfl
@[simp] theorem State.setQueue_answer : (s.setQueue p q x).answer = s.answer := rfl

end setQueue

section setPart
variable (s : State) (p : Nat) (x : Partition)

@[simp] theorem State.setPart_threads : (s.setPart p x).threads = s.threads := rfl
@[simp] theorem State.setPart_courses : (s.setPart p x).courses = s.courses := rfl
@[simp] theorem State.setPart_launches : (s.setPart p x).launches = s.launches := rfl
@[simp] theorem State.setPart_queues : (s.setPart p x).queues = s.queues := rfl
@[simp] theorem State.setPart_parts : (s.setPart p x).parts = tput s.parts p x := rfl
@[simp] theorem State.setPart_ctxs : (s.setPart p x).ctxs = s.ctxs := rfl
@[simp] theorem State.setPart_ops : (s.setPart p x).ops = s.ops := rfl
@[simp] theorem State.setPart_cores : (s.setPart p x).cores = s.cores := rfl
@[simp] theorem State.setPart_clusters : (s.setPart p x).clusters = s.clusters := rfl
@[simp] theorem State.setPart_dies : (s.setPart p x).dies = s.dies := rfl
@[simp] theorem State.setPart_mem : (s.setPart p x).mem = s.mem := rfl
@[simp] theorem State.setPart_units : (s.setPart p x).units = s.units := rfl
@[simp] theorem State.setPart_poisoned : (s.setPart p x).poisoned = s.poisoned := rfl
@[simp] theorem State.setPart_caps : (s.setPart p x).caps = s.caps := rfl
@[simp] theorem State.setPart_cycle : (s.setPart p x).cycle = s.cycle := rfl
@[simp] theorem State.setPart_mgmt : (s.setPart p x).mgmt = s.mgmt := rfl
@[simp] theorem State.setPart_keys : (s.setPart p x).keys = s.keys := rfl
@[simp] theorem State.setPart_transports : (s.setPart p x).transports = s.transports := rfl
@[simp] theorem State.setPart_ports : (s.setPart p x).ports = s.ports := rfl
@[simp] theorem State.setPart_collectives : (s.setPart p x).collectives = s.collectives := rfl
@[simp] theorem State.setPart_suspended : (s.setPart p x).suspended = s.suspended := rfl
@[simp] theorem State.setPart_started : (s.setPart p x).started = s.started := rfl
@[simp] theorem State.setPart_startFailed : (s.setPart p x).startFailed = s.startFailed := rfl
@[simp] theorem State.setPart_tools : (s.setPart p x).tools = s.tools := rfl
@[simp] theorem State.setPart_inputs : (s.setPart p x).inputs = s.inputs := rfl
@[simp] theorem State.setPart_issue : (s.setPart p x).issue = s.issue := rfl
@[simp] theorem State.setPart_turn : (s.setPart p x).turn = s.turn := rfl
@[simp] theorem State.setPart_free : (s.setPart p x).free = s.free := rfl
@[simp] theorem State.setPart_nextId : (s.setPart p x).nextId = s.nextId := rfl
@[simp] theorem State.setPart_freed : (s.setPart p x).freed = s.freed := rfl
@[simp] theorem State.setPart_warm : (s.setPart p x).warm = s.warm := rfl
@[simp] theorem State.setPart_settled : (s.setPart p x).settled = s.settled := rfl
@[simp] theorem State.setPart_order : (s.setPart p x).order = s.order := rfl
@[simp] theorem State.setPart_spares : (s.setPart p x).spares = s.spares := rfl
@[simp] theorem State.setPart_past : (s.setPart p x).past = s.past := rfl
@[simp] theorem State.setPart_answer : (s.setPart p x).answer = s.answer := rfl

end setPart

section setCtx
variable (s : State) (c : Nat) (x : Context)

@[simp] theorem State.setCtx_threads : (s.setCtx c x).threads = s.threads := rfl
@[simp] theorem State.setCtx_courses : (s.setCtx c x).courses = s.courses := rfl
@[simp] theorem State.setCtx_launches : (s.setCtx c x).launches = s.launches := rfl
@[simp] theorem State.setCtx_queues : (s.setCtx c x).queues = s.queues := rfl
@[simp] theorem State.setCtx_parts : (s.setCtx c x).parts = s.parts := rfl
@[simp] theorem State.setCtx_ctxs : (s.setCtx c x).ctxs = tput s.ctxs c x := rfl
@[simp] theorem State.setCtx_ops : (s.setCtx c x).ops = s.ops := rfl
@[simp] theorem State.setCtx_cores : (s.setCtx c x).cores = s.cores := rfl
@[simp] theorem State.setCtx_clusters : (s.setCtx c x).clusters = s.clusters := rfl
@[simp] theorem State.setCtx_dies : (s.setCtx c x).dies = s.dies := rfl
@[simp] theorem State.setCtx_mem : (s.setCtx c x).mem = s.mem := rfl
@[simp] theorem State.setCtx_units : (s.setCtx c x).units = s.units := rfl
@[simp] theorem State.setCtx_poisoned : (s.setCtx c x).poisoned = s.poisoned := rfl
@[simp] theorem State.setCtx_caps : (s.setCtx c x).caps = s.caps := rfl
@[simp] theorem State.setCtx_cycle : (s.setCtx c x).cycle = s.cycle := rfl
@[simp] theorem State.setCtx_mgmt : (s.setCtx c x).mgmt = s.mgmt := rfl
@[simp] theorem State.setCtx_keys : (s.setCtx c x).keys = s.keys := rfl
@[simp] theorem State.setCtx_transports : (s.setCtx c x).transports = s.transports := rfl
@[simp] theorem State.setCtx_ports : (s.setCtx c x).ports = s.ports := rfl
@[simp] theorem State.setCtx_collectives : (s.setCtx c x).collectives = s.collectives := rfl
@[simp] theorem State.setCtx_suspended : (s.setCtx c x).suspended = s.suspended := rfl
@[simp] theorem State.setCtx_started : (s.setCtx c x).started = s.started := rfl
@[simp] theorem State.setCtx_startFailed : (s.setCtx c x).startFailed = s.startFailed := rfl
@[simp] theorem State.setCtx_tools : (s.setCtx c x).tools = s.tools := rfl
@[simp] theorem State.setCtx_inputs : (s.setCtx c x).inputs = s.inputs := rfl
@[simp] theorem State.setCtx_issue : (s.setCtx c x).issue = s.issue := rfl
@[simp] theorem State.setCtx_turn : (s.setCtx c x).turn = s.turn := rfl
@[simp] theorem State.setCtx_free : (s.setCtx c x).free = s.free := rfl
@[simp] theorem State.setCtx_nextId : (s.setCtx c x).nextId = s.nextId := rfl
@[simp] theorem State.setCtx_freed : (s.setCtx c x).freed = s.freed := rfl
@[simp] theorem State.setCtx_warm : (s.setCtx c x).warm = s.warm := rfl
@[simp] theorem State.setCtx_settled : (s.setCtx c x).settled = s.settled := rfl
@[simp] theorem State.setCtx_order : (s.setCtx c x).order = s.order := rfl
@[simp] theorem State.setCtx_spares : (s.setCtx c x).spares = s.spares := rfl
@[simp] theorem State.setCtx_past : (s.setCtx c x).past = s.past := rfl
@[simp] theorem State.setCtx_answer : (s.setCtx c x).answer = s.answer := rfl

end setCtx

section setOp
variable (s : State) (n : Nat) (x : Op)

@[simp] theorem State.setOp_threads : (s.setOp n x).threads = s.threads := rfl
@[simp] theorem State.setOp_courses : (s.setOp n x).courses = s.courses := rfl
@[simp] theorem State.setOp_launches : (s.setOp n x).launches = s.launches := rfl
@[simp] theorem State.setOp_queues : (s.setOp n x).queues = s.queues := rfl
@[simp] theorem State.setOp_parts : (s.setOp n x).parts = s.parts := rfl
@[simp] theorem State.setOp_ctxs : (s.setOp n x).ctxs = s.ctxs := rfl
@[simp] theorem State.setOp_ops : (s.setOp n x).ops = tput s.ops n x := rfl
@[simp] theorem State.setOp_cores : (s.setOp n x).cores = s.cores := rfl
@[simp] theorem State.setOp_clusters : (s.setOp n x).clusters = s.clusters := rfl
@[simp] theorem State.setOp_dies : (s.setOp n x).dies = s.dies := rfl
@[simp] theorem State.setOp_mem : (s.setOp n x).mem = s.mem := rfl
@[simp] theorem State.setOp_units : (s.setOp n x).units = s.units := rfl
@[simp] theorem State.setOp_poisoned : (s.setOp n x).poisoned = s.poisoned := rfl
@[simp] theorem State.setOp_caps : (s.setOp n x).caps = s.caps := rfl
@[simp] theorem State.setOp_cycle : (s.setOp n x).cycle = s.cycle := rfl
@[simp] theorem State.setOp_mgmt : (s.setOp n x).mgmt = s.mgmt := rfl
@[simp] theorem State.setOp_keys : (s.setOp n x).keys = s.keys := rfl
@[simp] theorem State.setOp_transports : (s.setOp n x).transports = s.transports := rfl
@[simp] theorem State.setOp_ports : (s.setOp n x).ports = s.ports := rfl
@[simp] theorem State.setOp_collectives : (s.setOp n x).collectives = s.collectives := rfl
@[simp] theorem State.setOp_suspended : (s.setOp n x).suspended = s.suspended := rfl
@[simp] theorem State.setOp_started : (s.setOp n x).started = s.started := rfl
@[simp] theorem State.setOp_startFailed : (s.setOp n x).startFailed = s.startFailed := rfl
@[simp] theorem State.setOp_tools : (s.setOp n x).tools = s.tools := rfl
@[simp] theorem State.setOp_inputs : (s.setOp n x).inputs = s.inputs := rfl
@[simp] theorem State.setOp_issue : (s.setOp n x).issue = s.issue := rfl
@[simp] theorem State.setOp_turn : (s.setOp n x).turn = s.turn := rfl
@[simp] theorem State.setOp_free : (s.setOp n x).free = s.free := rfl
@[simp] theorem State.setOp_nextId : (s.setOp n x).nextId = s.nextId := rfl
@[simp] theorem State.setOp_freed : (s.setOp n x).freed = s.freed := rfl
@[simp] theorem State.setOp_warm : (s.setOp n x).warm = s.warm := rfl
@[simp] theorem State.setOp_settled : (s.setOp n x).settled = s.settled := rfl
@[simp] theorem State.setOp_order : (s.setOp n x).order = s.order := rfl
@[simp] theorem State.setOp_spares : (s.setOp n x).spares = s.spares := rfl
@[simp] theorem State.setOp_past : (s.setOp n x).past = s.past := rfl
@[simp] theorem State.setOp_answer : (s.setOp n x).answer = s.answer := rfl

end setOp

section delOp
variable (s : State) (n : Nat)

@[simp] theorem State.delOp_threads : (s.delOp n).threads = s.threads := rfl
@[simp] theorem State.delOp_courses : (s.delOp n).courses = s.courses := rfl
@[simp] theorem State.delOp_launches : (s.delOp n).launches = s.launches := rfl
@[simp] theorem State.delOp_queues : (s.delOp n).queues = s.queues := rfl
@[simp] theorem State.delOp_parts : (s.delOp n).parts = s.parts := rfl
@[simp] theorem State.delOp_ctxs : (s.delOp n).ctxs = s.ctxs := rfl
@[simp] theorem State.delOp_ops : (s.delOp n).ops = tdel s.ops n := rfl
@[simp] theorem State.delOp_cores : (s.delOp n).cores = s.cores := rfl
@[simp] theorem State.delOp_clusters : (s.delOp n).clusters = s.clusters := rfl
@[simp] theorem State.delOp_dies : (s.delOp n).dies = s.dies := rfl
@[simp] theorem State.delOp_mem : (s.delOp n).mem = s.mem := rfl
@[simp] theorem State.delOp_units : (s.delOp n).units = s.units := rfl
@[simp] theorem State.delOp_poisoned : (s.delOp n).poisoned = s.poisoned := rfl
@[simp] theorem State.delOp_caps : (s.delOp n).caps = s.caps := rfl
@[simp] theorem State.delOp_cycle : (s.delOp n).cycle = s.cycle := rfl
@[simp] theorem State.delOp_mgmt : (s.delOp n).mgmt = s.mgmt := rfl
@[simp] theorem State.delOp_keys : (s.delOp n).keys = s.keys := rfl
@[simp] theorem State.delOp_transports : (s.delOp n).transports = s.transports := rfl
@[simp] theorem State.delOp_ports : (s.delOp n).ports = s.ports := rfl
@[simp] theorem State.delOp_collectives : (s.delOp n).collectives = s.collectives := rfl
@[simp] theorem State.delOp_suspended : (s.delOp n).suspended = s.suspended := rfl
@[simp] theorem State.delOp_started : (s.delOp n).started = s.started := rfl
@[simp] theorem State.delOp_startFailed : (s.delOp n).startFailed = s.startFailed := rfl
@[simp] theorem State.delOp_tools : (s.delOp n).tools = s.tools := rfl
@[simp] theorem State.delOp_inputs : (s.delOp n).inputs = s.inputs := rfl
@[simp] theorem State.delOp_issue : (s.delOp n).issue = s.issue := rfl
@[simp] theorem State.delOp_turn : (s.delOp n).turn = s.turn := rfl
@[simp] theorem State.delOp_free : (s.delOp n).free = s.free := rfl
@[simp] theorem State.delOp_nextId : (s.delOp n).nextId = s.nextId := rfl
@[simp] theorem State.delOp_freed : (s.delOp n).freed = s.freed := rfl
@[simp] theorem State.delOp_warm : (s.delOp n).warm = s.warm := rfl
@[simp] theorem State.delOp_settled : (s.delOp n).settled = s.settled := rfl
@[simp] theorem State.delOp_order : (s.delOp n).order = s.order := rfl
@[simp] theorem State.delOp_spares : (s.delOp n).spares = s.spares := rfl
@[simp] theorem State.delOp_past : (s.delOp n).past = s.past := rfl
@[simp] theorem State.delOp_answer : (s.delOp n).answer = s.answer := rfl

end delOp

section setCore
variable (s : State) (n : Nat) (x : Core)

@[simp] theorem State.setCore_threads : (s.setCore n x).threads = s.threads := by unfold State.setCore; split <;> rfl
@[simp] theorem State.setCore_courses : (s.setCore n x).courses = s.courses := by unfold State.setCore; split <;> rfl
@[simp] theorem State.setCore_launches : (s.setCore n x).launches = s.launches := by unfold State.setCore; split <;> rfl
@[simp] theorem State.setCore_queues : (s.setCore n x).queues = s.queues := by unfold State.setCore; split <;> rfl
@[simp] theorem State.setCore_parts : (s.setCore n x).parts = s.parts := by unfold State.setCore; split <;> rfl
@[simp] theorem State.setCore_ctxs : (s.setCore n x).ctxs = s.ctxs := by unfold State.setCore; split <;> rfl
@[simp] theorem State.setCore_ops : (s.setCore n x).ops = s.ops := by unfold State.setCore; split <;> rfl
@[simp] theorem State.setCore_clusters : (s.setCore n x).clusters = s.clusters := by unfold State.setCore; split <;> rfl
@[simp] theorem State.setCore_dies : (s.setCore n x).dies = s.dies := by unfold State.setCore; split <;> rfl
@[simp] theorem State.setCore_mem : (s.setCore n x).mem = s.mem := by unfold State.setCore; split <;> rfl
@[simp] theorem State.setCore_units : (s.setCore n x).units = s.units := by unfold State.setCore; split <;> rfl
@[simp] theorem State.setCore_poisoned : (s.setCore n x).poisoned = s.poisoned := by unfold State.setCore; split <;> rfl
@[simp] theorem State.setCore_caps : (s.setCore n x).caps = s.caps := by unfold State.setCore; split <;> rfl
@[simp] theorem State.setCore_cycle : (s.setCore n x).cycle = s.cycle := by unfold State.setCore; split <;> rfl
@[simp] theorem State.setCore_mgmt : (s.setCore n x).mgmt = s.mgmt := by unfold State.setCore; split <;> rfl
@[simp] theorem State.setCore_keys : (s.setCore n x).keys = s.keys := by unfold State.setCore; split <;> rfl
@[simp] theorem State.setCore_transports : (s.setCore n x).transports = s.transports := by unfold State.setCore; split <;> rfl
@[simp] theorem State.setCore_ports : (s.setCore n x).ports = s.ports := by unfold State.setCore; split <;> rfl
@[simp] theorem State.setCore_collectives : (s.setCore n x).collectives = s.collectives := by unfold State.setCore; split <;> rfl
@[simp] theorem State.setCore_suspended : (s.setCore n x).suspended = s.suspended := by unfold State.setCore; split <;> rfl
@[simp] theorem State.setCore_started : (s.setCore n x).started = s.started := by unfold State.setCore; split <;> rfl
@[simp] theorem State.setCore_startFailed : (s.setCore n x).startFailed = s.startFailed := by unfold State.setCore; split <;> rfl
@[simp] theorem State.setCore_tools : (s.setCore n x).tools = s.tools := by unfold State.setCore; split <;> rfl
@[simp] theorem State.setCore_inputs : (s.setCore n x).inputs = s.inputs := by unfold State.setCore; split <;> rfl
@[simp] theorem State.setCore_issue : (s.setCore n x).issue = s.issue := by unfold State.setCore; split <;> rfl
@[simp] theorem State.setCore_turn : (s.setCore n x).turn = s.turn := by unfold State.setCore; split <;> rfl
@[simp] theorem State.setCore_free : (s.setCore n x).free = s.free := by unfold State.setCore; split <;> rfl
@[simp] theorem State.setCore_nextId : (s.setCore n x).nextId = s.nextId := by unfold State.setCore; split <;> rfl
@[simp] theorem State.setCore_freed : (s.setCore n x).freed = s.freed := by unfold State.setCore; split <;> rfl
@[simp] theorem State.setCore_warm : (s.setCore n x).warm = s.warm := by unfold State.setCore; split <;> rfl
@[simp] theorem State.setCore_settled : (s.setCore n x).settled = s.settled := by unfold State.setCore; split <;> rfl
@[simp] theorem State.setCore_order : (s.setCore n x).order = s.order := by unfold State.setCore; split <;> rfl
@[simp] theorem State.setCore_spares : (s.setCore n x).spares = s.spares := by unfold State.setCore; split <;> rfl
@[simp] theorem State.setCore_past : (s.setCore n x).past = s.past := by unfold State.setCore; split <;> rfl
@[simp] theorem State.setCore_answer : (s.setCore n x).answer = s.answer := by unfold State.setCore; split <;> rfl

end setCore

section setCluster
variable (s : State) (n : Nat) (x : Cluster)

@[simp] theorem State.setCluster_threads : (s.setCluster n x).threads = s.threads := by unfold State.setCluster; split <;> rfl
@[simp] theorem State.setCluster_courses : (s.setCluster n x).courses = s.courses := by unfold State.setCluster; split <;> rfl
@[simp] theorem State.setCluster_launches : (s.setCluster n x).launches = s.launches := by unfold State.setCluster; split <;> rfl
@[simp] theorem State.setCluster_queues : (s.setCluster n x).queues = s.queues := by unfold State.setCluster; split <;> rfl
@[simp] theorem State.setCluster_parts : (s.setCluster n x).parts = s.parts := by unfold State.setCluster; split <;> rfl
@[simp] theorem State.setCluster_ctxs : (s.setCluster n x).ctxs = s.ctxs := by unfold State.setCluster; split <;> rfl
@[simp] theorem State.setCluster_ops : (s.setCluster n x).ops = s.ops := by unfold State.setCluster; split <;> rfl
@[simp] theorem State.setCluster_cores : (s.setCluster n x).cores = s.cores := by unfold State.setCluster; split <;> rfl
@[simp] theorem State.setCluster_dies : (s.setCluster n x).dies = s.dies := by unfold State.setCluster; split <;> rfl
@[simp] theorem State.setCluster_mem : (s.setCluster n x).mem = s.mem := by unfold State.setCluster; split <;> rfl
@[simp] theorem State.setCluster_units : (s.setCluster n x).units = s.units := by unfold State.setCluster; split <;> rfl
@[simp] theorem State.setCluster_poisoned : (s.setCluster n x).poisoned = s.poisoned := by unfold State.setCluster; split <;> rfl
@[simp] theorem State.setCluster_caps : (s.setCluster n x).caps = s.caps := by unfold State.setCluster; split <;> rfl
@[simp] theorem State.setCluster_cycle : (s.setCluster n x).cycle = s.cycle := by unfold State.setCluster; split <;> rfl
@[simp] theorem State.setCluster_mgmt : (s.setCluster n x).mgmt = s.mgmt := by unfold State.setCluster; split <;> rfl
@[simp] theorem State.setCluster_keys : (s.setCluster n x).keys = s.keys := by unfold State.setCluster; split <;> rfl
@[simp] theorem State.setCluster_transports : (s.setCluster n x).transports = s.transports := by unfold State.setCluster; split <;> rfl
@[simp] theorem State.setCluster_ports : (s.setCluster n x).ports = s.ports := by unfold State.setCluster; split <;> rfl
@[simp] theorem State.setCluster_collectives : (s.setCluster n x).collectives = s.collectives := by unfold State.setCluster; split <;> rfl
@[simp] theorem State.setCluster_suspended : (s.setCluster n x).suspended = s.suspended := by unfold State.setCluster; split <;> rfl
@[simp] theorem State.setCluster_started : (s.setCluster n x).started = s.started := by unfold State.setCluster; split <;> rfl
@[simp] theorem State.setCluster_startFailed : (s.setCluster n x).startFailed = s.startFailed := by unfold State.setCluster; split <;> rfl
@[simp] theorem State.setCluster_tools : (s.setCluster n x).tools = s.tools := by unfold State.setCluster; split <;> rfl
@[simp] theorem State.setCluster_inputs : (s.setCluster n x).inputs = s.inputs := by unfold State.setCluster; split <;> rfl
@[simp] theorem State.setCluster_issue : (s.setCluster n x).issue = s.issue := by unfold State.setCluster; split <;> rfl
@[simp] theorem State.setCluster_turn : (s.setCluster n x).turn = s.turn := by unfold State.setCluster; split <;> rfl
@[simp] theorem State.setCluster_free : (s.setCluster n x).free = s.free := by unfold State.setCluster; split <;> rfl
@[simp] theorem State.setCluster_nextId : (s.setCluster n x).nextId = s.nextId := by unfold State.setCluster; split <;> rfl
@[simp] theorem State.setCluster_freed : (s.setCluster n x).freed = s.freed := by unfold State.setCluster; split <;> rfl
@[simp] theorem State.setCluster_warm : (s.setCluster n x).warm = s.warm := by unfold State.setCluster; split <;> rfl
@[simp] theorem State.setCluster_settled : (s.setCluster n x).settled = s.settled := by unfold State.setCluster; split <;> rfl
@[simp] theorem State.setCluster_order : (s.setCluster n x).order = s.order := by unfold State.setCluster; split <;> rfl
@[simp] theorem State.setCluster_spares : (s.setCluster n x).spares = s.spares := by unfold State.setCluster; split <;> rfl
@[simp] theorem State.setCluster_past : (s.setCluster n x).past = s.past := by unfold State.setCluster; split <;> rfl
@[simp] theorem State.setCluster_answer : (s.setCluster n x).answer = s.answer := by unfold State.setCluster; split <;> rfl

end setCluster

section setDie
variable (s : State) (n : Nat) (x : Die)

@[simp] theorem State.setDie_threads : (s.setDie n x).threads = s.threads := by unfold State.setDie; split <;> rfl
@[simp] theorem State.setDie_courses : (s.setDie n x).courses = s.courses := by unfold State.setDie; split <;> rfl
@[simp] theorem State.setDie_launches : (s.setDie n x).launches = s.launches := by unfold State.setDie; split <;> rfl
@[simp] theorem State.setDie_queues : (s.setDie n x).queues = s.queues := by unfold State.setDie; split <;> rfl
@[simp] theorem State.setDie_parts : (s.setDie n x).parts = s.parts := by unfold State.setDie; split <;> rfl
@[simp] theorem State.setDie_ctxs : (s.setDie n x).ctxs = s.ctxs := by unfold State.setDie; split <;> rfl
@[simp] theorem State.setDie_ops : (s.setDie n x).ops = s.ops := by unfold State.setDie; split <;> rfl
@[simp] theorem State.setDie_cores : (s.setDie n x).cores = s.cores := by unfold State.setDie; split <;> rfl
@[simp] theorem State.setDie_clusters : (s.setDie n x).clusters = s.clusters := by unfold State.setDie; split <;> rfl
@[simp] theorem State.setDie_mem : (s.setDie n x).mem = s.mem := by unfold State.setDie; split <;> rfl
@[simp] theorem State.setDie_units : (s.setDie n x).units = s.units := by unfold State.setDie; split <;> rfl
@[simp] theorem State.setDie_poisoned : (s.setDie n x).poisoned = s.poisoned := by unfold State.setDie; split <;> rfl
@[simp] theorem State.setDie_caps : (s.setDie n x).caps = s.caps := by unfold State.setDie; split <;> rfl
@[simp] theorem State.setDie_cycle : (s.setDie n x).cycle = s.cycle := by unfold State.setDie; split <;> rfl
@[simp] theorem State.setDie_mgmt : (s.setDie n x).mgmt = s.mgmt := by unfold State.setDie; split <;> rfl
@[simp] theorem State.setDie_keys : (s.setDie n x).keys = s.keys := by unfold State.setDie; split <;> rfl
@[simp] theorem State.setDie_transports : (s.setDie n x).transports = s.transports := by unfold State.setDie; split <;> rfl
@[simp] theorem State.setDie_ports : (s.setDie n x).ports = s.ports := by unfold State.setDie; split <;> rfl
@[simp] theorem State.setDie_collectives : (s.setDie n x).collectives = s.collectives := by unfold State.setDie; split <;> rfl
@[simp] theorem State.setDie_suspended : (s.setDie n x).suspended = s.suspended := by unfold State.setDie; split <;> rfl
@[simp] theorem State.setDie_started : (s.setDie n x).started = s.started := by unfold State.setDie; split <;> rfl
@[simp] theorem State.setDie_startFailed : (s.setDie n x).startFailed = s.startFailed := by unfold State.setDie; split <;> rfl
@[simp] theorem State.setDie_tools : (s.setDie n x).tools = s.tools := by unfold State.setDie; split <;> rfl
@[simp] theorem State.setDie_inputs : (s.setDie n x).inputs = s.inputs := by unfold State.setDie; split <;> rfl
@[simp] theorem State.setDie_issue : (s.setDie n x).issue = s.issue := by unfold State.setDie; split <;> rfl
@[simp] theorem State.setDie_turn : (s.setDie n x).turn = s.turn := by unfold State.setDie; split <;> rfl
@[simp] theorem State.setDie_free : (s.setDie n x).free = s.free := by unfold State.setDie; split <;> rfl
@[simp] theorem State.setDie_nextId : (s.setDie n x).nextId = s.nextId := by unfold State.setDie; split <;> rfl
@[simp] theorem State.setDie_freed : (s.setDie n x).freed = s.freed := by unfold State.setDie; split <;> rfl
@[simp] theorem State.setDie_warm : (s.setDie n x).warm = s.warm := by unfold State.setDie; split <;> rfl
@[simp] theorem State.setDie_settled : (s.setDie n x).settled = s.settled := by unfold State.setDie; split <;> rfl
@[simp] theorem State.setDie_order : (s.setDie n x).order = s.order := by unfold State.setDie; split <;> rfl
@[simp] theorem State.setDie_spares : (s.setDie n x).spares = s.spares := by unfold State.setDie; split <;> rfl
@[simp] theorem State.setDie_past : (s.setDie n x).past = s.past := by unfold State.setDie; split <;> rfl
@[simp] theorem State.setDie_answer : (s.setDie n x).answer = s.answer := by unfold State.setDie; split <;> rfl

end setDie

section modThread
variable (s : State) (id : ThreadId) (f : Thread → Thread)

@[simp] theorem State.modThread_courses : (s.modThread id f).courses = s.courses := by unfold State.modThread; split <;> rfl
@[simp] theorem State.modThread_launches : (s.modThread id f).launches = s.launches := by unfold State.modThread; split <;> rfl
@[simp] theorem State.modThread_queues : (s.modThread id f).queues = s.queues := by unfold State.modThread; split <;> rfl
@[simp] theorem State.modThread_parts : (s.modThread id f).parts = s.parts := by unfold State.modThread; split <;> rfl
@[simp] theorem State.modThread_ctxs : (s.modThread id f).ctxs = s.ctxs := by unfold State.modThread; split <;> rfl
@[simp] theorem State.modThread_ops : (s.modThread id f).ops = s.ops := by unfold State.modThread; split <;> rfl
@[simp] theorem State.modThread_cores : (s.modThread id f).cores = s.cores := by unfold State.modThread; split <;> rfl
@[simp] theorem State.modThread_clusters : (s.modThread id f).clusters = s.clusters := by unfold State.modThread; split <;> rfl
@[simp] theorem State.modThread_dies : (s.modThread id f).dies = s.dies := by unfold State.modThread; split <;> rfl
@[simp] theorem State.modThread_mem : (s.modThread id f).mem = s.mem := by unfold State.modThread; split <;> rfl
@[simp] theorem State.modThread_units : (s.modThread id f).units = s.units := by unfold State.modThread; split <;> rfl
@[simp] theorem State.modThread_poisoned : (s.modThread id f).poisoned = s.poisoned := by unfold State.modThread; split <;> rfl
@[simp] theorem State.modThread_caps : (s.modThread id f).caps = s.caps := by unfold State.modThread; split <;> rfl
@[simp] theorem State.modThread_cycle : (s.modThread id f).cycle = s.cycle := by unfold State.modThread; split <;> rfl
@[simp] theorem State.modThread_mgmt : (s.modThread id f).mgmt = s.mgmt := by unfold State.modThread; split <;> rfl
@[simp] theorem State.modThread_keys : (s.modThread id f).keys = s.keys := by unfold State.modThread; split <;> rfl
@[simp] theorem State.modThread_transports : (s.modThread id f).transports = s.transports := by unfold State.modThread; split <;> rfl
@[simp] theorem State.modThread_ports : (s.modThread id f).ports = s.ports := by unfold State.modThread; split <;> rfl
@[simp] theorem State.modThread_collectives : (s.modThread id f).collectives = s.collectives := by unfold State.modThread; split <;> rfl
@[simp] theorem State.modThread_suspended : (s.modThread id f).suspended = s.suspended := by unfold State.modThread; split <;> rfl
@[simp] theorem State.modThread_started : (s.modThread id f).started = s.started := by unfold State.modThread; split <;> rfl
@[simp] theorem State.modThread_startFailed : (s.modThread id f).startFailed = s.startFailed := by unfold State.modThread; split <;> rfl
@[simp] theorem State.modThread_tools : (s.modThread id f).tools = s.tools := by unfold State.modThread; split <;> rfl
@[simp] theorem State.modThread_inputs : (s.modThread id f).inputs = s.inputs := by unfold State.modThread; split <;> rfl
@[simp] theorem State.modThread_issue : (s.modThread id f).issue = s.issue := by unfold State.modThread; split <;> rfl
@[simp] theorem State.modThread_turn : (s.modThread id f).turn = s.turn := by unfold State.modThread; split <;> rfl
@[simp] theorem State.modThread_free : (s.modThread id f).free = s.free := by unfold State.modThread; split <;> rfl
@[simp] theorem State.modThread_nextId : (s.modThread id f).nextId = s.nextId := by unfold State.modThread; split <;> rfl
@[simp] theorem State.modThread_freed : (s.modThread id f).freed = s.freed := by unfold State.modThread; split <;> rfl
@[simp] theorem State.modThread_warm : (s.modThread id f).warm = s.warm := by unfold State.modThread; split <;> rfl
@[simp] theorem State.modThread_settled : (s.modThread id f).settled = s.settled := by unfold State.modThread; split <;> rfl
@[simp] theorem State.modThread_order : (s.modThread id f).order = s.order := by unfold State.modThread; split <;> rfl
@[simp] theorem State.modThread_spares : (s.modThread id f).spares = s.spares := by unfold State.modThread; split <;> rfl
@[simp] theorem State.modThread_past : (s.modThread id f).past = s.past := by unfold State.modThread; split <;> rfl
@[simp] theorem State.modThread_answer : (s.modThread id f).answer = s.answer := by unfold State.modThread; split <;> rfl

end modThread

section modCourse
variable (s : State) (id : CourseId) (f : Course → Course)

@[simp] theorem State.modCourse_threads : (s.modCourse id f).threads = s.threads := by unfold State.modCourse; split <;> rfl
@[simp] theorem State.modCourse_launches : (s.modCourse id f).launches = s.launches := by unfold State.modCourse; split <;> rfl
@[simp] theorem State.modCourse_queues : (s.modCourse id f).queues = s.queues := by unfold State.modCourse; split <;> rfl
@[simp] theorem State.modCourse_parts : (s.modCourse id f).parts = s.parts := by unfold State.modCourse; split <;> rfl
@[simp] theorem State.modCourse_ctxs : (s.modCourse id f).ctxs = s.ctxs := by unfold State.modCourse; split <;> rfl
@[simp] theorem State.modCourse_ops : (s.modCourse id f).ops = s.ops := by unfold State.modCourse; split <;> rfl
@[simp] theorem State.modCourse_cores : (s.modCourse id f).cores = s.cores := by unfold State.modCourse; split <;> rfl
@[simp] theorem State.modCourse_clusters : (s.modCourse id f).clusters = s.clusters := by unfold State.modCourse; split <;> rfl
@[simp] theorem State.modCourse_dies : (s.modCourse id f).dies = s.dies := by unfold State.modCourse; split <;> rfl
@[simp] theorem State.modCourse_mem : (s.modCourse id f).mem = s.mem := by unfold State.modCourse; split <;> rfl
@[simp] theorem State.modCourse_units : (s.modCourse id f).units = s.units := by unfold State.modCourse; split <;> rfl
@[simp] theorem State.modCourse_poisoned : (s.modCourse id f).poisoned = s.poisoned := by unfold State.modCourse; split <;> rfl
@[simp] theorem State.modCourse_caps : (s.modCourse id f).caps = s.caps := by unfold State.modCourse; split <;> rfl
@[simp] theorem State.modCourse_cycle : (s.modCourse id f).cycle = s.cycle := by unfold State.modCourse; split <;> rfl
@[simp] theorem State.modCourse_mgmt : (s.modCourse id f).mgmt = s.mgmt := by unfold State.modCourse; split <;> rfl
@[simp] theorem State.modCourse_keys : (s.modCourse id f).keys = s.keys := by unfold State.modCourse; split <;> rfl
@[simp] theorem State.modCourse_transports : (s.modCourse id f).transports = s.transports := by unfold State.modCourse; split <;> rfl
@[simp] theorem State.modCourse_ports : (s.modCourse id f).ports = s.ports := by unfold State.modCourse; split <;> rfl
@[simp] theorem State.modCourse_collectives : (s.modCourse id f).collectives = s.collectives := by unfold State.modCourse; split <;> rfl
@[simp] theorem State.modCourse_suspended : (s.modCourse id f).suspended = s.suspended := by unfold State.modCourse; split <;> rfl
@[simp] theorem State.modCourse_started : (s.modCourse id f).started = s.started := by unfold State.modCourse; split <;> rfl
@[simp] theorem State.modCourse_startFailed : (s.modCourse id f).startFailed = s.startFailed := by unfold State.modCourse; split <;> rfl
@[simp] theorem State.modCourse_tools : (s.modCourse id f).tools = s.tools := by unfold State.modCourse; split <;> rfl
@[simp] theorem State.modCourse_inputs : (s.modCourse id f).inputs = s.inputs := by unfold State.modCourse; split <;> rfl
@[simp] theorem State.modCourse_issue : (s.modCourse id f).issue = s.issue := by unfold State.modCourse; split <;> rfl
@[simp] theorem State.modCourse_turn : (s.modCourse id f).turn = s.turn := by unfold State.modCourse; split <;> rfl
@[simp] theorem State.modCourse_free : (s.modCourse id f).free = s.free := by unfold State.modCourse; split <;> rfl
@[simp] theorem State.modCourse_nextId : (s.modCourse id f).nextId = s.nextId := by unfold State.modCourse; split <;> rfl
@[simp] theorem State.modCourse_freed : (s.modCourse id f).freed = s.freed := by unfold State.modCourse; split <;> rfl
@[simp] theorem State.modCourse_warm : (s.modCourse id f).warm = s.warm := by unfold State.modCourse; split <;> rfl
@[simp] theorem State.modCourse_settled : (s.modCourse id f).settled = s.settled := by unfold State.modCourse; split <;> rfl
@[simp] theorem State.modCourse_order : (s.modCourse id f).order = s.order := by unfold State.modCourse; split <;> rfl
@[simp] theorem State.modCourse_spares : (s.modCourse id f).spares = s.spares := by unfold State.modCourse; split <;> rfl
@[simp] theorem State.modCourse_past : (s.modCourse id f).past = s.past := by unfold State.modCourse; split <;> rfl
@[simp] theorem State.modCourse_answer : (s.modCourse id f).answer = s.answer := by unfold State.modCourse; split <;> rfl

end modCourse

section modPart
variable (s : State) (p : Nat) (f : Partition → Partition)

@[simp] theorem State.modPart_threads : (s.modPart p f).threads = s.threads := by unfold State.modPart; split <;> rfl
@[simp] theorem State.modPart_courses : (s.modPart p f).courses = s.courses := by unfold State.modPart; split <;> rfl
@[simp] theorem State.modPart_launches : (s.modPart p f).launches = s.launches := by unfold State.modPart; split <;> rfl
@[simp] theorem State.modPart_queues : (s.modPart p f).queues = s.queues := by unfold State.modPart; split <;> rfl
@[simp] theorem State.modPart_ctxs : (s.modPart p f).ctxs = s.ctxs := by unfold State.modPart; split <;> rfl
@[simp] theorem State.modPart_ops : (s.modPart p f).ops = s.ops := by unfold State.modPart; split <;> rfl
@[simp] theorem State.modPart_cores : (s.modPart p f).cores = s.cores := by unfold State.modPart; split <;> rfl
@[simp] theorem State.modPart_clusters : (s.modPart p f).clusters = s.clusters := by unfold State.modPart; split <;> rfl
@[simp] theorem State.modPart_dies : (s.modPart p f).dies = s.dies := by unfold State.modPart; split <;> rfl
@[simp] theorem State.modPart_mem : (s.modPart p f).mem = s.mem := by unfold State.modPart; split <;> rfl
@[simp] theorem State.modPart_units : (s.modPart p f).units = s.units := by unfold State.modPart; split <;> rfl
@[simp] theorem State.modPart_poisoned : (s.modPart p f).poisoned = s.poisoned := by unfold State.modPart; split <;> rfl
@[simp] theorem State.modPart_caps : (s.modPart p f).caps = s.caps := by unfold State.modPart; split <;> rfl
@[simp] theorem State.modPart_cycle : (s.modPart p f).cycle = s.cycle := by unfold State.modPart; split <;> rfl
@[simp] theorem State.modPart_mgmt : (s.modPart p f).mgmt = s.mgmt := by unfold State.modPart; split <;> rfl
@[simp] theorem State.modPart_keys : (s.modPart p f).keys = s.keys := by unfold State.modPart; split <;> rfl
@[simp] theorem State.modPart_transports : (s.modPart p f).transports = s.transports := by unfold State.modPart; split <;> rfl
@[simp] theorem State.modPart_ports : (s.modPart p f).ports = s.ports := by unfold State.modPart; split <;> rfl
@[simp] theorem State.modPart_collectives : (s.modPart p f).collectives = s.collectives := by unfold State.modPart; split <;> rfl
@[simp] theorem State.modPart_suspended : (s.modPart p f).suspended = s.suspended := by unfold State.modPart; split <;> rfl
@[simp] theorem State.modPart_started : (s.modPart p f).started = s.started := by unfold State.modPart; split <;> rfl
@[simp] theorem State.modPart_startFailed : (s.modPart p f).startFailed = s.startFailed := by unfold State.modPart; split <;> rfl
@[simp] theorem State.modPart_tools : (s.modPart p f).tools = s.tools := by unfold State.modPart; split <;> rfl
@[simp] theorem State.modPart_inputs : (s.modPart p f).inputs = s.inputs := by unfold State.modPart; split <;> rfl
@[simp] theorem State.modPart_issue : (s.modPart p f).issue = s.issue := by unfold State.modPart; split <;> rfl
@[simp] theorem State.modPart_turn : (s.modPart p f).turn = s.turn := by unfold State.modPart; split <;> rfl
@[simp] theorem State.modPart_free : (s.modPart p f).free = s.free := by unfold State.modPart; split <;> rfl
@[simp] theorem State.modPart_nextId : (s.modPart p f).nextId = s.nextId := by unfold State.modPart; split <;> rfl
@[simp] theorem State.modPart_freed : (s.modPart p f).freed = s.freed := by unfold State.modPart; split <;> rfl
@[simp] theorem State.modPart_warm : (s.modPart p f).warm = s.warm := by unfold State.modPart; split <;> rfl
@[simp] theorem State.modPart_settled : (s.modPart p f).settled = s.settled := by unfold State.modPart; split <;> rfl
@[simp] theorem State.modPart_order : (s.modPart p f).order = s.order := by unfold State.modPart; split <;> rfl
@[simp] theorem State.modPart_spares : (s.modPart p f).spares = s.spares := by unfold State.modPart; split <;> rfl
@[simp] theorem State.modPart_past : (s.modPart p f).past = s.past := by unfold State.modPart; split <;> rfl
@[simp] theorem State.modPart_answer : (s.modPart p f).answer = s.answer := by unfold State.modPart; split <;> rfl

end modPart

section modCtx
variable (s : State) (c : Nat) (f : Context → Context)

@[simp] theorem State.modCtx_threads : (s.modCtx c f).threads = s.threads := by unfold State.modCtx; split <;> rfl
@[simp] theorem State.modCtx_courses : (s.modCtx c f).courses = s.courses := by unfold State.modCtx; split <;> rfl
@[simp] theorem State.modCtx_launches : (s.modCtx c f).launches = s.launches := by unfold State.modCtx; split <;> rfl
@[simp] theorem State.modCtx_queues : (s.modCtx c f).queues = s.queues := by unfold State.modCtx; split <;> rfl
@[simp] theorem State.modCtx_parts : (s.modCtx c f).parts = s.parts := by unfold State.modCtx; split <;> rfl
@[simp] theorem State.modCtx_ops : (s.modCtx c f).ops = s.ops := by unfold State.modCtx; split <;> rfl
@[simp] theorem State.modCtx_cores : (s.modCtx c f).cores = s.cores := by unfold State.modCtx; split <;> rfl
@[simp] theorem State.modCtx_clusters : (s.modCtx c f).clusters = s.clusters := by unfold State.modCtx; split <;> rfl
@[simp] theorem State.modCtx_dies : (s.modCtx c f).dies = s.dies := by unfold State.modCtx; split <;> rfl
@[simp] theorem State.modCtx_mem : (s.modCtx c f).mem = s.mem := by unfold State.modCtx; split <;> rfl
@[simp] theorem State.modCtx_units : (s.modCtx c f).units = s.units := by unfold State.modCtx; split <;> rfl
@[simp] theorem State.modCtx_poisoned : (s.modCtx c f).poisoned = s.poisoned := by unfold State.modCtx; split <;> rfl
@[simp] theorem State.modCtx_caps : (s.modCtx c f).caps = s.caps := by unfold State.modCtx; split <;> rfl
@[simp] theorem State.modCtx_cycle : (s.modCtx c f).cycle = s.cycle := by unfold State.modCtx; split <;> rfl
@[simp] theorem State.modCtx_mgmt : (s.modCtx c f).mgmt = s.mgmt := by unfold State.modCtx; split <;> rfl
@[simp] theorem State.modCtx_keys : (s.modCtx c f).keys = s.keys := by unfold State.modCtx; split <;> rfl
@[simp] theorem State.modCtx_transports : (s.modCtx c f).transports = s.transports := by unfold State.modCtx; split <;> rfl
@[simp] theorem State.modCtx_ports : (s.modCtx c f).ports = s.ports := by unfold State.modCtx; split <;> rfl
@[simp] theorem State.modCtx_collectives : (s.modCtx c f).collectives = s.collectives := by unfold State.modCtx; split <;> rfl
@[simp] theorem State.modCtx_suspended : (s.modCtx c f).suspended = s.suspended := by unfold State.modCtx; split <;> rfl
@[simp] theorem State.modCtx_started : (s.modCtx c f).started = s.started := by unfold State.modCtx; split <;> rfl
@[simp] theorem State.modCtx_startFailed : (s.modCtx c f).startFailed = s.startFailed := by unfold State.modCtx; split <;> rfl
@[simp] theorem State.modCtx_tools : (s.modCtx c f).tools = s.tools := by unfold State.modCtx; split <;> rfl
@[simp] theorem State.modCtx_inputs : (s.modCtx c f).inputs = s.inputs := by unfold State.modCtx; split <;> rfl
@[simp] theorem State.modCtx_issue : (s.modCtx c f).issue = s.issue := by unfold State.modCtx; split <;> rfl
@[simp] theorem State.modCtx_turn : (s.modCtx c f).turn = s.turn := by unfold State.modCtx; split <;> rfl
@[simp] theorem State.modCtx_free : (s.modCtx c f).free = s.free := by unfold State.modCtx; split <;> rfl
@[simp] theorem State.modCtx_nextId : (s.modCtx c f).nextId = s.nextId := by unfold State.modCtx; split <;> rfl
@[simp] theorem State.modCtx_freed : (s.modCtx c f).freed = s.freed := by unfold State.modCtx; split <;> rfl
@[simp] theorem State.modCtx_warm : (s.modCtx c f).warm = s.warm := by unfold State.modCtx; split <;> rfl
@[simp] theorem State.modCtx_settled : (s.modCtx c f).settled = s.settled := by unfold State.modCtx; split <;> rfl
@[simp] theorem State.modCtx_order : (s.modCtx c f).order = s.order := by unfold State.modCtx; split <;> rfl
@[simp] theorem State.modCtx_spares : (s.modCtx c f).spares = s.spares := by unfold State.modCtx; split <;> rfl
@[simp] theorem State.modCtx_past : (s.modCtx c f).past = s.past := by unfold State.modCtx; split <;> rfl
@[simp] theorem State.modCtx_answer : (s.modCtx c f).answer = s.answer := by unfold State.modCtx; split <;> rfl

end modCtx

section modLaunch
variable (s : State) (l : Nat) (f : Launch → Launch)

@[simp] theorem State.modLaunch_threads : (s.modLaunch l f).threads = s.threads := by unfold State.modLaunch; split <;> rfl
@[simp] theorem State.modLaunch_courses : (s.modLaunch l f).courses = s.courses := by unfold State.modLaunch; split <;> rfl
@[simp] theorem State.modLaunch_queues : (s.modLaunch l f).queues = s.queues := by unfold State.modLaunch; split <;> rfl
@[simp] theorem State.modLaunch_parts : (s.modLaunch l f).parts = s.parts := by unfold State.modLaunch; split <;> rfl
@[simp] theorem State.modLaunch_ctxs : (s.modLaunch l f).ctxs = s.ctxs := by unfold State.modLaunch; split <;> rfl
@[simp] theorem State.modLaunch_ops : (s.modLaunch l f).ops = s.ops := by unfold State.modLaunch; split <;> rfl
@[simp] theorem State.modLaunch_cores : (s.modLaunch l f).cores = s.cores := by unfold State.modLaunch; split <;> rfl
@[simp] theorem State.modLaunch_clusters : (s.modLaunch l f).clusters = s.clusters := by unfold State.modLaunch; split <;> rfl
@[simp] theorem State.modLaunch_dies : (s.modLaunch l f).dies = s.dies := by unfold State.modLaunch; split <;> rfl
@[simp] theorem State.modLaunch_mem : (s.modLaunch l f).mem = s.mem := by unfold State.modLaunch; split <;> rfl
@[simp] theorem State.modLaunch_units : (s.modLaunch l f).units = s.units := by unfold State.modLaunch; split <;> rfl
@[simp] theorem State.modLaunch_poisoned : (s.modLaunch l f).poisoned = s.poisoned := by unfold State.modLaunch; split <;> rfl
@[simp] theorem State.modLaunch_caps : (s.modLaunch l f).caps = s.caps := by unfold State.modLaunch; split <;> rfl
@[simp] theorem State.modLaunch_cycle : (s.modLaunch l f).cycle = s.cycle := by unfold State.modLaunch; split <;> rfl
@[simp] theorem State.modLaunch_mgmt : (s.modLaunch l f).mgmt = s.mgmt := by unfold State.modLaunch; split <;> rfl
@[simp] theorem State.modLaunch_keys : (s.modLaunch l f).keys = s.keys := by unfold State.modLaunch; split <;> rfl
@[simp] theorem State.modLaunch_transports : (s.modLaunch l f).transports = s.transports := by unfold State.modLaunch; split <;> rfl
@[simp] theorem State.modLaunch_ports : (s.modLaunch l f).ports = s.ports := by unfold State.modLaunch; split <;> rfl
@[simp] theorem State.modLaunch_collectives : (s.modLaunch l f).collectives = s.collectives := by unfold State.modLaunch; split <;> rfl
@[simp] theorem State.modLaunch_suspended : (s.modLaunch l f).suspended = s.suspended := by unfold State.modLaunch; split <;> rfl
@[simp] theorem State.modLaunch_started : (s.modLaunch l f).started = s.started := by unfold State.modLaunch; split <;> rfl
@[simp] theorem State.modLaunch_startFailed : (s.modLaunch l f).startFailed = s.startFailed := by unfold State.modLaunch; split <;> rfl
@[simp] theorem State.modLaunch_tools : (s.modLaunch l f).tools = s.tools := by unfold State.modLaunch; split <;> rfl
@[simp] theorem State.modLaunch_inputs : (s.modLaunch l f).inputs = s.inputs := by unfold State.modLaunch; split <;> rfl
@[simp] theorem State.modLaunch_issue : (s.modLaunch l f).issue = s.issue := by unfold State.modLaunch; split <;> rfl
@[simp] theorem State.modLaunch_turn : (s.modLaunch l f).turn = s.turn := by unfold State.modLaunch; split <;> rfl
@[simp] theorem State.modLaunch_free : (s.modLaunch l f).free = s.free := by unfold State.modLaunch; split <;> rfl
@[simp] theorem State.modLaunch_nextId : (s.modLaunch l f).nextId = s.nextId := by unfold State.modLaunch; split <;> rfl
@[simp] theorem State.modLaunch_freed : (s.modLaunch l f).freed = s.freed := by unfold State.modLaunch; split <;> rfl
@[simp] theorem State.modLaunch_warm : (s.modLaunch l f).warm = s.warm := by unfold State.modLaunch; split <;> rfl
@[simp] theorem State.modLaunch_settled : (s.modLaunch l f).settled = s.settled := by unfold State.modLaunch; split <;> rfl
@[simp] theorem State.modLaunch_order : (s.modLaunch l f).order = s.order := by unfold State.modLaunch; split <;> rfl
@[simp] theorem State.modLaunch_spares : (s.modLaunch l f).spares = s.spares := by unfold State.modLaunch; split <;> rfl
@[simp] theorem State.modLaunch_past : (s.modLaunch l f).past = s.past := by unfold State.modLaunch; split <;> rfl
@[simp] theorem State.modLaunch_answer : (s.modLaunch l f).answer = s.answer := by unfold State.modLaunch; split <;> rfl

end modLaunch

section modQueue
variable (s : State) (p q : Nat) (f : Queue → Queue)

@[simp] theorem State.modQueue_threads : (s.modQueue p q f).threads = s.threads := by unfold State.modQueue; split <;> rfl
@[simp] theorem State.modQueue_courses : (s.modQueue p q f).courses = s.courses := by unfold State.modQueue; split <;> rfl
@[simp] theorem State.modQueue_launches : (s.modQueue p q f).launches = s.launches := by unfold State.modQueue; split <;> rfl
@[simp] theorem State.modQueue_parts : (s.modQueue p q f).parts = s.parts := by unfold State.modQueue; split <;> rfl
@[simp] theorem State.modQueue_ctxs : (s.modQueue p q f).ctxs = s.ctxs := by unfold State.modQueue; split <;> rfl
@[simp] theorem State.modQueue_ops : (s.modQueue p q f).ops = s.ops := by unfold State.modQueue; split <;> rfl
@[simp] theorem State.modQueue_cores : (s.modQueue p q f).cores = s.cores := by unfold State.modQueue; split <;> rfl
@[simp] theorem State.modQueue_clusters : (s.modQueue p q f).clusters = s.clusters := by unfold State.modQueue; split <;> rfl
@[simp] theorem State.modQueue_dies : (s.modQueue p q f).dies = s.dies := by unfold State.modQueue; split <;> rfl
@[simp] theorem State.modQueue_mem : (s.modQueue p q f).mem = s.mem := by unfold State.modQueue; split <;> rfl
@[simp] theorem State.modQueue_units : (s.modQueue p q f).units = s.units := by unfold State.modQueue; split <;> rfl
@[simp] theorem State.modQueue_poisoned : (s.modQueue p q f).poisoned = s.poisoned := by unfold State.modQueue; split <;> rfl
@[simp] theorem State.modQueue_caps : (s.modQueue p q f).caps = s.caps := by unfold State.modQueue; split <;> rfl
@[simp] theorem State.modQueue_cycle : (s.modQueue p q f).cycle = s.cycle := by unfold State.modQueue; split <;> rfl
@[simp] theorem State.modQueue_mgmt : (s.modQueue p q f).mgmt = s.mgmt := by unfold State.modQueue; split <;> rfl
@[simp] theorem State.modQueue_keys : (s.modQueue p q f).keys = s.keys := by unfold State.modQueue; split <;> rfl
@[simp] theorem State.modQueue_transports : (s.modQueue p q f).transports = s.transports := by unfold State.modQueue; split <;> rfl
@[simp] theorem State.modQueue_ports : (s.modQueue p q f).ports = s.ports := by unfold State.modQueue; split <;> rfl
@[simp] theorem State.modQueue_collectives : (s.modQueue p q f).collectives = s.collectives := by unfold State.modQueue; split <;> rfl
@[simp] theorem State.modQueue_suspended : (s.modQueue p q f).suspended = s.suspended := by unfold State.modQueue; split <;> rfl
@[simp] theorem State.modQueue_started : (s.modQueue p q f).started = s.started := by unfold State.modQueue; split <;> rfl
@[simp] theorem State.modQueue_startFailed : (s.modQueue p q f).startFailed = s.startFailed := by unfold State.modQueue; split <;> rfl
@[simp] theorem State.modQueue_tools : (s.modQueue p q f).tools = s.tools := by unfold State.modQueue; split <;> rfl
@[simp] theorem State.modQueue_inputs : (s.modQueue p q f).inputs = s.inputs := by unfold State.modQueue; split <;> rfl
@[simp] theorem State.modQueue_issue : (s.modQueue p q f).issue = s.issue := by unfold State.modQueue; split <;> rfl
@[simp] theorem State.modQueue_turn : (s.modQueue p q f).turn = s.turn := by unfold State.modQueue; split <;> rfl
@[simp] theorem State.modQueue_free : (s.modQueue p q f).free = s.free := by unfold State.modQueue; split <;> rfl
@[simp] theorem State.modQueue_nextId : (s.modQueue p q f).nextId = s.nextId := by unfold State.modQueue; split <;> rfl
@[simp] theorem State.modQueue_freed : (s.modQueue p q f).freed = s.freed := by unfold State.modQueue; split <;> rfl
@[simp] theorem State.modQueue_warm : (s.modQueue p q f).warm = s.warm := by unfold State.modQueue; split <;> rfl
@[simp] theorem State.modQueue_settled : (s.modQueue p q f).settled = s.settled := by unfold State.modQueue; split <;> rfl
@[simp] theorem State.modQueue_order : (s.modQueue p q f).order = s.order := by unfold State.modQueue; split <;> rfl
@[simp] theorem State.modQueue_spares : (s.modQueue p q f).spares = s.spares := by unfold State.modQueue; split <;> rfl
@[simp] theorem State.modQueue_past : (s.modQueue p q f).past = s.past := by unfold State.modQueue; split <;> rfl
@[simp] theorem State.modQueue_answer : (s.modQueue p q f).answer = s.answer := by unfold State.modQueue; split <;> rfl

end modQueue

section modOp
variable (s : State) (n : Nat) (f : Op → Op)

@[simp] theorem State.modOp_threads : (s.modOp n f).threads = s.threads := by unfold State.modOp; split <;> rfl
@[simp] theorem State.modOp_courses : (s.modOp n f).courses = s.courses := by unfold State.modOp; split <;> rfl
@[simp] theorem State.modOp_launches : (s.modOp n f).launches = s.launches := by unfold State.modOp; split <;> rfl
@[simp] theorem State.modOp_queues : (s.modOp n f).queues = s.queues := by unfold State.modOp; split <;> rfl
@[simp] theorem State.modOp_parts : (s.modOp n f).parts = s.parts := by unfold State.modOp; split <;> rfl
@[simp] theorem State.modOp_ctxs : (s.modOp n f).ctxs = s.ctxs := by unfold State.modOp; split <;> rfl
@[simp] theorem State.modOp_cores : (s.modOp n f).cores = s.cores := by unfold State.modOp; split <;> rfl
@[simp] theorem State.modOp_clusters : (s.modOp n f).clusters = s.clusters := by unfold State.modOp; split <;> rfl
@[simp] theorem State.modOp_dies : (s.modOp n f).dies = s.dies := by unfold State.modOp; split <;> rfl
@[simp] theorem State.modOp_mem : (s.modOp n f).mem = s.mem := by unfold State.modOp; split <;> rfl
@[simp] theorem State.modOp_units : (s.modOp n f).units = s.units := by unfold State.modOp; split <;> rfl
@[simp] theorem State.modOp_poisoned : (s.modOp n f).poisoned = s.poisoned := by unfold State.modOp; split <;> rfl
@[simp] theorem State.modOp_caps : (s.modOp n f).caps = s.caps := by unfold State.modOp; split <;> rfl
@[simp] theorem State.modOp_cycle : (s.modOp n f).cycle = s.cycle := by unfold State.modOp; split <;> rfl
@[simp] theorem State.modOp_mgmt : (s.modOp n f).mgmt = s.mgmt := by unfold State.modOp; split <;> rfl
@[simp] theorem State.modOp_keys : (s.modOp n f).keys = s.keys := by unfold State.modOp; split <;> rfl
@[simp] theorem State.modOp_transports : (s.modOp n f).transports = s.transports := by unfold State.modOp; split <;> rfl
@[simp] theorem State.modOp_ports : (s.modOp n f).ports = s.ports := by unfold State.modOp; split <;> rfl
@[simp] theorem State.modOp_collectives : (s.modOp n f).collectives = s.collectives := by unfold State.modOp; split <;> rfl
@[simp] theorem State.modOp_suspended : (s.modOp n f).suspended = s.suspended := by unfold State.modOp; split <;> rfl
@[simp] theorem State.modOp_started : (s.modOp n f).started = s.started := by unfold State.modOp; split <;> rfl
@[simp] theorem State.modOp_startFailed : (s.modOp n f).startFailed = s.startFailed := by unfold State.modOp; split <;> rfl
@[simp] theorem State.modOp_tools : (s.modOp n f).tools = s.tools := by unfold State.modOp; split <;> rfl
@[simp] theorem State.modOp_inputs : (s.modOp n f).inputs = s.inputs := by unfold State.modOp; split <;> rfl
@[simp] theorem State.modOp_issue : (s.modOp n f).issue = s.issue := by unfold State.modOp; split <;> rfl
@[simp] theorem State.modOp_turn : (s.modOp n f).turn = s.turn := by unfold State.modOp; split <;> rfl
@[simp] theorem State.modOp_free : (s.modOp n f).free = s.free := by unfold State.modOp; split <;> rfl
@[simp] theorem State.modOp_nextId : (s.modOp n f).nextId = s.nextId := by unfold State.modOp; split <;> rfl
@[simp] theorem State.modOp_freed : (s.modOp n f).freed = s.freed := by unfold State.modOp; split <;> rfl
@[simp] theorem State.modOp_warm : (s.modOp n f).warm = s.warm := by unfold State.modOp; split <;> rfl
@[simp] theorem State.modOp_settled : (s.modOp n f).settled = s.settled := by unfold State.modOp; split <;> rfl
@[simp] theorem State.modOp_order : (s.modOp n f).order = s.order := by unfold State.modOp; split <;> rfl
@[simp] theorem State.modOp_spares : (s.modOp n f).spares = s.spares := by unfold State.modOp; split <;> rfl
@[simp] theorem State.modOp_past : (s.modOp n f).past = s.past := by unfold State.modOp; split <;> rfl
@[simp] theorem State.modOp_answer : (s.modOp n f).answer = s.answer := by unfold State.modOp; split <;> rfl

end modOp

section modCore
variable (s : State) (n : Nat) (f : Core → Core)

@[simp] theorem State.modCore_threads : (s.modCore n f).threads = s.threads := by simp [State.modCore]
@[simp] theorem State.modCore_courses : (s.modCore n f).courses = s.courses := by simp [State.modCore]
@[simp] theorem State.modCore_launches : (s.modCore n f).launches = s.launches := by simp [State.modCore]
@[simp] theorem State.modCore_queues : (s.modCore n f).queues = s.queues := by simp [State.modCore]
@[simp] theorem State.modCore_parts : (s.modCore n f).parts = s.parts := by simp [State.modCore]
@[simp] theorem State.modCore_ctxs : (s.modCore n f).ctxs = s.ctxs := by simp [State.modCore]
@[simp] theorem State.modCore_ops : (s.modCore n f).ops = s.ops := by simp [State.modCore]
@[simp] theorem State.modCore_clusters : (s.modCore n f).clusters = s.clusters := by simp [State.modCore]
@[simp] theorem State.modCore_dies : (s.modCore n f).dies = s.dies := by simp [State.modCore]
@[simp] theorem State.modCore_mem : (s.modCore n f).mem = s.mem := by simp [State.modCore]
@[simp] theorem State.modCore_units : (s.modCore n f).units = s.units := by simp [State.modCore]
@[simp] theorem State.modCore_poisoned : (s.modCore n f).poisoned = s.poisoned := by simp [State.modCore]
@[simp] theorem State.modCore_caps : (s.modCore n f).caps = s.caps := by simp [State.modCore]
@[simp] theorem State.modCore_cycle : (s.modCore n f).cycle = s.cycle := by simp [State.modCore]
@[simp] theorem State.modCore_mgmt : (s.modCore n f).mgmt = s.mgmt := by simp [State.modCore]
@[simp] theorem State.modCore_keys : (s.modCore n f).keys = s.keys := by simp [State.modCore]
@[simp] theorem State.modCore_transports : (s.modCore n f).transports = s.transports := by simp [State.modCore]
@[simp] theorem State.modCore_ports : (s.modCore n f).ports = s.ports := by simp [State.modCore]
@[simp] theorem State.modCore_collectives : (s.modCore n f).collectives = s.collectives := by simp [State.modCore]
@[simp] theorem State.modCore_suspended : (s.modCore n f).suspended = s.suspended := by simp [State.modCore]
@[simp] theorem State.modCore_started : (s.modCore n f).started = s.started := by simp [State.modCore]
@[simp] theorem State.modCore_startFailed : (s.modCore n f).startFailed = s.startFailed := by simp [State.modCore]
@[simp] theorem State.modCore_tools : (s.modCore n f).tools = s.tools := by simp [State.modCore]
@[simp] theorem State.modCore_inputs : (s.modCore n f).inputs = s.inputs := by simp [State.modCore]
@[simp] theorem State.modCore_issue : (s.modCore n f).issue = s.issue := by simp [State.modCore]
@[simp] theorem State.modCore_turn : (s.modCore n f).turn = s.turn := by simp [State.modCore]
@[simp] theorem State.modCore_free : (s.modCore n f).free = s.free := by simp [State.modCore]
@[simp] theorem State.modCore_nextId : (s.modCore n f).nextId = s.nextId := by simp [State.modCore]
@[simp] theorem State.modCore_freed : (s.modCore n f).freed = s.freed := by simp [State.modCore]
@[simp] theorem State.modCore_warm : (s.modCore n f).warm = s.warm := by simp [State.modCore]
@[simp] theorem State.modCore_settled : (s.modCore n f).settled = s.settled := by simp [State.modCore]
@[simp] theorem State.modCore_order : (s.modCore n f).order = s.order := by simp [State.modCore]
@[simp] theorem State.modCore_spares : (s.modCore n f).spares = s.spares := by simp [State.modCore]
@[simp] theorem State.modCore_past : (s.modCore n f).past = s.past := by simp [State.modCore]
@[simp] theorem State.modCore_answer : (s.modCore n f).answer = s.answer := by simp [State.modCore]

end modCore

section modCluster
variable (s : State) (n : Nat) (f : Cluster → Cluster)

@[simp] theorem State.modCluster_threads : (s.modCluster n f).threads = s.threads := by simp [State.modCluster]
@[simp] theorem State.modCluster_courses : (s.modCluster n f).courses = s.courses := by simp [State.modCluster]
@[simp] theorem State.modCluster_launches : (s.modCluster n f).launches = s.launches := by simp [State.modCluster]
@[simp] theorem State.modCluster_queues : (s.modCluster n f).queues = s.queues := by simp [State.modCluster]
@[simp] theorem State.modCluster_parts : (s.modCluster n f).parts = s.parts := by simp [State.modCluster]
@[simp] theorem State.modCluster_ctxs : (s.modCluster n f).ctxs = s.ctxs := by simp [State.modCluster]
@[simp] theorem State.modCluster_ops : (s.modCluster n f).ops = s.ops := by simp [State.modCluster]
@[simp] theorem State.modCluster_cores : (s.modCluster n f).cores = s.cores := by simp [State.modCluster]
@[simp] theorem State.modCluster_dies : (s.modCluster n f).dies = s.dies := by simp [State.modCluster]
@[simp] theorem State.modCluster_mem : (s.modCluster n f).mem = s.mem := by simp [State.modCluster]
@[simp] theorem State.modCluster_units : (s.modCluster n f).units = s.units := by simp [State.modCluster]
@[simp] theorem State.modCluster_poisoned : (s.modCluster n f).poisoned = s.poisoned := by simp [State.modCluster]
@[simp] theorem State.modCluster_caps : (s.modCluster n f).caps = s.caps := by simp [State.modCluster]
@[simp] theorem State.modCluster_cycle : (s.modCluster n f).cycle = s.cycle := by simp [State.modCluster]
@[simp] theorem State.modCluster_mgmt : (s.modCluster n f).mgmt = s.mgmt := by simp [State.modCluster]
@[simp] theorem State.modCluster_keys : (s.modCluster n f).keys = s.keys := by simp [State.modCluster]
@[simp] theorem State.modCluster_transports : (s.modCluster n f).transports = s.transports := by simp [State.modCluster]
@[simp] theorem State.modCluster_ports : (s.modCluster n f).ports = s.ports := by simp [State.modCluster]
@[simp] theorem State.modCluster_collectives : (s.modCluster n f).collectives = s.collectives := by simp [State.modCluster]
@[simp] theorem State.modCluster_suspended : (s.modCluster n f).suspended = s.suspended := by simp [State.modCluster]
@[simp] theorem State.modCluster_started : (s.modCluster n f).started = s.started := by simp [State.modCluster]
@[simp] theorem State.modCluster_startFailed : (s.modCluster n f).startFailed = s.startFailed := by simp [State.modCluster]
@[simp] theorem State.modCluster_tools : (s.modCluster n f).tools = s.tools := by simp [State.modCluster]
@[simp] theorem State.modCluster_inputs : (s.modCluster n f).inputs = s.inputs := by simp [State.modCluster]
@[simp] theorem State.modCluster_issue : (s.modCluster n f).issue = s.issue := by simp [State.modCluster]
@[simp] theorem State.modCluster_turn : (s.modCluster n f).turn = s.turn := by simp [State.modCluster]
@[simp] theorem State.modCluster_free : (s.modCluster n f).free = s.free := by simp [State.modCluster]
@[simp] theorem State.modCluster_nextId : (s.modCluster n f).nextId = s.nextId := by simp [State.modCluster]
@[simp] theorem State.modCluster_freed : (s.modCluster n f).freed = s.freed := by simp [State.modCluster]
@[simp] theorem State.modCluster_warm : (s.modCluster n f).warm = s.warm := by simp [State.modCluster]
@[simp] theorem State.modCluster_settled : (s.modCluster n f).settled = s.settled := by simp [State.modCluster]
@[simp] theorem State.modCluster_order : (s.modCluster n f).order = s.order := by simp [State.modCluster]
@[simp] theorem State.modCluster_spares : (s.modCluster n f).spares = s.spares := by simp [State.modCluster]
@[simp] theorem State.modCluster_past : (s.modCluster n f).past = s.past := by simp [State.modCluster]
@[simp] theorem State.modCluster_answer : (s.modCluster n f).answer = s.answer := by simp [State.modCluster]

end modCluster

section modDie
variable (s : State) (n : Nat) (f : Die → Die)

@[simp] theorem State.modDie_threads : (s.modDie n f).threads = s.threads := by simp [State.modDie]
@[simp] theorem State.modDie_courses : (s.modDie n f).courses = s.courses := by simp [State.modDie]
@[simp] theorem State.modDie_launches : (s.modDie n f).launches = s.launches := by simp [State.modDie]
@[simp] theorem State.modDie_queues : (s.modDie n f).queues = s.queues := by simp [State.modDie]
@[simp] theorem State.modDie_parts : (s.modDie n f).parts = s.parts := by simp [State.modDie]
@[simp] theorem State.modDie_ctxs : (s.modDie n f).ctxs = s.ctxs := by simp [State.modDie]
@[simp] theorem State.modDie_ops : (s.modDie n f).ops = s.ops := by simp [State.modDie]
@[simp] theorem State.modDie_cores : (s.modDie n f).cores = s.cores := by simp [State.modDie]
@[simp] theorem State.modDie_clusters : (s.modDie n f).clusters = s.clusters := by simp [State.modDie]
@[simp] theorem State.modDie_mem : (s.modDie n f).mem = s.mem := by simp [State.modDie]
@[simp] theorem State.modDie_units : (s.modDie n f).units = s.units := by simp [State.modDie]
@[simp] theorem State.modDie_poisoned : (s.modDie n f).poisoned = s.poisoned := by simp [State.modDie]
@[simp] theorem State.modDie_caps : (s.modDie n f).caps = s.caps := by simp [State.modDie]
@[simp] theorem State.modDie_cycle : (s.modDie n f).cycle = s.cycle := by simp [State.modDie]
@[simp] theorem State.modDie_mgmt : (s.modDie n f).mgmt = s.mgmt := by simp [State.modDie]
@[simp] theorem State.modDie_keys : (s.modDie n f).keys = s.keys := by simp [State.modDie]
@[simp] theorem State.modDie_transports : (s.modDie n f).transports = s.transports := by simp [State.modDie]
@[simp] theorem State.modDie_ports : (s.modDie n f).ports = s.ports := by simp [State.modDie]
@[simp] theorem State.modDie_collectives : (s.modDie n f).collectives = s.collectives := by simp [State.modDie]
@[simp] theorem State.modDie_suspended : (s.modDie n f).suspended = s.suspended := by simp [State.modDie]
@[simp] theorem State.modDie_started : (s.modDie n f).started = s.started := by simp [State.modDie]
@[simp] theorem State.modDie_startFailed : (s.modDie n f).startFailed = s.startFailed := by simp [State.modDie]
@[simp] theorem State.modDie_tools : (s.modDie n f).tools = s.tools := by simp [State.modDie]
@[simp] theorem State.modDie_inputs : (s.modDie n f).inputs = s.inputs := by simp [State.modDie]
@[simp] theorem State.modDie_issue : (s.modDie n f).issue = s.issue := by simp [State.modDie]
@[simp] theorem State.modDie_turn : (s.modDie n f).turn = s.turn := by simp [State.modDie]
@[simp] theorem State.modDie_free : (s.modDie n f).free = s.free := by simp [State.modDie]
@[simp] theorem State.modDie_nextId : (s.modDie n f).nextId = s.nextId := by simp [State.modDie]
@[simp] theorem State.modDie_freed : (s.modDie n f).freed = s.freed := by simp [State.modDie]
@[simp] theorem State.modDie_warm : (s.modDie n f).warm = s.warm := by simp [State.modDie]
@[simp] theorem State.modDie_settled : (s.modDie n f).settled = s.settled := by simp [State.modDie]
@[simp] theorem State.modDie_order : (s.modDie n f).order = s.order := by simp [State.modDie]
@[simp] theorem State.modDie_spares : (s.modDie n f).spares = s.spares := by simp [State.modDie]
@[simp] theorem State.modDie_past : (s.modDie n f).past = s.past := by simp [State.modDie]
@[simp] theorem State.modDie_answer : (s.modDie n f).answer = s.answer := by simp [State.modDie]

end modDie

section addOp
variable (s : State) (o : Op)

@[simp] theorem State.addOp_threads : (s.addOp o).threads = s.threads := rfl
@[simp] theorem State.addOp_courses : (s.addOp o).courses = s.courses := rfl
@[simp] theorem State.addOp_launches : (s.addOp o).launches = s.launches := rfl
@[simp] theorem State.addOp_queues : (s.addOp o).queues = s.queues := rfl
@[simp] theorem State.addOp_parts : (s.addOp o).parts = s.parts := rfl
@[simp] theorem State.addOp_ctxs : (s.addOp o).ctxs = s.ctxs := rfl
@[simp] theorem State.addOp_ops : (s.addOp o).ops = tput s.ops s.nextId
    { o with gang := match s.issue with
      | some g => (g.core, g.slot)
      | none => (0, 0) } := rfl
@[simp] theorem State.addOp_cores : (s.addOp o).cores = s.cores := rfl
@[simp] theorem State.addOp_clusters : (s.addOp o).clusters = s.clusters := rfl
@[simp] theorem State.addOp_dies : (s.addOp o).dies = s.dies := rfl
@[simp] theorem State.addOp_mem : (s.addOp o).mem = s.mem := rfl
@[simp] theorem State.addOp_units : (s.addOp o).units = s.units := rfl
@[simp] theorem State.addOp_poisoned : (s.addOp o).poisoned = s.poisoned := rfl
@[simp] theorem State.addOp_caps : (s.addOp o).caps = s.caps := rfl
@[simp] theorem State.addOp_cycle : (s.addOp o).cycle = s.cycle := rfl
@[simp] theorem State.addOp_mgmt : (s.addOp o).mgmt = s.mgmt := rfl
@[simp] theorem State.addOp_keys : (s.addOp o).keys = s.keys := rfl
@[simp] theorem State.addOp_transports : (s.addOp o).transports = s.transports := rfl
@[simp] theorem State.addOp_ports : (s.addOp o).ports = s.ports := rfl
@[simp] theorem State.addOp_collectives : (s.addOp o).collectives = s.collectives := rfl
@[simp] theorem State.addOp_suspended : (s.addOp o).suspended = s.suspended := rfl
@[simp] theorem State.addOp_started : (s.addOp o).started = s.started := rfl
@[simp] theorem State.addOp_startFailed : (s.addOp o).startFailed = s.startFailed := rfl
@[simp] theorem State.addOp_tools : (s.addOp o).tools = s.tools := rfl
@[simp] theorem State.addOp_inputs : (s.addOp o).inputs = s.inputs := rfl
@[simp] theorem State.addOp_issue : (s.addOp o).issue = s.issue := rfl
@[simp] theorem State.addOp_turn : (s.addOp o).turn = s.turn := rfl
@[simp] theorem State.addOp_free : (s.addOp o).free = s.free := rfl
@[simp] theorem State.addOp_nextId : (s.addOp o).nextId = s.nextId + 1 := rfl
@[simp] theorem State.addOp_freed : (s.addOp o).freed = s.freed := rfl
@[simp] theorem State.addOp_warm : (s.addOp o).warm = s.warm := rfl
@[simp] theorem State.addOp_settled : (s.addOp o).settled = s.settled := rfl
@[simp] theorem State.addOp_order : (s.addOp o).order = s.order := rfl
@[simp] theorem State.addOp_spares : (s.addOp o).spares = s.spares := rfl
@[simp] theorem State.addOp_past : (s.addOp o).past = s.past := rfl
@[simp] theorem State.addOp_answer : (s.addOp o).answer = s.answer := rfl

end addOp

/-! ## What the updates leave in the tables -/

theorem State.thread_setThread (s : State) (id j : ThreadId) (t : Thread) :
    (s.setThread id t).thread j = if j = id then some t else s.thread j := by
  simp [State.thread, tget_tput]

@[simp] theorem State.thread_setThread_self (s : State) (id : ThreadId) (t : Thread) :
    (s.setThread id t).thread id = some t := by simp [State.thread]

theorem State.thread_modThread (s : State) (id j : ThreadId) (f : Thread → Thread) :
    (s.modThread id f).thread j = if j = id then (s.thread j).map f else s.thread j := by
  unfold State.modThread
  split
  · next t h =>
    rw [State.thread_setThread]
    split
    · next e => subst e; simp [h]
    · rfl
  · next h =>
    split
    · next e => subst e; simp [h]
    · rfl

theorem State.course_setCourse (s : State) (id j : CourseId) (c : Course) :
    (s.setCourse id c).course j = if j = id then some c else s.course j := by
  simp [State.course, tget_tput]

theorem State.course_modCourse (s : State) (id j : CourseId) (f : Course → Course) :
    (s.modCourse id f).course j = if j = id then (s.course j).map f else s.course j := by
  unfold State.modCourse
  split
  · next c h =>
    rw [State.course_setCourse]
    split
    · next e => subst e; simp [h]
    · rfl
  · next h =>
    split
    · next e => subst e; simp [h]
    · rfl

theorem State.op_setOp (s : State) (n j : Nat) (x : Op) :
    (s.setOp n x).op j = if j = n then some x else s.op j := by
  simp [State.op, tget_tput]

theorem State.op_delOp (s : State) (n j : Nat) :
    (s.delOp n).op j = if j = n then none else s.op j := by
  simp only [State.op, State.delOp]
  split
  · next h => subst h; simp
  · next h => exact tget_tdel_ne _ h

theorem State.queue_setQueue (s : State) (p q : Nat) (x : Queue) (p' q' : Nat) :
    (s.setQueue p q x).queue p' q' = if p' = p ∧ q' = q then some x else s.queue p' q' := by
  simp [State.queue, tget_tput]

theorem State.part_setPart (s : State) (p j : Nat) (x : Partition) :
    (s.setPart p x).part j = if j = p then some x else s.part j := by
  simp [State.part, tget_tput]

theorem State.ctx_setCtx (s : State) (c j : Nat) (x : Context) :
    (s.setCtx c x).ctx j = if j = c then some x else s.ctx j := by
  simp [State.ctx, tget_tput]

theorem State.launch_setLaunch (s : State) (l j : Nat) (x : Launch) :
    (s.setLaunch l x).launch j = if j = l then some x else s.launch j := by
  simp [State.launch, tget_tput]

theorem State.core_setCore (s : State) {n : Nat} (j : Nat) (x : Core) (h : n < noCore) :
    (s.setCore n x).core j = if j = n then x else s.core j := by
  simp only [State.setCore, h, if_true, State.core, tget_tput]
  split <;> rfl

theorem State.cluster_setCluster (s : State) {n : Nat} (j : Nat) (x : Cluster) (h : n < 208) :
    (s.setCluster n x).cluster j = if j = n then x else s.cluster j := by
  simp only [State.setCluster, h, if_true, State.cluster, tget_tput]
  split <;> rfl

theorem State.die_setDie (s : State) {n : Nat} (j : Nat) (x : Die) (h : n < 4) :
    (s.setDie n x).die j = if j = n then x else s.die j := by
  simp only [State.setDie, h, if_true, State.die, tget_tput]
  split <;> rfl

/-! ## Updates of a thread -/

section setReg
variable (t : Thread) (d : Opd) (r : VReg)

@[simp] theorem Thread.setReg_preds : (t.setReg d r).preds = t.preds := by cases d <;> rfl
@[simp] theorem Thread.setReg_kregs : (t.setReg d r).kregs = t.kregs := by cases d <;> rfl
@[simp] theorem Thread.setReg_pc : (t.setReg d r).pc = t.pc := by cases d <;> rfl
@[simp] theorem Thread.setReg_cso : (t.setReg d r).cso = t.cso := by cases d <;> rfl
@[simp] theorem Thread.setReg_fflags : (t.setReg d r).fflags = t.fflags := by cases d <;> rfl
@[simp] theorem Thread.setReg_fctl : (t.setReg d r).fctl = t.fctl := by cases d <;> rfl
@[simp] theorem Thread.setReg_gen : (t.setReg d r).gen = t.gen := by cases d <;> rfl
@[simp] theorem Thread.setReg_loads : (t.setReg d r).loads = t.loads := by cases d <;> rfl
@[simp] theorem Thread.setReg_stores : (t.setReg d r).stores = t.stores := by cases d <;> rfl
@[simp] theorem Thread.setReg_copies : (t.setReg d r).copies = t.copies := by cases d <;> rfl
@[simp] theorem Thread.setReg_tileOps : (t.setReg d r).tileOps = t.tileOps := by cases d <;> rfl
@[simp] theorem Thread.setReg_crews : (t.setReg d r).crews = t.crews := by cases d <;> rfl
@[simp] theorem Thread.setReg_trapfpc : (t.setReg d r).trapfpc = t.trapfpc := by cases d <;> rfl
@[simp] theorem Thread.setReg_trappc : (t.setReg d r).trappc = t.trappc := by cases d <;> rfl
@[simp] theorem Thread.setReg_trapinfo : (t.setReg d r).trapinfo = t.trapinfo := by cases d <;> rfl
@[simp] theorem Thread.setReg_trapmask : (t.setReg d r).trapmask = t.trapmask := by cases d <;> rfl
@[simp] theorem Thread.setReg_armed : (t.setReg d r).armed = t.armed := by cases d <;> rfl
@[simp] theorem Thread.setReg_field : (t.setReg d r).field = t.field := by cases d <;> rfl
@[simp] theorem Thread.setReg_late : (t.setReg d r).late = t.late := by cases d <;> rfl
@[simp] theorem Thread.setReg_inHandler : (t.setReg d r).inHandler = t.inHandler := by cases d <;> rfl
@[simp] theorem Thread.setReg_resume : (t.setReg d r).resume = t.resume := by cases d <;> rfl
@[simp] theorem Thread.setReg_prio : (t.setReg d r).prio = t.prio := by cases d <;> rfl
@[simp] theorem Thread.setReg_acqTs : (t.setReg d r).acqTs = t.acqTs := by cases d <;> rfl
@[simp] theorem Thread.setReg_holds : (t.setReg d r).holds = t.holds := by cases d <;> rfl
@[simp] theorem Thread.setReg_wreg : (t.setReg d r).wreg = t.wreg := by cases d <;> rfl
@[simp] theorem Thread.setReg_monitor : (t.setReg d r).monitor = t.monitor := by cases d <;> rfl
@[simp] theorem Thread.setReg_nopre : (t.setReg d r).nopre = t.nopre := by cases d <;> rfl
@[simp] theorem Thread.setReg_priv : (t.setReg d r).priv = t.priv := by cases d <;> rfl
@[simp] theorem Thread.setReg_area : (t.setReg d r).area = t.area := by cases d <;> rfl
@[simp] theorem Thread.setReg_await : (t.setReg d r).await = t.await := by cases d <;> rfl
@[simp] theorem Thread.setReg_slot : (t.setReg d r).slot = t.slot := by cases d <;> rfl
@[simp] theorem Thread.setReg_since : (t.setReg d r).since = t.since := by cases d <;> rfl
@[simp] theorem Thread.setReg_overdue : (t.setReg d r).overdue = t.overdue := by cases d <;> rfl
@[simp] theorem Thread.setReg_cohort : (t.setReg d r).cohort = t.cohort := by cases d <;> rfl

end setReg

section setPair
variable (t : Thread) (d : Opd) (w : DWord) (g : Tag)

@[simp] theorem Thread.setPair_preds : (t.setPair d w g).preds = t.preds := by simp [Thread.setPair]
@[simp] theorem Thread.setPair_kregs : (t.setPair d w g).kregs = t.kregs := by simp [Thread.setPair]
@[simp] theorem Thread.setPair_pc : (t.setPair d w g).pc = t.pc := by simp [Thread.setPair]
@[simp] theorem Thread.setPair_cso : (t.setPair d w g).cso = t.cso := by simp [Thread.setPair]
@[simp] theorem Thread.setPair_fflags : (t.setPair d w g).fflags = t.fflags := by simp [Thread.setPair]
@[simp] theorem Thread.setPair_fctl : (t.setPair d w g).fctl = t.fctl := by simp [Thread.setPair]
@[simp] theorem Thread.setPair_gen : (t.setPair d w g).gen = t.gen := by simp [Thread.setPair]
@[simp] theorem Thread.setPair_loads : (t.setPair d w g).loads = t.loads := by simp [Thread.setPair]
@[simp] theorem Thread.setPair_stores : (t.setPair d w g).stores = t.stores := by simp [Thread.setPair]
@[simp] theorem Thread.setPair_copies : (t.setPair d w g).copies = t.copies := by simp [Thread.setPair]
@[simp] theorem Thread.setPair_tileOps : (t.setPair d w g).tileOps = t.tileOps := by simp [Thread.setPair]
@[simp] theorem Thread.setPair_crews : (t.setPair d w g).crews = t.crews := by simp [Thread.setPair]
@[simp] theorem Thread.setPair_trapfpc : (t.setPair d w g).trapfpc = t.trapfpc := by simp [Thread.setPair]
@[simp] theorem Thread.setPair_trappc : (t.setPair d w g).trappc = t.trappc := by simp [Thread.setPair]
@[simp] theorem Thread.setPair_trapinfo : (t.setPair d w g).trapinfo = t.trapinfo := by simp [Thread.setPair]
@[simp] theorem Thread.setPair_trapmask : (t.setPair d w g).trapmask = t.trapmask := by simp [Thread.setPair]
@[simp] theorem Thread.setPair_armed : (t.setPair d w g).armed = t.armed := by simp [Thread.setPair]
@[simp] theorem Thread.setPair_field : (t.setPair d w g).field = t.field := by simp [Thread.setPair]
@[simp] theorem Thread.setPair_late : (t.setPair d w g).late = t.late := by simp [Thread.setPair]
@[simp] theorem Thread.setPair_inHandler : (t.setPair d w g).inHandler = t.inHandler := by simp [Thread.setPair]
@[simp] theorem Thread.setPair_resume : (t.setPair d w g).resume = t.resume := by simp [Thread.setPair]
@[simp] theorem Thread.setPair_prio : (t.setPair d w g).prio = t.prio := by simp [Thread.setPair]
@[simp] theorem Thread.setPair_acqTs : (t.setPair d w g).acqTs = t.acqTs := by simp [Thread.setPair]
@[simp] theorem Thread.setPair_holds : (t.setPair d w g).holds = t.holds := by simp [Thread.setPair]
@[simp] theorem Thread.setPair_wreg : (t.setPair d w g).wreg = t.wreg := by simp [Thread.setPair]
@[simp] theorem Thread.setPair_monitor : (t.setPair d w g).monitor = t.monitor := by simp [Thread.setPair]
@[simp] theorem Thread.setPair_nopre : (t.setPair d w g).nopre = t.nopre := by simp [Thread.setPair]
@[simp] theorem Thread.setPair_priv : (t.setPair d w g).priv = t.priv := by simp [Thread.setPair]
@[simp] theorem Thread.setPair_area : (t.setPair d w g).area = t.area := by simp [Thread.setPair]
@[simp] theorem Thread.setPair_await : (t.setPair d w g).await = t.await := by simp [Thread.setPair]
@[simp] theorem Thread.setPair_slot : (t.setPair d w g).slot = t.slot := by simp [Thread.setPair]
@[simp] theorem Thread.setPair_since : (t.setPair d w g).since = t.since := by simp [Thread.setPair]
@[simp] theorem Thread.setPair_overdue : (t.setPair d w g).overdue = t.overdue := by simp [Thread.setPair]
@[simp] theorem Thread.setPair_cohort : (t.setPair d w g).cohort = t.cohort := by simp [Thread.setPair]

end setPair

section setKreg
variable (t : Thread) (d : Opd) (k : KReg)

@[simp] theorem Thread.setKreg_regs : (t.setKreg d k).regs = t.regs := by cases d <;> rfl
@[simp] theorem Thread.setKreg_preds : (t.setKreg d k).preds = t.preds := by cases d <;> rfl
@[simp] theorem Thread.setKreg_pc : (t.setKreg d k).pc = t.pc := by cases d <;> rfl
@[simp] theorem Thread.setKreg_cso : (t.setKreg d k).cso = t.cso := by cases d <;> rfl
@[simp] theorem Thread.setKreg_fflags : (t.setKreg d k).fflags = t.fflags := by cases d <;> rfl
@[simp] theorem Thread.setKreg_fctl : (t.setKreg d k).fctl = t.fctl := by cases d <;> rfl
@[simp] theorem Thread.setKreg_gen : (t.setKreg d k).gen = t.gen := by cases d <;> rfl
@[simp] theorem Thread.setKreg_loads : (t.setKreg d k).loads = t.loads := by cases d <;> rfl
@[simp] theorem Thread.setKreg_stores : (t.setKreg d k).stores = t.stores := by cases d <;> rfl
@[simp] theorem Thread.setKreg_copies : (t.setKreg d k).copies = t.copies := by cases d <;> rfl
@[simp] theorem Thread.setKreg_tileOps : (t.setKreg d k).tileOps = t.tileOps := by cases d <;> rfl
@[simp] theorem Thread.setKreg_crews : (t.setKreg d k).crews = t.crews := by cases d <;> rfl
@[simp] theorem Thread.setKreg_trapfpc : (t.setKreg d k).trapfpc = t.trapfpc := by cases d <;> rfl
@[simp] theorem Thread.setKreg_trappc : (t.setKreg d k).trappc = t.trappc := by cases d <;> rfl
@[simp] theorem Thread.setKreg_trapinfo : (t.setKreg d k).trapinfo = t.trapinfo := by cases d <;> rfl
@[simp] theorem Thread.setKreg_trapmask : (t.setKreg d k).trapmask = t.trapmask := by cases d <;> rfl
@[simp] theorem Thread.setKreg_armed : (t.setKreg d k).armed = t.armed := by cases d <;> rfl
@[simp] theorem Thread.setKreg_field : (t.setKreg d k).field = t.field := by cases d <;> rfl
@[simp] theorem Thread.setKreg_late : (t.setKreg d k).late = t.late := by cases d <;> rfl
@[simp] theorem Thread.setKreg_inHandler : (t.setKreg d k).inHandler = t.inHandler := by cases d <;> rfl
@[simp] theorem Thread.setKreg_resume : (t.setKreg d k).resume = t.resume := by cases d <;> rfl
@[simp] theorem Thread.setKreg_prio : (t.setKreg d k).prio = t.prio := by cases d <;> rfl
@[simp] theorem Thread.setKreg_acqTs : (t.setKreg d k).acqTs = t.acqTs := by cases d <;> rfl
@[simp] theorem Thread.setKreg_holds : (t.setKreg d k).holds = t.holds := by cases d <;> rfl
@[simp] theorem Thread.setKreg_wreg : (t.setKreg d k).wreg = t.wreg := by cases d <;> rfl
@[simp] theorem Thread.setKreg_monitor : (t.setKreg d k).monitor = t.monitor := by cases d <;> rfl
@[simp] theorem Thread.setKreg_nopre : (t.setKreg d k).nopre = t.nopre := by cases d <;> rfl
@[simp] theorem Thread.setKreg_priv : (t.setKreg d k).priv = t.priv := by cases d <;> rfl
@[simp] theorem Thread.setKreg_area : (t.setKreg d k).area = t.area := by cases d <;> rfl
@[simp] theorem Thread.setKreg_await : (t.setKreg d k).await = t.await := by cases d <;> rfl
@[simp] theorem Thread.setKreg_slot : (t.setKreg d k).slot = t.slot := by cases d <;> rfl
@[simp] theorem Thread.setKreg_since : (t.setKreg d k).since = t.since := by cases d <;> rfl
@[simp] theorem Thread.setKreg_overdue : (t.setKreg d k).overdue = t.overdue := by cases d <;> rfl
@[simp] theorem Thread.setKreg_cohort : (t.setKreg d k).cohort = t.cohort := by cases d <;> rfl

end setKreg

section setPred
variable (t : Thread) (p : Fin 8) (v : Bool)

@[simp] theorem Thread.setPred_regs : (t.setPred p v).regs = t.regs := by unfold Thread.setPred; split <;> rfl
@[simp] theorem Thread.setPred_kregs : (t.setPred p v).kregs = t.kregs := by unfold Thread.setPred; split <;> rfl
@[simp] theorem Thread.setPred_pc : (t.setPred p v).pc = t.pc := by unfold Thread.setPred; split <;> rfl
@[simp] theorem Thread.setPred_cso : (t.setPred p v).cso = t.cso := by unfold Thread.setPred; split <;> rfl
@[simp] theorem Thread.setPred_fflags : (t.setPred p v).fflags = t.fflags := by unfold Thread.setPred; split <;> rfl
@[simp] theorem Thread.setPred_fctl : (t.setPred p v).fctl = t.fctl := by unfold Thread.setPred; split <;> rfl
@[simp] theorem Thread.setPred_gen : (t.setPred p v).gen = t.gen := by unfold Thread.setPred; split <;> rfl
@[simp] theorem Thread.setPred_loads : (t.setPred p v).loads = t.loads := by unfold Thread.setPred; split <;> rfl
@[simp] theorem Thread.setPred_stores : (t.setPred p v).stores = t.stores := by unfold Thread.setPred; split <;> rfl
@[simp] theorem Thread.setPred_copies : (t.setPred p v).copies = t.copies := by unfold Thread.setPred; split <;> rfl
@[simp] theorem Thread.setPred_tileOps : (t.setPred p v).tileOps = t.tileOps := by unfold Thread.setPred; split <;> rfl
@[simp] theorem Thread.setPred_crews : (t.setPred p v).crews = t.crews := by unfold Thread.setPred; split <;> rfl
@[simp] theorem Thread.setPred_trapfpc : (t.setPred p v).trapfpc = t.trapfpc := by unfold Thread.setPred; split <;> rfl
@[simp] theorem Thread.setPred_trappc : (t.setPred p v).trappc = t.trappc := by unfold Thread.setPred; split <;> rfl
@[simp] theorem Thread.setPred_trapinfo : (t.setPred p v).trapinfo = t.trapinfo := by unfold Thread.setPred; split <;> rfl
@[simp] theorem Thread.setPred_trapmask : (t.setPred p v).trapmask = t.trapmask := by unfold Thread.setPred; split <;> rfl
@[simp] theorem Thread.setPred_armed : (t.setPred p v).armed = t.armed := by unfold Thread.setPred; split <;> rfl
@[simp] theorem Thread.setPred_field : (t.setPred p v).field = t.field := by unfold Thread.setPred; split <;> rfl
@[simp] theorem Thread.setPred_late : (t.setPred p v).late = t.late := by unfold Thread.setPred; split <;> rfl
@[simp] theorem Thread.setPred_inHandler : (t.setPred p v).inHandler = t.inHandler := by unfold Thread.setPred; split <;> rfl
@[simp] theorem Thread.setPred_resume : (t.setPred p v).resume = t.resume := by unfold Thread.setPred; split <;> rfl
@[simp] theorem Thread.setPred_prio : (t.setPred p v).prio = t.prio := by unfold Thread.setPred; split <;> rfl
@[simp] theorem Thread.setPred_acqTs : (t.setPred p v).acqTs = t.acqTs := by unfold Thread.setPred; split <;> rfl
@[simp] theorem Thread.setPred_holds : (t.setPred p v).holds = t.holds := by unfold Thread.setPred; split <;> rfl
@[simp] theorem Thread.setPred_wreg : (t.setPred p v).wreg = t.wreg := by unfold Thread.setPred; split <;> rfl
@[simp] theorem Thread.setPred_monitor : (t.setPred p v).monitor = t.monitor := by unfold Thread.setPred; split <;> rfl
@[simp] theorem Thread.setPred_nopre : (t.setPred p v).nopre = t.nopre := by unfold Thread.setPred; split <;> rfl
@[simp] theorem Thread.setPred_priv : (t.setPred p v).priv = t.priv := by unfold Thread.setPred; split <;> rfl
@[simp] theorem Thread.setPred_area : (t.setPred p v).area = t.area := by unfold Thread.setPred; split <;> rfl
@[simp] theorem Thread.setPred_await : (t.setPred p v).await = t.await := by unfold Thread.setPred; split <;> rfl
@[simp] theorem Thread.setPred_slot : (t.setPred p v).slot = t.slot := by unfold Thread.setPred; split <;> rfl
@[simp] theorem Thread.setPred_since : (t.setPred p v).since = t.since := by unfold Thread.setPred; split <;> rfl
@[simp] theorem Thread.setPred_overdue : (t.setPred p v).overdue = t.overdue := by unfold Thread.setPred; split <;> rfl
@[simp] theorem Thread.setPred_cohort : (t.setPred p v).cohort = t.cohort := by unfold Thread.setPred; split <;> rfl

end setPred

section advance
variable (t : Thread)

@[simp] theorem Thread.advance_regs : (t.advance).regs = t.regs := rfl
@[simp] theorem Thread.advance_preds : (t.advance).preds = t.preds := rfl
@[simp] theorem Thread.advance_kregs : (t.advance).kregs = t.kregs := rfl
@[simp] theorem Thread.advance_cso : (t.advance).cso = t.cso := rfl
@[simp] theorem Thread.advance_fflags : (t.advance).fflags = t.fflags := rfl
@[simp] theorem Thread.advance_fctl : (t.advance).fctl = t.fctl := rfl
@[simp] theorem Thread.advance_gen : (t.advance).gen = t.gen := rfl
@[simp] theorem Thread.advance_loads : (t.advance).loads = t.loads := rfl
@[simp] theorem Thread.advance_stores : (t.advance).stores = t.stores := rfl
@[simp] theorem Thread.advance_copies : (t.advance).copies = t.copies := rfl
@[simp] theorem Thread.advance_tileOps : (t.advance).tileOps = t.tileOps := rfl
@[simp] theorem Thread.advance_crews : (t.advance).crews = t.crews := rfl
@[simp] theorem Thread.advance_trapfpc : (t.advance).trapfpc = t.trapfpc := rfl
@[simp] theorem Thread.advance_trappc : (t.advance).trappc = t.trappc := rfl
@[simp] theorem Thread.advance_trapinfo : (t.advance).trapinfo = t.trapinfo := rfl
@[simp] theorem Thread.advance_trapmask : (t.advance).trapmask = t.trapmask := rfl
@[simp] theorem Thread.advance_armed : (t.advance).armed = t.armed := rfl
@[simp] theorem Thread.advance_field : (t.advance).field = t.field := rfl
@[simp] theorem Thread.advance_late : (t.advance).late = t.late := rfl
@[simp] theorem Thread.advance_inHandler : (t.advance).inHandler = t.inHandler := rfl
@[simp] theorem Thread.advance_resume : (t.advance).resume = t.resume := rfl
@[simp] theorem Thread.advance_prio : (t.advance).prio = t.prio := rfl
@[simp] theorem Thread.advance_acqTs : (t.advance).acqTs = t.acqTs := rfl
@[simp] theorem Thread.advance_holds : (t.advance).holds = t.holds := rfl
@[simp] theorem Thread.advance_wreg : (t.advance).wreg = t.wreg := rfl
@[simp] theorem Thread.advance_monitor : (t.advance).monitor = t.monitor := rfl
@[simp] theorem Thread.advance_nopre : (t.advance).nopre = t.nopre := rfl
@[simp] theorem Thread.advance_priv : (t.advance).priv = t.priv := rfl
@[simp] theorem Thread.advance_area : (t.advance).area = t.area := rfl
@[simp] theorem Thread.advance_await : (t.advance).await = t.await := rfl
@[simp] theorem Thread.advance_slot : (t.advance).slot = t.slot := rfl
@[simp] theorem Thread.advance_since : (t.advance).since = t.since := rfl
@[simp] theorem Thread.advance_overdue : (t.advance).overdue = t.overdue := rfl
@[simp] theorem Thread.advance_cohort : (t.advance).cohort = t.cohort := rfl
@[simp] theorem Thread.advance_pc : t.advance.pc = t.pc + 1 := rfl

end advance

section raiseFlags
variable (t : Thread) (fl en : BitVec 5) (pc : Word) (d : BitVec 8)

@[simp] theorem Thread.raiseFlags_regs : (t.raiseFlags fl en pc d).regs = t.regs := by unfold Thread.raiseFlags; dsimp only; split <;> rfl
@[simp] theorem Thread.raiseFlags_preds : (t.raiseFlags fl en pc d).preds = t.preds := by unfold Thread.raiseFlags; dsimp only; split <;> rfl
@[simp] theorem Thread.raiseFlags_kregs : (t.raiseFlags fl en pc d).kregs = t.kregs := by unfold Thread.raiseFlags; dsimp only; split <;> rfl
@[simp] theorem Thread.raiseFlags_pc : (t.raiseFlags fl en pc d).pc = t.pc := by unfold Thread.raiseFlags; dsimp only; split <;> rfl
@[simp] theorem Thread.raiseFlags_cso : (t.raiseFlags fl en pc d).cso = t.cso := by unfold Thread.raiseFlags; dsimp only; split <;> rfl
@[simp] theorem Thread.raiseFlags_fctl : (t.raiseFlags fl en pc d).fctl = t.fctl := by unfold Thread.raiseFlags; dsimp only; split <;> rfl
@[simp] theorem Thread.raiseFlags_gen : (t.raiseFlags fl en pc d).gen = t.gen := by unfold Thread.raiseFlags; dsimp only; split <;> rfl
@[simp] theorem Thread.raiseFlags_loads : (t.raiseFlags fl en pc d).loads = t.loads := by unfold Thread.raiseFlags; dsimp only; split <;> rfl
@[simp] theorem Thread.raiseFlags_stores : (t.raiseFlags fl en pc d).stores = t.stores := by unfold Thread.raiseFlags; dsimp only; split <;> rfl
@[simp] theorem Thread.raiseFlags_copies : (t.raiseFlags fl en pc d).copies = t.copies := by unfold Thread.raiseFlags; dsimp only; split <;> rfl
@[simp] theorem Thread.raiseFlags_tileOps : (t.raiseFlags fl en pc d).tileOps = t.tileOps := by unfold Thread.raiseFlags; dsimp only; split <;> rfl
@[simp] theorem Thread.raiseFlags_crews : (t.raiseFlags fl en pc d).crews = t.crews := by unfold Thread.raiseFlags; dsimp only; split <;> rfl
@[simp] theorem Thread.raiseFlags_trappc : (t.raiseFlags fl en pc d).trappc = t.trappc := by unfold Thread.raiseFlags; dsimp only; split <;> rfl
@[simp] theorem Thread.raiseFlags_trapinfo : (t.raiseFlags fl en pc d).trapinfo = t.trapinfo := by unfold Thread.raiseFlags; dsimp only; split <;> rfl
@[simp] theorem Thread.raiseFlags_trapmask : (t.raiseFlags fl en pc d).trapmask = t.trapmask := by unfold Thread.raiseFlags; dsimp only; split <;> rfl
@[simp] theorem Thread.raiseFlags_inHandler : (t.raiseFlags fl en pc d).inHandler = t.inHandler := by unfold Thread.raiseFlags; dsimp only; split <;> rfl
@[simp] theorem Thread.raiseFlags_resume : (t.raiseFlags fl en pc d).resume = t.resume := by unfold Thread.raiseFlags; dsimp only; split <;> rfl
@[simp] theorem Thread.raiseFlags_prio : (t.raiseFlags fl en pc d).prio = t.prio := by unfold Thread.raiseFlags; dsimp only; split <;> rfl
@[simp] theorem Thread.raiseFlags_acqTs : (t.raiseFlags fl en pc d).acqTs = t.acqTs := by unfold Thread.raiseFlags; dsimp only; split <;> rfl
@[simp] theorem Thread.raiseFlags_holds : (t.raiseFlags fl en pc d).holds = t.holds := by unfold Thread.raiseFlags; dsimp only; split <;> rfl
@[simp] theorem Thread.raiseFlags_wreg : (t.raiseFlags fl en pc d).wreg = t.wreg := by unfold Thread.raiseFlags; dsimp only; split <;> rfl
@[simp] theorem Thread.raiseFlags_monitor : (t.raiseFlags fl en pc d).monitor = t.monitor := by unfold Thread.raiseFlags; dsimp only; split <;> rfl
@[simp] theorem Thread.raiseFlags_nopre : (t.raiseFlags fl en pc d).nopre = t.nopre := by unfold Thread.raiseFlags; dsimp only; split <;> rfl
@[simp] theorem Thread.raiseFlags_priv : (t.raiseFlags fl en pc d).priv = t.priv := by unfold Thread.raiseFlags; dsimp only; split <;> rfl
@[simp] theorem Thread.raiseFlags_area : (t.raiseFlags fl en pc d).area = t.area := by unfold Thread.raiseFlags; dsimp only; split <;> rfl
@[simp] theorem Thread.raiseFlags_await : (t.raiseFlags fl en pc d).await = t.await := by unfold Thread.raiseFlags; dsimp only; split <;> rfl
@[simp] theorem Thread.raiseFlags_slot : (t.raiseFlags fl en pc d).slot = t.slot := by unfold Thread.raiseFlags; dsimp only; split <;> rfl
@[simp] theorem Thread.raiseFlags_since : (t.raiseFlags fl en pc d).since = t.since := by unfold Thread.raiseFlags; dsimp only; split <;> rfl
@[simp] theorem Thread.raiseFlags_overdue : (t.raiseFlags fl en pc d).overdue = t.overdue := by unfold Thread.raiseFlags; dsimp only; split <;> rfl
@[simp] theorem Thread.raiseFlags_cohort : (t.raiseFlags fl en pc d).cohort = t.cohort := by unfold Thread.raiseFlags; dsimp only; split <;> rfl
@[simp] theorem Thread.raiseFlags_fflags : (t.raiseFlags fl en pc d).fflags = t.fflags ||| fl := by
  unfold Thread.raiseFlags; dsimp only; split <;> rfl

end raiseFlags

end Sys2Proof.Machine
end

