-- ==== Sys2Proof/Laws/Gang.lean ====
section
/-! SUPPORT. Laws/Gang.lean: what running one instruction over a gang does: the register
instructions over any gang, every other one over one thread. -/

namespace Sys2Proof.Machine

open Sys2Proof.Safety

/-- One thread's part of a register instruction that no trap stops. -/
def localStep (c : Ctl) (h : Thread → Thread) (t : Thread) : Thread :=
  if t.guard c then h t else t.advance

theorem stepThread_local {c : Ctl} {f : Thread → Except Trap Thread} {h : Thread → Thread}
    (s : State) (tr : List (Nat × ThreadId × Trap)) (p : ThreadId × Nat)
    (ok : ∀ t, s.thread p.1 = some t → t.guard c = true → f t = .ok (h t)) :
    stepThread c (localAct f) (s, tr) p = (s.modThread p.1 (localStep c h), tr) := by
  unfold stepThread State.modThread
  cases ht : s.thread p.1 with
  | none => simp
  | some t =>
    simp only
    by_cases hg : t.guard c = true
    · simp [hg, localAct, ok t ht hg, localStep]
    · simp [hg, localStep]

theorem fold_local {c : Ctl} {f : Thread → Except Trap Thread} {h : Thread → Thread}
    (ps : List (ThreadId × Nat)) (hn : (ps.map (·.1)).Nodup) (s : State)
    (tr : List (Nat × ThreadId × Trap))
    (ok : ∀ id ∈ ps.map (·.1), ∀ t, s.thread id = some t → t.guard c = true → f t = .ok (h t)) :
    ps.foldl (stepThread c (localAct f)) (s, tr) =
      (ps.foldl (fun s p => s.modThread p.1 (localStep c h)) s, tr) := by
  induction ps generalizing s with
  | nil => rfl
  | cons p ps ih =>
    simp only [List.map_cons, List.nodup_cons] at hn
    rw [List.foldl_cons, List.foldl_cons, stepThread_local (h := h) s tr p (fun t ht => ok p.1 (by simp) t ht)]
    apply ih hn.2
    intro id hid t ht
    have hne : id ≠ p.1 := fun e => hn.1 (e ▸ hid)
    rw [State.thread_modThread, if_neg hne] at ht
    exact ok id (by simp [hid]) t ht

theorem fold_modThread (h : Thread → Thread) (ps : List (ThreadId × Nat)) (hn : (ps.map (·.1)).Nodup)
    (s : State) :
    (∀ id, (ps.foldl (fun s p => s.modThread p.1 h) s).thread id =
      if id ∈ ps.map (·.1) then (s.thread id).map h else s.thread id) ∧
    { ps.foldl (fun s p => s.modThread p.1 h) s with threads := s.threads } = s := by
  induction ps generalizing s with
  | nil => simp
  | cons p ps ih =>
    simp only [List.map_cons, List.nodup_cons] at hn
    have ih := ih hn.2 (s.modThread p.1 h)
    constructor
    · intro id
      rw [List.foldl_cons, ih.1 id, State.thread_modThread]
      by_cases e : id = p.1
      · subst e; simp [hn.1]
      · simp only [e, if_false, List.map_cons, List.mem_cons, false_or]
    · rw [List.foldl_cons]
      have h2 := congrArg (fun u : State => { u with threads := s.threads }) ih.2
      simp only at h2
      rw [h2]
      unfold State.modThread
      split <;> rfl

theorem zipIdx_fst {α : Type} (l : List α) (n : Nat) : (l.zipIdx n).map (·.1) = l := by
  induction l generalizing n with
  | nil => rfl
  | cons a l ih => simp [List.zipIdx_cons, ih]

/-- A register instruction over a gang: each thread of the gang takes its part, and nothing else
changes. -/
theorem runLocal_spec {s : State} {gang : List ThreadId} {c : Ctl} {f : Thread → Except Trap Thread}
    {h : Thread → Thread} (hi : Issuing s gang)
    (ok : ∀ id ∈ gang, ∀ t, s.thread id = some t → t.guard c = true → f t = .ok (h t)) :
    (∀ id, (s.runLocal c f).thread id =
      if id ∈ gang then (s.thread id).map (localStep c h) else s.thread id) ∧
    { s.runLocal c f with threads := s.threads } = s := by
  obtain ⟨⟨g, hg, rfl⟩, hn⟩ := hi
  have hm := zipIdx_fst g.gang 0
  have hf := fold_local (h := h) g.gang.zipIdx (by rw [hm]; exact hn) s [] (by rw [hm]; exact ok)
  have e : s.runLocal c f = g.gang.zipIdx.foldl (fun s p => s.modThread p.1 (localStep c h)) s := by
    simp [State.runLocal, State.runGang, hg, hf, State.deliverAll]
  have k := fold_modThread (localStep c h) g.gang.zipIdx (by rw [hm]; exact hn) s
  rw [hm] at k
  rw [e]
  exact k

/-- An instruction that runs a register function over the gang completes. -/
theorem completes_local {i : Instr} {c : Ctl} {ok : Thread → Prop} {R : Thread → Thread → Prop}
    (f : Thread → Except Trap Thread) (h : Thread → Thread)
    (he : ∀ s, exec i s = .next (s.runLocal c f)) (hf : ∀ t, ok t → f t = .ok (h t))
    (hR : ∀ t, ok t → R t (h t)) : Completes i c ok R := by
  intro s gang hi hok
  have k := runLocal_spec (c := c) (f := f) (h := h) hi (fun id hid t ht hg => hf t (hok id hid t ht hg))
  refine ⟨_, he s, ?_, ?_, k.2⟩
  · intro id hid t ht
    refine ⟨localStep c h t, by rw [k.1 id, if_pos hid, ht]; rfl, ?_⟩
    by_cases hg : t.guard c = true
    · simp only [hg, if_true, localStep]; exact hR t (hok id hid t ht hg)
    · simp [hg, localStep, Thread.advance]
  · intro id hid
    rw [k.1 id, if_neg hid]

/-! ## One thread -/

/-- Over one thread whose guard is true, what its part gives is what the instruction gives. -/
theorem runGang_alone {s s' : State} {id : ThreadId} {t : Thread} {c : Ctl} {act : Act}
    (h : Alone s id t c) (ha : act s id t = .ok s') : s.runGang c act = s' := by
  obtain ⟨⟨⟨g, hg, hgg⟩, -⟩, ht, hgd⟩ := h
  simp [State.runGang, hg, hgg, stepThread, ht, hgd, ha, State.deliverAll]

/-- And a trap is delivered to it, with lane 0 in the mask. -/
theorem runGang_alone_trap {s : State} {id : ThreadId} {t : Thread} {c : Ctl} {act : Act} {tr : Trap}
    (h : Alone s id t c) (ha : act s id t = .error tr) : s.runGang c act = s.deliver id tr 1 := by
  obtain ⟨⟨⟨g, hg, hgg⟩, -⟩, ht, hgd⟩ := h
  have : laneMask [(0, id, tr)] tr.cls = 1 := by
    unfold laneMask; split <;> simp
  simp [State.runGang, hg, hgg, stepThread, ht, hgd, ha, State.deliverAll, this]

theorem active_alone {s : State} {id : ThreadId} {t : Thread} {c : Ctl} (h : Alone s id t c) :
    s.active c = [(id, t)] := by
  obtain ⟨⟨⟨g, hg, hgg⟩, -⟩, ht, hgd⟩ := h
  simp [State.active, hg, hgg, ht, hgd]

theorem runUnless_alone {s s' : State} {id : ThreadId} {t : Thread} {c : Ctl} {act : Act}
    {held : State → ThreadId → Thread → Bool} (h : Alone s id t c) (hh : held s id t = false)
    (ha : act s id t = .ok s') : s.runUnless c held act = s' := by
  simp [State.runUnless, active_alone h, hh, runGang_alone h ha]

/-- A word held for its one thread loses the turn (R118). -/
theorem runUnless_held {s : State} {id : ThreadId} {t : Thread} {c : Ctl} {act : Act}
    {held : State → ThreadId → Thread → Bool} (h : Alone s id t c) (hh : held s id t = true) :
    s.runUnless c held act = s.loseTurn := by
  simp [State.runUnless, active_alone h, hh]

/-- Threads that issue one after another: one thread that does not wait. -/
theorem runEach_alone {s s' : State} {id : ThreadId} {t : Thread} {c : Ctl} {act : EachAct}
    (h : Alone s id t c) (ha : act s id t = .ok (some s')) : s.runEach c act = s' := by
  obtain ⟨⟨⟨g, hg, hgg⟩, -⟩, ht, hgd⟩ := h
  simp [State.runEach, hg, hgg, eachFrom, ht, hgd, ha, State.deliverAll]

/-- One thread that waits loses the turn. -/
theorem runEach_waits {s : State} {id : ThreadId} {t : Thread} {c : Ctl} {act : EachAct}
    (h : Alone s id t c) (ha : act s id t = .ok none) : s.runEach c act = s.loseTurn := by
  obtain ⟨⟨⟨g, hg, hgg⟩, -⟩, ht, hgd⟩ := h
  simp [State.runEach, hg, hgg, eachFrom, ht, hgd, ha, State.deliverAll]

end Sys2Proof.Machine
end

