-- ==== Sys2Proof/Laws/Regs.lean ====
section
/-! SUPPORT. Laws/Regs.lean: what reads of registers give after writes, and what an integer result
leaves. -/

namespace Sys2Proof.Machine

open Sys2Proof.Safety

/-! ## Registers -/

@[simp] theorem Thread.reg_zero (t : Thread) : t.reg .zero = ⟨0, 0⟩ := rfl

theorem Thread.reg_setReg (t : Thread) (d o : Opd) (r : VReg) (hd : ∃ n, d = .v n) :
    (t.setReg d r).reg o = if o = d then r else t.reg o := by
  obtain ⟨n, rfl⟩ := hd
  cases o with
  | v m =>
    by_cases h : m = n
    · subst h; simp [Thread.setReg, Thread.reg]
    · have : n.val ≠ m.val := fun e => h (Fin.ext e.symm)
      simp [Thread.setReg, Thread.reg, h, this]
  | _ => rfl

/-- A write to 0xFF is discarded (R9). -/
@[simp] theorem Thread.setReg_zero (t : Thread) (r : VReg) : t.setReg .zero r = t := rfl

@[simp] theorem Thread.setPair_zero (t : Thread) (w : DWord) (g : Tag) : t.setPair .zero w g = t := rfl

@[simp] theorem Opd.plus_v (n : Fin 192) (k : Nat) (h : n.val + k < 192) :
    Opd.plus (.v n) k = .v ⟨n.val + k, h⟩ := by simp [Opd.plus, h]

theorem Thread.setReg_regs_other (t : Thread) (d : Opd) (r : VReg) (n : Fin 192) (h : ∀ k : Fin 192, d = .v k → k.val ≠ n.val) :
    (t.setReg d r).regs[n] = t.regs[n] := by
  cases d with
  | v k => simp [Thread.setReg, h k rfl]
  | _ => rfl

theorem Thread.setReg_shape (t : Thread) (d : Opd) (r : VReg) :
    t.setReg d r = { t with regs := (t.setReg d r).regs } := by
  cases d <;> rfl

theorem Thread.shape_trans {t u v : Thread} (h1 : u = { t with regs := u.regs })
    (h2 : v = { u with regs := v.regs }) : v = { t with regs := v.regs } := by
  rw [h1] at h2; exact h2

theorem Thread.setPair_shape (t : Thread) (d : Opd) (w : DWord) (g : Tag) :
    t.setPair d w g = { t with regs := (t.setPair d w g).regs } :=
  Thread.shape_trans (t.setReg_shape d _) (Thread.setReg_shape _ _ _)

theorem Thread.put_shape (t : Thread) (ty : IntTy) (d : Opd) (v : Int) :
    t.put ty d v = { t with regs := (t.put ty d v).regs } := by
  cases ty <;> first | exact Thread.setPair_shape t d _ _ | exact Thread.setReg_shape t d _

theorem Thread.advance_shape {t u : Thread} (h : u = { t with regs := u.regs }) :
    u.advance = { t with regs := u.advance.regs, pc := t.pc + 1 } := by
  unfold Thread.advance
  rw [h]

theorem plus_val {d : Opd} {k j : Nat} {n : Fin 192} (h : Opd.plus d k = .v n) (hj : k < j) :
    n.val ∈ regsFrom d j := by
  cases d with
  | v m =>
    by_cases hk : m.val + k < 192
    · rw [Opd.plus_v m k hk] at h
      cases h
      simp only [regsFrom, List.mem_map, List.mem_range]
      exact ⟨k, hj, rfl⟩
    · simp [Opd.plus, hk] at h
  | _ => simp [Opd.plus] at h

theorem regsFrom_self {d : Opd} {j : Nat} {n : Fin 192} (h : d = .v n) (hj : 0 < j) :
    n.val ∈ regsFrom d j := by
  subst h
  simp only [regsFrom, List.mem_map, List.mem_range]
  exact ⟨0, hj, rfl⟩

theorem Thread.setReg_other (t : Thread) (d : Opd) (r : VReg) (n : Fin 192) {j : Nat} (hj : 0 < j)
    (h : n.val ∉ regsFrom d j) : (t.setReg d r).regs[n] = t.regs[n] :=
  t.setReg_regs_other d r n fun _ hk e => h (e ▸ regsFrom_self hk hj)

theorem Thread.setPair_other (t : Thread) (d : Opd) (w : DWord) (g : Tag) (n : Fin 192)
    (h : n.val ∉ regsFrom d 2) : (t.setPair d w g).regs[n] = t.regs[n] := by
  unfold Thread.setPair
  rw [Thread.setReg_regs_other, Thread.setReg_other _ _ _ _ (by decide) h]
  intro _ hk e
  exact h (e ▸ plus_val hk (by decide))

theorem Thread.put_other (t : Thread) (ty : IntTy) (d : Opd) (v : Int) (n : Fin 192)
    (h : n.val ∉ regsFrom d (wideN ty.wide)) : (t.put ty d v).regs[n] = t.regs[n] := by
  cases ty <;> first
    | exact Thread.setPair_other t d _ _ n h
    | exact Thread.setReg_other t d _ n (by decide) h

/-! ## Results -/

theorem writesOnly_of {t u : Thread} {ds : List Nat} (h : u = { t with regs := u.regs })
    (hr : ∀ n : Fin 192, n.val ∉ ds → u.regs[n] = t.regs[n]) : WritesOnly t u.advance ds where
  rest := Thread.advance_shape h
  regs n hn := by rw [Thread.advance_regs]; exact hr n hn

theorem writesOnly_setReg (t : Thread) (d : Opd) (r : VReg) :
    WritesOnly t (t.setReg d r).advance (regsFrom d 1) :=
  writesOnly_of (t.setReg_shape d r) fun n h => t.setReg_other d r n (by decide) h

theorem writesOnly_setPair (t : Thread) (d : Opd) (w : DWord) (g : Tag) :
    WritesOnly t (t.setPair d w g).advance (regsFrom d 2) :=
  writesOnly_of (t.setPair_shape d w g) fun n h => t.setPair_other d w g n h

theorem writesOnly_put (t : Thread) (ty : IntTy) (d : Opd) (v : Int) :
    WritesOnly t (t.put ty d v).advance (regsFrom d (wideN ty.wide)) :=
  writesOnly_of (t.put_shape ty d v) fun n h => t.put_other ty d v n h

theorem writesOnly_nothing (t : Thread) : WritesOnly t t.advance [] := ⟨rfl, fun _ _ => rfl⟩

/-- A field of a well-formed pair: its two registers exist and differ, or it is 0xFF. -/
theorem pair_cases {d : Opd} (h : d.isPair = true) :
    d = .zero ∨ ∃ n : Fin 192, ∃ h : n.val + 1 < 192, d = .v n ∧ Opd.plus d 1 = .v ⟨n.val + 1, h⟩ := by
  cases d with
  | v n =>
    have he : n.val % 2 = 0 := eq_of_beq h
    have hn : n.val + 1 < 192 := by have := n.isLt; omega
    exact .inr ⟨n, hn, rfl, Opd.plus_v n 1 hn⟩
  | zero => exact .inl rfl
  | _ => exact Bool.noConfusion h

theorem v_cases {d : Opd} (h : d.isV = true) : d = .zero ∨ ∃ n, d = .v n := by
  cases d with
  | v n => exact .inr ⟨n, rfl⟩
  | zero => exact .inl rfl
  | _ => exact Bool.noConfusion h

/-- Both halves of a written pair. -/
theorem Thread.reg_setPair (t : Thread) {d : Opd} (w : DWord) (g : Tag) (hd : d.isPair = true) (hz : d ≠ .zero) :
    (t.setPair d w g).reg d = ⟨w.setWidth 32, g⟩ ∧
      (t.setPair d w g).reg (Opd.plus d 1) = ⟨(w >>> 32).setWidth 32, g⟩ := by
  rcases pair_cases hd with rfl | ⟨n, hn, rfl, e⟩
  · exact absurd rfl hz
  · unfold Thread.setPair
    rw [e]
    have hne : (Opd.v n) ≠ .v ⟨n.val + 1, hn⟩ := by
      intro h
      have := congrArg Fin.val (Opd.v.inj h)
      simp at this
    constructor
    · rw [Thread.reg_setReg _ _ _ _ ⟨_, rfl⟩, if_neg hne, Thread.reg_setReg _ _ _ _ ⟨_, rfl⟩, if_pos rfl]
    · rw [Thread.reg_setReg _ _ _ _ ⟨_, rfl⟩, if_pos rfl]

theorem Thread.pair_setPair (t : Thread) {d : Opd} (w : DWord) (g : Tag) (hd : d.isPair = true)
    (hz : d ≠ .zero) : (t.setPair d w g).pair d = w := by
  have h := t.reg_setPair w g hd hz
  unfold Thread.pair
  rw [h.1, h.2]
  apply BitVec.eq_of_toNat_eq
  have := w.isLt
  rw [BitVec.toNat_append, ← Nat.shiftLeft_add_eq_or_of_lt (BitVec.isLt _), Nat.shiftLeft_eq]
  simp [Nat.shiftRight_eq_div_pow]
  omega

/-- The integer result that `put` writes is the one R63 states. -/
theorem holds_put (t : Thread) (ty : IntTy) (d : Opd) (v : Int) (hd : d.ofTy ty.wide = true) :
    Holds (t.put ty d v).advance ty d v := by
  by_cases hz : d = .zero
  · exact .inl hz
  refine .inr ?_
  have wide (w : DWord) (hw : w = BitVec.ofInt 64 v) (hd : d.isPair = true) :
      (t.setPair d w 0).reg d = ⟨BitVec.ofInt 32 v, 0⟩ ∧
        (t.setPair d w 0).reg (Opd.plus d 1) = ⟨BitVec.ofInt 32 (v / 2 ^ 32), 0⟩ := by
    have h := t.reg_setPair w 0 hd hz
    rw [h.1, h.2, hw]
    constructor <;> congr 1 <;> apply BitVec.eq_of_toNat_eq <;>
      simp [BitVec.toNat_ofInt, Nat.shiftRight_eq_div_pow] <;> omega
  have narrow (r : VReg) (hd : d.isV = true) : (t.setReg d r).reg d = r := by
    rcases v_cases hd with rfl | ⟨n, rfl⟩
    · exact absurd rfl hz
    · rw [Thread.reg_setReg _ _ _ _ ⟨n, rfl⟩, if_pos rfl]
  cases ty
  case n64 => exact wide _ rfl hd
  case s64 => exact wide _ rfl hd
  all_goals
    refine (narrow _ hd).trans ?_
    congr 1
    apply BitVec.eq_of_toNat_eq
    simp [wrap, IntTy.signed, IntTy.width, BitVec.toNat_ofInt, BitVec.toNat_signExtend, BitVec.msb_eq_decide,
      Int.bmod_def]
    try omega
    try (split <;> omega)

end Sys2Proof.Machine
end

