-- ==== Sys2Proof/Laws/Need.lean ====
section
/-! SUPPORT. Laws/Need.lean: the tag checks of operands (R10, R64) pass exactly for the tags they
name. -/

namespace Sys2Proof.Machine

open Sys2Proof.Safety

/-- A check passes for 0xFF and for a register, or both halves of a pair, with the tag. -/
theorem need_ok_iff (t : Thread) (wide : Bool) (o : Opd) (g : Tag) :
    t.need wide o g = .ok () ↔
      o = .zero ∨ ((t.reg o).tag = g ∧ (wide = true → (t.reg (Opd.plus o 1)).tag = g)) := by
  cases wide <;> by_cases h : o = .zero <;>
    simp [Thread.need, Thread.hasTag, Thread.pairHasTag, h]

/-- A check that fails names its operand field. -/
theorem need_error (t : Thread) (wide : Bool) (o : Opd) (g : Tag) (h : t.need wide o g ≠ .ok ()) :
    t.need wide o g = .error (.tag o) := by
  unfold Thread.need at h ⊢
  generalize (if wide = true then t.pairHasTag o g else t.hasTag o g) = b at h ⊢
  cases b
  · rfl
  · exact absurd rfl h

theorem need_untyped {t : Thread} {wide : Bool} {o : Opd} (h : Untyped t wide o) :
    t.need wide o 0 = .ok () := (need_ok_iff t wide o 0).2 h

theorem needSrc_untyped {t : Thread} {wide : Bool} {b : Src} (h : UntypedSrc t wide b) :
    t.needSrc wide b 0 = .ok () := by
  cases b with
  | reg o => exact need_untyped h
  | imm _ => rfl

/-- IADD's shape: the checks, then the result at the type. -/
theorem intArith_ok {x : IntOp} {f : Int → Int → Int} {t : Thread}
    (h : Untyped t x.ty.wide x.a ∧ UntypedSrc t x.ty.wide x.b) :
    intArith x f t = .ok (t.put x.ty x.d (f (t.srcOpd x.ty x.a) (t.src x.ty x.b))).advance := by
  simp only [intArith, need_untyped h.1, needSrc_untyped h.2]; rfl

theorem intArith3_ok {x : IntOp3} {f : Int → Int → Int → Int} {t : Thread}
    (h : Untyped t x.ty.wide x.a ∧ UntypedSrc t x.ty.wide x.b ∧ Untyped t x.ty.wide x.c) :
    intArith3 x f t = .ok (t.put x.ty x.d
      (f (t.srcOpd x.ty x.a) (t.src x.ty x.b) (t.srcOpd x.ty x.c))).advance := by
  simp only [intArith3, need_untyped h.1, needSrc_untyped h.2.1, need_untyped h.2.2]; rfl

/-- Results that agree modulo the width are the same result. -/
theorem holds_congr {t : Thread} {ty : IntTy} {d : Opd} {v w : Int}
    (h : v % (2 ^ IntTy.width ty : Nat) = w % (2 ^ IntTy.width ty : Nat)) (hv : Holds t ty d v) :
    Holds t ty d w := by
  rcases hv with hz | hv
  · exact .inl hz
  refine .inr ?_
  have hb : wrap ty v = wrap ty w := by
    unfold wrap
    split
    · rw [Int.bmod_def, Int.bmod_def, h]
    · exact h
  cases ty
  case n64 =>
    simp only [IntTy.wide, if_true] at hv ⊢
    rw [hv.1, hv.2]
    constructor <;> congr 1 <;> apply BitVec.eq_of_toNat_eq <;> simp [BitVec.toNat_ofInt] <;>
      simp [IntTy.width] at h <;> omega
  case s64 =>
    simp only [IntTy.wide, if_true] at hv ⊢
    rw [hv.1, hv.2]
    constructor <;> congr 1 <;> apply BitVec.eq_of_toNat_eq <;> simp [BitVec.toNat_ofInt] <;>
      simp [IntTy.width] at h <;> omega
  all_goals (simp only [IntTy.wide] at hv ⊢; rw [hb] at hv; exact hv)

/-- What `put` writes is a result of R63 that changes nothing else. -/
theorem givesInt_put {t : Thread} {ty : IntTy} {d : Opd} (v : Int) (hd : d.ofTy ty.wide = true) :
    GivesInt t (t.put ty d v).advance ty d v :=
  ⟨holds_put t ty d v hd, writesOnly_put t ty d v⟩

theorem givesWord_set {t : Thread} {d : Opd} (w : Word) (hd : d.isV = true) :
    GivesWord t (t.setReg d ⟨w, 0⟩).advance d w := by
  refine ⟨?_, writesOnly_setReg t d _⟩
  rcases v_cases hd with rfl | ⟨n, rfl⟩
  · exact .inl rfl
  · exact .inr ((Thread.reg_setReg t (.v n) (.v n) ⟨w, 0⟩ ⟨n, rfl⟩).trans (if_pos rfl))

theorem givesPair_set {t : Thread} {d : Opd} (w : DWord) (hd : d.isPair = true) :
    GivesPair t (t.setPair d w 0).advance d w := by
  refine ⟨?_, writesOnly_setPair t d w 0⟩
  by_cases hz : d = .zero
  · exact .inl hz
  · exact .inr (t.reg_setPair w 0 hd hz)

end Sys2Proof.Machine
end

