-- ==== Sys2Proof/Laws/Integer.lean ====
section
/-! SUPPORT. Laws/Integer.lean: operands as numbers and as bits (R63): the two readings agree. -/

namespace Sys2Proof.Machine

open Sys2Proof.Safety

theorem intTy_width_pos (ty : IntTy) : 0 < IntTy.width ty := by cases ty <;> decide

theorem toNat_ofInt_lowBits (w : Nat) (v : Int) : (BitVec.ofInt w v).toNat = lowBits w v := by
  simp [lowBits, BitVec.toNat_ofInt]

theorem signedOf_emod (w n : Nat) : signedOf w n % (2 ^ w : Nat) = ((n % 2 ^ w : Nat) : Int) := by
  unfold signedOf
  dsimp only
  have hlt : n % 2 ^ w < 2 ^ w := Nat.mod_lt _ (Nat.two_pow_pos w)
  split
  · rw [Int.sub_emod_right, Int.emod_eq_of_lt] <;> omega
  · rw [Int.emod_eq_of_lt] <;> omega

theorem rawOpd_lt (t : Thread) (ty : IntTy) (o : Opd) : t.rawOpd (IntTy.width ty) o < 2 ^ IntTy.width ty := by
  unfold Thread.rawOpd
  split
  · next h =>
    have e : IntTy.width ty = 64 := by simpa using h
    rw [e]
    exact (t.pair o).isLt
  · exact Nat.mod_lt _ (Nat.two_pow_pos _)

/-- The bits of an operand field are its raw value. -/
theorem fieldBits_toNat (t : Thread) (ty : IntTy) (o : Opd) :
    (fieldBits t ty o).toNat = t.rawOpd (IntTy.width ty) o := by
  have hl := rawOpd_lt t ty o
  rw [fieldBits, toNat_ofInt_lowBits, lowBits, Thread.srcOpd]
  split
  · rw [signedOf_emod, Nat.mod_eq_of_lt hl]; rfl
  · rw [Int.emod_eq_of_lt] <;> omega

/-- The bits of operand b are its raw value. -/
theorem srcBits_toNat (t : Thread) (ty : IntTy) (b : Src) : (srcBits t ty b).toNat = t.rawSrc ty b :=
  toNat_ofInt_lowBits _ _

theorem toInt_emod {w : Nat} (b : BitVec w) : b.toInt % (2 ^ w : Nat) = (b.toNat : Int) := by
  rw [BitVec.toInt_eq_toNat_bmod, Int.bmod_emod, Int.emod_eq_of_lt]
  · omega
  · have := b.isLt
    exact_mod_cast this

/-- The signed reading of bits is their two's-complement value. -/
theorem signedOf_toNat {w : Nat} (b : BitVec w) : signedOf w b.toNat = b.toInt := by
  have h := b.isLt
  unfold signedOf
  dsimp only
  rw [Nat.mod_eq_of_lt h, BitVec.toInt_eq_toNat_cond]
  split <;> split <;> omega

/-- A result may be replaced by any that is equal modulo the type's range. -/
theorem givesInt_congr {t t' : Thread} {ty : IntTy} {d : Opd} {v w : Int}
    (h : v % (2 ^ IntTy.width ty : Nat) = w % (2 ^ IntTy.width ty : Nat)) (hv : GivesInt t t' ty d v) :
    GivesInt t t' ty d w := ⟨holds_congr h hv.1, hv.2⟩

theorem wfArith_dest {x : IntOp} (h : x.wfArith = true) : x.d.ofTy x.ty.wide = true := by
  simp [IntOp.wfArith] at h
  exact h.1.1

theorem wfShift_dest {x : IntOp} (h : x.wfShift = true) : x.d.ofTy x.ty.wide = true := by
  simp [IntOp.wfShift] at h
  exact h.1.1

theorem wfSame_dest {x : IntUn} (h : x.wfSame = true) : x.d.ofTy x.ty.wide = true := by
  simp [IntUn.wfSame] at h
  exact h.1

/-- An instruction whose meaning is an integer function of its two sources completes with its result. -/
theorem completes_intArith {i : Instr} {x : IntOp} (hx : x.wfArith = true) {f : Int → Int → Int}
    (he : ∀ s, exec i s = .next (s.runLocal x.ctl (intArith x f))) :
    Completes i x.ctl (fun t => Untyped t x.ty.wide x.a ∧ UntypedSrc t x.ty.wide x.b)
      (fun t t' => GivesInt t t' x.ty x.d (f (t.srcOpd x.ty x.a) (t.src x.ty x.b))) :=
  completes_local _ (fun t => (t.put x.ty x.d (f (t.srcOpd x.ty x.a) (t.src x.ty x.b))).advance) he
    (fun _ h => intArith_ok h) (fun _ _ => givesInt_put _ (wfArith_dest hx))

end Sys2Proof.Machine
end

