-- ==== Sys2Proof/Laws/PerInstr.lean ====
section
/-! SUPPORT. Laws/PerInstr.lean: what holds of every instruction as syntax, one lemma per constructor:
the word of a well-formed instruction decodes to it. -/

namespace Sys2Proof.Laws.Decodes

/-- The word of the instruction decodes to it; a step that is no instruction word has none. -/
def Statement (i : Instr) : Prop := ∀ w, encode i = some w → i.wf = true → decode w = .ok i

theorem iadd (x : IntOp) : Statement (.iadd x) :=
  decode_of_parse rfl (parseRaw_shape (g := 0x0) (f := 0x00) (withSrc_group _ _) (withSrc_fn _ _) (fun _ _ _ _ _ _ _ _ => rfl) (shapes_read.intOp x _ _))
theorem isub (x : IntOp) : Statement (.isub x) :=
  decode_of_parse rfl (parseRaw_shape (g := 0x0) (f := 0x01) (withSrc_group _ _) (withSrc_fn _ _) (fun _ _ _ _ _ _ _ _ => rfl) (shapes_read.intOp x _ _))
theorem imin (x : IntOp) : Statement (.imin x) :=
  decode_of_parse rfl (parseRaw_shape (g := 0x0) (f := 0x02) (withSrc_group _ _) (withSrc_fn _ _) (fun _ _ _ _ _ _ _ _ => rfl) (shapes_read.intOp x _ _))
theorem imax (x : IntOp) : Statement (.imax x) :=
  decode_of_parse rfl (parseRaw_shape (g := 0x0) (f := 0x03) (withSrc_group _ _) (withSrc_fn _ _) (fun _ _ _ _ _ _ _ _ => rfl) (shapes_read.intOp x _ _))
theorem iabs (x : IntUn) : Statement (.iabs x) :=
  decode_of_parse rfl (parseRaw_shape (g := 0x0) (f := 0x04) rfl rfl (fun _ _ _ _ _ _ _ _ => rfl) (shapes_read.intUn x _ _))
theorem and (x : IntOp) : Statement (.and x) :=
  decode_of_parse rfl (parseRaw_shape (g := 0x0) (f := 0x05) (withSrc_group _ _) (withSrc_fn _ _) (fun _ _ _ _ _ _ _ _ => rfl) (shapes_read.intOp x _ _))
theorem or (x : IntOp) : Statement (.or x) :=
  decode_of_parse rfl (parseRaw_shape (g := 0x0) (f := 0x06) (withSrc_group _ _) (withSrc_fn _ _) (fun _ _ _ _ _ _ _ _ => rfl) (shapes_read.intOp x _ _))
theorem xor (x : IntOp) : Statement (.xor x) :=
  decode_of_parse rfl (parseRaw_shape (g := 0x0) (f := 0x07) (withSrc_group _ _) (withSrc_fn _ _) (fun _ _ _ _ _ _ _ _ => rfl) (shapes_read.intOp x _ _))
theorem not (x : IntUn) : Statement (.not x) :=
  decode_of_parse rfl (parseRaw_shape (g := 0x0) (f := 0x08) rfl rfl (fun _ _ _ _ _ _ _ _ => rfl) (shapes_read.intUn x _ _))
theorem andn (x : IntOp) : Statement (.andn x) :=
  decode_of_parse rfl (parseRaw_shape (g := 0x0) (f := 0x09) (withSrc_group _ _) (withSrc_fn _ _) (fun _ _ _ _ _ _ _ _ => rfl) (shapes_read.intOp x _ _))
theorem shl (x : IntOp) : Statement (.shl x) :=
  decode_of_parse rfl (parseRaw_shape (g := 0x0) (f := 0x0a) (withSrc_group _ _) (withSrc_fn _ _) (fun _ _ _ _ _ _ _ _ => rfl) (shapes_read.intOp x _ _))
theorem shr (x : IntOp) : Statement (.shr x) :=
  decode_of_parse rfl (parseRaw_shape (g := 0x0) (f := 0x0b) (withSrc_group _ _) (withSrc_fn _ _) (fun _ _ _ _ _ _ _ _ => rfl) (shapes_read.intOp x _ _))
theorem sar (x : IntOp) : Statement (.sar x) :=
  decode_of_parse rfl (parseRaw_shape (g := 0x0) (f := 0x0c) (withSrc_group _ _) (withSrc_fn _ _) (fun _ _ _ _ _ _ _ _ => rfl) (shapes_read.intOp x _ _))
theorem rol (x : IntOp) : Statement (.rol x) :=
  decode_of_parse rfl (parseRaw_shape (g := 0x0) (f := 0x0d) (withSrc_group _ _) (withSrc_fn _ _) (fun _ _ _ _ _ _ _ _ => rfl) (shapes_read.intOp x _ _))
theorem bfx (x : IntOp) : Statement (.bfx x) :=
  decode_of_parse rfl (parseRaw_shape (g := 0x0) (f := 0x0e) (withSrc_group _ _) (withSrc_fn _ _) (fun _ _ _ _ _ _ _ _ => rfl) (shapes_read.intOp x _ _))
theorem bfi (x : IntOp3) : Statement (.bfi x) :=
  decode_of_parse rfl (parseRaw_shape (g := 0x0) (f := 0x0f) (withSrc_group _ _) (withSrc_fn _ _) (fun _ _ _ _ _ _ _ _ => rfl) (shapes_read.intOp3 x _ _))
theorem prmt (x : IntOp3) : Statement (.prmt x) :=
  decode_of_parse rfl (parseRaw_shape (g := 0x0) (f := 0x10) (withSrc_group _ _) (withSrc_fn _ _) (fun _ _ _ _ _ _ _ _ => rfl) (shapes_read.intOp3 x _ _))
theorem mov (x : IntUn) : Statement (.mov x) :=
  decode_of_parse rfl (parseRaw_shape (g := 0x0) (f := 0x11) rfl rfl (fun _ _ _ _ _ _ _ _ => rfl) (shapes_read.intUn x _ _))
theorem movi (x : MovI) : Statement (.movi x) :=
  decode_of_parse rfl (parseRaw_shape (g := 0x0) (f := 0x12) rfl rfl (fun _ _ _ _ _ _ _ _ => rfl) (shapes_read.movI x _ _))
theorem movhi (x : MovH) : Statement (.movhi x) :=
  decode_of_parse rfl (parseRaw_shape (g := 0x0) (f := 0x13) rfl rfl (fun _ _ _ _ _ _ _ _ => rfl) (shapes_read.movH x _ _))
theorem addpchi (x : MovH) : Statement (.addpchi x) :=
  decode_of_parse rfl (parseRaw_shape (g := 0x0) (f := 0x14) rfl rfl (fun _ _ _ _ _ _ _ _ => rfl) (shapes_read.movH x _ _))
theorem lea (x : LeaOp) : Statement (.lea x) :=
  decode_of_parse rfl (parseRaw_shape (g := 0x0) (f := 0x15) rfl rfl (fun _ _ _ _ _ _ _ _ => rfl) (shapes_read.leaOp x _ _))
theorem imul (x : IntOp) : Statement (.imul x) :=
  decode_of_parse rfl (parseRaw_shape (g := 0x1) (f := 0x00) (withSrc_group _ _) (withSrc_fn _ _) (fun _ _ _ _ _ _ _ _ => rfl) (shapes_read.intOp x _ _))
theorem imulh (x : IntOp) : Statement (.imulh x) :=
  decode_of_parse rfl (parseRaw_shape (g := 0x1) (f := 0x01) (withSrc_group _ _) (withSrc_fn _ _) (fun _ _ _ _ _ _ _ _ => rfl) (shapes_read.intOp x _ _))
theorem imad (x : IntOp3) : Statement (.imad x) :=
  decode_of_parse rfl (parseRaw_shape (g := 0x1) (f := 0x02) (withSrc_group _ _) (withSrc_fn _ _) (fun _ _ _ _ _ _ _ _ => rfl) (shapes_read.intOp3 x _ _))
theorem imadw (x : IntOp3) : Statement (.imadw x) :=
  decode_of_parse rfl (parseRaw_shape (g := 0x1) (f := 0x03) (withSrc_group _ _) (withSrc_fn _ _) (fun _ _ _ _ _ _ _ _ => rfl) (shapes_read.intOp3 x _ _))
theorem idiv (x : IntOp) : Statement (.idiv x) :=
  decode_of_parse rfl (parseRaw_shape (g := 0x1) (f := 0x04) (withSrc_group _ _) (withSrc_fn _ _) (fun _ _ _ _ _ _ _ _ => rfl) (shapes_read.intOp x _ _))
theorem irem (x : IntOp) : Statement (.irem x) :=
  decode_of_parse rfl (parseRaw_shape (g := 0x1) (f := 0x05) (withSrc_group _ _) (withSrc_fn _ _) (fun _ _ _ _ _ _ _ _ => rfl) (shapes_read.intOp x _ _))
theorem dividerComplete (th : ThreadId) (op : Nat) : Statement (.dividerComplete th op) := by intro w h; cases h
theorem popc (x : IntUn) : Statement (.popc x) :=
  decode_of_parse rfl (parseRaw_shape (g := 0x1) (f := 0x06) rfl rfl (fun _ _ _ _ _ _ _ _ => rfl) (shapes_read.intUn x _ _))
theorem clz (x : IntUn) : Statement (.clz x) :=
  decode_of_parse rfl (parseRaw_shape (g := 0x1) (f := 0x07) rfl rfl (fun _ _ _ _ _ _ _ _ => rfl) (shapes_read.intUn x _ _))
theorem ctz (x : IntUn) : Statement (.ctz x) :=
  decode_of_parse rfl (parseRaw_shape (g := 0x1) (f := 0x08) rfl rfl (fun _ _ _ _ _ _ _ _ => rfl) (shapes_read.intUn x _ _))
theorem brev (x : IntUn) : Statement (.brev x) :=
  decode_of_parse rfl (parseRaw_shape (g := 0x1) (f := 0x09) rfl rfl (fun _ _ _ _ _ _ _ _ => rfl) (shapes_read.intUn x _ _))
theorem icmp (x : IcmpOp) : Statement (.icmp x) :=
  decode_of_parse rfl (parseRaw_shape (g := 0x2) (f := 0x00) (withSrc_group _ _) (withSrc_fn _ _) (fun _ _ _ _ _ _ _ _ => rfl) (shapes_read.icmpOp x _ _))
theorem sel (x : SelOp) : Statement (.sel x) :=
  decode_of_parse rfl (parseRaw_shape (g := 0x2) (f := 0x01) (withSrc_group _ _) (withSrc_fn _ _) (fun _ _ _ _ _ _ _ _ => rfl) (shapes_read.selOp x _ _))
theorem plop (x : PlopOp) : Statement (.plop x) :=
  decode_of_parse rfl (parseRaw_shape (g := 0x2) (f := 0x02) rfl rfl (fun _ _ _ _ _ _ _ _ => rfl) (shapes_read.plopOp x _ _))
theorem pmov (x : PmovOp) : Statement (.pmov x) :=
  decode_of_parse rfl (parseRaw_shape (g := 0x2) (f := 0x03) (PmovOp.raw_group _ _ _) (PmovOp.raw_fn _ _ _) (fun _ _ _ _ _ _ _ _ => rfl) (PmovOp.parse_raw x _ _))
theorem pset (x : PsetOp) : Statement (.pset x) :=
  decode_of_parse rfl (parseRaw_shape (g := 0x2) (f := 0x04) rfl rfl (fun _ _ _ _ _ _ _ _ => rfl) (shapes_read.psetOp x _ _))
theorem bra (x : BrOp) : Statement (.bra x) :=
  decode_of_parse rfl (parseRaw_shape (g := 0x3) (f := 0x00) rfl rfl (fun _ _ _ _ _ _ _ _ => rfl) (shapes_read.brOp x _ _))
theorem brx (x : AOp) : Statement (.brx x) :=
  decode_of_parse rfl (parseRaw_shape (g := 0x3) (f := 0x01) rfl rfl (fun _ _ _ _ _ _ _ _ => rfl) (shapes_read.aOp x _ _))
theorem call (x : BrOp) : Statement (.call x) :=
  decode_of_parse rfl (parseRaw_shape (g := 0x3) (f := 0x02) rfl rfl (fun _ _ _ _ _ _ _ _ => rfl) (shapes_read.brOp x _ _))
theorem callx (x : AOp) : Statement (.callx x) :=
  decode_of_parse rfl (parseRaw_shape (g := 0x3) (f := 0x03) rfl rfl (fun _ _ _ _ _ _ _ _ => rfl) (shapes_read.aOp x _ _))
theorem ret (x : NoOp) : Statement (.ret x) :=
  decode_of_parse rfl (parseRaw_shape (g := 0x3) (f := 0x04) rfl rfl (fun _ _ _ _ _ _ _ _ => rfl) (shapes_read.noOp x _ _))
theorem exit (x : NoOp) : Statement (.exit x) :=
  decode_of_parse rfl (parseRaw_shape (g := 0x3) (f := 0x05) rfl rfl (fun _ _ _ _ _ _ _ _ => rfl) (shapes_read.noOp x _ _))
theorem nop (x : NoOp) : Statement (.nop x) :=
  decode_of_parse rfl (parseRaw_shape (g := 0x3) (f := 0x06) rfl rfl (fun _ _ _ _ _ _ _ _ => rfl) (shapes_read.noOp x _ _))
theorem ld (x : LoadOp) : Statement (.ld x) :=
  decode_of_parse rfl (parseRaw_shape (g := 0x4) (f := 0x00) rfl rfl (fun _ _ _ _ _ _ _ _ => rfl) (shapes_read.loadOp x _ _))
theorem st (x : StoreOp) : Statement (.st x) :=
  decode_of_parse rfl (parseRaw_shape (g := 0x4) (f := 0x01) rfl rfl (fun _ _ _ _ _ _ _ _ => rfl) (shapes_read.storeOp x _ _))
theorem lds (x : LoadOp) : Statement (.lds x) :=
  decode_of_parse rfl (parseRaw_shape (g := 0x4) (f := 0x02) rfl rfl (fun _ _ _ _ _ _ _ _ => rfl) (shapes_read.loadOp x _ _))
theorem sts (x : StoreOp) : Statement (.sts x) :=
  decode_of_parse rfl (parseRaw_shape (g := 0x4) (f := 0x03) rfl rfl (fun _ _ _ _ _ _ _ _ => rfl) (shapes_read.storeOp x _ _))
theorem ldc (x : LoadOp) : Statement (.ldc x) :=
  decode_of_parse rfl (parseRaw_shape (g := 0x4) (f := 0x04) rfl rfl (fun _ _ _ _ _ _ _ _ => rfl) (shapes_read.loadOp x _ _))
theorem ldp (x : LoadOp) : Statement (.ldp x) :=
  decode_of_parse rfl (parseRaw_shape (g := 0x4) (f := 0x05) rfl rfl (fun _ _ _ _ _ _ _ _ => rfl) (shapes_read.loadOp x _ _))
theorem stp (x : StoreOp) : Statement (.stp x) :=
  decode_of_parse rfl (parseRaw_shape (g := 0x4) (f := 0x06) rfl rfl (fun _ _ _ _ _ _ _ _ => rfl) (shapes_read.storeOp x _ _))
theorem pref (x : PrefOp) : Statement (.pref x) :=
  decode_of_parse rfl (parseRaw_shape (g := 0x4) (f := 0x07) rfl rfl (fun _ _ _ _ _ _ _ _ => rfl) (shapes_read.prefOp x _ _))
theorem loadReturn (th : ThreadId) (op : Nat) : Statement (.loadReturn th op) := by intro w h; cases h
theorem acq (x : NoOp) : Statement (.acq x) :=
  decode_of_parse rfl (parseRaw_shape (g := 0x5) (f := 0x00) rfl rfl (fun _ _ _ _ _ _ _ _ => rfl) (shapes_read.noOp x _ _))
theorem rel (x : NoOp) : Statement (.rel x) :=
  decode_of_parse rfl (parseRaw_shape (g := 0x5) (f := 0x01) rfl rfl (fun _ _ _ _ _ _ _ _ => rfl) (shapes_read.noOp x _ _))
theorem fence (x : FenceOp) : Statement (.fence x) :=
  decode_of_parse rfl (parseRaw_shape (g := 0x5) (f := 0x02) rfl rfl (fun _ _ _ _ _ _ _ _ => rfl) (shapes_read.fenceOp x _ _))
theorem commitRegister (co : CourseId) (commit : Nat) : Statement (.commitRegister co commit) := by intro w h; cases h
theorem atom (x : AtomOp) : Statement (.atom x) :=
  decode_of_parse rfl (parseRaw_shape (g := 0x5) (f := 0x03) rfl rfl (fun _ _ _ _ _ _ _ _ => rfl) (shapes_read.atomOp x _ _))
theorem cas (x : CasOp) : Statement (.cas x) :=
  decode_of_parse rfl (parseRaw_shape (g := 0x5) (f := 0x04) rfl rfl (fun _ _ _ _ _ _ _ _ => rfl) (shapes_read.casOp x _ _))
theorem atomicReturn (th : ThreadId) (op : Nat) : Statement (.atomicReturn th op) := by intro w h; cases h
theorem atomd (x : AtomOp) : Statement (.atomd x) :=
  decode_of_parse rfl (parseRaw_shape (g := 0x5) (f := 0x05) rfl rfl (fun _ _ _ _ _ _ _ _ => rfl) (shapes_read.atomOp x _ _))
theorem dflush (x : NoOp) : Statement (.dflush x) :=
  decode_of_parse rfl (parseRaw_shape (g := 0x5) (f := 0x06) rfl rfl (fun _ _ _ _ _ _ _ _ => rfl) (shapes_read.noOp x _ _))
theorem atomdDrain (co : CourseId) : Statement (.atomdDrain co) := by intro w h; cases h
theorem fadd (x : FOp) : Statement (.fadd x) :=
  decode_of_parse rfl (parseRaw_shape (g := 0x6) (f := 0x00) (withSrc_group _ _) (withSrc_fn _ _) (fun _ _ _ _ _ _ _ _ => rfl) (shapes_read.fOp x _ _))
theorem fsub (x : FOp) : Statement (.fsub x) :=
  decode_of_parse rfl (parseRaw_shape (g := 0x6) (f := 0x01) (withSrc_group _ _) (withSrc_fn _ _) (fun _ _ _ _ _ _ _ _ => rfl) (shapes_read.fOp x _ _))
theorem fmul (x : FOp) : Statement (.fmul x) :=
  decode_of_parse rfl (parseRaw_shape (g := 0x6) (f := 0x02) (withSrc_group _ _) (withSrc_fn _ _) (fun _ _ _ _ _ _ _ _ => rfl) (shapes_read.fOp x _ _))
theorem ffma (x : FOp3) : Statement (.ffma x) :=
  decode_of_parse rfl (parseRaw_shape (g := 0x6) (f := 0x03) (withSrc_group _ _) (withSrc_fn _ _) (fun _ _ _ _ _ _ _ _ => rfl) (shapes_read.fOp3 x _ _))
theorem fmin (x : FOp) : Statement (.fmin x) :=
  decode_of_parse rfl (parseRaw_shape (g := 0x6) (f := 0x04) (withSrc_group _ _) (withSrc_fn _ _) (fun _ _ _ _ _ _ _ _ => rfl) (shapes_read.fOp x _ _))
theorem fmax (x : FOp) : Statement (.fmax x) :=
  decode_of_parse rfl (parseRaw_shape (g := 0x6) (f := 0x05) (withSrc_group _ _) (withSrc_fn _ _) (fun _ _ _ _ _ _ _ _ => rfl) (shapes_read.fOp x _ _))
theorem fcmp (x : FcmpOp) : Statement (.fcmp x) :=
  decode_of_parse rfl (parseRaw_shape (g := 0x6) (f := 0x06) (withSrc_group _ _) (withSrc_fn _ _) (fun _ _ _ _ _ _ _ _ => rfl) (shapes_read.fcmpOp x _ _))
theorem fclass (x : FUn) : Statement (.fclass x) :=
  decode_of_parse rfl (parseRaw_shape (g := 0x6) (f := 0x07) rfl rfl (fun _ _ _ _ _ _ _ _ => rfl) (shapes_read.fUn x _ _))
theorem fdiv (x : FOp) : Statement (.fdiv x) :=
  decode_of_parse rfl (parseRaw_shape (g := 0x6) (f := 0x08) (withSrc_group _ _) (withSrc_fn _ _) (fun _ _ _ _ _ _ _ _ => rfl) (shapes_read.fOp x _ _))
theorem fsqrt (x : FUn) : Statement (.fsqrt x) :=
  decode_of_parse rfl (parseRaw_shape (g := 0x6) (f := 0x09) rfl rfl (fun _ _ _ _ _ _ _ _ => rfl) (shapes_read.fUn x _ _))
theorem fdot4 (x : DOp3) : Statement (.fdot4 x) :=
  decode_of_parse rfl (parseRaw_shape (g := 0x6) (f := 0x0a) rfl rfl (fun _ _ _ _ _ _ _ _ => rfl) (DotOp.parse_raw x _ _))
theorem dadd (x : DOp) : Statement (.dadd x) :=
  decode_of_parse rfl (parseRaw_shape (g := 0x7) (f := 0x00) rfl rfl (fun _ _ _ _ _ _ _ _ => rfl) (shapes_read.dOp x _ _))
theorem dsub (x : DOp) : Statement (.dsub x) :=
  decode_of_parse rfl (parseRaw_shape (g := 0x7) (f := 0x01) rfl rfl (fun _ _ _ _ _ _ _ _ => rfl) (shapes_read.dOp x _ _))
theorem dmul (x : DOp) : Statement (.dmul x) :=
  decode_of_parse rfl (parseRaw_shape (g := 0x7) (f := 0x02) rfl rfl (fun _ _ _ _ _ _ _ _ => rfl) (shapes_read.dOp x _ _))
theorem dfma (x : DOp3) : Statement (.dfma x) :=
  decode_of_parse rfl (parseRaw_shape (g := 0x7) (f := 0x03) rfl rfl (fun _ _ _ _ _ _ _ _ => rfl) (shapes_read.dfmaOp x _ _))
theorem dmin (x : DOp) : Statement (.dmin x) :=
  decode_of_parse rfl (parseRaw_shape (g := 0x7) (f := 0x04) rfl rfl (fun _ _ _ _ _ _ _ _ => rfl) (shapes_read.dOp x _ _))
theorem dmax (x : DOp) : Statement (.dmax x) :=
  decode_of_parse rfl (parseRaw_shape (g := 0x7) (f := 0x05) rfl rfl (fun _ _ _ _ _ _ _ _ => rfl) (shapes_read.dOp x _ _))
theorem dcmp (x : DcmpOp) : Statement (.dcmp x) :=
  decode_of_parse rfl (parseRaw_shape (g := 0x7) (f := 0x06) rfl rfl (fun _ _ _ _ _ _ _ _ => rfl) (shapes_read.dcmpOp x _ _))
theorem ddiv (x : DOp) : Statement (.ddiv x) :=
  decode_of_parse rfl (parseRaw_shape (g := 0x7) (f := 0x07) rfl rfl (fun _ _ _ _ _ _ _ _ => rfl) (shapes_read.dOp x _ _))
theorem dsqrt (x : FUn) : Statement (.dsqrt x) :=
  decode_of_parse rfl (parseRaw_shape (g := 0x7) (f := 0x08) rfl rfl (fun _ _ _ _ _ _ _ _ => rfl) (shapes_read.fUn x _ _))
theorem dclass (x : FUn) : Statement (.dclass x) :=
  decode_of_parse rfl (parseRaw_shape (g := 0x7) (f := 0x09) rfl rfl (fun _ _ _ _ _ _ _ _ => rfl) (shapes_read.fUn x _ _))
theorem cvt (x : CvtOp) : Statement (.cvt x) :=
  decode_of_parse rfl (parseRaw_shape (g := 0x8) (f := 0x00) rfl rfl (fun _ _ _ _ _ _ _ _ => rfl) (shapes_read.cvtOp x _ _))
theorem cvts (x : CvtOp) : Statement (.cvts x) :=
  decode_of_parse rfl (parseRaw_shape (g := 0x8) (f := 0x01) rfl rfl (fun _ _ _ _ _ _ _ _ => rfl) (shapes_read.cvtOp x _ _))
theorem cvti (x : CvtiOp) : Statement (.cvti x) :=
  decode_of_parse rfl (parseRaw_shape (g := 0x8) (f := 0x02) rfl rfl (fun _ _ _ _ _ _ _ _ => rfl) (shapes_read.cvtiOp x _ _))
theorem tagset (x : TagsetOp) : Statement (.tagset x) :=
  decode_of_parse rfl (parseRaw_shape (g := 0x8) (f := 0x03) rfl rfl (fun _ _ _ _ _ _ _ _ => rfl) (shapes_read.tagsetOp x _ _))
theorem tagget (x : DaOp) : Statement (.tagget x) :=
  decode_of_parse rfl (parseRaw_shape (g := 0x8) (f := 0x04) rfl rfl (fun _ _ _ _ _ _ _ _ => rfl) (shapes_read.daOp x _ _))
theorem fexp2 (x : FUn) : Statement (.fexp2 x) :=
  decode_of_parse rfl (parseRaw_shape (g := 0x8) (f := 0x05) rfl rfl (fun _ _ _ _ _ _ _ _ => rfl) (shapes_read.fUn x _ _))
theorem flog2 (x : FUn) : Statement (.flog2 x) :=
  decode_of_parse rfl (parseRaw_shape (g := 0x8) (f := 0x06) rfl rfl (fun _ _ _ _ _ _ _ _ => rfl) (shapes_read.fUn x _ _))
theorem frcp (x : FUn) : Statement (.frcp x) :=
  decode_of_parse rfl (parseRaw_shape (g := 0x8) (f := 0x07) rfl rfl (fun _ _ _ _ _ _ _ _ => rfl) (shapes_read.fUn x _ _))
theorem frsq (x : FUn) : Statement (.frsq x) :=
  decode_of_parse rfl (parseRaw_shape (g := 0x8) (f := 0x08) rfl rfl (fun _ _ _ _ _ _ _ _ => rfl) (shapes_read.fUn x _ _))
theorem fsin (x : FUn) : Statement (.fsin x) :=
  decode_of_parse rfl (parseRaw_shape (g := 0x8) (f := 0x09) rfl rfl (fun _ _ _ _ _ _ _ _ => rfl) (shapes_read.fUn x _ _))
theorem fcos (x : FUn) : Statement (.fcos x) :=
  decode_of_parse rfl (parseRaw_shape (g := 0x8) (f := 0x0a) rfl rfl (fun _ _ _ _ _ _ _ _ => rfl) (shapes_read.fUn x _ _))
theorem ftanh (x : FUn) : Statement (.ftanh x) :=
  decode_of_parse rfl (parseRaw_shape (g := 0x8) (f := 0x0b) rfl rfl (fun _ _ _ _ _ _ _ _ => rfl) (shapes_read.fUn x _ _))
theorem fsigm (x : FUn) : Statement (.fsigm x) :=
  decode_of_parse rfl (parseRaw_shape (g := 0x8) (f := 0x0c) rfl rfl (fun _ _ _ _ _ _ _ _ => rfl) (shapes_read.fUn x _ _))
theorem fgelu (x : FUn) : Statement (.fgelu x) :=
  decode_of_parse rfl (parseRaw_shape (g := 0x8) (f := 0x0d) rfl rfl (fun _ _ _ _ _ _ _ _ => rfl) (shapes_read.fUn x _ _))
theorem rmsn (x : RowOp) : Statement (.rmsn x) :=
  decode_of_parse rfl (parseRaw_shape (g := 0x8) (f := 0x0e) rfl rfl (fun _ _ _ _ _ _ _ _ => rfl) (shapes_read.rowOp x _ _))
theorem smax (x : RowOp) : Statement (.smax x) :=
  decode_of_parse rfl (parseRaw_shape (g := 0x8) (f := 0x0f) rfl rfl (fun _ _ _ _ _ _ _ _ => rfl) (shapes_read.rowOp x _ _))
theorem rowsum (x : RowOp) : Statement (.rowsum x) :=
  decode_of_parse rfl (parseRaw_shape (g := 0x8) (f := 0x10) rfl rfl (fun _ _ _ _ _ _ _ _ => rfl) (shapes_read.rowOp x _ _))
theorem rowscale (x : RowscaleOp) : Statement (.rowscale x) :=
  decode_of_parse rfl (parseRaw_shape (g := 0x8) (f := 0x11) rfl rfl (fun _ _ _ _ _ _ _ _ => rfl) (shapes_read.rowscaleOp x _ _))
theorem rowOpWriteCycle (core : Nat) : Statement (.rowOpWriteCycle core) := by intro w h; cases h
theorem join (x : JoinOp) : Statement (.join x) :=
  decode_of_parse rfl (parseRaw_shape (g := 0x9) (f := 0x00) (withSrc_group _ _) (withSrc_fn _ _) (fun _ _ _ _ _ _ _ _ => rfl) (shapes_read.joinOp x _ _))
theorem leave (x : BOp) : Statement (.leave x) :=
  decode_of_parse rfl (parseRaw_shape (g := 0x9) (f := 0x01) (withSrc_group _ _) (withSrc_fn _ _) (fun _ _ _ _ _ _ _ _ => rfl) (shapes_read.bOp x _ _))
theorem crew (x : DbOp) : Statement (.crew x) :=
  decode_of_parse rfl (parseRaw_shape (g := 0x9) (f := 0x02) (withSrc_group _ _) (withSrc_fn _ _) (fun _ _ _ _ _ _ _ _ => rfl) (shapes_read.dbOp x _ _))
theorem shfl (x : ShflOp) : Statement (.shfl x) :=
  decode_of_parse rfl (parseRaw_shape (g := 0x9) (f := 0x03) (withSrc_group _ _) (withSrc_fn _ _) (fun _ _ _ _ _ _ _ _ => rfl) (shapes_read.shflOp x _ _))
theorem vote (x : VoteOp) : Statement (.vote x) :=
  decode_of_parse rfl (parseRaw_shape (g := 0x9) (f := 0x04) rfl rfl (fun _ _ _ _ _ _ _ _ => rfl) (VoteOp.parse_raw x _ _))
theorem cred (x : CredOp) : Statement (.cred x) :=
  decode_of_parse rfl (parseRaw_shape (g := 0x9) (f := 0x05) rfl rfl (fun _ _ _ _ _ _ _ _ => rfl) (shapes_read.credOp x _ _))
theorem cscan (x : CscanOp) : Statement (.cscan x) :=
  decode_of_parse rfl (parseRaw_shape (g := 0x9) (f := 0x06) rfl rfl (fun _ _ _ _ _ _ _ _ => rfl) (shapes_read.cscanOp x _ _))
theorem crewGather (co : CourseId) (crew : Fin 64) : Statement (.crewGather co crew) := by intro w h; cases h
theorem binit (x : BinitOp) : Statement (.binit x) :=
  decode_of_parse rfl (parseRaw_shape (g := 0x9) (f := 0x07) (withSrc_group _ _) (withSrc_fn _ _) (fun _ _ _ _ _ _ _ _ => rfl) (shapes_read.binitOp x _ _))
theorem barv (x : BarvOp) : Statement (.barv x) :=
  decode_of_parse rfl (parseRaw_shape (g := 0x9) (f := 0x08) rfl rfl (fun _ _ _ _ _ _ _ _ => rfl) (shapes_read.barvOp x _ _))
theorem bwait (x : BwaitOp) : Statement (.bwait x) :=
  decode_of_parse rfl (parseRaw_shape (g := 0x9) (f := 0x09) rfl rfl (fun _ _ _ _ _ _ _ _ => rfl) (shapes_read.bwaitOp x _ _))
theorem bsync (x : BsyncOp) : Statement (.bsync x) :=
  decode_of_parse rfl (parseRaw_shape (g := 0x9) (f := 0x0a) rfl rfl (fun _ _ _ _ _ _ _ _ => rfl) (shapes_read.bsyncOp x _ _))
theorem cpy (x : CopyOp) : Statement (.cpy x) :=
  decode_of_parse rfl (parseRaw_shape (g := 0xa) (f := 0x00) rfl rfl (fun _ _ _ _ _ _ _ _ => rfl) (shapes_read.copyOp x _ _))
theorem cpyx (x : CopyxOp) : Statement (.cpyx x) :=
  decode_of_parse rfl (parseRaw_shape (g := 0xa) (f := 0x01) rfl rfl (fun _ _ _ _ _ _ _ _ => rfl) (shapes_read.copyxOp x _ _))
theorem cpyo (x : CopyOp) : Statement (.cpyo x) :=
  decode_of_parse rfl (parseRaw_shape (g := 0xa) (f := 0x02) rfl rfl (fun _ _ _ _ _ _ _ _ => rfl) (shapes_read.copyOp x _ _))
theorem publ (x : PublOp) : Statement (.publ x) :=
  decode_of_parse rfl (parseRaw_shape (g := 0xa) (f := 0x03) rfl rfl (fun _ _ _ _ _ _ _ _ => rfl) (shapes_read.publOp x _ _))
theorem publFlip (co : CourseId) (op : Nat) : Statement (.publFlip co op) := by intro w h; cases h
theorem cpq (x : CpqOp) : Statement (.cpq x) :=
  decode_of_parse rfl (parseRaw_shape (g := 0xa) (f := 0x04) rfl rfl (fun _ _ _ _ _ _ _ _ => rfl) (shapes_read.cpqOp x _ _))
theorem copyRetire (co : CourseId) (op : Nat) : Statement (.copyRetire co op) := by intro w h; cases h
theorem wait (x : WaitOp) : Statement (.wait x) :=
  decode_of_parse rfl (parseRaw_shape (g := 0xa) (f := 0x05) rfl rfl (fun _ _ _ _ _ _ _ _ => rfl) (shapes_read.waitOp x _ _))
theorem mclm (x : MclmOp) : Statement (.mclm x) :=
  decode_of_parse rfl (parseRaw_shape (g := 0xb) (f := 0x00) (withSrc_group _ _) (withSrc_fn _ _) (fun _ _ _ _ _ _ _ _ => rfl) (shapes_read.mclmOp x _ _))
theorem mrel (x : MrelOp) : Statement (.mrel x) :=
  decode_of_parse rfl (parseRaw_shape (g := 0xb) (f := 0x01) (withSrc_group _ _) (withSrc_fn _ _) (fun _ _ _ _ _ _ _ _ => rfl) (shapes_read.mrelOp x _ _))
theorem mlds (x : MldsOp) : Statement (.mlds x) :=
  decode_of_parse rfl (parseRaw_shape (g := 0xb) (f := 0x02) rfl rfl (fun _ _ _ _ _ _ _ _ => rfl) (shapes_read.mldsOp x _ _))
theorem mldsComplete (cluster : Nat) (op : Nat) : Statement (.mldsComplete cluster op) := by intro w h; cases h
theorem mpost (x : MpostOp) : Statement (.mpost x) :=
  decode_of_parse rfl (parseRaw_shape (g := 0xb) (f := 0x03) rfl rfl (fun _ _ _ _ _ _ _ _ => rfl) (shapes_read.mpostOp x _ _))
theorem macc (x : MaccOp) : Statement (.macc x) :=
  decode_of_parse rfl (parseRaw_shape (g := 0xb) (f := 0x04) rfl rfl (fun _ _ _ _ _ _ _ _ => rfl) (shapes_read.maccOp x _ _))
theorem mzero (x : BOp) : Statement (.mzero x) :=
  decode_of_parse rfl (parseRaw_shape (g := 0xb) (f := 0x05) (withSrc_group _ _) (withSrc_fn _ _) (fun _ _ _ _ _ _ _ _ => rfl) (shapes_read.bOp x _ _))
theorem engineGrant (cluster : Nat) : Statement (.engineGrant cluster) := by intro w h; cases h
theorem engineEntryWriteCycle (cluster : Nat) (op : Nat) : Statement (.engineEntryWriteCycle cluster op) := by intro w h; cases h
theorem trace (x : TraceOp) : Statement (.trace x) :=
  decode_of_parse rfl (parseRaw_shape (g := 0xc) (f := 0x00) rfl rfl (fun _ _ _ _ _ _ _ _ => rfl) (shapes_read.traceOp x _ _))
theorem tracec (x : TracecOp) : Statement (.tracec x) :=
  decode_of_parse rfl (parseRaw_shape (g := 0xc) (f := 0x01) rfl rfl (fun _ _ _ _ _ _ _ _ => rfl) (shapes_read.tracecOp x _ _))
theorem replay (x : ReplayOp) : Statement (.replay x) :=
  decode_of_parse rfl (parseRaw_shape (g := 0xc) (f := 0x02) rfl rfl (fun _ _ _ _ _ _ _ _ => rfl) (shapes_read.replayOp x _ _))
theorem hitq (x : HitqOp) : Statement (.hitq x) :=
  decode_of_parse rfl (parseRaw_shape (g := 0xc) (f := 0x03) rfl rfl (fun _ _ _ _ _ _ _ _ => rfl) (shapes_read.hitqOp x _ _))
theorem asph (x : DirectOp) : Statement (.asph x) :=
  decode_of_parse rfl (parseRaw_shape (g := 0xc) (f := 0x04) rfl rfl (fun _ _ _ _ _ _ _ _ => rfl) (shapes_read.directOp x _ _))
theorem trix (x : DirectOp) : Statement (.trix x) :=
  decode_of_parse rfl (parseRaw_shape (g := 0xc) (f := 0x05) rfl rfl (fun _ _ _ _ _ _ _ _ => rfl) (shapes_read.directOp x _ _))
theorem boxx (x : DirectOp) : Statement (.boxx x) :=
  decode_of_parse rfl (parseRaw_shape (g := 0xc) (f := 0x06) rfl rfl (fun _ _ _ _ _ _ _ _ => rfl) (shapes_read.directOp x _ _))
theorem traversalComplete (th : ThreadId) (op : Nat) : Statement (.traversalComplete th op) := by intro w h; cases h
theorem kclr (x : KclrOp) : Statement (.kclr x) :=
  decode_of_parse rfl (parseRaw_shape (g := 0xd) (f := 0x00) rfl rfl (fun _ _ _ _ _ _ _ _ => rfl) (shapes_read.kclrOp x _ _))
theorem klobe (x : KlobeOp) : Statement (.klobe x) :=
  decode_of_parse rfl (parseRaw_shape (g := 0xd) (f := 0x01) rfl rfl (fun _ _ _ _ _ _ _ _ => rfl) (shapes_read.klobeOp x _ _))
theorem knet (x : KabOp) : Statement (.knet x) :=
  decode_of_parse rfl (parseRaw_shape (g := 0xd) (f := 0x02) rfl rfl (fun _ _ _ _ _ _ _ _ => rfl) (shapes_read.kabOp x _ _))
theorem kadd (x : KabOp) : Statement (.kadd x) :=
  decode_of_parse rfl (parseRaw_shape (g := 0xd) (f := 0x03) rfl rfl (fun _ _ _ _ _ _ _ _ => rfl) (shapes_read.kabOp x _ _))
theorem kmix (x : KabcOp) : Statement (.kmix x) :=
  decode_of_parse rfl (parseRaw_shape (g := 0xd) (f := 0x04) rfl rfl (fun _ _ _ _ _ _ _ _ => rfl) (shapes_read.kabcOp x _ _))
theorem kcoat (x : KabcOp) : Statement (.kcoat x) :=
  decode_of_parse rfl (parseRaw_shape (g := 0xd) (f := 0x05) rfl rfl (fun _ _ _ _ _ _ _ _ => rfl) (shapes_read.kabcOp x _ _))
theorem kscl (x : DaOp) : Statement (.kscl x) :=
  decode_of_parse rfl (parseRaw_shape (g := 0xd) (f := 0x06) rfl rfl (fun _ _ _ _ _ _ _ _ => rfl) (shapes_read.daOp x _ _))
theorem ksample (x : KevalOp) : Statement (.ksample x) :=
  decode_of_parse rfl (parseRaw_shape (g := 0xd) (f := 0x07) rfl rfl (fun _ _ _ _ _ _ _ _ => rfl) (shapes_read.kevalOp x _ _))
theorem keval (x : KevalOp) : Statement (.keval x) :=
  decode_of_parse rfl (parseRaw_shape (g := 0xd) (f := 0x08) rfl rfl (fun _ _ _ _ _ _ _ _ => rfl) (shapes_read.kevalOp x _ _))
theorem kpdf (x : KevalOp) : Statement (.kpdf x) :=
  decode_of_parse rfl (parseRaw_shape (g := 0xd) (f := 0x09) rfl rfl (fun _ _ _ _ _ _ _ _ => rfl) (shapes_read.kevalOp x _ _))
theorem closureOpComplete (th : ThreadId) (op : Nat) : Statement (.closureOpComplete th op) := by intro w h; cases h
theorem kspill (x : KspillOp) : Statement (.kspill x) :=
  decode_of_parse rfl (parseRaw_shape (g := 0xd) (f := 0x0a) rfl rfl (fun _ _ _ _ _ _ _ _ => rfl) (shapes_read.kspillOp x _ _))
theorem kfill (x : KfillOp) : Statement (.kfill x) :=
  decode_of_parse rfl (parseRaw_shape (g := 0xd) (f := 0x0b) rfl rfl (fun _ _ _ _ _ _ _ _ => rfl) (shapes_read.kfillOp x _ _))
theorem kinfo (x : KinfoOp) : Statement (.kinfo x) :=
  decode_of_parse rfl (parseRaw_shape (g := 0xd) (f := 0x0c) rfl rfl (fun _ _ _ _ _ _ _ _ => rfl) (shapes_read.kinfoOp x _ _))
theorem yieldb (x : YieldbOp) : Statement (.yieldb x) :=
  decode_of_parse rfl (parseRaw_shape (g := 0xe) (f := 0x00) (withSrc_group _ _) (withSrc_fn _ _) (fun _ _ _ _ _ _ _ _ => rfl) (shapes_read.yieldbOp x _ _))
theorem resume (x : DbOp) : Statement (.resume x) :=
  decode_of_parse rfl (parseRaw_shape (g := 0xe) (f := 0x01) (withSrc_group _ _) (withSrc_fn _ _) (fun _ _ _ _ _ _ _ _ => rfl) (shapes_read.dbOp x _ _))
theorem binAutoResume (co : CourseId) : Statement (.binAutoResume co) := by intro w h; cases h
theorem wake (x : WakeOp) : Statement (.wake x) :=
  decode_of_parse rfl (parseRaw_shape (g := 0xe) (f := 0x02) rfl rfl (fun _ _ _ _ _ _ _ _ => rfl) (shapes_read.wakeOp x _ _))
theorem binq (x : BinqOp) : Statement (.binq x) :=
  decode_of_parse rfl (parseRaw_shape (g := 0xe) (f := 0x03) rfl rfl (fun _ _ _ _ _ _ _ _ => rfl) (shapes_read.binqOp x _ _))
theorem tsort (x : TsortOp) : Statement (.tsort x) :=
  decode_of_parse rfl (parseRaw_shape (g := 0xe) (f := 0x04) rfl rfl (fun _ _ _ _ _ _ _ _ => rfl) (shapes_read.tsortOp x _ _))
theorem tcomp (x : AOp) : Statement (.tcomp x) :=
  decode_of_parse rfl (parseRaw_shape (g := 0xe) (f := 0x05) rfl rfl (fun _ _ _ _ _ _ _ _ => rfl) (shapes_read.tcompOp x _ _))
theorem binSortComplete (co : CourseId) (op : Nat) : Statement (.binSortComplete co op) := by intro w h; cases h
theorem monitor (x : LineOp) : Statement (.monitor x) :=
  decode_of_parse rfl (parseRaw_shape (g := 0xe) (f := 0x06) rfl rfl (fun _ _ _ _ _ _ _ _ => rfl) (shapes_read.lineOp x _ _))
theorem mwait (x : DbOp) : Statement (.mwait x) :=
  decode_of_parse rfl (parseRaw_shape (g := 0xe) (f := 0x07) (withSrc_group _ _) (withSrc_fn _ _) (fun _ _ _ _ _ _ _ _ => rfl) (shapes_read.dbOp x _ _))
theorem mwaitWake (th : ThreadId) : Statement (.mwaitWake th) := by intro w h; cases h
theorem mwaitTimeout (th : ThreadId) : Statement (.mwaitTimeout th) := by intro w h; cases h
theorem hold (x : HoldOp) : Statement (.hold x) :=
  decode_of_parse rfl (parseRaw_shape (g := 0xe) (f := 0x08) rfl rfl (fun _ _ _ _ _ _ _ _ => rfl) (shapes_read.holdOp x _ _))
theorem unhold (x : LineOp) : Statement (.unhold x) :=
  decode_of_parse rfl (parseRaw_shape (g := 0xe) (f := 0x09) rfl rfl (fun _ _ _ _ _ _ _ _ => rfl) (shapes_read.lineOp x _ _))
theorem wreg (x : AOp) : Statement (.wreg x) :=
  decode_of_parse rfl (parseRaw_shape (g := 0xe) (f := 0x0a) rfl rfl (fun _ _ _ _ _ _ _ _ => rfl) (shapes_read.aOp x _ _))
theorem wdrop (x : NoOp) : Statement (.wdrop x) :=
  decode_of_parse rfl (parseRaw_shape (g := 0xe) (f := 0x0b) rfl rfl (fun _ _ _ _ _ _ _ _ => rfl) (shapes_read.noOp x _ _))
theorem purlinEntryExpiry (die : Nat) : Statement (.purlinEntryExpiry die) := by intro w h; cases h
theorem sysc (x : SyscOp) : Statement (.sysc x) :=
  decode_of_parse rfl (parseRaw_shape (g := 0xf) (f := 0x00) rfl rfl (fun _ _ _ _ _ _ _ _ => rfl) (shapes_read.syscOp x _ _))
theorem tfence (x : NoOp) : Statement (.tfence x) :=
  decode_of_parse rfl (parseRaw_shape (g := 0xf) (f := 0x01) rfl rfl (fun _ _ _ _ _ _ _ _ => rfl) (shapes_read.noOp x _ _))
theorem tret (x : TretOp) : Statement (.tret x) :=
  decode_of_parse rfl (parseRaw_shape (g := 0xf) (f := 0x02) rfl rfl (fun _ _ _ _ _ _ _ _ => rfl) (TretOp.parse_raw x _ _))
theorem trap (x : CodeOp) : Statement (.trap x) :=
  decode_of_parse rfl (parseRaw_shape (g := 0xf) (f := 0x03) rfl rfl (fun _ _ _ _ _ _ _ _ => rfl) (shapes_read.codeOp x _ _))
theorem sread (x : SreadOp) : Statement (.sread x) :=
  decode_of_parse rfl (parseRaw_shape (g := 0xf) (f := 0x04) rfl rfl (fun _ _ _ _ _ _ _ _ => rfl) (shapes_read.sreadOp x _ _))
theorem swrite (x : SwriteOp) : Statement (.swrite x) :=
  decode_of_parse rfl (parseRaw_shape (g := 0xf) (f := 0x05) rfl rfl (fun _ _ _ _ _ _ _ _ => rfl) (shapes_read.swriteOp x _ _))
theorem launch (x : DOp) : Statement (.launch x) :=
  decode_of_parse rfl (parseRaw_shape (g := 0xf) (f := 0x06) rfl rfl (fun _ _ _ _ _ _ _ _ => rfl) (shapes_read.dOp x _ _))
theorem nopre (x : NopreOp) : Statement (.nopre x) :=
  decode_of_parse rfl (parseRaw_shape (g := 0xf) (f := 0x07) rfl rfl (fun _ _ _ _ _ _ _ _ => rfl) (shapes_read.nopreOp x _ _))
theorem nopreExpiry (th : ThreadId) : Statement (.nopreExpiry th) := by intro w h; cases h
theorem bkpt (x : CodeOp) : Statement (.bkpt x) :=
  decode_of_parse rfl (parseRaw_shape (g := 0xf) (f := 0x08) rfl rfl (fun _ _ _ _ _ _ _ _ => rfl) (shapes_read.codeOp x _ _))
theorem slotTurn (core : Nat) : Statement (.slotTurn core) := by intro w h; cases h
theorem threadOverdue (th : ThreadId) : Statement (.threadOverdue th) := by intro w h; cases h
theorem pullTimeout (part page : Nat) : Statement (.pullTimeout part page) := by intro w h; cases h
theorem queueEnable (part q : Nat) : Statement (.queueEnable part q) := by intro w h; cases h
theorem queueDisable (part q : Nat) : Statement (.queueDisable part q) := by intro w h; cases h
theorem queueClearRefusal (part q : Nat) : Statement (.queueClearRefusal part q) := by intro w h; cases h
theorem queueCtlBadOp (part q : Nat) : Statement (.queueCtlBadOp part q) := by intro w h; cases h
theorem doorbellWrite (part q : Nat) (w : DWord) : Statement (.doorbellWrite part q w) := by intro w h; cases h
theorem queueSlotAssign (part : Nat) : Statement (.queueSlotAssign part) := by intro w h; cases h
theorem queueAgeOverdue (part q : Nat) : Statement (.queueAgeOverdue part q) := by intro w h; cases h
theorem packetHeadCheck (part q : Nat) : Statement (.packetHeadCheck part q) := by intro w h; cases h
theorem packetBegin (part q : Nat) : Statement (.packetBegin part q) := by intro w h; cases h
theorem dependencePoll (part q : Nat) : Statement (.dependencePoll part q) := by intro w h; cases h
theorem courseDispatch (part : Nat) : Statement (.courseDispatch part) := by intro w h; cases h
theorem resplitTimerExpiry (part launch : Nat) : Statement (.resplitTimerExpiry part launch) := by intro w h; cases h
theorem coreResplit (core : Nat) : Statement (.coreResplit core) := by intro w h; cases h
theorem resplitTimeWrite (part : Nat) (w : DWord) : Statement (.resplitTimeWrite part w) := by intro w h; cases h
theorem courseRetire (co : CourseId) : Statement (.courseRetire co) := by intro w h; cases h
theorem launchEnd (launch : Nat) : Statement (.launchEnd launch) := by intro w h; cases h
theorem faultQueueAnswer (part : Nat) (head : DWord) : Statement (.faultQueueAnswer part head) := by intro w h; cases h
theorem tlbInvalPage (part ctx : Nat) (va : DWord) : Statement (.tlbInvalPage part ctx va) := by intro w h; cases h
theorem tlbInvalContext (part ctx : Nat) : Statement (.tlbInvalContext part ctx) := by intro w h; cases h
theorem tlbInvalPartition (part : Nat) : Statement (.tlbInvalPartition part) := by intro w h; cases h
theorem syscAnswer (part : Nat) (head : DWord) : Statement (.syscAnswer part head) := by intro w h; cases h
theorem softRequest (ctx : Nat) : Statement (.softRequest ctx) := by intro w h; cases h
theorem hardHalt (ctx : Nat) : Statement (.hardHalt ctx) := by intro w h; cases h
theorem contextReset (ctx : Nat) : Statement (.contextReset ctx) := by intro w h; cases h
theorem preemptGraceExpiry (ctx : Nat) : Statement (.preemptGraceExpiry ctx) := by intro w h; cases h
theorem preemptKillExpiry (ctx : Nat) : Statement (.preemptKillExpiry ctx) := by intro w h; cases h
theorem haltComplete (ctx : Nat) : Statement (.haltComplete ctx) := by intro w h; cases h
theorem contextRestore (ctx : Nat) : Statement (.contextRestore ctx) := by intro w h; cases h
theorem preemptTimeWrite (part : Nat) (w : DWord) : Statement (.preemptTimeWrite part w) := by intro w h; cases h
theorem debugStep (ctx : Nat) (on : Bool) : Statement (.debugStep ctx on) := by intro w h; cases h
theorem debugBreak (ctx : Nat) (on : Bool) : Statement (.debugBreak ctx on) := by intro w h; cases h
theorem debugContinue (ctx : Nat) : Statement (.debugContinue ctx) := by intro w h; cases h
theorem ctxS1RootWrite (part : Nat) (w : DWord) : Statement (.ctxS1RootWrite part w) := by intro w h; cases h
theorem ctxCeilWrite (part : Nat) (w : DWord) : Statement (.ctxCeilWrite part w) := by intro w h; cases h
theorem rollbackReq (part : Nat) (w : DWord) : Statement (.rollbackReq part w) := by intro w h; cases h
theorem infieldTestStart (cluster : Nat) : Statement (.infieldTestStart cluster) := by intro w h; cases h
theorem infieldMoveDeferExpiry (cluster : Nat) : Statement (.infieldMoveDeferExpiry cluster) := by intro w h; cases h
theorem infieldTestComplete (cluster : Nat) (failing : List Nat) (sharedPass : Bool) : Statement (.infieldTestComplete cluster failing sharedPass) := by intro w h; cases h
theorem hvFaultQueueAnswer (head : DWord) : Statement (.hvFaultQueueAnswer head) := by intro w h; cases h
theorem hvTlbInvalPage (ctx : Nat) (ia : DWord) : Statement (.hvTlbInvalPage ctx ia) := by intro w h; cases h
theorem hvTlbInvalContext (ctx : Nat) : Statement (.hvTlbInvalContext ctx) := by intro w h; cases h
theorem hvTlbInvalPartition (ctx : Nat) : Statement (.hvTlbInvalPartition ctx) := by intro w h; cases h
theorem settlement (measured : Nat) : Statement (.settlement measured) := by intro w h; cases h
theorem collDoorbell (part ctx : Nat) (w : DWord) : Statement (.collDoorbell part ctx w) := by intro w h; cases h
theorem privateStorePerformed (th : ThreadId) (op : Nat) : Statement (.privateStorePerformed th op) := by intro w h; cases h
theorem createPartition : Statement (.createPartition) := by intro w h; cases h
theorem destroyPartition : Statement (.destroyPartition) := by intro w h; cases h
theorem setContext : Statement (.setContext) := by intro w h; cases h
theorem freeContext : Statement (.freeContext) := by intro w h; cases h
theorem loadKey : Statement (.loadKey) := by intro w h; cases h
theorem revokeKey : Statement (.revokeKey) := by intro w h; cases h
theorem snapshot : Statement (.snapshot) := by intro w h; cases h
theorem setTokens : Statement (.setTokens) := by intro w h; cases h
theorem migrateOut (peerAccepts : Bool) : Statement (.migrateOut peerAccepts) := by intro w h; cases h
theorem migrateIn (peerAccepts : Bool) : Statement (.migrateIn peerAccepts) := by intro w h; cases h
theorem setCollectiveGroup : Statement (.setCollectiveGroup) := by intro w h; cases h
theorem attest : Statement (.attest) := by intro w h; cases h
theorem exportTransportKey : Statement (.exportTransportKey) := by intro w h; cases h
theorem hvCmdBadOp : Statement (.hvCmdBadOp) := by intro w h; cases h
theorem hvTlbInvalPart : Statement (.hvTlbInvalPart) := by intro w h; cases h
theorem fjasRun (args : List String) : Statement (.fjasRun args) := by intro w h; cases h
theorem fjldRun (place : Option (Nat × List Nat)) (args : List String) : Statement (.fjldRun place args) := by intro w h; cases h
theorem uncorrectableRegisterRead (th : ThreadId) (reg : Fin 192) (mirrorUsable : Bool) : Statement (.uncorrectableRegisterRead th reg mirrorUsable) := by intro w h; cases h
theorem engineUncorrectableError (co : CourseId) : Statement (.engineUncorrectableError co) := by intro w h; cases h
theorem hostAccess (addr : Nat) (bytes : Nat) (write : Option (List Byte)) : Statement (.hostAccess addr bytes write) := by intro w h; cases h
theorem triaterPortOutOfService (port : Nat) : Statement (.triaterPortOutOfService port) := by intro w h; cases h
theorem collectiveReform (op : Nat) : Statement (.collectiveReform op) := by intro w h; cases h
theorem collectiveComplete (op : Nat) (others : List (List Byte)) : Statement (.collectiveComplete op others) := by intro w h; cases h
theorem registerWrite (page : WindowPage) (offset : Nat) (w : DWord) : Statement (.registerWrite page offset w) := by intro w h; cases h
theorem absentPagePull (part page : Nat) (data : List Byte) : Statement (.absentPagePull part page data) := by intro w h; cases h
theorem migrationPathFailure (part : Nat) : Statement (.migrationPathFailure part) := by intro w h; cases h
theorem coldStart : Statement (.coldStart) := by intro w h; cases h
theorem warmStart : Statement (.warmStart) := by intro w h; cases h
theorem linkRemoteAccess (device : Nat) (addr : Nat) (req : LinkRequest) : Statement (.linkRemoteAccess device addr req) := by intro w h; cases h
theorem triaterFlitReceived (port : Nat) (ok : Bool) (pause : BitVec 4) : Statement (.triaterFlitReceived port ok pause) := by intro w h; cases h
theorem migrationPullRequest (part page : Nat) : Statement (.migrationPullRequest part page) := by intro w h; cases h
theorem migrationDataReceived (part : Nat) (absent dirty : List Nat) : Statement (.migrationDataReceived part absent dirty) := by intro w h; cases h
theorem twinMismatch (core slot : Nat) : Statement (.twinMismatch core slot) := by intro w h; cases h
theorem pageWalk (core ctx : Nat) (va : DWord) : Statement (.pageWalk core ctx va) := by intro w h; cases h

end Sys2Proof.Laws.Decodes
end

