-- ==== Sys2Proof/Laws/Start.lean ====
section
/-! SUPPORT. Laws/Start.lean: addresses that pass their checks, and operations that start and land. -/

namespace Sys2Proof.Machine

open Sys2Proof.Safety

theorem Core.slot_setSlot (c : Core) {n : Nat} (x : IssueSlot) (h : n < 4) : (c.setSlot n x).slot n = x := by
  simp [Core.setSlot, Core.slot, h]

/-- Writing registers by number changes registers only. -/
theorem writeRegs_shape (ws : List (Nat × VReg)) (t : Thread) :
    t.writeRegs ws = { t with regs := (t.writeRegs ws).regs } := by
  induction ws generalizing t with
  | nil => rfl
  | cons p ws ih =>
    obtain ⟨n, r⟩ := p
    unfold Thread.writeRegs
    split
    · next h => exact Thread.shape_trans (u := { t with regs := t.regs.set n r }) rfl (ih _)
    · exact ih t

/-- No flag changes nothing and is not captured. -/
@[simp] theorem raiseFlags_zero (t : Thread) (en : BitVec 5) (pc : Word) (d : BitVec 8) :
    t.raiseFlags 0 en pc d = t := by
  unfold Thread.raiseFlags
  have : t.fflags ||| 0#5 = t.fflags := by simp
  simp [this]

/-- Nor does a late operation's. -/
@[simp] theorem raiseLate_zero (t : Thread) (en : BitVec 5) (pc : Word) (d : BitVec 8) (a : Bool) (n : Nat) :
    t.raiseLate 0 en pc d a n = t := by
  have := raiseFlags_zero t en pc d
  simpa [Thread.raiseLate] using this

/-- A late flag changes `%fflags` and the capture only. -/
theorem raiseLate_shape (t : Thread) (fl en : BitVec 5) (pc : Word) (d : BitVec 8) (a : Bool) (n : Nat) :
    let u := t.raiseLate fl en pc d a n
    u = { t with fflags := t.fflags ||| fl, armed := u.armed, trapfpc := u.trapfpc, field := u.field,
                 late := u.late } := by
  unfold Thread.raiseLate Thread.raiseFlags
  dsimp only
  repeat' split
  all_goals rfl

@[simp] theorem State.setThread_setThread (s : State) (id : ThreadId) (t u : Thread) :
    (s.setThread id t).setThread id u = s.setThread id u := by simp [State.setThread]

@[simp] theorem State.thread_delOp (s : State) (n : Nat) (id : ThreadId) :
    (s.delOp n).thread id = s.thread id := rfl

/-- An address that is untyped, aligned and in range passes (R85). -/
theorem localAddr_ok {t : Thread} {a : Opd} {off : BitVec 12} {n limit : Nat} {d : Opd}
    (hu : Untyped t false a) (hal : ((t.reg a).bits + off.signExtend 32).toNat % n = 0)
    (hr : ((t.reg a).bits + off.signExtend 32).toNat + n ≤ limit) :
    t.localAddr a off n limit d = .ok ((t.reg a).bits + off.signExtend 32).toNat := by
  change ((t.reg a).bits + sext32 off).toNat % n = 0 at hal
  change ((t.reg a).bits + sext32 off).toNat + n ≤ limit at hr
  have h1 : ¬ (((t.reg a).bits + sext32 off).toNat % n != 0) = true := by simp only [hal]; decide
  have h2 : ¬ (((t.reg a).bits + sext32 off).toNat + n > limit) := by omega
  simp only [Thread.localAddr, need_untyped hu]
  dsimp only [bind, Except.bind]
  rw [if_neg h1, if_neg h2]
  rfl

/-- A global address that is untyped and aligned passes (R85). -/
theorem globalAddr_ok {t : Thread} {a : Opd} {off : BitVec 12} {n : Nat} {d : Opd}
    (hu : Untyped t true a) (hal : (t.pair a + off.signExtend 64).toNat % n = 0) :
    t.globalAddr a off n d = .ok (t.pair a + off.signExtend 64) := by
  change (t.pair a + sext64 off).toNat % n = 0 at hal
  have h1 : ¬ ((t.pair a + sext64 off).toNat % n != 0) = true := by simp only [hal]; decide
  simp only [Thread.globalAddr, need_untyped hu]
  dsimp only [bind, Except.bind]
  rw [if_neg h1]
  rfl

theorem startLoad_only (s : State) (id : ThreadId) (t : Thread) (d : Opd) (ws : List (Nat × VReg)) :
    OnlyThreadAndOps s (s.startLoad id t d ws) := rfl

theorem startLoad_starts (s : State) (id : ThreadId) (t : Thread) (d : Opd) (ws : List (Nat × VReg)) :
    Starts s (s.startLoad id t d ws) id t .load (.load ws) :=
  ⟨by simp [State.startLoad],
    ⟨s.nextId, _, rfl, Nat.le_refl _, Nat.lt_succ_self _, rfl, rfl, rfl, rfl, rfl, rfl⟩,
    fun j hj => by simp only [State.startLoad, State.thread_setThread, hj]; rfl, rfl⟩

theorem startPrivate_only (s : State) (id : ThreadId) (t : Thread) (a : Nat) (bs : List Byte) :
    OnlyThreadAndOps s (s.startPrivate id t a bs) := rfl

theorem startPrivate_starts (s : State) (id : ThreadId) (t : Thread) (a : Nat) (bs : List Byte) :
    Starts s (s.startPrivate id t a bs) id t .store (.priv a bs) :=
  ⟨by simp [State.startPrivate],
    ⟨s.nextId, _, rfl, Nat.le_refl _, Nat.lt_succ_self _, rfl, rfl, rfl, rfl, rfl, rfl⟩,
    fun j hj => by simp only [State.startPrivate, State.thread_setThread, hj]; rfl, rfl⟩

/-- A start in a state that differs in nothing but what a start may leave. -/
theorem Starts.of_same {s s1 s2 : State} {id : ThreadId} {t : Thread} {c : CountClass} {k : OpKind}
    (h : Starts s1 s2 id t c k) (ht : s1.threads = s.threads) (ho : s1.ops = s.ops)
    (hn : s.nextId ≤ s1.nextId) (hc : s1.cycle = s.cycle) (hm : s1.mem = s.mem) :
    Starts s s2 id t c k := by
  obtain ⟨h1, ⟨n, o, e1, e2, e3, e4, e5, e6, e7⟩, h3, h4⟩ := h
  refine ⟨h1, ⟨n, o, by rw [e1, ho], by omega, e3, e4, e5, by rw [e6, hc], e7⟩, fun j hj => ?_,
    by rw [h4, hm]⟩
  rw [h3 j hj]; simp only [State.thread, ht]

/-- An operation of the load class lands in a thread that is a candidate or in a run: its registers and
flags are written and the load counter falls (R86). -/
theorem landed_ready {s : State} {n : Nat} {o : Op} {t : Thread} (ws : List (Nat × VReg)) (fl : BitVec 5)
    (f : Thread → Thread) (ht : s.thread o.th = some t)
    (hr : (f ((t.writeRegs ws).raiseLate fl (o.fctl.extractLsb' 0 5) o.pc o.field o.armed n)).await = .ready) :
    s.landed n o ws fl f = (s.delOp n).setThread o.th
      (let u := f ((t.writeRegs ws).raiseLate fl (o.fctl.extractLsb' 0 5) o.pc o.field o.armed n)
       { u with loads := u.loads - 1 }) := by
  simp [State.landed, State.land, ht, State.countDown, State.modThread, State.checkWait, Thread.setCount,
    Thread.count, State.reap, hr]

end Sys2Proof.Machine
end

