-- ==== Sys2Proof/Tests/Slice0.lean ====
section
/-! SUPPORT. Tests/Slice0.lean: ill-formed terms that the checks refuse, words written out from the
encoding tables, small steps with results from the spec, and for each statement states and operands that
meet its hypotheses. -/

set_option Elab.async false

namespace Sys2Proof.Tests

open Sys2Proof Sys2Proof.Machine Sys2Proof.Safety

/-- Guard p7, no hints. -/
def c7 : Ctl := ⟨false, 7, false, false, false⟩

/-- Guard p7 with the run-end hint. -/
def b7 : Ctl := ⟨false, 7, true, false, false⟩

/-! ## Ill-formed terms -/

/-- Register classes and pairs (R9, R63). -/
theorem test_illformed_integers : [
    Instr.iadd ⟨c7, .n32, .k 1, .v 1, .reg (.v 2)⟩, .iadd ⟨c7, .n64, .v 5, .v 2, .imm 0⟩,
    .isub ⟨c7, .s64, .v 4, .v 3, .imm 0⟩, .and ⟨c7, .n64, .v 4, .v 2, .reg (.v 7)⟩,
    .iabs ⟨c7, .n32, .v 4, .v 1⟩, .not ⟨c7, .n32, .t 1, .v 1⟩, .shl ⟨c7, .n32, .v 1, .v 1, .reg (.b 0)⟩,
    .bfi ⟨c7, .n64, .v 4, .v 2, .imm 0, .v 3⟩, .prmt ⟨c7, .s32, .v 1, .v 1, .imm 0, .v 1⟩,
    .mov ⟨c7, .s32, .v 1, .v 2⟩, .movi ⟨c7, .s32, .v 1, 0⟩, .movhi ⟨c7, .n64, .v 1, 0⟩,
    .addpchi ⟨c7, .n32, .v 3, 0⟩, .lea ⟨c7, .v 4, .v 1, 0⟩, .imad ⟨c7, .n64, .v 4, .v 2, .imm 0, .v 1⟩,
    .imadw ⟨c7, .s64, .v 4, .v 2, .imm 0, .v 2⟩, .imadw ⟨c7, .s32, .v 4, .v 2, .imm 0, .v 3⟩,
    .popc ⟨c7, .s32, .v 1, .v 1⟩, .brev ⟨c7, .s8, .v 1, .v 1⟩].all (fun i => !i.wf) = true := by decide

/-- Conditions, types, formats and policies (R55, R74, R75, R83). -/
theorem test_illformed_predicates_and_memory : [
    Instr.icmp ⟨c7, .n32, .ord, 1, .v 1, .imm 0⟩, .icmp ⟨c7, .n32, .uno, 1, .v 1, .imm 0⟩,
    .sel ⟨c7, .s32, .v 1, .v 1, .imm 0, 1⟩, .pmov ⟨c7, .toReg (.t 0)⟩, .pmov ⟨c7, .fromReg (.k 0) 1⟩,
    .brx ⟨c7, .v 3⟩, .callx ⟨c7, .t 3⟩, .ld ⟨c7, .b4, true, 0, 0, .v 1, .v 2, 0⟩,
    .ld ⟨c7, .b1, false, 0x20, 0, .v 1, .v 2, 0⟩, .ld ⟨c7, .b4, false, 0x40, 0, .v 1, .v 2, 0⟩,
    .ld ⟨c7, .b8, false, 0x40, 0, .v 1, .v 2, 0⟩, .ld ⟨c7, .b16, false, 0, 0, .v 6, .v 2, 0⟩,
    .ld ⟨c7, .b4, false, 0, 0, .v 1, .v 3, 0⟩, .lds ⟨c7, .b4, false, 0, 1, .v 1, .v 3, 0⟩,
    .ldc ⟨c7, .b4, false, 0, 1, .v 1, .v 2, 0⟩, .sts ⟨c7, .b4, 0, 1, 0, .v 1, .v 2, 0⟩,
    .stp ⟨c7, .b4, 0, 0, 1, .v 1, .v 2, 0⟩, .st ⟨c7, .b16, 0xE0, 0, 0, .v 2, .v 4, 0⟩,
    .pref ⟨c7, 3, .v 2, 0⟩].all (fun i => !i.wf) = true := by decide

/-- Atomics and arithmetic (R156, R166, R168, R277). -/
theorem test_illformed_atomics_and_floats : [
    Instr.atom ⟨c7, .f32, false, false, .and, .v 1, .v 2, .v 1, 0⟩,
    .atom ⟨c7, .n64, false, false, .add, .v 1, .v 2, .v 2, 0⟩,
    .cas ⟨c7, .f64, false, false, .v 2, .v 2, .v 2, .v 2, 0⟩,
    .atomd ⟨c7, .n32, false, false, .exch, .zero, .v 2, .v 1, 0⟩,
    .atomd ⟨c7, .n32, true, false, .add, .zero, .v 2, .v 1, 0⟩,
    .atomd ⟨c7, .n32, false, false, .add, .v 1, .v 2, .v 1, 0⟩, .fadd ⟨c7, .f32, .dyn, .t 1, .v 1, .imm 0⟩,
    .fmin ⟨c7, .f32, .rne, .v 1, .v 1, .imm 0⟩, .fdiv ⟨c7, .bf16, .dyn, .v 1, .v 1, .imm 0⟩,
    .fclass ⟨c7, .rne, .v 1, .v 1⟩, .dadd ⟨c7, .dyn, .v 1, .v 2, .v 2⟩, .dmin ⟨c7, .rne, .v 2, .v 2, .v 2⟩,
    .dcmp ⟨c7, .eq, 1, .v 1, .v 2⟩, .dclass ⟨c7, .dyn, .v 1, .v 3⟩, .fexp2 ⟨c7, .rne, .v 1, .v 1⟩,
    .cvt ⟨c7, .dyn, .v 1, .v 1, .zero, 0⟩, .cvt ⟨c7, .dyn, .v 1, .v 1, .zero, 0xD2⟩,
    .cvts ⟨c7, .dyn, .t 1, .v 1, .v 3, 0xD2⟩, .cvti ⟨c7, .dyn, true, .n32, 0x60, .v 1, .v 1⟩,
    .cvti ⟨c7, .dyn, false, .n32, 0x40, .v 1, .v 1⟩, .tagset ⟨c7, .v 1, .v 1, .zero, 0x40⟩,
    .tagset ⟨c7, .t 1, .t 2, .zero, 0x20⟩, .tagset ⟨c7, .v 1, .v 1, .v 2, 0x20⟩,
    .tagset ⟨c7, .v 1, .v 1, .zero, 0xE0⟩, .tagget ⟨c7, .v 1, .k 1⟩].all (fun i => !i.wf) = true := by decide

/-- Rows, crews, copies and the matrix engine (R127, R175, R194, R203). -/
theorem test_illformed_rows_crews_and_engines : [
    Instr.smax ⟨c7, .v 5, .t 0, .v 3, .zero⟩, .rowsum ⟨c7, .v 5, .t 0, .v 3, .v 1⟩,
    .rowscale ⟨c7, .dyn, .f32, false, .t 1, .t 0, .v 3, .v 7⟩, .rmsn ⟨c7, .t 1, .v 0, .v 3, .v 8⟩,
    .join ⟨c7, .t 1, .imm 0, 7⟩, .shfl ⟨⟨false, 1, true, false, false⟩, false, .idx, .v 1, .v 1, .imm 0, .cur⟩,
    .vote ⟨c7, .ballot (.t 0), 7, .cur⟩, .cred ⟨c7, .f32, .and, .v 1, .v 1, .cur⟩,
    .cscan ⟨c7, .n64, false, .add, .v 1, .v 2, .cur⟩, .bsync ⟨⟨true, 7, true, false, false⟩, 0⟩,
    .bwait ⟨⟨false, 1, true, false, false⟩, 0, .v 1⟩, .cpy ⟨c7, none, .v 1, .v 2, .v 3⟩,
    .cpy ⟨c7, none, .v 2, .v 2, .k 3⟩, .publ ⟨c7, none, false, .v 1, .v 2⟩, .mclm ⟨c7, false, true, .v 5, .imm 4⟩,
    .mlds ⟨c7, true, 0x20, .v 1, .t 1⟩, .mlds ⟨c7, false, 0x80, .v 1, .t 1⟩, .macc ⟨c7, false, .v 1, .v 1, .zero⟩].all (fun i => !i.wf) = true := by
  decide

/-- Traversal, closures, bins, waits and the system group (R238, R255, R291, R296, R309). -/
theorem test_illformed_units_and_system : [
    Instr.trace ⟨c7, false, true, .v 30, .v 4, .v 10, .zero⟩, .trace ⟨c7, true, false, .v 31, .v 4, .v 10, .v 6⟩,
    .tracec ⟨c7, false, false, .v 30, .zero⟩, .replay ⟨c7, false, .v 30, .v 4, .v 10, .zero⟩,
    .hitq ⟨c7, false, false, .record, .v 21, .v 4, .v 30⟩, .boxx ⟨c7, false, .v 31, .v 4, .v 10⟩,
    .asph ⟨c7, false, .zero, .v 4, .v 10⟩, .klobe ⟨c7, .diff, 1, .k 1, .v 8, .v 12⟩,
    .klobe ⟨c7, .cond, 1, .k 1, .v 8, .v 13⟩, .knet ⟨c7, 1, .k 1, .v 8, .v 3⟩, .kadd ⟨c7, 1, .k 1, .v 8, .k 3⟩,
    .kpdf ⟨c7, .t 1, .k 1, .v 8⟩, .kinfo ⟨c7, .free, .v 1, .k 1⟩, .kinfo ⟨c7, .node, .v 1, .zero⟩,
    .yieldb ⟨c7, 1, .imm 0, 33, 0⟩, .wake ⟨c7, 1, false, 0, .v 1, .v 2⟩, .wake ⟨c7, 1, true, 1, .v 1, .v 2⟩,
    .binq ⟨c7, true, .v 1, .v 2, .v 2⟩, .tsort ⟨c7, false, 32, .v 2⟩, .mwait ⟨c7, .v 1, .imm 0⟩,
    .wreg ⟨c7, .v 1⟩, .sread ⟨c7, 0x18, 0, .v 1, .zero⟩, .sread ⟨c7, 0x0B, 0, .v 1, .zero⟩,
    .sread ⟨c7, 0x00, 1, .v 1, .zero⟩, .launch ⟨c7, .rne, .v 2, .v 2, .v 1⟩].all (fun i => !i.wf) = true := by
  decide

/-! ## Words -/

/-- Words of group 0x0, each field written from the group's encoding table. -/
theorem test_decode_integers : [
    0x000040102700FF1000000000, 0x001040102700FF1000000000, 0x002040102700FF1000000000,
    0x003040102700FF1000000000, 0x0040401FF700FF5000000000, 0x0050402FF700FFA080000001,
    0x0060402FF700FFA080000001, 0x0070402FF700FFA080000001, 0x0090402FF700FFA080000001,
    0x0080401FF700FF6000000000, 0x00A040603700FF3000000000, 0x00B040603700FF3000000000,
    0x00C040603700FF3000000000, 0x00D040603700FF3000000000, 0x00E040603700FF3000000000,
    0x00F0401FF700028000000804, 0x010040102700030000000000, 0x0110406FF700FF2000000000,
    0x01204FFFF700FFB0FFFFFFFE, 0x01304FFFF700FF00000ABCDE, 0x01404FFFF700FF0000080000,
    0x0150402FF700FF0000000FFC].map (decodeTableWord 96) = [
      some (.iadd ⟨c7, .s32, .v 4, .v 1, .reg (.v 2)⟩),
      some (.isub ⟨c7, .s32, .v 4, .v 1, .reg (.v 2)⟩),
      some (.imin ⟨c7, .s32, .v 4, .v 1, .reg (.v 2)⟩),
      some (.imax ⟨c7, .s32, .v 4, .v 1, .reg (.v 2)⟩),
      some (.iabs ⟨c7, .s16, .v 4, .v 1⟩),
      some (.and ⟨c7, .n64, .v 4, .v 2, .imm 0x80000001⟩),
      some (.or ⟨c7, .n64, .v 4, .v 2, .imm 0x80000001⟩),
      some (.xor ⟨c7, .n64, .v 4, .v 2, .imm 0x80000001⟩),
      some (.andn ⟨c7, .n64, .v 4, .v 2, .imm 0x80000001⟩),
      some (.not ⟨c7, .n8, .v 4, .v 1⟩),
      some (.shl ⟨c7, .s64, .v 4, .v 6, .reg (.v 3)⟩),
      some (.shr ⟨c7, .s64, .v 4, .v 6, .reg (.v 3)⟩),
      some (.sar ⟨c7, .s64, .v 4, .v 6, .reg (.v 3)⟩),
      some (.rol ⟨c7, .s64, .v 4, .v 6, .reg (.v 3)⟩),
      some (.bfx ⟨c7, .s64, .v 4, .v 6, .reg (.v 3)⟩),
      some (.bfi ⟨c7, .n32, .v 4, .v 1, .imm 0x0804, .v 2⟩),
      some (.prmt ⟨c7, .n32, .v 4, .v 1, .reg (.v 2), .v 3⟩),
      some (.mov ⟨c7, .n64, .v 4, .v 6⟩),
      some (.movi ⟨c7, .s64, .v 4, 0xFFFFFFFE⟩),
      some (.movhi ⟨c7, .n32, .v 4, 0xABCDE⟩),
      some (.addpchi ⟨c7, .n32, .v 4, 0x80000⟩),
      some (.lea ⟨c7, .v 4, .v 2, 0xFFC⟩)] := by decide

/-- Words of group 0x1, each field written from the group's encoding table. -/
theorem test_decode_multiplies : [
    0x100040102700FF4000000000, 0x101040102700FF4000000000, 0x104040102700FF4000000000,
    0x105040102700FF4000000000, 0x102040102700030000000000, 0x1030801027000C1000000000,
    0x1060506FF700FF2000000000, 0x1070506FF700FF2000000000, 0x1080506FF700FF2000000000,
    0x1090406FF700FF6000000000].map (decodeTableWord 96) = [
      some (.imul ⟨c7, .n16, .v 4, .v 1, .reg (.v 2)⟩),
      some (.imulh ⟨c7, .n16, .v 4, .v 1, .reg (.v 2)⟩),
      some (.idiv ⟨c7, .n16, .v 4, .v 1, .reg (.v 2)⟩),
      some (.irem ⟨c7, .n16, .v 4, .v 1, .reg (.v 2)⟩),
      some (.imad ⟨c7, .n32, .v 4, .v 1, .reg (.v 2), .v 3⟩),
      some (.imadw ⟨c7, .s32, .v 8, .v 1, .reg (.v 2), .v 12⟩),
      some (.popc ⟨c7, .n64, .v 5, .v 6⟩),
      some (.clz ⟨c7, .n64, .v 5, .v 6⟩),
      some (.ctz ⟨c7, .n64, .v 5, .v 6⟩),
      some (.brev ⟨c7, .n8, .v 4, .v 6⟩)] := by decide

/-- Words of group 0x2, each field written from the group's encoding table. -/
theorem test_decode_compares : [
    0x2000102FF700FF9200000064, 0x201040102700030000000000, 0x2020102FF700038000000496,
    0x20304FFFF700000000000000, 0x203FF04FF70001000000007F, 0x204FFFFFF700FF8000000301].map (decodeTableWord 96) = [
      some (.icmp ⟨c7, .s32, .lt, 1, .v 2, .imm 100⟩),
      some (.sel ⟨c7, .n32, .v 4, .v 1, .reg (.v 2), 3⟩),
      some (.plop ⟨c7, 1, 2, 3, 4, 0x96⟩),
      some (.pmov ⟨c7, .toReg (.v 4)⟩),
      some (.pmov ⟨c7, .fromReg (.v 4) 0x7F⟩),
      some (.pset ⟨c7, 0x01, 0x03⟩)] := by decide

/-- Words of group 0x3, each field written from the group's encoding table. -/
theorem test_decode_control : [
    0x300FFFFFF200FF0000000003, 0x301FF04FF700FF0000000000, 0x302FFFFFF700FF00FFFFFFFF,
    0x303FF04FF700FF0000000000, 0x304FFFFFF700FF0000000000, 0x305FFFFFF800FF0000000000,
    0x306FFFFFF7E0FF0000000000].map (decodeTableWord 96) = [
      some (.bra ⟨⟨false, 2, false, false, false⟩, 3⟩),
      some (.brx ⟨c7, .v 4⟩),
      some (.call ⟨c7, 0xFFFFFFFF⟩),
      some (.callx ⟨c7, .v 4⟩),
      some (.ret ⟨c7⟩),
      some (.exit ⟨⟨true, 0, false, false, false⟩⟩),
      some (.nop ⟨⟨false, 7, true, true, true⟩⟩)] := by decide

/-- Words of group 0x4, each field written from the group's encoding table. -/
theorem test_decode_memory : [
    0x4000402FF700202000008008, 0x401FF0205700001000013FFE, 0x4020401FF700000800000005,
    0x403FF0A03700202000000040, 0x4040402FF700403000000000, 0x4050801FF700004000000010,
    0x406FF0104700002000000004, 0x407FF02FF700FF0000010040].map (decodeTableWord 96) = [
      some (.ld ⟨c7, .b4, false, 0x20, 1, .v 4, .v 2, 8⟩),
      some (.st ⟨c7, .b2, 0, 3, 2, .v 2, .v 5, 0xFFE⟩),
      some (.lds ⟨c7, .b1, true, 0, 0, .v 4, .v 1, 5⟩),
      some (.sts ⟨c7, .b4, 0x20, 0, 0, .v 10, .v 3, 64⟩),
      some (.ldc ⟨c7, .b8, false, 0x40, 0, .v 4, .v 2, 0⟩),
      some (.ldp ⟨c7, .b16, false, 0, 0, .v 8, .v 1, 16⟩),
      some (.stp ⟨c7, .b4, 0, 0, 0, .v 1, .v 4, 4⟩),
      some (.pref ⟨c7, 2, .v 2, 64⟩)] := by decide

/-- Words of group 0x5, each field written from the group's encoding table. -/
theorem test_decode_ordering : [
    0x500FFFFFF700FF0000000000, 0x501FFFFFF700FF0000000000, 0x502FFFFFF700FF0000000081,
    0x503040205700060800000000, 0x504040206700082400000008, 0x505FF0205700004000000000,
    0x506FFFFFF700FF0000000000].map (decodeTableWord 96) = [
      some (.acq ⟨c7⟩),
      some (.rel ⟨c7⟩),
      some (.fence ⟨c7, 0x81⟩),
      some (.atom ⟨c7, .n32, false, true, .exch, .v 4, .v 2, .v 5, 0⟩),
      some (.cas ⟨c7, .n64, true, false, .v 4, .v 2, .v 6, .v 8, 8⟩),
      some (.atomd ⟨c7, .f32, false, false, .add, .zero, .v 2, .v 5, 0⟩),
      some (.dflush ⟨c7⟩)] := by decide

/-- Words of group 0x6, each field written from the group's encoding table. -/
theorem test_decode_floats : [
    0x6000401FF700FF923F800000, 0x6010401FF700FF923F800000, 0x6020401FF700FF923F800000,
    0x603040102700030000000000, 0x604040102700FF2000000000, 0x605040102700FF2000000000,
    0x606010203700FF0200000000, 0x6070401FF700FF0000000000, 0x608040102700FF0400000000,
    0x6090401FF700FF0300000000, 0x60A060102700063000000000].map (decodeTableWord 96) = [
      some (.fadd ⟨c7, .bf16, .rtz, .v 4, .v 1, .imm 0x3F800000⟩),
      some (.fsub ⟨c7, .bf16, .rtz, .v 4, .v 1, .imm 0x3F800000⟩),
      some (.fmul ⟨c7, .bf16, .rtz, .v 4, .v 1, .imm 0x3F800000⟩),
      some (.ffma ⟨c7, .f32, .dyn, .v 4, .v 1, .reg (.v 2), .v 3⟩),
      some (.fmin ⟨c7, .f16, .dyn, .v 4, .v 1, .reg (.v 2)⟩),
      some (.fmax ⟨c7, .f16, .dyn, .v 4, .v 1, .reg (.v 2)⟩),
      some (.fcmp ⟨c7, .lt, 1, .v 2, .reg (.v 3)⟩),
      some (.fclass ⟨c7, .dyn, .v 4, .v 1⟩),
      some (.fdiv ⟨c7, .f32, .rup, .v 4, .v 1, .reg (.v 2)⟩),
      some (.fsqrt ⟨c7, .rdn, .v 4, .v 1⟩),
      some (.fdot4 ⟨c7, .dyn, .v 6, .v 1, .v 2, .v 6⟩)] := by decide

/-- Words of group 0x7, each field written from the group's encoding table. -/
theorem test_decode_doubles : [
    0x700040206700FF0500000000, 0x701040206700FF0500000000, 0x702040206700FF0500000000,
    0x707040206700FF0500000000, 0x703040206700080100000000, 0x704040206700FF0000000000,
    0x705040206700FF0000000000, 0x706010204700FF0700000000, 0x7080402FF700FF0100000000,
    0x7090502FF700FF0000000000].map (decodeTableWord 96) = [
      some (.dadd ⟨c7, .sr, .v 4, .v 2, .v 6⟩),
      some (.dsub ⟨c7, .sr, .v 4, .v 2, .v 6⟩),
      some (.dmul ⟨c7, .sr, .v 4, .v 2, .v 6⟩),
      some (.ddiv ⟨c7, .sr, .v 4, .v 2, .v 6⟩),
      some (.dfma ⟨c7, .rne, .v 4, .v 2, .v 6, .v 8⟩),
      some (.dmin ⟨c7, .dyn, .v 4, .v 2, .v 6⟩),
      some (.dmax ⟨c7, .dyn, .v 4, .v 2, .v 6⟩),
      some (.dcmp ⟨c7, .uno, 1, .v 2, .v 4⟩),
      some (.dsqrt ⟨c7, .rne, .v 4, .v 2⟩),
      some (.dclass ⟨c7, .dyn, .v 5, .v 2⟩)] := by decide

/-- Words of group 0x8, each field written from the group's encoding table. -/
theorem test_decode_conversions_and_rows : [
    0x8000804FF700B20100000000, 0x801D1D003700D20100000000, 0x8020401FF700200200000009,
    0x8030505FF700200000000000, 0x80404D1FF700FF0000000000, 0x8050504FF700FF0000000000,
    0x8060504FF700FF0000000000, 0x8070504FF700FF0000000000, 0x8080504FF700FF0000000000,
    0x8090504FF700FF0000000000, 0x80A0504FF700FF0000000000, 0x80B0504FF700FF0000000000,
    0x80C0504FF700FF0000000000, 0x80D0504FF700FF0000000000, 0x80ED2D003700080000000000,
    0x80F06D003700FF0000000000, 0x81006D003700FF0000000000, 0x811D2D003700080000000005].map (decodeTableWord 96) = [
      some (.cvt ⟨c7, .rne, .v 8, .v 4, .zero, 0xB2⟩),
      some (.cvts ⟨c7, .rne, .t 1, .t 0, .v 3, 0xD2⟩),
      some (.cvti ⟨c7, .rtz, true, .s32, 0x20, .v 4, .v 1⟩),
      some (.tagset ⟨c7, .v 5, .v 5, .zero, 0x20⟩),
      some (.tagget ⟨c7, .v 4, .t 1⟩),
      some (.fexp2 ⟨c7, .dyn, .v 5, .v 4⟩),
      some (.flog2 ⟨c7, .dyn, .v 5, .v 4⟩),
      some (.frcp ⟨c7, .dyn, .v 5, .v 4⟩),
      some (.frsq ⟨c7, .dyn, .v 5, .v 4⟩),
      some (.fsin ⟨c7, .dyn, .v 5, .v 4⟩),
      some (.fcos ⟨c7, .dyn, .v 5, .v 4⟩),
      some (.ftanh ⟨c7, .dyn, .v 5, .v 4⟩),
      some (.fsigm ⟨c7, .dyn, .v 5, .v 4⟩),
      some (.fgelu ⟨c7, .dyn, .v 5, .v 4⟩),
      some (.rmsn ⟨c7, .t 2, .t 0, .v 3, .v 8⟩),
      some (.smax ⟨c7, .v 6, .t 0, .v 3, .zero⟩),
      some (.rowsum ⟨c7, .v 6, .t 0, .v 3, .zero⟩),
      some (.rowscale ⟨c7, .dyn, .bf16, true, .t 2, .t 0, .v 3, .v 8⟩)] := by decide

/-- Words of group 0x9, each field written from the group's encoding table. -/
theorem test_decode_crews : [
    0x90004FFFF700018000000005, 0x901FFFF02700FF0000000000, 0x90204FF02700FF0000000000,
    0x9030403FF780058300000001, 0x9040307FF780400200000000, 0x9050401FF700401200000000,
    0x9060402FF700032800000000, 0x907E0FFFF700FF8000000020, 0x90804E1FF700FF0000000000,
    0x909FFEF04780FF0000000000, 0x90AFFE0FF780FF0000000000].map (decodeTableWord 96) = [
      some (.join ⟨c7, .v 4, .imm 5, 1⟩),
      some (.leave ⟨c7, .reg (.v 2)⟩),
      some (.crew ⟨c7, .v 4, .reg (.v 2)⟩),
      some (.shfl ⟨b7, false, .xor, .v 4, .v 3, .imm 1, .id 5⟩),
      some (.vote ⟨b7, .leader 3, 7, .cur⟩),
      some (.cred ⟨c7, .s32, .max, .v 4, .v 1, .cur⟩),
      some (.cscan ⟨c7, .n64, true, .add, .v 4, .v 2, .id 3⟩),
      some (.binit ⟨c7, 0, .imm 32⟩),
      some (.barv ⟨c7, .v 4, 1⟩),
      some (.bwait ⟨b7, 15, .v 4⟩),
      some (.bsync ⟨b7, 0⟩)] := by decide

/-- Words of group 0xA, each field written from the group's encoding table. -/
theorem test_decode_copies : [
    0xA00E108087000C0000000000, 0xA01FF0804700D30200000000, 0xA02E208047000C0000000000,
    0xA03FF0804700FF0100000000, 0xA0404FFFF700FF0100000000, 0xA05FFFFFF780FF0000FFFFC0].map (decodeTableWord 96) = [
      some (.cpy ⟨c7, some 1, .v 8, .v 8, .v 12⟩),
      some (.cpyx ⟨c7, none, 2, .v 8, .v 4, .t 3⟩),
      some (.cpyo ⟨c7, some 2, .v 8, .v 4, .v 12⟩),
      some (.publ ⟨c7, none, true, .v 8, .v 4⟩),
      some (.cpq ⟨c7, true, .v 4⟩),
      some (.wait ⟨b7, 0, 63, 63, 63⟩)] := by decide

/-- Words of group 0xB, each field written from the group's encoding table. -/
theorem test_decode_matrix : [
    0xB0005FFFF780FF8100000004, 0xB01FFFF05700FF0200000000, 0xB0206D2FF700D20000000000,
    0xB03E114FF700FF0000000000, 0xB04D008FF700FF0100000000, 0xB05FFFFFF700FF8000000003].map (decodeTableWord 96) = [
      some (.mclm ⟨b7, false, true, .v 5, .imm 4⟩),
      some (.mrel ⟨c7, true, .reg (.v 5)⟩),
      some (.mlds ⟨c7, false, 0xD2, .v 6, .t 2⟩),
      some (.mpost ⟨c7, some 1, .v 20⟩),
      some (.macc ⟨c7, true, .t 0, .v 8, .zero⟩),
      some (.mzero ⟨c7, .imm 3⟩)] := by decide

/-- Words of group 0xC, each field written from the group's encoding table. -/
theorem test_decode_traversal : [
    0xC001E040A700061100000000, 0xC011EFFFF700060100000000, 0xC021E040A700060000000000,
    0xC0314041E700FF0900000000, 0xC041E040A700FF1000000000, 0xC051E040A700FF1000000000,
    0xC061E040A700FF1000000000].map (decodeTableWord 96) = [
      some (.trace ⟨c7, true, true, .v 30, .v 4, .v 10, .v 6⟩),
      some (.tracec ⟨c7, false, true, .v 30, .v 6⟩),
      some (.replay ⟨c7, false, .v 30, .v 4, .v 10, .v 6⟩),
      some (.hitq ⟨c7, false, true, .nrm, .v 20, .v 4, .v 30⟩),
      some (.asph ⟨c7, true, .v 30, .v 4, .v 10⟩),
      some (.trix ⟨c7, true, .v 30, .v 4, .v 10⟩),
      some (.boxx ⟨c7, true, .v 30, .v 4, .v 10⟩)] := by decide

/-- Words of group 0xD, each field written from the group's encoding table. -/
theorem test_decode_closures : [
    0xD00FFFFFF700FF0000008001, 0xD01C1080C700FF2100000000, 0xD02C2080C700FF0200000000,
    0xD03C3C1C2700FF0700000000, 0xD04C3C1C2700050000000000, 0xD05CFC1C2700050100000000,
    0xD06C108FF700FF0000000000, 0xD0714C308700FF0000000000, 0xD0814C308700FF0000000000,
    0xD0914C308700FF0000000000, 0xD0AFFC304700FF0000000000, 0xD0BFFC3FF700FF0300000000,
    0xD0C04FFFF700FF0100000000].map (decodeTableWord 96) = [
      some (.kclr ⟨c7, 0x8001⟩),
      some (.klobe ⟨c7, .cond, 1, .k 1, .v 8, .v 12⟩),
      some (.knet ⟨c7, 2, .k 2, .v 8, .v 12⟩),
      some (.kadd ⟨c7, 7, .k 3, .k 1, .k 2⟩),
      some (.kmix ⟨c7, 0, .k 3, .k 1, .k 2, .v 5⟩),
      some (.kcoat ⟨c7, 1, .k 15, .k 1, .k 2, .v 5⟩),
      some (.kscl ⟨c7, .k 1, .v 8⟩),
      some (.ksample ⟨c7, .v 20, .k 3, .v 8⟩),
      some (.keval ⟨c7, .v 20, .k 3, .v 8⟩),
      some (.kpdf ⟨c7, .v 20, .k 3, .v 8⟩),
      some (.kspill ⟨c7, .k 3, .v 4⟩),
      some (.kfill ⟨c7, 3, .k 3⟩),
      some (.kinfo ⟨c7, .free, .v 4, .zero⟩)] := by decide

/-- Words of group 0xE, each field written from the group's encoding table. -/
theorem test_decode_bins_and_waits : [
    0xE0001FFFF700208300000002, 0xE0104FF02700FF0000000000, 0xE02010502700FF0300000000,
    0xE03FF0602700FF0100000000, 0xE04FFFF027001F0100000000, 0xE05FFFF02700FF0000000000,
    0xE06FF04FF700FF0000000010, 0xE0704FFFF780FF80000003E8, 0xE080104FF700FF0000000008,
    0xE09FF04FF700FF0000000000, 0xE0AFF04FF700FF0000000000, 0xE0BFFFFFF700FF0000000000].map (decodeTableWord 96) = [
      some (.yieldb ⟨c7, 1, .imm 2, 32, 3⟩),
      some (.resume ⟨c7, .v 4, .reg (.v 2)⟩),
      some (.wake ⟨c7, 1, false, 3, .v 5, .v 2⟩),
      some (.binq ⟨c7, true, .zero, .v 6, .v 2⟩),
      some (.tsort ⟨c7, true, 31, .v 2⟩),
      some (.tcomp ⟨c7, .v 2⟩),
      some (.monitor ⟨c7, .v 4, 0x10⟩),
      some (.mwait ⟨b7, .v 4, .imm 1000⟩),
      some (.hold ⟨c7, 1, .v 4, 8⟩),
      some (.unhold ⟨c7, .v 4, 0⟩),
      some (.wreg ⟨c7, .v 4⟩),
      some (.wdrop ⟨c7⟩)] := by decide

/-- Words of group 0xF, each field written from the group's encoding table. -/
theorem test_decode_system : [
    0xF00FFFFFF700FF0000000009, 0xF01FFFFFF700FF0000000000, 0xF02FFFFFF700FF00FFFFFFFE,
    0xF03FFFFFF700FF00000000FF, 0xF0404FFFF700FF0000000515, 0xF05FF04FF700FF000000000E,
    0xF06100803700FF0000000000, 0xF07FFFFFF700FF0000000001, 0xF08FFFFFF700FF0000000007].map (decodeTableWord 96) = [
      some (.sysc ⟨c7, 9⟩),
      some (.tfence ⟨c7⟩),
      some (.tret ⟨c7, .jump 0x3FFFFFFF⟩),
      some (.trap ⟨c7, 0xFF⟩),
      some (.sread ⟨c7, 0x15, 5, .v 4, .zero⟩),
      some (.swrite ⟨c7, 0x0E, .v 4⟩),
      some (.launch ⟨c7, .dyn, .v 16, .v 8, .v 3⟩),
      some (.nopre ⟨c7, true⟩),
      some (.bkpt ⟨c7, 7⟩)] := by decide

/-! ## States for the tests -/

def id0 : ThreadId := ⟨0, 0, 0⟩

/-- A launch, its course and its thread on core 0, the thread's gang at issue. -/
def s0 : State := State.reset.withProgram []

/-- The same with the thread in this state. -/
def on (t : Thread) : State := s0.setThread id0 t

theorem issuing (t : Thread) : Issuing (on t) [id0] := ⟨⟨⟨0, 0, [id0], false⟩, rfl, rfl⟩, by decide⟩

theorem alone (t : Thread) (h : t.guard c7 = true) : Alone (on t) id0 t c7 := ⟨issuing t, rfl, h⟩

/-- Some gang issues in which a thread acts and every acting thread meets the condition. -/
def Meets (c : Ctl) (ok : Thread → Prop) : Prop :=
  ∃ s gang, Issuing s gang ∧ (∃ id ∈ gang, ∃ t, s.thread id = some t ∧ t.guard c = true) ∧
    ∀ id ∈ gang, ∀ t, s.thread id = some t → t.guard c = true → ok t

theorem meets {c : Ctl} {ok : Thread → Prop} (t : Thread) (hg : t.guard c = true) (h : ok t) : Meets c ok := by
  refine ⟨on t, [id0], issuing t, ⟨id0, by decide, t, rfl, hg⟩, ?_⟩
  intro id hi u hu _
  have : id = id0 := by simpa using hi
  subst this
  have : some t = some u := hu
  cases this
  exact h

def t0 : Thread := Thread.fresh

/-- Registers set in a fresh thread. -/
def regs (l : List (Nat × VReg)) : Thread := t0.writeRegs l

/-! ## States and operands that meet the hypotheses of the statements -/

/-- `Untyped` by evaluation. -/
theorem untyped {t : Thread} {w : Bool} {o : Opd}
    (h : (o == .zero || ((t.reg o).tag == 0 && (!w || (t.reg (Opd.plus o 1)).tag == 0))) = true) :
    Untyped t w o := by
  simp only [Bool.or_eq_true, Bool.and_eq_true, beq_iff_eq, Bool.not_eq_true'] at h
  rcases h with h | ⟨h1, h2⟩
  · exact .inl h
  · exact .inr ⟨h1, fun hw => h2.resolve_left (by simp [hw])⟩

/-- `Tagged` by evaluation. -/
theorem tagged {t : Thread} {g : Tag} {w : Bool} {o : Opd}
    (h : (o == .zero || ((t.reg o).tag == g && (!w || (t.reg (Opd.plus o 1)).tag == g))) = true) :
    Tagged t g w o := by
  simp only [Bool.or_eq_true, Bool.and_eq_true, beq_iff_eq, Bool.not_eq_true'] at h
  rcases h with h | ⟨h1, h2⟩
  · exact .inl h
  · exact .inr ⟨h1, fun hw => h2.resolve_left (by simp [hw])⟩

/-! Results by evaluation. -/

/-- A result by evaluation. -/
theorem okOf {ε α : Type} {x : Except ε α} (h : (match x with | .ok _ => true | .error _ => false) = true) :
    ∃ a, x = .ok a := by
  cases x with
  | ok a => exact ⟨a, rfl⟩
  | error => cases h

/-- The same with a property of the result. -/
theorem okWith {ε α : Type} {x : Except ε α} (p : α → Bool)
    (h : (match x with | .ok a => p a | .error _ => false) = true) : ∃ a, x = .ok a ∧ p a = true := by
  cases x with
  | ok a => exact ⟨a, rfl, h⟩
  | error => cases h

/-- Two results, the second from the first. -/
theorem okThen {ε α β γ : Type} {x : Except ε (α × β)} {f : α → β → Except ε γ}
    (h : (match x with | .ok (a, b) => (match f a b with | .ok _ => true | .error _ => false) | .error _ => false) = true) :
    ∃ a b c, x = .ok (a, b) ∧ f a b = .ok c := by
  cases x with
  | ok p =>
    obtain ⟨c, hc⟩ := okOf h
    exact ⟨p.1, p.2, c, rfl, hc⟩
  | error => cases h

theorem someOf {α : Type} {x : Option α} (p : α → Bool) (h : (match x with | some a => p a | none => false) = true) :
    ∃ a, x = some a ∧ p a = true := by
  cases x with
  | some a => exact ⟨a, rfl, h⟩
  | none => cases h

def isOkSome {ε α : Type} (x : Except ε (Option α)) : Bool := match x with
  | .ok (some _) => true
  | _ => false

theorem isOkSome_eq {ε α : Type} {x : Except ε (Option α)} (h : isOkSome x = true) : ∃ a, x = .ok (some a) := by
  unfold isOkSome at h
  split at h
  · exact ⟨_, rfl⟩
  · cases h

def isErr {ε α : Type} [DecidableEq ε] (x : Except ε α) (e : ε) : Bool := match x with
  | .ok _ => false
  | .error a => decide (a = e)

theorem isErr_eq {ε α : Type} [DecidableEq ε] {x : Except ε α} {e : ε} (h : isErr x e = true) : x = .error e := by
  cases x with
  | ok => cases h
  | error a => exact congrArg _ (of_decide_eq_true h)

/-- Two results in a row, the second from the first's state. -/
theorem okChain {ε α β : Type} {x : Except ε (α × State)} {f : State → Except ε (β × State)} (p : α → β → State → Bool)
    (h : (match x with
      | .ok (a, s) => (match f s with | .ok (b, u) => p a b u | .error _ => false)
      | .error _ => false) = true) :
    ∃ a s b u, x = .ok (a, s) ∧ f s = .ok (b, u) ∧ p a b u = true := by
  cases x with
  | error => cases h
  | ok r =>
    cases hf : f r.2 with
    | error => simp [hf] at h
    | ok q => exact ⟨r.1, r.2, q.1, q.2, rfl, hf, by simpa [hf] using h⟩

/-- A Boolean reading of a result. -/
def isOk {ε α : Type} (x : Except ε α) : Bool := match x with
  | .ok _ => true
  | .error _ => false

theorem isOk_eq {ε α : Type} {x : Except ε (α × State)} (h : isOk x = true) : ∃ a s, x = .ok (a, s) := by
  cases x with
  | ok r => exact ⟨r.1, r.2, rfl⟩
  | error => cases h

/-- An error, by evaluation. -/
theorem errWith {ε α : Type} {x : Except ε α} (h : (match x with | .ok _ => false | .error _ => true) = true) :
    ∃ e, x = .error e ∧ True := by
  cases x with
  | ok a => cases h
  | error e => exact ⟨e, rfl, trivial⟩

/-- A result that is no fault, by evaluation. -/
theorem okPair {α β ε : Type} {x : Except ε α × β} {p : α → Bool}
    (h : (match x.1 with | .ok a => p a | .error _ => false) = true) : ∃ a b, x = (.ok a, b) ∧ p a = true := by
  obtain ⟨x1, x2⟩ := x
  cases x1 with
  | ok a => exact ⟨a, x2, rfl, h⟩
  | error => cases h

/-- A value that is no error, by evaluation. -/
theorem okEq {ε α : Type} [DecidableEq α] {x : Except ε α} {a : α}
    (h : (match x with | .ok b => decide (b = a) | .error _ => false) = true) : x = .ok a := by
  cases x with
  | ok b => exact congrArg _ (of_decide_eq_true h)
  | error => cases h

/-- No thread steps where no context has its single-step bit set. -/
theorem noStep {s : State} (h : (s.ctxs.all fun p => !p.2.step) = true) (j : ThreadId) : s.stepping j = false := by
  unfold State.stepping
  cases hc : s.ctx (s.ctxOf j) with
  | none => rfl
  | some c =>
    have := tget_mem hc
    simpa using List.all_eq_true.1 h _ this

/-- An operation of the thread, issued and due in cycle 0. -/
def op0 (k : OpKind) : Op :=
  { th := id0, pc := 0, field := 0xFF, issued := 0, due := 0, stop := none, fctl := 0, kind := k }

/-- A staged store of the thread. -/
def entry (a : Nat) (mask : BitVec 8) (data : DWord) (colour : Fin 8) (taken : Option Nat) : StageEntry :=
  { addr := BitVec.ofNat 64 a, phys := a, key := 0, mask, data, colour, th := id0, pc := 0, taken }

/-- All ones in v1 to v8, v8 with a float tag. -/
def tInt : Thread :=
  regs ((List.range 7).map (fun i => (i + 1, (⟨0xFFFFFFFF, 0⟩ : VReg))) ++ [(8, ⟨0xFFFFFFFF, 0x20⟩)])

/-- The most negative 32-bit number and −1, a pair beside them, and 0xFF. -/
theorem test_meets_IntegerArithmeticAndLogic :
    (∃ x : IntOp, x.wfArith = true ∧ x.ty = .s64 ∧
      Meets x.ctl (fun t => Untyped t x.ty.wide x.a ∧ UntypedSrc t x.ty.wide x.b)) ∧
    (∃ x : IntOp, x.wfArith = true ∧ x.d = .v 191 ∧ x.a = .zero ∧
      Meets x.ctl (fun t => Untyped t x.ty.wide x.a ∧ UntypedSrc t x.ty.wide x.b)) ∧
    (∃ x : IntUn, x.ty.signed = false) ∧
    (∃ x : IntUn, x.wfSame = true ∧ x.d = .zero ∧ Meets x.ctl (fun t => Untyped t x.ty.wide x.a)) :=
  ⟨⟨⟨c7, .s64, .v 190, .v 2, .reg (.v 4)⟩, rfl, rfl,
      meets tInt (by decide) ⟨untyped (by decide), untyped (o := .v 4) (by decide)⟩⟩,
    ⟨⟨c7, .n32, .v 191, .zero, .imm 0⟩, rfl, rfl, rfl,
      meets tInt (by decide) ⟨untyped (by decide), trivial⟩⟩,
    ⟨⟨c7, .n64, .v 4, .v 2⟩, rfl⟩,
    ⟨⟨c7, .s32, .zero, .v 1⟩, rfl, rfl, meets tInt (by decide) (untyped (by decide))⟩⟩

theorem test_meets_ShiftsAndBitFields :
    (∃ x : IntOp, x.wfShift = true ∧ x.ty = .s64 ∧ Meets x.ctl fun t => t.word x.b % 256 ≥ 64) ∧
    (∃ x : IntOp3, x.wfInsert = true ∧ Meets x.ctl fun t => t.word x.b / 256 % 256 = 0) ∧
    (∃ x : IntOp3, x.wfPrmt = true ∧ Meets x.ctl fun t => t.word x.b / 16 % 16 = 15) :=
  ⟨⟨⟨c7, .s64, .v 4, .v 2, .reg (.v 1)⟩, rfl, rfl, meets tInt (by decide) (by decide)⟩,
    ⟨⟨c7, .n64, .v 4, .v 2, .imm 3, .v 6⟩, rfl, meets tInt (by decide) (by decide)⟩,
    ⟨⟨c7, .n32, .v 4, .v 2, .reg (.v 8), .zero⟩, rfl, meets tInt (by decide) (by decide)⟩⟩

theorem test_meets_MovesAndBitCounts :
    (∃ x : IntUn, x.wfSame = true ∧ x.ty.wide = true ∧ Meets x.ctl fun t => (t.reg x.a).tag = 0x20) ∧
    (∃ x : MovI, x.wf = true ∧ x.ty = .s64 ∧ x.imm = 0xFFFFFFFF) ∧
    (∃ x : MovH, x.wf = true ∧ x.hi = 0xFFFFF) ∧
    (∃ (x : MovH) (s : State) (id : ThreadId) (t : Thread) (k : KDesc), x.d.isPair = true ∧
      Alone s id t x.ctl ∧ s.kdesc id.launch = some k) ∧
    (∃ x : LeaOp, x.d.isPair = true ∧ x.a.isPair = true ∧ x.off = 0x800 ∧
      Meets x.ctl fun t => Untyped t true x.a) ∧
    (∃ x : IntUn, x.wfCount = true ∧ x.ty.wide = true) ∧
    ∃ x : IntUn, x.wfSame = true ∧ x.ty.signed = false :=
  ⟨⟨⟨c7, .n64, .v 2, .v 8⟩, rfl, rfl, meets tInt (by decide) (by decide)⟩, ⟨⟨c7, .s64, .v 2, 0xFFFFFFFF⟩, rfl, rfl, rfl⟩,
    ⟨⟨c7, .n32, .v 2, 0xFFFFF⟩, rfl, rfl⟩,
    ⟨⟨c7, .n64, .v 2, 0x80000⟩, on t0, id0, t0, KDesc.placed, rfl, alone t0 (by decide), rfl⟩,
    ⟨⟨c7, .v 190, .v 2, 0x800⟩, rfl, rfl, rfl, meets tInt (by decide) (untyped (by decide))⟩,
    ⟨⟨c7, .n64, .zero, .v 2⟩, rfl, rfl⟩, ⟨⟨c7, .n64, .v 2, .v 4⟩, rfl, rfl⟩⟩

theorem test_meets_Multiplies :
    (∃ x : IntOp, x.wfArith = true ∧
      Meets x.ctl (fun t => Untyped t x.ty.wide x.a ∧ UntypedSrc t x.ty.wide x.b)) ∧
    (∃ x : IntOp3, x.wfArith = true ∧ Meets x.ctl fun t =>
      Untyped t x.ty.wide x.a ∧ UntypedSrc t x.ty.wide x.b ∧ Untyped t x.ty.wide x.c) ∧
    (∃ x : IntOp3, x.wfWide = true ∧ Meets x.ctl fun t =>
      Untyped t false x.a ∧ UntypedSrc t false x.b ∧ Untyped t true x.c) :=
  ⟨⟨⟨c7, .s64, .v 2, .v 2, .reg (.v 4)⟩, rfl,
      meets tInt (by decide) ⟨untyped (by decide), untyped (o := .v 4) (by decide)⟩⟩,
    ⟨⟨c7, .n64, .v 2, .v 2, .imm 0xFFFFFFFF, .zero⟩, rfl,
      meets tInt (by decide) ⟨untyped (by decide), trivial, untyped (by decide)⟩⟩,
    ⟨⟨c7, .s32, .v 2, .v 1, .reg (.v 7), .v 2⟩, rfl,
      meets tInt (by decide) ⟨untyped (by decide), untyped (o := .v 7) (by decide), untyped (by decide)⟩⟩⟩

/-- A divide of the thread, due. -/
def sDiv : State :=
  (on t0).setOp 5 (op0 (.divide [(4, ⟨1, 0⟩)] 0))

theorem test_meets_DivisionsAndTheDivider :
    (∃ (x : IntOp) (s : State) (id : ThreadId) (t : Thread) (g : Issue), x.wfArith = true ∧
      Alone s id t x.ctl ∧ s.issue = some g ∧ g.core < noCore ∧ g.slot < 4 ∧
      Untyped t x.ty.wide x.a ∧ UntypedSrc t x.ty.wide x.b ∧ (∀ p ∈ s.ops, p.2.issued ≠ s.cycle) ∧
      t.src x.ty x.b = -1) ∧
    (∃ (x : IntOp) (s : State) (id : ThreadId) (t : Thread), x.wfArith = true ∧ Alone s id t x.ctl ∧
      t.src x.ty x.b = 0) ∧
    ∃ (s : State) (id : ThreadId) (t : Thread) (n : Nat) (o : Op) (ws : List (Nat × VReg)) (fl : BitVec 5),
      s.op n = some o ∧ o.th = id ∧ o.kind = .divide ws fl ∧ o.due ≤ s.cycle ∧ s.thread id = some t :=
  ⟨⟨⟨c7, .s32, .v 4, .v 1, .reg (.v 7)⟩, on tInt, id0, tInt, ⟨0, 0, [id0], false⟩, rfl,
      alone tInt (by decide), rfl, by decide, by decide, untyped (by decide),
      untyped (o := .v 7) (by decide), by decide, by decide⟩,
    ⟨⟨c7, .n64, .v 4, .v 2, .imm 0⟩, on tInt, id0, tInt, rfl, alone tInt (by decide), rfl⟩,
    ⟨sDiv, id0, t0, 5, _, _, _, rfl, rfl, rfl, by decide, rfl⟩⟩

theorem test_meets_ComparesAndPredicates :
    (∃ x : IcmpOp, (Instr.icmp x).wf = true ∧ x.pd = 7 ∧ Meets x.ctl fun t =>
      Untyped t x.ty.wide x.a ∧ UntypedSrc t x.ty.wide x.b) ∧
    (∃ x : IcmpOp, x.cond = .ord) ∧ (∃ x : IcmpOp, x.cond = .uno) ∧
    (∃ x : SelOp, (Instr.sel x).wf = true ∧ x.pc = 0 ∧ Meets x.ctl fun t => t.predAt x.pc = false) ∧
    (∃ (x : PmovOp) (d : Opd), x.dir = .toReg d ∧ d.isV = true) ∧
    (∃ (x : PmovOp) (a : Opd) (mask : BitVec 7), x.dir = .fromReg a mask) :=
  ⟨⟨⟨c7, .s64, .ge, 7, .v 2, .reg (.v 4)⟩, rfl, rfl,
      meets tInt (by decide) ⟨untyped (by decide), untyped (o := .v 4) (by decide)⟩⟩,
    ⟨⟨c7, .n32, .ord, 0, .v 2, .imm 0⟩, rfl⟩, ⟨⟨c7, .n32, .uno, 0, .v 2, .imm 0⟩, rfl⟩,
    ⟨⟨c7, .n64, .v 2, .v 4, .imm 0xFFFFFFFF, 0⟩, rfl, rfl, meets tInt (by decide) (by decide)⟩,
    ⟨⟨c7, .toReg (.v 191)⟩, .v 191, rfl, rfl⟩, ⟨⟨c7, .fromReg (.v 8) 0x7F⟩, _, _, rfl⟩⟩

/-- A thread with a code address in v2:v3, at call-stack offset `cso`. -/
def tCall (lo hi cso : Word) : Thread := { regs [(2, ⟨lo, 0⟩), (3, ⟨hi, 0⟩)] with cso := cso }

/-- A launch whose threads have 16 bytes of private memory, and whose code lies at 0x1000. -/
def sCall (t : Thread) : State :=
  { on t with launches := (on t).launches.map fun p =>
      (p.1, { p.2 with kd := { p.2.kd with privateBytes := 16, codeBase := 0x1000 } }) }

theorem aloneCall (t : Thread) (h : t.guard c7 = true) : Alone (sCall t) id0 t c7 :=
  ⟨⟨⟨⟨0, 0, [id0], false⟩, rfl, rfl⟩, by decide⟩, rfl, h⟩

/-- A thread whose private area no page maps. -/
def far (t : Thread) : Thread := { t with area := 2 ^ 47 }

/-- An access of private memory whose page translates, by evaluation. -/
theorem privOk {s : State} {id : ThreadId} {t : Thread} {off n : Nat} {acc : Access}
    (h : (match s.privAccess id t off n acc with | .ok r => r.1 | .error _ => false) = true) :
    ∃ s1, s.privAccess id t off n acc = .ok (true, s1) := by
  split at h
  · rename_i r hr
    obtain ⟨b, s1⟩ := r
    cases h
    exact ⟨s1, hr⟩
  · cases h

/-- Good targets, one below the code, one off a word and one past the last index; a call at the last
offset that fits and one past it; a return with something on the stack and one with nothing. -/
theorem test_meets_BranchesCallsAndReturns :
    (∀ t ∈ [tCall 0x1000 0 12, tCall 0xFF4 0 16, tCall 0x1001 0 0, tCall 0x1000 12 0, tCall 0xFF4 12 13],
      ∃ k, Alone (sCall t) id0 t c7 ∧ (sCall t).kdesc 0 = some k ∧ Untyped t true (.v 2) ∧
        (sCall t).privPending id0 = false ∧ (sCall t).stackBytes id0 = 16 ∧ k.codeBase = 0x1000 ∧
        ∃ s1, (sCall t).privAccess id0 t t.cso.toNat 4 .write = .ok (true, s1)) ∧
    (∃ tr, (sCall (far (tCall 0x1000 0 12))).privAccess id0 (far (tCall 0x1000 0 12)) 12 4 .write = .error tr) ∧
    (∃ s1, (sCall (tCall 0 0 12)).privAccess id0 (tCall 0 0 12) 8 4 .read = .ok (true, s1)) ∧
    (∃ tr, (sCall (far (tCall 0 0 12))).privAccess id0 (far (tCall 0 0 12)) 8 4 .read = .error tr) ∧
    (tCall 0x1000 0 12).cso.toNat + 4 ≤ 16 ∧ 16 < (tCall 0 0 13).cso.toNat + 4 ∧
    (∃ (x : BrOp) (y : NoOp) (s s' s1 u u1 : State) (id : ThreadId) (t t' : Thread), Alone s id t x.ctl ∧
      s.privPending id = false ∧ t.cso.toNat + 4 ≤ s.stackBytes id ∧ s.stackBytes id < 2 ^ 32 ∧
      memWf t.priv = true ∧ s.privAccess id t t.cso.toNat 4 .write = .ok (true, s1) ∧
      exec (.call x) s = .next s' ∧ Alone u id t' y.ctl ∧ u.privPending id = false ∧
      (∀ c, s'.thread id = some c → t'.priv = c.priv ∧ t'.cso = c.cso) ∧
      u.privAccess id t' t.cso.toNat 4 .read = .ok (true, u1)) ∧
    (∃ (s : State) (t : Thread), Alone s id0 t c7 ∧ t.loads = 0) ∧
    ∃ (s : State) (t : Thread), Alone s id0 t c7 ∧ t.loads = 63 := by
  refine ⟨?_, ?_, privOk (by decide +kernel), ?_, by decide, by decide, ?_, ⟨_, t0, alone t0 (by decide), rfl⟩,
    ⟨_, { t0 with loads := 63 }, alone _ (by decide), rfl⟩⟩
  · intro t ht
    refine ⟨{ KDesc.placed with privateBytes := 16, codeBase := 0x1000 }, ?_⟩
    simp only [List.mem_cons, List.mem_nil_iff, or_false] at ht
    rcases ht with h | h | h | h | h <;> subst h <;>
      exact ⟨aloneCall _ (by decide), rfl, untyped (by decide), rfl, rfl, rfl, privOk (by decide +kernel)⟩
  · obtain ⟨tr, h, -⟩ := errWith (x := (sCall (far (tCall 0x1000 0 12))).privAccess id0 (far (tCall 0x1000 0 12)) 12 4 .write)
      (by decide +kernel)
    exact ⟨tr, h⟩
  · obtain ⟨tr, h, -⟩ := errWith (x := (sCall (far (tCall 0 0 12))).privAccess id0 (far (tCall 0 0 12)) 8 4 .read)
      (by decide +kernel)
    exact ⟨tr, h⟩
  · obtain ⟨s1, h1⟩ := privOk (s := sCall (tCall 0 0 12)) (id := id0) (t := tCall 0 0 12) (off := 12) (n := 4)
      (acc := .write) (by decide +kernel)
    obtain ⟨u1, h2⟩ := privOk (s := sCall { tCall 0 0 12 with
      priv := memWriteN [] 12 (toLE ((0 : Word) + 1).toNat 4), cso := 16, pc := 5 }) (id := id0) (t := { tCall 0 0 12 with
      priv := memWriteN [] 12 (toLE ((0 : Word) + 1).toNat 4), cso := 16, pc := 5 }) (off := 12) (n := 4)
      (acc := .read) (by decide +kernel)
    refine ⟨⟨c7, 5⟩, ⟨c7⟩, sCall (tCall 0 0 12), _, s1, sCall { tCall 0 0 12 with
      priv := memWriteN [] 12 (toLE ((0 : Word) + 1).toNat 4), cso := 16, pc := 5 }, u1, id0, tCall 0 0 12, _,
      aloneCall _ (by decide), rfl, by decide, by decide, rfl, h1, rfl, aloneCall _ (by decide), rfl, ?_, h2⟩
    intro c hc
    have hc := Option.some.inj hc
    subst hc
    exact ⟨rfl, rfl⟩

/-- The launch's descriptor changed. -/
def withKd (s : State) (f : KDesc → KDesc) : State :=
  { s with launches := s.launches.map fun p => (p.1, { p.2 with kd := f p.2.kd }) }

/-- The course changed. -/
def withCourse (s : State) (f : Course → Course) : State := s.modCourse ⟨0, 0⟩ f

/-- A kernel with 64 bytes of scratchpad and of private memory. -/
def sMem (t : Thread) : State := withKd (on t) fun k => { k with scratch := 64, privateBytes := 64 }

theorem aloneMem (t : Thread) (h : t.guard c7 = true) : Alone (sMem t) id0 t c7 :=
  ⟨⟨⟨⟨0, 0, [id0], false⟩, rfl, rfl⟩, by decide⟩, rfl, h⟩

/-- An address in v2:v3, values of one format in v4 to v7, and untyped ones in v8 to v15. -/
def tMem (a : Word) (fmt : Tag) : Thread :=
  regs ([(2, ⟨a, 0⟩), (3, ⟨0, 0⟩)] ++ (List.range 4).map (fun i => (i + 4, (⟨0x89ABCDEF, fmt⟩ : VReg))) ++
    (List.range 8).map (fun i => (i + 8, (⟨0x7FFFFFFF, 0⟩ : VReg))))

/-- A private store and a load of the thread in flight. -/
def sFlight : State :=
  ((sMem t0).setOp 5 (op0 (.priv 60 [1, 2, 3, 4]))).setOp 6
    (op0 (.load [(4, ⟨7, 0⟩)]))

/-- The last 16 and the last 4 bytes of the scratchpad and of private memory. -/
theorem test_meets_ScratchpadAndPrivateAccesses :
    (∃ (x : LoadOp) (s : State) (t : Thread) (k : KDesc) (c : Course), Alone s id0 t x.ctl ∧ t.loads < 63 ∧
      s.kdesc id0.launch = some k ∧ s.course (courseOf id0) = some c ∧ Untyped t false x.a ∧
      ((t.reg x.a).bits + x.off.signExtend 32).toNat = 48 ∧ Width.bytes x.width = 16 ∧ k.scratch = 64 ∧
      s.rangeHeld (courseOf id0) 48 16 false = false ∧ k.privateBytes - 512 * k.kspill = 64 ∧
      ∃ s1, s.privAccess id0 t 48 16 .read = .ok (true, s1)) ∧
    (∃ (x : StoreOp) (s : State) (t : Thread) (k : KDesc) (c : Course), Alone s id0 t x.ctl ∧ t.stores < 63 ∧
      s.kdesc id0.launch = some k ∧ s.course (courseOf id0) = some c ∧ Untyped t false x.a ∧
      t.needData x.width x.fmt x.b = .ok () ∧
      ((t.reg x.a).bits + x.off.signExtend 32).toNat = 48 ∧ Width.bytes x.width = 16 ∧ k.scratch = 64 ∧
      s.rangeHeld (courseOf id0) 48 16 true = false ∧ k.privateBytes - 512 * k.kspill = 64 ∧
      ∃ s1, s.privAccess id0 t 48 16 .write = .ok (true, s1)) ∧
    (∃ tr, (sMem (far (tMem 64 0))).privAccess id0 (far (tMem 64 0)) 48 16 .read = .error tr) ∧
    (∃ tr, (sMem (far (tMem 64 0))).privAccess id0 (far (tMem 64 0)) 48 16 .write = .error tr) ∧
    (∃ (s : State) (id : ThreadId) (t : Thread) (n : Nat) (o : Op) (a : Nat) (bs : List Byte),
      s.op n = some o ∧ o.th = id ∧ o.kind = .priv a bs ∧ s.thread id = some t ∧ t.await = .ready ∧
      (∀ p ∈ s.ops, p.2.th = id → (∃ b cs, p.2.kind = .priv b cs) → n ≤ p.1)) ∧
    (∃ (s : State) (id : ThreadId) (t : Thread) (n : Nat) (o : Op) (ws : List (Nat × VReg)),
      s.op n = some o ∧ o.th = id ∧ o.stop = none ∧ o.kind = .load ws ∧ s.thread id = some t ∧
      t.await = .ready) ∧
    ∃ (w : Width) (d : Opd) (n : Fin 192), w.dataOk d = true ∧ d = .v n ∧ Width.regs w = 4 := by
  refine ⟨⟨⟨c7, .b16, false, 0x20, 0, .v 4, .v 2, 0xFF0⟩, sMem (tMem 64 0), tMem 64 0, _, _,
      aloneMem _ (by decide), by decide, rfl, rfl, untyped (by decide), by decide, rfl, rfl, by decide, rfl, privOk (by decide +kernel)⟩,
    ⟨⟨c7, .b16, 0x20, 0, 0, .v 2, .v 4, 0xFF0⟩, sMem (tMem 64 0x20), tMem 64 0x20, _, _,
      aloneMem _ (by decide), by decide, rfl, rfl, untyped (by decide), by rfl, by decide, rfl, rfl,
      by decide, rfl, privOk (by decide +kernel)⟩, ?_, ?_,
    ⟨sFlight, id0, t0, 5, _, _, _, rfl, rfl, rfl, rfl, rfl, ?_⟩,
    ⟨sFlight, id0, t0, 6, _, _, rfl, rfl, rfl, rfl, rfl, rfl⟩, ⟨.b16, .v 188, 188, rfl, rfl, rfl⟩⟩
  · obtain ⟨tr, h, -⟩ := errWith (x := (sMem (far (tMem 64 0))).privAccess id0 (far (tMem 64 0)) 48 16 .read)
      (by decide +kernel)
    exact ⟨tr, h⟩
  · obtain ⟨tr, h, -⟩ := errWith (x := (sMem (far (tMem 64 0))).privAccess id0 (far (tMem 64 0)) 48 16 .write)
      (by decide +kernel)
    exact ⟨tr, h⟩
  intro p hp _ _
  exact (by decide : ∀ p ∈ sFlight.ops, 5 ≤ p.1) p hp

/-- A staged store of the thread to the line at 0x80, on a page that its die has cached. -/
def sStaged (t : Thread) : State :=
  withCourse (on t) fun c => { c with staging := [entry 0x80 0x0F 0x11223344 3 none] }

theorem aloneStaged (t : Thread) (h : t.guard c7 = true) : Alone (sStaged t) id0 t c7 :=
  ⟨⟨⟨⟨0, 0, [id0], false⟩, rfl, rfl⟩, by decide⟩, rfl, h⟩

/-- A load whose page translates and whose bytes are there, by evaluation. -/
theorem loadOk {s : State} {id : ThreadId} {va : DWord} {acq n pol draw : Nat} (p : Nat → Bool)
    (h : (match s.translateFor id va .read with
      | .ok (pa, key, s1) => p pa && (s1.loadGlobal id acq pa key n pol draw).1.isSome
      | .error _ => false) = true) :
    ∃ pa key s1 bs s2, s.translateFor id va .read = .ok (pa, key, s1) ∧ p pa = true ∧
      s1.loadGlobal id acq pa key n pol draw = (some bs, s2) := by
  split at h
  · rename_i pa key s1 h1
    simp only [Bool.and_eq_true, Option.isSome_iff_exists] at h
    obtain ⟨hp, bs, hb⟩ := h
    exact ⟨pa, key, s1, bs, _, h1, hp, Prod.ext hb rfl⟩
  · cases h

theorem test_meets_GlobalLoadsAndPrefetch :
    (∃ (x : LoadOp) (s : State) (id : ThreadId) (t : Thread), Alone s id t x.ctl ∧ t.loads < 63 ∧
      Untyped t true x.a ∧ (t.pair x.a + x.off.signExtend 64).toNat % Width.bytes x.width = 0 ∧
      ∃ pa key s1 bs s2, s.translateFor id (t.pair x.a + x.off.signExtend 64) .read = .ok (pa, key, s1) ∧
        decide (pa < 65536) = true ∧
        s1.loadGlobal id t.acqTs pa key (Width.bytes x.width) x.pol.val s.free = (some bs, s2)) ∧
    (∃ (x : LoadOp) (s : State) (id : ThreadId) (t : Thread) (l : Launch),
      Alone s id t x.ctl ∧ t.loads < 63 ∧ Untyped t true x.a ∧ s.launch id.launch = some l ∧
      (t.pair x.a + x.off.signExtend 64).toNat % Width.bytes x.width = 0 ∧
      ∃ r, s.translateFor id (t.pair x.a + x.off.signExtend 64) .read = .ok r ∧
        (decide (s.physClass r.1 = .hbm) && !s.isPoisoned r.1 (Width.bytes x.width)) = true) ∧
    (∃ (x : PrefOp) (s : State) (id : ThreadId) (t : Thread), Alone s id t x.ctl) ∧
    (∃ (s s2 : State) (id : ThreadId) (c : Course) (acq pa key n pol draw : Nat) (bs : List Byte),
      s.course (courseOf id) = some c ∧ s.physClass pa = .hbm ∧
      s.loadGlobal id acq pa key n pol draw = (some bs, s2) ∧ (stagedByte c.staging id pa).isSome = true) ∧
    ∃ (s s2 : State) (id : ThreadId) (c : Course) (acq pa key n pol draw : Nat) (bs : List Byte),
      s.course (courseOf id) = some c ∧ s.physClass pa = .host ∧
      s.loadGlobal id acq pa key n pol draw = (some bs, s2) := by
  obtain ⟨bs, h, -⟩ := someOf (x := ((sStaged t0).loadGlobal id0 0 0x80 0 8 0 0).1) (fun _ => true) (by decide +kernel)
  obtain ⟨bs', h', -⟩ := someOf (x := ((sStaged t0).loadGlobal id0 0 (2 ^ 40) 0 8 0 0).1) (fun _ => true)
    (by decide +kernel)
  exact ⟨⟨⟨c7, .b16, false, 0, 0, .v 4, .v 2, 0⟩, sStaged (tMem 0xFFF0 0), id0, tMem 0xFFF0 0,
      aloneStaged _ (by decide), by decide, untyped (by decide), by decide,
      loadOk (fun pa => decide (pa < 65536)) (by decide +kernel)⟩,
    ⟨⟨c7, .b4, false, 0, 0, .v 4, .v 2, 0xFFC⟩, sStaged (tMem 8 0), id0, tMem 8 0, _,
      aloneStaged _ (by decide), by decide, untyped (by decide), rfl, by decide,
      okWith (fun (r : Nat × Nat × State) => decide ((sStaged (tMem 8 0)).physClass r.1 = .hbm) &&
        !(sStaged (tMem 8 0)).isPoisoned r.1 (Width.bytes .b4)) (by decide +kernel)⟩,
    ⟨⟨c7, 0, .v 2, 0⟩, on t0, id0, t0, alone _ (by decide)⟩,
    ⟨sStaged t0, _, id0, _, 0, 0x80, 0, 8, 0, 0, bs, rfl, by decide, Prod.ext h rfl, by decide⟩,
    ⟨sStaged t0, _, id0, _, 0, 2 ^ 40, 0, 8, 0, 0, bs', rfl, by decide, Prod.ext h' rfl⟩⟩

/-- The store that commit 7 has taken, beside one it has not. -/
def sCommit : State :=
  withCourse (on t0) fun c => { c with
    staging := [entry 0x80 0x0F 0x11223344 3 (some 7), entry 0x88 0xFF 5 0 none]
    commits := [⟨7, some id0, false, none⟩] }

theorem test_meets_StoresAreStagedThenRegistered :
    (∃ (x : StoreOp) (s : State) (id : ThreadId) (t : Thread) (c : Course),
      Alone s id t x.ctl ∧ t.stores < 63 ∧ Untyped t true x.a ∧ t.needData x.width x.fmt x.b = .ok () ∧
      (t.pair x.a + x.off.signExtend 64).toNat % Width.bytes x.width = 0 ∧ s.course (courseOf id) = some c ∧
      c.staging ≠ [] ∧ ∃ r, s.translateFor id (t.pair x.a + x.off.signExtend 64) .write = .ok r ∧
        decide (((storeWords id t.pc x.colour (t.pair x.a + x.off.signExtend 64) r.1 r.2.1
          (t.storeBytes x.width x.b) x.pol r.2.2.cycle).foldl stageWord c.staging).length ≤ 4096) = true) ∧
    (∃ (s : State) (co : CourseId) (c : Course) (m : Commit), s.course co = some c ∧
      c.commits.find? (fun x => x.id == m.id) = some m ∧ s.commitReady co m = true ∧ memWf s.mem = true ∧
      (let es := c.staging.filter (c.commits_ m)
       es ≠ [] ∧ s.guardedEntry c.ctx es = none ∧
       (∀ e ∈ es, s.physClass e.phys = .hbm ∧ s.keyRevoked e.key = false ∧ s.isPoisoned e.phys 8 = false ∧
         e.phys % 8 = 0 ∧ OwnUnit s e.key (e.phys / 64))) ∧
      (m.fence = false ∨ m.th = none)) := by
  refine ⟨⟨⟨c7, .b16, 0x20, 0, 0, .v 2, .v 4, 0⟩, sStaged (tMem 0x80 0x20), id0, tMem 0x80 0x20, _,
      aloneStaged _ (by decide), by decide, untyped (by decide), by rfl, by decide, rfl, by decide,
      okWith _ (by decide +kernel)⟩,
    ⟨sCommit, ⟨0, 0⟩, _, ⟨7, some id0, false, none⟩, rfl, rfl, by decide +kernel, by decide +kernel,
      ⟨by decide, by decide, ?_⟩, .inl rfl⟩⟩
  intro e he
  have : e = entry 0x80 0x0F 0x11223344 3 (some 7) := by simpa [Course.commits_, entry] using he
  subst this
  exact ⟨by decide, by decide, by decide, rfl, trivial⟩

/-- A store of the word in colour 0 before the one in colour 3; a commit of the thread that waits. -/
def sFence (open_ : Bool) : State :=
  withCourse (on t0) fun c => { c with
    staging := [entry 0x80 0x01 0x55 0 none, entry 0x80 0x0F 0x11223344 3 none]
    commits := if open_ then [⟨State.reset.nextId, some id0, true, none⟩] else [], committed := open_ }

theorem aloneFence (b : Bool) : Alone { sFence b with nextId := State.reset.nextId + 1 } id0 t0 c7 :=
  ⟨⟨⟨⟨0, 0, [id0], false⟩, rfl, rfl⟩, by decide⟩, rfl, by decide⟩

/-- A mask without and with stores to take; an earlier store of the same word in another colour; only a commit to
wait for. -/
theorem test_meets_AcquireReleaseAndFence :
    (∃ (x : NoOp) (s : State) (id : ThreadId) (t : Thread), Alone s id t x.ctl ∧ t.loads = 0) ∧
    (∃ (x : NoOp) (s : State) (id : ThreadId) (t : Thread) (c : Course), Alone s id t x.ctl ∧
      s.course (courseOf id) = some c ∧ c.staging ≠ []) ∧
    (∃ (x : FenceOp) (s : State) (id : ThreadId) (t : Thread) (c : Course), Alone s id t x.ctl ∧
      t.stores < 63 ∧ s.course (courseOf id) = some c ∧ x.mask = 0) ∧
    (∃ (x : FenceOp) (s : State) (id : ThreadId) (t : Thread) (c : Course), Alone s id t x.ctl ∧
      t.stores < 63 ∧ s.course (courseOf id) = some c ∧ x.mask = 0xF7 ∧ s.commitsOpen id = false ∧
      (∀ e ∈ c.staging, e.th = id → e.taken = none → x.mask.getLsbD e.colour.val = false)) ∧
    (∃ (x : FenceOp) (s : State) (id : ThreadId) (t : Thread) (c : Course), Alone s id t x.ctl ∧
      t.stores < 63 ∧ s.course (courseOf id) = some c ∧ x.mask ≠ 0 ∧
      (∃ e ∈ c.staging, e.th = id ∧ e.taken = none ∧ x.mask.getLsbD e.colour.val = true) ∧
      ∃ e f, c.staging[0]? = some e ∧ c.staging[1]? = some f ∧ e.phys = f.phys ∧
        x.mask.getLsbD e.colour.val = false ∧ x.mask.getLsbD f.colour.val = true) ∧
    ∃ (x : FenceOp) (s : State) (id : ThreadId) (t : Thread) (c : Course), Alone s id t x.ctl ∧
      t.stores < 63 ∧ s.course (courseOf id) = some c ∧ x.mask = 2 ∧ s.commitsOpen id = true :=
  ⟨⟨⟨c7⟩, _, id0, t0, alone _ (by decide), rfl⟩,
    ⟨⟨c7⟩, _, id0, t0, _, aloneStaged _ (by decide), rfl, by decide⟩,
    ⟨⟨c7, 0⟩, _, id0, t0, _, aloneStaged _ (by decide), by decide, rfl, rfl⟩,
    ⟨⟨c7, 0xF7⟩, _, id0, t0, _, aloneStaged _ (by decide), by decide, rfl, rfl, by decide, by decide⟩,
    ⟨⟨c7, 8⟩, _, id0, t0, _, aloneFence false, by decide, rfl, by decide,
      ⟨entry 0x80 0x0F 0x11223344 3 none, by decide, rfl, rfl, by decide⟩, _, _, rfl, rfl, rfl, by decide, by decide⟩,
    ⟨⟨c7, 2⟩, _, id0, t0, _, aloneFence true, by decide, rfl, rfl, by decide⟩⟩

/-- A deterministic kernel whose core's buffer holds these entries. -/
def sDet (t : Thread) (es : List AtomdEntry) : State :=
  (withKd (on t) fun k => { k with determ := true }).setCore 0 { Core.reset with atomd := es }

theorem aloneDet (t : Thread) (es : List AtomdEntry) (h : t.guard c7 = true) : Alone (sDet t es) id0 t c7 :=
  ⟨⟨⟨⟨0, 0, [id0], false⟩, rfl, rfl⟩, by decide⟩, rfl, h⟩

/-- Both translations of an atomic's word, by evaluation. -/
def AtomPages (s : State) (id : ThreadId) (va : DWord) : Prop :=
  ∃ a b c, s.translateFor id va .read = .ok (a, b) ∧ State.translateFor b.2 id va .write = .ok c

theorem atomPages {s : State} {id : ThreadId} {va : DWord}
    (h : (match s.translateFor id va .read with
      | .ok (_, b) => (match State.translateFor b.2 id va .write with | .ok _ => true | .error _ => false)
      | .error _ => false) = true) : AtomPages s id va := by
  split at h
  · rename_i a b hr
    split at h
    · rename_i c hc
      exact ⟨a, b, c, hr, hc⟩
    · cases h
  · cases h

/-- The last word of a page; in a deterministic kernel an empty buffer, one whose entry of the word takes the
operand, and one whose entry a drain has taken. -/
theorem test_meets_AtomicsStart :
    (∃ (x : AtomOp) (s : State) (id : ThreadId) (t : Thread),
      Alone s id t x.ctl ∧ t.loads < 63 ∧ s.mayRegister (courseOf id) = true ∧ Untyped t true x.a ∧
      t.need x.ty.wide x.b (AtomTy.tag x.ty) = .ok () ∧
      (t.pair x.a + x.off.signExtend 64).toNat % (AtomTy.width x.ty / 8) = 0 ∧
      AtomPages s id (t.pair x.a + x.off.signExtend 64) ∧ s.determ id.launch = false) ∧
    (∀ es ∈ [[], [(⟨5, id0, 0, 0xFFF8, .n64, .max, 1, none, none⟩ : AtomdEntry)],
        [(⟨5, id0, 0, 0xFFF8, .n64, .max, 1, some 9, none⟩ : AtomdEntry)]],
      ∃ (x : AtomOp) (s : State) (g : Issue) (id : ThreadId) (t : Thread),
      Alone s id t x.ctl ∧ t.stores < 63 ∧ s.determ id.launch = true ∧ s.issue = some g ∧ g.core = s.coreOf id ∧
      g.core < noCore ∧ Untyped t true x.a ∧ t.need x.ty.wide x.b (AtomTy.tag x.ty) = .ok () ∧
      (t.pair x.a + x.off.signExtend 64).toNat % (AtomTy.width x.ty / 8) = 0 ∧
      AtomPages s id (t.pair x.a + x.off.signExtend 64) ∧ (s.core g.core).atomd = es ∧ es.length < 1024 ∧
      t.pair x.a + x.off.signExtend 64 = 0xFFF8 ∧ x.ty = .n64 ∧ x.fn = .max) ∧
    (∃ (x : CasOp) (s : State) (id : ThreadId) (t : Thread),
      Alone s id t x.ctl ∧ t.loads < 63 ∧ s.mayRegister (courseOf id) = true ∧ Untyped t true x.a ∧
      t.need x.ty.wide x.b (AtomTy.tag x.ty) = .ok () ∧ t.need x.ty.wide x.c (AtomTy.tag x.ty) = .ok () ∧
      (t.pair x.a + x.off.signExtend 64).toNat % (AtomTy.width x.ty / 8) = 0 ∧
      AtomPages s id (t.pair x.a + x.off.signExtend 64)) ∧
    ∃ (x : NoOp) (s : State) (id : ThreadId) (t : Thread) (c : Course), Alone s id t x.ctl ∧
      t.stores < 63 ∧ s.course (courseOf id) = some c ∧ c.core < noCore := by
  refine ⟨⟨⟨c7, .f64, true, true, .add, .v 10, .v 2, .v 4, 0⟩, on (tMem 0xFFF8 0x40), id0, tMem 0xFFF8 0x40,
      alone _ (by decide), by decide, by decide, untyped (by decide), by rfl, by decide, atomPages (by decide +kernel),
      by decide⟩, ?_,
    ⟨⟨c7, .n64, false, false, .v 10, .v 2, .v 8, .v 12, 0⟩, on (tMem 0xFFF8 0), id0, tMem 0xFFF8 0,
      alone _ (by decide), by decide, by decide, untyped (by decide), by rfl, by rfl,
      by decide, atomPages (by decide +kernel)⟩,
    ⟨⟨c7⟩, on t0, id0, t0, _, alone _ (by decide), by decide, rfl, by decide⟩⟩
  intro es hes
  refine ⟨⟨c7, .n64, false, false, .max, .zero, .v 2, .v 4, 0⟩, sDet (tMem 0xFFF8 0) es, ⟨0, 0, [id0], false⟩, id0,
    tMem 0xFFF8 0, aloneDet _ _ (by decide), by decide, rfl, rfl, rfl, by decide, untyped (by decide), by rfl,
    by decide, ?_, rfl, ?_, by decide, rfl, rfl⟩
  · simp only [List.mem_cons, List.mem_nil_iff, or_false] at hes
    rcases hes with h | h | h <;> subst h <;> exact atomPages (by decide +kernel)
  · revert es; decide

/-- An atomic in flight. -/
def sAtom : State := (on t0).setOp 5 (op0 (.atomic .n64 (.op .max 5) (.v 4) 0x80 0x80 0 false))

/-- An ATOMD entry that a drain has taken. -/
def sAtomd : State :=
  (on t0).setCore 0 { Core.reset with atomd := [⟨5, id0, 0, 0x80, .n32, .add, 1, some 9, none⟩] }

theorem test_meets_AtomicsAreIndivisible :
    (∃ (s : State) (id : ThreadId) (t : Thread) (n : Nat) (o : Op) (ty : AtomTy) (kind : AtomKind) (d : Opd)
      (va : DWord) (pa key : Nat) (acq : Bool),
      s.op n = some o ∧ o.th = id ∧ o.stop = none ∧ o.kind = .atomic ty kind d va pa key acq ∧
      s.thread id = some t ∧ t.await = .ready ∧ s.mayRegister (courseOf id) = true ∧
      s.atomicReady n o acq = true ∧
      s.guarded (s.partOf (s.ctxOf id)) pa = false ∧ s.absentPage (s.partOf (s.ctxOf id)) pa = false ∧
      s.physClass pa = .hbm ∧
      s.isPoisoned pa (AtomTy.width ty / 8) = false ∧ pa % (AtomTy.width ty / 8) = 0 ∧
      OwnUnit s key (pa / 64) ∧ memWf s.mem = true) ∧
    (∃ (ty : AtomTy) (old : Nat), ty.float = false ∧ old < 2 ^ AtomTy.width ty ∧
      (BitVec.ofNat (AtomTy.width ty) old).toInt = -1 ∧ AtomTy.signed ty = true) ∧
    ∃ (s : State) (co : CourseId) (c : Course) (e : AtomdEntry),
      s.course co = some c ∧ c.core < noCore ∧ s.mayRegister co = true ∧
      (s.core c.core).atomd = [e] ∧ courseOf e.th = co ∧ e.taken.isSome = true ∧ e.stop = none ∧
      s.commitBefore e.th e.seq = false ∧ s.atomicBefore e.th e.seq = false ∧
      (∃ pa key pa' key' s1 s2 old fl s3,
        s.translate c.core (s.ctxOf e.th) e.addr .write = (.ok (pa, key), s1) ∧ s1.keyRevoked key = false ∧
        State.translate s1 c.core (s.ctxOf e.th) e.addr .read = (.ok (pa', key'), s2) ∧
        State.performAtomic s2 e.th e.ty (.op e.fn e.operand) pa key = some (old, fl, s3)) ∧
      (∀ p ∈ s.ops, ∀ k, p.2.kind ≠ .dflush k) := by
  refine ⟨⟨sAtom, id0, t0, 5, _, .n64, _, _, _, 0x80, 0, _, rfl, rfl, rfl, rfl, rfl, rfl, by decide,
      by decide, by decide, by decide, by decide, by decide, by decide, trivial, by decide +kernel⟩,
    ⟨.s32, 0xFFFFFFFF, rfl, by decide, by decide, rfl⟩,
    ⟨sAtomd, ⟨0, 0⟩, _, _, rfl, by decide, by decide, rfl, rfl, rfl, rfl, by decide, by decide, ?_, ?_⟩⟩
  · obtain ⟨⟨pa, key⟩, s1, h1, k1⟩ := okPair (x := sAtomd.translate 0 0 0x80 .write) (p := fun r => r == (0x80, 0))
      (by decide +kernel)
    obtain ⟨⟨pb, kb⟩, s2, h2, k2⟩ := okPair (x := (sAtomd.translate 0 0 0x80 .write).2.translate 0 0 0x80 .read)
      (p := fun _ => true) (by decide +kernel)
    obtain ⟨⟨old, fl, s3⟩, h3, -⟩ := someOf (p := fun _ => true)
      (x := ((sAtomd.translate 0 0 0x80 .write).2.translate 0 0 0x80 .read).2.performAtomic id0 .n32 (.op .add 1) 0x80 0)
      (by decide +kernel)
    have k : (sAtomd.translate 0 0 0x80 .write).2.keyRevoked 0 = false := by decide +kernel
    cases eq_of_beq k1
    have e1 : (sAtomd.translate 0 0 0x80 .write).2 = s1 := congrArg Prod.snd h1
    rw [e1] at h2 h3 k
    have e2 : (s1.translate 0 0 0x80 .read).2 = s2 := congrArg Prod.snd h2
    rw [e2] at h3
    exact ⟨_, _, pb, kb, s1, s2, old, fl, s3, h1, k, h2, h3⟩
  · intro p hp
    cases hp

/-- v1 to v20 with one tag and one content; v21 to v30 untyped. -/
def tTag (tag : Tag) (w : Word) : Thread :=
  regs ((List.range 20).map (fun i => (i + 1, (⟨w, tag⟩ : VReg))) ++
    (List.range 10).map (fun i => (i + 21, (⟨w, 0⟩ : VReg))))

/-- The largest magnitude of FP16, the smallest of FP32, and magnitudes between FP16's largest and the value a last
place above it, at that value and above it. -/
theorem test_meets_RoundingGoesToANeighbour :
    (∃ (f : Fmt) (m : Nat) (e : Int), f.isB8 = false ∧ 0 < m ∧ (m : Rat) * 2 ^ e = magnitude f f.maxCode) ∧
    (∃ (f : Fmt) (m : Nat) (e : Int), f.isB8 = false ∧ 0 < m ∧
      (m : Rat) * 2 ^ e ≤ magnitude f f.maxCode ∧ (m : Rat) * 2 ^ e < magnitude f 1) ∧
    ∀ m ∈ [(4095 : Nat), 4096, 9999], ∃ f : Fmt, f.isB8 = false ∧ 0 < m ∧ magnitude f f.maxCode < (m : Rat) * 2 ^ (4 : Int) ∧
      (magnitude f (f.maxCode + 1) ≤ (m : Rat) * 2 ^ (4 : Int) ↔ m ≠ 4095) :=
  ⟨⟨.f16, 2047, 5, by decide +kernel, by decide +kernel, by decide +kernel⟩, ⟨.f16, 1, -30, by decide +kernel, by decide +kernel, by decide +kernel, by decide +kernel⟩,
    fun m hm => ⟨.f16, by revert m; decide +kernel⟩⟩

theorem test_meets_ArithmeticIsExact :
    (∃ (x y z : FloatVal) (p q r : Rat), valueOf x = some p ∧ valueOf y = some q ∧ valueOf z = some r ∧
      q ≠ 0 ∧ 0 < p) ∧
    (∃ (x y : FloatVal) (p q : Rat), valueOf x = some p ∧ valueOf y = some q ∧ q = 0 ∧ p < 0) ∧
    (∃ (x y : FloatVal) (p q : Rat), valueOf x = some p ∧ valueOf y = some q ∧ q = 0 ∧ p = 0) ∧
    ∃ m : Nat, m ≠ 0 :=
  ⟨⟨.fin false 1 (-149), .fin true 3 0, .fin false 0 0, _, _, _, rfl, rfl, rfl, by decide +kernel, by decide +kernel⟩,
    ⟨.fin true 1 0, .fin true 0 0, _, _, rfl, rfl, by decide +kernel, by decide +kernel⟩,
    ⟨.fin true 0 0, .fin false 0 0, _, _, rfl, rfl, by decide +kernel, by decide +kernel⟩, ⟨1, by decide +kernel⟩⟩

theorem test_meets_FloatArithmetic :
    (∃ x : FOp, x.wfRegs = true ∧ x.ty = .f16 ∧
      Meets x.ctl fun t => Tagged t (FloatTy.tag x.ty) false x.a ∧ TaggedSrc t (FloatTy.tag x.ty) x.b) ∧
    ∃ x : FOp3, x.wf = true ∧ x.ty = .f32 ∧ Meets x.ctl fun t =>
      Tagged t (FloatTy.tag x.ty) false x.a ∧ TaggedSrc t (FloatTy.tag x.ty) x.b ∧
        Tagged t (FloatTy.tag x.ty) false x.c :=
  ⟨⟨⟨c7, .f16, .sr, .v 191, .v 1, .reg (.v 2)⟩, rfl, rfl,
      meets (tTag 0x80 0x7C017FFF) (by decide) ⟨tagged (by decide), tagged (o := .v 2) (by decide)⟩⟩,
    ⟨⟨c7, .f32, .dyn, .zero, .zero, .imm 0x7F800001, .v 1⟩, rfl, rfl,
      meets (tTag 0x20 1) (by decide) ⟨tagged (by decide), trivial, tagged (by decide)⟩⟩⟩

theorem test_meets_FloatSelectionAndComparison :
    (∃ x : FOp, x.wfRegs = true ∧ x.ty = .f32 ∧
      Meets x.ctl fun t => Tagged t (FloatTy.tag x.ty) false x.a ∧ TaggedSrc t (FloatTy.tag x.ty) x.b) ∧
    (∃ (x y : FloatVal) (p q : Rat), valueOf x = some p ∧ valueOf y = some q ∧ p = 0 ∧ q = 0 ∧ x.neg = true ∧
      y.neg = false) ∧
    (∃ x : FcmpOp, (Instr.fcmp x).wf = true ∧ x.cond = .uno ∧ x.pd = 7 ∧
      Meets x.ctl fun t => Tagged t 0x20 false x.a ∧ TaggedSrc t 0x20 x.b) ∧
    ∃ x : FUn, (Instr.fclass x).wf = true ∧ Meets x.ctl fun t => Tagged t 0x20 false x.a :=
  ⟨⟨⟨c7, .f32, .dyn, .v 191, .v 1, .reg (.v 2)⟩, rfl, rfl,
      meets (tTag 0x20 0x7F800001) (by decide) ⟨tagged (by decide), tagged (o := .v 2) (by decide)⟩⟩,
    ⟨.fin true 0 0, .fin false 0 0, _, _, rfl, rfl, by decide +kernel, by decide +kernel, rfl, rfl⟩,
    ⟨⟨c7, .uno, 7, .v 1, .imm 0x7FC00000⟩, rfl, rfl, rfl,
      meets (tTag 0x20 1) (by decide) ⟨tagged (by decide), trivial⟩⟩,
    ⟨⟨c7, .dyn, .v 1, .v 1⟩, rfl, meets (tTag 0x20 0x80000000) (by decide) (tagged (by decide))⟩⟩

theorem test_meets_DoubleArithmetic :
    (∃ x : DOp, x.wfPairs = true ∧ Meets x.ctl fun t => Tagged t 0x40 true x.a ∧ Tagged t 0x40 true x.b) ∧
    (∃ x : DOp3, (Instr.dfma x).wf = true ∧ Meets x.ctl fun t =>
      Tagged t 0x40 true x.a ∧ Tagged t 0x40 true x.b ∧ Tagged t 0x40 true x.c) ∧
    (∃ x : DcmpOp, (Instr.dcmp x).wf = true ∧
      Meets x.ctl fun t => Tagged t 0x40 true x.a ∧ Tagged t 0x40 true x.b) ∧
    ∃ x : FUn, (Instr.dclass x).wf = true ∧ Meets x.ctl fun t => Tagged t 0x40 true x.a :=
  ⟨⟨⟨c7, .rdn, .v 2, .v 2, .v 4⟩, rfl, meets (tTag 0x40 0x7FF00000) (by decide)
      ⟨tagged (by decide), tagged (by decide)⟩⟩,
    ⟨⟨c7, .dyn, .zero, .v 2, .zero, .v 4⟩, rfl, meets (tTag 0x40 1) (by decide)
      ⟨tagged (by decide), tagged (by decide), tagged (by decide)⟩⟩,
    ⟨⟨c7, .le, 0, .v 2, .v 4⟩, rfl, meets (tTag 0x40 1) (by decide) ⟨tagged (by decide), tagged (by decide)⟩⟩,
    ⟨⟨c7, .dyn, .v 191, .v 2⟩, rfl, meets (tTag 0x40 1) (by decide) (tagged (by decide))⟩⟩

theorem test_meets_FloatDivisionsAndRoots :
    (∃ (x : FOp) (s : State) (id : ThreadId) (t : Thread) (g : Issue), Alone s id t x.ctl ∧ s.issue = some g ∧
      g.core < noCore ∧ g.slot < 4 ∧ (∀ p ∈ s.ops, p.2.issued ≠ s.cycle) ∧ (Instr.fdiv x).wf = true ∧
      Tagged t 0x20 false x.a ∧ TaggedSrc t 0x20 x.b) ∧
    (∃ (x : FUn) (t : Thread), Alone (on t) id0 t x.ctl ∧ (Instr.fsqrt x).wf = true ∧
      Tagged t 0x20 false x.a) ∧
    (∃ (x : DOp) (t : Thread), Alone (on t) id0 t x.ctl ∧ (Instr.ddiv x).wf = true ∧
      Tagged t 0x40 true x.a ∧ Tagged t 0x40 true x.b) ∧
    ∃ (x : FUn) (t : Thread), Alone (on t) id0 t x.ctl ∧ (Instr.dsqrt x).wf = true ∧ Tagged t 0x40 true x.a :=
  ⟨⟨⟨c7, .f32, .dyn, .v 1, .v 1, .imm 0⟩, _, id0, tTag 0x20 1, ⟨0, 0, [id0], false⟩, alone _ (by decide), rfl,
      by decide, by decide, by decide, rfl, tagged (by decide), trivial⟩,
    ⟨⟨c7, .dyn, .zero, .v 1⟩, tTag 0x20 0xFF800000, alone _ (by decide), rfl, tagged (by decide)⟩,
    ⟨⟨c7, .dyn, .v 2, .v 2, .v 4⟩, tTag 0x40 0, alone _ (by decide), rfl, tagged (by decide),
      tagged (by decide)⟩,
    ⟨⟨c7, .dyn, .v 2, .v 2⟩, tTag 0x40 0, alone _ (by decide), rfl, tagged (by decide)⟩⟩

/-- Four finite elements; an infinity beside a zero; infinite products of opposite sign; an infinite product and an
infinite addend. -/
theorem test_meets_Dot4 :
    (∃ x : DOp3, (Instr.fdot4 x).wf = true ∧ Meets x.ctl fun t =>
      (x.a = .zero ∨ tagClass (t.reg x.a).tag = 5) ∧ (x.b = .zero ∨ tagClass (t.reg x.b).tag = 5) ∧
        Tagged t 0x20 false x.c ∧ (∀ e : Fin 4, (byteValue t x.a e.val).isSome = true)) ∧
    (∃ (x : DOp3) (t : Thread), (byteFmt t x.a).read ((t.reg x.a).bits.toNat / 256 ^ 0 % 256) = .inf false ∧
      ((byteFmt t x.b).read ((t.reg x.b).bits.toNat / 256 ^ 0 % 256)).isZero = true) ∧
    ∃ (x : DOp3) (t : Thread), (Instr.fdot4 x).wf = true ∧
      (let el (o : Opd) (e : Nat) : FloatVal := (byteFmt t o).read ((t.reg o).bits.toNat / 256 ^ e % 256)
      ((el x.a 0).mul (el x.b 0)).1 = .inf true ∧ ((el x.a 1).mul (el x.b 1)).1 = .inf false ∧
        (t.fenv x.rnd).peek .f32 (t.reg x.c).bits.toNat = .inf false) :=
  ⟨⟨⟨c7, .rdn, .v 1, .v 1, .v 2, .zero⟩, rfl, meets (tTag 0xB3 0x01020304) (by decide)
      ⟨.inr (by decide), .inr (by decide), .inl rfl, by decide⟩⟩,
    ⟨⟨c7, .dyn, .v 1, .v 1, .zero, .zero⟩, regs [(1, ⟨0x7F, 0xB3⟩)], by decide, by decide⟩,
    ⟨⟨c7, .dyn, .v 5, .v 1, .v 2, .v 3⟩, regs [(1, ⟨0x7F7F, 0xB3⟩), (2, ⟨0x40C0, 0xB3⟩), (3, ⟨0x7F800000, 0x20⟩)], rfl,
      by decide⟩⟩

theorem test_meets_Conversions :
    (∃ (x : CvtOp) (s : State) (id : ThreadId) (t : Thread) (src dst : Fmt) (n : Fin 192),
      (Instr.cvt x).wf = true ∧ Alone s id t x.ctl ∧ x.a = .v n ∧
      tagFmt (t.reg x.a).tag = some src ∧ tagFmt x.fmt = some dst ∧
      (let k := max src.unit.1 dst.unit.1
       let ls := src.spanRegs k
       let ld := dst.spanRegs k
       ls = 1 ∧ ld = 4 ∧ spanOk x.a ls (s.regCount id) = true ∧ spanOk x.d ld (s.regCount id) = true ∧
       (∀ i < ls, (t.reg (Opd.plus x.a i)).tag = (t.reg x.a).tag)) ∧ Untyped t false x.b) ∧
    (∃ x : CvtiOp, (Instr.cvti x).wf = true ∧ x.toFloat = true ∧ Meets x.ctl fun t => Untyped t x.ty.wide x.a) ∧
    ∃ x : CvtiOp, (Instr.cvti x).wf = true ∧ x.toFloat = false ∧
      Meets x.ctl fun t => Tagged t x.fmt (x.fmt == 0x40) x.a :=
  ⟨⟨⟨c7, .dyn, .v 8, .v 1, .zero, 0x20⟩, _, id0, tTag 0xB3 0x01234567, .b8 4 true true, .f32, 1, rfl, alone _ (by decide),
      rfl, by decide, by decide, by decide, untyped (by decide)⟩,
    ⟨⟨c7, .dyn, true, .s64, 0x40, .v 2, .v 22⟩, rfl, rfl, meets (tTag 0x40 0x80000000) (by decide)
      (untyped (by decide))⟩,
    ⟨⟨c7, .rtz, false, .n32, 0x20, .v 2, .v 1⟩, rfl, rfl, meets (tTag 0x20 0x7F800000) (by decide)
      (tagged (by decide))⟩⟩

theorem test_meets_TagsAreSetAndRead :
    (∀ x ∈ ([⟨c7, .v 191, .v 1, .zero, 0x20⟩, ⟨c7, .zero, .v 1, .zero, 0x60⟩, ⟨c7, .v 190, .v 2, .zero, 0x40⟩,
        ⟨c7, .t 7, .t 7, .zero, 0⟩] : List TagsetOp), ∃ (s : State) (t : Thread), (Instr.tagset x).wf = true ∧
      Alone s id0 t x.ctl ∧ x.b = .zero ∧ pairBelow (.v 190) (s.regCount id0) = true ∧
      pairBelow (.v 2) (s.regCount id0) = true ∧ (s.tileReg id0 7).isSome = true) ∧
    (∃ (x : TagsetOp) (t : Thread) (n : Fin 192) (tag : Tag), (Instr.tagset x).wf = true ∧
      Alone (on t) id0 t x.ctl ∧ x.b = .v n ∧ (t.reg x.b).tag = 0 ∧ tag = (t.reg x.b).bits.setWidth 8 ∧
      tagValid tag = true) ∧
    ∃ (x : DaOp) (t : Thread), (Instr.tagget x).wf = true ∧ Alone (on t) id0 t x.ctl := by
  refine ⟨?_, ⟨⟨c7, .v 1, .v 2, .v 21, 0⟩, tTag 0x20 0x80, 21, 0x80, rfl, alone _ (by decide), rfl, rfl, rfl, rfl⟩,
    ⟨⟨c7, .v 1, .t 0⟩, t0, rfl, alone _ (by decide)⟩⟩
  intro x hx
  have hw : (Instr.tagset x).wf = true ∧ x.ctl = c7 ∧ x.b = .zero := by
    revert x
    decide
  refine ⟨on t0, t0, hw.1, ?_, hw.2.2, rfl, rfl, rfl⟩
  rw [hw.2.1]
  exact alone _ (by decide)

theorem test_meets_SpecialFunctions :
    (∃ x : FUn, x.wfV = true ∧ Meets x.ctl fun t => Tagged t 0x20 false x.a) ∧ (∃ v : FEnv, v.mode = .rne) ∧
    (Fmt.f32.read 0x7F800001).isNan = true ∧ (Fmt.f32.read 0xFFFFFFFF).isNan = true ∧
    f32Subnormal 0x80000001 = true ∧ f32Subnormal 0xFF7FFFFF = false ∧ ∃ v : FEnv, v.mode = .rne ∧ v.ftz = true :=
  ⟨⟨⟨c7, .dyn, .v 1, .v 1⟩, rfl, meets (tTag 0x20 1) (by decide) (tagged (by decide))⟩,
    ⟨t0.fenvRne, rfl⟩, by decide, by decide, by decide, by decide, ⟨⟨.rne, true, 0, 0⟩, rfl, rfl⟩⟩

/-- One legal row of 128 elements, the last row, and as many rows as the tile has. -/
def tRow (w : Word) (tag : Tag) : Thread := regs [(1, ⟨w, 0⟩), (2, ⟨0x3F800000, tag⟩), (3, ⟨0x3F800000, tag⟩)]

/-- Tile 0 tagged FP32. -/
def sRow (t : Thread) : State :=
  withCourse (on t) fun c => { c with tiles := ⟨⟨0x20, []⟩, []⟩ :: c.tiles.drop 1 }

theorem aloneRow (t : Thread) (h : t.guard c7 = true) : Alone (sRow t) id0 t c7 :=
  ⟨⟨⟨⟨0, 0, [id0], false⟩, rfl, rfl⟩, by decide⟩, rfl, h⟩

/-- A row operation in flight. -/
def sRowOp : State :=
  (sRow t0).setOp 5 (op0 (.row (.rowsum ⟨c7, .v 4, .t 0, .v 1, .zero⟩) [⟨0, 0⟩] 0))

theorem test_meets_RowOperations :
    (∃ (t : Thread) (k : KDesc) (r : RowWord), Alone (sRow t) id0 t c7 ∧ t.tileOps < 63 ∧
      ((sRow t).rowOps ((sRow t).coreOf id0)).length < 32 ∧ (sRow t).kdesc 0 = some k ∧
      ((sRow t).readTile id0 0).tag = 0x20 ∧ Untyped t false (.v 1) ∧
      (t.reg (.v 1)).bits.toNat = rowWordOf r ∧ RowFits r k.tileRows false ∧ r.len = 128 ∧ r.rows = 16 ∧
      Tagged t 0x20 false (.v 2) ∧ Tagged t 0x20 false (Opd.plus (.v 2) 1)) ∧
    (∃ (t : Thread) (k : KDesc) (r : RowWord), Alone (sRow t) id0 t c7 ∧ (sRow t).kdesc 0 = some k ∧
      (t.reg (.v 1)).bits.toNat = rowWordOf r ∧ RowFits r k.tileRows true ∧ r.len = 1 ∧ r.first = 15) ∧
    ∃ (s : State) (core n : Nat) (o : Op) (rest : Table Nat Op) (i : Instr) (vals : List VReg) (gen : Word)
      (t : Thread), s.rowOps core = (n, o) :: rest ∧ o.kind = .row i vals gen ∧ s.thread o.th = some t ∧
      t.await = .ready :=
  ⟨⟨tRow 0x007F0F00 0x20, KDesc.placed, ⟨128, 16, 0⟩, aloneRow _ (by decide), by decide, by decide, rfl, by decide,
      untyped (by decide), by decide, by unfold RowFits; decide, rfl, rfl, tagged (by decide),
      tagged (by decide)⟩,
    ⟨tRow 0x0000000F 0x20, KDesc.placed, ⟨1, 1, 15⟩, aloneRow _ (by decide), rfl, by decide,
      by unfold RowFits; decide, rfl, rfl⟩,
    ⟨sRowOp, 0, 5, _, [], _, _, _, t0, rfl, rfl, rfl, rfl⟩⟩

theorem test_meets_RowResults :
    (∃ (r : RowWord) (w : VReg) (tile : Fin 8 → Tile), RowFits r 128 false ∧ w.bits.toNat = rowWordOf r ∧
      (∀ k, memWf (tile k).data = true) ∧ r.rows = 128) ∧
    (∃ (x : RowOp) (d a : Fin 8), x.a = .t a ∧ x.d = .t d) ∧
    (∃ (x : RowscaleOp) (d a : Fin 8), x.a = .t a ∧ x.d = .t d ∧ t0.rnd x.rnd ≠ .sr) ∧
    (∃ (x : CvtOp) (d a : Fin 8) (f : Fmt), x.a = .t a ∧ x.d = .t d ∧ tagClass x.fmt = 6 ∧ tagFmt x.fmt = some f) ∧
    (∃ (y : FloatVal) (q : Rat) (top : Int), valueOf y = some q ∧ (2 : Rat) ^ top ≤ q.abs ∧ q.abs < 2 ^ (top + 1)) ∧
    ∀ c ∈ [(0x3F800000 : Nat), 0xBF800000, 0x80000000], ∃ (u : FEnv) (p : Rat), valueOf (u.peek .f32 c) = some p ∧
      (p = 0 ↔ c = 0x80000000) ∧ (0 < p ↔ c = 0x3F800000) :=
  ⟨⟨⟨128, 128, 0⟩, ⟨0x007F7F00, 0⟩, fun _ => ⟨0x20, []⟩, by unfold RowFits; decide, by decide, fun _ => rfl, rfl⟩,
    ⟨⟨c7, .t 0, .t 0, .v 1, .v 2⟩, 0, 0, rfl, rfl⟩,
    ⟨⟨c7, .dyn, .bf16, true, .t 7, .t 0, .v 1, .v 2⟩, 7, 0, rfl, rfl, by decide⟩,
    ⟨⟨c7, .dyn, .t 7, .t 0, .v 1, 0xD3⟩, 7, 0, _, rfl, rfl, by decide, rfl⟩,
    ⟨.fin true 1 3, -8, 3, by decide +kernel, by decide +kernel, by decide +kernel⟩, by
      intro c hc
      simp only [List.mem_cons, List.mem_nil_iff, or_false] at hc
      rcases hc with h | h | h <;> subst h <;>
        exact ⟨t0.fenvRne, _, rfl, by decide +kernel, by decide +kernel⟩⟩
/-! ### Crews and barriers -/

def id1 : ThreadId := ⟨0, 0, 1⟩

/-- A context that runs, and its partition. -/
def ctx0 : Context := { newContext 0 none with s2Root := 0x100000, s1Root := 0x120000 }

def part0 : Partition := { State.reset.newPartition 0 [] with throttled := false, ltp := [0], clusters := [0] }

/-- The state with that context and partition. -/
def live (s : State) : State := (s.setCtx 0 ctx0).setPart 0 part0

/-- A member of crew 5 with rank `r`, at the collective. -/
def member (r : Fin 32) : Thread :=
  { tInt with crews := [(5, r)], await := .crew 5, pc := 3, preds := BitVec.ofNat 7 r.val }

/-- Two members of crew 5 that issue together, ranks 31 and 0. -/
def sCrew : State :=
  { ((on (member 31)).setThread id1 (member 0)) with issue := some ⟨0, 0, [id0, id1], true⟩ }

/-- The same, gathered and not yet issued. -/
def sGathered : State := { live sCrew with issue := none }

theorem test_meets_CrewMembershipAndGathering :
    (∀ t ∈ [{ t0 with crews := [(63, 31)] }, t0], Alone (on { t with regs := (regs [(1, ⟨63, 0⟩)]).regs }) id0
      { t with regs := (regs [(1, ⟨63, 0⟩)]).regs } c7) ∧
    (regs [(1, ⟨63, 0⟩)]).word (.reg (.v 1)) = (63 : Fin 64).val ∧
    (∃ (x : JoinOp) (t : Thread), (Instr.join x).wf = true ∧ Alone (on t) id0 t x.ctl ∧
      UntypedSrc t false x.b ∧ t.word x.b = 64) ∧
    (∃ (x : JoinOp) (t : Thread), (Instr.join x).wf = true ∧ UntypedSrc t false x.b ∧
      t.word x.b = (63 : Fin 64).val) ∧
    (∃ x : BOp, (Instr.leave x).wf = true ∧ Meets x.ctl fun t => UntypedSrc t false x.b ∧ t.word x.b < 64) ∧
    (∃ (x : DbOp) (s : State) (id : ThreadId) (t : Thread) (crew : Fin 64), (Instr.crew x).wf = true ∧
      Alone s id t x.ctl ∧ UntypedSrc t false x.b ∧ t.word x.b = crew.val ∧
      (s.ranksHeld (courseOf id) crew).Nodup) ∧
    (∃ (s : State) (co : CourseId) (crew : Fin 64) (c : Course) (ms : List Member),
      s.course co = some c ∧ s.gathered co crew = some ms ∧ c.core < noCore ∧ s.issue = none ∧
      ((s.core c.core).slot (s.cycle % 4)).run = none ∧ (∀ m ∈ ms, s.mayPick m.2.1 m.2.2 = true) ∧
      (∀ m ∈ ms, s.twinned m.2.1 ((s.core c.core).slot (s.cycle % 4)).started = false)) ∧
    (∃ (s : State) (id : ThreadId) (t : Thread) (c : Ctl), Alone s id t c ∧
      (∃ g, s.issue = some g ∧ g.gathered = false) ∧ t.crewNamed (.id 5) = none ∧ t.crewNamed .cur = none) := by
  refine ⟨?_, by decide, ⟨⟨c7, .v 4, .imm 64, 0⟩, t0, rfl, alone _ (by decide), trivial, rfl⟩,
    ⟨⟨c7, .zero, .imm 63, 7⟩, t0, rfl, trivial, rfl⟩,
    ⟨⟨c7, .imm 63⟩, rfl, meets t0 (by decide) ⟨trivial, by decide⟩⟩,
    ⟨⟨c7, .v 4, .imm 0⟩, _, id0, t0, 0, rfl, alone _ (by decide), trivial, rfl, by decide⟩,
    ⟨sGathered, ⟨0, 0⟩, 5, _, [(0, id1, member 0), (31, id0, member 31)], rfl, rfl, by decide, rfl, rfl, ?_, ?_⟩,
    ⟨_, id0, t0, c7, alone _ (by decide), ⟨_, rfl, rfl⟩, rfl, rfl⟩⟩
  · intro t ht
    simp only [List.mem_cons, List.mem_nil_iff, or_false] at ht
    rcases ht with h | h <;> subst h <;> exact alone _ (by decide)
  · intro m hm
    simp only [List.mem_cons, List.mem_nil_iff, or_false] at hm
    rcases hm with h | h <;> subst h <;> rfl
  · intro m hm
    simp only [List.mem_cons, List.mem_nil_iff, or_false] at hm
    rcases hm with h | h <;> subst h <;> rfl

theorem crewIssues (code : CrewCode) : CrewIssues sCrew code [(0, id1, member 0), (31, id0, member 31)] :=
  ⟨⟨_, rfl, rfl⟩, rfl, by decide, by decide⟩

/-- Sources of every member. -/
theorem eachMember {P : Thread → Prop} (h0 : P (member 0)) (h1 : P (member 31)) :
    ∀ m ∈ ([(0, id1, member 0), (31, id0, member 31)] : List Member), P m.2.2 := by
  intro m hm
  simp only [List.mem_cons, List.mem_nil_iff, or_false] at hm
  rcases hm with h | h <;> subst h
  · exact h0
  · exact h1

theorem test_meets_ShufflesAndVotes :
    (∃ (x : ShflOp) (s : State) (ms : List Member), (Instr.shfl x).wf = true ∧ CrewIssues s x.crew ms ∧
      ms.length = 2 ∧ ∀ m ∈ ms, UntypedSrc m.2.2 false x.b) ∧
    ∀ d ∈ [VoteDst.any 0, .all 7, .leader 6, .ballot (.v 191)], ∃ (x : VoteOp) (s : State) (ms : List Member),
      x.dst = d ∧ (Instr.vote x).wf = true ∧ CrewIssues s x.crew ms ∧ ms.length = 2 := by
  refine ⟨⟨⟨c7, true, .up, .v 2, .v 4, .reg (.v 1), .id 5⟩, _, _, rfl, crewIssues _, rfl,
    eachMember (P := fun t => UntypedSrc t false (.reg (.v 1))) (untyped (o := .v 1) (by decide))
      (untyped (o := .v 1) (by decide))⟩, ?_⟩
  intro d hd
  refine ⟨⟨c7, d, 0, .cur⟩, _, _, rfl, ?_, crewIssues _, rfl⟩
  revert d
  decide

theorem test_meets_ReductionsAndScans :
    (∃ (x : CredOp) (s : State) (ms : List Member), (Instr.cred x).wf = true ∧ CrewIssues s x.crew ms ∧
      ms ≠ [] ∧ (∀ m ∈ ms, Tagged m.2.2 (RedTy.tag x.ty) x.ty.wide x.a)) ∧
    (∃ (x : CscanOp) (s : State) (ms : List Member), (Instr.cscan x).wf = true ∧ CrewIssues s x.crew ms ∧
      x.excl = true ∧ (∀ m ∈ ms, Tagged m.2.2 (RedTy.tag x.ty) x.ty.wide x.a)) ∧
    ∃ (ty : RedTy) (a : Nat), RedTy.isFloat ty = false ∧ a < 2 ^ RedTy.width ty ∧ a = 2 ^ 64 - 1 :=
  ⟨⟨⟨c7, .f32, .add, .v 2, .v 8, .id 5⟩, _, _, rfl, crewIssues _, by decide,
      eachMember (P := fun t => Tagged t 0x20 false (.v 8)) (tagged (by decide)) (tagged (by decide))⟩,
    ⟨⟨c7, .s64, true, .min, .zero, .v 2, .id 5⟩, _, _, rfl, crewIssues _, rfl,
      eachMember (P := fun t => Tagged t 0 true (.v 2)) (tagged (by decide)) (tagged (by decide))⟩,
    ⟨.s64, 2 ^ 64 - 1, rfl, by decide, rfl⟩⟩

/-- A barrier with a count and arrivals, and a second thread that waits on its phase. -/
def sBar (b : Barrier) : State :=
  (withCourse (on tInt) fun c => { c with bars := c.bars.set 15 b }).setThread id1
    { t0 with await := .barrier 15 0xFF }

theorem aloneBar (b : Barrier) : Alone (sBar b) id0 tInt c7 := ⟨⟨⟨⟨0, 0, [id0], false⟩, rfl, rfl⟩, by decide⟩, rfl, rfl⟩

/-- An arrival that is the last of 4095, one that is not, a token of the current phase and of another; a
barrier that nothing uses. -/
theorem test_meets_CountersAndBarriers :
    (∀ b ∈ [(⟨0xFF, 4094, 4095⟩ : Barrier), ⟨0xFF, 0, 4095⟩, ⟨0xFE, 0, 1⟩], ∃ co, Alone (sBar b) id0 tInt c7 ∧
      tInt.await = .ready ∧ (sBar b).course (courseOf id0) = some co ∧ co.bars[15] = b ∧
      ((sBar b).threads.map (·.1)).Nodup ∧ (∀ j, (sBar b).stepping j = false) ∧ b.expected ≠ 0 ∧
      Untyped tInt false (.v 1) ∧ (tInt.reg (.v 1)).bits.extractLsb' 24 8 = 0xFF ∧
      ((sBar b).die (coreDie ((sBar b).coreOf id0))).purlin.length < 8192) ∧
    (∃ (x : BinitOp) (s : State) (t : Thread), Alone s id0 t x.ctl ∧ UntypedSrc t false x.b ∧
      t.word x.b = 4095 ∧ s.barrierWaiters (courseOf id0) x.bar = [] ∧
      s.barrierBusy (courseOf id0) x.bar = false ∧ (s.barrier (courseOf id0) x.bar).arrived = 0) ∧
    ∃ x : BarvOp, (Instr.barv x).wf = true := by
  refine ⟨?_, ⟨⟨c7, 0, .imm 4095⟩, on t0, t0, alone _ (by decide), trivial, rfl, rfl, rfl, rfl⟩,
    ⟨⟨c7, .v 1, 15⟩, rfl⟩⟩
  intro b hb
  refine ⟨_, aloneBar b, rfl, rfl, by simp, (by decide : [id0, id1].Nodup), noStep rfl, ?_,
    untyped (by decide), by decide, ?_⟩
  · revert b
    decide
  · revert b
    decide

/-! ### Copies -/

/-- A record: FP32 elements at 0x1000, extent 4, box 4. -/
def tlr : BitVec 512 :=
  0x800000000000000000000000012000000000030000000000000000000000000000000000000000000000000000000000000000000000040000000000001000

/-- A record address in v2:v3, a coordinate in v4, a scratchpad address in v5, the length of a page in v6. -/
def tCopy (a x c : Word) : Thread :=
  regs [(2, ⟨a, 0⟩), (3, ⟨0, 0⟩), (4, ⟨x, 0⟩), (5, ⟨c, 0⟩), (6, ⟨0x10000, 0⟩), (7, ⟨0, 0x20⟩), (8, ⟨0, 0⟩), (9, ⟨0, 0⟩)]

/-- The record at 0x400, 64 bytes of scratchpad, barrier 15 with a count of 1. -/
def sCopy (t : Thread) : State :=
  { withCourse (sMem t) fun c => { c with bars := c.bars.set 15 ⟨0, 0, 1⟩ } with
    mem := memWriteN placedTables 0x400 (toLE tlr.toNat 64) }

theorem aloneCopy (t : Thread) (h : t.guard c7 = true) : Alone (sCopy t) id0 t c7 :=
  ⟨⟨⟨⟨0, 0, [id0], false⟩, rfl, rfl⟩, by decide⟩, rfl, h⟩

theorem copyRoom (t : Thread) (h : t.copies < 63) : CopyRoom (sCopy t) id0 t := ⟨(by decide : 0 < 32), h⟩

/-- An accepted check by evaluation. -/
theorem checked {e : Except Trap Checked} {p : CopyReq → Bool}
    (h : (match e with | .ok (.ok r _) => p r | _ => false) = true) : ∃ r s1, e = .ok (.ok r s1) ∧ p r = true := by
  split at h
  · exact ⟨_, _, rfl, h⟩
  · cases h

def isNoshadow : Option Target → Bool
  | some .noshadow => true
  | _ => false

theorem isNoshadow_eq {x : Option Target} (h : isNoshadow x = true) : x = some .noshadow := by
  unfold isNoshadow at h
  split at h
  · rfl
  · cases h

theorem test_meets_CopiesAreAccepted :
    (∃ (w : BitVec 512) (co : List Int) (ks : List Nat), 0 < (Tlr.read w).ndims ∧ (Tlr.read w).ndims ≤ 5 ∧
      co.length = (Tlr.read w).ndims ∧ ks.length = (Tlr.read w).ndims ∧
      (∀ i < (Tlr.read w).ndims, ks.getD i 0 < (Tlr.read w).box.getD i 0) ∧
      co.getD 0 0 + (ks.getD 0 0 : Nat) = -1) ∧
    (∃ (t : Thread) (y : CopyOp) (r : CopyReq) (s1 : State), Alone (sCopy t) id0 t y.ctl ∧ CopyRoom (sCopy t) id0 t ∧
      (sCopy t).checkCopy id0 t (CopyOp.command y .cpy) = .ok (.ok r s1) ∧ r.side = .scratch 48 ∧ r.bytes = 16 ∧
      (sCopy t).rangeHeld (courseOf id0) 48 16 true = false) ∧
    (∃ t : Thread, Alone (sCopy t) id0 t c7 ∧ CopyRoom (sCopy t) id0 t ∧ ¬ Tagged t 0 true (.v 6)) ∧
    (∃ t : Thread, Alone (sCopy t) id0 t c7 ∧ CopyRoom (sCopy t) id0 t ∧ Tagged t 0 true (.v 2) ∧
      ¬ Tagged t 0 false (.v 7)) ∧
    (∃ t : Thread, Alone (sCopy t) id0 t c7 ∧ CopyRoom (sCopy t) id0 t ∧ Tagged t 0 true (.v 2) ∧
      Tagged t 0 false (.v 5) ∧ Tagged t 0 false (.v 4) ∧
      ((sCopy t).barrier (courseOf id0) 0).expected = 0 ∧ ((sCopy t).barrier (courseOf id0) 15).expected ≠ 0 ∧
      (t.pair (.v 2)).toNat % 64 = 63) ∧
    (∃ (x : PublOp) (t : Thread), Alone (sCopy t) id0 t x.ctl ∧ t.copies < 63 ∧ Tagged t 0 true x.a ∧
      Tagged t 0 false x.b ∧ x.bar = some 15 ∧ ((sCopy t).barrier (courseOf id0) 15).expected ≠ 0 ∧
      (t.pair x.a).toNat % 65536 = 0 ∧ (t.reg x.b).bits.toNat = 65536) ∧
    ∃ (x : CpqOp) (s : State) (id : ThreadId) (t : Thread) (c : Course), (Instr.cpq x).wf = true ∧
      Alone s id t x.ctl ∧ s.course (courseOf id) = some c ∧ s.inflight (courseOf id) < 64 := by
  obtain ⟨r, s1, h1, h2⟩ := checked (e := (sCopy (tCopy 0x400 2 48)).checkCopy id0 (tCopy 0x400 2 48)
    (CopyOp.command ⟨c7, some 15, .v 2, .v 4, .v 5⟩ .cpy))
    (p := fun r => r.side == .scratch 48 && r.bytes == 16) (by decide +kernel)
  simp only [Bool.and_eq_true, beq_iff_eq] at h2
  refine ⟨⟨tlr, [-4], [3], by decide +kernel, by decide +kernel, by decide +kernel, by decide +kernel,
      by decide +kernel, by decide⟩,
    ⟨tCopy 0x400 2 48, ⟨c7, some 15, .v 2, .v 4, .v 5⟩, r, s1, aloneCopy _ (by decide), copyRoom _ (by decide), h1,
      h2.1, h2.2, by decide⟩,
    ⟨tCopy 0 0 0, aloneCopy _ (by decide), copyRoom _ (by decide), ?_⟩,
    ⟨tCopy 0 0 0, aloneCopy _ (by decide), copyRoom _ (by decide), tagged (by decide), ?_⟩,
    ⟨tCopy 0x43F 0 0, aloneCopy _ (by decide), copyRoom _ (by decide), tagged (by decide), tagged (by decide),
      tagged (by decide), by decide, by decide, by decide⟩,
    ⟨⟨c7, some 15, true, .v 2, .v 6⟩, tCopy 0 0 0, aloneCopy _ (by decide), by decide, tagged (by decide),
      tagged (by decide), rfl, by decide, by decide, by decide⟩,
    ⟨⟨c7, true, .v 1⟩, sCopy t0, id0, t0, _, rfl, aloneCopy _ (by decide), rfl, by decide⟩⟩
  · rintro (h | ⟨_, h⟩)
    · cases h
    · exact absurd (h rfl) (by decide)
  · rintro (h | ⟨h, _⟩)
    · cases h
    · exact absurd h (by decide)

/-- Page tables: stage 2 the identity on the first gigabyte; stage 1 a shadowed pair of frames for page 0 and
a plain frame for page 1. -/
def tables : Memory :=
  [(0x100000, 0x110001), (0x110000, 0xC0F), (0x120000, 0x130001), (0x130000, 0x140001), (0x140000, 0x150001),
    (0x150000, 0x800000000020040F), (0x150008, 0x22040F)].foldl (fun m p => memWriteN m p.1 (toLE p.2 8)) []

/-- A copy or publication in flight under number 5. -/
def sCopyOp (c : CopyReq) : State :=
  { (live (sCopy t0)).setOp 5 (op0 (.copy c)) with mem := tables }

/-- The same record with its elements on page 1. -/
def tlrPlain : BitVec 512 := tlr + 0xF000

def reqCpy : CopyReq := ⟨.cpy, some 15, [tlrPlain], [2], 0, .scratch 48, 16, some (0, tables), [], 0, 0, false, false⟩

def reqCpyo : CopyReq := { reqCpy with kind := .cpyo }

theorem test_meets_CopiesRetire :
    (∀ c : CopyReq, (sCopyOp c).op 5 = some (op0 (.copy c)) ∧
      (sCopyOp c).thread id0 = some t0 ∧ t0.await = .ready ∧ ((sCopyOp c).course (courseOf id0)).isSome = true ∧
      (∀ j, (sCopyOp c).stepping j = false) ∧ (sCopyOp c).mayRegister ⟨0, 0⟩ = true ∧ (sCopyOp c).past = []) ∧
    (∃ c : CopyReq, c.seen = some (0, tables)) ∧
    (∃ (c : CopyReq) (r : Tlr) (a : Nat) (ets sts : List (Option Target)) (vs ks : List (List Byte)) (p q : Bool)
      (s s1 s2 s3 s4 : State), s = sCopyOp c ∧ c.kind = .cpy ∧ c.recs.map Tlr.read = [r] ∧ c.side = .scratch a ∧
      s.copyTargets (fun s va => s.copySource 0 0 (pagePieces va (2 ^ r.esize))) (r.addrs (c.coords.map (·.toInt))).1 =
        (.ok ets, s1) ∧
      s1.copyTargets (fun s va => s.copySource 0 0 [(va, 1)]) (r.addrs (c.coords.map (·.toInt))).2 = (.ok sts, s2) ∧
      s2.copyValues 0 c (2 ^ r.esize) (r.fill % 2 ^ (8 * 2 ^ r.esize)) ets = (vs, p, s3) ∧
      s3.copyValues 0 c 1 (r.fill / 256 % 256) sts = (ks, q, s4)) ∧
    (∃ (c : CopyReq) (r : Tlr) (es ss : List (Option Target)) (s s1 s2 : State), s = sCopyOp c ∧ c.kind = .cpyo ∧
      c.recs.map Tlr.read = [r] ∧
      s.copyTargets (fun s va => s.copyDest 0 (pagePieces va (2 ^ r.esize))) (r.addrs (c.coords.map (·.toInt))).1 =
        (.ok es, s1) ∧
      s1.copyTargets (fun s va => s.copyDest 0 (pagePieces va 1)) (r.addrs (c.coords.map (·.toInt))).2 =
        (.ok ss, s2) ∧
      (∀ x ∈ es ++ ss, x = none ∨ x = some .noshadow) ∧ some .noshadow ∈ es ++ ss) ∧
    (∃ c : CopyReq, c.kind = .publ ∧ c.flipped = true ∧ c.keep = false) ∧
    (∃ c : CopyReq, c.kind = .publ ∧ c.flipped = false ∧ (sCopyOp c).cpyoBefore ⟨0, 0⟩ 5 c = false ∧
      (sCopyOp c).shadowLeaves 0 c c.pages [] = .ok none) ∧
    (∃ c : CopyReq, c.kind = .publ ∧ c.flipped = false ∧ (sCopyOp c).cpyoBefore ⟨0, 0⟩ 5 c = false ∧
      (sCopyOp c).shadowLeaves 0 c c.pages [] = .ok (some [(0x150000, 0)]) ∧
      OwnUnit (sCopyOp c) 0 (0x150001 / 64) ∧ memWf (sCopyOp c).mem = true) := by
  obtain ⟨ets, s1, h1, -⟩ := okPair (p := fun _ => true) (x := (sCopyOp reqCpy).copyTargets
    (fun s va => s.copySource 0 0 (pagePieces va (2 ^ (Tlr.read tlrPlain).esize))) ((Tlr.read tlrPlain).addrs (reqCpy.coords.map (·.toInt))).1)
    (by decide +kernel)
  have h2 : ((Tlr.read tlrPlain).addrs (reqCpy.coords.map (·.toInt))).2 = [] := by decide +kernel
  obtain ⟨ts, s2, h3, h4⟩ := okPair (p := fun ts => (ts.all fun x => x.isNone || isNoshadow x) && ts.any isNoshadow)
    (x := (sCopyOp reqCpyo).copyTargets (fun s va => s.copyDest 0 (pagePieces va (2 ^ (Tlr.read tlrPlain).esize)))
      ((Tlr.read tlrPlain).addrs (reqCpyo.coords.map (·.toInt))).1) (by decide +kernel)
  simp only [Bool.and_eq_true, List.all_eq_true, List.any_eq_true, Bool.or_eq_true, Option.isNone_iff_eq_none] at h4
  refine ⟨fun c => ⟨rfl, rfl, rfl, rfl, noStep rfl, rfl, rfl⟩, ⟨reqCpy, rfl⟩,
    ⟨reqCpy, Tlr.read tlrPlain, 48, ets, [], _, _, _, _, _, s1, s1, _, _, rfl, rfl, rfl, rfl, h1, by rw [h2]; rfl, rfl, rfl⟩,
    ⟨reqCpyo, _, ts, [], _, s2, s2, rfl, rfl, rfl, h3,
      by rw [show ((Tlr.read tlrPlain).addrs (reqCpyo.coords.map (·.toInt))).2 = [] from h2]; rfl,
      fun x hx => (h4.1 x (by simpa using hx)).imp id isNoshadow_eq, ?_⟩,
    ⟨{ reqCpy with kind := .publ, flipped := true }, rfl, rfl, rfl⟩,
    ⟨{ reqCpy with kind := .publ, base := 0x10000, len := 0x10000 }, rfl, rfl, by decide, okEq (by decide +kernel)⟩,
    ⟨{ reqCpy with kind := .publ, base := 0, len := 0x10000 }, rfl, rfl, by decide, okEq (by decide +kernel), trivial, by decide +kernel⟩⟩
  obtain ⟨x, hx, hn⟩ := h4.2
  exact List.mem_append_left _ (isNoshadow_eq hn ▸ hx)

/-! ### The matrix engine -/

/-- Slot 31 is the course's slot 0, an A operand; slot 30 its slot 1, a B operand; bank 3 its bank 3. -/
def eng (entries : List EngineEntry) : Cluster :=
  { Cluster.reset with
    slots := ((Cluster.reset.slots.set 31 ⟨some (⟨0, 0⟩, 0), [], [], 0x60, false, 0⟩).set 30
      ⟨some (⟨0, 0⟩, 1), [], [], 0x60, true, 0⟩)
    banks := Cluster.reset.banks.set 3 ⟨some (⟨0, 0⟩, 3), [(5, 7)], 1, none⟩
    entries := entries }

/-- The thread on a cluster with that engine, a tile tagged BF16 and 16,384 bytes of scratchpad; a block at
scratchpad address 16,320. -/
def sEng (t : Thread) (entries : List EngineEntry) : State :=
  { withCourse (withKd (on t) fun k => { k with scratch := 16384 }) fun c => { c with
      tiles := ⟨⟨0x60, []⟩, []⟩ :: c.tiles.drop 1,
      scratch := memWriteN [] 16320 (toLE (0x6060000000003020 : Nat) 8) } with
    clusters := [(0, eng entries)] }

theorem aloneEng (t : Thread) (es : List EngineEntry) (h : t.guard c7 = true) : Alone (sEng t es) id0 t c7 :=
  ⟨⟨⟨⟨0, 0, [id0], false⟩, rfl, rfl⟩, by decide⟩, rfl, h⟩

/-- v1 0, v2 the last address of an operand, v3 that of a block, v4 3, v5 120, v6 128. -/
def tEng : Thread :=
  regs [(1, ⟨0, 0⟩), (2, ⟨8192, 0⟩), (3, ⟨16320, 0⟩), (4, ⟨3, 0⟩), (5, ⟨120, 0⟩), (6, ⟨128, 0⟩)]

/-- A MACC entry whose write cycle is due, a pass and an MZERO. -/
def eMacc : EngineEntry := ⟨7, id0, 0, 0, 0, true, .macc 0 3 120 8 true, 0, 0, 0, 0, some 0, []⟩

def ePass : EngineEntry := ⟨7, id0, 0, 0, 0, true, .pass (BitVec.ofNat 512 0x3020) (some 15), 0, 0, 0, 0, some 0, []⟩

def eZero : EngineEntry := ⟨7, id0, 0, 0, 0, true, .mzero 8, 0, 0, 0, 0, some 0, []⟩

/-- Another course holds bank 2, so that two are free where three could be had. -/
def sClaimWait : State :=
  { sEng tEng [] with clusters := [(0, { eng [] with banks := (eng []).banks.set 2 ⟨some (⟨0, 1⟩, 0), [], 0, none⟩ })] }

/-- What a thread at MCLM is while it waits for three banks. -/
def claimWaiter : Thread := { tEng with await := .claim true 3 (.v 9) sClaimWait.gts }

theorem claimWait_enters : ∃ s1, sClaimWait.enterWait id0 (.engine 0 true) = .entered s1 ∧
    (s1.setThread id0 claimWaiter).closesCycle id0 (.engine 0 true) = none := by
  have h : (match sClaimWait.enterWait id0 (.engine 0 true) with
    | .entered s1 => ((s1.setThread id0 claimWaiter).closesCycle id0 (.engine 0 true)).isNone
    | _ => false) = true := by decide +kernel
  split at h
  · rename_i s1 hs
    exact ⟨s1, hs, Option.isNone_iff_eq_none.1 h⟩
  · cases h

/-- As many slots and banks as are free; no slot, all, one more and more than there are; a claim that could never
be had, and one that waits; ids that are held and one that is not. -/
theorem test_meets_EngineClaims :
    (∃ (c : Cluster) (n : Nat), n ≤ (c.freeOf false).length ∧ n = 30) ∧
    (∃ (c : Cluster) (n : Nat), n ≤ (c.freeOf true).length ∧ n = 3) ∧
    (∀ w ∈ [(0 : Word), 30, 31, 33], ∃ x : MclmOp, (Instr.mclm x).wf = true ∧ Alone (sEng tEng []) id0 tEng x.ctl ∧
      UntypedSrc tEng false x.b ∧ tEng.word x.b = w.toNat ∧ x.acc = false ∧ x.wait = false ∧
      ((sEng tEng []).cluster ((sEng tEng []).clusterOf id0)).freeOf false = List.range 30) ∧
    (∃ x : MclmOp, (Instr.mclm x).wf = true ∧ x.wait = true ∧ tEng.word x.b = 31) ∧
    (∃ (x : MclmOp) (s : State), (Instr.mclm x).wf = true ∧ Alone s id0 tEng x.ctl ∧ UntypedSrc tEng false x.b ∧
      x.wait = true ∧ tEng.word x.b = 3 ∧ 3 ≤ capOf x.acc - ((s.cluster (s.clusterOf id0)).held (courseOf id0) x.acc).length ∧
      ((s.cluster (s.clusterOf id0)).freeOf x.acc).length < 3 ∧
      ∃ s1, s.enterWait id0 (.engine (s.clusterOf id0) x.acc) = .entered s1 ∧
        (s1.setThread id0 { tEng with await := .claim x.acc 3 x.d s.gts }).closesCycle id0
          (.engine (s.clusterOf id0) x.acc) = none) ∧
    (∃ x : MrelOp, Alone (sEng tEng []) id0 tEng x.ctl ∧ UntypedSrc tEng false x.b ∧ x.acc = true ∧
      tEng.word x.b = 9 ∧ (∀ i < 32, (sEng tEng []).idBusy 0 (courseOf id0) true i = false)) ∧
    (∃ x : MrelOp, UntypedSrc tEng false x.b ∧ x.acc = false ∧ tEng.word x.b = 3 ∧
      (∀ i < 2, ((eng []).held ⟨0, 0⟩ false).any (fun p => p.1 == i) = true) ∧
      (sEng tEng []).claimWaits 0 false = [] ∧ (sEng tEng []).clusterOf id0 < 208) := by
  refine ⟨⟨eng [], 30, by decide, rfl⟩, ⟨eng [], 3, by decide, rfl⟩, ?_,
    ⟨⟨b7, false, true, .v 9, .imm 31⟩, rfl, rfl, rfl⟩,
    ⟨⟨b7, true, true, .v 9, .imm 3⟩, sClaimWait, rfl, ⟨⟨⟨⟨0, 0, [id0], false⟩, rfl, rfl⟩, by decide⟩, rfl, by decide⟩,
      trivial, rfl, rfl, by decide, by decide, claimWait_enters⟩,
    ⟨⟨c7, true, .imm 9⟩, aloneEng _ _ (by decide), trivial, rfl, rfl, by decide⟩,
    ⟨⟨c7, false, .reg (.v 4)⟩, untyped (o := .v 4) (by decide), rfl, rfl, by decide, rfl, by decide⟩⟩
  intro w hw
  exact ⟨⟨c7, false, false, .v 9, .imm w⟩, rfl, aloneEng _ _ (by decide), trivial, rfl, rfl, rfl, by decide⟩

theorem test_meets_SlotsAreLoaded :
    (∃ (s : State) (t : Thread) (k : KDesc) (co : Course) (g : Issue) (x : MldsOp),
      Alone s id0 t x.ctl ∧ s.issue = some g ∧ s.rangeEntries g.core < 32 ∧ t.tileOps < 63 ∧
      s.kdesc id0.launch = some k ∧ s.course (courseOf id0) = some co ∧ Untyped t false x.d ∧
      (t.reg x.d).bits.toNat < 32 ∧
      ((s.cluster (s.clusterOf id0)).physOf (courseOf id0) false (t.reg x.d).bits.toNat).isSome = true ∧
      (∀ e ∈ (s.cluster (s.clusterOf id0)).entries, courseOf e.th = courseOf id0 →
        (t.reg x.d).bits.toNat ∉ e.kind.slotIds) ∧ x.a = .t 0 ∧ (s.readTile id0 0).tag = x.fmt) ∧
    (∃ (s : State) (t : Thread) (x : MldsOp), Alone s id0 t x.ctl ∧ x.a = .v 2 ∧ Untyped t false x.a ∧
      (t.reg x.a).bits.toNat % 16 = 0 ∧ (t.reg x.a).bits.toNat + 8192 = s.scratchBytes id0 ∧ tagClass x.fmt ≠ 6 ∧
      s.rangeHeld (courseOf id0) (t.reg x.a).bits.toNat 8192 false = false) ∧
    ∃ (s : State) (n slot : Nat) (o : Op) (roleB : Bool) (fmt : Tag) (elems scales : Memory) (src : CopySide)
      (t : Thread) (p : Fin 32),
      s.op n = some o ∧ o.kind = .mlds slot roleB fmt elems scales src ∧ o.due ≤ s.cycle ∧
      s.thread o.th = some t ∧ t.await = .ready ∧ s.clusterOf o.th < 208 ∧
      (s.cluster (s.clusterOf o.th)).physOf (courseOf o.th) false slot = some p.val :=
  ⟨⟨sEng tEng [], tEng, _, _, _, ⟨c7, true, 0x60, .v 1, .t 0⟩, aloneEng _ _ (by decide), rfl, by decide, by decide,
      rfl, rfl, untyped (by decide), by decide, by decide, by decide, rfl, by decide⟩,
    ⟨sEng tEng [], tEng, ⟨c7, false, 0x60, .v 1, .v 2⟩, aloneEng _ _ (by decide), rfl, untyped (by decide),
      by decide, by decide, by decide, by decide⟩,
    ⟨(sEng t0 []).setOp 5 (op0 (.mlds 0 true 0xB3 [] [] (.tile 0))), 5, 0, _, _, _, _, _, _, t0, 31,
      rfl, rfl, by decide, rfl, rfl, by decide, by decide⟩⟩

theorem test_meets_EntriesArePosted :
    (∃ (s : State) (t : Thread) (k : KDesc) (co : Course) (g : Issue), Alone s id0 t c7 ∧ s.issue = some g ∧
      t.tileOps < 63 ∧ s.kdesc id0.launch = some k ∧ s.course (courseOf id0) = some co ∧ s.clusterOf id0 < 208 ∧
      (s.cluster (coreCluster g.core)).entries.length < 32 ∧ Untyped t false (.v 3) ∧
      (t.reg (.v 3)).bits.toNat % 64 = 0 ∧ (t.reg (.v 3)).bits.toNat + 64 = s.scratchBytes id0 ∧
      s.rangeHeld (courseOf id0) (t.reg (.v 3)).bits.toNat 64 false = false ∧
      (let e := s.cluster (s.clusterOf id0)
       let b := leNat (memReadN co.scratch (t.reg (.v 3)).bits.toNat 64)
       let sa := e.slotOf (courseOf id0) (b % 32)
       let sb := e.slotOf (courseOf id0) (b / 32 % 32)
       (e.physOf (courseOf id0) false (b % 32)).isSome = true ∧
         (e.physOf (courseOf id0) false (b / 32 % 32)).isSome = true ∧
         (e.physOf (courseOf id0) true (b / 4096 % 4)).isSome = true ∧
         sa.roleB = false ∧ sb.roleB = true ∧ sa.tag = 0x60 ∧ sb.tag = 0x60 ∧
         sa.tag.toNat = b / 2 ^ 48 % 256 ∧ sb.tag.toNat = b / 2 ^ 56 % 256 ∧ b / 2 ^ 64 % 2 ^ 320 = 0 ∧
         b / 2 ^ 16 % 2 ^ 32 = 0 ∧ b / 2 ^ 10 % 4 = 0 ∧ b / 2 ^ 14 % 4 = 0 ∧
         (e.physOf (courseOf id0) true 0).isSome = false)) ∧
    (∃ x : MaccOp, x.ctl = c7 ∧ x.d = .t 7 ∧ Untyped tEng false x.a ∧ Untyped tEng false x.b ∧
      (tEng.reg x.b).bits.toNat = 120 ∧ ((eng []).physOf ⟨0, 0⟩ true (tEng.reg x.a).bits.toNat).isSome = true) ∧
    (∃ x : MaccOp, x.ctl = c7 ∧ Untyped tEng false x.b ∧ (tEng.reg x.b).bits.toNat = 128) ∧
    (∃ x : MaccOp, (tEng.reg x.b).bits.toNat = 120 ∧
      ((eng []).physOf ⟨0, 0⟩ true (tEng.reg x.a).bits.toNat).isSome = false) ∧
    (∃ x : BOp, x.ctl = c7 ∧ UntypedSrc tEng false x.b ∧ tEng.word x.b = 16) ∧
    ∃ x : BOp, UntypedSrc tEng false x.b ∧ tEng.word x.b = 8 ∧ ∀ i < 4, (8 : Nat).testBit i = true →
      ((eng []).physOf ⟨0, 0⟩ true i).isSome = true :=
  ⟨⟨sEng tEng [], tEng, _, _, _, aloneEng _ _ (by decide), rfl, by decide, rfl, rfl, by decide, by decide,
      untyped (by decide), by decide, by decide, by decide, by decide +kernel⟩,
    ⟨⟨c7, true, .t 7, .v 4, .v 5⟩, rfl, rfl, untyped (by decide), untyped (by decide), rfl, by decide⟩,
    ⟨⟨c7, true, .t 7, .v 4, .v 6⟩, rfl, untyped (by decide), rfl⟩, ⟨⟨c7, true, .t 7, .v 1, .v 5⟩, rfl, by decide⟩,
    ⟨⟨c7, .imm 16⟩, rfl, trivial, rfl⟩, ⟨⟨c7, .imm 8⟩, trivial, rfl, by decide⟩⟩

theorem test_meets_EngineGrants :
    ∀ e ∈ [{ ePass with write := none }, { eMacc with write := none }, { eZero with write := none }],
      (0 : Nat) < 208 ∧ ((live (sEng t0 [e])).cluster 0).grantFrom ≤ (live (sEng t0 [e])).cycle ∧
      leastBy (live (sEng t0 [e])).grantBefore (((live (sEng t0 [e])).cluster 0).entries.filter ((live (sEng t0 [e])).eligible 0)) = some e ∧
      (((live (sEng t0 [e])).cluster 0).entries.map (·.id)).Nodup := by
  decide +kernel

theorem test_meets_EngineEntriesWrite :
    (∃ (b : Nat) (sa : EngineSlot) (i n : Nat), i < 128 ∧ n < 128 ∧ sa.tag = 0x20 ∧ n / 32 ≠ b / 2 ^ 14 % 4) ∧
    (∃ (b : Nat) (sa : EngineSlot) (i n : Nat), i < 128 ∧ n < 128 ∧ n / 32 = b / 2 ^ 14 % 4 ∧ i = 127 ∧ sa.tag = 0x20) ∧
    (∃ sa : EngineSlot, tagClass sa.tag = 6 ∧ scaleOf sa 0 = 255) ∧
    (∃ (b : Nat) (sa sb : EngineSlot), sa.tag = 0x60 ∧ (∀ k < 2, (valueOf (elemA b sa 0 k)).isSome = true ∧
      (valueOf (elemB sa sb k 127)).isSome = true) ∧ scaleOf sa 0 = 127 ∧ scaleOf sb 0 = 127) ∧
    (∀ e ∈ [ePass, eMacc, eZero], ((sEng t0 [e]).cluster 0).entries.find? (fun x => x.id == e.id) = some e ∧
      e.write = some 0 ∧ 0 ≤ (sEng t0 [e]).cycle ∧ (0 : Nat) < 208 ∧ (sEng t0 [e]).thread e.th = some t0 ∧
      t0.await = .ready ∧ ((sEng t0 [e]).course (courseOf e.th)).isSome = true ∧
      ((sEng t0 [e]).cluster 0).physOf (courseOf e.th) true 3 = some 3 ∧
      ((sEng t0 [e]).tileReg e.th 0).isSome = true) ∧
    (∀ e j, (sEng t0 [e]).stepping j = false) ∧
    ((0x3020 : BitVec 512).toNat / 4096 % 4 = 3) ∧ (8 : BitVec 4).getLsbD 3 = true :=
  ⟨⟨0, { EngineSlot.reset with tag := 0x20 }, 0, 32, by decide, by decide, rfl, by decide⟩,
    ⟨0, { EngineSlot.reset with tag := 0x20 }, 127, 31, by decide, by decide, rfl, rfl, rfl⟩,
    ⟨{ EngineSlot.reset with tag := 0xD3, scales := memWriteN [] 0 [0xFF] }, by decide, by decide⟩,
    ⟨0, { EngineSlot.reset with tag := 0x60 }, { EngineSlot.reset with tag := 0x60 }, rfl, by decide +kernel, rfl, rfl⟩,
    by decide +kernel, fun e => noStep rfl, by decide +kernel, by decide⟩

/-! ### Traversal and closures -/

/-- A ray span of FP32 in v8 to v16, an answer span in v20 to v24, a record address in v2:v3, a work area in
v4:v5. -/
def tRay (a : Word) (area : Word := 0x1000) : Thread :=
  regs ([(2, ⟨a, 0⟩), (3, ⟨0, 0⟩), (4, ⟨area, 0⟩), (5, ⟨0, 0⟩)] ++
    (List.range 8).map (fun i => (i + 8, (⟨0x3F800000, 0x20⟩ : VReg))) ++ [(16, ⟨0, 0⟩)] ++
    (List.range 3).map (fun i => (i + 20, (⟨0, 0x20⟩ : VReg))) ++ [(23, ⟨0, 0⟩), (24, ⟨0, 0⟩)])

theorem taggedSpan {t : Thread} {g : Tag} {o : Opd} {n : Nat}
    (h : ((List.range n).all fun i => Opd.plus o i == .zero || (t.reg (Opd.plus o i)).tag == g) = true) :
    TaggedSpan t g o n := by
  intro i hi
  have := List.all_eq_true.1 h i (List.mem_range.2 hi)
  simp only [Bool.or_eq_true, beq_iff_eq] at this
  exact this.imp id fun h => ⟨h, fun hw => by cases hw⟩

/-- Records at the alignment of each kind, a work area, and records and an area that are not aligned. -/
theorem test_meets_TraversalsAreAccepted :
    (∃ t, Alone (on t) id0 t c7 ∧ t.loads < 63 ∧ Tagged t 0 true (.v 2) ∧ RayTags t false (.v 8) ∧
      Tagged t 0 true (.v 4) ∧ (∃ hdr s1, (on t).recordAt id0 t (t.pair (.v 2)) 64 4 (.v 20) = .ok (hdr, s1)) ∧
      (∃ hdr s1 s2, (on t).recordAt id0 t (t.pair (.v 2)) 64 4 (.v 20) = .ok (hdr, s1) ∧
        s1.checkArea id0 (t.pair (.v 4)) (.v 20) = .ok s2)) ∧
    (∃ t, Alone (on t) id0 t c7 ∧ Tagged t 0 true (.v 2) ∧ RayTags t false (.v 8) ∧ AnswerTags t false (.v 20) ∧
      TaggedSpan t 0 (Opd.plus (.v 20) 3) 2 ∧ (t.pair (.v 2)).toNat % 64 ≠ 0 ∧ (t.pair (.v 2)).toNat % 16 ≠ 0) ∧
    (∃ t, Alone (on t) id0 t c7 ∧ Tagged t 0 true (.v 2) ∧ RayTags t false (.v 8) ∧ Tagged t 0 true (.v 4) ∧
      AnswerTags t false (.v 20) ∧ (t.pair (.v 4)).toNat % 64 ≠ 0 ∧
      ∃ hdr s1, (on t).recordAt id0 t (t.pair (.v 2)) 64 4 (.v 20) = .ok (hdr, s1)) ∧
    (∃ t s1, Alone (on t) id0 t c7 ∧ AnswerTags t false (.v 20) ∧ Tagged t 0 true (.v 4) ∧
      (on t).checkArea id0 (t.pair (.v 4)) (.v 20) = .ok s1) ∧
    (∃ t, Alone (on t) id0 t c7 ∧ AnswerTags t false (.v 20) ∧ TaggedSpan t 0 (Opd.plus (.v 20) 3) 2 ∧
      (HitSpan.read false (t.spanWords (.v 20) 5)).kind = 0 ∧
      (∃ r s1, (on t).recordAt id0 t (t.pair (.v 2)) 16 3 (.v 30) = .ok (r, s1)) ∧
      ∃ r s1, (on t).recordAt id0 t (t.pair (.v 2)) 64 4 (.v 30) = .ok (r, s1)) ∧
    ∃ t, Alone (on t) id0 t c7 ∧ Tagged t 0 true (.v 2) ∧ RayTags t false (.v 8) ∧
      ∃ r s1, (on t).recordAt id0 t (t.pair (.v 2)) 64 8 (.v 30) = .ok (r, s1) := by
  obtain ⟨⟨h1, s1⟩, e1⟩ := okOf (x := (on (tRay 0x40)).recordAt id0 (tRay 0x40) ((tRay 0x40).pair (.v 2)) 64 4 (.v 20))
    (by decide +kernel)
  obtain ⟨h2, s2, s3, e2, e3⟩ := okThen
    (x := (on (tRay 0x40)).recordAt id0 (tRay 0x40) ((tRay 0x40).pair (.v 2)) 64 4 (.v 20))
    (f := fun _ s => s.checkArea id0 ((tRay 0x40).pair (.v 4)) (.v 20)) (by decide +kernel)
  obtain ⟨s4, e4⟩ := okOf (x := (on (tRay 0)).checkArea id0 ((tRay 0).pair (.v 4)) (.v 20)) (by decide +kernel)
  obtain ⟨⟨h5, s5⟩, e5⟩ := okOf (x := (on (tRay 0x40)).recordAt id0 (tRay 0x40) ((tRay 0x40).pair (.v 2)) 16 3 (.v 30))
    (by decide +kernel)
  obtain ⟨⟨h6, s6⟩, e6⟩ := okOf (x := (on (tRay 0x40)).recordAt id0 (tRay 0x40) ((tRay 0x40).pair (.v 2)) 64 4 (.v 30))
    (by decide +kernel)
  obtain ⟨⟨h7, s7⟩, e7⟩ := okOf (x := (on (tRay 0x40)).recordAt id0 (tRay 0x40) ((tRay 0x40).pair (.v 2)) 64 8 (.v 30))
    (by decide +kernel)
  obtain ⟨⟨h8, s8⟩, e8⟩ := okOf (x := (on (tRay 0x40 0x1020)).recordAt id0 (tRay 0x40 0x1020)
    ((tRay 0x40 0x1020).pair (.v 2)) 64 4 (.v 20)) (by decide +kernel)
  exact ⟨⟨tRay 0x40, alone _ (by decide), by decide, tagged (by decide), ⟨taggedSpan (by decide), tagged (by decide)⟩,
      tagged (by decide), ⟨h1, s1, e1⟩, h2, s2, s3, e2, e3⟩,
    ⟨tRay 0x28, alone _ (by decide), tagged (by decide), ⟨taggedSpan (by decide), tagged (by decide)⟩,
      taggedSpan (by decide), taggedSpan (by decide), by decide, by decide⟩,
    ⟨tRay 0x40 0x1020, alone _ (by decide), tagged (by decide), ⟨taggedSpan (by decide), tagged (by decide)⟩,
      tagged (by decide), taggedSpan (by decide), by decide, h8, s8, e8⟩,
    ⟨tRay 0, s4, alone _ (by decide), taggedSpan (by decide), tagged (by decide), e4⟩,
    ⟨tRay 0x40, alone _ (by decide), taggedSpan (by decide), taggedSpan (by decide), by decide, ⟨h5, s5, e5⟩, h6, s6, e6⟩,
    tRay 0x40, alone _ (by decide), tagged (by decide), ⟨taggedSpan (by decide), tagged (by decide)⟩, h7, s7, e7⟩
/-- An operation of the thread in flight under number 5. -/
def sUnit (k : OpKind) : State := (on t0).setOp 5 (op0 k)

/-- Two unit vectors along z. -/
def alongZ : List Word := [0, 0, 0x3F800000, 0, 0, 0x3F800000]

/-- A conductor with its table at this address, in units of 2,048 bytes. -/
def condAt (tab : Nat) : KReg := kNode weightOne 2 false (0x3F000000 * 2 ^ 91 + tab * 2 ^ 48)

/-- The same operation with lines that cannot be read. -/
def sPoison (k : OpKind) (lines : List Nat) : State := { sUnit k with poisoned := lines }

/-- An asphere test, TRACEC over an unmapped area, and evaluations of an empty tree and of a table that no page
maps or that is poisoned. -/
theorem test_meets_UnitOperationsComplete_operations :
    (∀ k ls, (sPoison k ls).op 5 = some (op0 k) ∧ (sPoison k ls).thread id0 = some t0 ∧ t0.await = .ready) ∧
    (∃ (s : State) (i : Instr) (r : Completion), s = sUnit (.traverse i 0 0 [] []) ∧
      s.traverseDone (op0 (.traverse i 0 0 [] [])) t0.acqTs i 0 0 [] [] = .ok r ∧ r.s.overflowed [id0] = [] ∧
      r.s.thread id0 = some t0) ∧
    (∃ (s : State) (i : Instr) (hv : Bool) (cause va : Nat) (w : Option Walk) (s1 : State),
      s = sUnit (.traverse i 0 0x40000000 [] []) ∧
      s.traverseDone (op0 (.traverse i 0 0x40000000 [] [])) t0.acqTs i 0 0x40000000 [] [] =
        .error (.fault hv cause va, w, s1) ∧
      s1.op 5 = some (op0 (.traverse i 0 0x40000000 [] [])) ∧ s1.thread id0 = some t0) ∧
    (∃ (s : State) (i : Instr) (ks : List KReg) (r : Completion), s = sUnit (.closure i ks alongZ) ∧
      s.closureDone ⟨id0, t0.acqTs, 5⟩ i ks alongZ = .ok r ∧ r.s.thread id0 = some t0) ∧
    (∃ (s : State) (i : Instr) (ks : List KReg) (hv : Bool) (cause va : Nat) (s1 : State),
      s = sUnit (.closure i ks alongZ) ∧
      s.closureDone ⟨id0, t0.acqTs, 5⟩ i ks alongZ = .error (.fault hv cause va, s1) ∧
      (s1.op 5).isSome = true ∧ s1.thread id0 = some t0) ∧
    (∃ (s : State) (i : Instr) (ks : List KReg) (st : Option Word) (s1 : State),
      s = sPoison (.closure i ks alongZ) [512] ∧
      s.closureDone ⟨id0, t0.acqTs, 5⟩ i ks alongZ = .error (.poison st, s1) ∧
      (s1.op 5).isSome = true ∧ s1.thread id0 = some t0) := by
  refine ⟨fun k ls => ⟨rfl, rfl, rfl⟩, ?_, ?_, ?_, ?_, ?_⟩
  · exact ⟨_, .asph ⟨c7, false, .v 20, .v 2, .v 8⟩, _, rfl, rfl, rfl, rfl⟩
  · exact ⟨_, .tracec ⟨c7, false, true, .v 20, .v 4⟩, false, 17, 0x40000000, none, _, rfl, rfl, rfl, rfl⟩
  · exact ⟨_, .keval ⟨c7, .v 20, .k 0, .v 8⟩, [0], _, rfl, rfl, rfl⟩
  · refine ⟨sUnit (.closure (.keval ⟨c7, .v 20, .k 0, .v 8⟩) [condAt (2 ^ 19)] alongZ),
      .keval ⟨c7, .v 20, .k 0, .v 8⟩, [condAt (2 ^ 19)], ?_⟩
    have h : (match (sUnit (.closure (.keval ⟨c7, .v 20, .k 0, .v 8⟩) [condAt (2 ^ 19)] alongZ)).closureDone
        ⟨id0, t0.acqTs, 5⟩ (.keval ⟨c7, .v 20, .k 0, .v 8⟩) [condAt (2 ^ 19)] alongZ with
      | .error (.fault _ _ _, s1) => (s1.op 5).isSome && decide (s1.thread id0 = some t0)
      | _ => false) = true := by decide +kernel
    split at h
    · rename_i hr
      simp only [Bool.and_eq_true, decide_eq_true_eq] at h
      exact ⟨_, _, _, _, rfl, hr, h⟩
    · cases h
  · refine ⟨sPoison (.closure (.keval ⟨c7, .v 20, .k 0, .v 8⟩) [condAt 32] alongZ) [512],
      .keval ⟨c7, .v 20, .k 0, .v 8⟩, [condAt 32], ?_⟩
    have h : (match (sPoison (.closure (.keval ⟨c7, .v 20, .k 0, .v 8⟩) [condAt 32] alongZ) [512]).closureDone
        ⟨id0, t0.acqTs, 5⟩ (.keval ⟨c7, .v 20, .k 0, .v 8⟩) [condAt 32] alongZ with
      | .error (.poison _, s1) => (s1.op 5).isSome && decide (s1.thread id0 = some t0)
      | _ => false) = true := by decide +kernel
    split at h
    · rename_i hr
      simp only [Bool.and_eq_true, decide_eq_true_eq] at h
      exact ⟨_, _, rfl, hr, h⟩
    · cases h

/-- The header of a hierarchy of one node, one triangle, one asphere and one user primitive. -/
def hdrBytes : List Byte :=
  toLE (0x1000 + 0x2000 * 2 ^ 64 + 0x4000 * 2 ^ 128 + 0x5000 * 2 ^ 192 + 2 ^ 256 + 2 ^ 288 + 2 ^ 320 + 2 ^ 352 +
    2 ^ 384) 64

/-- Its leaf of one triangle, under the box from −1 to 1. -/
def leafBytes (mask : Nat) : List Byte :=
  toLE (0x3F8000003F8000003F800000BF800000BF800000BF800000 + 2 ^ 192 + mask * 2 ^ 200 + 2 ^ 208) 32

/-- Memory with these bytes beside the page tables, and the thread on it. -/
def sBytes (l : List (Nat × List Byte)) : State :=
  { on t0 with mem := l.foldl (fun m p => memWriteN m p.1 p.2) placedTables }

/-- A ray from (0.25, x, −1) along z. -/
def rayFrom (x : Word) : List Word := [0x3E800000, x, 0xBF800000, 0, 0, 0x3F800000, 0, 0x7F800000, 0xFF00]

/-- The same with tmin above tmax. -/
def rayEmpty : List Word := [0x3E800000, 0, 0xBF800000, 0, 0, 0x3F800000, 0x3F800000, 0, 0xFF00]

def theRayOf (span : List Word) : Ray := Ray.ofList false (rayValues false span)

theorem test_meets_UnitOperationsComplete_tests :
    (∃ w : Walk, w.best = none ∧ w.theRay.anyhit = false) ∧
    (∀ x ∈ [(2, 2 ^ 26 - 1, (⟨0x3F800000, 0, 0⟩ : Hit)), (0, 0, ⟨0x3F800000, 0, 0⟩)], x.1 < 3 ∧ x.2.1 < 2 ^ 26) ∧
    (let w := Walk.fresh false false false (rayValues false (rayFrom 0)) []
     ([(2, 2 ^ 26 - 1, (⟨0x3F800000, 0, 0⟩ : Hit)), (0, 0, ⟨0x3F800000, 0, 0⟩)].foldl
       (fun w x => w.offer x.1 x.2.1 (some x.2.2) 0) w).best.isSome = true ∧
     ([(0, 0, (⟨0xBF800000, 0, 0⟩ : Hit))].foldl (fun w x => w.offer x.1 x.2.1 (some x.2.2) 0) w).best = none) :=
  ⟨⟨Walk.fresh false false false (rayValues false (rayFrom 0)) [], rfl, by decide +kernel⟩, by decide +kernel,
    by decide +kernel⟩

/-- A ray that meets the root box and one that passes it; a leaf whose mask is 0. -/
theorem test_meets_UnitOperationsComplete_trace :
    (∃ x : TraceOp, x.c = .zero ∧ x.log = false) ∧ (theRayOf (List.replicate 9 0)).bad = true ∧
    (theRayOf (rayFrom 0)).bad = false ∧ hdrBytes ≠ [] ∧ (Header.read hdrBytes).ok = true ∧
    (Header.read (List.replicate 64 0)).ok = false ∧ (theRayOf rayEmpty).bad = false ∧
    (theRayOf rayEmpty).empty = true ∧ (theRayOf (rayFrom 0)).empty = false ∧
    (∀ m ∈ [0, 0xFF], ∃ bs s1 bs' s2, (sBytes [(0x1000, leafBytes m)]).unitRead id0 0
        (Header.read hdrBytes).nodeBase 4 = .ok (bs, s1) ∧
      s1.unitRead id0 0 (Header.read hdrBytes).nodeBase 4 = .ok (bs', s2) ∧ bs = leafBytes m ++ List.replicate 32 0 ∧
      bs' = bs ∧ ∃ rec s3, s2.unitRead id0 0 ((Header.read hdrBytes).addr 0 0) 3 = .ok (rec, s3)) ∧
    (∀ m ∈ [0, 0xFF], let n := Node.read (leafBytes m)
      (n.mask &&& (theRayOf (rayFrom 0)).mask = 0 ↔ m = 0) ∧
      (n.box.test (theRayOf (rayFrom 0)) ((theRayOf (rayFrom 0)).far none)).isSome = true ∧
      n.box.test (theRayOf (rayFrom 0x40000000)) ((theRayOf (rayFrom 0)).far none) = none ∧
      n.ok (Header.read hdrBytes) = true ∧ n.kind = 1 ∧ n.count = 1 ∧ n.pkind = 0 ∧ n.first = 0) := by
  refine ⟨⟨⟨c7, false, false, .v 20, .v 2, .v 8, .zero⟩, rfl, rfl⟩, by decide +kernel, by decide +kernel,
    by decide +kernel, by decide +kernel, by decide +kernel, by decide +kernel, by decide +kernel, by decide +kernel,
    ?_, by decide +kernel⟩
  intro m hm
  have h : ∃ bs s1 bs' s2, (sBytes [(0x1000, leafBytes m)]).unitRead id0 0 (Header.read hdrBytes).nodeBase 4 =
      .ok (bs, s1) ∧ s1.unitRead id0 0 (Header.read hdrBytes).nodeBase 4 = .ok (bs', s2) ∧
      (decide (bs = leafBytes m ++ List.replicate 32 0) && decide (bs' = bs) &&
        isOk (s2.unitRead id0 0 ((Header.read hdrBytes).addr 0 0) 3)) = true := by
    simp only [List.mem_cons, List.mem_nil_iff, or_false] at hm
    rcases hm with h | h <;> subst h <;>
      exact okChain (f := fun s => s.unitRead id0 0 (Header.read hdrBytes).nodeBase 4) (fun bs bs' s2 =>
        decide (bs = leafBytes _ ++ List.replicate 32 0) && decide (bs' = bs) &&
          isOk (s2.unitRead id0 0 ((Header.read hdrBytes).addr 0 0) 3)) (by decide +kernel)
  obtain ⟨bs, s1, bs', s2, h1, h2, h3⟩ := h
  simp only [Bool.and_eq_true, decide_eq_true_eq] at h3
  exact ⟨bs, s1, bs', s2, h1, h2, h3.1.1, h3.1.2, isOk_eq h3.2⟩

/-- Logs of 257 tests, of a node visit, of a triangle and of an entry beyond its kind's count. -/
theorem test_meets_UnitOperationsComplete_replay :
    (∀ p ∈ [(257, 0), (1, 0), (1, 2 ^ 30), (1, 2 ^ 30 + 1)],
      ∃ phys s1 bs s2, (sBytes [(0x62FC, toLE p.1 4), (0x6300, toLE p.2 4)]).areaPhys id0 0x6000 true =
        .ok (phys, s1) ∧ s1.unitRead id0 0 0x62F0 65 = .ok (bs, s2) ∧
        leNat ((bs.drop 12).take 4) % 512 = p.1 ∧ leNat ((bs.drop 16).take 4) % 2 ^ 32 = p.2) ∧
    (∃ rec s3, (sBytes []).unitRead id0 0 ((Header.read hdrBytes).addr 0 0) 3 = .ok (rec, s3)) ∧
    (0x6000 + 0x2F0 : DWord).toNat = 0x62F0 ∧ ((Header.read hdrBytes).kind 0).1 = 1 := by
  refine ⟨?_, isOk_eq (by decide +kernel), by decide +kernel, by decide +kernel⟩
  intro p hp
  have h : ∃ phys s1 bs s2, (sBytes [(0x62FC, toLE p.1 4), (0x6300, toLE p.2 4)]).areaPhys id0 0x6000 true =
        .ok (phys, s1) ∧ s1.unitRead id0 0 0x62F0 65 = .ok (bs, s2) ∧
      decide ((bs.drop 12).take 8 = toLE p.1 4 ++ toLE p.2 4) = true := by
    simp only [List.mem_cons, List.mem_nil_iff, or_false] at hp
    rcases hp with h | h | h | h <;> subst h <;>
      exact okChain (f := fun s => s.unitRead id0 0 0x62F0 65)
        (fun _ bs _ => decide ((bs.drop 12).take 8 = toLE _ 4 ++ toLE _ 4)) (by decide +kernel)
  obtain ⟨phys, s1, bs, s2, h1, h2, h3⟩ := h
  have h3 := of_decide_eq_true h3
  have k1 : (bs.drop 12).take 4 = toLE p.1 4 := by
    have := congrArg (List.take 4) h3
    simpa [List.take_take, toLE] using this
  have k2 : (bs.drop 16).take 4 = toLE p.2 4 := by
    have := congrArg (List.drop 4) h3
    simpa [List.drop_take, List.drop_drop, toLE] using this
  have k3 : ∀ p ∈ [(257, 0), (1, 0), (1, 2 ^ 30), (1, 2 ^ 30 + 1)],
      leNat (toLE p.1 4) % 512 = p.1 ∧ leNat (toLE p.2 4) % 2 ^ 32 = p.2 := by decide +kernel
  exact ⟨phys, s1, bs, s2, h1, h2, k1 ▸ (k3 p hp).1, k2 ▸ (k3 p hp).2⟩

/-- A walk suspended at its last candidate, with the bytes of its work area as they stand or as another left
them. -/
def suspensionOf (image : List Byte) : Suspension :=
  ⟨0, 0x6000, image, { Walk.fresh false false true (rayValues false (rayFrom 0)) hdrBytes with leaf := some (2, 0, 1) }⟩

def sSuspended (image : List Byte) : State := { on t0 with suspended := [suspensionOf image] }

theorem test_meets_UnitOperationsComplete_tracec :
    (∀ im, (sSuspended im).ctxOf id0 = 0 ∧ (sSuspended im).suspended = [suspensionOf im]) ∧ (0x6000 : DWord).toNat = 0x6000 ∧
    ∀ im ∈ [List.replicate 764 (0 : Byte), []], ∃ phys s1 bs s2, (sSuspended im).areaPhys id0 0x6000 true =
        .ok (phys, s1) ∧ s1.unitRead id0 0 0x6000 48 = .ok (bs, s2) ∧ phys = 0x6000 ∧
      bs.take 764 = List.replicate 764 (0 : Byte) ∧
      ∃ s3, s2.areaWrites id0 0 0x6000 [(0x200, freeBytes s2.free 252)] = .ok s3 := by
  refine ⟨fun _ => ⟨rfl, rfl⟩, by decide, ?_⟩
  intro im hm
  have h : ∃ phys s1 bs s2, (sSuspended im).areaPhys id0 0x6000 true = .ok (phys, s1) ∧
      s1.unitRead id0 0 0x6000 48 = .ok (bs, s2) ∧
      (decide (phys = 0x6000) && decide (bs.take 764 = List.replicate 764 (0 : Byte)) &&
        isOk (s2.areaWrites id0 0 0x6000 [(0x200, freeBytes s2.free 252)])) = true := by
    simp only [List.mem_cons, List.mem_nil_iff, or_false] at hm
    rcases hm with h | h <;> subst h <;>
      exact okChain (f := fun s => s.unitRead id0 0 0x6000 48) (fun phys bs s2 =>
        decide (phys = 0x6000) && decide (bs.take 764 = List.replicate 764 (0 : Byte)) &&
        isOk (s2.areaWrites id0 0 0x6000 [(0x200, freeBytes s2.free 252)])) (by decide +kernel)
  obtain ⟨phys, s1, bs, s2, h1, h2, h3⟩ := h
  simp only [Bool.and_eq_true, decide_eq_true_eq] at h3
  refine ⟨phys, s1, bs, s2, h1, h2, h3.1.1, h3.1.2, ?_⟩
  have h4 := h3.2
  unfold isOk at h4
  split at h4
  · exact ⟨_, by assumption⟩
  · cases h4

/-- Answers of a hit, a miss and a candidate; a record in range and one past the count. -/
theorem test_meets_UnitOperationsComplete_hitq :
    (HitSpan.read false [0x3F800000, 0, 0, 0, 0x10000000]).result = 1 ∧
    (HitSpan.read false [0x3F800000, 0, 0, 0, 0x10000000]).kind = 0 ∧
    (HitSpan.read false [0x3F800000, 0, 0, 0, 0x10000000]).index = 0 ∧
    (HitSpan.read false [0, 0, 0, 0xFFFFFFFF, 0]).result = 0 ∧
    (HitSpan.read false [0, 0, 0, 0x80000000, 0x40000000]).result = 4 ∧
    (HitSpan.read false [0, 0, 0, 1, 0x10000000]).index = 1 ∧ ((Header.read hdrBytes).kind 0).1 = 1 ∧
    (∃ rec s1, (sBytes []).unitRead id0 0 ((Header.read hdrBytes).addr 0 0)
      (((Header.read hdrBytes).kind 0).2.2 / 16) = .ok (rec, s1)) ∧
    ∃ x : HitqOp, x.direct = false ∧ x.query = .nrm ∧ x.d = .v 20 :=
  ⟨by decide, by decide, by decide, by decide, by decide, by decide, by decide +kernel,
    isOk_eq (by decide +kernel), ⟨⟨c7, false, false, .nrm, .v 20, .v 2, .v 4⟩, rfl, rfl, rfl⟩⟩

/-- An asphere whose words are these: curvature, conic constant and aperture. -/
def asphereOf (c k aper : Nat) : Nat := leNat (toLE c 8 ++ toLE k 8 ++ List.replicate 72 0 ++ toLE aper 8)

/-- A triangle with a reserved bit set and one whose edge functions are not zero; an asphere without an aperture,
one that the ray is parallel to, one beyond its conic and a plane; the bounds of a slab; rays at a box, past it
and at nothing. -/
theorem test_meets_UnitOperationsComplete_primitives :
    (theRayOf (rayFrom 0)).bad = false ∧ leNat (List.replicate 47 0 ++ [0x80]) / 2 ^ 323 % 2 ^ 61 ≠ 0 ∧
    (0x0000000040800000000000000000000000000000C00000004000000000000000C0000000C0000000 : Nat) / 2 ^ 323 % 2 ^ 61 = 0 ∧
    (Asphere.read 0).ok = false ∧ (Asphere.read (asphereOf 0 0 0x4000000000000000)).ok = true ∧
    (Asphere.read (asphereOf 0 0 0x4000000000000000)).start (0, 0, 0) (0x3FF0000000000000, 0, 0) 0 = none ∧
    (let p := (0x4008000000000000, 0, 0xBFF0000000000000)
     let d := (0, 0, 0x3FF0000000000000)
     let a := Asphere.read (asphereOf 0x3FF0000000000000 0 0x4024000000000000)
     ∃ t why, a.start p d 0 = some t ∧ a.newton p d 8 t = .error why) ∧
    (let p := (0, 0, 0xBFF0000000000000)
     let d := (0, 0, 0x3FF0000000000000)
     let a := Asphere.read (asphereOf 0 0 0x4000000000000000)
     ∃ t u, a.start p d 0 = some t ∧ a.newton p d 8 t = .ok u) ∧
    Arith.isNan .f32 0x7FC00000 = true ∧ Arith.lt .f32 0xBF800000 0x3F800000 = true ∧
    Arith.le .f32 0xBF800000 0x3F800000 = true ∧ Arith.isZero .f32 0x80000000 = true ∧
    (∀ p ∈ [(rayFrom 0, true), (rayFrom 0x40000000, false), (List.replicate 9 0, false)],
      let r := theRayOf p.1
      let n := Node.read (leafBytes 0xFF)
      decide (r.bad = false ∧ none ∉ n.box.slabs r) = p.2) := by
  refine ⟨by decide +kernel, by decide +kernel, by decide +kernel, by decide +kernel, by decide +kernel,
    by decide +kernel, ?_, ?_, by decide +kernel, by decide +kernel, by decide +kernel, by decide +kernel,
    by decide +kernel⟩
  · have h : (match (Asphere.read (asphereOf 0x3FF0000000000000 0 0x4024000000000000)).start
        (0x4008000000000000, 0, 0xBFF0000000000000) (0, 0, 0x3FF0000000000000) 0 with
      | some t => (match (Asphere.read (asphereOf 0x3FF0000000000000 0 0x4024000000000000)).newton
          (0x4008000000000000, 0, 0xBFF0000000000000) (0, 0, 0x3FF0000000000000) 8 t with
        | .error _ => true
        | .ok _ => false)
      | none => false) = true := by decide +kernel
    split at h
    · rename_i t h1
      split at h
      · rename_i why h2
        exact ⟨t, why, h1, h2⟩
      · cases h
    · cases h
  · have h : (match (Asphere.read (asphereOf 0 0 0x4000000000000000)).start
        (0, 0, 0xBFF0000000000000) (0, 0, 0x3FF0000000000000) 0 with
      | some t => (match (Asphere.read (asphereOf 0 0 0x4000000000000000)).newton
          (0, 0, 0xBFF0000000000000) (0, 0, 0x3FF0000000000000) 8 t with
        | .error _ => false
        | .ok _ => true)
      | none => false) = true := by decide +kernel
    split at h
    · rename_i t h1
      split at h
      · cases h
      · rename_i u h2
        exact ⟨t, u, h1, h2⟩
    · cases h

/-- Nodes in k registers, weights in v4 to v7, a table address in v10:v11, a spill set in v12. -/
def tClo (ks : List (Fin 16 × KReg)) : Thread :=
  { regs ((List.range 6).map (fun i => (i + 4, (⟨0x3F000000, 0x20⟩ : VReg))) ++
      [(10, ⟨0x1000, 0⟩), (11, ⟨0, 0⟩), (12, ⟨0, 0⟩), (13, ⟨0x3F000000, 0x20⟩), (14, ⟨63, 0⟩), (15, ⟨0, 0⟩), (16, ⟨2048, 0⟩),
        (17, ⟨0, 0⟩), (20, ⟨0x3F000000, 0x20⟩), (21, ⟨63, 0⟩), (22, ⟨0x800, 0⟩), (23, ⟨0, 0⟩)]) with
    kregs := ks.foldl (fun v p => v.set p.1 p.2) t0.kregs }

def diffuse (owned : Bool) : KReg := kNode weightOne 1 owned 0

theorem test_meets_ClosureBuilders :
    (∃ t : Thread, kChildren (t.kreg (.k 2)) = [0, 1] ∧ kOwned (t.kreg (.k 0)) = true ∧ kFree t.kl 3 = true) ∧
    (∀ l ∈ [LobeKind.diff, .sheen, .diel, .cond], ∃ x : KlobeOp, x.lobe = l ∧ x.d = .k 3 ∧ Meets x.ctl fun t =>
      TaggedSpan t 0x20 x.a 4 ∧ TaggedSpan t 0x20 (.v 8) 2 ∧ Tagged t 0x20 false (.v 20) ∧
        Tagged t 0 false (Opd.plus (.v 20) 1) ∧ Tagged t 0 true (Opd.plus (.v 20) 2) ∧
        (t.reg (Opd.plus (.v 20) 1)).bits.toNat = 63 ∧ (t.pair (Opd.plus (.v 20) 2)).toNat % 2048 = 0 ∧
        (x.b = .v 8 ∨ (x.lobe = .cond ∧ x.b = .v 20))) ∧
    (∃ x : KabOp, x.d = .k 15 ∧ Meets x.ctl fun t =>
      TaggedSpan t 0x20 x.a 4 ∧ Tagged t 0 true x.b ∧ (t.pair x.b).toNat % 64 = 0) ∧
    (∃ x : KabOp, x.d = .k 15 ∧ x.a = .k 0 ∧ x.b = .k 1 ∧ Meets x.ctl fun t => MayOwn t x.d x.a x.b) ∧
    (∃ (x : KabOp) (s : State) (t : Thread), Alone s id0 t x.ctl ∧ x.a = x.b ∧ ¬ MayOwn t x.d x.a x.b) ∧
    (∃ (x : KabOp) (s : State) (t : Thread), Alone s id0 t x.ctl ∧ kOwned (t.kreg x.a) = true ∧
      ¬ MayOwn t x.d x.a x.b) ∧
    (∃ x : KabcOp, x.d = .k 15 ∧ x.a = .k 0 ∧ x.b = .k 1 ∧ Meets x.ctl fun t =>
      Tagged t 0x20 false x.c ∧ TaggedSpan t 0x20 x.c 3 ∧ MayOwn t x.d x.a x.b ∧ 1 ≤ kKind (t.kreg x.a) ∧
        kKind (t.kreg x.a) ≤ 5) ∧
    (∃ x : DaOp, x.d = .k 0 ∧ Meets x.ctl fun t => TaggedSpan t 0x20 x.a 4 ∧ t.kreg x.d ≠ 0) ∧
    (∀ q : KQuery, ∃ x : KinfoOp, (Instr.kinfo x).wf = true ∧ x.query = q) := by
  have own : MayOwn (tClo [(0, diffuse false), (1, diffuse false)]) (.k 15) (.k 0) (.k 1) :=
    ⟨⟨by decide, by decide⟩, ⟨by decide, by decide⟩, by decide, by decide, by decide⟩
  refine ⟨⟨tClo [(0, diffuse true), (1, diffuse true), (2, kNode weightOne 8 false (2 ^ 115))], by decide, by decide,
      by decide⟩, ?_,
    ⟨⟨c7, 7, .k 15, .v 4, .v 10⟩, rfl, meets (tClo []) (by decide) ⟨taggedSpan (by decide), tagged (by decide), by decide⟩⟩,
    ⟨⟨c7, 0, .k 15, .k 0, .k 1⟩, rfl, rfl, rfl, meets (tClo [(0, diffuse false), (1, diffuse false)]) (by decide) own⟩,
    ⟨⟨c7, 0, .k 15, .k 0, .k 0⟩, _, tClo [(0, diffuse false)], alone _ (by decide), rfl, fun h => h.2.2.1 rfl⟩,
    ⟨⟨c7, 0, .k 15, .k 0, .k 1⟩, _, tClo [(0, diffuse true)], alone _ (by decide), by decide,
      fun h => absurd h.1.2 (by decide)⟩,
    ⟨⟨c7, 0, .k 15, .k 0, .k 1, .v 4⟩, rfl, rfl, rfl, meets (tClo [(0, diffuse false), (1, diffuse false)]) (by decide)
      ⟨tagged (by decide), taggedSpan (by decide), own, by decide, by decide⟩⟩,
    ⟨⟨c7, .k 0, .v 4⟩, rfl, meets (tClo [(0, diffuse false)]) (by decide) ⟨taggedSpan (by decide), by decide⟩⟩, ?_⟩
  · intro l hl
    refine ⟨⟨c7, l, 0, .k 3, .v 4, if l = .cond then .v 20 else .v 8⟩, rfl, rfl, meets (tClo []) (by decide : (tClo []).guard c7 = true)
      ⟨taggedSpan (o := .v 4) (by decide), taggedSpan (by decide), tagged (by decide), tagged (by decide),
        tagged (by decide), by decide, by decide, ?_⟩⟩
    revert l
    decide
  · intro q
    cases q
    · exact ⟨⟨c7, .node, .v 191, .k 15⟩, rfl, rfl⟩
    · exact ⟨⟨c7, .free, .v 191, .zero⟩, rfl, rfl⟩
    · exact ⟨⟨c7, .size, .zero, .k 0⟩, rfl, rfl⟩

/-- A kernel with one spill set. -/
def sSpill (t : Thread) : State := withKd (on t) fun k => { k with privateBytes := 512, kspill := 1 }

theorem aloneSpill (t : Thread) (h : t.guard c7 = true) : Alone (sSpill t) id0 t c7 :=
  ⟨⟨⟨⟨0, 0, [id0], false⟩, rfl, rfl⟩, by decide⟩, rfl, h⟩

/-- A reference to slot 0 of set 0, and a set that holds a diffuse lobe there. -/
def tFill : Thread :=
  { tClo [(0, kNode weightOne 15 false 0)] with priv := memWriteN [] 0 (toLE (diffuse false).toNat 32) }

theorem test_meets_ClosureEvaluationsSpillsAndFills :
    (∃ (x : KevalOp) (s : State) (id : ThreadId) (t : Thread) (ls : List LobeHit), Alone s id t x.ctl ∧
      t.loads < 63 ∧ TaggedSpan t 0x20 x.b 6 ∧ kLobes t.kl (kNum x.a) Clo.one Clo.one = .ok ls) ∧
    (∃ (x : KspillOp) (s : State) (id : ThreadId) (t : Thread) (k : KDesc) (a : Fin 16), Alone s id t x.ctl ∧
      t.stores < 63 ∧ s.kdesc id.launch = some k ∧ x.a = .k a ∧ Tagged t 0 false x.b ∧ t.kreg x.a ≠ 0 ∧
      (t.reg x.b).bits.toNat < k.kspill ∧ (t.reg x.b).bits.toNat < 256 ∧
      s.stackBytes id + 512 * (t.reg x.b).bits.toNat = 0) ∧
    (∀ t ∈ [tClo [(0, diffuse false)], tFill], ∃ s1 s2, (sSpill t).privAccess id0 t 0 512 .write = .ok (true, s1) ∧
      (sSpill t).privAccess id0 t 0 512 .read = .ok (true, s2)) ∧
    (∀ t ∈ [tClo [(0, diffuse false)], tFill], ∃ tr tr', (sSpill (far t)).privAccess id0 (far t) 0 512 .write = .error tr ∧
      (sSpill (far t)).privAccess id0 (far t) 0 512 .read = .error tr') ∧
    (∃ (x : KfillOp) (s : State) (t : Thread), Alone s id0 t x.ctl ∧ x.a = .k 1 ∧ kKind (t.kreg x.a) ≠ 15) ∧
    (∃ (x : KfillOp) (s : State) (t : Thread), Alone s id0 t x.ctl ∧ x.a = .k 0 ∧ kKind (t.kreg x.a) = 15 ∧
      setOk (setNodes (memReadN (s.privView id0 t) (s.stackBytes id0 + 512 * kField (t.kreg x.a) 115 8) 512))
        (kField (t.kreg x.a) 111 4) = true) ∧
    ∃ (x : KfillOp) (s : State) (t : Thread), Alone s id0 t x.ctl ∧ x.a = .k 0 ∧ kKind (t.kreg x.a) = 15 ∧
      setOk (setNodes (memReadN (s.privView id0 t) (s.stackBytes id0 + 512 * kField (t.kreg x.a) 115 8) 512))
        (kField (t.kreg x.a) 111 4) = false := by
  obtain ⟨ls, h⟩ := okOf (x := kLobes (tClo [(0, diffuse false)]).kl 0 Clo.one Clo.one) (by decide +kernel)
  refine ⟨⟨⟨c7, .v 20, .k 0, .v 4⟩, _, id0, tClo [(0, diffuse false)], ls, alone _ (by decide), by decide,
      taggedSpan (by decide), h⟩,
    ⟨⟨c7, .k 0, .v 12⟩, _, id0, tClo [(0, diffuse false)], _, 0, aloneSpill _ (by decide), by decide, rfl, rfl,
      tagged (by decide), by decide, by decide, by decide, by decide⟩, ?_, ?_,
    ⟨⟨c7, 0, .k 1⟩, _, tFill, aloneSpill _ (by decide), rfl, by decide⟩,
    ⟨⟨c7, 0, .k 0⟩, sSpill tFill, tFill, aloneSpill _ (by decide), rfl, by decide, by decide +kernel⟩,
    ⟨⟨c7, 0, .k 0⟩, sSpill { tFill with priv := [] }, { tFill with priv := [] }, aloneSpill _ (by decide), rfl,
      by decide, by decide +kernel⟩⟩
  · intro t ht
    simp only [List.mem_cons, List.mem_nil_iff, or_false] at ht
    rcases ht with h | h <;> subst h <;>
      exact ⟨_, _, (privOk (by decide +kernel)).choose_spec, (privOk (by decide +kernel)).choose_spec⟩
  · intro t ht
    have k : ∀ t ∈ [tClo [(0, diffuse false)], tFill],
        (isOk ((sSpill (far t)).privAccess id0 (far t) 0 512 .write) ||
          isOk ((sSpill (far t)).privAccess id0 (far t) 0 512 .read)) = false := by decide +kernel
    have k := k t ht
    simp only [Bool.or_eq_false_iff] at k
    obtain ⟨a, ha, -⟩ := errWith (x := (sSpill (far t)).privAccess id0 (far t) 0 512 .write) (by
      have := k.1
      unfold isOk at this
      split <;> simp_all)
    obtain ⟨b, hb, -⟩ := errWith (x := (sSpill (far t)).privAccess id0 (far t) 0 512 .read) (by
      have := k.2
      unfold isOk at this
      split <;> simp_all)
    exact ⟨a, b, ha, hb⟩

/-! ### Bins, monitors and waits -/

/-- A course with these bins and thatch tiles. -/
def sBin (t : Thread) (bins : List Bin) (pool : List Memory) : State :=
  withCourse (live (on t)) fun c => { c with bins := bins, pool := pool }

theorem aloneBin (t : Thread) (bins : List Bin) (pool : List Memory) (h : t.guard c7 = true) :
    Alone (sBin t bins pool) id0 t c7 :=
  ⟨⟨⟨⟨0, 0, [id0], false⟩, rfl, rfl⟩, by decide⟩, rfl, h⟩

/-- Row 0 holds thread 5, live, at PC 9, needing the marks `need`. -/
def rowTile (need : Nat) : Memory :=
  memWriteN [] 4096 (toLE (9 * 2 ^ 160 + 5 * 2 ^ 150 + 32 * 2 ^ 144 + need * 2 ^ 115 + 2 ^ 104) 64)

def oneRow : List Bin := [⟨[.pool 0], 1⟩]

/-- YIELDB: no tile, the last row of a tile, a new tile. -/
theorem test_meets_BinsYieldAndResume_yield :
    (∀ b ∈ [(([⟨[], 0⟩], []) : List Bin × List Memory), ([⟨[.pool 0], 31⟩], [[]]), ([⟨[.pool 0], 32⟩], [[], []])],
      Alone (sBin t0 b.1 b.2) id0 t0 c7 ∧ 32 ≤ (sBin t0 b.1 b.2).regCount id0 ∧
        t0.word (.imm 0) < (sBin t0 b.1 b.2).binCount ⟨0, 0⟩ ∧ t0.holds = [] ∧ t0.wreg = none ∧
        (sBin t0 b.1 b.2).binBusy ⟨0, 0⟩ 0 = false ∧ (sBin t0 b.1 b.2).yieldHeld id0 t0 32 = false) ∧
    ((sBin t0 [⟨[], 0⟩] []).course ⟨0, 0⟩).bind Course.freeTile = none ∧
    ((sBin t0 [⟨[.pool 0], 32⟩] [[], []]).course ⟨0, 0⟩).bind Course.freeTile = some (.pool 1) ∧
    ∃ (h : RowHeader) (ws : List Word) (s1 s2 : State),
      (sBin t0 [⟨[.pool 0], 31⟩] [[]]).yieldRow id0 t0 ⟨c7, 0, .imm 0, 32, 5⟩ = (h, ws) ∧
      (sBin t0 [⟨[.pool 0], 31⟩] [[]]).tileWrite ⟨0, 0⟩ (.pool 0) (128 * 31) (rowBytes ws) = .ok s1 ∧
      s1.tileWrite ⟨0, 0⟩ (.pool 0) (4096 + 64 * 31) h.bytes = .ok s2 := by
  refine ⟨?_, by decide, by decide, _, _, _, _, rfl, rfl, rfl⟩
  intro b hb
  simp only [List.mem_cons, List.mem_nil_iff, or_false] at hb
  rcases hb with h | h | h <;> subst h <;>
    exact ⟨aloneBin _ _ _ (by decide), by decide, by decide, rfl, rfl, by decide, by decide⟩

/-- RESUME and WAKE of a row, and rows to count and sort. -/
theorem test_meets_BinsYieldAndResume_rows :
    (∃ (n : Nat) (s1 : State), Alone (sBin t0 oneRow [rowTile 0]) id0 t0 c7 ∧
      0 < (sBin t0 oneRow [rowTile 0]).binCount ⟨0, 0⟩ ∧ (sBin t0 oneRow [rowTile 0]).bin ⟨0, 0⟩ 0 = ⟨[.pool 0], 1⟩ ∧
      (sBin t0 oneRow [rowTile 0]).binBusy ⟨0, 0⟩ 0 = false ∧
      (sBin t0 oneRow [rowTile 0]).resumeBin ⟨0, 0⟩ 0 = .ok (n, s1) ∧ n = 1 ∧ memWf (rowTile 0) = true ∧
      (RowHeader.read (memReadN (rowTile 0) 4096 64)).awake = true ∧
      (∀ g ∈ (RowHeader.read (memReadN (rowTile 0) 4096 64)).tags, tagValid g = true) ∧
      (RowHeader.read (memReadN (rowTile 0) 4096 64)).cthr ≠ id0.cthr) ∧
    (∀ m ∈ [(0 : BitVec 4), 1], ∃ (rows : List RowAt) (s1 s2 : State),
      (sBin t0 oneRow [rowTile 1]).liveRows ⟨0, 0⟩ 0 = .ok (rows, s1) ∧
      s1.wakeRows ⟨0, 0⟩ m (rows.filter fun r => r.hdr.have_ ||| m != r.hdr.have_) = .ok s2) ∧
    ∃ r : List RowAt × State, (sBin t0 oneRow [rowTile 1]).liveRows ⟨0, 0⟩ 0 = .ok r ∧
      r.1.length = 1 ∧ (∀ x ∈ r.1, x.hdr.pend = 0) ∧ t0.tileOps < 63 := by
  obtain ⟨⟨n, s1⟩, h1, h2⟩ := okWith (x := (sBin t0 oneRow [rowTile 0]).resumeBin ⟨0, 0⟩ 0) (fun r => r.1 == 1)
    (by decide +kernel)
  have h3 : ∀ m ∈ [(0 : BitVec 4), 1], ∃ (rows : List RowAt) (s1 s2 : State),
      (sBin t0 oneRow [rowTile 1]).liveRows ⟨0, 0⟩ 0 = .ok (rows, s1) ∧
      s1.wakeRows ⟨0, 0⟩ m (rows.filter fun r => r.hdr.have_ ||| m != r.hdr.have_) = .ok s2 := by
    intro m hm
    exact okThen (x := (sBin t0 oneRow [rowTile 1]).liveRows ⟨0, 0⟩ 0)
      (f := fun rows s => s.wakeRows ⟨0, 0⟩ m (rows.filter fun r => r.hdr.have_ ||| m != r.hdr.have_))
      (by revert m; decide +kernel)
  obtain ⟨r, h5, h6⟩ := okWith (x := (sBin t0 oneRow [rowTile 1]).liveRows ⟨0, 0⟩ 0)
    (fun r => r.1.length == 1 && r.1.all fun x => x.hdr.pend == 0) (by decide +kernel)
  simp only [Bool.and_eq_true, beq_iff_eq, List.all_eq_true] at h6
  exact ⟨⟨n, s1, aloneBin _ _ _ (by decide), by decide, rfl, by decide, h1, by simpa using h2, by decide +kernel,
      by decide +kernel, by decide +kernel, by decide +kernel⟩, h3, r, h5, h6.1, h6.2, by decide⟩

/-- BINQ's area, with none in use and with one in use. -/
theorem test_meets_BinsYieldAndResume_area :
    (Untyped tEng true (.v 1) ∧ Untyped tEng false (.v 4) ∧ (tEng.pair (.v 4)).toNat % 64 ≠ 0 ∧
      (tEng.reg (.v 4)).bits.toNat = 3) ∧
    (∃ k : Course, (sBin t0 oneRow [[]]).course ⟨0, 0⟩ = some k ∧ ¬ ∃ i, TileRef.area i ∈ k.usedTiles) ∧
    ∃ k : Course, (sBin t0 [⟨[.area 0], 1⟩] []).course ⟨0, 0⟩ = some k ∧ ∃ i, TileRef.area i ∈ k.usedTiles := by
  refine ⟨⟨untyped (by decide), untyped (by decide), by decide, rfl⟩, ⟨_, rfl, ?_⟩, ⟨_, rfl, 0, by decide⟩⟩
  rintro ⟨i, h⟩
  have h : TileRef.area i ∈ [TileRef.pool 0] := h
  simp at h

/-- A sort that is due, a row that wakes and a course whose row does not. -/
theorem test_meets_BinsYieldAndResume_events :
    (∃ (s s1 : State) (o : Op), s.op 5 = some o ∧ o.kind = .binSort 0 (some (3, true)) ∧ courseOf o.th = ⟨0, 0⟩ ∧
      o.stop = none ∧ o.due ≤ s.cycle ∧ s.sortBin ⟨0, 0⟩ 0 (some (3, true)) = .ok s1) ∧
    (∀ n, ∃ c, ({ sBin t0 oneRow [rowTile n] with threads := [] } : State).course ⟨0, 0⟩ = some c ∧ c.core ≠ noCore ∧
      (∀ x, ({ sBin t0 oneRow [rowTile n] with threads := [] } : State).ctx c.ctx = some x → x.rung ≠ .halting) ∧
      ({ sBin t0 oneRow [rowTile n] with threads := [] } : State).threadsOf ⟨0, 0⟩ = [] ∧ c.binStop = none ∧
      c.stranded = false ∧ c.bins.length = 1) ∧
    (∃ n can s1, (({ sBin t0 oneRow [rowTile 0] with threads := [] } : State).setOp 5
        (op0 (.binSort 0 none))).autoBin ⟨0, 0⟩ (List.range 1) = .ok (some n, can, s1) ∧
      (({ sBin t0 oneRow [rowTile 0] with threads := [] } : State).setOp 5 (op0 (.binSort 0 none))).binBusy ⟨0, 0⟩ n =
        true) ∧
    ({ sBin t0 oneRow [rowTile 0] with threads := [] } : State).binBusy ⟨0, 0⟩ 0 = false ∧
    (∃ n can s1 k s2, ({ sBin t0 oneRow [rowTile 0] with threads := [] } : State).autoBin ⟨0, 0⟩ (List.range 1) =
        .ok (some n, can, s1) ∧ s1.resumeBin ⟨0, 0⟩ n = .ok (k, s2)) ∧
    (∃ s1, ({ sBin t0 oneRow [rowTile 1] with threads := [] } : State).autoBin ⟨0, 0⟩ (List.range 1) =
        .ok (none, false, s1)) ∧
    ∀ n ∈ [0, 1], ({ sBin t0 oneRow [rowTile n] with threads := [] } : State).anyLive ⟨0, 0⟩ = true := by
  obtain ⟨s1, h1⟩ := okOf (x := ((sBin t0 oneRow [rowTile 0]).setOp 5
    (op0 (.binSort 0 (some (3, true))))).sortBin ⟨0, 0⟩ 0 (some (3, true))) (by decide +kernel)
  obtain ⟨r, p, ⟨k, s2⟩, h2, h3⟩ := okThen
    (x := ({ sBin t0 oneRow [rowTile 0] with threads := [] } : State).autoBin ⟨0, 0⟩ (List.range 1))
    (f := fun r p => p.2.resumeBin ⟨0, 0⟩ (r.getD 1)) (by decide +kernel)
  obtain ⟨⟨r', c', s3⟩, h4, h5⟩ := okWith
    (x := ({ sBin t0 oneRow [rowTile 1] with threads := [] } : State).autoBin ⟨0, 0⟩ (List.range 1))
    (fun r => r.1 == none && r.2.1 == false) (by decide +kernel)
  obtain ⟨⟨r'', c'', s4⟩, h6, h7⟩ := okWith
    (x := ({ sBin t0 oneRow [rowTile 0] with threads := [] } : State).autoBin ⟨0, 0⟩ (List.range 1))
    (fun r => r.1 == some 0) (by decide +kernel)
  simp only [Bool.and_eq_true, beq_iff_eq] at h5 h7
  rw [h2] at h6
  cases h6
  subst h7
  obtain ⟨⟨r3, c3, s5⟩, h8, h9⟩ := okWith
    (x := (({ sBin t0 oneRow [rowTile 0] with threads := [] } : State).setOp 5
      (op0 (.binSort 0 none))).autoBin ⟨0, 0⟩ (List.range 1)) (fun r => r.1 == some 0) (by decide +kernel)
  cases eq_of_beq h9
  refine ⟨⟨_, s1, _, rfl, rfl, rfl, rfl, by decide, h1⟩, ?_, ⟨0, _, _, h8, by decide⟩, by decide,
    ⟨0, _, _, k, s2, h2, h3⟩,
    ⟨s3, by rw [h4, h5.1, h5.2]⟩, by decide +kernel⟩
  intro n
  refine ⟨_, rfl, (by decide : (0 : Nat) ≠ noCore), ?_, rfl, rfl, rfl, rfl⟩
  intro x hx
  cases Option.some.inj hx
  decide

/-- A line address in v2:v3, a timeout in v4, a thread with this monitor. -/
def tMon (m : Option Monitor) (lim : Word) : Thread :=
  { regs [(2, ⟨0x80, 0⟩), (3, ⟨0, 0⟩), (4, ⟨lim, 0⟩)] with monitor := m }

/-- Die 0's Purlin table. -/
def withPurlin (s : State) (es : List PurlinEntry) : State := s.modDie 0 fun d => { d with purlin := es }

/-- Two threads that hold what the other waits for, with a handler. -/
def sCycle : State :=
  withPurlin ((withKd (live (on (tMon (some ⟨4, 4, 0, false, false⟩) 5))) fun k => { k with trapvec := 0x40 }).setThread id1
      { t0 with await := .monitor .zero none, monitor := some ⟨8, 8, 0, false, false⟩, holds := [4] })
    [⟨.line 0 4, [id1], [], 0⟩, ⟨.line 0 8, [id0], [id1], 0⟩]

theorem test_meets_MonitorsHoldsAndWaits :
    (∃ (s s1 : State) (t : Thread) (x : LineOp) (pa key : Nat), Alone s id0 t x.ctl ∧ t.await = .ready ∧
      Untyped t true x.a ∧ s.translateFor id0 (t.pair x.a + x.off.signExtend 64) .read = .ok (pa, key, s1) ∧
      homeOf pa = some 0) ∧
    (∀ m ∈ [none, some ⟨1, 1, 0, true, false⟩, some ⟨1, 1, 0, false, true⟩, some ⟨1, 1, 0, false, false⟩],
      ∀ lim ∈ [(0 : Word), 1, 0xFFFFFFFF], Alone (on (tMon m lim)) id0 (tMon m lim) c7 ∧ (tMon m lim).await = .ready ∧
        UntypedSrc (tMon m lim) false (.reg (.v 4)) ∧ (tMon m lim).word (.reg (.v 4)) = lim.toNat ∧
        (on (tMon m lim)).determ 0 = false) ∧
    (∃ s1, (on (tMon (some ⟨1, 1, 0, false, false⟩) 5)).enterWait id0 (.line 0 1) = .entered s1 ∧
      (s1.setThread id0 { tMon (some ⟨1, 1, 0, false, false⟩) 5 with await := .monitor .zero (some 5) }).closesCycle id0
        (.line 0 1) = none) ∧
    (∃ s1 path, sCycle.enterWait id0 (.line 0 4) = .entered s1 ∧
      (s1.setThread id0 { tMon (some ⟨4, 4, 0, false, false⟩) 5 with await := .monitor .zero (some 5) }).closesCycle id0
        (.line 0 4) = some path ∧ sCycle.handler id0 (tMon (some ⟨4, 4, 0, false, false⟩) 5) = some 0x40) ∧
    (∃ s1, (withPurlin (on t0) (List.replicate 8192 ⟨.line 0 2, [], [], 0⟩)).enterWait id0 (.line 0 0) = .untracked s1) ∧
    (∃ t : Thread, Alone (withKd (on t) fun k => { k with determ := true }) id0 t c7 ∧ Untyped t true (.v 2) ∧
      (withKd (on t) fun k => { k with determ := true }).determ 0 = true) ∧
    (∃ (s : State) (t : Thread) (m : Monitor), s.thread id0 = some t ∧ t.await = .monitor (.v 4) (some 0) ∧
      s.stepping id0 = false ∧ t.monitor = some m ∧ m.fired = true ∧ (0 : Nat) ≤ s.gts) ∧
    (∃ s : State, (s.die 3).purlin.length ≤ 7680) ∧
    ∃ s : State, 7680 < (s.die 0).purlin.length ∧ ∃ e, (s.die 0).purlin.find? (·.expired s.gts) = some e := by
  refine ⟨⟨on (tMon none 0), _, tMon none 0, ⟨c7, .v 2, 0x7FF⟩, 0x87F, 0, alone _ (by decide), rfl, untyped (by decide),
      rfl, by decide⟩, ?_, ⟨_, rfl, by decide +kernel⟩, ?_, ?_,
    ⟨tMon none 0, ⟨⟨⟨⟨0, 0, [id0], false⟩, rfl, rfl⟩, by decide⟩, rfl, by decide⟩, untyped (by decide), rfl⟩,
    ⟨on { tMon (some ⟨1, 1, 0, true, false⟩) 0 with await := .monitor (.v 4) (some 0) }, _, _, rfl, rfl, rfl, rfl, rfl,
      by decide⟩, ⟨on t0, by decide⟩,
    ⟨{ withPurlin (on t0) (List.replicate 7681 ⟨.line 0 2, [id1], [], 0⟩) with cycle := 2500000 }, by decide +kernel, ?_⟩⟩
  · intro m hm lim hl
    refine ⟨alone _ (by rfl), rfl, untyped (o := .v 4) (by rfl), rfl, rfl⟩
  · have h : ((match sCycle.enterWait id0 (.line 0 4) with
        | .entered s1 => (s1.setThread id0 { tMon (some ⟨4, 4, 0, false, false⟩) 5 with
            await := .monitor .zero (some 5) }).closesCycle id0 (.line 0 4)
        | _ => none).isSome) = true := by decide +kernel
    split at h
    · next s1 h1 =>
      obtain ⟨path, h2⟩ := Option.isSome_iff_exists.1 h
      exact ⟨s1, path, h1, h2, rfl⟩
    · cases h
  · have h : (match (withPurlin (on t0) (List.replicate 8192 ⟨.line 0 2, [], [], 0⟩)).enterWait id0 (.line 0 0) with
        | .untracked _ => true
        | _ => false) = true := by decide +kernel
    split at h
    · next s1 h1 => exact ⟨s1, h1⟩
    · cases h
  · exact Option.isSome_iff_exists.1 (by decide +kernel)
/-! ### Traps, special registers, calls and launches -/

/-- A kernel with a handler at 0x40. -/
def sTrap (t : Thread) : State := withKd (live (on t)) fun k => { k with trapvec := 0x40 }

theorem aloneTrap (t : Thread) (h : t.guard c7 = true) : Alone (sTrap t) id0 t c7 :=
  ⟨⟨⟨⟨0, 0, [id0], false⟩, rfl, rfl⟩, by decide⟩, rfl, h⟩

/-- With a handler, without one, inside one; flags enabled and not; a tag that fails. -/
theorem test_meets_TrapsAreTakenAndLeft :
    (∃ k, (sTrap t0).thread id0 = some t0 ∧ (sTrap t0).kdesc 0 = some k ∧ k.trapvec ≠ 0xFFFFFFFF ∧ t0.inHandler = false ∧
      Alone (sTrap t0) id0 t0 c7) ∧
    (∃ k, (on t0).kdesc 0 = some k ∧ k.trapvec = 0xFFFFFFFF ∧ Alone (on t0) id0 t0 c7) ∧
    (∃ t : Thread, Alone (sTrap t) id0 t c7 ∧ t.inHandler = true) ∧
    (∃ t : Thread, Alone (sTrap t) id0 t c7 ∧ t.fflags &&& t.enables ≠ 0 ∧ t.inHandler = false) ∧
    (∃ t : Thread, Alone (sTrap t) id0 t c7 ∧ t.fflags &&& t.enables = 0 ∧ t.fflags ≠ 0) ∧
    (sTrap t0).breaking id0 = false ∧
    ((sTrap t0).setCtx 0 { ctx0 with brk := true }).breaking id0 = true ∧
    (∃ x : IntOp, Alone (sTrap tInt) id0 tInt x.ctl ∧ ¬ Untyped tInt x.ty.wide x.a) ∧
    (∃ x : IntOp, Alone (sTrap tInt) id0 tInt x.ctl ∧ x.b = .reg (.v 8) ∧ Untyped tInt x.ty.wide x.a ∧
      ¬ Untyped tInt x.ty.wide (.v 8)) ∧
    ∃ (s : State) (t : Thread), s.thread id0 = some t ∧ t.nopre = some 0 ∧ 0 + 50000 ≤ s.gts ∧ s.gts = 50000 := by
  have bad : ¬ Untyped tInt false (.v 8) := by
    rintro (h | ⟨h, _⟩)
    · cases h
    · exact absurd h (by decide)
  exact ⟨⟨_, rfl, rfl, by decide, rfl, aloneTrap _ (by decide)⟩, ⟨_, rfl, rfl, alone _ (by decide)⟩,
    ⟨{ t0 with inHandler := true }, aloneTrap _ (by decide), rfl⟩,
    ⟨{ t0 with fflags := 16, fctl := 16 }, aloneTrap _ (by decide), by decide, rfl⟩,
    ⟨{ t0 with fflags := 1, fctl := 16 }, aloneTrap _ (by decide), by decide, by decide⟩, by decide, by decide,
    ⟨⟨c7, .n32, .v 1, .v 8, .imm 0⟩, aloneTrap _ (by decide), bad⟩,
    ⟨⟨c7, .n32, .v 1, .v 1, .reg (.v 8)⟩, aloneTrap _ (by decide), rfl, untyped (by decide), bad⟩,
    ⟨{ on { t0 with nopre := some 0 } with cycle := 125000 }, _, rfl, rfl, by decide, by decide⟩⟩

/-- The last index of each kind, one past it, an index on a register without one; values of `%fctl` and
`%prio` at their ends. -/
theorem test_meets_SpecialRegisters :
    (∀ x ∈ [(⟨c7, 0x15, 1023, .v 4, .zero⟩ : SreadOp), ⟨c7, 0x14, 3, .v 4, .zero⟩, ⟨c7, 0x00, 0, .v 191, .zero⟩,
        ⟨c7, 0x14, 0, .v 4, .v 1⟩, ⟨c7, 0x00, 0, .v 4, .v 1⟩, ⟨c7, 0x16, 0, .zero, .zero⟩],
      (Instr.sread x).wf = true ∧ Alone (live (on tEng)) id0 tEng x.ctl ∧ Untyped tEng false x.a) ∧
    (∃ (k : KDesc) (p : Partition), (live (on tEng)).kdesc 0 = some k ∧ (live (on tEng)).part
      ((live (on tEng)).partOf ((live (on tEng)).ctxOf id0)) = some p ∧ tEng.crews = [] ∧ p.ltp[0]? = some 0) ∧
    ∀ w ∈ [(0x9F : Word), 0xA0, 0x3FF, 0x400, 7, 8, 0], Alone (live (on (regs [(1, ⟨w, 0⟩)]))) id0 (regs [(1, ⟨w, 0⟩)]) c7 ∧
      ((regs [(1, ⟨w, 0⟩)]).reg (.v 1)).bits = w := by
  refine ⟨?_, ⟨_, _, rfl, rfl, rfl, rfl⟩, ?_⟩
  · intro x hx
    have h : (Instr.sread x).wf = true ∧ x.ctl = c7 ∧ (x.a = .zero ∨ x.a = .v 1) := by
      revert x
      decide
    refine ⟨h.1, ?_, ?_⟩
    · rw [h.2.1]
      exact ⟨⟨⟨⟨0, 0, [id0], false⟩, rfl, rfl⟩, by decide⟩, rfl, by decide⟩
    · rcases h.2.2 with h | h <;> rw [h]
      · exact .inl rfl
      · exact untyped (by decide)
  · intro w hw
    exact ⟨⟨⟨⟨⟨0, 0, [id0], false⟩, rfl, rfl⟩, by decide⟩, rfl, by rfl⟩, rfl⟩

/-- A call ring of two entries with this head and tail. -/
def sCall2 (t : Thread) (head tail : Nat) : State :=
  (live (on t)).setPart 0 { part0 with callQ := { base := 0x2000, log2 := 1, tail := tail, head := head, stamp := 0, srcs := [] } }

theorem aloneCall2 (t : Thread) (h r : Nat) (hg : t.guard c7 = true) : Alone (sCall2 t h r) id0 t c7 :=
  ⟨⟨⟨⟨0, 0, [id0], false⟩, rfl, rfl⟩, by decide⟩, rfl, hg⟩

/-- A queue of the context for devices, with this write index. -/
def sLaunch (t : Thread) (k : Queue) : State := (on t).setQueue 0 1023 k

def devQueue (write : Nat) : Queue :=
  { clusterMask := 0, statusAddr := 0, ringBase := 0x2000, ctx := 0, log2 := 1, prio := 0, dev := true, enabled := true,
    disabling := false, code := 0, write := write, rd := 0, since := 0, overdue := false, active := false,
    waiting := false, head := none }

/-- A packet address in v2:v3 and a queue number in v4. -/
def tLaunch (q : Word) : Thread := regs [(2, ⟨0x40, 0⟩), (3, ⟨0, 0⟩), (4, ⟨q, 0⟩)]

theorem test_meets_SystemCallsAndLaunches :
    (∀ p ∈ [(0, 2), (0, 1)], Alone (sCall2 t0 p.1 p.2) id0 t0 c7 ∧ t0.loads = 0 ∧ t0.await = .ready ∧
      (sCall2 t0 p.1 p.2).mayRegister (courseOf id0) = true ∧
      ((sCall2 t0 p.1 p.2).release id0).commitsOpen id0 = false ∧
      ((sCall2 t0 p.1 p.2).part 0).map (fun q => q.callQ.full) = some (decide (p.2 = 2)) ∧
      ((sCall2 t0 p.1 p.2).part 0).map (fun q => q.callQ.set) = some true ∧ memWf (sCall2 t0 p.1 p.2).mem = true) ∧
    (∃ s1 : State, s1 = ((sCall2 t0 0 1).putCall id0 t0 5).modCourse ⟨0, 0⟩ (fun c => { c with committed := true }) ∧
      ∃ s2, s1.enterWait id0 (.syscall id0) = .entered s2 ∧
        (s2.setThread id0 { t0 with await := .call 1 }).closesCycle id0 (.syscall id0) = none) ∧
    (∃ (s : State) (p : Partition) (t : Thread), s.part 0 = some p ∧ p.callQ.head < p.callQ.tail ∧
      p.callQ.head + 1 < 2 ^ 64 ∧ s.caller 0 p.callQ.head = some id0 ∧ s.thread id0 = some t ∧ s.stepping id0 = false) ∧
    (∀ q ∈ [(1023 : Word), 1024], ∀ w ∈ [1, 2], Alone (sLaunch (tLaunch q) (devQueue w)) id0 (tLaunch q) c7 ∧
      Untyped (tLaunch q) true (.v 2) ∧ Untyped (tLaunch q) false (.v 4) ∧ (tLaunch q).loads < 63 ∧
      (sLaunch (tLaunch q) (devQueue w)).mayRegister (courseOf id0) = true ∧
      ((sLaunch (tLaunch q) (devQueue w)).release id0).commitsOpen id0 = false ∧
      ((tLaunch q).reg (.v 4)).bits = q ∧ (sLaunch (tLaunch q) (devQueue w)).stepping id0 = false) ∧
    (∃ bs s1 k pa key s2, (sLaunch (tLaunch 1023) (devQueue 1)).recordAt id0 (tLaunch 1023) ((tLaunch 1023).pair (.v 2)) 64 4
        (.v 6) = .ok (bs, s1) ∧ bs ≠ [] ∧ s1.queue 0 1023 = some k ∧ k.enabled = true ∧ k.dev = true ∧ k.ctx = 0 ∧
      k.write - k.rd < 2 ^ k.log2 ∧ s1.translateFor id0 (k.ringBase + BitVec.ofNat 64 (64 * (k.write % 2 ^ k.log2)))
        .write = .ok (pa, key, s2)) ∧
    (∃ bs s1 k, (sLaunch (tLaunch 1023) (devQueue 2)).recordAt id0 (tLaunch 1023) ((tLaunch 1023).pair (.v 2)) 64 4
        (.v 6) = .ok (bs, s1) ∧ bs ≠ [] ∧ s1.queue 0 1023 = some k ∧ 2 ^ k.log2 ≤ k.write - k.rd) ∧
    ∃ bs s1, (sLaunch (tLaunch 1024) (devQueue 2)).recordAt id0 (tLaunch 1024) ((tLaunch 1024).pair (.v 2)) 64 4
        (.v 6) = .ok (bs, s1) ∧ (∀ k, s1.queue 0 1024 = some k → 1023 < 1024) := by
  refine ⟨?_, ⟨_, rfl, _, rfl, by decide +kernel⟩,
    ⟨sCall2 { t0 with await := .call 1 } 1 2, _, _, rfl, by decide, by decide, by decide +kernel, rfl, noStep rfl _⟩, ?_,
    ⟨_, _, _, _, _, _, rfl, by decide +kernel, rfl, rfl, rfl, rfl, by decide, rfl⟩,
    ⟨_, _, _, rfl, by decide +kernel, rfl, by decide⟩, ⟨_, _, rfl, fun _ _ => by decide⟩⟩
  · intro p hp
    simp only [List.mem_cons, List.mem_nil_iff, or_false] at hp
    rcases hp with h | h <;> subst h <;>
      exact ⟨aloneCall2 _ _ _ (by decide), rfl, rfl, by decide, by decide +kernel, rfl, rfl, rfl⟩
  · intro q hq w hw
    simp only [List.mem_cons, List.mem_nil_iff, or_false] at hq hw
    rcases hq with h | h <;> rcases hw with h' | h' <;> subst h h' <;>
      exact ⟨⟨⟨⟨⟨0, 0, [id0], false⟩, rfl, rfl⟩, by decide⟩, rfl, by decide⟩, untyped (by decide), untyped (by decide),
        by decide, by decide, by decide +kernel, rfl, by decide⟩
/-! ### Turns, queues and the dispatcher -/

/-- Between gangs, with this run in slot 0 of core 0. -/
def sRun (r : Option Run) : State :=
  ({ live (on t0) with issue := none }).modCore 0 fun c => c.setSlot 0 { c.slot 0 with run := r }

def run0 (twin second mismatched : Bool) : Run := ⟨[id0], 0, twin, second, mismatched, false, []⟩

/-- A slot whose run goes on, one whose instruction issues twice, one without a candidate, one that picks; a
candidate at the limit of its age; a first and a second mismatch. -/
theorem test_meets_TurnsPicksAndTwins :
    (∀ s ∈ [sRun (some (run0 false false false)), sRun (some (run0 true true false)), sRun (some (run0 true false false)),
        { State.reset with issue := none }, sRun none], s.issue = none ∧ (47 : Nat) < noCore) ∧
    (((sRun (some (run0 true false false))).core 0).slot 0).run = some (run0 true false false) ∧
    State.reset.pick 47 = none ∧ ((State.reset.core 47).slot (State.reset.cycle % 4)).run = none ∧
    (sRun none).pick 0 = some ([id0], false) ∧ (((sRun none).core 0).slot ((sRun none).cycle % 4)).run = none ∧
    (∀ n ∈ [(4095 : Nat), 4096], ∃ s : State, s.thread id0 = some t0 ∧ t0.await = .ready ∧
      (s.core (s.coreOf id0)).picks - t0.since = n) ∧
    ∀ m : Bool, ∃ r : Run, (((sRun (some (run0 true true m))).core 0).slot 0).run = some r ∧ r.twin = true ∧
      r.second = true ∧ r.mismatched = m ∧ 0 < noCore ∧
      r.gang[Config.freeChoice (sRun (some (run0 true true m))).free % max r.gang.length 1]? = some id0 ∧
      (sRun (some (run0 true true m))).thread id0 = some t0 := by
  refine ⟨?_, rfl, by decide, rfl, by decide +kernel, rfl, ?_, fun m => ⟨run0 true true m, rfl, rfl, rfl, rfl, by decide, ?_, rfl⟩⟩
  · intro s hs
    simp only [List.mem_cons, List.mem_nil_iff, or_false] at hs
    rcases hs with h | h | h | h | h <;> subst h <;> exact ⟨rfl, by decide⟩
  · intro n hn
    refine ⟨(on t0).modCore 0 fun c => { c with picks := n }, rfl, rfl, ?_⟩
    simp only [List.mem_cons, List.mem_nil_iff, or_false] at hn
    rcases hn with h | h <;> subst h <;> rfl
  · show ([id0] : List ThreadId)[Config.freeChoice _ % 1]? = some id0
    rw [Nat.mod_one]
    rfl

/-- A queue table entry: 2^k packets, no device queue, context 0, ring at 0x12000, status block at 0x11FF0. -/
def entryOf (k : Nat) : Memory := memWriteN [] 0 (toLE (k * 2 ^ 152 + 0x12000 * 2 ^ 192 + 0x11FF0 * 2 ^ 256) 64)

/-- Bytes at consecutive addresses. -/
def cells (a : Nat) (bs : List Byte) : Memory := (bs.zipIdx.map fun p => (a + p.2, p.1)).filter fun p => p.2 != 0

def sEntry (k : Nat) : State := { live s0 with mem := entryOf k }

/-- A queue of the host of 16 packets with this read and write index. -/
def hostQueue (rd write : Nat) : Queue :=
  { devQueue write with ringBase := 0x12000, statusAddr := 0x11FF0, log2 := 4, dev := false, rd := rd }

/-- The descriptor of a kernel of one course of one thread and one register, at 0x10000 of the context. -/
def kdWord (magic regs : Nat) : Nat :=
  magic + 2 ^ 16 + (2 ^ 32 - 1) * 2 ^ 128 + regs * 2 ^ 176 + 2 ^ 192 + 2 ^ 224 + 2 * 2 ^ 304 + 2 ^ 416

/-- A launch of the descriptor at this address, without dependences. -/
def launchPkt (va : Nat) : BitVec 512 := BitVec.ofNat 512 (1 + va * 2 ^ 64)

/-- The page tables, the ring with one packet and the descriptor; queue 1023 of partition 0. -/
def sQueue (k : Queue) (pkt : BitVec 512) (magic regs : Nat) : State :=
  { ((live s0).setCtx 0 { ctx0 with twinOk := 1 }).setQueue 0 1023 k with
    mem := tables ++ cells 0x220000 (toLE (kdWord magic regs) 128) ++ cells 0x222000 (toLE pkt.toNat 64) }

def qHead : Queue := { hostQueue 0 1 with active := true }

/-- A head whose dependences are met, or still to be read at this address. -/
def headOf (dep : Option Nat) : Head := match dep with
  | none => ⟨launchPkt 0x10000, none, true, true⟩
  | some va => ⟨BitVec.ofNat 512 (1 + 2 ^ 13 + 2 ^ 128 + va * 2 ^ 192), none, false, true⟩

/-- Thirty-two active queues and one that waits for a slot. -/
def sSlots (n : Nat) : State :=
  (List.range n).foldl (fun s q => s.setQueue 0 q { hostQueue 0 1 with active := true, since := 1 })
    ((live s0).setQueue 0 1023 (hostQueue 0 1))

theorem kdRead (magic regs : Nat) (h : (magic, regs) ∈ [(0xD35C, 1), (0xD35C, 0), (0xD35D, 1)]) :
    (sQueue qHead (launchPkt 0x10000) magic regs).ctxRead 0 0x10000 128 = some (toLE (kdWord magic regs) 128) := by
  simp only [List.mem_cons, List.mem_nil_iff, or_false, Prod.mk.injEq] at h
  rcases h with ⟨h, h'⟩ | ⟨h, h'⟩ | ⟨h, h'⟩ <;> subst h h' <;> decide +kernel

theorem pktRead (va : Nat) (h : va ∈ [0x10000, 0x10040]) : (sQueue qHead (launchPkt va) 0xD35C 1).ctxRead 0
    (qHead.ringBase.toNat + 64 * (0 % 2 ^ 4)) 64 = some (toLE (launchPkt va).toNat 64) ∧
      BitVec.ofNat 512 (leNat (toLE (launchPkt va).toNat 64)) = launchPkt va := by
  simp only [List.mem_cons, List.mem_nil_iff, or_false] at h
  rcases h with h | h <;> subst h <;> decide +kernel

/-- Ring sizes at both ends of the range and outside it; doorbells on, above and beyond the ring. -/
theorem test_meets_QueuesAndPackets_control :
    (∀ k ∈ [(3 : Nat), 4, 16, 17], ∃ p, (sEntry k).part 0 = some p ∧ (1023 : Nat) ≤ 1023 ∧
      entryOk ((sEntry k).queueEntry 0 0) = decide (4 ≤ k ∧ k ≤ 16)) ∧
    (∃ (s : State) (k : Queue), s.queue 0 1023 = some k ∧ k.enabled = true ∧ s.dispatching 0 1023 = false) ∧
    (∃ (s : State) (k : Queue), s.queue 0 1023 = some k ∧ k.enabled = true ∧ s.dispatching 0 1023 = true) ∧
    (∀ w ∈ [(1 : DWord), 2, 16, 17], ((live s0).setQueue 0 1023 (hostQueue 0 1)).queue 0 1023 = some (hostQueue 0 1) ∧
      (hostQueue 0 1).enabled = true ∧ (hostQueue 0 1).dev = false ∧ ((hostQueue 0 1).write < w.toNat ↔ w ≠ 1)) ∧
    (hostQueue 0 1).pending = true ∧ (hostQueue 0 1).since = 0 ∧
    ∀ n ∈ [(1048575 : Nat), 1048576], ∃ s : State, s.queue 0 1023 = some (hostQueue 0 1) ∧ s.gts = n := by
  refine ⟨?_, ⟨(live s0).setQueue 0 1023 (hostQueue 0 1), hostQueue 0 1, rfl, rfl, by decide⟩,
    ⟨({ live s0 with launches := (live s0).launches.map fun p => (p.1, { p.2 with queue := 1023, next := 0 }) } :
      State).setQueue 0 1023 (hostQueue 1 2), hostQueue 1 2, rfl, rfl, by decide⟩, ?_, by decide, rfl, ?_⟩
  · intro k hk
    refine ⟨part0, rfl, by decide, ?_⟩
    revert k
    decide +kernel
  · intro w hw
    refine ⟨rfl, rfl, rfl, ?_⟩
    simp only [List.mem_cons, List.mem_nil_iff, or_false] at hw
    rcases hw with h | h | h | h <;> subst h <;> simp [hostQueue, devQueue]
  · intro n hn
    refine ⟨{ (live s0).setQueue 0 1023 (hostQueue 0 1) with cycle := (5 * n + 1) / 2 }, rfl, ?_⟩
    show 2 * ((5 * n + 1) / 2) / 5 = n
    omega

/-- A free slot, all slots held; a head that is not read, one refused and one accepted; each check. -/
theorem test_meets_QueuesAndPackets_packets :
    (∀ n ∈ [(31 : Nat), 32], (∀ e ∈ (sSlots n).queuesOf 0, e.2.active = true → e.2.pending = true) ∧
      leastBy (queueAbove (sSlots n).gts) (((sSlots n).queuesOf 0).filter fun e => e.2.pending && !e.2.active) =
        some (1023, hostQueue 0 1) ∧
      (((sSlots n).queuesOf 0).filter fun e => e.2.active).length = n) ∧
    (∃ low, leastBy (fun a b => queueAbove (sSlots 32).gts b a) (((sSlots 32).queuesOf 0).filter fun e => e.2.active) =
      some low) ∧
    (∀ p ∈ [qHead, { qHead with ringBase := 0x1000000 }], (sQueue p (launchPkt 0x10000) 0xD35C 1).queue 0 1023 = some p ∧
      p.active = true ∧ p.pending = true ∧ p.head = none ∧ p.disabling = false) ∧
    (sQueue { qHead with ringBase := 0x1000000 } (launchPkt 0x10000) 0xD35C 1).ctxRead 0 0x1000000 64 = none ∧
    (∃ bs, (sQueue qHead (launchPkt 0x10000) 0xD35C 1).ctxRead 0 (qHead.ringBase.toNat + 64 * (0 % 2 ^ 4)) 64 = some bs ∧
      ∃ kd, (sQueue qHead (launchPkt 0x10000) 0xD35C 1).checkPacket 0 qHead (BitVec.ofNat 512 (leNat bs)) = .ok (some kd)) ∧
    (∃ bs, (sQueue qHead (launchPkt 0x10040) 0xD35C 1).ctxRead 0 (qHead.ringBase.toNat + 64 * (0 % 2 ^ 4)) 64 = some bs ∧
      (sQueue qHead (launchPkt 0x10040) 0xD35C 1).checkPacket 0 qHead (BitVec.ofNat 512 (leNat bs)) = .error 2) ∧
    (∀ p ∈ [(0xD35C, 1), (0xD35C, 0), (0xD35D, 1)], ∃ bs,
      (sQueue qHead (launchPkt 0x10000) p.1 p.2).ctxRead 0 0x10000 128 = some bs ∧
        (KDesc.read bs).magic = p.1 ∧ (KDesc.read bs).version = 1 ∧ (KDesc.read bs).ok = decide (p.2 = 1)) ∧
    (∃ k : Queue, (sQueue { qHead with head := some (headOf none) } 0 0 0).queue 0 1023 = some k ∧ k.head = some (headOf none) ∧
      (sQueue { qHead with head := some (headOf none) } 0 0 0).mayBegin 0 1023 k (headOf none) = true) ∧
    ((sQueue qHead 0 0 0).pollHead qHead (headOf none)).dep0 = true ∧
    ((sQueue qHead 0 0 0).pollHead qHead (headOf none)).dep1 = true ∧
    ((sQueue qHead 0 0 0).pollHead qHead (headOf (some 0x11000))).dep0 = false := by
  refine ⟨by decide +kernel, ?_, by decide +kernel, by decide +kernel,
    ⟨toLE (launchPkt 0x10000).toNat 64, (pktRead _ (by decide)).1, ?_⟩,
    ⟨toLE (launchPkt 0x10040).toNat 64, (pktRead _ (by decide)).1, ?_⟩, ?_,
    ⟨{ qHead with head := some (headOf none) }, by decide +kernel, by decide +kernel, by decide +kernel⟩,
    by decide +kernel, by decide +kernel, by decide +kernel⟩
  · obtain ⟨a, h, -⟩ := someOf (fun _ => true) (x := leastBy (fun a b => queueAbove (sSlots 32).gts b a)
      (((sSlots 32).queuesOf 0).filter fun e => e.2.active)) (by decide +kernel)
    exact ⟨a, h⟩
  · rw [(pktRead _ (by decide)).2]
    exact isOkSome_eq (by decide +kernel)
  · rw [(pktRead _ (by decide)).2]
    exact isErr_eq (by decide +kernel)
  · intro p hp
    refine ⟨toLE (kdWord p.1 p.2) 128, kdRead p.1 p.2 hp, ?_⟩
    revert p
    decide +kernel
/-- The launch of two courses, one dispatched. -/
def sPlace : State :=
  let s := live s0
  { s with launches := s.launches.map fun p => (p.1, { p.2 with kd := { p.2.kd with courses := 2, tiles := 0, regs := 1 } }) }

/-- A core marked for a re-split of a kernel that wants these quanta. -/
def sResplit (rf sp : Nat) : State :=
  (withKd (live s0) fun k => { k with rfQ := rf, spQ := sp }).modCore 0 fun c => { c with resplit := some 0 }

/-- A course without threads, an entry of the core's ATOMD buffer, staged stores, and the launch's order. -/
def sDone (atomd : Bool) (staged : Bool) (turn : Nat) : State :=
  let s : State := { withCourse (live s0) (fun c => { c with
    staging := if staged then [entry 0 0xFF 0 0 none] else [] }) with threads := [] }
  let s : State := { s with launches := s.launches.map fun p => (p.1, { p.2 with kd := { p.2.kd with determ := true }, turn := turn }) }
  s.modCore 0 fun c => { c with atomd := if atomd then [⟨0, id0, 0, 0, .n32, .add, 0, none, none⟩] else [] }

def isNoCourse (x : Option Course) : Bool := x.isNone

/-- A course placed; re-split timers before and at their end; a kernel whose split fits and one whose does not;
each stage of a course's end; a launch with a course left and one without. -/
theorem test_meets_CoursesAreDispatchedAndRetired :
    (∃ (l : Launch) (core : Nat) (f : Fit) (s1 : State), sPlace.dispatchOrder 0 = [(0, l)] ∧
      l.nextCourse = some (1, none) ∧ sPlace.findPlace 0 l none = some (core, f, s1) ∧
      ∀ i, sPlace.thread ⟨0, 1, i⟩ = none) ∧
    (∃ core f, sPlace.bestCore [0] 0 KDesc.placed [0] = some (core, f)) ∧
    (∀ due ∈ [(0 : Nat), 1], ∃ (s : State) (p : Partition) (l : Launch), s.part 0 = some p ∧ s.launch 0 = some l ∧
      tget p.resplits 0 = some due ∧ s.gts = 0 ∧ leastBy (fun a b => decide ((s.coursesOn a).length < (s.coursesOn b).length))
        ((s.eligibleCores l).filter fun c => (s.core c).resplit.isNone) = some 0) ∧
    (∀ rs ∈ [(10, 4), (10, 5)], ∃ l, ((sResplit rs.1 rs.2).core 0).resplit = some 0 ∧
      (sResplit rs.1 rs.2).launch 0 = some l ∧ (0 : Nat) < noCore ∧
      (sResplit rs.1 rs.2).newSplit l.kd 0 = if rs.2 = 4 then some (10, 4) else none) ∧
    (∃ p : Partition, (live s0).part 0 = some p) ∧
    (∀ a b : Bool, ∀ turn ∈ [(0 : Nat), 1], ∃ c l, (sDone a b turn).course ⟨0, 0⟩ = some c ∧
      (sDone a b turn).courseDone ⟨0, 0⟩ c = true ∧
      ((sDone a b turn).core c.core).atomd.any (fun e => courseOf e.th == ⟨0, 0⟩) = a ∧
      (b = true ↔ c.staging ≠ []) ∧ c.commits = [] ∧ (sDone a b turn).mayRegister ⟨0, 0⟩ = decide (turn = 0) ∧
      (sDone a b turn).launch 0 = some l ∧ ∀ j, (sDone a b turn).stepping j = false) ∧
    ∀ n ∈ [(0 : Nat), 1], ∃ (s : State) (l : Launch), s.launch 0 = some l ∧ l.retired = n ∧ l.kd.courses = 1 ∧
      s.endWaits l = false := by
  refine ⟨?_, ?_, ?_, ?_, ⟨_, rfl⟩, ?_, ?_⟩
  · obtain ⟨⟨core, f, s1⟩, h, -⟩ := someOf (fun _ => true) (x := sPlace.findPlace 0
      ((sPlace.launch 0).getD ⟨0, 0, 0, 0, 0, KDesc.none, [], [], 0, [], 0, 0, [], []⟩) none) (by decide +kernel)
    exact ⟨_, core, f, s1, rfl, rfl, h, fun i => rfl⟩
  · obtain ⟨⟨core, f⟩, h, -⟩ := someOf (fun _ => true) (x := sPlace.bestCore [0] 0 KDesc.placed [0]) (by decide +kernel)
    exact ⟨core, f, h⟩
  · intro due hd
    refine ⟨(live s0).setPart 0 { part0 with resplits := [(0, due)] }, { part0 with resplits := [(0, due)] }, _, rfl, rfl,
      rfl, ?_, ?_⟩ <;> revert due <;> decide +kernel
  · intro rs hrs
    refine ⟨_, rfl, rfl, by decide, ?_⟩
    revert rs
    decide +kernel
  · intro a b turn ht
    refine ⟨_, _, rfl, ?_, ?_, ?_, ?_, ?_, by cases a <;> rfl, ?_⟩
    · revert a b turn; decide +kernel
    · revert a b turn; decide +kernel
    · revert a b turn; decide +kernel
    · rfl
    · revert a b turn; decide +kernel
    · exact noStep (by revert a b turn; decide +kernel)
  · intro n hn
    refine ⟨{ s0 with launches := s0.launches.map fun p => (p.1, { p.2 with retired := n }) }, _, rfl, rfl, rfl, ?_⟩
    revert n
    decide +kernel

/-! ### Translations, pre-emption and errors -/

/-- A fault queue of either level with one entry, on which the thread waits. -/
def sFault (hv : Bool) : State :=
  let r : Ring := { base := 0x2000, log2 := 4, tail := 1, head := 0, stamp := 0, srcs := [] }
  let s := (live (on { t0 with await := .fault ⟨hv, 0, some 0, 0, 0⟩ })).setPart 0 { part0 with faultQ := r }
  { s with mgmt := { s.mgmt with faultQ := r } }

/-- A page mapped and one that is not; the oldest entry of each queue, answered with retry. -/
theorem test_meets_TranslationsAndFaultAnswers :
    (∃ (s : State) (x : Context), s.ctx 0 = some x ∧ x.part = 0 ∧ ∀ p, s.part x.part = some p → p.snapshot = none) ∧
    (∃ e, State.walk { live s0 with mem := tables } 0 0x10000 = .ok e) ∧ (207 : Nat) < noCore ∧
    (∃ f, State.walk { live s0 with mem := tables } 0 0x20000 = .error f) ∧
    ∀ hv : Bool, ∃ (p : Partition) (t : Thread) (tk : Ticket), (sFault hv).part 0 = some p ∧
      (∀ n q, (sFault hv).part n = some q → q.snapshot = none) ∧ ((sFault hv).faultRing hv 0).head = 0 ∧
      ((sFault hv).faultRing hv 0).tail = 1 ∧ (sFault hv).thread id0 = some t ∧ t.await = .fault tk ∧ tk.hv = hv ∧
      tk.part = 0 ∧ tk.index = some 0 ∧ (∀ k ∈ (sFault hv).tickets, k.1.index ≠ none) ∧
      leNat ((sFault hv).readPhys (((sFault hv).faultRing hv 0).slot 0 32) 32) / 2 ^ 35 % 4 = 0 := by
  refine ⟨⟨live s0, ctx0, rfl, rfl, ?_⟩, okOf (by decide +kernel), by decide, ?_, fun hv => ⟨_, _, _, rfl, ?_, ?_, ?_, rfl, rfl, rfl,
    rfl, rfl, ?_, ?_⟩⟩
  · intro p hp
    have hp : some part0 = some p := hp
    cases hp
    rfl
  · obtain ⟨f, h, -⟩ := errWith (x := State.walk { live s0 with mem := tables } 0 0x20000) (by decide +kernel)
    exact ⟨f, h⟩
  · intro n q hq
    have := tget_mem hq
    have : (n, q) ∈ [((0 : Nat), { part0 with faultQ := { base := 0x2000, log2 := 4, tail := 1, head := 0, stamp := 0, srcs := [] } })] := this
    simp only [List.mem_cons, List.mem_nil_iff, or_false, Prod.mk.injEq] at this
    rw [this.2]
    rfl
  · revert hv; decide +kernel
  · revert hv; decide +kernel
  · revert hv; decide +kernel
  · revert hv; decide +kernel

/-- A context at this rung. -/
def sRung (r : Rung) (resident : Bool) (t : Nat) : State :=
  let s := live (on t0)
  let s : State := { s with threads := if resident then s.threads else [], courses := if resident then s.courses else [], issue := none }
  s.setCtx 0 { ctx0 with rung := r, softAt := some t, haltAt := some t }

def imageHead : Nat := 0x4000000000000000000000000100000000000000000000000000000000000000000000000000000000

/-- The image of a context without courses, at address 0x1000. -/
def image : Memory :=
  memWriteN [] 0x1000 (toLE imageHead 56 ++
    toLE (Config.imageCheck (toLE imageHead 56)).toNat 8)

def savedCourse : SavedCourse := ⟨⟨0, 0⟩, [(id0, t0)], [], [], [], [], []⟩

/-- A saved context with one course, whose image holds. -/
def ctxSaved : Context :=
  { ctx0 with rung := .saved, imageAddr := 0x1000, saved := some ⟨[savedCourse], [], [], []⟩ }

/-- The context saved, its course on no core, with these logical cores. -/
def sSaved (ltp : List Nat) : State :=
  let s := ((withCourse (live s0) fun c => { c with core := noCore, slots := [] }).setCtx 0 ctxSaved).setPart 0
    { part0 with ltp := ltp }
  { s with threads := [], issue := none, mem := image }

theorem leNat_append (a b : List Byte) : leNat (a ++ b) = leNat a + 256 ^ a.length * leNat b := by
  induction a with
  | nil => simp [leNat]
  | cons x r ih =>
    simp only [List.cons_append, leNat, ih, List.length_cons, Nat.pow_succ]
    rw [Nat.mul_add, ← Nat.mul_assoc, Nat.mul_comm (256 ^ r.length) 256, Nat.add_assoc]

theorem image_valid (ltp : List Nat) : (sSaved ltp).imageValid 0 ctxSaved = true := by
  have h : (sSaved ltp).readKeyed ctxSaved.keySlot ctxSaved.imageAddr.toNat 64 = memReadN image 0x1000 64 := rfl
  have hi : memReadN image 0x1000 64 = _ := memReadN_memWriteN (m := []) (by decide) 0x1000
    (toLE imageHead 56 ++
      toLE (Config.imageCheck (toLE imageHead 56)).toNat 8)
  have ht : ∀ l, ((toLE imageHead 56 ++ l).take 56 : List Byte) = toLE imageHead 56 :=
    fun l => List.take_left' (by simp)
  have hl : leNat (toLE imageHead 56) = imageHead := by
    rw [leNat_toLE]
    exact Nat.mod_eq_of_lt (by decide)
  have hk : (sSaved ltp).keyRevoked ctxSaved.keySlot = false := rfl
  simp only [State.imageValid, h, hi, ht, leNat_append, hl, leNat_toLE, toLE_length, hk]
  have hb : ∀ c, c < 256 ^ 8 → bits (imageHead + 256 ^ 56 * (c % 256 ^ 8)) 383 320 = 64 ∧
      bits (imageHead + 256 ^ 56 * (c % 256 ^ 8)) 255 246 = 0 ∧ bits (imageHead + 256 ^ 56 * (c % 256 ^ 8)) 239 224 = 1 ∧
      bits (imageHead + 256 ^ 56 * (c % 256 ^ 8)) 511 448 = c := by
    intro c hc
    simp only [bits, imageHead]
    omega
  obtain ⟨h1, h2, h3, h4⟩ := hb (Config.imageCheck (toLE imageHead 56)).toNat (BitVec.isLt _)
  have h0 : ∀ k a, (sSaved ltp).readKeyed k a 0 = [] := by
    intro k a
    simp [State.readKeyed, memReadN]
  simp only [h1, h2, h3, h4, h0, Nat.sub_self, List.append_nil]
  simp

/-- Without and with resident courses; each rung; timers before and at their end; images that hold, with and
without room, and one that does not. -/
theorem test_meets_ContextsAreHaltedSavedAndRestored :
    (∀ (r : Rung) (t : Nat), ∃ x, (sRung r true t).ctx 0 = some x ∧ x.rung = r ∧ x.moveOff = none ∧
      (sRung r true t).residentOf 0 ≠ [] ∧ x.softAt = some t ∧ x.haltAt = some t ∧
      ∃ p, (sRung r true t).part x.part = some p) ∧
    (∃ x, (sRung .running false 0).ctx 0 = some x ∧ x.rung = .running ∧ x.moveOff = none ∧
      (sRung .running false 0).residentOf 0 = []) ∧
    (sRung .halting true 0).haltDone 0 = true ∧ (sRung .running true 0).haltDone 0 = false ∧
    (∀ ltp ∈ [[0], ([] : List Nat)], (sSaved ltp).ctx 0 = some ctxSaved ∧ ctxSaved.rung = .saved ∧ ctxSaved.moveOff = none ∧
      (sSaved ltp).imageValid 0 ctxSaved = true ∧ ∃ sv, ctxSaved.saved = some sv ∧ sv.answers = [] ∧
      (((({ sSaved ltp with courses := (sSaved ltp).courses ++ sv.records, launches := (sSaved ltp).launches ++ sv.launches } : State).restoreAll [] sv.courses).isSome) = !ltp.isEmpty)) ∧
    ({ sSaved [0] with mem := [] } : State).imageValid 0 ctxSaved = false ∧
    (∃ t : Thread, (live (on { t with await := .debug })).thread id0 = some { t with await := .debug } ∧
      (live (on { t with await := .debug })).ctxOf id0 = 0) ∧
    (0xFFFFFFFFFFFFF000 : DWord).toNat % 1024 = 0 ∧ (0xFFFFFFFFFFFFF000 : DWord).toNat / 1024 % 4 = 0 ∧
    (0x1C00 : DWord).toNat % 1024 = 0 ∧ (0x1C00 : DWord).toNat / 2 ^ 13 = 0 ∧ ctx0.part = 0 := by
  refine ⟨fun r t => ⟨{ ctx0 with rung := r, softAt := some t, haltAt := some t }, rfl, rfl, rfl, ?_, rfl, rfl, part0, rfl⟩,
    ⟨{ ctx0 with softAt := some 0, haltAt := some 0 }, rfl, rfl, rfl, by decide +kernel⟩, by decide +kernel,
    by decide +kernel, ?_, by decide +kernel, ⟨t0, rfl, rfl⟩, by decide, by decide, by decide, by decide, rfl⟩
  · have h : (sRung r true t).courses = (live (on t0)).courses := rfl
    unfold State.residentOf
    rw [h]
    decide +kernel
  · intro ltp hl
    refine ⟨rfl, rfl, rfl, image_valid ltp, ⟨[savedCourse], [], [], []⟩, rfl, rfl, ?_⟩
    revert ltp
    decide +kernel
/-- The course rolled back this many times, committed or not, its core mirrored or not. -/
def sError (times : Nat) (committed mirror : Bool) (leased : Nat) : State :=
  let s := withCourse (live s0) fun c => { c with committed := committed, leased := leased, regBytes := 4096 }
  let s : State := { s with launches := s.launches.map fun p => (p.1, { p.2 with rollbacks := [(0, times)] }) }
  s.modCore 0 fun c => { c with mirror := mirror }

/-- At the time of a cluster's test, with its state. -/
def sTest (n : Nat) (cycle : Nat) (c : Cluster) : State := { live s0 with cycle := cycle, clusters := [(n, c)] }

/-- Three rollbacks and two; a course committed; a register whose mirror is usable, not usable and leased; a test
that starts on an empty cluster and on one with a course, one whose move is over, and each result. -/
theorem test_meets_ErrorsRollbacksAndTests :
    (∀ times, ∀ committed ∈ [false, true], ∃ c l x, (sError times committed false 0).course ⟨0, 0⟩ = some c ∧
      (sError times committed false 0).launch 0 = some l ∧ (sError times committed false 0).ctx c.ctx = some x ∧
      c.committed = committed ∧ tget l.rollbacks 0 = some times) ∧
    (∃ (x : Context) (la : Launch), (sError 2 false false 0).ctx 0 = some x ∧ x.part = 0 ∧
      (0 : DWord).toNat / 2 ^ 42 = 0 ∧ (0 : DWord).toNat % 1024 = 0 ∧
      leastBy (fun a b => decide (a.1 < b.1)) ((sError 2 false false 0).launches.filter fun p =>
        p.2.ctx == 0 && (sError 2 false false 0).holdsUnretired p.1 p.2 ((0 : DWord).toNat / 1024)) = some (0, la)) ∧
    (∀ (m : Bool) (b : Nat), ∃ c k x, (sError 0 false m b).thread id0 = some t0 ∧
      (sError 0 false m b).course (courseOf id0) = some c ∧ (sError 0 false m b).kdesc 0 = some k ∧
      (sError 0 false m b).ctx c.ctx = some x ∧ ((sError 0 false m b).core c.core).mirror = m ∧
      coreCluster c.core < 208 ∧ c.leasedReg k 191 = decide (b ≠ 0 ∧ 4096 < 768 + b)) ∧
    (∀ p ∈ [((0 : Nat), 36000000000000), (203, 172500000000 * 203)], ∃ s, s = sTest p.1 p.2 Cluster.reset ∧ p.1 < 208 ∧
      s.enabledCluster p.1 = true ∧ (s.cluster p.1).inService = true ∧ (s.cluster p.1).test = none ∧ 0 < s.gts ∧
      s.gts % 14400000000000 = 69000000000 * p.1 ∧ (s.ctxsOn p.1 = [] ↔ p.1 ≠ 0) ∧ s.windowOn p.1 = false ∧
      s.heldOn p.1 = false) ∧
    (∃ s, s = sTest 1 172500000000 Cluster.reset ∧ s.enabledCluster 1 = true ∧ s.gts = 69000000000 ∧ s.ctxsOn 1 = []) ∧
    (∃ s, s = sTest 1 0 { Cluster.reset with test := some (.moving 5) } ∧ (s.cluster 1).test = some (.moving 5) ∧
      s.ctxsOn 1 = []) ∧
    ∀ f : Option (Fin 4), ∃ s, s = sTest 207 0 { Cluster.reset with test := some (.testing 0), fused := f } ∧
      (s.cluster 207).test = some (.testing 0) ∧ (0 : Nat) ≤ s.gts ∧ (s.cluster 207).fused = f := by
  refine ⟨fun times committed _ => ⟨_, _, ctx0, rfl, rfl, rfl, rfl, rfl⟩, ⟨ctx0, _, rfl, rfl, rfl, rfl, rfl⟩, ?_, ?_,
    ⟨_, rfl, by decide +kernel, by decide +kernel, by decide +kernel⟩, ⟨_, rfl, rfl, by decide +kernel⟩,
    fun f => ⟨_, rfl, rfl, Nat.zero_le _, rfl⟩⟩
  · intro m b
    exact ⟨_, _, ctx0, rfl, rfl, rfl, rfl, rfl, (show coreCluster (Course.fresh 0 0 8).core < 208 by decide), by simp [Course.leasedReg]; rfl⟩
  · intro p hp
    refine ⟨_, rfl, ?_⟩
    revert p
    decide +kernel
/-! ### The hypervisor, migration and the outside -/

/-- The hypervisor started, with its argument and a block at 0x1000 that holds this value. -/
def sHv (s : State) (arg : DWord) (block : Nat) : State :=
  { s with started := true, mem := cells 0x1000 (toLE block 64), mgmt := { s.mgmt with arg := arg, addr := 0x1000 } }

/-- No partition or context. -/
def sBare : State := State.reset

/-- A partition without contexts, and key slot 3 loaded. -/
def sPart : State := { State.reset.setPart 0 part0 with keys := [(3, ⟨0, false⟩)] }

/-- Slice 0, port 0, namespace 1, no tokens, an image of 4,096 bytes from the namespace. -/
def partBlock : Nat := 1 + 2 ^ 64 + 4096 * 2 ^ 256

/-- Op 11's block: group 255 of one member, rank 0, its list behind the block. -/
def groupBlock : Nat := 0x1040000000010000000000000000000000000000000000000000000000000000000000000000000000000000000000000000000000000000FF00

/-- The block and the list, whose one member is this device. -/
def sGroup : State :=
  { sHv sPart 0 0 with mem := memWriteN [] 0x1000 (toLE groupBlock 64 ++ toLE Config.deviceNumber 8) }

theorem memReadN_length (m : Memory) : ∀ (n a : Nat), (memReadN m a n).length = n
  | 0, _ => rfl
  | n + 1, a => by rw [memReadN, List.length_cons, memReadN_length m n (a + 1)]

theorem memReadN_add (m : Memory) : ∀ (i a j : Nat), memReadN m a (i + j) = memReadN m a i ++ memReadN m (a + i) j
  | 0, a, j => by rw [Nat.zero_add]; rfl
  | i + 1, a, j => by
    rw [Nat.add_right_comm]
    simp only [memReadN, List.cons_append]
    rw [memReadN_add m i (a + 1) j, Nat.add_assoc, Nat.add_comm 1 i]

theorem block_read (s : State) (n d : Nat) (h : s.mem = memWriteN [] 0x1000 (toLE n 64 ++ toLE d 8)) :
    leNat (s.readPhys 0x1000 64) = n % 256 ^ 64 ∧ leNat (s.readPhys 0x1040 8) = d % 256 ^ 8 := by
  have h1 := memReadN_memWriteN (m := []) (by decide) 0x1000 (toLE n 64 ++ toLE d 8)
  rw [← h, List.length_append, toLE_length, toLE_length, memReadN_add] at h1
  obtain ⟨h2, h3⟩ := List.append_inj h1 (by rw [memReadN_length, toLE_length])
  rw [State.readPhys, State.readPhys, h2, h3, leNat_toLE, leNat_toLE]
  exact ⟨rfl, rfl⟩

theorem group_read (h : Config.deviceNumber < 2 ^ 13) :
    leNat (sGroup.readPhys 0x1000 64) = groupBlock ∧ leNat (sGroup.readPhys 0x1040 8) = Config.deviceNumber := by
  obtain ⟨h1, h2⟩ := block_read sGroup groupBlock Config.deviceNumber rfl
  exact ⟨h1.trans (by decide +kernel), h2.trans (Nat.mod_eq_of_lt (by omega))⟩

/-- Arguments at the ends of their ranges, a target that exists and one that does not, a block that is wrong and
one that is right. Of op 1 the namespace's presence and the image's signature, of op 5 the record that
unwraps, and this device's own number are outside (log entry 7). -/
theorem test_meets_HypervisorCommands :
    (∀ s : State, ∀ a n, (sHv s a n).started = true ∧ ((sHv s a n).mgmt.busy = s.mgmt.busy) ∧ (sHv s a n).mgmt.arg = a) ∧
    (live s0).mgmt.busy = false ∧ 40 ≤ (40 : DWord).toNat ∧ (39 : DWord).toNat < 40 ∧ 512 ≤ (512 : DWord).toNat ∧
    (511 : DWord).toNat < 512 ∧
    (sHv sBare 39 0).checkPartition 39 0 true = .error 1 ∧
    (Config.namespacePresent 1 = true → (sHv sBare 39 partBlock).checkPartition 39 partBlock true = .ok ()) ∧
    (sHv sBare 39 0).part 39 = none ∧
    (∃ p, (sHv (live s0) 0 0).part 0 = some p ∧ (sHv (live s0) 0 0).ctxsOf 0 ≠ []) ∧
    (∃ p, (sHv sPart 0 0).part 0 = some p ∧ (sHv sPart 0 0).ctxsOf 0 = []) ∧
    (∀ n ∈ [(3000 : Nat), 3001], leNat ((sHv sPart 0 (n * 2 ^ 112)).readPhys 0x1000 64) / 2 ^ 112 % 2 ^ 16 = n) ∧
    (sHv sPart 0 0).allocSum 0 + 3000 ≤ (sHv sPart 0 0).mgmt.pkgTokens ∧
    ((sHv (sPart.setPart 1 { part0 with nextAlloc := 1 }) 0 0).mgmt.pkgTokens <
      (sHv (sPart.setPart 1 { part0 with nextAlloc := 1 }) 0 0).allocSum 0 + 3000) ∧
    (((sHv sPart 0 0).readPhys 0x1000 64).drop 40).all (· == 0) = true ∧
    leNat ((((sHv sPart 0 0).readPhys 0x1000 64).drop 32).take 8) % 64 = 0 ∧
    contextOk (3 * 2 ^ 24) = true ∧ contextOk 2 = false ∧ (sHv sPart 511 0).ctx 511 = none ∧
    ((sHv sPart 511 0).part 0).isSome = true ∧ (sHv sPart 511 0).keyLoaded 3 = true ∧ (sHv sPart 511 0).keyLoaded 2 = false ∧
    tget (sHv sPart 511 0).keys 3 = some ⟨0, false⟩ ∧
    ((sHv (live s0) 0 0).ctx 0).isSome = true ∧
    (∀ r : Rung, ∃ x, (sHv ((live s0).setCtx 0 { ctx0 with rung := r }) 0 0).ctx 0 = some x ∧ x.rung = r) ∧
    (Config.deviceNumber < 2 ^ 13 → ∃ p, sGroup.started = true ∧ sGroup.mgmt.busy = false ∧
      sGroup.mgmt.addr.toNat / 64 * 64 = 0x1000 ∧ sGroup.part sGroup.mgmt.arg.toNat = some p ∧
      ∃ n, n = leNat (sGroup.readPhys 0x1000 64) ∧ n / 2 ^ 16 % 2 ^ 368 = 0 ∧ n % 2 ^ 8 = 0 ∧
        n / 2 ^ 416 % 2 ^ 32 = 1 ∧ n / 2 ^ 448 % 2 ^ 64 = 0x1040 ∧ n / 2 ^ 384 % 2 ^ 32 = 0 ∧
        leNat (sGroup.readPhys 0x1040 8) = Config.deviceNumber) ∧
    (∃ s : State, s.gts % 1000000 = 0 ∧ s.gts ≠ s.settled) ∧ (∃ s : State, s.gts % 1000000 ≠ 0) := by
  refine ⟨fun s a n => ⟨rfl, rfl, rfl⟩, rfl, by decide, by decide, by decide, by decide, isErr_eq (by decide +kernel), ?_,
    rfl, ⟨part0, rfl, by decide⟩, ⟨part0, rfl, by decide⟩, by decide +kernel, by decide +kernel, by decide +kernel, by decide +kernel,
    by decide +kernel, by decide +kernel, by decide +kernel, rfl, rfl, rfl, rfl, rfl, rfl, fun r => ⟨{ ctx0 with rung := r }, rfl, rfl⟩,
    fun h => ⟨part0, rfl, rfl, rfl, rfl, _, rfl, by rw [(group_read h).1]; decide +kernel, by rw [(group_read h).1]; decide +kernel,
      by rw [(group_read h).1]; decide +kernel, by rw [(group_read h).1]; decide +kernel, by rw [(group_read h).1]; decide +kernel, (group_read h).2⟩,
    ⟨{ s0 with cycle := 2500000 }, by decide, by decide⟩, ⟨{ s0 with cycle := 3 }, by decide⟩⟩
  intro h
  have h1 : bits partBlock 95 64 = 1 := by decide +kernel
  have e1 : (sHv sBare 39 partBlock).descriptorOk partBlock true = true := by decide +kernel
  have e2 : (sHv sBare 39 partBlock).part 39 = none := rfl
  have e3 : (sHv sBare 39 partBlock).parts = [] := rfl
  have e4 : (sHv sBare 39 partBlock).allocSum 39 + bits partBlock 127 112 ≤ (sHv sBare 39 partBlock).mgmt.pkgTokens := by decide +kernel
  generalize sHv sBare 39 partBlock = s at e1 e2 e3 e4 ⊢
  simp [State.checkPartition, ensure, e1, e2, e3, h1, h, e4]
  rfl
/-- A partition that migrates: which way, pages absent, MIG_STAT's state; a thread stopped on page 34. -/
def sMig (out : Bool) (absent : List Nat) (state : BitVec 8) (cycle : Nat) : State :=
  let s := live (on { t0 with await := .fault ⟨true, 0, some 0, BitVec.ofNat 256 (0x10000 * 2 ^ 192), 0⟩ })
  let s := s.setPart 0 { part0 with migration := some ⟨out, 0, 0, 0, 0, 0, absent, [0]⟩, snapshot := some ⟨[], [], [34]⟩ }
  { s with mem := tables, mgmt := { s.mgmt with migState := state }, cycle := cycle }

/-- The contexts' partition and a key in slot 3. -/
def sKeyed : State := { live s0 with keys := [(3, ⟨0, false⟩)] }

/-- Op 10's block and descriptor. -/
def sIn : State :=
  let m := cells 0x1000 (toLE (3 * 2 ^ 320) 64) ++ cells 0x1040 (toLE partBlock 64)
  { sHv { sBare with keys := [(3, ⟨0, false⟩)] } 39 0 with mem := m }

/-- A block that is wrong and one that is right, with a session key that is loaded and one that is not; a
destination and a source in each of its states, its context still running and saved; the last absent page and
one of two; a context to restore; a pull before and at its limit. The check of op 10 rests on the namespace's presence (log entry 7). -/
theorem test_meets_MigrationsAndPulls :
    (∀ s a n, (sHv s a n).started = true ∧ (sHv s a n).mgmt.busy = s.mgmt.busy) ∧ sKeyed.mgmt.busy = false ∧
    (sHv sKeyed 0 2).checkMigrateOut = .error 1 ∧ (sHv sKeyed 0 2).checkMigrateIn = .error 1 ∧
    (∀ k ∈ [(0 : Nat), 3], (sHv sKeyed 0 (k * 2 ^ 320)).checkMigrateOut = .ok (0, k * 2 ^ 320, part0) ∧
      (sHv sKeyed 0 (k * 2 ^ 320)).keyLoaded (k * 2 ^ 320 / 2 ^ 320 % 2 ^ 10) = decide (k = 3)) ∧
    (∃ x, (sHv sKeyed 0 0).ctx 0 = some x ∧ x.part = 0 ∧ x.rung = .running) ∧
    (Config.namespacePresent 1 = true → ∃ s : State, s.started = true ∧ s.mgmt.busy = false ∧
      s.checkMigrateIn = .ok (39, 3 * 2 ^ 320, partBlock) ∧ s.keyLoaded (3 * 2 ^ 320 / 2 ^ 320 % 2 ^ 10) = true) ∧
    (∀ out absent state cycle, ∃ p m, (sMig out absent state cycle).part 0 = some p ∧ p.migration = some m ∧
      m.outgoing = out ∧ m.absent = absent ∧ (sMig out absent state cycle).mgmt.migState = state ∧
      m.ctxs = [0] ∧ (p.snapshot.map fun q => q.dirty) = some [34] ∧ (out = true →
        (sMig out absent state cycle).parts.find? (fun q => q.2.migration.any (·.outgoing)) = some (0, p))) ∧
    (∀ r, ∃ x, ((sMig true [] 2 0).setCtx 0 { ctx0 with rung := r, saved := some ⟨[], [], [], []⟩ }).ctx 0 = some x ∧
      x.rung = r ∧ x.part = 0 ∧ x.saved.isSome = true) ∧
    ([34].filter (fun k => k ≠ 34) = ([] : List Nat) ∧ [34, 35].filter (fun k => k ≠ 34) ≠ ([] : List Nat)) ∧
    memWf (sMig false [34] 6 0).mem = true ∧ (List.replicate 65536 (0 : Byte)).length = 65536 ∧
    (∀ c ∈ [(24999999 : Nat), 25000000], (sMig false [34] 6 c).pullBegan 34 = some 0) ∧
    (sMig false [34] 6 24999999).gts < 10000000 ∧ 10000000 ≤ (sMig false [34] 6 25000000).gts ∧
    (∃ x, (sMig false [34] 6 0).ctx 0 = some x ∧ x.part = 0 ∧ 34 ∈ (sMig false [34] 6 0).pagesOf x) := by
  refine ⟨fun s a n => ⟨rfl, rfl⟩, rfl, isErr_eq (by decide +kernel), isErr_eq (by decide +kernel), ?_, ⟨ctx0, rfl, rfl, rfl⟩, ?_,
    fun out _ _ _ => ⟨_, _, rfl, rfl, rfl, rfl, rfl, rfl, rfl, fun h => by subst h; rfl⟩,
    fun r => ⟨{ ctx0 with rung := r, saved := some ⟨[], [], [], []⟩ }, rfl, rfl, rfl, rfl⟩, by decide,
    by decide +kernel, List.length_replicate, by decide +kernel,
    by decide +kernel, by decide +kernel, ⟨ctx0, rfl, rfl, by decide +kernel⟩⟩
  · intro k hk
    simp only [List.mem_cons, List.mem_nil_iff, or_false] at hk
    rcases hk with h | h <;> subst h <;> exact ⟨okEq (by decide +kernel), by decide +kernel⟩
  · intro h
    refine ⟨sIn, rfl, rfl, ?_, by decide +kernel⟩
    generalize hs : sIn = s
    have h1 : bits partBlock 95 64 = 1 := by decide +kernel
    have e0 : s.target 40 = .ok 39 := by rw [← hs]; rfl
    have b1 : leNat (s.block 64) = 3 * 2 ^ 320 := by rw [← hs]; decide +kernel
    have b2 : leNat ((s.block 128).drop 64) = partBlock := by rw [← hs]; decide +kernel
    have e1 : s.descriptorOk partBlock false = true := by rw [← hs]; decide +kernel
    have e2 : s.part 39 = none := by rw [← hs]; rfl
    have e3 : s.parts = [] := by rw [← hs]; rfl
    have e4 : s.allocSum 39 + bits partBlock 127 112 ≤ s.mgmt.pkgTokens := by rw [← hs]; decide +kernel
    have e5 : migrationOk (3 * 2 ^ 320) = true := by decide +kernel
    have ec : s.checkPartition 39 partBlock false = .ok () := by
      simp [State.checkPartition, ensure, e1, e2, e3, h1, h, e4]
      rfl
    rw [State.checkMigrateIn, e0, b1, b2]
    show (bind (ensure (migrationOk (3 * 2 ^ 320)) hvBad) fun _ => bind (s.checkPartition 39 partBlock false) fun _ =>
      .ok (39, 3 * 2 ^ 320, partBlock)) = _
    rw [e5]
    show (bind (s.checkPartition 39 partBlock false) fun _ => .ok (39, 3 * 2 ^ 320, partBlock)) = _
    rw [ec]
    rfl
/-- A thread that watches line 8; the descriptor of a collective at 0x10000 of the context; a group of two; ports. -/
def sOut (block : Nat) (retries : Nat) (up : Bool) : State :=
  let s := live (on { t0 with monitor := some ⟨8, 8, 0, false, false⟩ })
  let s := s.setPart 0 { part0 with groups := [(0, ⟨[0, 6143], 1, 0⟩)] }
  let m := tables ++ cells 0x220000 (toLE block 64)
  let p : Port := { Port.reset with retries := retries, inService := up }
  { s with mem := m, ports := Vector.replicate 18 p, collectives := [(7, ⟨7, 0, 0, BitVec.ofNat 512 block, [0, 6143], 1, [0, 0, 0x80, 0x3F], 0⟩)] }

/-- allreduce of one FP32 element at 0x10040; a field that must be zero set; a group that is not set. -/
def collBlock (bad group : Nat) : Nat := bad * 2 ^ 16 + group * 2 ^ 8 + 2 ^ 224 + 0x10040 * 2 ^ 256

/-- An address of every class; a watch on the line; ports before and at their last retry; descriptors of every
kind; contributions of the length; a sum of two FP32 values. -/
theorem test_meets_HostLinkAndCollectives :
    ((sOut 0 0 true).physClass 1024 = .hbm ∧ (sOut 0 0 true).physClass (2 ^ 50 - 1) = .host ∧
      (sOut 0 0 true).physClass (2 ^ 50) = .window ∧ (sOut 0 0 true).physClass (2 ^ 40 - 1) = .absent) ∧
    (sOut 0 0 true).isPoisoned 1024 8 = false ∧ memWf (sOut 0 0 true).mem = true ∧
    (∃ t m, (sOut 0 0 true).thread id0 = some t ∧ t.monitor = some m ∧ m.phys = 1024 / 128 ∧ m.lost = false) ∧
    (sOut 0 0 true).linkUp = true ∧ (sOut 0 0 false).linkUp = false ∧
    (∃ p, (sOut 0 0 true).part 0 = some p) ∧
    (∀ k ∈ [(15 : Nat), 16, 17], ∀ n : Fin 18, ((sOut 0 k true).ports[n]).inService = true ∧ ((sOut 0 k true).ports[n]).retries = k) ∧
    ((0x10000 : DWord).toNat % 64 = 0 ∧ (0x1000000 : DWord).toNat % 64 = 0) ∧
    (sOut 0 0 true).ctxReadAll 0 (0x1000000 : DWord).toNat 64 = none ∧
    (∀ b ∈ [collBlock 0 0, collBlock 1 0, collBlock 0 1], ∃ bs, (sOut b 0 true).ctxReadAll 0 0x10000 64 = some bs ∧
      leNat bs = b) ∧
    (collOk (collBlock 0 0) = true ∧ collOk (collBlock 1 0) = false ∧ collOk (collBlock 0 1) = true) ∧
    (∃ mine g, (sOut (collBlock 0 0) 0 true).ctxReadAll 0 (collBlock 0 0 / 2 ^ 256 % 2 ^ 64) 4 = some mine ∧
      ((sOut (collBlock 0 0) 0 true).part 0).bind (fun p => tget p.groups (collBlock 0 0 / 2 ^ 8 % 2 ^ 8)) = some g ∧
      (∀ m ∈ g.members, m < 6144) ∧
      ((sOut (collBlock 0 1) 0 true).part 0).bind (fun p => tget p.groups (collBlock 0 1 / 2 ^ 8 % 2 ^ 8)) = none) ∧
    (∃ c, tget (sOut (collBlock 0 0) 0 true).collectives 7 = some c ∧ ([[0, 0, 0, 0x40]] : List (List Byte)).length + 1 = c.members.length ∧
      (∀ b ∈ ([[0, 0, 0, 0x40]] : List (List Byte)), b.length = c.mine.length) ∧
      (sOut (collBlock 0 0) 0 true).linkHeld 2 = false ∧ 1 < c.members.length ∧
      tget (sOut (collBlock 0 0) 0 false).collectives 7 = some c) ∧
    ([1] : List Byte) ≠ [] ∧ [(1 : Nat), 2].Perm [2, 1] ∧
    ∃ (xs : List Nat) (vs : List Rat), xs ≠ [] ∧ (xs.map fun x => valueOf (Fmt.f32.read x)) = vs.map some ∧
      vs.foldr (· + ·) 0 ≠ 0 := by
  refine ⟨by decide +kernel, by decide +kernel, by decide +kernel, ⟨{ t0 with monitor := some ⟨8, 8, 0, false, false⟩ },
      ⟨8, 8, 0, false, false⟩, rfl, rfl, rfl, rfl⟩, by decide +kernel, by decide +kernel, ⟨_, rfl⟩, by decide +kernel, ⟨by decide, by decide⟩,
    by decide +kernel, ?_, by decide +kernel, ?_, ?_, by decide, List.Perm.swap 2 1 [],
    ⟨[0x3F800000, 0xC0400000], [1, -3], by decide, by decide +kernel, by decide +kernel⟩⟩
  · intro b hb
    have : (sOut b 0 true).ctxReadAll 0 0x10000 64 = some (toLE b 64) ∧ leNat (toLE b 64) = b := by
      revert b
      decide +kernel
    exact ⟨_, this⟩
  · exact ⟨[0, 0, 0, 0], ⟨[0, 6143], 1, 0⟩, by decide +kernel, by decide +kernel, by decide, by decide +kernel⟩
  · exact ⟨⟨7, 0, 0, BitVec.ofNat 512 (collBlock 0 0), [0, 6143], 1, [0, 0, 0x80, 0x3F], 0⟩, rfl, rfl, by decide, by decide +kernel, by decide, rfl⟩
/-! ### Starts and the tools -/

/-- A section header: name, type, offset, size, alignment. -/
def shdr (name type off size align : Nat) : List Byte :=
  toLE name 4 ++ toLE type 4 ++ toLE 0 16 ++ toLE off 8 ++ toLE size 8 ++ toLE 0 8 ++ toLE align 8 ++ toLE 0 8

/-- An object without placed sections, with this many relocation entries at no site (R20, R27). -/
def elf (relas : Nat) : List Byte :=
  [0x7F, 0x45, 0x4C, 0x46, 2, 1, 1] ++ List.replicate 9 0 ++ toLE 3 2 ++ toLE 0x0F3D 2 ++ toLE 1 4 ++ toLE 0 8 ++
    toLE 64 8 ++ toLE 152 8 ++ toLE 1 4 ++ toLE 64 2 ++ toLE 56 2 ++ toLE 1 2 ++ toLE 64 2 ++ toLE 3 2 ++ toLE 2 2 ++
    toLE 1 4 ++ toLE 7 4 ++ toLE 65536 8 ++ toLE 65536 16 ++ toLE 0 24 ++
    [0, 0x2E, 0x72, 0x65, 0x6C, 0x61, 0, 0] ++ toLE 1 24 ++
    shdr 0 0 0 0 0 ++ shdr 1 4 128 (24 * relas) 8 ++ shdr 0 3 120 8 1

def sTools (files : Table String (List Byte)) : State := { State.reset with tools := ⟨files, "", 0⟩ }

def objFile : Table String (List Byte) := [("a.o", elf 0), ("b.o", elf 1), ("a.fjs", []), ("b.fjs", [0x3F, 0x0A])]

/-- A call that is not one; a source that is missing, that has no error and that has one; an object that is
missing, one that loads and one that fails; a base that is not aligned. -/
theorem test_meets_StartsAndToolRuns :
    fjasOpts ["-o"] {} = none ∧ fjldOpts [] {} = none ∧
    (∃ o, fjasOpts [] {} = some o ∧ o.src = none) ∧
    (∀ f ∈ ["a.fjs", "b.fjs"], ∃ o, fjasOpts [f] {} = some o ∧ o.src = some f ∧ o.list = none ∧ o.werror = false ∧
      tget (sTools []).tools.files f = none ∧ (∃ bs, tget (sTools objFile).tools.files f = some bs) ∧
      fjasDefs o.defs [] = some [] ∧ unwritable (o.out.getD (defaultOut f)) = false) ∧
    (let e := expandSource [] (linesOf []); (e.reports ++ (assemble true [] e.out.reverse).reports) = []) ∧
    (let e := expandSource [] (linesOf [0x3F, 0x0A])
     (e.reports ++ (assemble true [] e.out.reverse).reports).map (·.warn) = [false]) ∧
    (∀ f ∈ ["a.o", "b.o"], ∃ o objs, fjldOpts [f] {} = some o ∧ o.out = none ∧ o.objs = [f] ∧
      tget (sTools []).tools.files f = none ∧ readAll (sTools objFile).tools.files o.objs = .ok objs ∧
      optionFault o objs = none ∧ ∃ base, (sTools objFile).chooseBase none o objs = some base ∧
        if f = "a.o" then ∃ x, (Image.mk objs (placeImage objs base).1 (placeImage objs base).2 o.binds).load = .ok x
        else ∃ x, (Image.mk objs (placeImage objs base).1 (placeImage objs base).2 o.binds).load = .error x) ∧
    (∃ o, fjldOpts ["--base", "0x1_0010", "a.o"] {} = some o ∧ ∃ b, o.base = some b ∧ b % 65536 ≠ 0) := by
  refine ⟨by decide +kernel, by decide +kernel, ⟨_, rfl, rfl⟩, ?_, by decide +kernel, by decide +kernel, ?_, ?_⟩
  · intro f hf
    have h : tget (sTools []).tools.files f = none ∧ (tget (sTools objFile).tools.files f).isSome = true ∧
        unwritable (defaultOut f) = false := by
      revert f
      decide +kernel
    obtain ⟨o, h1, h2⟩ := someOf (x := fjasOpts [f] {}) (fun o => o.src == some f && o.list.isNone && !o.werror &&
      o.defs.isEmpty && o.out.isNone) (by clear h; revert f; decide +kernel)
    simp only [Bool.and_eq_true, beq_iff_eq, Option.isNone_iff_eq_none, Bool.not_eq_true', List.isEmpty_iff] at h2
    exact ⟨o, h1, h2.1.1.1.1, h2.1.1.1.2, h2.1.1.2, h.1, Option.isSome_iff_exists.1 h.2.1, by rw [h2.1.2]; rfl,
      by rw [h2.2]; exact h.2.2⟩
  · intro f hf
    have h0 : tget (sTools []).tools.files f = none := by revert f; decide +kernel
    obtain ⟨objs, h3, h4⟩ := okWith (x := readAll (sTools objFile).tools.files [f]) (fun objs =>
      (optionFault { objs := [f] } objs).isNone && (match (sTools objFile).chooseBase none { objs := [f] } objs with
        | none => false
        | some base => match (Image.mk objs (placeImage objs base).1 (placeImage objs base).2 []).load with
          | .ok _ => f == "a.o"
          | .error _ => f == "b.o")) (by clear h0; revert f; decide +kernel)
    obtain ⟨o, h1, h2⟩ := someOf (x := fjldOpts [f] {}) (fun o => o.objs == [f] && o.out.isNone && o.base.isNone &&
      o.binds.isEmpty) (by clear h0 h3 h4; revert f; decide +kernel)
    simp only [Bool.and_eq_true, beq_iff_eq, Option.isNone_iff_eq_none, List.isEmpty_iff] at h2
    obtain ⟨o1, o2, o3, o4⟩ := o
    simp only at h2
    obtain ⟨⟨⟨h5, h6⟩, h7⟩, h8⟩ := h2
    subst h5 h6 h7 h8
    simp only [Bool.and_eq_true, Option.isNone_iff_eq_none] at h4
    refine ⟨_, objs, h1, rfl, rfl, h0, h3, h4.1, ?_⟩
    have h4 := h4.2
    split at h4
    · cases h4
    · next base hb =>
      refine ⟨base, hb, ?_⟩
      split at h4
      · next x hx => rw [if_pos (eq_of_beq h4)]; exact ⟨x, hx⟩
      · next x hx => rw [if_neg (by rw [eq_of_beq h4]; decide)]; exact ⟨x, hx⟩
  · obtain ⟨o, h1, h2⟩ := someOf (x := fjldOpts ["--base", "0x1_0010", "a.o"] {}) (fun o => match o.base with
      | some b => b % 65536 != 0
      | none => false) (by decide +kernel)
    refine ⟨o, h1, ?_⟩
    split at h2
    · next b hb => exact ⟨b, hb, by simpa using h2⟩
    · cases h2
/-! ### Words and steps -/

/-- The state whose next step fetches this word. -/
def sWord (w : IWord) : State := State.reset.withFetchWord 96 w.toNat

/-- `iadd.n32 v4, v1, v2` (R55, R57). -/
def wAdd : IWord := 0x000040102700FF0000000000

/-- The same with the reserved bit 64 set (R55). -/
def wBad : IWord := 0x000040102701FF0000000000

theorem test_meets_EncodeDecode :
    (∃ i w, Instr.wf i = true ∧ encode i = some w) ∧ ∃ w i, decode w = .ok i :=
  ⟨⟨.iadd ⟨c7, .n32, .v 4, .v 1, .reg (.v 2)⟩, wAdd, by decide, rfl⟩,
    ⟨wAdd, .iadd ⟨c7, .n32, .v 4, .v 1, .reg (.v 2)⟩, rfl⟩⟩

/-- A word with a reserved bit set, and one of a pair that R57 does not assign, are no instructions. -/
theorem test_words_refused :
    decodeTableWord 96 0x000040102701FF0000000000 = none ∧ decodeTableWord 96 0x016040102700FF0000000000 = none ∧
    decodeTableWord 96 0x000040102700FF0000000000 = some (.iadd ⟨c7, .n32, .v 4, .v 1, .reg (.v 2)⟩) := by
  decide +kernel

theorem fetched (w : IWord) (h : (match ((sWord w).fetch id0 0).1 with | .word x => x == w | _ => false) = true) :
    ∃ s1, (sWord w).fetch id0 0 = (.word w, s1) := by
  generalize (sWord w).fetch id0 0 = r at h
  obtain ⟨r, s1⟩ := r
  simp only at h
  split at h
  · rw [eq_of_beq h]
    exact ⟨s1, rfl⟩
  · cases h

theorem test_meets_StepRunsTheDecodedInstruction :
    (∀ w ∈ [wAdd, wBad], (sWord w).inputs = [] ∧ (sWord w).issue = some ⟨0, 0, [id0], false⟩ ∧
      (sWord w).thread id0 = some t0 ∧ t0.pc = 0 ∧ ∃ s1, (sWord w).fetch id0 0 = (.word w, s1)) ∧
    (∃ (i : Instr) (k : KDesc) (s1 : State), decode wAdd = .ok i ∧ (sWord wAdd).fetch id0 0 = (.word wAdd, s1) ∧
      s1.kdesc 0 = some k ∧ Instr.fits k i = true ∧ s1.unitAbsent wAdd = false ∧ s1.heldAtIssue i = false) ∧
    (∀ i, decode wBad ≠ .ok i) ∧
    ∃ (s : State) (i : Instr) (rest : List Instr), s.inputs = i :: rest := by
  refine ⟨?_, ?_, ?_, ⟨{ sWord wAdd with inputs := [.coldStart] }, .coldStart, [], rfl⟩⟩
  · intro w hw
    refine ⟨rfl, rfl, rfl, rfl, fetched w ?_⟩
    simp only [List.mem_cons, List.mem_nil_iff, or_false] at hw
    rcases hw with h | h <;> subst h <;> decide +kernel
  · obtain ⟨s1, h⟩ := fetched wAdd (by decide +kernel)
    have e : s1 = ((sWord wAdd).fetch id0 0).2 := by rw [h]
    refine ⟨.iadd ⟨c7, .n32, .v 4, .v 1, .reg (.v 2)⟩, KDesc.placed, s1, rfl, h, ?_, by decide, ?_, ?_⟩ <;> rw [e] <;> decide +kernel
  · intro i h
    have : decode wBad = .error .illegal := rfl
    rw [this] at h
    cases h

theorem test_meets_MemoryStaysCanonical : ∃ s s' : State, MemoryCanonical s ∧ step s = .next s' := by
  have h : (match step (sWord wAdd) with | .next _ => true | _ => false) = true := by decide +kernel
  have hm : MemoryCanonical (sWord wAdd) := by
    show memWf (sWord wAdd).mem = true
    decide +kernel
  split at h
  · next s' hs => exact ⟨_, s', hm, hs⟩
  · cases h

end Sys2Proof.Tests
end

/-! PROOFS. The special registers: what SREAD reads and what SWRITE stores (R15, R16, R300, R309). -/

namespace Sys2Proof.Machine

open Sys2Proof.Safety

/-! ## SREAD: the index, and the register it names -/

/-- The index that an SREAD asks for: its immediate, or the word of v(a) (R309). -/
def Thread.sreadWants (t : Thread) (x : SreadOp) : Nat :=
  if x.a = .zero then x.idx.toNat else (t.reg x.a).bits.toNat

/-- Index `i` is in range of the SREAD's register, and v(a) gives it only where R15 states an index. -/
def SreadInRange (x : SreadOp) (i : Nat) : Prop :=
  i < (if x.reg.toNat = 0x14 then 4 else if x.reg.toNat = 0x15 then 1024 else 1) ∧
    (x.a = .zero ∨ x.reg.toNat = 0x14 ∨ x.reg.toNat = 0x15)

@[simp] theorem sregWide_iff (r : Nat) : sregWide r = true ↔ r = 0x0B ∨ r = 0x0C ∨ r = 0x14 := by
  simp [sregWide, or_assoc]

@[simp] theorem sregIndexed_iff (r : Nat) : sregIndexed r = true ↔ r = 0x14 ∨ r = 0x15 := by
  simp [sregIndexed]

/-- The model's test of an index: out of range, or taken from v(a) on a register without one. -/
def sreadRefuses (x : SreadOp) (i : Nat) : Bool :=
  decide (i ≥ if x.reg.toNat == 0x14 then 4 else if x.reg.toNat == 0x15 then 1024 else 1) ||
    (x.a != .zero && !sregIndexed x.reg.toNat)

theorem sreadRefuses_iff (x : SreadOp) (i : Nat) : sreadRefuses x i = true ↔ ¬ SreadInRange x i := by
  simp only [sreadRefuses, SreadInRange, ← sregIndexed_iff, Bool.or_eq_true, Bool.and_eq_true, decide_eq_true_eq,
    bne_iff_ne, Bool.not_eq_true', beq_iff_eq, Classical.not_and_iff_not_or_not,
    not_or, Nat.not_lt, Bool.not_eq_true]

/-- With operand a's tag in order, the index that SREAD asks for is its index, or is illegal. -/
theorem sreadIndex_eq {t : Thread} {x : SreadOp} (hu : Untyped t false x.a) :
    t.sreadIndex x = if sreadRefuses x (t.sreadWants x) then .error (.illegal x.d.enc) else .ok (t.sreadWants x) := by
  simp only [Thread.sreadIndex, need_untyped hu, Thread.sreadWants, sreadRefuses, beq_iff_eq]
  rfl

theorem sreadIndex_ok {t : Thread} {x : SreadOp} (hu : Untyped t false x.a) (h : SreadInRange x (t.sreadWants x)) :
    t.sreadIndex x = .ok (t.sreadWants x) :=
  (sreadIndex_eq hu).trans (if_neg fun e => (sreadRefuses_iff x _).1 e h)

theorem sreadIndex_illegal {t : Thread} {x : SreadOp} (hu : Untyped t false x.a)
    (h : ¬ SreadInRange x (t.sreadWants x)) : t.sreadIndex x = .error (.illegal x.d.enc) :=
  (sreadIndex_eq hu).trans (if_pos ((sreadRefuses_iff x _).2 h))

theorem exec_sread_ok {s : State} {id : ThreadId} {t : Thread} {x : SreadOp} {i : Nat} (h : Alone s id t x.ctl)
    (hi : t.sreadIndex x = .ok i) :
    exec (.sread x) s = .next (s.setThread id
      (if sregWide x.reg.toNat then t.setPair x.d (BitVec.ofNat 64 (s.special id t x.reg.toNat i)) 0
      else t.setReg x.d ⟨BitVec.ofNat 32 (s.special id t x.reg.toNat i), 0⟩).advance) :=
  congrArg Host.Outcome.next (runGang_alone h (by simp only [hi]; rfl))

theorem exec_sread_trap {s : State} {id : ThreadId} {t : Thread} {x : SreadOp} {tr : Trap} (h : Alone s id t x.ctl)
    (hi : t.sreadIndex x = .error tr) : exec (.sread x) s = .next (s.deliver id tr 1) :=
  congrArg Host.Outcome.next (runGang_alone_trap h (by simp only [hi]; rfl))

theorem wfSread_dest {x : SreadOp} (h : (Instr.sread x).wf = true) :
    x.d.ofTy (sregWide x.reg.toNat) = true := by
  change x.wf = true at h
  simp only [SreadOp.wf, Bool.and_eq_true] at h
  exact h.1.1.1.2

/-- What SREAD leaves: the value in a pair where the register is 64 bits wide, else in a register. -/
theorem givesSpecial_set (t : Thread) {d : Opd} {r : Nat} (v : Nat) (hd : d.ofTy (sregWide r) = true) :
    let t' := (if sregWide r then t.setPair d (BitVec.ofNat 64 v) 0 else t.setReg d ⟨BitVec.ofNat 32 v, 0⟩).advance
    if r = 0x0B ∨ r = 0x0C ∨ r = 0x14 then GivesPair t t' d (BitVec.ofNat 64 v)
    else GivesWord t t' d (BitVec.ofNat 32 v) := by
  simp only [← sregWide_iff]
  cases hw : sregWide r <;> rw [hw] at hd
  · exact givesWord_set _ hd
  · exact givesPair_set _ hd

/-! ## Values of the special registers -/

theorem kdescOf_eq {s : State} {id : ThreadId} {k : KDesc} (h : s.kdesc id.launch = some k) : s.kdescOf id = k := by
  simp [State.kdescOf, h]

theorem ltpOf_eq {s : State} {id : ThreadId} {p : Partition} (h : s.part (s.partOf (s.ctxOf id)) = some p) :
    s.ltpOf id = p.ltp := by
  simp [State.ltpOf, h]

/-- A core stands in its partition's list at its logical number (R15). -/
theorem getElem?_logicalCore {ltp : List Nat} {core : Nat} (h : core ∈ ltp) :
    ltp[logicalCore ltp core]? = some core := by
  obtain ⟨n, hn⟩ : ∃ n, ltp.findIdx? (· == core) = some n :=
    Option.isSome_iff_exists.1 (by simpa using h)
  obtain ⟨hlt, hc, -⟩ := List.findIdx?_eq_some_iff_getElem.1 hn
  simp only [logicalCore, hn, Option.getD_some]
  rw [List.getElem?_eq_getElem hlt, eq_of_beq hc]

/-- The number that has these bits below bit `n`. -/
def bitSum (f : Nat → Bool) (n : Nat) : Nat := (List.range n).foldl (fun a j => a + b2n (f j) * 2 ^ j) 0

theorem bitSum_succ (f : Nat → Bool) (n : Nat) : bitSum f (n + 1) = 2 ^ n * b2n (f n) + bitSum f n := by
  simp only [bitSum, List.range_succ, List.foldl_append, List.foldl_cons, List.foldl_nil]
  rw [Nat.add_comm, Nat.mul_comm]

theorem bitSum_lt (f : Nat → Bool) (n : Nat) : bitSum f n < 2 ^ n := by
  induction n with
  | zero => exact Nat.one_pos
  | succ n ih =>
    rw [bitSum_succ, Nat.pow_succ]
    cases f n <;> simp only [b2n] <;> simp <;> omega

theorem testBit_bitSum (f : Nat → Bool) {n j : Nat} (hj : j < n) : (bitSum f n).testBit j = f j := by
  induction n with
  | zero => exact absurd hj (Nat.not_lt_zero j)
  | succ n ih =>
    rw [bitSum_succ, Nat.testBit_two_pow_mul_add _ (bitSum_lt f n)]
    split
    · next h => exact ih h
    · next h =>
      obtain rfl : j = n := by omega
      cases f j <;> simp [b2n]

/-- `%hmap` has one bit for each cluster of the die (R105). -/
theorem testBit_hmap (s : State) (die : Nat) {j : Nat} (hj : j < 52) :
    (s.hmap die).testBit j = (s.enabledCluster (52 * die + j) && (s.cluster (52 * die + j)).fused.isSome) :=
  testBit_bitSum (fun j => s.enabledCluster (52 * die + j) && (s.cluster (52 * die + j)).fused.isSome) hj

/-- Outside every crew the crew registers read as none, 0 and 0 (R15). -/
theorem special_noCrew (s : State) (id : ThreadId) {t : Thread} (i : Nat) (h : t.crews = []) :
    s.special id t 0x08 i = 0xFFFFFFFF ∧ s.special id t 0x09 i = 0 ∧ s.special id t 0x0A i = 0 := by
  have hc : t.curCrew = none := by simp [Thread.curCrew, h]
  simp [State.special, hc]

/-! ## SWRITE -/

theorem exec_swrite_ok {s : State} {id : ThreadId} {t u : Thread} {x : SwriteOp} (h : Alone s id t x.ctl)
    (hw : t.swrite x.reg.toNat (t.reg x.a).bits (s.ceilingOf (s.ctxOf id)) = .ok u) :
    exec (.swrite x) s = .next (s.setThread id u.advance) :=
  congrArg Host.Outcome.next (runGang_alone h (by simp only [hw]; rfl))

theorem exec_swrite_trap {s : State} {id : ThreadId} {t : Thread} {x : SwriteOp} {tr : Trap}
    (h : Alone s id t x.ctl)
    (hw : t.swrite x.reg.toNat (t.reg x.a).bits (s.ceilingOf (s.ctxOf id)) = .error tr) :
    exec (.swrite x) s = .next (s.deliver id tr 1) :=
  congrArg Host.Outcome.next (runGang_alone_trap h (by simp only [hw]; rfl))

/-- R16's values of `%fctl`: ten bits, and a rounding mode of at most 4. -/
theorem fctlOk_iff (n : Nat) : fctlOk n = true ↔ n < 1024 ∧ n / 32 % 8 ≤ 4 := by
  have hb : bits n 7 5 = n / 32 % 8 := rfl
  rw [fctlOk, hb, Bool.and_eq_true, beq_iff_eq, decide_eq_true_eq, Nat.div_eq_zero_iff_lt (by decide)]

theorem swrite_fctl (t : Thread) (w : Word) (c : BitVec 3) (h : w.toNat < 1024) (hr : w.toNat / 32 % 8 ≤ 4) :
    t.swrite 0x0E w c = .ok { t with fctl := w.setWidth 10 } :=
  if_pos ((fctlOk_iff _).2 ⟨h, hr⟩)

theorem swrite_fctl_illegal (t : Thread) (w : Word) (c : BitVec 3) (h : 1024 ≤ w.toNat ∨ 4 < w.toNat / 32 % 8) :
    t.swrite 0x0E w c = .error (.illegal 0xFF) :=
  if_neg fun e => by have := (fctlOk_iff _).1 e; omega

/-- The lower of a priority and the ceiling (R15). -/
theorem capPrio_eq (w : Word) (c : BitVec 3) (h : w.toNat ≤ 7) :
    capPrio (w.setWidth 3) c = BitVec.ofNat 3 (min w.toNat c.toNat) := by
  have hw : (w.setWidth 3).toNat = w.toNat := by simp; omega
  simp only [capPrio, BitVec.lt_def, hw]
  split
  · next hc => rw [Nat.min_eq_right (Nat.le_of_lt hc), BitVec.ofNat_toNat, BitVec.setWidth_eq]
  · next hc => rw [Nat.min_eq_left (Nat.le_of_not_lt hc), BitVec.ofNat_toNat]

theorem swrite_prio (t : Thread) (w : Word) (c : BitVec 3) (h : w.toNat ≤ 7) :
    t.swrite 0x16 w c = .ok { t with prio := BitVec.ofNat 3 (min w.toNat c.toNat) } := by
  rw [← capPrio_eq w c h]
  exact if_neg (Nat.not_lt.2 h)

theorem swrite_prio_illegal (t : Thread) (w : Word) (c : BitVec 3) (h : 7 < w.toNat) :
    t.swrite 0x16 w c = .error (.illegal 0xFF) :=
  if_pos h

theorem swrite_readOnly (t : Thread) {r : Nat} (w : Word) (c : BitVec 3) (h1 : r ≠ 0x0D) (h2 : r ≠ 0x0E)
    (h3 : r ≠ 0x11) (h4 : r ≠ 0x16) : t.swrite r w c = .error (.privilege 0xFF) := by
  unfold Thread.swrite
  split
  · exact absurd rfl h1
  · exact absurd rfl h2
  · exact absurd rfl h3
  · exact absurd rfl h4
  · rfl

/-! ## The obligation -/

/-- An SREAD whose index is in range writes its special register's value (R15, R309). -/
theorem sread_gives (s : State) (id : ThreadId) (t : Thread) (x : SreadOp) (hwf : (Instr.sread x).wf = true)
    (ha : Alone s id t x.ctl) (hu : Untyped t false x.a) (h : SreadInRange x (t.sreadWants x)) :
    let v := s.special id t x.reg.toNat (t.sreadWants x)
    ∃ t', exec (.sread x) s = .next (s.setThread id t') ∧
      if x.reg.toNat = 0x0B ∨ x.reg.toNat = 0x0C ∨ x.reg.toNat = 0x14 then GivesPair t t' x.d (BitVec.ofNat 64 v)
      else GivesWord t t' x.d (BitVec.ofNat 32 v) :=
  ⟨_, exec_sread_ok ha (sreadIndex_ok hu h), givesSpecial_set t _ (wfSread_dest hwf)⟩

/-- The values that rest on the kernel's descriptor and on the partition's list of cores (R15). -/
theorem special_of_kdesc_part (s : State) (id : ThreadId) (t : Thread) (k : KDesc) (p : Partition) (i : Nat)
    (hk : s.kdesc id.launch = some k) (hp : s.part (s.partOf (s.ctxOf id)) = some p) :
    s.special id t 0x00 i = id.course * k.threads + id.cthr ∧ s.special id t 0x03 i = k.courses ∧
    s.special id t 0x04 i = k.threads ∧ s.special id t 0x05 i = logicalCore p.ltp (s.coreOf id) ∧
    s.special id t 0x15 i = p.ltp.getD i 0xFFFFFFFF := by
  simp [State.special, kdescOf_eq hk, ltpOf_eq hp]

/-- Settles O44: SREAD by its index and the width of its register, the values one by one, SWRITE by its
register. -/
theorem specialRegisters : Obligations.SpecialRegisters := by
  unfold Obligations.SpecialRegisters
  refine ⟨fun s id t x hwf ha hu => ⟨sread_gives s id t x hwf ha hu, fun h => ?_⟩, ?_, ?_⟩
  · exact exec_sread_trap ha (sreadIndex_illegal hu h)
  · intro s id t k p i hk hp
    obtain ⟨hgtid, hcourses, hthreads, hcore, hltp⟩ := special_of_kdesc_part s id t k p i hk hp
    have hlogical : ∀ n, p.ltp[s.special id t 0x05 i]? = some n → s.coreOf id ∈ p.ltp → n = s.coreOf id := by
      intro n hn hm
      rw [hcore, getElem?_logicalCore hm] at hn
      exact (Option.some.inj hn).symm
    exact ⟨hgtid, rfl, rfl, hcourses, hthreads, rfl, rfl, special_noCrew s id i, rfl, rfl, rfl, rfl, rfl, rfl, rfl,
      rfl, rfl, hltp, rfl, rfl, hlogical, fun _ => testBit_hmap s i⟩
  · intro s id t x ha
    refine ⟨fun hr => ?fflags, fun hr hn hm => ?fctl, fun hr hn => ?fctlIllegal, fun hr => ?trapfpc,
      fun hr hn => ?prio, fun hr hn => ?prioIllegal, fun h1 h2 h3 h4 => ?readOnly⟩
    case fflags => exact exec_swrite_ok ha (by rw [hr]; rfl)
    case fctl => exact exec_swrite_ok ha (by rw [hr, swrite_fctl _ _ _ hn hm])
    case fctlIllegal => exact exec_swrite_trap ha (by rw [hr, swrite_fctl_illegal _ _ _ hn])
    case trapfpc => exact exec_swrite_ok ha (by rw [hr]; rfl)
    case prio => exact exec_swrite_ok ha (by rw [hr, swrite_prio _ _ _ hn])
    case prioIllegal => exact exec_swrite_trap ha (by rw [hr, swrite_prio_illegal _ _ _ hn])
    case readOnly => exact exec_swrite_trap ha (swrite_readOnly t _ _ h1 h2 h3 h4)

end Sys2Proof.Machine

/-! PROOFS. The step: the word at the first thread's PC becomes the step's instruction or a trap, and an input
comes before it (R31, R58, R60, R62). -/

namespace Sys2Proof.Machine

/-! ## The instruction that a word is for a kernel (R58) -/

theorem legal_of_decode {s : State} {n : Nat} {w : IWord} {i : Instr} {k : KDesc} (hd : decode w = .ok i)
    (hk : s.kdesc n = some k) (hf : Instr.fits k i = true) : s.legal n w = some i := by
  simp only [State.legal, hd, hk, hf, if_true]

theorem legal_none_of_decode {s : State} {n : Nat} {w : IWord} (h : ∀ i, decode w ≠ .ok i) :
    s.legal n w = none := by
  cases hd : decode w with
  | ok i => exact absurd hd (h i)
  | error r => simp only [State.legal, hd]

/-! ## The front: what becomes of the gang at issue before the word acts (R59, R60) -/

section
variable {s s1 : State} {g : Issue} {id : ThreadId} {rest : List ThreadId} {t : Thread} {w : IWord}

theorem front_of_illegal (hg : g.gang = id :: rest) (ht : s.thread id = some t)
    (hw : s.fetch id t.pc = (.word w, s1)) (hl : s1.legal id.launch w = none) :
    s.front g = .done ((s1.trapGang g (.illegal (dField w))).afterIssue g t.pc true) := by
  simp only [State.front, hg, ht, hw, hl]

theorem front_of_legal {i : Instr} (hg : g.gang = id :: rest) (ht : s.thread id = some t)
    (hw : s.fetch id t.pc = (.word w, s1)) (hl : s1.legal id.launch w = some i)
    (hu : s1.unitAbsent w = false) (hh : s1.heldAtIssue i = false) :
    s.front g = .run i t.pc s1 := by
  simp only [State.front, hg, ht, hw, hl, hu, hh, Bool.false_eq_true, if_false]

end

/-! ## The step, by what it takes up (log entry 1) -/

theorem step_input {s : State} {i : Instr} {rest : List Instr} (h : s.inputs = i :: rest) :
    step s = runEvent i { s with inputs := rest } := by
  simp only [step, h]

theorem step_of_front_done {s s' : State} {g : Issue} (hin : s.inputs = []) (hg : s.issue = some g)
    (hf : s.front g = .done s') : step s = .next s' := by
  simp only [step, hin, hg, hf]

theorem step_of_front_run {s s' : State} {g : Issue} {i : Instr} {pc : Word} (hin : s.inputs = [])
    (hg : s.issue = some g) (hf : s.front g = .run i pc s') :
    step s = match exec i s' with
      | .next t => .next ((s'.meterIssue t g i).afterIssue g pc (s'.runEnds t g i))
      | .fault f => .fault f
      | .refused r => .refused r := by
  cases he : exec i s' <;> simp only [step, hin, hg, hf, he]

/-! ## The obligation -/

/-- Settles O59, by what the step takes up: a legal word at issue, an illegal one, an input that waits. -/
theorem stepRunsTheDecodedInstruction : Obligations.StepRunsTheDecodedInstruction := by
  unfold Obligations.StepRunsTheDecodedInstruction
  refine ⟨fun s s1 g id rest t w hin hg hgang ht hw => ⟨?legal, ?illegal⟩, ?input⟩
  case legal =>
    intro i k hd hk hfits hunit hheld
    exact step_of_front_run hin hg (front_of_legal hgang ht hw (legal_of_decode hd hk hfits) hunit hheld)
  case illegal =>
    intro hd
    exact step_of_front_done hin hg (front_of_illegal hgang ht hw (legal_none_of_decode hd))
  case input =>
    intro s i rest h
    exact step_input h

end Sys2Proof.Machine

/-! PROOFS. Starts, and runs of the tools: what each leaves (R32, R94, R350). -/

namespace Sys2Proof.Machine

/-! ## Tables and lists -/

theorem tget_map {κ α β : Type} [DecidableEq κ] (m : Table κ α) (f : α → β) (k : κ) :
    tget (m.map fun p => (p.1, f p.2)) k = (tget m k).map f := by
  induction m with
  | nil => rfl
  | cons p r ih => by_cases h : k = p.1 <;> simp [tget, h, ih]

theorem perm_placeBy {α : Type} (lt : α → α → Bool) (x : α) (l : List α) : (placeBy lt x l).Perm (x :: l) := by
  induction l with
  | nil => exact .refl _
  | cons y r ih =>
    unfold placeBy
    split
    · exact (ih.cons y).trans (.swap x y r)
    · exact .refl _

/-- Sorting loses nothing and adds nothing. -/
theorem perm_sortBy {α : Type} (lt : α → α → Bool) (l : List α) : (sortBy lt l).Perm l := by
  induction l with
  | nil => exact .refl _
  | cons x r ih => exact (perm_placeBy lt x (sortBy lt r)).trans (ih.cons x)

/-! ## Starts (R350) -/

theorem exec_start (s : State) (warm : Bool) :
    exec (if warm then .warmStart else .coldStart) s = .next (s.start warm) := by
  cases warm <;> rfl

theorem start_firmwareFails (s : State) (warm : Bool) (h : Config.firmwareValid = false) :
    s.start warm = { s.powerUp warm with startFailed := some 2 } := by
  simp only [State.start, h, Bool.not_false, if_true]

/-- Past step 2 a start trains memory when it is cold, brings up the ports and ends at step 8. -/
theorem start_firmwareVerifies (s : State) (warm : Bool) (h : Config.firmwareValid = true) :
    s.start warm =
      let u := if warm then s.powerUp warm else (s.powerUp warm).trainMemory
      { u with
        mgmt := { u.mgmt with calOk := Config.calibrationValid }
        ports := Vector.replicate 18 Port.reset
        started := Config.hypervisorValid
        startFailed := if Config.hypervisorValid then none else some 8 } := by
  unfold State.start
  rw [h]
  cases warm <;> cases Config.hypervisorValid <;> rfl

/-- What a start leaves beyond what step 1 left: memory and the keys, the ports, and how the start ended. -/
theorem start_shape (s : State) (warm : Bool) :
    let u := s.start warm
    u = { s.powerUp warm with
          mem := u.mem, units := u.units, poisoned := u.poisoned, keys := u.keys, transports := u.transports
          mgmt := u.mgmt, ports := u.ports, started := u.started, startFailed := u.startFailed } := by
  cases h : Config.firmwareValid
  · rw [start_firmwareFails s warm h]
  · rw [start_firmwareVerifies s warm h]; cases warm <;> rfl

/-- A cluster after a start: its fuses and in-field result stay, the rest is at reset. -/
def Cluster.restarted (c : Cluster) : Cluster :=
  { Cluster.reset with inService := c.inService, fused := c.fused }

theorem clusters_start (s : State) (warm : Bool) :
    (s.start warm).clusters = s.clusters.map fun p => (p.1, p.2.restarted) := by
  rw [start_shape]
  rfl

theorem cluster_start (s : State) (warm : Bool) (n : Nat) :
    (s.start warm).cluster n = (s.cluster n).restarted := by
  simp only [State.cluster, clusters_start, tget_map]
  cases tget s.clusters n <;> rfl

/-- No partition, no context and nothing that ran under one; the capabilities and the cycle count stay. -/
theorem start_leaves (s : State) (warm : Bool) :
    let u := s.start warm
    u.parts = [] ∧ u.ctxs = [] ∧ u.threads = [] ∧ u.courses = [] ∧ u.launches = [] ∧ u.queues = [] ∧
      u.ops = [] ∧ u.collectives = [] ∧ u.caps = s.caps ∧ u.cycle = s.cycle ∧ u.warm = warm := by
  dsimp only
  rw [start_shape]
  exact ⟨rfl, rfl, rfl, rfl, rfl, rfl, rfl, rfl, rfl, rfl, rfl⟩

/-- A start that is warm, or that stops at step 2, keeps memory and the keys. -/
theorem start_keepsMemory (s : State) (warm : Bool) (h : warm = true ∨ Config.firmwareValid = false) :
    let u := s.start warm
    u.mem = s.mem ∧ u.units = s.units ∧ u.poisoned = s.poisoned ∧ u.keys = s.keys ∧
      u.transports = s.transports := by
  dsimp only
  cases hf : Config.firmwareValid with
  | false => rw [start_firmwareFails s warm hf]; exact ⟨rfl, rfl, rfl, rfl, rfl⟩
  | true =>
    obtain rfl : warm = true := h.resolve_right (by simp [hf])
    rw [start_firmwareVerifies s true hf]
    exact ⟨rfl, rfl, rfl, rfl, rfl⟩

/-- A cold start past step 2 empties the part's own memory and the key store and makes a new key pair. -/
theorem start_empties (s : State) (hf : Config.firmwareValid = true) :
    let u := s.start false
    u.keys = [] ∧ u.transports = s.transports + 1 ∧ u.mem = s.mem.filter fun c => decide (gib768 ≤ c.1) := by
  dsimp only
  rw [start_firmwareVerifies s false hf]
  exact ⟨rfl, rfl, rfl⟩

theorem linkUp_start (s : State) (warm : Bool) : (s.start warm).linkUp = Config.firmwareValid := by
  cases hf : Config.firmwareValid with
  | false => rw [start_firmwareFails s warm hf]; rfl
  | true => rw [start_firmwareVerifies s warm hf]; rfl

/-- How a start ends: at step 2 or 8 when its signature fails, else started. -/
theorem start_ends (s : State) (warm : Bool) :
    ((s.start warm).started, (s.start warm).startFailed) =
      if !Config.firmwareValid then (false, some 2)
      else if !Config.hypervisorValid then (false, some 8) else (true, none) := by
  cases hf : Config.firmwareValid with
  | false => rw [start_firmwareFails s warm hf]; rfl
  | true =>
    rw [start_firmwareVerifies s warm hf]
    cases Config.hypervisorValid <;> rfl

/-! ## fjas (R32) -/

theorem isError_iff (werror : Bool) (rs : List Report) :
    isError werror rs = true ↔ ∃ r ∈ rs, werror = true ∨ r.warn = false := by
  simp [isError]

/-- The diagnostics of expansion and of assembly, in the order of the lines. -/
theorem isError_inOrder (werror : Bool) (xs ys : List Report) :
    isError werror (inOrder (xs.reverse ++ ys.reverse)) = true ↔
      ∃ r ∈ xs ++ ys, werror = true ∨ r.warn = false := by
  have hp : (inOrder (xs.reverse ++ ys.reverse)).Perm (xs ++ ys) :=
    (perm_sortBy _ _).trans (xs.reverse_perm.append ys.reverse_perm)
  simp only [isError_iff, hp.mem_iff]

/-- The tools after a run that leaves these files and this exit status, whatever is on standard error. -/
def Tools.EndsAs (t : Tools) (files : Table String (List Byte)) (status : Nat) : Prop :=
  ∃ err, t = ⟨files, err, status⟩

theorem exec_fjasRun {s : State} {args : List String} {files : Table String (List Byte)} {status : Nat}
    (h : (s.tools.fjas args).EndsAs files status) :
    ∃ err, exec (.fjasRun args) s = .next { s with tools := ⟨files, err, status⟩ } := by
  obtain ⟨err, e⟩ := h
  exact ⟨err, by rw [← e]; rfl⟩

theorem fjas_invalid {t : Tools} {args : List String} (h : fjasOpts args {} = none) :
    (t.fjas args).EndsAs t.files 2 := by
  simp only [Tools.fjas, h]
  exact ⟨_, rfl⟩

section
variable {t : Tools} {args : List String} {o : FjasOpts} (ho : fjasOpts args {} = some o)
include ho

theorem fjas_noSource (h : o.src = none) : (t.fjas args).EndsAs t.files 2 := by
  simp only [Tools.fjas, ho, h]
  exact ⟨_, rfl⟩

theorem fjas_missing {src : String} (hs : o.src = some src) (h : tget t.files src = none) :
    (t.fjas args).EndsAs t.files 2 := by
  cases hd : fjasDefs o.defs [] <;> simp only [Tools.fjas, ho, hs, hd, h] <;> exact ⟨_, rfl⟩

/-- A run that assembles its source and writes no listing: the object is written unless a diagnostic is an
error. -/
theorem fjas_assembles {src : String} {bs : List Byte} {defs : Table Chars Int} (hs : o.src = some src)
    (hb : tget t.files src = some bs) (hd : fjasDefs o.defs [] = some defs)
    (hw : unwritable (o.out.getD (defaultOut src)) = false) (hl : o.list = none) :
    let e := expandSource defs (linesOf bs)
    let x := assemble o.reuse defs e.out.reverse
    if isError o.werror (inOrder (e.reports.reverse ++ x.reports.reverse)) then (t.fjas args).EndsAs t.files 1
    else (t.fjas args).EndsAs (tput t.files (o.out.getD (defaultOut src)) x.obj.file) 0 := by
  dsimp only
  split
  · next h =>
    simp only [Tools.fjas, ho, hs, hb, hd, hw, hl, h, Option.any_none, Bool.or_self, Bool.false_eq_true, if_false,
      if_true]
    exact ⟨_, rfl⟩
  · next h =>
    simp only [Tools.fjas, ho, hs, hb, hd, hw, hl, h, Option.any_none, Bool.or_self, Bool.false_eq_true, if_false]
    exact ⟨_, rfl⟩

end

/-! ## fjld (R94) -/

/-- The state after a run of `fjld` that leaves these files, this count of choices and this exit status. -/
def State.FjldEndsAs (s u : State) (files : Table String (List Byte)) (free status : Nat) : Prop :=
  ∃ err, u = { s with tools := ⟨files, err, status⟩, free := free }

theorem exec_fjldRun {s : State} {args : List String} {files : Table String (List Byte)} {free status : Nat}
    (h : s.FjldEndsAs (s.fjld none args) files free status) :
    ∃ err, exec (.fjldRun none args) s = .next { s with tools := ⟨files, err, status⟩, free := free } := by
  obtain ⟨err, e⟩ := h
  exact ⟨err, congrArg Host.Outcome.next e⟩

theorem toolEnd_endsAs (s : State) (status : Nat) (err : List String) :
    s.FjldEndsAs (s.toolEnd status err) s.tools.files s.free status :=
  ⟨joinLines err, rfl⟩

/-- The same once the loader has chosen a base. -/
theorem toolEnd_free_endsAs (s : State) (free status : Nat) (err : List String) :
    s.FjldEndsAs (State.toolEnd { s with free := free } status err) s.tools.files free status :=
  ⟨joinLines err, rfl⟩

theorem fjld_invalid {s : State} {args : List String} (h : fjldOpts args {} = none) :
    s.FjldEndsAs (s.fjld none args) s.tools.files s.free 2 := by
  simp only [State.fjld, h]
  exact toolEnd_endsAs ..

/-- Objects of which one is missing are not read. -/
theorem readAll_missing {files : Table String (List Byte)} {l : List String}
    (h : ∃ f ∈ l, tget files f = none) : ∃ d, readAll files l = .error d := by
  induction l with
  | nil => simp at h
  | cons f r ih =>
    cases hf : tget files f with
    | none => exact ⟨⟨"", "no such object"⟩, by simp only [readAll, hf]; rfl⟩
    | some bs =>
      obtain ⟨d, hd⟩ := ih (by simpa [hf] using h)
      cases ho : readObj bs with
      | error e => exact ⟨e, by simp only [readAll, hf, ho]; rfl⟩
      | ok p => exact ⟨d, by simp only [readAll, hf, ho, hd]; rfl⟩

/-- A base that is not a multiple of 65,536 is L103. -/
theorem optionFault_misaligned {o : FjldOpts} {b : Nat} (objs : List Linked) (ho : o.base = some b)
    (hb : b % 65536 ≠ 0) : ∃ d, optionFault o objs = some d := by
  have h : (o.base.filter fun b => b % 65536 != 0) = some b := by simp [ho, hb]
  simp only [optionFault, h]
  exact ⟨_, rfl⟩

section
variable {s : State} {args : List String} {o : FjldOpts} (ho : fjldOpts args {} = some o) (hout : o.out = none)
include ho hout

theorem fjld_unread {d : Diag} (h : readAll s.tools.files o.objs = .error d) :
    s.FjldEndsAs (s.fjld none args) s.tools.files s.free 2 := by
  simp only [State.fjld, ho, hout, h, Option.any_none, Bool.false_eq_true, if_false]
  exact toolEnd_endsAs ..

theorem fjld_optionFault {objs : List Linked} {d : Diag} (hr : readAll s.tools.files o.objs = .ok objs)
    (h : optionFault o objs = some d) : s.FjldEndsAs (s.fjld none args) s.tools.files s.free 2 := by
  simp only [State.fjld, ho, hout, hr, h, Option.any_none, Bool.false_eq_true, if_false]
  exact toolEnd_endsAs ..

section
variable {objs : List Linked} {base : Nat} (hr : readAll s.tools.files o.objs = .ok objs)
  (hb : s.chooseBase none o objs = some base) (hf : optionFault o objs = none)
include hr hb hf

theorem fjld_loadFails {e : List String}
    (h : (Image.mk objs (placeImage objs base).1 (placeImage objs base).2 o.binds).load = .error e) :
    s.FjldEndsAs (s.fjld none args) s.tools.files (s.free + 1) 2 := by
  simp only [State.fjld, ho, hout, hr, hf, hb, h, Option.map_none, Option.any_none, Bool.false_eq_true, if_false]
  exact toolEnd_free_endsAs ..

/-- An image that loads ends with status 1 where a kernel is rejected and with 0 otherwise. -/
theorem fjld_loads {x : Loading}
    (h : (Image.mk objs (placeImage objs base).1 (placeImage objs base).2 o.binds).load = .ok x) :
    s.FjldEndsAs (s.fjld none args) s.tools.files (s.free + 1) (if x.rejected = [] then 0 else 1) := by
  simp only [State.fjld, ho, hout, hr, hf, hb, h, Option.map_none, Option.any_none, Bool.false_eq_true, if_false,
    List.isEmpty_iff]
  exact toolEnd_free_endsAs ..

end
end

/-! ## The obligation -/

/-- Settles O55: a start by the state of its two signatures, `fjas` and `fjld` by how far the run comes. -/
theorem startsAndToolRuns : Obligations.StartsAndToolRuns := by
  unfold Obligations.StartsAndToolRuns
  refine ⟨fun s warm => ?start, fun s args => ⟨fun h => exec_fjasRun (fjas_invalid h), fun o ho => ?fjas⟩,
    fun s args => ⟨fun h => exec_fjldRun (fjld_invalid h), fun o ho hout => ?fjld⟩⟩
  case start =>
    obtain ⟨hparts, hctxs, hthreads, hcourses, hlaunches, hqueues, hops, hcoll, hcaps, hcycle, hwarm⟩ :=
      start_leaves s warm
    refine ⟨_, exec_start s warm, hparts, hctxs, hthreads, hcourses, hlaunches, hqueues, hops, hcoll, hcaps, hcycle,
      hwarm, fun n => by rw [cluster_start]; exact ⟨rfl, rfl⟩, ?memory, linkUp_start s warm, start_ends s warm⟩
    split
    · next h => exact start_keepsMemory s warm h
    · next h =>
      obtain ⟨rfl, hf⟩ : warm = false ∧ Config.firmwareValid = true := by simpa using h
      exact start_empties s hf
  case fjas =>
    refine ⟨fun h => exec_fjasRun (fjas_noSource ho h), fun src hs =>
      ⟨fun h => exec_fjasRun (fjas_missing ho hs h), fun bs defs hb hd hw hl => ?assembles⟩⟩
    have hrun := fjas_assembles ho hs hb hd hw hl
    simp only [isError_inOrder] at hrun
    exact ⟨fun h => exec_fjasRun (by rwa [if_pos h] at hrun), fun h => exec_fjasRun (by rwa [if_neg h] at hrun)⟩
  case fjld =>
    refine ⟨fun h => ?missing, fun objs hr => ⟨fun ⟨b, hb, hmod⟩ => ?misaligned, fun base hb hf =>
      ⟨fun e h => exec_fjldRun (fjld_loadFails ho hout hr hb hf h),
        fun x h => exec_fjldRun (fjld_loads ho hout hr hb hf h)⟩⟩⟩
    case missing =>
      obtain ⟨d, hd⟩ := readAll_missing h
      exact exec_fjldRun (fjld_unread ho hout hd)
    case misaligned =>
      obtain ⟨d, hd⟩ := optionFault_misaligned objs hb hmod
      exact exec_fjldRun (fjld_optionFault ho hout hr hd)

end Sys2Proof.Machine

/-! PROOFS. The opcode map and the encodings: decoding and encoding are each other's inverse (R48 to R58). -/

namespace Sys2Proof.Laws.Decodes

/-- The law of each constructor, in the order in which `Instr` declares them. -/
theorem statement (i : Instr) : Statement i :=
  i.casesOn
    iadd isub imin imax iabs and or xor not andn shl shr sar rol bfx bfi prmt mov movi movhi addpchi lea imul
    imulh imad imadw idiv irem dividerComplete popc clz ctz brev icmp sel plop pmov pset bra brx call callx ret
    exit nop ld st lds sts ldc ldp stp pref loadReturn acq rel fence commitRegister atom cas atomicReturn atomd
    dflush atomdDrain fadd fsub fmul ffma fmin fmax fcmp fclass fdiv fsqrt fdot4 dadd dsub dmul dfma dmin dmax
    dcmp ddiv dsqrt dclass cvt cvts cvti tagset tagget fexp2 flog2 frcp frsq fsin fcos ftanh fsigm fgelu rmsn
    smax rowsum rowscale rowOpWriteCycle join leave crew shfl vote cred cscan crewGather binit barv bwait bsync
    cpy cpyx cpyo publ publFlip cpq copyRetire wait mclm mrel mlds mldsComplete mpost macc mzero engineGrant
    engineEntryWriteCycle trace tracec replay hitq asph trix boxx traversalComplete kclr klobe knet kadd kmix
    kcoat kscl ksample keval kpdf closureOpComplete kspill kfill kinfo yieldb resume binAutoResume wake binq
    tsort tcomp binSortComplete monitor mwait mwaitWake mwaitTimeout hold unhold wreg wdrop purlinEntryExpiry
    sysc tfence tret trap sread swrite launch nopre nopreExpiry bkpt slotTurn threadOverdue pullTimeout
    queueEnable queueDisable queueClearRefusal queueCtlBadOp doorbellWrite queueSlotAssign queueAgeOverdue
    packetHeadCheck packetBegin dependencePoll courseDispatch resplitTimerExpiry coreResplit resplitTimeWrite
    courseRetire launchEnd faultQueueAnswer tlbInvalPage tlbInvalContext tlbInvalPartition syscAnswer softRequest
    hardHalt contextReset preemptGraceExpiry preemptKillExpiry haltComplete contextRestore preemptTimeWrite
    debugStep debugBreak debugContinue ctxS1RootWrite ctxCeilWrite rollbackReq infieldTestStart
    infieldMoveDeferExpiry infieldTestComplete hvFaultQueueAnswer hvTlbInvalPage hvTlbInvalContext
    hvTlbInvalPartition settlement collDoorbell privateStorePerformed triaterPortOutOfService collectiveReform
    createPartition destroyPartition setContext freeContext loadKey revokeKey snapshot setTokens migrateOut
    migrateIn setCollectiveGroup attest exportTransportKey hvCmdBadOp hvTlbInvalPart fjasRun fjldRun
    uncorrectableRegisterRead engineUncorrectableError hostAccess collectiveComplete registerWrite absentPagePull
    migrationPathFailure coldStart warmStart linkRemoteAccess triaterFlitReceived migrationPullRequest
    migrationDataReceived twinMismatch pageWalk

end Sys2Proof.Laws.Decodes

namespace Sys2Proof

/-! ## The three answers of the decoder -/

/-- A word that decodes names a well-formed instruction and is that instruction's word. -/
theorem wf_and_encode_of_decode {w : IWord} {i : Instr} (h : decode w = .ok i) : i.wf = true ∧ encode i = some w := by
  unfold decode at h
  split at h
  · cases h
  · next j hj =>
    split at h
    · next hc =>
      cases h
      simpa only [Bool.and_eq_true, beq_iff_eq] using hc
    · cases h

/-- A word decodes to the well-formed instructions whose word it is, and to no other. -/
theorem decode_eq_ok_iff {w : IWord} {i : Instr} : decode w = .ok i ↔ i.wf = true ∧ encode i = some w :=
  ⟨wf_and_encode_of_decode, fun ⟨hwf, henc⟩ => Laws.Decodes.statement i w henc hwf⟩

/-- A word whose fields give an instruction with another word is illegal: some bit that the entry leaves unused or
reserves is set (R58). -/
theorem decode_illegal_of_encode_ne {w : IWord} {i : Instr} (hp : parseRaw (Raw.ofWord w) = some i)
    (he : encode i ≠ some w) : decode w = .error .illegal := by
  simp only [decode, hp, beq_eq_false_iff_ne.mpr he, Bool.and_false, Bool.false_eq_true, if_false]

/-- A word of a pair that the map does not assign is no instruction (R57, R58). -/
theorem decode_unassigned_of_parseRaw_none {w : IWord} (hp : parseRaw (Raw.ofWord w) = none) :
    decode w = .error .unassigned := by
  simp only [decode, hp]

/-! ## The obligations -/

/-- Settles O57: one way by the law of each constructor, the other by the decoder's own check of the word. -/
theorem encodeDecode : Obligations.EncodeDecode := by
  unfold Obligations.EncodeDecode
  exact ⟨fun _ _ hwf henc => decode_eq_ok_iff.mpr ⟨hwf, henc⟩, fun _ _ h => decode_eq_ok_iff.mp h⟩

/-- Settles O58: each of the nine words is its instruction's word; the word with bit 64 set has the fields of
`iadd.n32 v4, v1, v2`, whose word it is not; group 0x0 assigns no fn 0x16. -/
theorem wordsDecode : Obligations.WordsDecode := by
  unfold Obligations.WordsDecode
  refine ⟨?iadd, ?imadw, ?icmp, ?bra, ?sts, ?ffma, ?shfl, ?cpy, ?sysc, ?reserved, ?unassigned⟩
  case iadd | imadw | icmp | bra | sts | ffma | shfl | cpy | sysc => exact decode_eq_ok_iff.mpr ⟨rfl, rfl⟩
  case reserved =>
    exact decode_illegal_of_encode_ne (i := .iadd ⟨⟨false, 7, false, false, false⟩, .n32, .v 4, .v 1, .reg (.v 2)⟩) rfl
      (by decide)
  case unassigned => exact decode_unassigned_of_parseRaw_none rfl

end Sys2Proof
